-- ==== Sys2Proof/Word.lean ====
section
/-! DEFINITION. The words the manual treats as bits: bytes, register words and the line seconds count. -/

namespace Sys2Proof

/-- One byte of the common store, of a reader frame or of a station order (R181). -/
abbrev Byte := BitVec 8

/-- A register word (R182). -/
abbrev Word := BitVec 32

/-- A value of the line seconds count, which wraps (R179). -/
abbrev Seconds := BitVec 32

/-- A roster index, 0 to 47 (R1). -/
abbrev RosterIndex := Fin 48

/-- A bay; the manual's bay n is the value n - 1. -/
abbrev BayId := Fin 6

/-- A note slot, 0 to 31 (R53). -/
abbrev SlotId := Fin 32

end Sys2Proof
end

