-- ==== Sys2Proof/Syntax.lean ====
section
/-! DEFINITION. The commands of the block: one constructor for each row of spec/opcode_table.json. -/

namespace Sys2Proof

/-- A lane, its reader, its track and its group of bays share one letter (chapter 5). -/
inductive LaneId where
  | a
  | b
deriving DecidableEq, Repr

/-- The two intensifiers (R133). -/
inductive IntensifierId where
  | one
  | two
deriving DecidableEq, Repr

/-- The two stations (R145). -/
inductive StationId where
  | stamper
  | defacer
deriving DecidableEq, Repr

/-- The exits with an exit eye (R21). -/
inductive Exit where
  | releaseConveyor
  | scrapBin
  | holdChute
deriving DecidableEq, Repr

/-- The level inputs of a bay (R94). -/
inductive BayInput where
  | present
  | full
  | doorClosed
deriving DecidableEq, Repr

/-- The widths of a host bus access to the store (R162). -/
inductive AccessSize where
  | byte
  | halfword
  | word
deriving DecidableEq, Repr

/-- Where a transfer starts (R74). -/
inductive TransferSource where
  | laneHead (l : LaneId)
  | trackHead (l : LaneId)
  | bay (n : BayId)
  | outfeedHead
  | station (st : StationId)
deriving DecidableEq, Repr

/-- Which transfer in flight a limit expiry names: its owner and its source (R74, R76). -/
inductive TransferRef where
  /-- the loading transfer owned by a bay -/
  | loading (n : BayId)
  /-- the transfer of a bay onto its group's track, owned by the lane -/
  | ontoTrack (n : BayId)
  /-- a bay's transfer into the outfeed -/
  | bayToOutfeed (n : BayId)
  /-- a lane's bypass transfer into the outfeed -/
  | laneToOutfeed (l : LaneId)
  /-- the loading transfer owned by a station -/
  | nest (st : StationId)
  /-- the outfeed head's transfer to the release exit or the hold chute -/
  | headToExit
  /-- a station's eject, owned by the outfeed -/
  | eject (st : StationId)
deriving DecidableEq, Repr

/-- What a station's DONE line does (R145, R153): a strobe, after which the line is left at a level, or its going off, which is
no strobe (log 14). -/
inductive DoneChange where
  | strobe (levelAfter : Bool)
  | off
deriving DecidableEq, Repr

/-- The commands. `arg` is bits 23 to 0 of a command word (R182), and `result` the RESULT lines of a
station as they stand (R153). -/
inductive Instr where
  | powerOnReset
  | lineReset (enable : Bool)
  | interruptEnable (enable : Bool)
  | overwrite (word : Word)
  | registerWrite (address : Word) (size : AccessSize) (value : Word)
  | nmbRead
  | unknownCommand (word : Word)
  | takeTables (arg : BitVec 24)
  | setDate (arg : BitVec 24)
  | run (arg : BitVec 24)
  | stopLine (arg : BitVec 24)
  | clearStatus (arg : BitVec 24)
  | postNote (arg : BitVec 24)
  | withdrawNote (arg : BitVec 24)
  | releaseEntry (arg : BitVec 24)
  | bayHold (arg : BitVec 24)
  | bayResume (arg : BitVec 24)
  | bayAbort (arg : BitVec 24)
  | bayZero (arg : BitVec 24)
  | takeOutOfService (arg : BitVec 24)
  | serviceLine (arg : BitVec 24)
  | returnToService (arg : BitVec 24)
  | laneClear (arg : BitVec 24)
  | eStopAsserted
  | eStopReleased
  | lineSecondsAdvance
  | zeroValidityLapse (n : BayId)
  | readerCharacter (l : LaneId) (value : Byte) (stopGood : Bool)
  | readerBreak (l : LaneId)
  | arrival (l : LaneId)
  | noteWaitExpiry (l : LaneId)
  | bayAllocation (l : LaneId)
  | claimGrant
  | outfeedHeadDispatch
  | loadingEnd (n : BayId)
  | trackEye (l : LaneId)
  | outfeedEye
  | exitEye (e : Exit)
  | transferJam (t : TransferRef)
  | bayInputChange (n : BayId) (input : BayInput) (level : Bool)
  | fillLimitExpiry (n : BayId)
  | grant
  | grantAtBay (n : BayId)
  | intensifierRelease (n : BayId)
  | retuneExpiry (i : IntensifierId)
  | faultInputChange (i : IntensifierId) (level : Bool)
  | samplePair (n : BayId) (pressure gauge : BitVec 16)
  | riseLimitExpiry (n : BayId)
  | holdExpiry (n : BayId)
  | releaseLimitExpiry (n : BayId)
  | settleExpiry (n : BayId)
  | pressurisedLimitExpiry (n : BayId)
  | checkExpiry (n : BayId)
  | nestEye (st : StationId)
  | stationNestEyeOff (st : StationId)
  | orderOffer (st : StationId)
  | guardClosedChange (level : Bool)
  | stationReadyChange (st : StationId) (level : Bool)
  | taken (st : StationId) (level : Bool)
  | takeLimitExpiry (st : StationId)
  | doneStrobe (st : StationId) (result : BitVec 4) (change : DoneChange)
  | workLimitExpiry (st : StationId)
  | ejectBegin (st : StationId)
deriving DecidableEq, Repr

end Sys2Proof
end

