-- ==== Sys2Proof/WellFormed.lean ====
section
/-! DEFINITION. Which commands are well formed: what the row of the table says of its operands beyond their types. -/

namespace Sys2Proof

/-- The command codes of the command list (R167). -/
def listedCodes : List Nat :=
  [0x01, 0x02, 0x03, 0x04, 0x05, 0x10, 0x11, 0x12, 0x20, 0x21, 0x22, 0x23, 0x24, 0x25, 0x30, 0x31]

/-- The command code of a command word: bits 31 to 24 (R182). -/
def commandCode (word : Word) : Nat := (word >>> 24).toNat

/-- The values that fit an access of a size (R162). -/
def AccessSize.fits : AccessSize → Word → Bool
  | .byte, v => decide (v.toNat < 0x100)
  | .halfword, v => decide (v.toNat < 0x10000)
  | .word, _ => true

/-- Well-formedness: an UNKNOWN_COMMAND word has a code outside the command list (R166), and a host write's
value fits its width (R162). Every other command's operands are bounded by their types. -/
def Instr.wellFormed : Instr → Bool
  | .unknownCommand word => !(listedCodes.contains (commandCode word))
  | .registerWrite _ size value => size.fits value
  | _ => true

end Sys2Proof
end

