-- ==== Sys2Proof/Decode.lean ====
section
/-! DEFINITION. The command that a command word spells by its code, and the commands that a word of opcode_table.json spells:
none, since no row of the table gives bits ("fields" is empty in each, and none has a pattern). -/

namespace Sys2Proof

/-- The command of a word written into CMB: its code in bits 31 to 24 picks the command, and bits 23 to 0 are its argument
(R166, R167, R182). -/
def commandOfWord (word : Word) : Instr :=
  let arg : BitVec 24 := word.setWidth 24
  match commandCode word with
  | 0x01 => .takeTables arg
  | 0x02 => .setDate arg
  | 0x03 => .run arg
  | 0x04 => .stopLine arg
  | 0x05 => .clearStatus arg
  | 0x10 => .postNote arg
  | 0x11 => .withdrawNote arg
  | 0x12 => .releaseEntry arg
  | 0x20 => .bayHold arg
  | 0x21 => .bayResume arg
  | 0x22 => .bayAbort arg
  | 0x23 => .bayZero arg
  | 0x24 => .takeOutOfService arg
  | 0x25 => .serviceLine arg
  | 0x30 => .returnToService arg
  | 0x31 => .laneClear arg
  | _ => .unknownCommand word

/-- The command a word spells by the table's bits: none, since no row of the table gives any. A command word of CMB is read by
`commandOfWord`. -/
def decodeTableWord (_nbits _w : Nat) : Option Instr := none

end Sys2Proof
end

