-- ==== Sys2Proof/Config.lean ====
section
/-! DEFINITION. The fixed figures of the part and the free values that the manual leaves open. -/

namespace Sys2Proof.Config

/-- Most items of a lane queue (R68). -/
def laneCapacity : Nat := 12
/-- Most positions of a recirculation track, reservations included (R78). -/
def trackCapacity : Nat := 3
/-- Most positions of the outfeed queue, reservations included (R80). -/
def outfeedCapacity : Nat := 8
/-- The infeed permit needs more free entries than this (R71). -/
def permitReserve : Nat := 2
/-- The fill limit, in seconds (R97). -/
def fillLimit : Nat := 60
/-- The release limit, in seconds (R103). -/
def releaseLimit : Nat := 60
/-- The length of a zero check, in seconds (R124). -/
def checkTime : Nat := 40
/-- The length of a retune, in seconds (R136). -/
def retuneTime : Nat := 15
/-- The take limit of one order byte, in seconds (R151). -/
def takeLimit : Nat := 2
/-- The stamper's work limit, in seconds (R153). -/
def stamperWorkLimit : Nat := 20
/-- The defacer's work limit, in seconds (R153). -/
def defacerWorkLimit : Nat := 40
/-- The fixed margin of a test allowance, in seconds (R28). -/
def allowanceMargin : Nat := 120
/-- The layout version written into the header (R162). -/
def layoutVersion : Byte := 1#8
/-- What a byte of a region the RQ4 never writes reads as before any write.
DESIGN CHOICE, unsafe (log 6): the manual calls that content undefined. -/
def unwrittenByte : Byte := 0#8

/-- FREE VALUE (log 13): in which order the alerts raised at the end of a line reset join the list.
The manual says 'they join it in either order' (R180). The six values are the orders of three alerts. -/
opaque resetAlertOrder : Nat → Fin 6

/-- FREE VALUE (log 13): whether the OUTCOME notice of a NO CYLINDER result joins the list before its
ALERT; two units hand them over together and 'either may be appended first' (R169). -/
opaque outcomeFirst : Nat → Bool

/-- FREE VALUE (log 31): whether a CMB write that is taken right behind a command reached the port before CMB became empty;
'if the write is taken first, it is discarded and OVERWRITE is set' (R165). -/
opaque writeBeforeEmptying : Nat → Bool

end Sys2Proof.Config
end

