-- ==== Sys2Proof/Machine/State.lean ====
section
/-! DEFINITION. The state of the block: every register, queue, timer, output, input level and record field the manual
gives the RQ4, the queue of waiting commands, and the state right after power-on. -/

namespace Sys2Proof.Machine

/-! ## Fixed sets of names -/

/-- The run states (R174). -/
inductive RunState where
  | awaitingTables
  | ready
  | running
  | stopping
  | eStopped
deriving DecidableEq, Repr

/-- The states of a roster entry (R2). -/
inductive RosterState where
  | free
  | awaitingNote
  | queued
  | testing
  | outbound
  | done
deriving DecidableEq, Repr

/-- The places of a roster entry (R3). -/
inductive Place where
  | nowhere
  | lane (l : LaneId)
  | recirc (l : LaneId)
  | inTransfer
  | bay (n : BayId)
  | outfeed
  | station (st : StationId)
deriving DecidableEq, Repr

/-- The routes (R4). -/
inductive Route where
  | test
  | passThrough
  | deface
  | stamp
  | hold
deriving DecidableEq, Repr

/-- The void causes (R7). -/
inductive VoidCause where
  | noFill
  | noPressure
  | leak
  | overpressure
  | pressureLimit
  | zeroLapsed
  | gauge
  | eStop
deriving DecidableEq, Repr

/-- The reason codes of verdicts, holds and outcomes (R8). -/
inductive Reason where
  | none
  | visual
  | ratio
  | elastic
  | rupture
  | retestsExhausted
  | unidentified
  | unannounced
  | duplicateIdentity
  | unknownType
  | aborted
  | markUncertain
  | defaceUncertain
  | laneClear
  | transferJam
  | noCylinder
deriving DecidableEq, Repr

/-- The verdicts, a CONDEMN with its reason (R8). -/
inductive Verdict where
  | pass
  | condemn (reason : Reason)
  | notDue
deriving DecidableEq, Repr

/-- The outcomes (R8). -/
inductive OutcomeCode where
  | passedMarked
  | notDueReleased
  | condemnedDefaced
  | held
  | removed
  | missing
deriving DecidableEq, Repr

/-- The visual verdicts of a note (R53). -/
inductive Visual where
  | accept
  | condemn
deriving DecidableEq, Repr

/-- The alert codes 1 to 15, in the order of their numbers (R46, R69, R70, R76, R118, R138, R151, R154, R84, R178). -/
inductive AlertCode where
  | readerBreak
  | laneOverfill
  | unrosteredArrival
  | transferJam
  | gaugeDrift
  | ventFailure
  | ruptureInspection
  | intensifierFault
  | noAnswer
  | toolFault
  | noCylinder
  | protocol
  | unrosteredHeld
  | eStopAsserted
  | eStopReleased
deriving DecidableEq, Repr

/-- The result codes 0 to 7 (R167). -/
inductive ResultCode where
  | accepted
  | unknownCommand
  | badArgument
  | wrongState
  | duplicate
  | tooLate
  | notReady
  | tableError
deriving DecidableEq, Repr

/-- The receiver states (R42). -/
inductive ReaderState where
  | off
  | hunt
  | frame
  | fault
deriving DecidableEq, Repr

/-- The states of a lane and of the outfeed (R68, R80). -/
inductive FlowState where
  | normal
  | fault
deriving DecidableEq, Repr

/-- The bay states (R93). -/
inductive BayState where
  | starting
  | zeroing
  | idle
  | loading
  | filling
  | awaitIntensifier
  | pressurising
  | holding
  | suspended
  | releasing
  | settling
  | unloading
  | offline
  | fault
deriving DecidableEq, Repr

/-- The release causes (R92). -/
inductive ReleaseCause where
  | holdEnd
  | rupture
  | abort
  | void (c : VoidCause)
deriving DecidableEq, Repr

/-- The states a SUSPENDED bay was held from (R111). -/
inductive SuspendedFrom where
  | awaitIntensifier
  | pressurising
  | holding
deriving DecidableEq, Repr

/-- The resume points (R109). -/
inductive ResumePoint where
  | fill
  | request
  | suspend
  | unloadDecision
deriving DecidableEq, Repr

/-- The step an E-STOP keeps a bay from until the release (R108, R120). -/
inductive KeptStep where
  | fillStep
  | zeroing (rp : ResumePoint)
deriving DecidableEq, Repr

/-- The intensifier states (R133). -/
inductive IntensifierState where
  | offline
  | fault
  | free
  | retuning
  | driving
deriving DecidableEq, Repr

/-- The station states (R146). -/
inductive StationState where
  | idle
  | nestLoading
  | nestLoaded
  | offering
  | working
  | ejecting
  | fault
  | offline
deriving DecidableEq, Repr

/-- The gate outputs of the transfer paths (R74). -/
inductive Gate where
  | laneFeed (n : BayId)
  | track (n : BayId)
  | unload (n : BayId)
  | bypass (l : LaneId)
  | outfeedHead
  | eject (st : StationId)
deriving DecidableEq, Repr

/-- The records the RQ4 writes into the store, but for the note slots, which are plain bytes of the store (R162). A bay's
trace ring is edited under its bay record's count (R102). -/
inductive Record where
  | header
  | lane (l : LaneId)
  | intensifier (i : IntensifierId)
  | station (st : StationId)
  | bay (n : BayId)
  | trace (n : BayId)
  | entry (i : RosterIndex)
deriving DecidableEq, Repr

/-- The nest of a station (R145). -/
inductive Nest where
  | empty
  | incoming
  | loaded
  | outgoing
deriving DecidableEq, Repr

/-! ## Records -/

/-- A year and a month (00_scope.md, Conventions). -/
structure Date where
  year  : Nat
  month : Nat
deriving DecidableEq, Repr

/-- What a tag frame carries (R41). -/
structure Identity where
  serial : List Byte
  date   : Date
deriving DecidableEq, Repr

/-- The settings record (R26). -/
structure Settings where
  stationCode      : List Byte
  zeroInterval     : Nat
  driftLimit       : Nat
  noteWaitLimit    : Nat
  riseLimit        : Nat
  settleTime       : Nat
  pressurisedLimit : Nat
  transferLimit    : Nat
  almostFullA      : Nat
  almostFullB      : Nat
  almostEmptyA     : Nat
  almostEmptyB     : Nat
deriving DecidableEq, Repr

/-- A type entry (R28). -/
structure TypeEntry where
  defined       : Bool
  interval      : Nat
  capacity      : Nat
  testPressure  : Nat
  holdTime      : Nat
  elasticLimit  : Nat
  ratioLimit    : Nat
  dropTolerance : Nat
  template      : Nat
  strikeClass   : Nat
deriving DecidableEq, Repr

/-- The copied test parameters of an entry (R6). -/
structure Params where
  testPressure  : Nat
  holdTime      : Nat
  ratioLimit    : Nat
  elasticLimit  : Nat
  dropTolerance : Nat
  capacity      : Nat
  template      : Nat
  strikeClass   : Nat
deriving DecidableEq, Repr

/-- The measurement set of an entry (R7). -/
structure Measurements where
  baseline : Option Nat
  peak     : Option Nat
  et       : Option Int
  drop     : Option Int
  ep       : Option Nat
  ratio    : Option Nat
deriving DecidableEq, Repr

/-- The measurement set with every field absent (R7). -/
def Measurements.absent : Measurements := ⟨none, none, none, none, none, none⟩

/-- A roster entry (R2 to R8). -/
structure Entry where
  editCount    : Byte
  state        : RosterState
  place        : Place
  route        : Option Route
  serial       : Option (List Byte)
  tagDate      : Option Date
  noteSlot     : Option SlotId
  typeCode     : Option (Fin 32)
  visual       : Option Visual
  forceTest    : Bool
  params       : Option Params
  countedVoids : Nat
  testsStarted : Nat
  lastVoid     : Option VoidCause
  lastBay      : Option BayId
  meas         : Measurements
  verdict      : Option Verdict
  holdReason   : Option Reason
  mark         : Option (List Byte)
  arrivalTime  : Seconds
  verdictTime  : Option Seconds
  doneTime     : Option Seconds
  outcome      : Option (OutcomeCode × Reason)
deriving DecidableEq, Repr

/-- A FREE entry: every optional field absent, every count and the arrival time, which is not optional, zero (R1, R8, R24;
log 17). -/
def Entry.freeEntry (editCount : Byte) : Entry where
  editCount := editCount
  state := .free
  place := .nowhere
  route := none
  serial := none
  tagDate := none
  noteSlot := none
  typeCode := none
  visual := none
  forceTest := false
  params := none
  countedVoids := 0
  testsStarted := 0
  lastVoid := none
  lastBay := none
  meas := Measurements.absent
  verdict := none
  holdReason := none
  mark := none
  arrivalTime := 0#32
  verdictTime := none
  doneTime := none
  outcome := none

/-- A note as the expect table holds it (R55). -/
structure Note where
  serial    : List Byte
  typeCode  : Fin 32
  visual    : Visual
  forceTest : Bool
  slot      : SlotId
deriving DecidableEq, Repr

/-- A notice (section 10.4). -/
inductive Notice where
  | outcome (index : RosterIndex) (code : OutcomeCode) (reason : Reason)
  | alert (source : Nat) (code : AlertCode)
deriving DecidableEq, Repr

/-- A reader (section 3.3, R48). `frame` holds the characters taken since the SYNC. -/
structure Reader where
  state          : ReaderState
  frame          : List Byte
  held           : Option Identity
  badFrames      : Nat
  duplicateReads : Nat
  overruns       : Nat
deriving DecidableEq, Repr

/-- A reader as a reset leaves it (R51). -/
def Reader.reset : Reader := ⟨.off, [], none, 0, 0, 0⟩

/-- What a queue position or a transfer carries: an entry or the UNROSTERED marker (section 5.1). -/
inductive Item where
  | entry (i : RosterIndex)
  | marker
deriving DecidableEq, Repr

/-- A transfer in flight (R74). `expiry` is absent while an E-STOP has stopped the limit (R77). `disowned` marks a
transfer out of a lane that has since entered FAULT and no longer counts it as its own (R86). -/
structure Transit where
  item     : Item
  source   : TransferSource
  limit    : Nat
  expiry   : Option Seconds
  disowned : Bool
deriving DecidableEq, Repr

/-- A position of a track or of the outfeed queue (R78, R80). -/
inductive Position where
  | occupied (item : Item)
  | reserved (t : Transit)
deriving DecidableEq, Repr

/-- A transfer to an exit, owned by the outfeed (R74). -/
structure ExitTransfer where
  transit : Transit
  exit    : Exit
deriving DecidableEq, Repr

/-- A claimant of the outfeed (R80). -/
inductive Claimant where
  | bay (n : BayId)
  | lane (l : LaneId)
deriving DecidableEq, Repr

/-- A running note-wait timer (R68). -/
structure NoteWait where
  limit  : Nat
  expiry : Seconds
deriving DecidableEq, Repr

/-- A lane with its track (R68, R78). -/
structure Lane where
  editCount    : Byte
  state        : FlowState
  queue        : List Item
  headInFlight : Bool
  noteWait     : Option NoteWait
  permit       : Bool
  track        : List Position
  trackOut     : Bool
deriving DecidableEq, Repr

/-- A lane as a reset leaves it (R68, R78, R90). -/
def Lane.reset (editCount : Byte) : Lane := ⟨editCount, .normal, [], false, none, false, [], false⟩

/-- The outputs of a bay (R92). -/
structure BayOutputs where
  fill         : Bool
  isolate      : Bool
  vent         : Bool
  couple1      : Bool
  couple2      : Bool
  door         : Bool
  buretteDrain : Bool
deriving DecidableEq, Repr

/-- The rest state of a bay's outputs: VENT on and every other output off (R93). -/
def BayOutputs.rest : BayOutputs := ⟨false, false, true, false, false, false, false⟩

/-- An entry of a trace ring (R102). -/
structure TraceEntry where
  pressure : Nat
  gauge    : Nat
deriving DecidableEq, Repr

/-- A bay (R92, R122). `stepTimer` is the timer of the bay's present state (R185): fill limit, rise limit, hold, release
limit, settle or check expiry. `grants` holds the grants handed to the bay and not yet taken (R99). -/
structure Bay where
  editCount       : Byte
  state           : BayState
  index           : Option RosterIndex
  pressurised     : Bool
  lapsed          : Bool
  aborted         : Bool
  ruptured        : Bool
  releaseCause    : Option ReleaseCause
  suspendedFrom   : Option SuspendedFrom
  resume          : Option ResumePoint
  coupled         : Option IntensifierId
  baseline        : Option Nat
  holdStart       : Option Nat
  peak            : Option Nat
  et              : Option Int
  drop            : Option Int
  ep              : Option Nat
  latestPressure  : Nat
  latestGauge     : Nat
  outputs         : BayOutputs
  present         : Bool
  full            : Bool
  doorClosed      : Bool
  stepTimer       : Option Seconds
  risePaused      : Option Nat
  pressTimer      : Option Seconds
  traceIndex      : Nat
  traceCount      : Nat
  trace           : Vector TraceEntry 64
  pairCount       : Nat
  faultCause      : Option AlertCode
  zeroReference   : Option Nat
  validity        : Nat
  checksOwed      : Nat
  failures        : Nat
  lastZeroReading : Option Nat
  lastDrift       : Option Nat
  sampleSeen      : Bool
  loading         : Option Transit
  requested       : Bool
  grants          : List IntensifierId
  kept            : Option KeptStep
deriving DecidableEq, Repr

/-- An empty trace ring (R102). -/
def emptyTrace : Vector TraceEntry 64 := Vector.replicate 64 ⟨0, 0⟩

/-- A bay as power-on leaves it (R121, R122). The input levels are off: DESIGN CHOICE, unsafe (log 7). -/
def Bay.powerOn : Bay where
  editCount := 0#8
  state := .starting
  index := none
  pressurised := false
  lapsed := false
  aborted := false
  ruptured := false
  releaseCause := none
  suspendedFrom := none
  resume := none
  coupled := none
  baseline := none
  holdStart := none
  peak := none
  et := none
  drop := none
  ep := none
  latestPressure := 0
  latestGauge := 0
  outputs := BayOutputs.rest
  present := false
  full := false
  doorClosed := false
  stepTimer := none
  risePaused := none
  pressTimer := none
  traceIndex := 0
  traceCount := 0
  trace := emptyTrace
  pairCount := 0
  faultCause := none
  zeroReference := none
  validity := 0
  checksOwed := 2
  failures := 0
  lastZeroReading := none
  lastDrift := none
  sampleSeen := false
  loading := none
  requested := false
  grants := []
  kept := none

/-- A request of the arbiter's queue (R134). -/
structure Request where
  bay      : BayId
  pressure : Nat
deriving DecidableEq, Repr

/-- A release a bay has sent and the arbiter has not yet taken (R137). -/
structure Release where
  bay         : BayId
  intensifier : IntensifierId
deriving DecidableEq, Repr

/-- An intensifier (R133). -/
structure Intensifier where
  editCount      : Byte
  state          : IntensifierState
  setpoint       : Option Nat
  coupledBay     : Option BayId
  requested      : Option Nat
  pendingOffline : Bool
  retuneExpiry   : Option Seconds
  faultInput     : Bool
deriving DecidableEq, Repr

/-- An intensifier as a reset leaves it (R144); the level of its FAULT input is given. -/
def Intensifier.reset (editCount : Byte) (faultInput : Bool) : Intensifier :=
  ⟨editCount, .free, none, none, none, false, none, faultInput⟩

/-- A station (R145). `limit` is the take limit in OFFERING and the work limit in WORKING. -/
structure Station where
  editCount   : Byte
  state       : StationState
  nest        : Nest
  index       : Option RosterIndex
  order       : Option (List Byte)
  mark        : Option (List Byte)
  bytePos     : Option Nat
  reoffer     : Nat
  resultLatch : BitVec 4
  ejectExit   : Option Exit
  ejectBegun  : Bool
  faultCause  : Option AlertCode
  limit       : Option Seconds
  loading     : Option Transit
  orderBus    : Byte
  orderReady  : Bool
  taken       : Bool
  done        : Bool
  ready       : Bool
  nestEye     : Bool
deriving DecidableEq, Repr

/-- A station as power-on leaves it (R145, R160). The input levels are off: DESIGN CHOICE, unsafe (log 7). -/
def Station.powerOn : Station where
  editCount := 0#8
  state := .idle
  nest := .empty
  index := none
  order := none
  mark := none
  bytePos := none
  reoffer := 0
  resultLatch := 0#4
  ejectExit := none
  ejectBegun := false
  faultCause := none
  limit := none
  loading := none
  orderBus := 0#8
  orderReady := false
  taken := false
  done := false
  ready := false
  nestEye := false

/-! ## Stops -/

/-- The faults of the model: none. No event of the manual stops the RQ4, so no command ends in a fault; FAULT is a
state of a reader, lane, outfeed, bay, intensifier or station. -/
inductive Fault where
deriving DecidableEq, Repr

/-- The refusals of the model. -/
inductive Refusal where
  /-- Raised by `exec` for a command that has no meaning yet; safe, since no next state is claimed. -/
  | notModelled (mnemonic : String)
deriving DecidableEq, Repr

/-! ## The state -/

/-- The state of the RQ4 and its queue of waiting commands. -/
structure State where
  /-- the commands waiting, first in, first out -/
  pending            : List Instr
  /-- run controller (R174) -/
  runState           : RunState
  eStopInput         : Bool
  lineSeconds        : Seconds
  /-- store port and command unit (R165, R172) -/
  cmbWord            : Word
  cmbFull            : Bool
  /-- a command has just been carried to its result, so that a CMB write taken next can have reached the port before CMB
  became empty (R165, R168); the model's own field (log 31) -/
  justEmptied        : Bool
  lastCommand        : Byte
  lastResult         : ResultCode
  overwriteFlag      : Bool
  alertSeen          : Bool
  interruptEnable    : Bool
  /-- the word the last NMB read returned; the model's own field (log 21) -/
  busReadData        : Word
  /-- how many NMB reads have turned the interrupt output off and on again (R171); the model's own field (log 32) -/
  interruptPulses    : Nat
  /-- the store's bytes that differ from what an unlisted address reads as (R162) -/
  mem                : List Host.Cell
  headerCount        : Byte
  slotCounts         : Vector Byte 32
  /-- notice unit (R169, R170) -/
  notices            : List Notice
  nmb                : Option Notice
  /-- table unit (R25) -/
  settings           : Option Settings
  types              : Vector (Option TypeEntry) 32
  typeMask           : BitVec 32
  templates          : Vector (Option (List Byte)) 16
  templateMask       : BitVec 16
  tablesHeld         : Bool
  firstBad           : Option Nat
  date               : Option Date
  /-- readers (chapter 3) -/
  readerA            : Reader
  readerB            : Reader
  /-- note unit (R55) -/
  expect             : List Note
  /-- roster unit (chapter 1) -/
  roster             : Vector Entry 48
  freeCount          : Nat
  /-- lanes (chapter 5) -/
  laneA              : Lane
  laneB              : Lane
  /-- outfeed unit (R80) -/
  outfeedState       : FlowState
  outfeedQueue       : List Position
  outfeedHeadInFlight : Bool
  exits              : List ExitTransfer
  claims             : List Claimant
  /-- bays (chapter 6) -/
  bays               : Vector Bay 6
  /-- arbiter (chapter 8) -/
  requests           : List Request
  releases           : List Release
  intensifier1       : Intensifier
  intensifier2       : Intensifier
  /-- stations (chapter 9) -/
  stamper            : Station
  defacer            : Station
  guardClosed        : Bool
  /-- how many free values have been drawn; the model's own field (log 13) -/
  choices            : Nat
deriving DecidableEq, Repr

/-- The machine right after power-on: R24, R39, R51, R66, R90, R121, R122, R144, R160, R173, R174. Input levels are off
(DESIGN CHOICE, unsafe, log 7), and the store lists nothing. -/
def State.reset : State where
  pending := []
  runState := .awaitingTables
  eStopInput := false
  lineSeconds := 0#32
  cmbWord := 0#32
  cmbFull := false
  justEmptied := false
  lastCommand := 0#8
  lastResult := .accepted
  overwriteFlag := false
  alertSeen := false
  interruptEnable := false
  busReadData := 0#32
  interruptPulses := 0
  mem := []
  headerCount := 0#8
  slotCounts := Vector.replicate 32 0#8
  notices := []
  nmb := none
  settings := none
  types := Vector.replicate 32 none
  typeMask := 0#32
  templates := Vector.replicate 16 none
  templateMask := 0#16
  tablesHeld := false
  firstBad := none
  date := none
  readerA := Reader.reset
  readerB := Reader.reset
  expect := []
  roster := Vector.replicate 48 (Entry.freeEntry 0#8)
  freeCount := 48
  laneA := Lane.reset 0#8
  laneB := Lane.reset 0#8
  outfeedState := .normal
  outfeedQueue := []
  outfeedHeadInFlight := false
  exits := []
  claims := []
  bays := Vector.replicate 6 Bay.powerOn
  requests := []
  releases := []
  intensifier1 := Intensifier.reset 0#8 false
  intensifier2 := Intensifier.reset 0#8 false
  stamper := Station.powerOn
  defacer := Station.powerOn
  guardClosed := false
  choices := 0

end Sys2Proof.Machine
end

