-- ==== Sys2Proof/Machine/Ops.lean ====
section
/-! DEFINITION. The named operations every unit shares: reading and writing the units' state, timers, the store's bytes,
edits of the header, and notices. -/

namespace Sys2Proof.Machine

/-! ## Names and numbers of the blocks -/

/-- The lane whose group a bay belongs to: bays 1 to 3 to lane A, bays 4 to 6 to lane B (chapter 5). -/
def laneOf (n : BayId) : LaneId := if n.val < 3 then .a else .b

/-- The bays of a lane's group, in bay-number order. -/
def groupOf : LaneId → List BayId
  | .a => [0, 1, 2]
  | .b => [3, 4, 5]

/-- The six bays in order. -/
def allBays : List BayId := [0, 1, 2, 3, 4, 5]

/-- Source numbers of the readers (chapter 3). -/
def readerSource : LaneId → Nat
  | .a => 1
  | .b => 2

/-- Source numbers of the lanes (chapter 5). -/
def laneSource : LaneId → Nat
  | .a => 3
  | .b => 4

/-- Bay n is source 4 + n (chapter 6). -/
def baySource (n : BayId) : Nat := n.val + 5

/-- Source numbers of the intensifiers (chapter 8). -/
def intensifierSource : IntensifierId → Nat
  | .one => 11
  | .two => 12

/-- Source numbers of the stations (chapter 9). -/
def stationSource : StationId → Nat
  | .stamper => 13
  | .defacer => 14

/-- The outfeed unit is source 15 (chapter 5). -/
def outfeedSource : Nat := 15

/-- The run controller is source 0 (R178). -/
def runSource : Nat := 0

/-! ## Reading and writing the units -/

def State.lane (s : State) (l : LaneId) : Lane :=
  match l with
  | .a => s.laneA
  | .b => s.laneB

def State.setLane (s : State) (l : LaneId) (x : Lane) : State :=
  { s with laneA := if l = .a then x else s.laneA, laneB := if l = .b then x else s.laneB }

def State.updLane (s : State) (l : LaneId) (f : Lane → Lane) : State := s.setLane l (f (s.lane l))

def State.reader (s : State) (l : LaneId) : Reader :=
  match l with
  | .a => s.readerA
  | .b => s.readerB

def State.setReader (s : State) (l : LaneId) (x : Reader) : State :=
  { s with readerA := if l = .a then x else s.readerA, readerB := if l = .b then x else s.readerB }

def State.intensifier (s : State) (i : IntensifierId) : Intensifier :=
  match i with
  | .one => s.intensifier1
  | .two => s.intensifier2

def State.setIntensifier (s : State) (i : IntensifierId) (x : Intensifier) : State :=
  { s with
    intensifier1 := if i = .one then x else s.intensifier1
    intensifier2 := if i = .two then x else s.intensifier2 }

def State.station (s : State) (st : StationId) : Station :=
  match st with
  | .stamper => s.stamper
  | .defacer => s.defacer

def State.setStation (s : State) (st : StationId) (x : Station) : State :=
  { s with
    stamper := if st = .stamper then x else s.stamper
    defacer := if st = .defacer then x else s.defacer }

def State.updStation (s : State) (st : StationId) (f : Station → Station) : State :=
  s.setStation st (f (s.station st))

def State.bay (s : State) (n : BayId) : Bay := s.bays[n]

def State.setBay (s : State) (n : BayId) (b : Bay) : State := { s with bays := s.bays.set n.val b n.isLt }

def State.updBay (s : State) (n : BayId) (f : Bay → Bay) : State := s.setBay n (f (s.bay n))

/-- Does `f` at every bay, in bay-number order. -/
def State.forBays (s : State) (f : BayId → State → State) : State := allBays.foldl (fun t n => f n t) s

def State.entry (s : State) (i : RosterIndex) : Entry := s.roster[i]

def State.setEntry (s : State) (i : RosterIndex) (e : Entry) : State :=
  { s with roster := s.roster.set i.val e i.isLt }

/-- One edit of a roster entry: the count advances by two and the fields change together (R1, R163). -/
def State.editEntry (s : State) (i : RosterIndex) (f : Entry → Entry) : State :=
  s.setEntry i { f (s.entry i) with editCount := (s.entry i).editCount + 2#8 }

/-- The run state is E-STOPPED. -/
def State.stopped (s : State) : Bool := decide (s.runState = .eStopped)

/-! ## Time -/

/-- The line seconds value `k` seconds ahead (R179). -/
def State.after (s : State) (k : Nat) : Seconds := s.lineSeconds + BitVec.ofNat 32 k

/-- A running timer is due once line seconds has reached its expiry, counted modulo the wrap (R179; log 2). -/
def State.due (s : State) (t : Option Seconds) : Bool :=
  match t with
  | some e => decide ((s.lineSeconds - e).toNat < 2 ^ 31)
  | none => false

/-- The settings read before any table is held: a placeholder no event of the manual reads (log 20). -/
def Settings.unset : Settings := ⟨[], 0, 0, 0, 0, 0, 0, 0, 0, 0, 0, 0⟩

/-- The working settings (R25). -/
def State.work (s : State) : Settings := s.settings.getD Settings.unset

def Settings.almostFull (w : Settings) : LaneId → Nat
  | .a => w.almostFullA
  | .b => w.almostFullB

def Settings.almostEmpty (w : Settings) : LaneId → Nat
  | .a => w.almostEmptyA
  | .b => w.almostEmptyB

/-- The test allowance of a matched cylinder: its copied hold time + rise limit + settle time + 120 s (R28). -/
def State.allowance (s : State) (p : Params) : Nat :=
  p.holdTime + s.work.riseLimit + s.work.settleTime + Config.allowanceMargin

/-! ## The bytes of the store -/

/-- The byte listed for an address. -/
def Memory.lookup : List Host.Cell → Nat → Option Byte
  | [], _ => none
  | c :: rest, a => if c.1 = a then some c.2 else Memory.lookup rest a

/-- Writes a byte, keeping the addresses rising and listing no byte equal to `dflt`, what the address reads as
unlisted. -/
def Memory.write (dflt : Byte) (a : Nat) (b : Byte) : List Host.Cell → List Host.Cell
  | [] => if b = dflt then [] else [(a, b)]
  | c :: rest =>
    if a < c.1 then (if b = dflt then c :: rest else (a, b) :: c :: rest)
    else if a = c.1 then (if b = dflt then rest else (a, b) :: rest)
    else c :: Memory.write dflt a b rest

/-- The addresses are strictly rising. -/
def Memory.rising : List Host.Cell → Bool
  | [] => true
  | [_] => true
  | c :: d :: rest => decide (c.1 < d.1) && Memory.rising (d :: rest)

/-- The base address of a note slot (R53). -/
def slotBase (k : SlotId) : Nat := 0xA00 + k.val * 0x20

/-- The bytes of a note slot as power-on writes them: EMPTY, edit count 0, content, refusal reason and index absent
(R66, R181, R184). -/
def slotPowerOnByte (offset : Nat) : Byte :=
  if 0x02 ≤ offset ∧ offset ≤ 0x12 then 0xFF#8 else 0x00#8

/-- What an unlisted address outside the RQ4's own records reads as: the note board's power-on bytes (R66), and the byte
chosen for the regions the RQ4 never writes (log 6). -/
def plainDefault (a : Nat) : Byte :=
  if 0xA00 ≤ a ∧ a < 0xE00 then slotPowerOnByte (a % 0x20) else Config.unwrittenByte

/-- A byte of the note board or of a region the RQ4 never writes. -/
def State.plainByte (s : State) (a : Nat) : Byte := (Memory.lookup s.mem a).getD (plainDefault a)

def State.writePlain (s : State) (a : Nat) (b : Byte) : State :=
  { s with mem := Memory.write (plainDefault a) a b s.mem }

/-- A little-endian 16 bit value of such a region (R181). -/
def State.plainHalf (s : State) (a : Nat) : Nat := (s.plainByte a).toNat + 256 * (s.plainByte (a + 1)).toNat

/-- `k` bytes of such a region from `a`. -/
def State.plainBytes (s : State) : (a k : Nat) → List Byte
  | _, 0 => []
  | a, k + 1 => s.plainByte a :: s.plainBytes (a + 1) k

/-! ## Header edits and the run state -/

/-- One edit of the store header (R163). -/
def State.headerEdit (s : State) : State := { s with headerCount := s.headerCount + 2#8 }

/-- A change of the run state, written into the header as one edit (R174). -/
def State.setRunState (s : State) (r : RunState) : State := { s with runState := r }.headerEdit

/-! ## Notices -/

/-- The notice list becomes `l`; the oldest notice moves into an empty NMB (R170), and a changed list length is one edit
of the header (R169). -/
def State.withNotices (s : State) (l : List Notice) : State :=
  let moved : Option Notice × List Notice :=
    match s.nmb, l with
    | none, n :: rest => (some n, rest)
    | m, l => (m, l)
  { s with
    nmb := moved.1
    notices := moved.2
    headerCount := if moved.2.length = s.notices.length then s.headerCount else s.headerCount + 2#8 }

/-- Whether a notice is an alert from a source. -/
def Notice.isAlertOf (source : Nat) : Notice → Bool
  | .alert src _ => decide (src = source)
  | .outcome _ _ _ => false

/-- Whether a notice is the OUTCOME notice of an entry. -/
def Notice.isOutcomeOf (i : RosterIndex) : Notice → Bool
  | .outcome j _ _ => decide (j = i)
  | .alert _ _ => false

/-- The list after an alert: a waiting alert of the source has its code replaced in place; otherwise the alert is
appended (R169). -/
def mergeAlert (source : Nat) (code : AlertCode) (l : List Notice) : List Notice :=
  if l.any (Notice.isAlertOf source) then
    l.map (fun x => if x.isAlertOf source then .alert source code else x)
  else l ++ [.alert source code]

/-- An ALERT notice handed to the notice unit (R169). -/
def State.raiseAlert (s : State) (source : Nat) (code : AlertCode) : State :=
  { s.withNotices (mergeAlert source code s.notices) with alertSeen := true }

/-- An OUTCOME notice handed to the notice unit (R169). -/
def State.raiseOutcome (s : State) (i : RosterIndex) (code : OutcomeCode) (reason : Reason) : State :=
  s.withNotices (s.notices ++ [.outcome i code reason])

/-- Removes an entry's OUTCOME notice from the list, if it is still there (R170). -/
def State.dropOutcome (s : State) (i : RosterIndex) : State :=
  s.withNotices (s.notices.filter (fun x => !x.isOutcomeOf i))

/-! ## The emptying of CMB -/

/-- Whether CMB has just become empty at the end of a command (R165, R168; log 31). -/
def State.markEmptied (s : State) (b : Bool) : State := { s with justEmptied := b }

/-! ## Claims -/

/-- A claim is appended at the tail unless its claimant is already in the list (R81). -/
def State.placeClaim (s : State) (c : Claimant) : State :=
  { s with claims := if s.claims.contains c then s.claims else s.claims ++ [c] }

/-- A claim is withdrawn, the others keeping their order (R81). -/
def State.withdrawClaim (s : State) (c : Claimant) : State :=
  { s with claims := s.claims.filter (fun x => decide (x ≠ c)) }

/-- The lane claim: present while the lane has a claim in the claim list (R68). -/
def State.laneClaim (s : State) (l : LaneId) : Bool := s.claims.contains (.lane l)

/-! ## Positions -/

/-- A transfer begun now, with the working transfer limit (R74). -/
def State.newTransit (s : State) (item : Item) (source : TransferSource) : Transit :=
  ⟨item, source, s.work.transferLimit, some (s.after s.work.transferLimit), false⟩

/-- The first reservation of a queue becomes occupied by its item; answers its transfer (R75). -/
def occupyFirst : List Position → Option (Transit × List Position)
  | [] => none
  | .occupied x :: rest => (occupyFirst rest).map (fun r => (r.1, .occupied x :: r.2))
  | .reserved t :: rest => some (t, .occupied t.item :: rest)

/-- Removes the first reservation whose transfer satisfies `p`, the positions behind closing up (R76). -/
def releaseReservation (p : Transit → Bool) : List Position → Option (Transit × List Position)
  | [] => none
  | .occupied x :: rest => (releaseReservation p rest).map (fun r => (r.1, .occupied x :: r.2))
  | .reserved t :: rest =>
    if p t then some (t, rest) else (releaseReservation p rest).map (fun r => (r.1, .reserved t :: r.2))

/-- Removes the first transfer to an exit that satisfies `p`. -/
def takeExit (p : ExitTransfer → Bool) : List ExitTransfer → Option (ExitTransfer × List ExitTransfer)
  | [] => none
  | x :: rest => if p x then some (x, rest) else (takeExit p rest).map (fun r => (r.1, x :: r.2))

/-- Changes the transfer of a reservation. -/
def Position.mapTransit (f : Transit → Transit) : Position → Position
  | .occupied x => .occupied x
  | .reserved t => .reserved (f t)

/-- Does `f` to every transfer in flight, at every owner (R77). -/
def State.mapTransits (s : State) (f : Transit → Transit) : State :=
  { s with
    laneA := { s.laneA with track := s.laneA.track.map (Position.mapTransit f) }
    laneB := { s.laneB with track := s.laneB.track.map (Position.mapTransit f) }
    outfeedQueue := s.outfeedQueue.map (Position.mapTransit f)
    exits := s.exits.map (fun x => { x with transit := f x.transit })
    bays := Vector.ofFn (fun n : BayId => { s.bays[n] with loading := s.bays[n].loading.map f })
    stamper := { s.stamper with loading := s.stamper.loading.map f }
    defacer := { s.defacer with loading := s.defacer.loading.map f } }

end Sys2Proof.Machine
end

