-- ==== Sys2Proof/Machine/Flags.lean ====
section
/-! DEFINITION. Every flag and output that is computed from the state: the infeed permits, the drain test, the interrupt
output, and the outputs and counts that are views of other state. -/

namespace Sys2Proof.Machine

/-- The interrupt output: on while NMB is full and the interrupt enable is set (R171). -/
def State.interruptOutput (s : State) : Bool := s.nmb.isSome && s.interruptEnable

/-- The drive output of an intensifier: on in DRIVING alone (R133). -/
def Intensifier.drive (x : Intensifier) : Bool := decide (x.state = .driving)

/-- The setpoint output: the requested pressure in RETUNING and DRIVING, 0 in the other states (R133). -/
def Intensifier.setpointOutput (x : Intensifier) : Nat :=
  match x.state with
  | .retuning | .driving => x.requested.getD 0
  | .offline | .fault | .free => 0

/-- Whether an exit transfer is a station's eject. -/
def ExitTransfer.isEject (x : ExitTransfer) : Bool :=
  match x.transit.source with
  | .station _ => true
  | _ => false

/-- Ejects in flight (R80). -/
def State.ejectsInFlight (s : State) : Nat := (s.exits.filter ExitTransfer.isEject).length

/-- The transfers whose positions are reserved in a queue. -/
def reservedTransits (l : List Position) : List Transit :=
  l.filterMap (fun p =>
    match p with
    | .reserved t => some t
    | .occupied _ => none)

/-- The transfers in flight, at every owner (R74). -/
def State.transits (s : State) : List Transit :=
  allBays.filterMap (fun n => (s.bay n).loading) ++ reservedTransits s.laneA.track ++ reservedTransits s.laneB.track ++
    reservedTransits s.outfeedQueue ++ s.exits.map ExitTransfer.transit ++ s.stamper.loading.toList ++
    s.defacer.loading.toList

/-- A gate output is open while a transfer of its path is in flight: it opens at the begin and the owner closes it at the
end or the jam (R74, R75, R76; log 16). Where two bypass transfers of one lane are in flight, the first one disowned, the gate
stays open until both are over: the model's choice (log 39). -/
def State.gateOpen (s : State) (g : Gate) : Bool :=
  match g with
  | .laneFeed n => (s.bay n).loading.any (fun t => decide (t.source = .laneHead (laneOf n)))
  | .track n => (s.bay n).loading.any (fun t => decide (t.source = .trackHead (laneOf n)))
  | .unload n => s.transits.any (fun t => decide (t.source = .bay n))
  | .bypass l => (reservedTransits s.outfeedQueue).any (fun t => decide (t.source = .laneHead l))
  | .outfeedHead => s.transits.any (fun t => decide (t.source = .outfeedHead))
  | .eject st => s.transits.any (fun t => decide (t.source = .station st))

/-- The conditions of the infeed permit (R71). -/
def State.permitHolds (s : State) (l : LaneId) : Bool :=
  decide (s.runState = .running) && decide ((s.lane l).state = .normal) &&
    decide ((s.lane l).queue.length < s.work.almostFull l) && decide (Config.permitReserve < s.freeCount)

/-- Both lanes re-evaluate their infeed permits (R71). -/
def State.evalPermits (s : State) : State :=
  { s with
    laneA := { s.laneA with permit := s.permitHolds .a }
    laneB := { s.laneB with permit := s.permitHolds .b } }

/-- A bay reports itself occupied: it holds a roster index and is in neither ZEROING, OFFLINE nor FAULT (R92). -/
def Bay.occupied (b : Bay) : Bool :=
  b.index.isSome &&
    (match b.state with
     | .zeroing | .offline | .fault => false
     | _ => true)

/-- A station holds the line: its nest is not EMPTY while it is in neither FAULT nor OFFLINE (R145). -/
def Station.holdsLine (x : Station) : Bool :=
  decide (x.nest ≠ .empty) &&
    (match x.state with
     | .fault | .offline => false
     | _ => true)

/-- A lane reports empty: no item in the queue and no position on the track (R89). -/
def Lane.empty (x : Lane) : Bool := x.queue.isEmpty && x.track.isEmpty

/-- The outfeed reports empty: no position, no head transfer and no eject in flight (R89). -/
def State.outfeedEmpty (s : State) : Bool :=
  s.outfeedQueue.isEmpty && !s.outfeedHeadInFlight && decide (s.ejectsInFlight = 0)

/-- The hall has drained (R177). -/
def State.drained (s : State) : Bool :=
  s.laneA.empty && s.laneB.empty && s.outfeedEmpty && allBays.all (fun n => !(s.bay n).occupied) &&
    !s.stamper.holdsLine && !s.defacer.holdsLine

/-- The drain test: in STOPPING the run controller enters READY once the hall has drained (R177). -/
def State.drainTest (s : State) : State :=
  if s.runState = .stopping ∧ s.drained = true then s.setRunState .ready else s

end Sys2Proof.Machine
end

