-- ==== Sys2Proof/Machine/Roster.lean ====
section
/-! DEFINITION. The roster unit (chapter 1) and the note slots it hands matches to: allocation, creation, match and route
decision, movement, test and station reports, closing, and mark composition (R32). -/

namespace Sys2Proof.Machine

/-! ## Note slots (R53) -/

/-- The state codes of a note slot (R184). -/
def slotEmpty : Byte := 0#8
def slotFilled : Byte := 1#8
def slotPosted : Byte := 2#8
def slotTaken : Byte := 3#8
def slotWithdrawn : Byte := 4#8
def slotRefused : Byte := 5#8

/-- One edit of a note slot by the note unit: the state with the refusal reason and the roster index, each present or
absent as the state requires (R53, R163). The edit writes the bytes R184 gives the note unit and leaves the unassigned bytes
13h to 1Fh, which R181 would set to 00h: the model's reading (log 38). -/
def State.editSlot (s : State) (k : SlotId) (state reason index : Byte) : State :=
  let count := s.slotCounts[k] + 2#8
  ((((({ s with slotCounts := s.slotCounts.set k.val count k.isLt }).writePlain (slotBase k) count).writePlain
    (slotBase k + 0x01) state).writePlain (slotBase k + 0x11) reason).writePlain (slotBase k + 0x12) index)

/-- The slot is written TAKEN with the roster index (R59, R62). -/
def State.takeSlot (s : State) (k : SlotId) (i : RosterIndex) : State :=
  s.editSlot k slotTaken 0xFF#8 (BitVec.ofNat 8 i.val)

/-! ## Reports and entry states -/

/-- The entry is neither FREE nor DONE. -/
def RosterState.live : RosterState → Bool
  | .free | .done => false
  | .awaitingNote | .queued | .testing | .outbound => true

/-- The states in which an entry carries its serial in the hall (R10, R12). They are the live states. -/
def State.serialActive (s : State) (serial : List Byte) : Bool :=
  (List.finRange 48).any (fun i => (s.entry i).state.live && decide ((s.entry i).serial = some serial))

/-- The lowest-numbered FREE entry (R9). -/
def State.lowestFree (s : State) : Option RosterIndex :=
  (List.finRange 48).find? (fun i => decide ((s.entry i).state = .free))

/-- The entry in AWAITING NOTE that carries a serial (R59). -/
def State.awaitingWith (s : State) (serial : List Byte) : Option RosterIndex :=
  (List.finRange 48).find? (fun i =>
    decide ((s.entry i).state = .awaitingNote) && decide ((s.entry i).serial = some serial))

/-! ## Match and route decision (R13, R14) -/

/-- Months counted as year × 12 + (month − 1). -/
def Date.months (d : Date) : Nat := d.year * 12 + (d.month - 1)

/-- The working type of a usable type code (R14, R25). -/
def State.usableType (s : State) (c : Fin 32) : Option TypeEntry :=
  if s.typeMask.getLsbD c.val then s.types[c] else none

/-- The test parameters copied from a type (R6). -/
def TypeEntry.params (t : TypeEntry) : Params :=
  ⟨t.testPressure, t.holdTime, t.ratioLimit, t.elasticLimit, t.dropTolerance, t.capacity, t.template, t.strikeClass⟩

/-- The due rule (R14). -/
def dueRule (tag current : Date) (interval : Nat) (force : Bool) : Bool :=
  decide (tag.months + 12 * interval ≤ current.months) || decide (current.months < tag.months) || force

/-- A date read where none is held; no match can occur then (R14; log 20). -/
def Date.unset : Date := ⟨2000, 1⟩

/-- The entry after a match: the note's fields, the route by the ordered tests of R14, and state QUEUED (R13). -/
def State.matched (s : State) (note : Note) (e : Entry) : Entry :=
  let e1 : Entry := { e with
    state := .queued
    noteSlot := some note.slot
    typeCode := some note.typeCode
    visual := some note.visual
    forceTest := note.forceTest }
  match s.usableType note.typeCode with
  | none => { e1 with route := some .hold, holdReason := some .unknownType }
  | some t =>
    let e2 : Entry := { e1 with params := some t.params }
    match note.visual with
    | .condemn =>
      { e2 with route := some .deface, verdict := some (.condemn .visual), verdictTime := some s.lineSeconds }
    | .accept =>
      if dueRule (e.tagDate.getD Date.unset) (s.date.getD Date.unset) t.interval note.forceTest then
        { e2 with route := some .test }
      else
        { e2 with route := some .passThrough, verdict := some .notDue, verdictTime := some s.lineSeconds }

/-- The match edit of R13 on an AWAITING NOTE entry. -/
def State.matchEntry (s : State) (i : RosterIndex) (note : Note) : State := s.editEntry i (s.matched note)

/-! ## Creation at an arrival (R9 to R12) -/

/-- The fields every created entry has: the place of its lane and the arrival time. -/
def State.created (s : State) (l : LaneId) : Entry :=
  { Entry.freeEntry 0#8 with place := .lane l, arrivalTime := s.lineSeconds }

/-- One entry leaves the free count, and the header is edited (R9). -/
def State.countAllocated (s : State) : State := { s with freeCount := s.freeCount - 1 }.headerEdit

/-- The note of a serial in the expect table (R62). -/
def State.expectedNote (s : State) (serial : List Byte) : Option Note :=
  s.expect.find? (fun n => decide (n.serial = serial))

/-- Creation of the entry of an identified arrival in a FREE entry (R10, R12, R62). -/
def State.createIdentified (s : State) (l : LaneId) (i : RosterIndex) (id : Identity) : State :=
  let base : Entry := { s.created l with serial := some id.serial, tagDate := some id.date }
  if s.serialActive id.serial then
    (s.editEntry i (fun _ =>
      { base with state := .queued, route := some .hold, holdReason := some .duplicateIdentity })).countAllocated
  else
    match s.expectedNote id.serial with
    | some note =>
      (({ s with expect := s.expect.filter (fun n => decide (n.slot ≠ note.slot)) }.editEntry i
        (fun _ => s.matched note base)).countAllocated).takeSlot note.slot i
    | none => (s.editEntry i (fun _ => { base with state := .awaitingNote })).countAllocated

/-- Creation of an unidentified entry (R11). -/
def State.createUnidentified (s : State) (l : LaneId) (i : RosterIndex) : State :=
  (s.editEntry i (fun _ =>
    { s.created l with state := .queued, route := some .hold, holdReason := some .unidentified })).countAllocated

/-! ## Movement reports (R16) -/

/-- The states in which a begin report to a destination changes an entry (R2). Exits have place NONE here. -/
def beginAllowed (dest : Place) (st : RosterState) : Bool :=
  match dest with
  | .bay _ => decide (st = .queued)
  | .recirc _ => decide (st = .testing)
  | .outfeed => decide (st = .queued) || decide (st = .testing)
  | .station _ | .nowhere => decide (st = .outbound)
  | .lane _ | .inTransfer => false

/-- The state after a begin report (R16). -/
def beginState (dest : Place) : RosterState :=
  match dest with
  | .bay _ => .testing
  | .recirc _ => .queued
  | .outfeed | .station _ | .nowhere | .lane _ | .inTransfer => .outbound

/-- The begin of an entry's transfer to a destination (R16); the last bay is set by a transfer into a bay. -/
def Entry.begun (e : Entry) (dest : Place) : Entry :=
  { e with
    place := .inTransfer
    state := beginState dest
    lastBay :=
      match dest with
      | .bay n => some n
      | _ => e.lastBay }

/-- The report of a transfer's begin; the marker has none (R16, R74). -/
def State.reportBegin (s : State) (item : Item) (dest : Place) : State :=
  match item with
  | .marker => s
  | .entry i => if beginAllowed dest (s.entry i).state then s.editEntry i (fun e => e.begun dest) else s

/-- The report of a transfer's end at a place (R3, R16). -/
def State.reportEnd (s : State) (item : Item) (place : Place) : State :=
  match item with
  | .marker => s
  | .entry i => if (s.entry i).state.live then s.editEntry i (fun e => { e with place := place }) else s

/-! ## Closing an entry (R21, R22) -/

/-- The final fields of a closed entry (R22). -/
def Entry.closed (e : Entry) (now : Seconds) (code : OutcomeCode) (reason : Reason) : Entry :=
  { e with outcome := some (code, reason), doneTime := some now, place := .nowhere, state := .done }

/-- Closes an entry and, once the edit is complete, hands over its OUTCOME notice (R22). -/
def State.closeEntry (s : State) (i : RosterIndex) (code : OutcomeCode) (reason : Reason) : State :=
  (s.editEntry i (fun e => e.closed s.lineSeconds code reason)).raiseOutcome i code reason

/-- A transfer limit expiry closes an entry in transfer MISSING, TRANSFER JAM (R2, R16, R22). -/
def State.closeJammed (s : State) (item : Item) : State :=
  match item with
  | .marker => s
  | .entry i =>
    match (s.entry i).state with
    | .queued | .testing | .outbound => s.closeEntry i .missing .transferJam
    | .free | .awaitingNote | .done => s

/-- The outcome of an exit and a route (R21); none for a pair the table does not list (log 15). -/
def exitOutcome (exit : Exit) (e : Entry) : Option (OutcomeCode × Reason) :=
  match exit, e.route with
  | .releaseConveyor, some .stamp => some (.passedMarked, .none)
  | .releaseConveyor, some .passThrough => some (.notDueReleased, .none)
  | .scrapBin, some .deface =>
    match e.verdict with
    | some (.condemn r) => some (.condemnedDefaced, r)
    | _ => none
  | .holdChute, some .hold => e.holdReason.map (fun r => (.held, r))
  | _, _ => none

/-- An OUTBOUND entry at an exit eye is closed with the outcome of the exit and its route (R21). -/
def State.closeAtExit (s : State) (i : RosterIndex) (exit : Exit) : State :=
  if (s.entry i).state = .outbound then
    match exitOutcome exit (s.entry i) with
    | some (code, reason) => s.closeEntry i code reason
    | none => s
  else s

/-- LANE CLEAR closes an entry of the lane queue REMOVED (R2, R22, R87). -/
def State.closeCleared (s : State) (i : RosterIndex) : State :=
  match (s.entry i).state with
  | .awaitingNote | .queued => s.closeEntry i .removed .laneClear
  | .free | .testing | .outbound | .done => s

/-- A NO CYLINDER result closes the OUTBOUND entry on the nest MISSING (R2, R22). -/
def State.closeNoCylinder (s : State) (i : RosterIndex) : State :=
  if (s.entry i).state = .outbound then s.closeEntry i .missing .noCylinder else s

/-! ## Test and station reports (R15, R17 to R20) -/

/-- The start of an attempt (R17). -/
def State.reportAttempt (s : State) (i : RosterIndex) : State :=
  if (s.entry i).state = .testing then
    s.editEntry i (fun e => { e with testsStarted := min 15 (e.testsStarted + 1), meas := Measurements.absent })
  else s

/-- Whether a void cause is counted (R7). -/
def VoidCause.counted : VoidCause → Bool
  | .noFill | .noPressure | .leak => true
  | .overpressure | .pressureLimit | .zeroLapsed | .gauge | .eStop => false

/-- The entry after a void report (R18). -/
def Entry.voided (e : Entry) (now : Seconds) (c : VoidCause) (m : Option Measurements) : Entry :=
  let e1 : Entry := { e with lastVoid := some c, meas := m.getD e.meas }
  if c.counted then
    if e.countedVoids < 2 then { e1 with countedVoids := e.countedVoids + 1 }
    else
      { e1 with
        verdict := some (.condemn .retestsExhausted)
        verdictTime := some now
        route := some .deface }
  else e1

/-- A void report; dropped for an entry whose route is not TEST (R18). The answer is the entry's route after it. -/
def State.reportVoid (s : State) (i : RosterIndex) (c : VoidCause) (m : Option Measurements) : State :=
  if (s.entry i).state.live ∧ (s.entry i).route = some .test then
    s.editEntry i (fun e => e.voided s.lineSeconds c m)
  else s

/-- Two decimal digits (R32). -/
def digits2 (n : Nat) : List Byte := [BitVec.ofNat 8 (0x30 + n / 10 % 10), BitVec.ofNat 8 (0x30 + n % 10)]

/-- Three decimal digits (R32). -/
def digits3 (n : Nat) : List Byte := BitVec.ofNat 8 (0x30 + n / 100 % 10) :: digits2 n

/-- What one byte of a template contributes to a mark (R30, R32). -/
def State.expandByte (s : State) (e : Entry) (b : Byte) : List Byte :=
  if b = 0x01#8 then s.work.stationCode
  else if b = 0x02#8 then digits2 (s.date.getD Date.unset).month
  else if b = 0x03#8 then digits2 ((s.date.getD Date.unset).year - 2000)
  else if b = 0x04#8 then digits3 ((e.params.map Params.testPressure).getD 0)
  else if b = 0x05#8 then e.serial.getD []
  else [b]

/-- The working content of a template number (R33). -/
def State.templateContent (s : State) (k : Nat) : List Byte :=
  if h : k < 16 then (s.templates[k]'h).getD [] else []

/-- The mark text of an entry (R32, R33). -/
def State.composeMark (s : State) (e : Entry) : List Byte :=
  (s.templateContent ((e.params.map Params.template).getD 0)).flatMap (s.expandByte e)

/-- The entry after a verdict report (R19). -/
def State.judged (s : State) (v : Verdict) (m : Measurements) (e : Entry) : Entry :=
  let e1 : Entry := { e with meas := m, verdict := some v, verdictTime := some s.lineSeconds }
  match v with
  | .pass => { e1 with route := some .stamp, mark := some (s.composeMark e) }
  | .condemn _ => { e1 with route := some .deface }
  | .notDue => e1

/-- A verdict report; dropped for an entry whose route is not TEST (R19). -/
def State.reportVerdict (s : State) (i : RosterIndex) (v : Verdict) (m : Measurements) : State :=
  if (s.entry i).state.live ∧ (s.entry i).route = some .test then s.editEntry i (s.judged v m) else s

/-- An abort report: route HOLD, hold reason ABORTED, from route TEST (R4, R20). -/
def State.reportAborted (s : State) (i : RosterIndex) : State :=
  if (s.entry i).state.live ∧ (s.entry i).route = some .test then
    s.editEntry i (fun e => { e with route := some .hold, holdReason := some .aborted })
  else s

/-- The hold reason of a station's doubtful result (R20). -/
def doubtReason : StationId → Reason
  | .stamper => .markUncertain
  | .defacer => .defaceUncertain

/-- The route a station's cylinder has before a doubtful result (R4). -/
def stationRoute : StationId → Route
  | .stamper => .stamp
  | .defacer => .deface

/-- A station's doubtful result: route HOLD with the station's reason; verdict and mark stay (R4, R20). -/
def State.reportDoubt (s : State) (st : StationId) (i : RosterIndex) : State :=
  if (s.entry i).state.live ∧ (s.entry i).route = some (stationRoute st) then
    s.editEntry i (fun e => { e with route := some .hold, holdReason := some (doubtReason st) })
  else s

/-- A note-wait expiry: dropped unless the entry is in AWAITING NOTE (R15). -/
def State.reportUnannounced (s : State) (i : RosterIndex) : State :=
  if (s.entry i).state = .awaitingNote then
    s.editEntry i (fun e => { e with route := some .hold, holdReason := some .unannounced, state := .queued })
  else s

end Sys2Proof.Machine
end

