-- ==== Sys2Proof/Machine/BayOps.lean ====
section
/-! DEFINITION. The shared operations of the bays (chapters 6 and 7) and of the arbiter's queue (R134, R137): state entries,
requests and releases, zero checks, the fill step, venting, settling, voids, unloading and bay faults. -/

namespace Sys2Proof.Machine

/-! ## Parameters and outputs -/

/-- The copied parameters of the entry a bay holds (R92). -/
def State.bayParams (s : State) (n : BayId) : Option Params :=
  match (s.bay n).index with
  | some i => (s.entry i).params
  | none => none

/-- The test pressure of the cylinder a bay holds, in bar. -/
def State.testPressure (s : State) (n : BayId) : Nat := ((s.bayParams n).map Params.testPressure).getD 0

/-- The validity is less than the test allowance of the cylinder the bay holds (R98). -/
def State.short (s : State) (n : BayId) : Bool :=
  match s.bayParams n with
  | some p => decide ((s.bay n).validity < s.allowance p)
  | none => false

/-- The outputs a bay sets at each state entry (R93). OFFLINE is entered at rest. -/
def outputsOf (st : BayState) (coupled : Option IntensifierId) (cylinder : Bool) : BayOutputs :=
  let off : BayOutputs := ⟨false, false, false, false, false, false, false⟩
  match st with
  | .starting | .idle | .loading | .unloading | .offline => BayOutputs.rest
  | .zeroing => { off with vent := true, buretteDrain := true, door := cylinder }
  | .filling => { off with fill := true, vent := true, door := true }
  | .awaitIntensifier | .holding | .suspended => { off with door := true }
  | .pressurising =>
    { off with
      isolate := true
      couple1 := decide (coupled = some .one)
      couple2 := decide (coupled = some .two)
      door := true }
  | .releasing | .settling => { off with vent := true, door := true }
  | .fault => { off with vent := true, door := cylinder }

/-- A state entry: the state and its outputs; the step timer of the state left is stopped. -/
def Bay.enter (b : Bay) (st : BayState) : Bay :=
  { b with state := st, outputs := outputsOf st b.coupled b.index.isSome, stepTimer := none, kept := none }

/-! ## Requests and releases (R134, R137) -/

/-- A bay's request is removed from the queue, the others keeping their order (R134). -/
def State.removeRequest (s : State) (n : BayId) : State :=
  { s with requests := s.requests.filter (fun r => decide (r.bay ≠ n)) }

/-- A withdrawal by a bay (R134). -/
def State.withdrawRequest (s : State) (n : BayId) : State :=
  (s.removeRequest n).updBay n (fun b => { b with requested := false })

/-- A bay sends a release naming an intensifier (R137). -/
def State.sendRelease (s : State) (n : BayId) (i : IntensifierId) : State :=
  { s with releases := s.releases ++ [⟨n, i⟩] }

/-- A bay releases its coupled intensifier, if any, and is coupled to none (R100, R103). -/
def State.releaseCoupled (s : State) (n : BayId) : State :=
  match (s.bay n).coupled with
  | some i => (s.sendRelease n i).updBay n (fun b => { b with coupled := none })
  | none => s

/-- The intensifier is granted to a bay: it is in RETUNING or DRIVING with it as its coupled bay. -/
def Intensifier.serves (x : Intensifier) (n : BayId) : Bool :=
  (decide (x.state = .retuning) || decide (x.state = .driving)) && decide (x.coupledBay = some n)

/-- A coupling ends: OFFLINE if pending-offline is set, clearing the flag, and FREE otherwise (R137, R144). -/
def Intensifier.uncoupled (x : Intensifier) : Intensifier :=
  { x with
    state := if x.pendingOffline then .offline else .free
    coupledBay := none
    requested := none
    retuneExpiry := none
    pendingOffline := false }

/-- The arbiter takes a release (R137). -/
def State.takeRelease (s : State) (r : Release) : State :=
  if (s.intensifier r.intensifier).serves r.bay then
    s.setIntensifier r.intensifier (s.intensifier r.intensifier).uncoupled
  else s.removeRequest r.bay

/-- The arbiter takes every release a bay has sent, oldest first (log 8: what one bay sends is taken in order). -/
def State.takeReleasesOf (s : State) (n : BayId) : State :=
  (s.releases.filter (fun r => decide (r.bay = n))).foldl State.takeRelease
    { s with releases := s.releases.filter (fun r => decide (r.bay ≠ n)) }

/-- A request is appended at the tail; a request of the bay already in the queue keeps its position (R134). -/
def State.appendRequest (s : State) (n : BayId) : State :=
  { s with
    requests :=
      if s.requests.any (fun r => decide (r.bay = n)) then s.requests
      else s.requests ++ [⟨n, s.testPressure n⟩] }

/-- A bay entering AWAIT INTENSIFIER asks the arbiter for an intensifier at its test pressure (R98). -/
def State.placeRequest (s : State) (n : BayId) : State :=
  ((s.takeReleasesOf n).appendRequest n).updBay n (fun b => { b with requested := true })

/-! ## Zero checks (R124, R129) -/

/-- A check begins: its expiry is 40 s ahead and no pair has yet arrived in it (R124). -/
def State.beginCheck (s : State) (n : BayId) : State :=
  s.updBay n (fun b => { b with stepTimer := some (s.after Config.checkTime), sampleSeen := false })

/-- The bay's part of a ZEROING entry (R124). -/
def Bay.zeroed (b : Bay) (rp : Option ResumePoint) : Bay :=
  { b.enter .zeroing with
    resume := rp
    failures := 0
    releaseCause := none
    suspendedFrom := none
    risePaused := none
    pressTimer := none }

/-- ZEROING entry: the first check begins at once, unless the run state is E-STOPPED (R124, R132). -/
def State.enterZeroing (s : State) (n : BayId) (rp : Option ResumePoint) : State :=
  let s1 := s.updBay n (fun b => b.zeroed rp)
  if s.stopped then
    s1.updBay n (fun b => { b with outputs := { b.outputs with buretteDrain := false } })
  else s1.beginCheck n

/-- A bay kept from a step by an E-STOP stays in its state with VENT on (R108). The step waits in `kept`: a resume point
UNLOAD DECISION appears in the record at the ZEROING entry only (R92, R120), which is the model's choice (log 36). -/
def State.keepStep (s : State) (n : BayId) (k : KeptStep) : State :=
  s.updBay n (fun b =>
    { b with kept := some k, stepTimer := none, outputs := { b.outputs with vent := true, fill := false } })

/-- A step into ZEROING with a cylinder, kept while the run state is E-STOPPED (R108, R109). -/
def State.zeroingStep (s : State) (n : BayId) (rp : ResumePoint) : State :=
  if s.stopped then s.keepStep n (.zeroing rp) else s.enterZeroing n (some rp)

/-- The proactive trigger's condition: the lane's occupancy is at or below almost-empty and validity × 2 is below the
working zero interval (R129). -/
def State.proactive (s : State) (n : BayId) : Bool :=
  decide ((s.lane (laneOf n)).queue.length ≤ s.work.almostEmpty (laneOf n)) &&
    decide ((s.bay n).validity * 2 < s.work.zeroInterval)

/-- The proactive trigger, tested at an IDLE bay (R129). -/
def State.testProactive (s : State) (n : BayId) : State :=
  if (s.bay n).state = .idle ∧ s.stopped = false ∧ s.proactive n = true then s.enterZeroing n none else s

/-- The triggers tested at IDLE entry and at the release of an E-STOP (R129). -/
def State.testIdleTriggers (s : State) (n : BayId) : State :=
  if (s.bay n).state = .idle ∧ s.stopped = false ∧
      (0 < (s.bay n).checksOwed ∨ (s.bay n).validity = 0 ∨ s.proactive n = true) then
    s.enterZeroing n none
  else s

/-- An IDLE entry (R110, R127). Telling the lane is the lane's allocation attempt, BAY_ALLOCATION. -/
def State.enterIdle (s : State) (n : BayId) : State :=
  (s.updBay n (fun b =>
    { b.enter .idle with
      resume := none
      failures := 0
      releaseCause := none
      suspendedFrom := none
      risePaused := none
      pressTimer := none })).testIdleTriggers n

/-- An occupancy report of a lane to its group's bays (R68, R129). -/
def State.reportOccupancy (s : State) (l : LaneId) : State :=
  (groupOf l).foldl State.testProactive s

/-! ## Venting and pressure (R98, R103) -/

/-- The bay's part of a RELEASING entry (R103). -/
def Bay.vented (b : Bay) (cause : ReleaseCause) (expiry : Seconds) : Bay :=
  { b.enter .releasing with
    releaseCause := some cause
    suspendedFrom := none
    resume := none
    risePaused := none
    pressTimer := none
    stepTimer := some expiry }

/-- RELEASING entry with a release cause (R103). -/
def State.enterReleasing (s : State) (n : BayId) (cause : ReleaseCause) : State :=
  ((s.withdrawRequest n).releaseCoupled n).updBay n (fun b => b.vented cause (s.after Config.releaseLimit))

/-- The comparison of validity with the allowance in AWAIT INTENSIFIER, and in SUSPENDED with the pressurised flag clear,
and what a shortfall brings (R98). -/
def State.testShortfall (s : State) (n : BayId) : State :=
  if s.short n then
    match (s.bay n).state with
    | .awaitIntensifier =>
      if (s.bay n).pressurised then s.enterReleasing n (.void .zeroLapsed)
      else (s.withdrawRequest n).zeroingStep n .request
    | .suspended => if (s.bay n).pressurised then s else s.zeroingStep n .suspend
    | _ => s
  else s

/-- The bay's part of an AWAIT INTENSIFIER entry (R98). -/
def Bay.awaiting (b : Bay) : Bay := { b.enter .awaitIntensifier with resume := none, suspendedFrom := none }

/-- AWAIT INTENSIFIER entry with a request at the tail (R98). -/
def State.enterAwait (s : State) (n : BayId) : State :=
  ((s.updBay n Bay.awaiting).placeRequest n).testShortfall n

/-! ## Filling (R96, R97) -/

/-- DOOR CLOSED and FULL are both on in FILLING: the bay takes B and asks for an intensifier (R97). -/
def State.fillComplete (s : State) (n : BayId) : State :=
  (s.updBay n (fun b => { b with baseline := some b.latestGauge })).enterAwait n

/-- Tests the end of filling (R97). A bay whose fill limit has expired and that waits for the release of an E-STOP is
past it. -/
def State.testFilled (s : State) (n : BayId) : State :=
  if (s.bay n).state = .filling ∧ (s.bay n).kept = none ∧ (s.bay n).full = true ∧ (s.bay n).doorClosed = true then
    s.fillComplete n
  else s

/-- The bay's part of a FILLING entry (R97). -/
def Bay.fillStarted (b : Bay) (expiry : Seconds) : Bay :=
  { b.enter .filling with
    pressurised := false
    lapsed := false
    aborted := false
    ruptured := false
    baseline := none
    holdStart := none
    peak := none
    et := none
    drop := none
    ep := none
    releaseCause := none
    suspendedFrom := none
    resume := none
    risePaused := none
    pressTimer := none
    stepTimer := some expiry }

/-- The start of an attempt is reported for the entry a bay holds (R17). -/
def State.reportBayAttempt (s : State) (n : BayId) : State :=
  match (s.bay n).index with
  | some i => s.reportAttempt i
  | none => s

/-- FILLING entry (R97). -/
def State.enterFilling (s : State) (n : BayId) : State :=
  ((s.reportBayAttempt n).updBay n (fun b => b.fillStarted (s.after Config.fillLimit))).testFilled n

/-- The fill step, kept while the run state is E-STOPPED (R96, R108). -/
def State.fillStep (s : State) (n : BayId) : State :=
  if s.stopped then s.keepStep n .fillStep
  else if 0 < (s.bay n).checksOwed ∨ s.short n = true then s.enterZeroing n (some .fill)
  else s.enterFilling n

/-! ## Unloading (R79, R107, R108, R110) -/

/-- The bay's part of an UNLOADING entry. -/
def Bay.unloadStarted (b : Bay) : Bay :=
  { b.enter .unloading with
    releaseCause := none
    suspendedFrom := none
    resume := none
    risePaused := none
    pressTimer := none }

/-- UNLOADING with a claim in the outfeed claim list (R107, R108, R113). -/
def State.unloadToOutfeed (s : State) (n : BayId) : State :=
  (s.updBay n Bay.unloadStarted).placeClaim (.bay n)

/-- Whether a lane's track has room (R79). -/
def State.trackRoom (s : State) (l : LaneId) : Bool :=
  decide ((s.lane l).state = .normal) && !s.stopped && decide ((s.lane l).track.length < Config.trackCapacity)

/-- The unload decision: the track's tail is reserved and the transfer onto it begins, or the bay retests in place
(R79, R108). -/
def State.unloadDecision (s : State) (n : BayId) : State :=
  match (s.bay n).index with
  | some i =>
    if s.trackRoom (laneOf n) then
      (((s.updBay n Bay.unloadStarted).updLane (laneOf n) (fun x =>
        { x with track := x.track ++ [.reserved (s.newTransit (.entry i) (.bay n))] })).reportBegin (.entry i)
          (.recirc (laneOf n)))
    else s.fillStep n
  | none => s

/-! ## Faults (R118) -/

/-- The bay's part of a FAULT entry (R118). -/
def Bay.faulted (b : Bay) (cause : AlertCode) : Bay :=
  { b.enter .fault with faultCause := some cause, suspendedFrom := none, risePaused := none, pressTimer := none }

/-- FAULT entry with its alert (R118). -/
def State.bayFault (s : State) (n : BayId) (cause : AlertCode) : State :=
  ((s.withdrawRequest n).updBay n (fun b => b.faulted cause)).raiseAlert (baySource n) cause

/-- The bay is told its transfer out is over: it clears its index and enters IDLE, or FAULT with RUPTURE INSPECTION when
the ruptured flag is set (R110). -/
def State.bayUnloaded (s : State) (n : BayId) : State :=
  let s1 := s.updBay n (fun b => { b with index := none })
  if (s.bay n).ruptured then s1.bayFault n .ruptureInspection else s1.enterIdle n

/-! ## Voids, aborts and settling (R104, R108, R113) -/

/-- The route the roster answers a report with: the entry's route after it (R18, R19). -/
def State.answer (s : State) (i : RosterIndex) : Option Route := (s.entry i).route

/-- A void is reported and the bay acts on the answer (R108). `settled` says that it was decided at a completed settle. The report
ends the presence of the release cause (R92), for a bay that then waits in SETTLING for the release of an E-STOP as well: the
model's choice (log 43). -/
def State.voidAndAct (s : State) (n : BayId) (c : VoidCause) (m : Option Measurements) (settled : Bool) : State :=
  match (s.bay n).index with
  | some i =>
    let s1 := (s.reportVoid i c m).updBay n (fun b => { b with releaseCause := none })
    if s1.answer i = some .test then
      match c with
      | .eStop => s1.fillStep n
      | .zeroLapsed | .gauge => if settled then s1.zeroingStep n .unloadDecision else s1.unloadDecision n
      | .noFill | .noPressure | .leak | .overpressure | .pressureLimit => s1.unloadDecision n
    else s1.unloadToOutfeed n
  | none => s

/-- An abort is reported and the cylinder claims outfeed room (R113, R20). -/
def State.abortAndUnload (s : State) (n : BayId) : State :=
  match (s.bay n).index with
  | some i => (s.reportAborted i).unloadToOutfeed n
  | none => s

/-- SETTLING entry, acting on the release cause (R104). -/
def State.enterSettling (s : State) (n : BayId) : State :=
  let s1 := s.updBay n (fun b => b.enter .settling)
  if (s.bay n).aborted then s1.abortAndUnload n
  else
    match (s.bay n).releaseCause with
    | some .holdEnd | some .rupture =>
      s1.updBay n (fun b => { b with stepTimer := some (s.after s.work.settleTime) })
    | some .abort => s1.abortAndUnload n
    | some (.void c) => s1.voidAndAct n c none false
    | none => s1

/-! ## Lapse (R106, R123) -/

/-- An attempt is in progress: from its FILLING entry until its verdict, void or abort (R106). A bay that has reported a
void and waits for the release of an E-STOP is past it; a bay in FAULT with a release cause still owes its verdict or void
(R117). The abort that ends an attempt in RELEASING is its report at SETTLING, and not the command: the model's choice (log 40). -/
def Bay.attemptOpen (b : Bay) : Bool :=
  match b.state with
  | .awaitIntensifier | .pressurising | .holding | .suspended | .releasing => true
  | .filling | .settling => b.kept.isNone
  | .fault => b.releaseCause.isSome
  | .zeroing => decide (b.resume = some .request) || decide (b.resume = some .suspend)
  | .starting | .idle | .loading | .unloading | .offline => false

/-- What a bay does when its validity is 0: an IDLE bay zero-checks, and an attempt in progress gets its lapsed flag
(R106, R123, R129). -/
def State.lapse (s : State) (n : BayId) : State :=
  if (s.bay n).state = .idle then (if s.stopped then s else s.enterZeroing n none)
  else if (s.bay n).attemptOpen then s.updBay n (fun b => { b with lapsed := true })
  else s

/-! ## Grants, driving and losing an intensifier (R99, R100) -/

/-- The DRIVING notice: the rise limit starts, or resumes with its remaining seconds (R100). -/
def State.drivingNotice (s : State) (n : BayId) (i : IntensifierId) : State :=
  if (s.bay n).state = .pressurising ∧ (s.bay n).coupled = some i then
    s.updBay n (fun b =>
      { b with
        stepTimer := some (s.after (b.risePaused.getD s.work.riseLimit))
        risePaused := none })
  else s

/-- The seconds a running timer has left; none left once it is due. -/
def State.remaining (s : State) (e : Seconds) : Nat := if s.due (some e) then 0 else (e - s.lineSeconds).toNat

/-- The fault notice: the bay decouples, pauses its rise limit and waits in AWAIT INTENSIFIER; its request is the one the
arbiter has placed at the head (R100, R138). -/
def State.faultNotice (s : State) (n : BayId) (i : IntensifierId) : State :=
  if (s.bay n).state = .pressurising ∧ (s.bay n).coupled = some i then
    let paused : Option Nat :=
      match (s.bay n).stepTimer with
      | some e => some (s.remaining e)
      | none => (s.bay n).risePaused
    (s.updBay n (fun b =>
      { { b with coupled := none }.awaiting with requested := true, risePaused := paused })).testShortfall n
  else s

/-- The bay's part of a PRESSURISING entry; the first of an attempt sets the pressurised flag, starts the pressurised
limit and clears the trace ring (R99, R102). -/
def Bay.coupledTo (b : Bay) (i : IntensifierId) (limitExpiry : Seconds) : Bay :=
  let b1 := { { b with coupled := some i }.enter .pressurising with requested := false }
  if b.pressurised then b1
  else
    { b1 with
      pressurised := true
      pressTimer := some limitExpiry
      trace := emptyTrace
      traceIndex := 0
      traceCount := 0 }

end Sys2Proof.Machine
end

