-- ==== Sys2Proof/Machine/Operands.lean ====
section
/-! DEFINITION. The operands of the command words: the argument fields of R182 and the blocks they name. -/

namespace Sys2Proof.Machine

/-- The one argument of a command: bits 7 to 0 (R182). -/
def argByte (arg : BitVec 24) : Nat := (arg &&& 0xFF#24).toNat

/-- Bits 15 to 8 of an argument: SET DATE's year, SERVICE LINE's line (R182). -/
def argMiddle (arg : BitVec 24) : Nat := ((arg >>> 8) &&& 0xFF#24).toNat

/-- Bits 23 to 16 of an argument: SERVICE LINE's bay (R182). -/
def argHigh (arg : BitVec 24) : Nat := (arg >>> 16).toNat

/-- The command word with a code and an argument (R182). -/
def commandWord (code : Byte) (arg : BitVec 24) : Word := code ++ arg

/-- The bay with a number 1 to 6. -/
def bayOfNumber (k : Nat) : Option BayId :=
  if h : 1 ≤ k ∧ k ≤ 6 then some ⟨k - 1, by omega⟩ else none

/-- The note slot with a number 0 to 31. -/
def slotOfNumber (k : Nat) : Option SlotId := if h : k < 32 then some ⟨k, h⟩ else none

/-- The roster index with a number 0 to 47. -/
def indexOfNumber (k : Nat) : Option RosterIndex := if h : k < 48 then some ⟨k, h⟩ else none

/-- The lane of LANE CLEAR's argument: 0 for lane A, 1 for lane B (R87). -/
def laneOfNumber : Nat → Option LaneId
  | 0 => some .a
  | 1 => some .b
  | _ => none

/-- The block a source number names in TAKE OUT OF SERVICE and RETURN (R167). The blocks with neither command have the
bad-argument row. -/
def bayOfSource (k : Nat) : Option BayId :=
  if h : 5 ≤ k ∧ k ≤ 10 then some ⟨k - 5, by omega⟩ else none

def intensifierOfSource : Nat → Option IntensifierId
  | 11 => some .one
  | 12 => some .two
  | _ => none

def stationOfSource : Nat → Option StationId
  | 13 => some .stamper
  | 14 => some .defacer
  | _ => none

def readerOfSource : Nat → Option LaneId
  | 1 => some .a
  | 2 => some .b
  | _ => none

end Sys2Proof.Machine
end

