-- ==== Sys2Proof/Machine/Layout.lean ====
section
/-! DEFINITION. What the line computer sees: the byte layouts of the records and of the register words (chapter 12), the
edits that publish the block records (R163), and the bytes of the store. -/

namespace Sys2Proof.Machine

/-! ## Encoding (R181) -/

/-- `k` little-endian bytes of a number. -/
def leBytes : (k n : Nat) → List Byte
  | 0, _ => []
  | k + 1, n => BitVec.ofNat 8 n :: leBytes k (n / 256)

/-- `k` bytes FFh: an absent optional field. -/
def absentBytes (k : Nat) : List Byte := List.replicate k 0xFF#8

/-- An optional number in `k` bytes. -/
def optBytes (k : Nat) (o : Option Nat) : List Byte :=
  match o with
  | some n => leBytes k n
  | none => absentBytes k

/-- An optional signed number in 4 bytes, two's complement. -/
def optSigned (o : Option Int) : List Byte :=
  match o with
  | some z => leBytes 4 (BitVec.ofInt 32 z).toNat
  | none => absentBytes 4

/-- An optional time. -/
def optTime (o : Option Seconds) : List Byte := optBytes 4 (o.map BitVec.toNat)

/-- A list of bytes in exactly `k` places, filled up with `fill`. -/
def padBytes (k : Nat) (fill : Byte) (l : List Byte) : List Byte := (l ++ List.replicate k fill).take k

/-- An optional text in `k` places; a shorter text is followed by 00h bytes. -/
def optText (k : Nat) (o : Option (List Byte)) : List Byte :=
  match o with
  | some l => padBytes k 0x00#8 l
  | none => absentBytes k

/-- Flag bits from bit 0 up. -/
def flagBits (l : List Bool) : Nat := l.foldr (fun b n => (if b then 1 else 0) + 2 * n) 0

def RunState.code : RunState → Nat
  | .awaitingTables => 0
  | .ready => 1
  | .running => 2
  | .stopping => 3
  | .eStopped => 4

def RosterState.code : RosterState → Nat
  | .free => 0
  | .awaitingNote => 1
  | .queued => 2
  | .testing => 3
  | .outbound => 4
  | .done => 5

def Place.code : Place → Nat
  | .nowhere => 0x00
  | .lane .a => 0x01
  | .lane .b => 0x02
  | .recirc .a => 0x03
  | .recirc .b => 0x04
  | .inTransfer => 0x05
  | .bay n => 0x11 + n.val
  | .outfeed => 0x20
  | .station .stamper => 0x21
  | .station .defacer => 0x22

def Route.code : Route → Nat
  | .test => 1
  | .passThrough => 2
  | .deface => 3
  | .stamp => 4
  | .hold => 5

def VoidCause.code : VoidCause → Nat
  | .noFill => 1
  | .noPressure => 2
  | .leak => 3
  | .overpressure => 4
  | .pressureLimit => 5
  | .zeroLapsed => 6
  | .gauge => 7
  | .eStop => 8

def Reason.code : Reason → Nat
  | .none => 0
  | .visual => 1
  | .ratio => 2
  | .elastic => 3
  | .rupture => 4
  | .retestsExhausted => 5
  | .unidentified => 6
  | .unannounced => 7
  | .duplicateIdentity => 8
  | .unknownType => 9
  | .aborted => 10
  | .markUncertain => 11
  | .defaceUncertain => 12
  | .laneClear => 13
  | .transferJam => 14
  | .noCylinder => 15

def Verdict.code : Verdict → Nat
  | .pass => 1
  | .condemn _ => 2
  | .notDue => 3

/-- The reason code of a verdict: 0 with PASS and NOT DUE (R8). -/
def Verdict.reason : Verdict → Reason
  | .condemn r => r
  | .pass | .notDue => .none

def OutcomeCode.code : OutcomeCode → Nat
  | .passedMarked => 1
  | .notDueReleased => 2
  | .condemnedDefaced => 3
  | .held => 4
  | .removed => 5
  | .missing => 6

def AlertCode.code : AlertCode → Nat
  | .readerBreak => 1
  | .laneOverfill => 2
  | .unrosteredArrival => 3
  | .transferJam => 4
  | .gaugeDrift => 5
  | .ventFailure => 6
  | .ruptureInspection => 7
  | .intensifierFault => 8
  | .noAnswer => 9
  | .toolFault => 10
  | .noCylinder => 11
  | .protocol => 12
  | .unrosteredHeld => 13
  | .eStopAsserted => 14
  | .eStopReleased => 15

def ResultCode.code : ResultCode → Nat
  | .accepted => 0
  | .unknownCommand => 1
  | .badArgument => 2
  | .wrongState => 3
  | .duplicate => 4
  | .tooLate => 5
  | .notReady => 6
  | .tableError => 7

def Visual.code : Visual → Nat
  | .accept => 1
  | .condemn => 2

def ReaderState.code : ReaderState → Nat
  | .off => 0
  | .hunt => 1
  | .frame => 2
  | .fault => 3

def FlowState.code : FlowState → Nat
  | .normal => 0
  | .fault => 1

def BayState.code : BayState → Nat
  | .starting => 0
  | .zeroing => 1
  | .idle => 2
  | .loading => 3
  | .filling => 4
  | .awaitIntensifier => 5
  | .pressurising => 6
  | .holding => 7
  | .suspended => 8
  | .releasing => 9
  | .settling => 0xA
  | .unloading => 0xB
  | .offline => 0xC
  | .fault => 0xD

def ReleaseCause.code : ReleaseCause → Nat
  | .holdEnd => 0x10
  | .rupture => 0x11
  | .abort => 0x12
  | .void c => c.code

/-- As a bay state code (R185). -/
def SuspendedFrom.code : SuspendedFrom → Nat
  | .awaitIntensifier => 5
  | .pressurising => 6
  | .holding => 7

def ResumePoint.code : ResumePoint → Nat
  | .fill => 1
  | .request => 2
  | .suspend => 3
  | .unloadDecision => 4

def IntensifierId.number : IntensifierId → Nat
  | .one => 1
  | .two => 2

def IntensifierState.code : IntensifierState → Nat
  | .offline => 0
  | .fault => 1
  | .free => 2
  | .retuning => 3
  | .driving => 4

def StationState.code : StationState → Nat
  | .idle => 0
  | .nestLoading => 1
  | .nestLoaded => 2
  | .offering => 3
  | .working => 4
  | .ejecting => 5
  | .fault => 6
  | .offline => 7

def Nest.code : Nest → Nat
  | .empty => 0
  | .incoming => 1
  | .loaded => 2
  | .outgoing => 3

def Exit.code : Exit → Nat
  | .releaseConveyor => 1
  | .scrapBin => 2
  | .holdChute => 3

/-- A queue item code: the roster index, or 40h for the marker. -/
def Item.code : Item → Nat
  | .entry i => i.val
  | .marker => 0x40

/-- A position's code: bit 7 set for a reservation. -/
def Position.code : Position → Nat
  | .occupied x => x.code
  | .reserved t => 0x80 + t.item.code

def Claimant.code : Claimant → Nat
  | .bay n => n.val + 1
  | .lane .a => 0x0A
  | .lane .b => 0x0B

/-! ## Register words (R182) -/

/-- The word of a notice in NMB. -/
def Notice.word : Notice → Word
  | .outcome i code reason =>
    BitVec.ofNat 32 (0x01000000 + i.val * 0x10000 + code.code * 0x100 + reason.code)
  | .alert source code => BitVec.ofNat 32 (0x02000000 + source * 0x10000 + code.code)

/-- The word of kind NONE. -/
def noNoticeWord : Word := 0#32

/-- STAT (R172, R182). -/
def State.statWord (s : State) : Word :=
  BitVec.ofNat 32
    (flagBits [s.cmbFull, s.nmb.isSome] + s.runState.code * 0x10 +
      flagBits [s.overwriteFlag, s.alertSeen] * 0x100 + s.lastResult.code * 0x10000 + s.lastCommand.toNat * 0x1000000)

/-! ## Records (R183 to R185) -/

/-- The outfeed unit's fields of the header, 14h to 28h. -/
def State.outfeedFields (s : State) : List Byte :=
  leBytes 1 s.outfeedState.code ++ leBytes 1 (flagBits [s.outfeedHeadInFlight]) ++ leBytes 1 s.ejectsInFlight ++
    leBytes 1 s.outfeedQueue.length ++
    padBytes 8 0xFF#8 (s.outfeedQueue.map (fun p => BitVec.ofNat 8 p.code)) ++
    leBytes 1 s.claims.length ++ padBytes 8 0xFF#8 (s.claims.map (fun c => BitVec.ofNat 8 c.code))

/-- The header after its edit count, 01h to 3Fh (R183). -/
def State.headerBody (s : State) : List Byte :=
  Config.layoutVersion :: leBytes 1 s.runState.code ++ optBytes 1 s.firstBad ++
    optBytes 2 (s.date.map Date.year) ++ optBytes 1 (s.date.map Date.month) ++ [0x00#8] ++
    leBytes 4 s.lineSeconds.toNat ++ leBytes 4 s.typeMask.toNat ++ leBytes 2 s.templateMask.toNat ++
    leBytes 1 s.freeCount ++ leBytes 1 s.notices.length ++ s.outfeedFields ++ List.replicate 0x17 0x00#8

/-- A lane record after its edit count, 01h to 3Fh, the reader fields included (R185, R50). -/
def State.laneBody (s : State) (l : LaneId) : List Byte :=
  let x := s.lane l
  let r := s.reader l
  leBytes 1 x.state.code ++
    leBytes 1 (flagBits [x.permit, x.headInFlight, s.laneClaim l, x.trackOut, x.noteWait.isSome]) ++
    leBytes 1 x.queue.length ++ padBytes 12 0xFF#8 (x.queue.map (fun i => BitVec.ofNat 8 i.code)) ++
    optTime (x.noteWait.map NoteWait.expiry) ++ leBytes 1 x.track.length ++
    padBytes 3 0xFF#8 (x.track.map (fun p => BitVec.ofNat 8 p.code)) ++
    leBytes 1 r.state.code ++ leBytes 1 r.badFrames ++ leBytes 1 r.duplicateReads ++ leBytes 1 r.overruns ++
    optText 12 (r.held.map Identity.serial) ++ optBytes 2 (r.held.map (fun h => h.date.year)) ++
    optBytes 1 (r.held.map (fun h => h.date.month)) ++ List.replicate 0x15 0x00#8

/-- The timer the record shows as a bay's step timer (R185). -/
def Bay.shownTimer (b : Bay) : Option Seconds :=
  match b.state with
  | .loading => b.loading.bind Transit.expiry
  | _ => b.stepTimer

/-- The output bits of a bay record, 0Dh (R185). -/
def BayOutputs.bits (o : BayOutputs) : Nat :=
  flagBits [o.fill, o.isolate, o.vent, o.couple1, o.couple2, o.door, o.buretteDrain]

/-- A bay record after its edit count, 01h to 3Fh (R185). -/
def Bay.body (b : Bay) : List Byte :=
  leBytes 1 b.state.code ++ optBytes 1 (b.index.map Fin.val) ++
    leBytes 1 (flagBits [b.pressurised, b.lapsed, b.aborted, b.ruptured]) ++
    optBytes 1 (b.releaseCause.map ReleaseCause.code) ++ optBytes 1 (b.suspendedFrom.map SuspendedFrom.code) ++
    optBytes 1 (b.resume.map ResumePoint.code) ++ optBytes 1 (b.coupled.map IntensifierId.number) ++
    optBytes 1 (b.faultCause.map AlertCode.code) ++ leBytes 1 b.checksOwed ++ leBytes 1 b.failures ++
    leBytes 1 b.traceIndex ++ leBytes 1 b.traceCount ++ leBytes 1 b.outputs.bits ++
    leBytes 1 (flagBits [b.present, b.full, b.doorClosed]) ++
    leBytes 1 (flagBits [b.shownTimer.isSome, b.risePaused.isSome, b.pressTimer.isSome]) ++
    leBytes 2 (flagBits [b.baseline.isSome, b.holdStart.isSome, b.peak.isSome, b.et.isSome, b.drop.isSome,
      b.ep.isSome, b.zeroReference.isSome, b.lastZeroReading.isSome, b.lastDrift.isSome]) ++
    optBytes 2 b.baseline ++ optBytes 2 b.holdStart ++ optBytes 2 b.peak ++ optSigned b.et ++ optSigned b.drop ++
    optBytes 2 b.ep ++ leBytes 2 b.latestPressure ++ leBytes 2 b.latestGauge ++ optBytes 2 b.zeroReference ++
    leBytes 2 b.validity ++ optBytes 2 b.lastZeroReading ++ optBytes 2 b.lastDrift ++ optBytes 2 b.risePaused ++
    optTime b.shownTimer ++ optTime b.pressTimer ++ List.replicate 8 0x00#8

/-- A bay's trace ring, 256 bytes (R102, R185). -/
def Bay.traceBytes (b : Bay) : List Byte :=
  b.trace.toList.flatMap (fun e => leBytes 2 e.pressure ++ leBytes 2 e.gauge)

/-- An intensifier record after its edit count, 01h to 1Fh; intensifier 1's carries the request queue (R185). -/
def State.intensifierBody (s : State) (i : IntensifierId) : List Byte :=
  let x := s.intensifier i
  let q : List Request :=
    match i with
    | .one => s.requests
    | .two => []
  leBytes 1 x.state.code ++ optBytes 2 x.setpoint ++ optBytes 1 (x.coupledBay.map (fun n => n.val + 1)) ++
    optBytes 2 x.requested ++ leBytes 1 (flagBits [x.pendingOffline, x.faultInput]) ++ optTime x.retuneExpiry ++
    leBytes 1 q.length ++
    padBytes 18 0xFF#8 (q.flatMap (fun r => leBytes 1 (r.bay.val + 1) ++ leBytes 2 r.pressure)) ++ [0x00#8]

/-- The limit a station record shows: that of the state the table names (R185). In FAULT a loading transfer limit that still runs
is not shown (R156): the model's choice (log 42). -/
def Station.shownLimit (x : Station) : Option Seconds :=
  match x.state with
  | .nestLoading => x.loading.bind Transit.expiry
  | .offering | .working => x.limit
  | _ => none

/-- A station record after its edit count, 01h to 1Fh (R185). -/
def State.stationBody (s : State) (st : StationId) : List Byte :=
  let x := s.station st
  leBytes 1 x.state.code ++ leBytes 1 x.nest.code ++ optBytes 1 (x.index.map Fin.val) ++
    optBytes 1 (x.order.map List.length) ++
    (match st with
     | .stamper => optBytes 1 (x.mark.map List.length)
     | .defacer => [0xFF#8]) ++
    optBytes 1 x.bytePos ++ leBytes 1 x.reoffer ++ leBytes 1 x.resultLatch.toNat ++
    optBytes 1 (x.ejectExit.map Exit.code) ++ leBytes 1 (flagBits [x.ejectBegun, x.shownLimit.isSome]) ++
    optBytes 1 (x.faultCause.map AlertCode.code) ++ [x.orderBus] ++
    leBytes 1 (flagBits [x.orderReady, x.taken, x.done, x.ready, x.nestEye, s.guardClosed]) ++
    optTime x.shownLimit ++ List.replicate 0xE 0x00#8

/-- A roster entry after its edit count, 01h to 7Fh (R184). -/
def Entry.body (e : Entry) : List Byte :=
  leBytes 1 e.state.code ++ leBytes 1 e.place.code ++ optBytes 1 (e.route.map Route.code) ++
    optText 12 e.serial ++ optBytes 2 (e.tagDate.map Date.year) ++ optBytes 1 (e.tagDate.map Date.month) ++
    optBytes 1 (e.noteSlot.map Fin.val) ++ optBytes 1 (e.typeCode.map Fin.val) ++
    optBytes 1 (e.visual.map Visual.code) ++ leBytes 1 (flagBits [e.forceTest]) ++
    optBytes 1 (e.params.map Params.strikeClass) ++ optBytes 2 (e.params.map Params.testPressure) ++
    optBytes 2 (e.params.map Params.holdTime) ++ optBytes 2 (e.params.map Params.ratioLimit) ++
    optBytes 2 (e.params.map Params.elasticLimit) ++ optBytes 2 (e.params.map Params.capacity) ++
    optBytes 1 (e.params.map Params.dropTolerance) ++ optBytes 1 (e.params.map Params.template) ++
    leBytes 1 e.countedVoids ++ leBytes 1 e.testsStarted ++ optBytes 1 (e.lastVoid.map VoidCause.code) ++
    optBytes 1 (e.lastBay.map (fun n => n.val + 1)) ++
    leBytes 1 (flagBits [e.meas.baseline.isSome, e.meas.peak.isSome, e.meas.et.isSome, e.meas.drop.isSome,
      e.meas.ep.isSome, e.meas.ratio.isSome]) ++
    optBytes 1 (e.verdict.map Verdict.code) ++ optBytes 1 (e.verdict.map (fun v => v.reason.code)) ++
    optBytes 1 (e.holdReason.map Reason.code) ++ optBytes 2 e.meas.baseline ++ optBytes 2 e.meas.peak ++
    optSigned e.meas.et ++ optSigned e.meas.drop ++ optBytes 2 e.meas.ep ++ optBytes 2 e.meas.ratio ++
    optBytes 1 (e.mark.map List.length) ++ optText 24 e.mark ++ List.replicate 3 0x00#8 ++ leBytes 4 e.arrivalTime.toNat ++
    optTime e.verdictTime ++ optTime e.doneTime ++ optBytes 1 (e.outcome.map (fun o => o.1.code)) ++
    optBytes 1 (e.outcome.map (fun o => o.2.code)) ++ List.replicate 0x1A 0x00#8

/-- The base address of a record (R162, R185, R102, R1). -/
def Record.base : Record → Nat
  | .header => 0x0000
  | .lane .a => 0x0100
  | .lane .b => 0x0140
  | .intensifier .one => 0x0180
  | .intensifier .two => 0x01A0
  | .station .stamper => 0x01C0
  | .station .defacer => 0x01E0
  | .bay n => 0x0200 + n.val * 0x40
  | .trace n => 0x2800 + n.val * 0x100
  | .entry i => 0x1000 + i.val * 0x80

/-- The edit count a record is edited under (R163, R102). -/
def State.editCount (s : State) : Record → Byte
  | .header => s.headerCount
  | .lane l => (s.lane l).editCount
  | .intensifier i => (s.intensifier i).editCount
  | .station st => (s.station st).editCount
  | .bay n => (s.bay n).editCount
  | .trace n => (s.bay n).editCount
  | .entry i => (s.entry i).editCount

/-- The bytes of a record as the RQ4 holds them. -/
def State.recordBytes (s : State) : Record → List Byte
  | .header => s.headerCount :: s.headerBody
  | .lane l => (s.lane l).editCount :: s.laneBody l
  | .intensifier i => (s.intensifier i).editCount :: s.intensifierBody i
  | .station st => (s.station st).editCount :: s.stationBody st
  | .bay n => (s.bay n).editCount :: (s.bay n).body
  | .trace n => (s.bay n).traceBytes
  | .entry i => (s.entry i).editCount :: (s.entry i).body

/-- The record that holds an address (R162); none for the note board and the regions the RQ4 never writes. -/
def recordAt (a : Nat) : Option Record :=
  if a < 0x40 then some .header
  else if a < 0x100 then none
  else if a < 0x140 then some (.lane .a)
  else if a < 0x180 then some (.lane .b)
  else if a < 0x1A0 then some (.intensifier .one)
  else if a < 0x1C0 then some (.intensifier .two)
  else if a < 0x1E0 then some (.station .stamper)
  else if a < 0x200 then some (.station .defacer)
  else if h : a < 0x380 then some (.bay ⟨(a - 0x200) / 0x40, by omega⟩)
  else if a < 0x1000 then none
  else if h : a < 0x2800 then some (.entry ⟨(a - 0x1000) / 0x80, by omega⟩)
  else if h : a < 0x2E00 then some (.trace ⟨(a - 0x2800) / 0x100, by omega⟩)
  else none

/-- What an address that `mem` does not list reads as. -/
def State.unlistedByte (s : State) (a : Nat) : Byte :=
  match recordAt a with
  | some r => (s.recordBytes r).getD (a - r.base) 0x00#8
  | none => plainDefault a

/-- A byte of the store as the line computer reads it: a byte it has written into a record stays until the record's next
edit (R164). -/
def State.storeByte (s : State) (a : Nat) : Byte := (Memory.lookup s.mem a).getD (s.unlistedByte a)

/-- A byte written by the line computer at a store address (R162, R164). -/
def State.pokeByte (s : State) (a : Nat) (b : Byte) : State :=
  if a < 0x10000 then { s with mem := Memory.write (s.unlistedByte a) a b s.mem } else s

/-- The canonical form of the store: addresses strictly rising and inside the store, and no byte listed that equals what
the address reads as unlisted. -/
def State.memWf (s : State) : Bool :=
  Memory.rising s.mem && s.mem.all (fun c => decide (c.1 < 0x10000) && decide (c.2 ≠ s.unlistedByte c.1))

/-- A read of the store by bytes, halfwords or words, little-endian (R162). -/
def State.storeRead (s : State) (a : Nat) : AccessSize → Word
  | .byte => (s.storeByte a).setWidth 32
  | .halfword => (s.storeByte (a + 1) ++ s.storeByte a).setWidth 32
  | .word => s.storeByte (a + 3) ++ s.storeByte (a + 2) ++ s.storeByte (a + 1) ++ s.storeByte a

/-- A read of a register as a whole word: CMB, STAT, and zero for CTL and for unassigned addresses (R162, R165, R172). -/
def State.registerRead (s : State) (a : Nat) : Word :=
  if a = 0x10000 then s.cmbWord
  else if a = 0x10008 then s.statWord
  else 0#32

/-- A read of the host bus that changes nothing (R162). A read of NMB is the command NMB_READ. The manual is silent on an
unaligned halfword or word of the store, here the consecutive bytes, on a narrow read of a register, and on an address between
1_0000h and 1_000Ch that is no register's own, which here read 0 (DESIGN CHOICE, log 5). -/
def State.hostRead (s : State) (a : Nat) (size : AccessSize) : Word :=
  if a < 0x10000 then s.storeRead a size
  else
    match size with
    | .word => s.registerRead a
    | .byte | .halfword => 0#32

/-! ## Publishing a step's edits (R163)

A step changes the units' state; then each lane, intensifier, station and bay record that it changed, and the outfeed
fields of the header, is edited once, and what the line computer had written into an edited record is gone (R164). The
other header fields and the roster entries are edited where they change, by `headerEdit` and `editEntry`. -/

/-- The bytes a step changed in a lane, intensifier, station or bay record make one edit. -/
def nextCount (before after : List Byte) (count : Byte) : Byte := if before = after then count else count + 2#8

/-- Each block record the step from `s` to `t` changed is edited once. -/
def State.countEdits (s t : State) : State :=
  { t with
    headerCount := nextCount s.outfeedFields t.outfeedFields t.headerCount
    laneA := { t.laneA with editCount := nextCount (s.laneBody .a) (t.laneBody .a) t.laneA.editCount }
    laneB := { t.laneB with editCount := nextCount (s.laneBody .b) (t.laneBody .b) t.laneB.editCount }
    bays := Vector.ofFn (fun n : BayId =>
      { t.bays[n] with
        editCount := nextCount ((s.bay n).body ++ (s.bay n).traceBytes) ((t.bay n).body ++ (t.bay n).traceBytes)
          (t.bay n).editCount })
    intensifier1 := { t.intensifier1 with
      editCount := nextCount (s.intensifierBody .one) (t.intensifierBody .one) t.intensifier1.editCount }
    intensifier2 := { t.intensifier2 with
      editCount := nextCount (s.intensifierBody .two) (t.intensifierBody .two) t.intensifier2.editCount }
    stamper := { t.stamper with
      editCount := nextCount (s.stationBody .stamper) (t.stationBody .stamper) t.stamper.editCount }
    defacer := { t.defacer with
      editCount := nextCount (s.stationBody .defacer) (t.stationBody .defacer) t.defacer.editCount } }

/-- Whether the step from `s` to `t` left the record of an address unedited (R164). A bay's trace ring counts as part of its
record, so that every edit of the record writes the whole ring as well: the model's choice (log 37). -/
def State.sameRecord (s t : State) (a : Nat) : Bool :=
  match recordAt a with
  | some r => decide (s.editCount r = t.editCount r) && decide (s.recordBytes r = t.recordBytes r)
  | none => true

/-- What the line computer had written into an edited record is overwritten (R164), the header's layout version among it, which
R162 has written at the resets only: the model's reading (log 41); and the moment at which CMB became empty
has passed (log 31). -/
def State.overwriteEdited (s t : State) : State :=
  { t with mem := t.mem.filter (fun c => s.sameRecord t c.1), justEmptied := false }

/-- The step from `s` to `t` publishes its edits. -/
def State.publish (s t : State) : State := s.overwriteEdited (s.countEdits t)

end Sys2Proof.Machine
end

