-- ==== Sys2Proof/Machine/FlowOps.lean ====
section
/-! DEFINITION. The shared operations of the lanes, tracks, outfeed and stations (chapters 5 and 9): the head of a lane, lane
faults, what a source is told, and the order a station hands over. -/

namespace Sys2Proof.Machine

/-! ## The head of a lane (R72) -/

/-- The lane's claim, placed unless the lane is in FAULT (R72). -/
def State.claimForLane (s : State) (l : LaneId) : State :=
  match (s.lane l).state with
  | .normal => s.placeClaim (.lane l)
  | .fault => s

/-- The note-wait timer starts with the working note wait limit (R72, R36). -/
def State.startNoteWait (s : State) (l : LaneId) : State :=
  s.updLane l (fun x => { x with noteWait := some ⟨s.work.noteWaitLimit, s.after s.work.noteWaitLimit⟩ })

/-- The note-wait timer stops (R72). -/
def State.stopNoteWait (s : State) (l : LaneId) : State := s.updLane l (fun x => { x with noteWait := none })

/-- The lane acts on its head: when an item becomes the head, and when the head's entry changes state or route (R72). A head
with route TEST is a candidate, which BAY_ALLOCATION reads. -/
def State.headAction (s : State) (l : LaneId) : State :=
  match (s.lane l).queue with
  | [] => s
  | .marker :: _ => s.claimForLane l
  | .entry i :: _ =>
    match (s.entry i).state with
    | .awaitingNote => s.startNoteWait l
    | .queued =>
      match (s.entry i).route with
      | some .hold | some .passThrough | some .deface => (s.stopNoteWait l).claimForLane l
      | _ => s.stopNoteWait l
    | .free | .testing | .outbound | .done => s

/-- The head of a lane is the given entry. -/
def State.headIs (s : State) (l : LaneId) (i : RosterIndex) : Bool :=
  decide ((s.lane l).queue.head? = some (.entry i))

/-- The lane whose head is an entry acts on its match (R59, R72). -/
def State.actOnMatch (s : State) (i : RosterIndex) : State :=
  if s.headIs .a i then s.headAction .a else if s.headIs .b i then s.headAction .b else s

/-- The head leaves a lane's queue as the transfer of it begins (R68, R72). -/
def State.popHead (s : State) (l : LaneId) : State :=
  s.updLane l (fun x => { x with queue := x.queue.tail, headInFlight := true, noteWait := none })

/-- What follows once the head has left: the next item becomes the head, the occupancy is reported, and the permits are
re-evaluated (R68, R71, R72). -/
def State.afterPop (s : State) (l : LaneId) : State := ((s.headAction l).reportOccupancy l).evalPermits

/-! ## Lane faults (R86) -/

/-- A transfer out of the lane's queue is no longer the lane's own (R86). -/
def Transit.disownFor (l : LaneId) (t : Transit) : Transit :=
  if t.source = .laneHead l then { t with disowned := true } else t

/-- Lane FAULT entry (R86); in FAULT already, nothing changes. -/
def State.laneFault (s : State) (l : LaneId) : State :=
  match (s.lane l).state with
  | .fault => s
  | .normal =>
    ((s.updLane l (fun x => { x with state := .fault, permit := false, headInFlight := false })).withdrawClaim
      (.lane l)).mapTransits (Transit.disownFor l)

/-- Outfeed FAULT entry with ALERT TRANSFER JAM (R76, R85). -/
def State.outfeedJam (s : State) : State := { s with outfeedState := .fault }.raiseAlert outfeedSource .transferJam

/-! ## What a source is told (R75, R76, R110, R157) -/

/-- A station is told its eject is over (R157). -/
def Station.ejectOver (x : Station) : Station :=
  { x with
    ejectBegun := false
    nest := .empty
    index := none
    ejectExit := none
    state :=
      match x.state with
      | .ejecting => if x.faultCause.isSome then .fault else .idle
      | other => other }

/-- The source of a transfer is told that its transfer out is over. -/
def State.tellSource (s : State) (t : Transit) : State :=
  match t.source with
  | .laneHead l => if t.disowned then s else s.updLane l (fun x => { x with headInFlight := false })
  | .trackHead l => s.updLane l (fun x => { x with trackOut := false })
  | .bay n => s.bayUnloaded n
  | .outfeedHead => { s with outfeedHeadInFlight := false }
  | .station st => s.updStation st Station.ejectOver

/-! ## Loading a bay (R96) -/

/-- The PRESENT eye ends a bay's loading transfer, if one is in flight; an eye event with none is ignored (R75, R96). -/
def State.endLoading (s : State) (n : BayId) : State :=
  match (s.bay n).loading with
  | some t =>
    let s1 := ((s.updBay n (fun b => { b with loading := none })).reportEnd t.item (.bay n)).tellSource t
    if s.stopped then s1
    else (s1.updBay n (fun b => { b with outputs := { b.outputs with door := true } })).fillStep n
  | none => s

/-! ## Stations -/

/-- A station is offered the outfeed head only when it is IDLE with its nest eye off (R146). -/
def Station.available (x : Station) : Bool := decide (x.state = .idle) && !x.nestEye

/-- The exclusive-OR of bytes (R149). -/
def xorBytes (l : List Byte) : Byte := l.foldl (fun a b => a ^^^ b) 0x00#8

/-- An order with its length byte and its check byte (R149). -/
def orderBytes (kind cls : Byte) (text : List Byte) : List Byte :=
  let body := kind :: cls :: BitVec.ofNat 8 text.length :: text
  body ++ [xorBytes body]

/-- The defacer's die: 1 (SMALL) at a capacity of 100 (10.0 L) or less, otherwise 2 (LARGE) (R149). -/
def dieOf (capacity : Nat) : Byte := if capacity ≤ 100 then 1#8 else 2#8

/-- The order a station builds from the entry on its nest (R149). -/
def stationOrder (st : StationId) (e : Entry) : List Byte :=
  match st with
  | .stamper =>
    orderBytes 0x53#8 (BitVec.ofNat 8 ((e.params.map Params.strikeClass).getD 0)) (e.mark.getD [])
  | .defacer => orderBytes 0x44#8 (dieOf ((e.params.map Params.capacity).getD 0)) (e.serial.getD [])

/-- The mark buffer the stamper copies; the defacer has none (R147). -/
def markBuffer (st : StationId) (e : Entry) : Option (List Byte) :=
  match st with
  | .stamper => e.mark
  | .defacer => none

/-- A station enters FAULT with a fault cause and raises its alert. -/
def State.stationFault (s : State) (st : StationId) (cause : AlertCode) : State :=
  (s.updStation st (fun x => { x with state := .fault, faultCause := some cause })).raiseAlert (stationSource st) cause

/-- A byte's turn comes: its take limit starts, and it is placed on the ORDER bus with ORDER READY on if TAKEN is off (R151). -/
def Station.offerByte (x : Station) (pos : Nat) (expiry : Seconds) : Station :=
  let x1 := { x with bytePos := some pos, limit := some expiry }
  if x.taken then x1
  else { x1 with orderBus := (x.order.getD []).getD (pos - 1) 0x00#8, orderReady := true }

/-- An offering is broken off: ORDER READY off, take limit discarded, byte position cleared (R152). -/
def Station.brokenOff (x : Station) : Station :=
  { x with orderReady := false, limit := none, bytePos := none }

/-- The guard opening or an E-STOP breaks off an offering; the station returns to NEST LOADED (R152). -/
def Station.breakOffering (x : Station) : Station :=
  match x.state with
  | .offering => { x.brokenOff with state := .nestLoaded }
  | _ => x

/-- The work limit of a station (R153). -/
def workLimitOf : StationId → Nat
  | .stamper => Config.stamperWorkLimit
  | .defacer => Config.defacerWorkLimit

/-- The exit of a station's COMPLETE (R154). -/
def completeExit : StationId → Exit
  | .stamper => .releaseConveyor
  | .defacer => .scrapBin

/-- EJECTING entry: the nest is OUTGOING, the exit recorded, and order and mark buffer absent (R154). -/
def Station.eject (x : Station) (exit : Exit) : Station :=
  { x with
    state := .ejecting
    nest := .outgoing
    ejectExit := some exit
    order := none
    mark := none
    limit := none }

/-- A station reports its cylinder uncertain (R154). -/
def State.stationDoubt (s : State) (st : StationId) : State :=
  match (s.station st).index with
  | some i => s.reportDoubt st i
  | none => s

/-- TOOL FAULT, the work limit expiry, and a result outside 1 to 5: the cylinder is uncertain and leaves for the hold chute,
and the station's fault cause is recorded with its alert (R154). -/
def State.faultedResult (s : State) (st : StationId) (cause : AlertCode) : State :=
  ((s.stationDoubt st).updStation st (fun x => { x.eject .holdChute with faultCause := some cause })).raiseAlert
    (stationSource st) cause

/-- The NO CYLINDER result: the entry is closed MISSING, and the station enters FAULT with an empty nest (R154). The two
notices join in either order (log 13). -/
def State.noCylinderResult (s : State) (st : StationId) : State :=
  let close : State → State := fun t =>
    match (s.station st).index with
    | some i => t.closeNoCylinder i
    | none => t
  let alert : State → State := fun t => t.raiseAlert (stationSource st) .noCylinder
  let s1 := { s with choices := s.choices + 1 }.updStation st (fun x =>
    { x with
      state := .fault
      nest := .empty
      index := none
      order := none
      mark := none
      faultCause := some .noCylinder })
  if Config.outcomeFirst s.choices then alert (close s1) else close (alert s1)

end Sys2Proof.Machine
end

