-- ==== Sys2Proof/Machine/BayEvents.lean ====
section
/-! DEFINITION. The meanings of the bay events (chapters 6 and 7): inputs, sample pairs, timer expiries, grants at the bay and
zero checks. -/

namespace Sys2Proof.Machine

/-! ## Inputs (R94, R95, R97) -/

/-- A change of an input's recorded level. -/
def Bay.setInput (b : Bay) (input : BayInput) (level : Bool) : Bay :=
  match input with
  | .present => { b with present := level }
  | .full => { b with full := level }
  | .doorClosed => { b with doorClosed := level }

/-- The recorded level of an input. -/
def Bay.input (b : Bay) (input : BayInput) : Bool :=
  match input with
  | .present => b.present
  | .full => b.full
  | .doorClosed => b.doorClosed

/-- An input change: PRESENT turning on is the destination eye of a loading transfer, and FULL and DOOR CLOSED are acted on
in FILLING (R94, R97). PRESENT turning off in IDLE lets the lane offer the bay again (R95), which BAY_ALLOCATION reads. -/
def State.changeInput (s : State) (n : BayId) (input : BayInput) (level : Bool) : State :=
  if (s.bay n).input input = level then s
  else
    let s1 := s.updBay n (fun b => b.setInput input level)
    match input with
    | .present => if level then s1.endLoading n else s1
    | .full | .doorClosed => s1.testFilled n

/-- BAY_INPUT_CHANGE (R94). -/
def execBayInputChange (n : BayId) (input : BayInput) (level : Bool) (s : State) :
    Host.Outcome State Fault Refusal :=
  .next (s.publish (s.changeInput n input level).drainTest)

/-! ## Sample pairs (R94, R100 to R103) -/

/-- The peak pressure is kept from the first PRESSURISING entry of an attempt until its hold ends or the bay enters RELEASING
(R94). -/
def Bay.keepsPeak (b : Bay) : Bool :=
  match b.state with
  | .pressurising | .holding => true
  | .suspended | .awaitIntensifier => b.pressurised
  | _ => false

/-- Every pair becomes the latest pressure and gauge, and is seen by a running check (R94, R124). -/
def Bay.sampled (b : Bay) (p g : Nat) : Bay :=
  { b with
    latestPressure := p
    latestGauge := g
    sampleSeen := true
    peak := if b.keepsPeak then some (max p (b.peak.getD 0)) else b.peak }

/-- The arbiter takes a fault cause of an intensifier: FAULT from FREE, RETUNING or DRIVING, with its alert (R138). -/
def State.faultIntensifier (s : State) (i : IntensifierId) : State :=
  match (s.intensifier i).state with
  | .free | .retuning | .driving =>
    (s.setIntensifier i
      { s.intensifier i with
        state := .fault
        setpoint := none
        coupledBay := none
        requested := none
        retuneExpiry := none
        pendingOffline := false }).raiseAlert (intensifierSource i) .intensifierFault
  | .offline | .fault => s

/-- An overpressure report: it faults the intensifier if that is coupled to the reporting bay (R140). -/
def State.reportOverpressure (s : State) (n : BayId) (i : IntensifierId) : State :=
  if (s.intensifier i).serves n then s.faultIntensifier i else s

/-- A sample above 110 % of test pressure in PRESSURISING (R100, R140). -/
def State.overpressure (s : State) (n : BayId) : State :=
  let s1 :=
    match (s.bay n).coupled with
    | some i => s.reportOverpressure n i
    | none => s
  s1.enterReleasing n (.void .overpressure)

/-- A sample at test pressure: the bay decouples, releases the intensifier and enters HOLDING (R100, R101). -/
def State.enterHolding (s : State) (n : BayId) (p : Params) (pressure : Nat) : State :=
  (s.releaseCoupled n).updBay n (fun b =>
    { b.enter .holding with
      holdStart := some pressure
      risePaused := none
      pairCount := 0
      stepTimer := some (s.after p.holdTime) })

/-- The pair counts towards the trace: every 4th pair of HOLDING is written into the ring (R102). -/
def Bay.traced (b : Bay) (p g : Nat) : Bay :=
  let b1 := { b with pairCount := b.pairCount + 1 }
  if (b.pairCount + 1) % 4 = 0 then
    { b1 with
      trace := if h : b.traceIndex < 64 then b.trace.set b.traceIndex ⟨p, g⟩ h else b.trace
      traceIndex := (b.traceIndex + 1) % 64
      traceCount := min 255 (b.traceCount + 1) }
  else b1

/-- What a bay does with a pair in its state (R97, R100, R101, R103). -/
def State.actOnSample (s : State) (n : BayId) (p g : Nat) : State :=
  match (s.bay n).state with
  | .filling => s.testFilled n
  | .pressurising =>
    match s.bayParams n with
    | some q =>
      if q.testPressure * 11 < p then s.overpressure n
      else if q.testPressure * 10 ≤ p then s.enterHolding n q p
      else s
    | none => s
  | .holding =>
    match s.bayParams n with
    | some q =>
      if p < q.testPressure * 5 then
        (s.updBay n (fun b => { b with ruptured := true })).enterReleasing n .rupture
      else if q.testPressure * 11 < p then s.enterReleasing n (.void .overpressure)
      else s.updBay n (fun b => b.traced p g)
    | none => s
  | .releasing => if p < 10 then s.enterSettling n else s
  | _ => s

/-- SAMPLE_PAIR (R94). -/
def execSamplePair (n : BayId) (pressure gauge : BitVec 16) (s : State) : Host.Outcome State Fault Refusal :=
  .next (s.publish
    (((s.updBay n (fun b => b.sampled pressure.toNat gauge.toNat)).actOnSample n pressure.toNat
      gauge.toNat).drainTest))

/-! ## Timer expiries (R97, R100, R101, R103, R104, R114) -/

/-- The step timer of a bay in a state is due. -/
def State.stepDue (s : State) (n : BayId) (st : BayState) : Bool :=
  decide ((s.bay n).state = st) && s.due (s.bay n).stepTimer

/-- The fill limit expires in FILLING: FILL off, VENT on, and void NO FILL (R97). -/
def State.expireFill (s : State) (n : BayId) : State :=
  if s.stepDue n .filling then
    (s.updBay n (fun b =>
      { b with stepTimer := none, outputs := { b.outputs with fill := false, vent := true } })).voidAndAct n .noFill
        none false
  else s

/-- FILL_LIMIT_EXPIRY (R97). -/
def execFillLimitExpiry (n : BayId) (s : State) : Host.Outcome State Fault Refusal :=
  .next (s.publish (s.expireFill n).drainTest)

/-- The rise limit expires in PRESSURISING: the bay vents with void NO PRESSURE (R100). -/
def State.expireRise (s : State) (n : BayId) : State :=
  if s.stepDue n .pressurising then s.enterReleasing n (.void .noPressure) else s

/-- RISE_LIMIT_EXPIRY (R100). -/
def execRiseLimitExpiry (n : BayId) (s : State) : Host.Outcome State Fault Refusal :=
  .next (s.publish (s.expireRise n))

/-- The hold timer expires: Et and the hold drop are taken (R101). -/
def Bay.holdEnded (b : Bay) : Bay :=
  { b with
    et := some ((b.latestGauge : Int) - (b.baseline.getD 0 : Nat))
    drop := some (((b.holdStart.getD 0 : Nat) : Int) - (b.latestPressure : Nat)) }

/-- The hold expires (R101). -/
def State.expireHold (s : State) (n : BayId) : State :=
  if s.stepDue n .holding then (s.updBay n Bay.holdEnded).enterReleasing n .holdEnd else s

/-- HOLD_EXPIRY (R101). -/
def execHoldExpiry (n : BayId) (s : State) : Host.Outcome State Fault Refusal :=
  .next (s.publish (s.expireHold n))

/-- The release limit expires in RELEASING: FAULT with VENT FAILURE, the cylinder, its index and the release cause kept
(R103). -/
def State.expireRelease (s : State) (n : BayId) : State :=
  if s.stepDue n .releasing then s.bayFault n .ventFailure else s

/-- RELEASE_LIMIT_EXPIRY (R103). -/
def execReleaseLimitExpiry (n : BayId) (s : State) : Host.Outcome State Fault Refusal :=
  .next (s.publish (s.expireRelease n).drainTest)

/-- The pressurised limit expires in PRESSURISING, HOLDING, SUSPENDED or AWAIT INTENSIFIER (R114). -/
def State.expirePressurised (s : State) (n : BayId) : State :=
  if s.due (s.bay n).pressTimer then
    match (s.bay n).state with
    | .pressurising | .holding | .suspended | .awaitIntensifier => s.enterReleasing n (.void .pressureLimit)
    | _ => s
  else s

/-- PRESSURISED_LIMIT_EXPIRY (R114). -/
def execPressurisedLimitExpiry (n : BayId) (s : State) : Host.Outcome State Fault Refusal :=
  .next (s.publish (s.expirePressurised n))

/-! ## The verdict (R104, R105, R107) -/

/-- Ep × 1000 / Et, rounded down, for Et of at least 1 (R105). -/
def ratioOf (ep : Nat) (et : Int) : Nat := ep * 1000 / et.toNat

/-- The measurement set a bay reports: B and peak; after a completed hold also Et, the hold drop and Ep, and the ratio when
Et is at least 1, saturating (R7, R105). -/
def Bay.measured (b : Bay) : Measurements where
  baseline := b.baseline
  peak := b.peak
  et := b.et
  drop := b.drop
  ep := b.ep
  ratio :=
    match b.et, b.ep with
    | some et, some ep => if 1 ≤ et then some (min 65535 (ratioOf ep et)) else none
    | _, _ => none

/-- The result of judging an attempt: a void or a verdict (R105). -/
def Bay.judge (b : Bay) (q : Params) : VoidCause ⊕ Verdict :=
  if b.ruptured then .inr (.condemn .rupture)
  else if (q.dropTolerance : Int) < b.drop.getD 0 then .inl .leak
  else if b.lapsed then .inl .zeroLapsed
  else if b.et.getD 0 < 1 then .inl .gauge
  else if (q.elasticLimit : Int) < b.et.getD 0 then .inr (.condemn .elastic)
  else if q.ratioLimit < ratioOf (b.ep.getD 0) (b.et.getD 0) then .inr (.condemn .ratio)
  else .inr .pass

/-- The bay reports its judgement and acts on the answer (R105, R107, R108). Void GAUGE sets the validity to 0,
and leaves the lapsed flag of the attempt it ends as it was (R106): the model's choice (log 35). -/
def State.reportJudgement (s : State) (n : BayId) (i : RosterIndex) (q : Params) : State :=
  let b := s.bay n
  match b.judge q with
  | .inr v => (s.reportVerdict i v b.measured).unloadToOutfeed n
  | .inl .gauge =>
    (s.updBay n (fun x => { x with validity := 0 })).voidAndAct n .gauge (some b.measured) true
  | .inl c => s.voidAndAct n c (some b.measured) true

/-- Ep: the latest gauge less B, or 0 when that is negative (R104). -/
def Bay.takeEp (b : Bay) : Bay := { b with ep := some (b.latestGauge - b.baseline.getD 0) }

/-- The bay judges the cylinder it holds. -/
def State.judgeBay (s : State) (n : BayId) : State :=
  match (s.bay n).index with
  | some i =>
    match (s.entry i).params with
    | some q => s.reportJudgement n i q
    | none => s
  | none => s

/-- The settle timer expires (R104). -/
def State.expireSettle (s : State) (n : BayId) : State :=
  if s.stepDue n .settling then
    match (s.bay n).releaseCause with
    | some .holdEnd => (s.updBay n (fun b => { b.takeEp with stepTimer := none })).judgeBay n
    | some .rupture => (s.updBay n (fun b => { b with stepTimer := none })).judgeBay n
    | _ => s
  else s

/-- SETTLE_EXPIRY (R104, R105). -/
def execSettleExpiry (n : BayId) (s : State) : Host.Outcome State Fault Refusal :=
  .next (s.publish (s.expireSettle n).drainTest)

/-! ## Zero checks (R109, R125 to R127) -/

/-- A stay in ZEROING ends: IDLE, or on at the resume point (R109, R127). -/
def State.endZeroing (s : State) (n : BayId) : State :=
  let s1 := s.updBay n (fun b => { b with failures := 0, resume := none })
  match (s.bay n).index with
  | none => s1.enterIdle n
  | some _ =>
    match (s.bay n).resume with
    | some .request => s1.fillComplete n
    | some .suspend =>
      (s1.updBay n (fun b =>
        { b.enter .suspended with
          baseline := some b.latestGauge
          suspendedFrom := some .awaitIntensifier })).testShortfall n
    | some .unloadDecision => s1.unloadDecision n
    | some .fill | none => s1.enterFilling n

/-- A drift failure, or a check with no sample pair (R109, R126). The validity that a second failure sets to 0 leaves the lapsed
flag of the attempt voided GAUGE as it was (R106): the model's choice (log 35). -/
def State.checkFailed (s : State) (n : BayId) : State :=
  if (s.bay n).failures = 0 then (s.updBay n (fun b => { b with failures := 1 })).beginCheck n
  else
    let s1 := s.updBay n (fun b => { b with failures := 0, validity := 0 })
    let s2 :=
      match (s.bay n).resume, (s.bay n).index with
      | some .request, some i | some .suspend, some i =>
        (s1.reportVoid i .gauge none).updBay n (fun b => { b with resume := some .fill })
      | _, _ => s1
    s2.bayFault n .gaugeDrift

/-- The absolute difference of a reading and the zero reference. -/
def driftOf (reading reference : Nat) : Nat := (reading - reference) + (reference - reading)

/-- A check is judged (R125). A check that stores a reference is a repeat completed, so that a failure before it and one after it
are not two in a row (R122, R126; log 18). -/
def State.judgeCheck (s : State) (n : BayId) : State :=
  let b := s.bay n
  let reading := b.latestGauge
  if b.sampleSeen = false then
    (s.updBay n (fun x => { x with stepTimer := none, lastZeroReading := none, lastDrift := none })).checkFailed n
  else
    match b.zeroReference with
    | none =>
      (s.updBay n (fun x =>
        { x with
          lastZeroReading := some reading
          zeroReference := some reading
          lastDrift := none
          checksOwed := x.checksOwed - 1
          failures := 0 })).beginCheck n
    | some reference =>
      if driftOf reading reference ≤ s.work.driftLimit then
        let s1 := s.updBay n (fun x =>
          { x with
            stepTimer := none
            lastZeroReading := some reading
            zeroReference := some reading
            lastDrift := some (driftOf reading reference)
            validity := s.work.zeroInterval
            checksOwed := x.checksOwed - 1
            failures := 0 })
        if 1 < b.checksOwed then s1.beginCheck n else s1.endZeroing n
      else
        (s.updBay n (fun x =>
          { x with
            stepTimer := none
            lastZeroReading := some reading
            lastDrift := some (driftOf reading reference) })).checkFailed n

/-- The check expiry is reached in ZEROING (R125). -/
def State.expireCheck (s : State) (n : BayId) : State := if s.stepDue n .zeroing then s.judgeCheck n else s

/-- CHECK_EXPIRY (R125). -/
def execCheckExpiry (n : BayId) (s : State) : Host.Outcome State Fault Refusal :=
  .next (s.publish (s.expireCheck n).drainTest)

/-- ZERO_VALIDITY_LAPSE (R123): a bay whose validity is 0 acts on it. LINE_SECONDS_ADVANCE acts at the decrement that brings
it to 0 (log 3); a second time nothing more changes. -/
def State.lapseAtZero (s : State) (n : BayId) : State := if (s.bay n).validity = 0 then s.lapse n else s

/-- ZERO_VALIDITY_LAPSE (R106, R123, R129). -/
def execZeroValidityLapse (n : BayId) (s : State) : Host.Outcome State Fault Refusal :=
  .next (s.publish (s.lapseAtZero n))

/-! ## GRANT_AT_BAY (R99) -/

/-- The bay acts on a grant: it enters PRESSURISING with validity at least the allowance, and otherwise releases the
intensifier without coupling. The DRIVING or fault notice that followed the grant is taken with it; a later grant of the same
intensifier on its way to the bay says that a fault ended the coupling of this one (R99, R100; log 8). Where both a DRIVING and a
fault notice followed the grant (R136, R138), the fault notice alone is taken, so that the rise limit is neither started nor shown
paused by it: the model's choice (log 8). -/
def State.actOnGrant (s : State) (n : BayId) (i : IntensifierId) : State :=
  if (s.bay n).state = .awaitIntensifier ∧ (s.bay n).requested = true then
    if s.short n then (s.sendRelease n i).testShortfall n
    else
      let s1 := s.updBay n (fun b => b.coupledTo i (s.after s.work.pressurisedLimit))
      if (s.intensifier i).coupledBay = some n ∧ (s.bay n).grants.contains i = false then
        if (s.intensifier i).state = .driving then s1.drivingNotice n i else s1
      else s1.faultNotice n i
  else s.sendRelease n i

/-- The oldest grant handed to the bay is taken. -/
def State.takeGrant (s : State) (n : BayId) : State :=
  match (s.bay n).grants with
  | i :: rest => (s.updBay n (fun b => { b with grants := rest })).actOnGrant n i
  | [] => s

/-- GRANT_AT_BAY (R99). -/
def execGrantAtBay (n : BayId) (s : State) : Host.Outcome State Fault Refusal :=
  .next (s.publish (s.takeGrant n).drainTest)

end Sys2Proof.Machine
end

