-- ==== Sys2Proof/Machine/Arbiter.lean ====
section
/-! DEFINITION. The meanings of the arbiter's commands (chapter 8): GRANT, INTENSIFIER_RELEASE, RETUNE_EXPIRY and
FAULT_INPUT_CHANGE, and the service commands of an intensifier. -/

namespace Sys2Proof.Machine

/-! ## GRANT (R135, R136) -/

/-- The intensifier granted to a requested pressure: the only FREE one; with both FREE, one whose setpoint equals the
pressure, intensifier 1 first, and otherwise intensifier 1 (R135). -/
def State.chooseIntensifier (s : State) (pressure : Nat) : Option IntensifierId :=
  match decide (s.intensifier1.state = .free), decide (s.intensifier2.state = .free) with
  | true, false => some .one
  | false, true => some .two
  | true, true =>
    if s.intensifier1.setpoint = some pressure then some .one
    else if s.intensifier2.setpoint = some pressure then some .two
    else some .one
  | false, false => none

/-- An intensifier at its grant: DRIVING at once with an equal setpoint, otherwise RETUNING for 15 s (R135, R136). -/
def Intensifier.granted (x : Intensifier) (r : Request) (retuneExpiry : Seconds) : Intensifier :=
  let x1 := { x with coupledBay := some r.bay, requested := some r.pressure }
  if x.setpoint = some r.pressure then { x1 with state := .driving }
  else { x1 with state := .retuning, setpoint := none, retuneExpiry := some retuneExpiry }

/-- The arbiter grants the head request (R135); the grant is handed to the bay, which takes it at GRANT_AT_BAY. -/
def State.grantHead (s : State) : State :=
  match s.requests with
  | r :: rest =>
    if s.stopped then s
    else
      match s.chooseIntensifier r.pressure with
      | some i =>
        ({ s with requests := rest }.setIntensifier i
          ((s.intensifier i).granted r (s.after Config.retuneTime))).updBay r.bay
            (fun b => { b with grants := b.grants ++ [i] })
      | none => s
  | [] => s

/-- GRANT (R135, R136). -/
def execGrant (s : State) : Host.Outcome State Fault Refusal := .next (s.publish s.grantHead)

/-! ## INTENSIFIER_RELEASE (R137) -/

/-- Removes the oldest release of a bay. -/
def takeReleaseFrom (n : BayId) : List Release → Option (Release × List Release)
  | [] => none
  | r :: rest => if r.bay = n then some (r, rest) else (takeReleaseFrom n rest).map (fun x => (x.1, r :: x.2))

/-- The arbiter takes the oldest release a bay has sent (R137). -/
def State.arbiterRelease (s : State) (n : BayId) : State :=
  match takeReleaseFrom n s.releases with
  | some (r, rest) => { s with releases := rest }.takeRelease r
  | none => s

/-- INTENSIFIER_RELEASE (R137). -/
def execIntensifierRelease (n : BayId) (s : State) : Host.Outcome State Fault Refusal :=
  .next (s.publish (s.arbiterRelease n))

/-! ## RETUNE_EXPIRY (R136) -/

/-- A retune ends: the setpoint becomes the requested pressure, the intensifier drives, and the bay is handed the DRIVING
notice (R136, R100). A bay whose grant is still on its way takes the notice with the grant. -/
def State.endRetune (s : State) (i : IntensifierId) : State :=
  let x := s.intensifier i
  if x.state = .retuning ∧ s.due x.retuneExpiry = true then
    let s1 := s.setIntensifier i { x with state := .driving, setpoint := x.requested, retuneExpiry := none }
    match x.coupledBay with
    | some n => s1.drivingNotice n i
    | none => s1
  else s

/-- RETUNE_EXPIRY (R136). -/
def execRetuneExpiry (i : IntensifierId) (s : State) : Host.Outcome State Fault Refusal :=
  .next (s.publish (s.endRetune i))

/-! ## FAULT_INPUT_CHANGE (R138, R139) -/

/-- A bay's request is placed at the head of the queue (R134, R138). -/
def State.requestAtHead (s : State) (n : BayId) (pressure : Nat) : State :=
  { s with requests := ⟨n, pressure⟩ :: s.requests.filter (fun r => decide (r.bay ≠ n)) }

/-- The FAULT input's fault: the coupled bay is re-queued at the head and handed a fault notice (R138). -/
def State.inputFault (s : State) (i : IntensifierId) : State :=
  let x := s.intensifier i
  let s1 := s.faultIntensifier i
  match x.state with
  | .free | .retuning | .driving =>
    match x.coupledBay with
    | some n => (s1.requestAtHead n (x.requested.getD 0)).faultNotice n i
    | none => s1
  | .offline | .fault => s1

/-- A change of a FAULT input: recorded, and acted on when it turns on (R139). -/
def State.changeFaultInput (s : State) (i : IntensifierId) (level : Bool) : State :=
  if (s.intensifier i).faultInput = level then s
  else
    let s1 := s.setIntensifier i { s.intensifier i with faultInput := level }
    if level then s1.inputFault i else s1

/-- FAULT_INPUT_CHANGE (R139). -/
def execFaultInputChange (i : IntensifierId) (level : Bool) (s : State) : Host.Outcome State Fault Refusal :=
  .next (s.publish (s.changeFaultInput i level).drainTest)

/-! ## Service commands (R141, R142) -/

/-- TAKE OUT OF SERVICE of an intensifier (R141). -/
def State.takeOutIntensifier (s : State) (i : IntensifierId) : State × ResultCode :=
  let x := s.intensifier i
  match x.state with
  | .free | .fault => (s.setIntensifier i { x with state := .offline }, .accepted)
  | .retuning | .driving =>
    if x.pendingOffline then (s, .duplicate)
    else (s.setIntensifier i { x with pendingOffline := true }, .accepted)
  | .offline => (s, .wrongState)

/-- RETURN of an intensifier (R142). -/
def State.returnIntensifier (s : State) (i : IntensifierId) : State × ResultCode :=
  let x := s.intensifier i
  match x.state with
  | .offline | .fault =>
    if x.faultInput then (s, .wrongState)
    else (s.setIntensifier i { x with state := .free, setpoint := none }, .accepted)
  | .retuning | .driving =>
    if x.pendingOffline then (s.setIntensifier i { x with pendingOffline := false }, .accepted)
    else (s, .wrongState)
  | .free => (s, .wrongState)

end Sys2Proof.Machine
end

