-- ==== Sys2Proof/Machine/RunControl.lean ====
section
/-! DEFINITION. The run controller (chapter 11): RUN and STOP LINE, the entry into and the release of E-STOPPED with what
every block does at it, the departure from AWAITING TABLES, and the line seconds count. -/

namespace Sys2Proof.Machine

/-! ## RUN and STOP LINE (R176) -/

/-- RUN (R176). -/
def State.runResult (s : State) : State × ResultCode :=
  match s.runState with
  | .ready => ((s.setRunState .running).evalPermits, .accepted)
  | .awaitingTables | .running | .stopping | .eStopped => (s, .wrongState)

/-- STOP LINE (R176): the drain test is made at once (R177). -/
def State.stopLineResult (s : State) : State × ResultCode :=
  match s.runState with
  | .running => (((s.setRunState .stopping).evalPermits).drainTest, .accepted)
  | .awaitingTables | .ready | .stopping | .eStopped => (s, .wrongState)

/-! ## Entry into E-STOPPED (R77, R91, R119, R132, R144, R161, R178) -/

/-- An attempt with no pressure on it ends: release cause E-STOP, SETTLING, and void E-STOP reported there (R119). -/
def State.eStopUnpressurised (s : State) (n : BayId) : State :=
  ((s.withdrawRequest n).updBay n (fun b =>
    { b with releaseCause := some (.void .eStop), suspendedFrom := none, risePaused := none })).enterSettling n

/-- A bay in ZEROING abandons its check (R132): an attempt still open is voided E-STOP and resumes at FILL. -/
def State.abandonCheck (s : State) (n : BayId) : State :=
  let s1 := s.updBay n (fun b =>
    { b with stepTimer := none, outputs := { b.outputs with buretteDrain := false } })
  match (s.bay n).resume, (s.bay n).index with
  | some .request, some i | some .suspend, some i =>
    (s1.reportVoid i .eStop none).updBay n (fun b => { b with resume := some .fill })
  | _, _ => s1

/-- What a bay does at the entry into E-STOPPED (R119). -/
def State.eStopBay (s : State) (n : BayId) : State :=
  match (s.bay n).state with
  | .pressurising | .holding => s.enterReleasing n (.void .eStop)
  | .awaitIntensifier | .suspended =>
    if (s.bay n).pressurised then s.enterReleasing n (.void .eStop) else s.eStopUnpressurised n
  | .filling => s.eStopUnpressurised n
  | .offline => s.updBay n (fun b => { b with outputs := BayOutputs.rest })
  | .zeroing => s.abandonCheck n
  | .starting | .idle | .loading | .releasing | .settling | .unloading | .fault => s

/-- The coupling of an intensifier in RETUNING or DRIVING ends (R144). -/
def Intensifier.eStopped (x : Intensifier) : Intensifier :=
  match x.state with
  | .retuning | .driving => x.uncoupled
  | .offline | .fault | .free => x

/-- What the arbiter does at the entry into E-STOPPED (R144). The grants and releases on their way find nothing then, and
are dropped (log 8). -/
def State.eStopArbiter (s : State) : State :=
  { s with
    requests := []
    releases := []
    intensifier1 := s.intensifier1.eStopped
    intensifier2 := s.intensifier2.eStopped }.forBays (fun n t => t.updBay n (fun b => { b with grants := [] }))

/-- The limit timer of a transfer in flight stops (R77). -/
def Transit.stopped (t : Transit) : Transit := { t with expiry := none }

/-- The limit timer of a transfer in flight restarts in full, with the limit it began with (R77). -/
def Transit.restarted (now : Seconds) (t : Transit) : Transit :=
  { t with expiry := some (now + BitVec.ofNat 32 t.limit) }

/-- The entry into E-STOPPED, but for its alert (R178). -/
def State.enterEStop (s : State) : State :=
  let s1 := ((s.setRunState .eStopped).evalPermits).mapTransits Transit.stopped
  let s2 := (s1.forBays (fun n t => t.eStopBay n)).eStopArbiter
  (s2.updStation .stamper Station.breakOffering).updStation .defacer Station.breakOffering

/-- The E-STOP input turns on (R178). -/
def State.assertEStop (s : State) : State :=
  if s.eStopInput then s
  else
    let s1 := { s with eStopInput := true }
    match s.runState with
    | .ready | .running | .stopping => s1.enterEStop.raiseAlert runSource .eStopAsserted
    | .awaitingTables | .eStopped => s1

/-- E_STOP_ASSERTED (R178). -/
def execEStopAsserted (s : State) : Host.Outcome State Fault Refusal := .next (s.publish s.assertEStop)

/-! ## The release of an E-STOP (R120, R122, R132, R178) -/

/-- Checks owed is raised to at least 1 (R122). -/
def Bay.oweCheck (b : Bay) : Bay := { b with checksOwed := max 1 b.checksOwed }

/-- A bay in STARTING leaves it for ZEROING once tables are held and the run state is not E-STOPPED (R128). -/
def State.leaveStarting (s : State) (n : BayId) : State :=
  if (s.bay n).state = .starting ∧ s.tablesHeld = true ∧ s.stopped = false then s.enterZeroing n none else s

/-- The step a bay was kept from by the E-STOP (R108, R120). -/
def State.takeKept (s : State) (n : BayId) : State :=
  match (s.bay n).kept with
  | some .fillStep => s.fillStep n
  | some (.zeroing rp) => s.enterZeroing n (some rp)
  | none => s

/-- The step a bay takes at the release of an E-STOP (R120, R128, R132). -/
def State.releaseStep (s : State) (n : BayId) : State :=
  match (s.bay n).state with
  | .loading =>
    if (s.bay n).loading = none ∧ (s.bay n).index.isSome = true then
      (s.updBay n (fun b => { b with outputs := { b.outputs with door := true } })).fillStep n
    else s
  | .zeroing =>
    if (s.bay n).stepTimer = none then
      (s.updBay n (fun b => { b with outputs := { b.outputs with buretteDrain := true } })).beginCheck n
    else s
  | .idle => s.testIdleTriggers n
  | .starting => s.leaveStarting n
  | _ => s.takeKept n

/-- The E-STOP input turns off (R178). -/
def State.releaseEStop (s : State) : State :=
  if s.eStopInput then
    let s1 := { s with eStopInput := false }
    match s.runState with
    | .eStopped =>
      let s2 := ((s1.setRunState .ready).raiseAlert runSource .eStopReleased).evalPermits
      let s3 := (s2.forBays (fun n t => t.updBay n Bay.oweCheck)).mapTransits (Transit.restarted s.lineSeconds)
      s3.forBays (fun n t => t.releaseStep n)
    | .awaitingTables | .ready | .running | .stopping => s1
  else s

/-- E_STOP_RELEASED (R178). -/
def execEStopReleased (s : State) : Host.Outcome State Fault Refusal := .next (s.publish s.releaseEStop)

/-! ## The departure from AWAITING TABLES (R42, R175) -/

/-- A receiver leaves OFF for HUNT (R42). -/
def Reader.leaveOff (r : Reader) : Reader :=
  match r.state with
  | .off => { r with state := .hunt }
  | .hunt | .frame | .fault => r

/-- Both receivers leave OFF. -/
def State.readersLeaveOff (s : State) : State :=
  { s with readerA := s.readerA.leaveOff, readerB := s.readerB.leaveOff }

/-- The run controller leaves AWAITING TABLES for READY once tables and a date are held; with the E-STOP input on it enters
E-STOPPED at once (R175). -/
def State.leaveAwaiting (s : State) : State :=
  if s.runState = .awaitingTables ∧ s.tablesHeld = true ∧ s.date.isSome = true then
    let s1 := ((s.setRunState .ready).readersLeaveOff).evalPermits
    if s.eStopInput then s1.enterEStop.raiseAlert runSource .eStopAsserted else s1
  else s

/-! ## LINE_SECONDS_ADVANCE (R123, R179) -/

/-- A bay's zero validity counts down (R123); at a decrement it is compared with the allowance and with the proactive trigger
(R98, R129), and a validity that reaches 0 lapses (log 3). -/
def State.countDown (s : State) (n : BayId) : State :=
  match (s.bay n).state with
  | .offline | .starting => s
  | _ =>
    if (s.bay n).validity = 0 then s
    else
      let s1 := s.updBay n (fun b => { b with validity := b.validity - 1 })
      let s2 := if (s.bay n).validity = 1 then s1.lapse n else s1
      (s2.testShortfall n).testProactive n

/-- The count advances by one, wrapping, and is written into the header (R179). -/
def State.advance (s : State) : State :=
  { s with lineSeconds := s.lineSeconds + 1#32 }.headerEdit.forBays (fun n t => t.countDown n)

/-- LINE_SECONDS_ADVANCE (R123, R179). -/
def execLineSecondsAdvance (s : State) : Host.Outcome State Fault Refusal := .next (s.publish s.advance.drainTest)

end Sys2Proof.Machine
end

