-- ==== Sys2Proof/Machine/Resets.lean ====
section
/-! DEFINITION. The power-on reset and the line reset (R180 and each block's own reset rule). Both write every record whole
and set every block; queue positions, transfers, couplings and notices go with no report. -/

namespace Sys2Proof.Machine

/-! ## The alerts at the end of a reset (R144, R180) -/

/-- The alert of the E-STOP input, the first and the second FAULT input, by their place in this list. -/
def resetAlertOf (k : Nat) : Nat × AlertCode :=
  match k with
  | 0 => (runSource, .eStopAsserted)
  | 1 => (intensifierSource .one, .intensifierFault)
  | _ => (intensifierSource .two, .intensifierFault)

/-- The six orders of three alerts. -/
def alertOrders : Fin 6 → List Nat
  | 0 => [0, 1, 2]
  | 1 => [0, 2, 1]
  | 2 => [1, 0, 2]
  | 3 => [1, 2, 0]
  | 4 => [2, 0, 1]
  | 5 => [2, 1, 0]

/-- Which of the three alerts a reset raises, in their numbers' order. -/
def dueAlerts (eStop fault1 fault2 : Bool) : List Nat :=
  (if eStop then [0] else []) ++ (if fault1 then [1] else []) ++ (if fault2 then [2] else [])

/-- The alerts in the order they join the list: any order of those that are due (R180; log 13). -/
def orderAlerts (order : Nat → Fin 6) (draw : Nat) (due : List Nat) : List Nat :=
  match due with
  | [] => []
  | [a] => [a]
  | l => (alertOrders (order draw)).filter (fun k => l.contains k)

/-- The alerts at the end of a reset are raised. -/
def State.raiseResetAlerts (s : State) (due : List Nat) : State :=
  (orderAlerts Config.resetAlertOrder s.choices due).foldl
    (fun t k => t.raiseAlert (resetAlertOf k).1 (resetAlertOf k).2) { s with choices := s.choices + 1 }

/-! ## The blocks -/

/-- The store after a reset: the RQ4's records and the note board read as the reset writes them; what the line computer
wrote into the other regions stays (R39, R163). -/
def clearRecords (mem : List Host.Cell) : List Host.Cell :=
  mem.filter (fun c => decide (recordAt c.1 = none) && !(decide (0xA00 ≤ c.1) && decide (c.1 < 0xE00)))

/-- An intensifier after a reset: FREE, or FAULT with its FAULT input on (R144). -/
def Intensifier.afterReset (count : Byte) (faultInput : Bool) : Intensifier :=
  { Intensifier.reset count faultInput with state := if faultInput then .fault else .free }

/-- A station after a reset (R160); the levels of its inputs are read anew. -/
def Station.afterReset (x : Station) (count : Byte) : Station :=
  { Station.powerOn with
    editCount := count
    taken := x.taken
    done := x.done
    ready := x.ready
    nestEye := x.nestEye }

/-- A bay after power-on (R121); the levels of its inputs are read anew. -/
def Bay.afterPowerOn (b : Bay) : Bay :=
  { Bay.powerOn with present := b.present, full := b.full, doorClosed := b.doorClosed }

/-- A bay after a line reset (R121, R122): the zero reference, the last zero reading and the last drift are kept. -/
def Bay.afterLineReset (b : Bay) : Bay :=
  { b.afterPowerOn with
    editCount := b.editCount + 2#8
    zeroReference := b.zeroReference
    checksOwed := if b.zeroReference.isSome then 1 else 2
    lastZeroReading := b.lastZeroReading
    lastDrift := b.lastDrift }

/-- The note slots are written EMPTY, each in one edit under its count (R66). -/
def State.resetSlots (s : State) : State :=
  (List.finRange 32).foldl (fun t k => t.writePlain (slotBase k) (t.slotCounts[k]))
    { s with slotCounts := Vector.ofFn (fun k : SlotId => s.slotCounts[k] + 2#8) }

/-! ## POWER_ON_RESET (R24, R39, R51, R66, R90, R121, R144, R160, R173, R174, R179) -/

/-- The state after power-on: `State.reset`, with the queue of waiting commands, the levels of the inputs, and the store's
regions the RQ4 never writes (log 6, log 7). -/
def State.powerOnReset (s : State) : State :=
  { State.reset with
    pending := s.pending
    eStopInput := s.eStopInput
    mem := clearRecords s.mem
    bays := Vector.ofFn (fun n : BayId => (s.bay n).afterPowerOn)
    intensifier1 := Intensifier.afterReset 0#8 s.intensifier1.faultInput
    intensifier2 := Intensifier.afterReset 0#8 s.intensifier2.faultInput
    stamper := s.stamper.afterReset 0#8
    defacer := s.defacer.afterReset 0#8
    guardClosed := s.guardClosed
    busReadData := s.busReadData
    interruptPulses := s.interruptPulses
    choices := s.choices }.raiseResetAlerts
    (dueAlerts false s.intensifier1.faultInput s.intensifier2.faultInput)

/-- POWER_ON_RESET (R174). -/
def execPowerOnReset (s : State) : Host.Outcome State Fault Refusal := .next s.powerOnReset

/-! ## LINE_RESET (R180) -/

/-- The registers, the notices, the readers, the note unit, the roster, the lanes, the outfeed, the bays, the arbiter and the
stations after a line reset; the header is rewritten in one edit, with the run state of R180's table. -/
def State.resetBlocks (s : State) : State :=
  { State.reset with
    pending := s.pending
    runState := if s.tablesHeld && s.date.isSome then .ready else .awaitingTables
    eStopInput := s.eStopInput
    lineSeconds := s.lineSeconds
    busReadData := s.busReadData
    interruptPulses := s.interruptPulses
    mem := clearRecords s.mem
    headerCount := s.headerCount + 2#8
    slotCounts := s.slotCounts
    settings := s.settings
    types := s.types
    typeMask := s.typeMask
    templates := s.templates
    templateMask := s.templateMask
    tablesHeld := s.tablesHeld
    firstBad := s.firstBad
    date := s.date
    roster := Vector.ofFn (fun i : RosterIndex => Entry.freeEntry ((s.entry i).editCount + 2#8))
    laneA := Lane.reset (s.laneA.editCount + 2#8)
    laneB := Lane.reset (s.laneB.editCount + 2#8)
    bays := Vector.ofFn (fun n : BayId => (s.bay n).afterLineReset)
    intensifier1 := Intensifier.afterReset (s.intensifier1.editCount + 2#8) s.intensifier1.faultInput
    intensifier2 := Intensifier.afterReset (s.intensifier2.editCount + 2#8) s.intensifier2.faultInput
    stamper := s.stamper.afterReset (s.stamper.editCount + 2#8)
    defacer := s.defacer.afterReset (s.defacer.editCount + 2#8)
    guardClosed := s.guardClosed
    choices := s.choices }.resetSlots

/-- The run state at the end of a line reset: READY lets the readers leave OFF, and goes on to E-STOPPED with the input on
(R42, R180). -/
def State.endReset (s : State) : State :=
  match s.runState with
  | .ready => if s.eStopInput then s.readersLeaveOff.setRunState .eStopped else s.readersLeaveOff
  | .awaitingTables | .running | .stopping | .eStopped => s

/-- LINE_RESET (R180): the bays leave STARTING once tables are held, unless the run state is E-STOPPED (R128). -/
def State.lineReset (s : State) : State :=
  (s.resetBlocks.endReset.raiseResetAlerts
    (dueAlerts (s.eStopInput && s.tablesHeld && s.date.isSome) s.intensifier1.faultInput
      s.intensifier2.faultInput)).forBays (fun n t => t.leaveStarting n)

/-- LINE_RESET: a CTL write with LINE RESET set; the enable written in the same word is stored and then cleared by the reset
(R172, R173). -/
def execLineReset (enable : Bool) (s : State) : Host.Outcome State Fault Refusal :=
  .next { s with interruptEnable := enable }.lineReset

end Sys2Proof.Machine
end

