-- ==== Sys2Proof/Machine/Bus.lean ====
section
/-! DEFINITION. The store port (chapter 10): writes of the store, CMB and CTL, reads of NMB, and the meanings INTERRUPT_ENABLE,
OVERWRITE, REGISTER_WRITE and NMB_READ. -/

namespace Sys2Proof.Machine

/-- A word is stored in CMB. -/
def State.storeWord (s : State) (word : Word) : State := { s with cmbWord := word, cmbFull := true }

/-- A CMB write and the emptying of CMB at the end of a command reach the port together: the write taken first is discarded
with OVERWRITE set, and taken second it is stored (R165, R168; log 31). -/
def State.racingWrite (s : State) (word : Word) : State :=
  let s1 := { s with choices := s.choices + 1 }
  if Config.writeBeforeEmptying s.choices then { s1 with overwriteFlag := true } else s1.storeWord word

/-- A write of CMB (R165). -/
def State.cmbWrite (s : State) (word : Word) : State :=
  if s.cmbFull then { s with overwriteFlag := true }
  else if s.justEmptied then s.racingWrite word
  else s.storeWord word

/-- A step that is a write of CMB; behind a write that came before the emptying another can come before it too (log 31). -/
def State.cmbStep (s : State) (word : Word) : State :=
  (s.publish (s.cmbWrite word)).markEmptied (s.justEmptied && !(s.cmbWrite word).cmbFull)

/-- OVERWRITE (R165): a CMB write; with CMB empty it is stored, and the command unit takes it (log 4, log 12, log 31). -/
def execOverwrite (word : Word) (s : State) : Host.Outcome State Fault Refusal := .next (s.cmbStep word)

/-- INTERRUPT_ENABLE (R171, R172): a CTL write with LINE RESET clear stores the enable. -/
def execInterruptEnable (enable : Bool) (s : State) : Host.Outcome State Fault Refusal :=
  .next (s.publish { s with interruptEnable := enable })

/-- A read of a full NMB turns the interrupt output off and on again when the enable is set and another notice waits
(R171). -/
def State.pulses (s : State) : Bool := s.interruptEnable && !s.notices.isEmpty

/-- A read of NMB (R170): the word read, and the notice that waits moves in. -/
def State.nmbRead (s : State) : State :=
  match s.nmb with
  | some x =>
    { s with
      busReadData := x.word
      nmb := none
      interruptPulses := s.interruptPulses + s.pulses.toNat }.withNotices s.notices
  | none => { s with busReadData := noNoticeWord }

/-- NMB_READ (R170). -/
def execNmbRead (s : State) : Host.Outcome State Fault Refusal := .next (s.publish s.nmbRead)

/-- The bytes of a store write, least significant first (R162). -/
def accessBytes (size : AccessSize) (value : Word) : List Byte :=
  match size with
  | .byte => leBytes 1 value.toNat
  | .halfword => leBytes 2 value.toNat
  | .word => leBytes 4 value.toNat

/-- The line computer writes bytes into the store from an address on (R162, R164). -/
def State.storeWrite (s : State) : (a : Nat) → List Byte → State
  | _, [] => s
  | a, b :: rest => (s.pokeByte a b).storeWrite (a + 1) rest

/-- A word write of CTL (R172, R182): bit 0 is the interrupt enable and bit 31 LINE RESET. -/
def State.ctlWrite (s : State) (value : Word) : State :=
  let s1 := { s with interruptEnable := value.getLsbD 0 }
  if value.getLsbD 31 then s1.lineReset else s.publish s1

/-- A word write of a register (R165, R172); NMB and STAT are read-only (log 5). -/
def State.registerWrite (s : State) (address : Nat) (value : Word) : State :=
  if address = 0x10000 then s.cmbStep value
  else if address = 0x1000C then s.ctlWrite value
  else s

/-- A host bus write (R162, R165, R172): into the store, or of a register as a whole word; every other write is ignored
(log 5). A halfword or word of the store at an address that is not a multiple of its width is taken as the consecutive bytes
from that address: the manual is silent (DESIGN CHOICE, log 5). -/
def State.hostWrite (s : State) (address : Nat) (size : AccessSize) (value : Word) : State :=
  if address < 0x10000 then s.storeWrite address (accessBytes size value)
  else
    match size with
    | .word => s.registerWrite address value
    | .byte | .halfword => s

/-- REGISTER_WRITE (R162, R172). -/
def execRegisterWrite (address : Word) (size : AccessSize) (value : Word) (s : State) :
    Host.Outcome State Fault Refusal :=
  .next (s.hostWrite address.toNat size value)

end Sys2Proof.Machine
end

