-- ==== Sys2Proof/Machine/BayCommands.lean ====
section
/-! DEFINITION. The commands of a bay (R111 to R117, R130, R131) as the bay carries them out: each answers the state and the
result code. -/

namespace Sys2Proof.Machine

/-! ## BAY HOLD, BAY RESUME, BAY ABORT (R111 to R113) -/

/-- SUSPENDED entry, the state it was held from recorded and the rise limit discarded (R111). -/
def Bay.suspend (b : Bay) (origin : SuspendedFrom) : Bay :=
  { b.enter .suspended with suspendedFrom := some origin, risePaused := none }

/-- BAY HOLD of a bay (R111); the comparison of R98 is made in SUSPENDED. -/
def State.holdBay (s : State) (n : BayId) : State × ResultCode :=
  match (s.bay n).state with
  | .awaitIntensifier =>
    ((((s.withdrawRequest n).updBay n (fun b => b.suspend .awaitIntensifier)).testShortfall n).drainTest, .accepted)
  | .pressurising => (((s.releaseCoupled n).updBay n (fun b => b.suspend .pressurising)), .accepted)
  | .holding => (s.updBay n (fun b => b.suspend .holding), .accepted)
  | _ => (s, .wrongState)

/-- BAY RESUME of a bay (R112). -/
def State.resumeBay (s : State) (n : BayId) : State × ResultCode :=
  match (s.bay n).state with
  | .suspended => ((s.enterAwait n).drainTest, .accepted)
  | _ => (s, .wrongState)

/-- An attempt under pressure vents with release cause ABORT; one with no pressure is reported aborted at once (R113). -/
def State.abortAttempt (s : State) (n : BayId) : State :=
  if (s.bay n).pressurised then s.enterReleasing n .abort else (s.withdrawRequest n).abortAndUnload n

/-- BAY ABORT of a bay (R113). -/
def State.abortBay (s : State) (n : BayId) : State × ResultCode :=
  match (s.bay n).state with
  | .filling => ((s.withdrawRequest n).abortAndUnload n, .accepted)
  | .awaitIntensifier | .suspended => (s.abortAttempt n, .accepted)
  | .pressurising | .holding => (s.enterReleasing n .abort, .accepted)
  | .releasing => (s.updBay n (fun b => { b with aborted := true }), .accepted)
  | .settling =>
    ((s.updBay n (fun b => { b with aborted := true, stepTimer := none })).abortAndUnload n, .accepted)
  | .unloading => (s, .tooLate)
  | .starting | .zeroing | .idle | .loading | .offline | .fault => (s, .wrongState)

/-! ## BAY ZERO (R131) -/

/-- BAY ZERO of a bay (R131). -/
def State.zeroBay (s : State) (n : BayId) : State × ResultCode :=
  if (s.bay n).state = .idle ∧ s.stopped = false then (s.enterZeroing n none, .accepted) else (s, .wrongState)

/-- A command that names a bay by its number in bits 7 to 0 (R182). -/
def State.forBayArg (s : State) (arg : BitVec 24) (f : State → BayId → State × ResultCode) : State × ResultCode :=
  match bayOfNumber (argByte arg) with
  | some n => f s n
  | none => (s, .badArgument)

/-! ## TAKE OUT OF SERVICE (R115) -/

/-- OFFLINE entry: a check in progress is abandoned and the outputs are at rest (R115, R132). -/
def Bay.wentOffline (b : Bay) : Bay := { b.enter .offline with failures := 0 }

/-- TAKE OUT OF SERVICE of a bay (R115). -/
def State.takeOutBay (s : State) (n : BayId) : State × ResultCode :=
  match (s.bay n).state with
  | .starting | .idle => (s.updBay n Bay.wentOffline, .accepted)
  | .zeroing | .fault =>
    if (s.bay n).index = none then (s.updBay n Bay.wentOffline, .accepted) else (s, .wrongState)
  | _ => (s, .wrongState)

/-! ## SERVICE LINE (R116) -/

/-- An output set by its line number; none for a number outside 1 to 5 (R116). -/
def BayOutputs.setLine (o : BayOutputs) (line : Nat) (level : Bool) : Option BayOutputs :=
  match line with
  | 1 => some { o with fill := level }
  | 2 => some { o with isolate := level }
  | 3 => some { o with vent := level }
  | 4 => some { o with door := level }
  | 5 => some { o with buretteDrain := level }
  | _ => none

/-- The level of an argument: 0 off, 1 on (R116). -/
def levelOf : Nat → Option Bool
  | 0 => some false
  | 1 => some true
  | _ => none

/-- SERVICE LINE of a bay, with its outputs as the line and level set them (R116). -/
def State.setOutputs (s : State) (n : BayId) (o : BayOutputs) : State × ResultCode :=
  if (s.bay n).state = .offline ∧ s.stopped = false then
    (s.updBay n (fun b => { b with outputs := o }), .accepted)
  else (s, .wrongState)

/-- SERVICE LINE (R116): bay in bits 23 to 16, line in bits 15 to 8, level in bits 7 to 0 (R182). -/
def State.serviceLineResult (s : State) (arg : BitVec 24) : State × ResultCode :=
  match bayOfNumber (argHigh arg), levelOf (argByte arg) with
  | some n, some level =>
    match (s.bay n).outputs.setLine (argMiddle arg) level with
    | some o => s.setOutputs n o
    | none => (s, .badArgument)
  | _, _ => (s, .badArgument)

/-! ## RETURN (R117, R130) -/

/-- The zero state of a bay at its RETURN (R117, R130). -/
def Bay.returned (b : Bay) : Bay :=
  match b.state, b.faultCause with
  | .fault, some .gaugeDrift => { b with zeroReference := none, checksOwed := 2, failures := 0 }
  | _, _ => { b with checksOwed := max 1 b.checksOwed, failures := 0 }

/-- RETURN of a bay in FAULT that holds a cylinder (R117). -/
def State.returnHolding (s : State) (n : BayId) : State × ResultCode :=
  let s1 := s.updBay n Bay.returned
  match (s.bay n).faultCause with
  | some .ventFailure =>
    (s1.updBay n (fun b =>
      { b.enter .releasing with stepTimer := some (s.after Config.releaseLimit) }), .accepted)
  | some .gaugeDrift => (s1.enterZeroing n (s.bay n).resume, .accepted)
  | _ => (s, .wrongState)

/-- RETURN of a bay (R117). -/
def State.returnBay (s : State) (n : BayId) : State × ResultCode :=
  if s.stopped then (s, .wrongState)
  else
    match (s.bay n).state, (s.bay n).index with
    | .offline, _ => ((s.updBay n Bay.returned).enterZeroing n none, .accepted)
    | .fault, none =>
      (((s.updBay n Bay.returned).updBay n (fun b => { b with faultCause := none })).enterZeroing n none, .accepted)
    | .fault, some _ => s.returnHolding n
    | _, _ => (s, .wrongState)

end Sys2Proof.Machine
end

