-- ==== Sys2Proof/Machine/Lanes.lean ====
section
/-! DEFINITION. The meanings of the lane commands (chapter 5): ARRIVAL, NOTE_WAIT_EXPIRY, BAY_ALLOCATION, TRACK_EYE and
LOADING_END, and LANE CLEAR's effect. -/

namespace Sys2Proof.Machine

/-! ## ARRIVAL (R49, R69, R70) -/

/-- An item joins a lane queue at its tail; where it is the head, the lane acts on it (R68, R72). -/
def State.enqueue (s : State) (l : LaneId) (item : Item) : State :=
  let s1 := s.updLane l (fun x => { x with queue := x.queue ++ [item] })
  if (s.lane l).queue.isEmpty then s1.headAction l else s1

/-- An arrival at a NORMAL lane with room: rostered, or queued as the UNROSTERED marker with its alert (R69, R70). -/
def State.rosterArrival (s : State) (l : LaneId) (id : Option Identity) : State :=
  match s.lowestFree with
  | some i =>
    match id with
    | some id => (s.createIdentified l i id).enqueue l (.entry i)
    | none => (s.createUnidentified l i).enqueue l (.entry i)
  | none => (s.enqueue l .marker).raiseAlert (laneSource l) .unrosteredArrival

/-- An arrival, the contents of the holding buffer taken (R69). -/
def State.arrive (s : State) (l : LaneId) (id : Option Identity) : State :=
  match s.runState with
  | .awaitingTables => s
  | .ready | .running | .stopping | .eStopped =>
    match (s.lane l).state with
    | .fault => s.raiseAlert (laneSource l) .laneOverfill
    | .normal =>
      if (s.lane l).queue.length < Config.laneCapacity then
        ((s.rosterArrival l id).reportOccupancy l).evalPermits
      else (s.laneFault l).raiseAlert (laneSource l) .laneOverfill

/-- ARRIVAL (R49, R69): the lane first takes the contents of its reader's holding buffer. -/
def execArrival (l : LaneId) (s : State) : Host.Outcome State Fault Refusal :=
  .next (s.publish
    ((s.setReader l { s.reader l with held := none }).arrive l (s.reader l).held))

/-! ## NOTE_WAIT_EXPIRY (R15, R72) -/

/-- The note-wait timer of the head expires: it stops, the entry is held UNANNOUNCED, and the lane claims outfeed room. -/
def State.expireNoteWait (s : State) (l : LaneId) : State :=
  if s.due ((s.lane l).noteWait.map NoteWait.expiry) then
    match (s.lane l).queue with
    | .entry i :: _ => (((s.stopNoteWait l).reportUnannounced i).headAction l)
    | _ => s.stopNoteWait l
  else s

/-- NOTE_WAIT_EXPIRY (R72). -/
def execNoteWaitExpiry (l : LaneId) (s : State) : Host.Outcome State Fault Refusal :=
  .next (s.publish (s.expireNoteWait l))

/-! ## BAY_ALLOCATION (R73, R95) -/

/-- A bay of the group takes the candidate: it records the index, enters LOADING, and its loading transfer begins (R95, R74). -/
def State.takeCandidate (s : State) (n : BayId) (i : RosterIndex) (source : TransferSource) : State :=
  (s.updBay n (fun b =>
    { b.enter .loading with
      index := some i
      loading := some (s.newTransit (.entry i) source) })).reportBegin (.entry i) (.bay n)

/-- The candidate is offered to the bays in order: a bay that is not IDLE, or whose PRESENT eye is on, is not offered it; a
short bay enters ZEROING; the first available bay takes it (R73, R95, R129). Answers whether it was taken. -/
def State.offerTo (s : State) (i : RosterIndex) (source : TransferSource) (need : Nat) : List BayId → State × Bool
  | [] => (s, false)
  | n :: rest =>
    if (s.bay n).state = .idle ∧ (s.bay n).present = false then
      if need ≤ (s.bay n).validity then (s.takeCandidate n i source, true)
      else (s.enterZeroing n none).offerTo i source need rest
    else s.offerTo i source need rest

/-- The allowance of a candidate (R95). -/
def State.needOf (s : State) (i : RosterIndex) : Nat :=
  match (s.entry i).params with
  | some p => s.allowance p
  | none => 0

/-- The source gives up the track head as its transfer begins (R74, R78). -/
def State.popTrack (s : State) (l : LaneId) : State :=
  s.updLane l (fun x => { x with track := x.track.tail, trackOut := true })

/-- An allocation attempt for the track head. -/
def State.allocateTrack (s : State) (l : LaneId) (i : RosterIndex) : State :=
  let r := s.offerTo i (.trackHead l) (s.needOf i) (groupOf l)
  if r.2 then r.1.popTrack l else r.1

/-- An allocation attempt for the lane head. -/
def State.allocateHead (s : State) (l : LaneId) (i : RosterIndex) : State :=
  let r := s.offerTo i (.laneHead l) (s.needOf i) (groupOf l)
  if r.2 then (r.1.popHead l).afterPop l else r.1

/-- The run states in which an allocation attempt is made (R73). -/
def RunState.allocates : RunState → Bool
  | .ready | .running | .stopping => true
  | .awaitingTables | .eStopped => false

/-- The lane's allocation attempt: the track head if the track's head position holds a cylinder, otherwise a QUEUED head of a
NORMAL lane with route TEST, while no transfer out of the candidate's source is in flight (R73). -/
def State.allocate (s : State) (l : LaneId) : State :=
  if s.runState.allocates then
    match (s.lane l).track with
    | .occupied (.entry i) :: _ => if (s.lane l).trackOut then s else s.allocateTrack l i
    | _ =>
      match (s.lane l).queue with
      | .entry i :: _ =>
        if (s.lane l).state = .normal ∧ (s.lane l).headInFlight = false ∧ (s.entry i).state = .queued ∧
            (s.entry i).route = some .test then
          s.allocateHead l i
        else s
      | _ => s
  else s

/-- BAY_ALLOCATION (R73). -/
def execBayAllocation (l : LaneId) (s : State) : Host.Outcome State Fault Refusal :=
  .next (s.publish (s.allocate l).drainTest)

/-! ## LOADING_END and TRACK_EYE (R75, R96) -/

/-- LOADING_END (R96): the PRESENT eye turns on. -/
def execLoadingEnd (n : BayId) (s : State) : Host.Outcome State Fault Refusal :=
  .next (s.publish ((s.updBay n (fun b => { b with present := true })).endLoading n).drainTest)

/-- The track eye ends the oldest transfer onto the track (R75); with none in flight it is ignored. -/
def State.endTrack (s : State) (l : LaneId) : State :=
  match occupyFirst (s.lane l).track with
  | some (t, positions) =>
    ((s.updLane l (fun x => { x with track := positions })).reportEnd t.item (.recirc l)).tellSource t
  | none => s

/-- TRACK_EYE (R75). -/
def execTrackEye (l : LaneId) (s : State) : Host.Outcome State Fault Refusal :=
  .next (s.publish (s.endTrack l).drainTest)

/-! ## LANE CLEAR (R87) -/

/-- Each rostered item of the queue is closed, in queue order; each marker is removed without a notice (R87). -/
def State.closeItems (s : State) : List Item → State
  | [] => s
  | .marker :: rest => s.closeItems rest
  | .entry i :: rest => (s.closeCleared i).closeItems rest

/-- LANE CLEAR's effect on acceptance (R87). -/
def State.clearLane (s : State) (l : LaneId) : State :=
  let s1 := ((s.stopNoteWait l).withdrawClaim (.lane l)).updLane l (fun x => { x with queue := [] })
  let s2 := (s1.closeItems (s.lane l).queue).updLane l (fun x => { x with state := .normal })
  ((s2.reportOccupancy l).evalPermits).drainTest

/-- LANE CLEAR (R87). -/
def State.laneClearResult (s : State) (arg : BitVec 24) : State × ResultCode :=
  match laneOfNumber (argByte arg) with
  | none => (s, .badArgument)
  | some l =>
    match (s.lane l).state with
    | .normal => if (s.lane l).headInFlight then (s, .wrongState) else (s.clearLane l, .accepted)
    | .fault => (s.clearLane l, .accepted)

end Sys2Proof.Machine
end

