-- ==== Sys2Proof/Machine/Readers.lean ====
section
/-! DEFINITION. The meanings of the reader commands: READER_CHARACTER and READER_BREAK (chapter 3). -/

namespace Sys2Proof.Machine

/-- SYNC, the first character of a frame (R41). -/
def syncByte : Byte := 0x1D#8

/-- A digit '0' to '9'. -/
def isDigit (b : Byte) : Bool := decide (0x30 ≤ b.toNat) && decide (b.toNat ≤ 0x39)

/-- A character of a serial: '0' to '9' or 'A' to 'Z' (R41, R58). -/
def isSerialChar (b : Byte) : Bool := isDigit b || (decide (0x41 ≤ b.toNat) && decide (b.toNat ≤ 0x5A))

/-- The allowed values of positions 2 to 17 of a frame, given the characters taken before (R41). -/
def allowedAt (position : Nat) (taken : List Byte) (b : Byte) : Bool :=
  if position ≤ 13 then isSerialChar b
  else if position ≤ 15 then isDigit b
  else if position = 16 then decide (b = 0x30#8) || decide (b = 0x31#8)
  else if taken.getD 14 0x00#8 = 0x30#8 then decide (0x31 ≤ b.toNat) && decide (b.toNat ≤ 0x39)
  else decide (0x30 ≤ b.toNat) && decide (b.toNat ≤ 0x32)

/-- The value of two digits, tens first. -/
def twoDigits (tens units : Byte) : Nat := (tens.toNat - 0x30) * 10 + (units.toNat - 0x30)

/-- The identity of the characters 2 to 17 of a good frame (R41). -/
def identityOf (taken : List Byte) : Identity where
  serial := taken.take 12
  date := ⟨2000 + twoDigits (taken.getD 12 0x00#8) (taken.getD 13 0x00#8),
    twoDigits (taken.getD 14 0x00#8) (taken.getD 15 0x00#8)⟩

/-- A count saturating at 255. -/
def bump255 (k : Nat) : Nat := min 255 (k + 1)

/-- The holding buffer takes an identity (R48). -/
def Reader.store (r : Reader) (id : Identity) : Reader :=
  match r.held with
  | none => { r with held := some id }
  | some old =>
    if old.serial = id.serial then { r with duplicateReads := bump255 r.duplicateReads }
    else { r with held := some id, overruns := bump255 r.overruns }

/-- A SYNC starts a frame (R43). -/
def Reader.startFrame (r : Reader) : Reader := { r with state := .frame, frame := [] }

/-- A bad frame is discarded and counted, and the receiver returns to HUNT (R45). -/
def Reader.badFrame (r : Reader) : Reader :=
  { r with state := .hunt, frame := [], badFrames := bump255 r.badFrames }

/-- A character in HUNT (R43). -/
def Reader.hunt (r : Reader) (value : Byte) (stopGood : Bool) : Reader :=
  if value = syncByte ∧ stopGood = true then r.startFrame else r

/-- A character in FRAME (R44, R45); the position count is the number of characters taken. -/
def Reader.inFrame (r : Reader) (value : Byte) (stopGood : Bool) : Reader :=
  if stopGood = false then r.badFrame
  else if r.frame.length < 16 then
    if allowedAt (r.frame.length + 2) r.frame value then { r with frame := r.frame ++ [value] }
    else r.badFrame.hunt value true
  else if value = xorBytes r.frame then { r with state := .hunt, frame := [] }.store (identityOf r.frame)
  else r.badFrame

/-- A character delivered to the receiver; none is formed in OFF and FAULT (R40, R42 to R45). -/
def Reader.take (r : Reader) (value : Byte) (stopGood : Bool) : Reader :=
  match r.state with
  | .hunt => r.hunt value stopGood
  | .frame => r.inFrame value stopGood
  | .off | .fault => r

/-- READER_CHARACTER (R43 to R45, R48). -/
def execReaderCharacter (l : LaneId) (value : Byte) (stopGood : Bool) (s : State) :
    Host.Outcome State Fault Refusal :=
  .next (s.publish (s.setReader l ((s.reader l).take value stopGood)))

/-- A break: any frame is discarded, the buffer emptied, FAULT entered, and READER BREAK raised (R46). -/
def State.breakReader (s : State) (l : LaneId) : State :=
  match (s.reader l).state with
  | .hunt | .frame =>
    (s.setReader l { s.reader l with state := .fault, frame := [], held := none }).raiseAlert (readerSource l)
      .readerBreak
  | .off | .fault => s

/-- READER_BREAK (R46): the line has been low for 4 character times. Not watched in OFF and FAULT. -/
def execReaderBreak (l : LaneId) (s : State) : Host.Outcome State Fault Refusal :=
  .next (s.publish (s.breakReader l))

/-- RETURN of a reader: from FAULT to HUNT (R47). -/
def State.returnReader (s : State) (l : LaneId) : State × ResultCode :=
  match (s.reader l).state with
  | .fault => (s.setReader l { s.reader l with state := .hunt }, .accepted)
  | .off | .hunt | .frame => (s, .wrongState)

end Sys2Proof.Machine
end

