-- ==== Sys2Proof/Machine/Notes.lean ====
section
/-! DEFINITION. The note unit (chapter 4): POST NOTE and WITHDRAW NOTE; and RELEASE ENTRY of the roster unit (R23). -/

namespace Sys2Proof.Machine

/-! ## Reading a slot (R53, R181, R184) -/

/-- The state field of a slot. -/
def State.slotState (s : State) (k : SlotId) : Byte := s.plainByte (slotBase k + 0x01)

/-- The serial field of a slot. -/
def State.slotSerial (s : State) (k : SlotId) : List Byte := s.plainBytes (slotBase k + 0x02) 12

/-- The visual verdict a byte codes (R181). -/
def visualOf (b : Byte) : Option Visual :=
  if b = 0x01#8 then some .accept else if b = 0x02#8 then some .condemn else none

/-- The force-test flag a byte codes (R181). -/
def forceOf (b : Byte) : Option Bool :=
  if b = 0x00#8 then some false else if b = 0x01#8 then some true else none

/-- A type code that is 0 to 31 and usable in the working types (R58, check 4). -/
def State.usableCode (s : State) (b : Byte) : Option (Fin 32) :=
  if h : b.toNat < 32 then (if s.typeMask.getLsbD b.toNat then some ⟨b.toNat, h⟩ else none) else none

/-- The refusal reasons (R53). -/
def refusedType : Byte := 1#8
def refusedDuplicate : Byte := 2#8
def refusedField : Byte := 4#8

/-- The note of a slot's content, or the reason of the first check that fails (R58). -/
def State.checkedNote (s : State) (k : SlotId) : Byte ⊕ Note :=
  if (s.slotSerial k).all isSerialChar then
    match visualOf (s.plainByte (slotBase k + 0x0F)), forceOf (s.plainByte (slotBase k + 0x10)) with
    | some visual, some force =>
      match s.usableCode (s.plainByte (slotBase k + 0x0E)) with
      | some code => .inr ⟨s.slotSerial k, code, visual, force, k⟩
      | none => .inl refusedType
    | _, _ => .inl refusedField
  else .inl refusedField

/-! ## POST NOTE (R57 to R60) -/

/-- The slot is written REFUSED with a reason (R58, R60). -/
def State.refuseSlot (s : State) (k : SlotId) (reason : Byte) : State := s.editSlot k slotRefused reason 0xFF#8

/-- The slot is written in a state without reason and index. -/
def State.plainSlot (s : State) (k : SlotId) (state : Byte) : State := s.editSlot k state 0xFF#8 0xFF#8

/-- The expect table holds a note from a slot. -/
def State.expectsSlot (s : State) (k : SlotId) : Bool := s.expect.any (fun n => decide (n.slot = k))

/-- A note that passes its checks: matched directly, refused as a duplicate, or put into the expect table (R59, R60). -/
def State.offerNote (s : State) (note : Note) : State × ResultCode :=
  match s.awaitingWith note.serial with
  | some i => (((s.matchEntry i note).actOnMatch i).takeSlot note.slot i, .accepted)
  | none =>
    match s.expectedNote note.serial with
    | some _ => (s.refuseSlot note.slot refusedDuplicate, .duplicate)
    | none => ({ s with expect := s.expect ++ [note] }.plainSlot note.slot slotPosted, .accepted)

/-- POST NOTE of a slot (R57, R58). The slot's state and content are read in one moment, which section 4.7 leaves open: the
model's choice (log 34). -/
def State.postSlot (s : State) (k : SlotId) : State × ResultCode :=
  if s.expectsSlot k = true ∨ s.slotState k ≠ slotFilled then (s, .wrongState)
  else
    match s.checkedNote k with
    | .inl reason => (s.refuseSlot k reason, .badArgument)
    | .inr note => s.offerNote note

/-- POST NOTE (R57 to R60). -/
def State.postNoteResult (s : State) (arg : BitVec 24) : State × ResultCode :=
  match slotOfNumber (argByte arg) with
  | some k => s.postSlot k
  | none => (s, .badArgument)

/-! ## WITHDRAW NOTE (R64) -/

/-- The note of a slot leaves the expect table (R55). -/
def State.removeNote (s : State) (k : SlotId) : State :=
  { s with expect := s.expect.filter (fun n => decide (n.slot ≠ k)) }

/-- WITHDRAW NOTE (R64). -/
def State.withdrawNoteResult (s : State) (arg : BitVec 24) : State × ResultCode :=
  match slotOfNumber (argByte arg) with
  | some k =>
    if s.expectsSlot k then ((s.removeNote k).plainSlot k slotWithdrawn, .accepted)
    else if s.slotState k = slotTaken then (s, .tooLate)
    else (s, .wrongState)
  | none => (s, .badArgument)

/-! ## RELEASE ENTRY (R23, R170) -/

/-- A DONE entry becomes FREE, the free count is raised and written, and its notice is removed from the list. -/
def State.freeEntry (s : State) (i : RosterIndex) : State :=
  let s1 := s.editEntry i (fun _ => Entry.freeEntry 0#8)
  ({ s1 with freeCount := s1.freeCount + 1 }.headerEdit.dropOutcome i).evalPermits

/-- RELEASE ENTRY (R23). -/
def State.releaseEntryResult (s : State) (arg : BitVec 24) : State × ResultCode :=
  match indexOfNumber (argByte arg) with
  | some i => if (s.entry i).state = .done then (s.freeEntry i, .accepted) else (s, .wrongState)
  | none => (s, .badArgument)

end Sys2Proof.Machine
end

