-- ==== Sys2Proof/Machine/Outfeed.lean ====
section
/-! DEFINITION. The meanings of the outfeed commands (R80 to R85): CLAIM_GRANT, OUTFEED_HEAD_DISPATCH, OUTFEED_EYE, EXIT_EYE,
EJECT_BEGIN, and TRANSFER_JAM for every owner (R76). -/

namespace Sys2Proof.Machine

/-! ## CLAIM_GRANT (R82) -/

/-- The tail position is reserved for a claimant's transfer, and the transfer into the outfeed begins (R74, R82). -/
def State.beginOutfeed (s : State) (item : Item) (source : TransferSource) : State :=
  { s with outfeedQueue := s.outfeedQueue ++ [Position.reserved (s.newTransit item source)] }.reportBegin item .outfeed

/-- The grant of a bay's claim. -/
def State.grantBay (s : State) (n : BayId) : State :=
  match (s.bay n).index with
  | some i => s.beginOutfeed (.entry i) (.bay n)
  | none => s

/-- The grant of a lane's claim: the head leaves the queue and the next item becomes the head (R72, R82). -/
def State.grantLane (s : State) (l : LaneId) : State :=
  match (s.lane l).queue with
  | item :: _ => (((s.popHead l).beginOutfeed item (.laneHead l)).afterPop l)
  | [] => s

/-- The oldest claim can be granted now: a lane has one transfer out of it in flight at a time (R74; log 9). -/
def State.claimReady (s : State) (c : Claimant) : Bool :=
  match c with
  | .bay _ => true
  | .lane l => !(s.lane l).headInFlight

/-- The outfeed grants the oldest claim while its conditions hold (R82). -/
def State.grantClaim (s : State) : State :=
  match s.claims with
  | c :: rest =>
    if s.outfeedState = .normal ∧ s.stopped = false ∧ s.outfeedQueue.length < Config.outfeedCapacity ∧
        s.claimReady c = true then
      match c with
      | .bay n => { s with claims := rest }.grantBay n
      | .lane l => { s with claims := rest }.grantLane l
    else s
  | [] => s

/-- CLAIM_GRANT (R82). -/
def execClaimGrant (s : State) : Host.Outcome State Fault Refusal := .next (s.publish s.grantClaim.drainTest)

/-! ## OUTFEED_HEAD_DISPATCH (R83) -/

/-- The head leaves the outfeed queue as its head transfer begins. -/
def State.popOutfeed (s : State) : State :=
  { s with outfeedQueue := s.outfeedQueue.tail, outfeedHeadInFlight := true }

/-- The head goes to the release exit or the hold chute; the outfeed owns the transfer (R74, R83). -/
def State.headToExit (s : State) (item : Item) (exit : Exit) : State :=
  { s.popOutfeed with exits := s.exits ++ [ExitTransfer.mk (s.newTransit item .outfeedHead) exit] }.reportBegin item .nowhere

/-- The head goes to a station's nest, if the station is IDLE with its nest eye off; the station owns the transfer
(R83, R146, R148). -/
def State.headToStation (s : State) (i : RosterIndex) (st : StationId) : State :=
  if (s.station st).available then
    (s.popOutfeed.updStation st (fun x =>
      { x with
        state := .nestLoading
        nest := .incoming
        index := some i
        loading := some (s.newTransit (.entry i) .outfeedHead) })).reportBegin (.entry i) (.station st)
  else s

/-- The outfeed sends its head to the exit of the head's route (R83). -/
def State.dispatchHead (s : State) : State :=
  if s.outfeedState = .normal ∧ s.stopped = false ∧ s.outfeedHeadInFlight = false then
    match s.outfeedQueue with
    | .occupied .marker :: _ => s.headToExit .marker .holdChute
    | .occupied (.entry i) :: _ =>
      match (s.entry i).route with
      | some .passThrough => s.headToExit (.entry i) .releaseConveyor
      | some .hold => s.headToExit (.entry i) .holdChute
      | some .stamp => s.headToStation i .stamper
      | some .deface => s.headToStation i .defacer
      | some .test | none => s
    | _ => s
  else s

/-- OUTFEED_HEAD_DISPATCH (R83). -/
def execOutfeedHeadDispatch (s : State) : Host.Outcome State Fault Refusal :=
  .next (s.publish s.dispatchHead.drainTest)

/-! ## OUTFEED_EYE (R75) -/

/-- The outfeed eye ends the oldest transfer into the outfeed (R75); with none in flight it is ignored. -/
def State.endOutfeed (s : State) : State :=
  match occupyFirst s.outfeedQueue with
  | some (t, positions) => ({ s with outfeedQueue := positions }.reportEnd t.item .outfeed).tellSource t
  | none => s

/-- OUTFEED_EYE (R75). -/
def execOutfeedEye (s : State) : Host.Outcome State Fault Refusal := .next (s.publish s.endOutfeed.drainTest)

/-! ## EXIT_EYE (R21, R84) -/

/-- What reaches the exit: an entry is closed, and the marker raises UNROSTERED HELD at the hold chute (R21, R84). -/
def State.reachExit (s : State) (item : Item) (exit : Exit) : State :=
  match item with
  | .entry i => s.closeAtExit i exit
  | .marker => s.raiseAlert outfeedSource .unrosteredHeld

/-- An exit eye ends the transfer towards it that began first (R75); with none in flight it is ignored. -/
def State.endExit (s : State) (exit : Exit) : State :=
  match takeExit (fun x => decide (x.exit = exit)) s.exits with
  | some (x, rest) => ({ s with exits := rest }.reachExit x.transit.item exit).tellSource x.transit
  | none => s

/-- EXIT_EYE (R21, R75, R84). -/
def execExitEye (e : Exit) (s : State) : Host.Outcome State Fault Refusal :=
  .next (s.publish (s.endExit e).drainTest)

/-! ## EJECT_BEGIN (R157) -/

/-- A waiting eject begins once the run state is not E-STOPPED, whatever the outfeed's state (R85, R157). -/
def State.beginEject (s : State) (st : StationId) : State :=
  if (s.station st).nest = .outgoing ∧ (s.station st).ejectBegun = false ∧ s.stopped = false then
    match (s.station st).index, (s.station st).ejectExit with
    | some i, some exit =>
      { s.updStation st (fun x => { x with ejectBegun := true }) with
        exits := s.exits ++ [ExitTransfer.mk (s.newTransit (.entry i) (.station st)) exit] }.reportBegin (.entry i) .nowhere
    | _, _ => s
  else s

/-- EJECT_BEGIN (R157). -/
def execEjectBegin (st : StationId) (s : State) : Host.Outcome State Fault Refusal :=
  .next (s.publish (s.beginEject st).drainTest)

/-! ## TRANSFER_JAM (R76) -/

/-- A bay's loading transfer jams: the entry is closed, the source told, the index cleared, and the bay enters FAULT (R96);
the notices join in R76's order of steps (DESIGN CHOICE, log 33). -/
def State.jamLoading (s : State) (n : BayId) : State :=
  match (s.bay n).loading with
  | some t =>
    if s.due t.expiry then
      ((((s.updBay n (fun b => { b with loading := none, index := none })).closeJammed t.item).tellSource t).bayFault n
        .transferJam)
    else s
  | none => s

/-- The transfer of a bay whose limit is due. -/
def State.dueFrom (s : State) (source : TransferSource) (t : Transit) : Bool :=
  decide (t.source = source) && s.due t.expiry

/-- A bay's transfer onto its track jams: the reservation is released, the entry closed, the bay told, and the lane enters
FAULT (R76, R86). The notices of the roster unit, the told bay and the lane join in R76's order of steps; that two blocks'
notices join in that order is a DESIGN CHOICE (R169; log 33). -/
def State.jamTrack (s : State) (n : BayId) : State :=
  match releaseReservation (s.dueFrom (.bay n)) (s.lane (laneOf n)).track with
  | some (t, positions) =>
    ((((s.updLane (laneOf n) (fun x => { x with track := positions })).closeJammed t.item).tellSource t).laneFault
      (laneOf n)).raiseAlert (laneSource (laneOf n)) .transferJam
  | none => s

/-- A transfer into the outfeed jams (R76); its notices join in R76's order of steps (DESIGN CHOICE, log 33). -/
def State.jamOutfeed (s : State) (source : TransferSource) : State :=
  match releaseReservation (s.dueFrom source) s.outfeedQueue with
  | some (t, positions) =>
    (({ s with outfeedQueue := positions }.closeJammed t.item).tellSource t).outfeedJam
  | none => s

/-- A station's loading transfer jams: the nest is released and the station enters FAULT (R148); the notices join in R76's
order of steps (DESIGN CHOICE, log 33). -/
def State.jamNest (s : State) (st : StationId) : State :=
  match (s.station st).loading with
  | some t =>
    if s.due t.expiry then
      ((((s.updStation st (fun x => { x with loading := none, nest := .empty, index := none })).closeJammed
        t.item).tellSource t).stationFault st .transferJam)
    else s
  | none => s

/-- A transfer to an exit jams: the entry is closed, the source told, and the outfeed enters FAULT (R76, R157); the notices
join in R76's order of steps (DESIGN CHOICE, log 33). -/
def State.jamExit (s : State) (source : TransferSource) : State :=
  match takeExit (fun x => s.dueFrom source x.transit) s.exits with
  | some (x, rest) => (({ s with exits := rest }.closeJammed x.transit.item).tellSource x.transit).outfeedJam
  | none => s

/-- A transfer's limit expires before its destination eye (R76). Lane and outfeed permits follow the lane's FAULT. -/
def State.jam (s : State) (t : TransferRef) : State :=
  match t with
  | .loading n => s.jamLoading n
  | .ontoTrack n => s.jamTrack n
  | .bayToOutfeed n => s.jamOutfeed (.bay n)
  | .laneToOutfeed l => s.jamOutfeed (.laneHead l)
  | .nest st => s.jamNest st
  | .headToExit => s.jamExit .outfeedHead
  | .eject st => s.jamExit (.station st)

/-- TRANSFER_JAM (R76). -/
def execTransferJam (t : TransferRef) (s : State) : Host.Outcome State Fault Refusal :=
  .next (s.publish (s.jam t).drainTest)

/-- RETURN of the outfeed (R85). -/
def State.returnOutfeed (s : State) : State × ResultCode :=
  match s.outfeedState with
  | .fault => ({ s with outfeedState := .normal }, .accepted)
  | .normal => (s, .wrongState)

end Sys2Proof.Machine
end

