-- ==== Sys2Proof/Machine/Stations.lean ====
section
/-! DEFINITION. The meanings of the station commands (chapter 9): nest eyes, the offering, the guard, results and limits, and
the service commands of a station. -/

namespace Sys2Proof.Machine

/-! ## Nest eyes (R147 to R149, R156) -/

/-- The loading transfer ends at the nest eye: nest LOADED, re-offer count 0, mark buffer copied and order built; a station
in FAULT stays there (R147, R148, R149, R156). -/
def Station.loaded (x : Station) (st : StationId) (e : Entry) : Station :=
  { x with
    loading := none
    nest := .loaded
    reoffer := 0
    mark := markBuffer st e
    order := some (stationOrder st e)
    state :=
      match x.state with
      | .nestLoading => .nestLoaded
      | other => other }

/-- The nest eye turns on (R148); with no loading transfer in flight it is recorded only (R75). -/
def State.nestEyeOn (s : State) (st : StationId) : State :=
  let s1 := s.updStation st (fun x => { x with nestEye := true })
  match (s.station st).loading, (s.station st).index with
  | some t, some i =>
    ((s1.updStation st (fun x => x.loaded st (s.entry i))).reportEnd t.item (.station st)).tellSource t
  | _, _ => s1

/-- NEST_EYE (R148). -/
def execNestEye (st : StationId) (s : State) : Host.Outcome State Fault Refusal :=
  .next (s.publish (s.nestEyeOn st).drainTest)

/-- STATION_NEST_EYE_OFF (R146): the level is recorded; the outfeed's test of its head is OUTFEED_HEAD_DISPATCH. -/
def execStationNestEyeOff (st : StationId) (s : State) : Host.Outcome State Fault Refusal :=
  .next (s.publish (s.updStation st (fun x => { x with nestEye := false })))

/-! ## The offering (R150 to R152) -/

/-- The gating of an order's first byte (R150). -/
def State.offerGate (s : State) (st : StationId) : Bool :=
  decide ((s.station st).state = .nestLoaded) && s.guardClosed && (s.station st).ready && !s.stopped

/-- The station enters OFFERING with byte position 1 (R150). -/
def State.offerOrder (s : State) (st : StationId) : State :=
  if s.offerGate st then
    s.updStation st (fun x => { x with state := .offering }.offerByte 1 (s.after Config.takeLimit))
  else s

/-- ORDER_OFFER (R150). -/
def execOrderOffer (st : StationId) (s : State) : Host.Outcome State Fault Refusal :=
  .next (s.publish (s.offerOrder st))

/-- GUARD_CLOSED changes: recorded in both records; its opening breaks off an offering (R152). Its closing tests the gating,
which is ORDER_OFFER. -/
def State.changeGuard (s : State) (level : Bool) : State :=
  let s1 := { s with guardClosed := level }
  if s.guardClosed = true ∧ level = false then
    (s1.updStation .stamper Station.breakOffering).updStation .defacer Station.breakOffering
  else s1

/-- GUARD_CLOSED_CHANGE (R152). -/
def execGuardClosedChange (level : Bool) (s : State) : Host.Outcome State Fault Refusal :=
  .next (s.publish (s.changeGuard level))

/-- STATION_READY_CHANGE (R150, R151): recorded; turning on tests the gating, which is ORDER_OFFER. -/
def execStationReadyChange (st : StationId) (level : Bool) (s : State) : Host.Outcome State Fault Refusal :=
  .next (s.publish (s.updStation st (fun x => { x with ready := level })))

/-- WORKING entry: the work limit starts (R153). -/
def Station.startWork (x : Station) (expiry : Seconds) : Station :=
  { x with state := .working, bytePos := none, limit := some expiry }

/-- A byte is taken: the next byte's turn comes, or the station works (R151). -/
def State.byteTaken (s : State) (st : StationId) : State :=
  s.updStation st (fun x =>
    let x1 := { x with orderReady := false, limit := none }
    if (x.order.getD []).length ≤ x.bytePos.getD 0 then x1.startWork (s.after (workLimitOf st))
    else x1.offerByte (x.bytePos.getD 0 + 1) (s.after Config.takeLimit))

/-- A waiting byte is placed once TAKEN is off (R151). -/
def Station.placeByte (x : Station) : Station :=
  { x with orderBus := (x.order.getD []).getD (x.bytePos.getD 1 - 1) 0x00#8, orderReady := true }

/-- A change of TAKEN (R151). -/
def State.changeTaken (s : State) (st : StationId) (level : Bool) : State :=
  if (s.station st).taken = level then s
  else
    let s1 := s.updStation st (fun x => { x with taken := level })
    if (s.station st).state = .offering then
      if level then (if (s.station st).orderReady then s1.byteTaken st else s1)
      else (if (s.station st).orderReady then s1 else s1.updStation st Station.placeByte)
    else s1

/-- TAKEN (R151). -/
def execTaken (st : StationId) (level : Bool) (s : State) : Host.Outcome State Fault Refusal :=
  .next (s.publish (s.changeTaken st level))

/-- The take limit expires in OFFERING: FAULT with NO ANSWER, the nest and the entry unchanged (R151). -/
def State.expireTake (s : State) (st : StationId) : State :=
  if (s.station st).state = .offering ∧ s.due (s.station st).limit = true then
    (s.updStation st Station.brokenOff).stationFault st .noAnswer
  else s

/-- TAKE_LIMIT_EXPIRY (R151). -/
def execTakeLimitExpiry (st : StationId) (s : State) : Host.Outcome State Fault Refusal :=
  .next (s.publish (s.expireTake st).drainTest)

/-! ## Results (R153 to R156) -/

/-- BAD ORDER (R155). -/
def State.badOrder (s : State) (st : StationId) : State :=
  if (s.station st).reoffer = 0 then s.updStation st (fun x => { x with reoffer := 1, state := .nestLoaded })
  else s.stationFault st .protocol

/-- A result taken in WORKING (R154). -/
def State.actOnResult (s : State) (st : StationId) (result : Nat) : State :=
  match result with
  | 1 => s.updStation st (fun x => x.eject (completeExit st))
  | 2 => (s.stationDoubt st).updStation st (fun x => x.eject .holdChute)
  | 3 => s.faultedResult st .toolFault
  | 4 => s.noCylinderResult st
  | 5 => s.badOrder st
  | _ => s.faultedResult st .protocol

/-- A DONE strobe latches the result and leaves the DONE line at a level; in WORKING the station acts on the result, and in any
other state by R156. -/
def State.strobe (s : State) (st : StationId) (result : BitVec 4) (levelAfter : Bool) : State :=
  let s1 := s.updStation st (fun x => { x with resultLatch := result, done := levelAfter })
  match (s.station st).state with
  | .working => (s1.updStation st (fun x => { x with limit := none })).actOnResult st result.toNat
  | .offering => (s1.updStation st Station.brokenOff).stationFault st .protocol
  | .idle | .nestLoading | .nestLoaded | .ejecting => s1.stationFault st .protocol
  | .fault | .offline => s1

/-- A change of the DONE line: a strobe acts on the result and is followed by the drain test; the line's going off is recorded
(R145) and has no other effect, the RESULT lines unread (log 14). -/
def State.changeDone (s : State) (st : StationId) (result : BitVec 4) (change : DoneChange) : State :=
  match change with
  | .strobe levelAfter => (s.strobe st result levelAfter).drainTest
  | .off => s.updStation st (fun x => { x with done := false })

/-- DONE_STROBE (R145, R153, R156). -/
def execDoneStrobe (st : StationId) (result : BitVec 4) (change : DoneChange) (s : State) :
    Host.Outcome State Fault Refusal :=
  .next (s.publish (s.changeDone st result change))

/-- The work limit expires in WORKING: as for TOOL FAULT (R153). -/
def State.expireWork (s : State) (st : StationId) : State :=
  if (s.station st).state = .working ∧ s.due (s.station st).limit = true then s.faultedResult st .toolFault else s

/-- WORK_LIMIT_EXPIRY (R153). -/
def execWorkLimitExpiry (st : StationId) (s : State) : Host.Outcome State Fault Refusal :=
  .next (s.publish (s.expireWork st))

/-! ## Service commands (R158, R159) -/

/-- TAKE OUT OF SERVICE of a station (R158). -/
def State.takeOutStation (s : State) (st : StationId) : State × ResultCode :=
  match (s.station st).state, (s.station st).nest with
  | .idle, _ => (s.updStation st (fun x => { x with state := .offline }), .accepted)
  | .fault, .empty => (s.updStation st (fun x => { x with state := .offline, faultCause := none }), .accepted)
  | .fault, .loaded =>
    (s.updStation st (fun x => { x with state := .offline, faultCause := none, reoffer := 0 }), .accepted)
  | _, _ => (s, .wrongState)

/-- RETURN of a station (R159). -/
def State.returnStation (s : State) (st : StationId) : State × ResultCode :=
  match (s.station st).state, (s.station st).nest with
  | .fault, .loaded | .offline, .loaded =>
    (s.updStation st (fun x => { x with state := .nestLoaded, faultCause := none, reoffer := 0 }), .accepted)
  | .fault, .empty | .offline, .empty =>
    (s.updStation st (fun x => { x with state := .idle, faultCause := none }), .accepted)
  | _, _ => (s, .wrongState)

end Sys2Proof.Machine
end

