-- ==== Sys2Proof/Machine/Tables.lean ====
section
/-! DEFINITION. The table unit (chapter 2): reading and checking the store's tables, TAKE TABLES and SET DATE. -/

namespace Sys2Proof.Machine

/-! ## Reading the store (R25, R181, R183) -/

/-- The settings record as it stands in the store, at 0040h (R183). -/
def State.readSettings (s : State) : Settings where
  stationCode := s.plainBytes 0x40 4
  zeroInterval := s.plainHalf 0x44
  driftLimit := s.plainHalf 0x46
  noteWaitLimit := s.plainHalf 0x48
  riseLimit := s.plainHalf 0x4A
  settleTime := s.plainHalf 0x4C
  pressurisedLimit := s.plainHalf 0x4E
  transferLimit := (s.plainByte 0x50).toNat
  almostFullA := (s.plainByte 0x51).toNat
  almostFullB := (s.plainByte 0x52).toNat
  almostEmptyA := (s.plainByte 0x53).toNat
  almostEmptyB := (s.plainByte 0x54).toNat

/-- The type entry as it stands at an address of the type table (R183); the defined flag is set by 01h (R181). -/
def State.readType (s : State) (a : Nat) : TypeEntry where
  defined := decide (s.plainByte a = 0x01#8)
  interval := (s.plainByte (a + 0x01)).toNat
  capacity := s.plainHalf (a + 0x02)
  testPressure := s.plainHalf (a + 0x04)
  holdTime := s.plainHalf (a + 0x06)
  elasticLimit := s.plainHalf (a + 0x08)
  ratioLimit := s.plainHalf (a + 0x0A)
  dropTolerance := (s.plainByte (a + 0x0C)).toNat
  template := (s.plainByte (a + 0x0D)).toNat
  strikeClass := (s.plainByte (a + 0x0E)).toNat

/-- The address of a type entry (R25). -/
def typeAddress (c : Nat) : Nat := 0x400 + c * 0x20

/-- The address of a template entry (R25). -/
def templateAddress (k : Nat) : Nat := 0x800 + k * 0x20

/-- The bytes of a template before its end (R30). -/
def State.readTemplate (s : State) (k : Nat) : List Byte :=
  (s.plainBytes (templateAddress k) 24).takeWhile (fun b => decide (b ≠ 0x00#8))

/-! ## The checks (R26 to R31) -/

/-- A literal character of a template, and a character of the station code (R26, R30). -/
def isLiteral (b : Byte) : Bool :=
  decide (b.toNat = 0x20) || (decide (0x2D ≤ b.toNat) && decide (b.toNat ≤ 0x39)) ||
    (decide (0x41 ≤ b.toNat) && decide (b.toNat ≤ 0x5A))

/-- A value in a range. -/
def within (low high x : Nat) : Bool := decide (low ≤ x) && decide (x ≤ high)

/-- The roster fit of one entry under new settings: an entry with route TEST, by its own copied hold time (R27). -/
def Settings.fits (w : Settings) (e : Entry) : Bool :=
  match e.route, e.params with
  | some .test, some p =>
    decide (p.holdTime + w.riseLimit + w.settleTime + Config.allowanceMargin ≤ w.zeroInterval) &&
      decide (p.holdTime + w.riseLimit + Config.retuneTime ≤ w.pressurisedLimit)
  | _, _ => true

/-- The checks of the settings record, in their order: fields 1 to 12 and the roster fit test (R26, R27). -/
def State.settingChecks (s : State) (w : Settings) : List Bool :=
  [ w.stationCode.all isLiteral
  , within 600 7200 w.zeroInterval
  , within 1 500 w.driftLimit
  , within 5 600 w.noteWaitLimit
  , within 20 600 w.riseLimit
  , within 10 300 w.settleTime
  , within 120 3600 w.pressurisedLimit
  , within 5 60 w.transferLimit
  , within 1 11 w.almostFullA
  , within 1 11 w.almostFullB
  , within 0 10 w.almostEmptyA && decide (w.almostEmptyA < w.almostFullA)
  , within 0 10 w.almostEmptyB && decide (w.almostEmptyB < w.almostFullB)
  , (List.finRange 48).all (fun i => w.fits (s.entry i)) ]

/-- The number of the first check that fails, from a first number on; none when every check passes. -/
def firstFailure : (number : Nat) → List Bool → Option Nat
  | _, [] => none
  | k, c :: rest => if c then firstFailure (k + 1) rest else some k

/-- The first bad setting field of a record, 1 to 13 (R27). -/
def State.firstBadField (s : State) (w : Settings) : Option Nat := firstFailure 1 (s.settingChecks w)

/-- The expanded length of a template byte; none for an invalid byte (R30). -/
def expandedLength (b : Byte) : Option Nat :=
  if isLiteral b then some 1
  else if b = 0x01#8 then some 4
  else if b = 0x02#8 then some 2
  else if b = 0x03#8 then some 2
  else if b = 0x04#8 then some 3
  else if b = 0x05#8 then some 12
  else none

/-- The expanded length of a template (R31). -/
def templateLength (l : List Byte) : Nat := (l.map (fun b => (expandedLength b).getD 0)).sum

/-- A template is usable (R31). -/
def templateUsable (l : List Byte) : Bool :=
  l.all (fun b => (expandedLength b).isSome) && within 1 24 (templateLength l) && l.contains 0x02#8 &&
    l.contains 0x03#8

/-- Every field of a type entry is within its range (R28). -/
def TypeEntry.inRange (t : TypeEntry) : Bool :=
  within 5 800 t.capacity && within 50 450 t.testPressure && within 10 300 t.holdTime &&
    within 1 65000 t.elasticLimit && within 10 300 t.ratioLimit && within 1 100 t.dropTolerance &&
    within 1 15 t.interval && within 0 15 t.template && within 1 3 t.strikeClass

/-- A type is usable under the settings and the templates being taken (R29). -/
def TypeEntry.usable (t : TypeEntry) (w : Settings) (usableTemplate : Nat → Bool) : Bool :=
  t.defined && t.inRange && usableTemplate t.template &&
    decide (t.holdTime + w.riseLimit + Config.retuneTime ≤ w.pressurisedLimit) &&
    decide (t.holdTime + w.riseLimit + w.settleTime + Config.allowanceMargin ≤ w.zeroInterval)

/-! ## TAKE TABLES (R33 to R37) -/

/-- Steps 2 to 5 of an ACCEPTED take, which take effect together (R33, R34): one edit of the header. -/
def State.takeAccepted (s : State) (w : Settings) : State :=
  let usableTemplate : Nat → Bool := fun k => templateUsable (s.readTemplate k)
  { s with
    settings := some w
    types := Vector.ofFn (fun c : Fin 32 => some (s.readType (typeAddress c.val)))
    typeMask := BitVec.ofNat 32 (flagBits ((List.range 32).map (fun c =>
      (s.readType (typeAddress c)).usable w usableTemplate)))
    templates := Vector.ofFn (fun k : Fin 16 =>
      if usableTemplate k.val then some (s.readTemplate k.val) else s.templates[k])
    templateMask := BitVec.ofNat 16 (flagBits ((List.range 16).map usableTemplate))
    tablesHeld := true
    firstBad := some 0 }.headerEdit

/-- What follows an ACCEPTED take: AWAITING TABLES and STARTING may be left, and the permits and the proactive trigger are
tested under the new settings (R36, R128, R129, R175). -/
def State.afterTake (s : State) : State :=
  (s.leaveAwaiting.forBays (fun n t => t.leaveStarting n)).evalPermits.forBays (fun n t => t.testProactive n)

/-- TAKE TABLES (R34). -/
def State.takeTablesResult (s : State) : State × ResultCode :=
  match s.firstBadField s.readSettings with
  | some k => ({ s with firstBad := some k }.headerEdit, .tableError)
  | none => ((s.takeAccepted s.readSettings).afterTake, .accepted)

/-! ## SET DATE (R38) -/

/-- SET DATE (R38): year in bits 15 to 8 and month in bits 7 to 0 of the argument (R182). -/
def State.setDateResult (s : State) (arg : BitVec 24) : State × ResultCode :=
  if argMiddle arg ≤ 99 ∧ 1 ≤ argByte arg ∧ argByte arg ≤ 12 then
    ({ s with date := some ⟨2000 + argMiddle arg, argByte arg⟩ }.headerEdit.leaveAwaiting, .accepted)
  else (s, .badArgument)

end Sys2Proof.Machine
end

