-- ==== Sys2Proof/Machine/Commands.lean ====
section
/-! DEFINITION. The command unit (R166 to R168): how a command word is carried through to its result, and the meanings of the
commands. -/

namespace Sys2Proof.Machine

/-! ## Carrying a command through (R166) -/

/-- The command's word stands in CMB: it is written there if CMB is empty, and taken if it waits there already (log 4). -/
def State.withCommand (s : State) (word : Word) : State := { s with cmbWord := word, cmbFull := true }

/-- CMB holds another word, so that the command's word is discarded (R165; log 4). -/
def State.cmbBlocked (s : State) (word : Word) : Bool := s.cmbFull && decide (s.cmbWord ≠ word)

/-- Steps 4 and 5: the code and the result are written into STAT and CMB becomes empty (R166). -/
def State.completed (s : State) (code : Byte) (result : ResultCode) : State :=
  { s with lastCommand := code, lastResult := result, cmbFull := false }

/-- Steps 2 and 3: in AWAITING TABLES a command that is not exempt gives NOT READY, and otherwise its owner acts (R166). -/
def State.consult (s : State) (exempt : Bool) (owner : State → State × ResultCode) : State × ResultCode :=
  if s.runState = .awaitingTables ∧ exempt = false then (s, .notReady) else owner s

/-- A command word is carried through to its result (R166). -/
def State.carry (s : State) (word : Word) (exempt : Bool) (owner : State → State × ResultCode) : State :=
  if s.cmbBlocked word then { s with overwriteFlag := true }
  else
    let r := (s.withCommand word).consult exempt owner
    r.1.completed (BitVec.ofNat 8 (commandCode word)) r.2

/-- A step that carries a command word through: CMB has just become empty, unless the word was discarded (log 31). -/
def State.commandStep (s : State) (word : Word) (exempt : Bool) (owner : State → State × ResultCode) : State :=
  (s.publish (s.carry word exempt owner)).markEmptied (!s.cmbBlocked word)

/-! ## The table unit's and the run controller's commands -/

/-- TAKE TABLES (01h, R34), accepted in every run state. -/
def execTakeTables (arg : BitVec 24) (s : State) : Host.Outcome State Fault Refusal :=
  .next (s.commandStep (commandWord 0x01#8 arg) true State.takeTablesResult)

/-- SET DATE (02h, R38), accepted in every run state. -/
def execSetDate (arg : BitVec 24) (s : State) : Host.Outcome State Fault Refusal :=
  .next (s.commandStep (commandWord 0x02#8 arg) true (fun t => t.setDateResult arg))

/-- RUN (03h, R176). -/
def execRun (arg : BitVec 24) (s : State) : Host.Outcome State Fault Refusal :=
  .next (s.commandStep (commandWord 0x03#8 arg) false State.runResult)

/-- STOP LINE (04h, R176). -/
def execStopLine (arg : BitVec 24) (s : State) : Host.Outcome State Fault Refusal :=
  .next (s.commandStep (commandWord 0x04#8 arg) false State.stopLineResult)

/-- CLEAR STATUS clears the sticky flags (R168). -/
def State.clearStatusResult (s : State) : State × ResultCode :=
  ({ s with overwriteFlag := false, alertSeen := false }, .accepted)

/-- CLEAR STATUS (05h, R168), accepted in every run state. -/
def execClearStatus (arg : BitVec 24) (s : State) : Host.Outcome State Fault Refusal :=
  .next (s.commandStep (commandWord 0x05#8 arg) true State.clearStatusResult)

/-! ## The note unit's and the roster unit's commands -/

/-- POST NOTE (10h, R57 to R60). -/
def execPostNote (arg : BitVec 24) (s : State) : Host.Outcome State Fault Refusal :=
  .next (s.commandStep (commandWord 0x10#8 arg) false (fun t => t.postNoteResult arg))

/-- WITHDRAW NOTE (11h, R64). -/
def execWithdrawNote (arg : BitVec 24) (s : State) : Host.Outcome State Fault Refusal :=
  .next (s.commandStep (commandWord 0x11#8 arg) false (fun t => t.withdrawNoteResult arg))

/-- RELEASE ENTRY (12h, R23). -/
def execReleaseEntry (arg : BitVec 24) (s : State) : Host.Outcome State Fault Refusal :=
  .next (s.commandStep (commandWord 0x12#8 arg) false (fun t => t.releaseEntryResult arg))

/-! ## The bays' commands -/

/-- BAY HOLD (20h, R111). -/
def execBayHold (arg : BitVec 24) (s : State) : Host.Outcome State Fault Refusal :=
  .next (s.commandStep (commandWord 0x20#8 arg) false (fun t => t.forBayArg arg State.holdBay))

/-- BAY RESUME (21h, R112). -/
def execBayResume (arg : BitVec 24) (s : State) : Host.Outcome State Fault Refusal :=
  .next (s.commandStep (commandWord 0x21#8 arg) false (fun t => t.forBayArg arg State.resumeBay))

/-- BAY ABORT (22h, R113). -/
def execBayAbort (arg : BitVec 24) (s : State) : Host.Outcome State Fault Refusal :=
  .next (s.commandStep (commandWord 0x22#8 arg) false (fun t => t.forBayArg arg State.abortBay))

/-- BAY ZERO (23h, R131). -/
def execBayZero (arg : BitVec 24) (s : State) : Host.Outcome State Fault Refusal :=
  .next (s.commandStep (commandWord 0x23#8 arg) false (fun t => t.forBayArg arg State.zeroBay))

/-- SERVICE LINE (25h, R116). -/
def execServiceLine (arg : BitVec 24) (s : State) : Host.Outcome State Fault Refusal :=
  .next (s.commandStep (commandWord 0x25#8 arg) false (fun t => t.serviceLineResult arg))

/-! ## The commands that name a source (R167) -/

/-- TAKE OUT OF SERVICE, handed to the block its source names (R167). -/
def State.takeOutResult (s : State) (source : Nat) : State × ResultCode :=
  match bayOfSource source, intensifierOfSource source, stationOfSource source with
  | some n, _, _ => s.takeOutBay n
  | _, some i, _ => s.takeOutIntensifier i
  | _, _, some st => s.takeOutStation st
  | none, none, none => (s, .badArgument)

/-- TAKE OUT OF SERVICE (24h, R115, R141, R158). -/
def execTakeOutOfService (arg : BitVec 24) (s : State) : Host.Outcome State Fault Refusal :=
  .next (s.commandStep (commandWord 0x24#8 arg) false (fun t => t.takeOutResult (argByte arg)))

/-- RETURN of a reader or of the outfeed; every other source has the bad-argument row (R47, R85, R167). -/
def State.returnFlow (s : State) (source : Nat) : State × ResultCode :=
  match readerOfSource source with
  | some l => s.returnReader l
  | none => if source = outfeedSource then s.returnOutfeed else (s, .badArgument)

/-- RETURN, handed to the block its source names (R167). -/
def State.returnResult (s : State) (source : Nat) : State × ResultCode :=
  match bayOfSource source, intensifierOfSource source, stationOfSource source with
  | some n, _, _ => s.returnBay n
  | _, some i, _ => s.returnIntensifier i
  | _, _, some st => s.returnStation st
  | none, none, none => s.returnFlow source

/-- RETURN (30h, R47, R85, R117, R142, R159). -/
def execReturnToService (arg : BitVec 24) (s : State) : Host.Outcome State Fault Refusal :=
  .next (s.commandStep (commandWord 0x30#8 arg) false (fun t => t.returnResult (argByte arg)))

/-- LANE CLEAR (31h, R87). -/
def execLaneClear (arg : BitVec 24) (s : State) : Host.Outcome State Fault Refusal :=
  .next (s.commandStep (commandWord 0x31#8 arg) false (fun t => t.laneClearResult arg))

/-! ## A code outside the list (R166) -/

/-- UNKNOWN COMMAND: step 1 of R166, in every run state. -/
def State.unknownResult (s : State) : State × ResultCode := (s, .unknownCommand)

/-- UNKNOWN_COMMAND (R166). A word with a listed code is ill formed here, and is only written into CMB,
where the command unit takes it by its code. -/
def execUnknownCommand (word : Word) (s : State) : Host.Outcome State Fault Refusal :=
  if listedCodes.contains (commandCode word) then .next (s.cmbStep word)
  else .next (s.commandStep word true State.unknownResult)

end Sys2Proof.Machine
end

