-- ==== Sys2Proof/Machine/Dispatch.lean ====
section
/-! DEFINITION. exec: one arm per command, each one direct call of its meaning. -/

namespace Sys2Proof.Machine

def exec (i : Instr) (s : State) : Host.Outcome State Fault Refusal :=
  match i with
  | .powerOnReset => Sys2Proof.Machine.execPowerOnReset s
  | .lineReset enable => Sys2Proof.Machine.execLineReset enable s
  | .interruptEnable enable => Sys2Proof.Machine.execInterruptEnable enable s
  | .overwrite word => Sys2Proof.Machine.execOverwrite word s
  | .registerWrite address size value => Sys2Proof.Machine.execRegisterWrite address size value s
  | .nmbRead => Sys2Proof.Machine.execNmbRead s
  | .unknownCommand word => Sys2Proof.Machine.execUnknownCommand word s
  | .takeTables arg => Sys2Proof.Machine.execTakeTables arg s
  | .setDate arg => Sys2Proof.Machine.execSetDate arg s
  | .run arg => Sys2Proof.Machine.execRun arg s
  | .stopLine arg => Sys2Proof.Machine.execStopLine arg s
  | .clearStatus arg => Sys2Proof.Machine.execClearStatus arg s
  | .postNote arg => Sys2Proof.Machine.execPostNote arg s
  | .withdrawNote arg => Sys2Proof.Machine.execWithdrawNote arg s
  | .releaseEntry arg => Sys2Proof.Machine.execReleaseEntry arg s
  | .bayHold arg => Sys2Proof.Machine.execBayHold arg s
  | .bayResume arg => Sys2Proof.Machine.execBayResume arg s
  | .bayAbort arg => Sys2Proof.Machine.execBayAbort arg s
  | .bayZero arg => Sys2Proof.Machine.execBayZero arg s
  | .takeOutOfService arg => Sys2Proof.Machine.execTakeOutOfService arg s
  | .serviceLine arg => Sys2Proof.Machine.execServiceLine arg s
  | .returnToService arg => Sys2Proof.Machine.execReturnToService arg s
  | .laneClear arg => Sys2Proof.Machine.execLaneClear arg s
  | .eStopAsserted => Sys2Proof.Machine.execEStopAsserted s
  | .eStopReleased => Sys2Proof.Machine.execEStopReleased s
  | .lineSecondsAdvance => Sys2Proof.Machine.execLineSecondsAdvance s
  | .zeroValidityLapse n => Sys2Proof.Machine.execZeroValidityLapse n s
  | .readerCharacter l value stopGood => Sys2Proof.Machine.execReaderCharacter l value stopGood s
  | .readerBreak l => Sys2Proof.Machine.execReaderBreak l s
  | .arrival l => Sys2Proof.Machine.execArrival l s
  | .noteWaitExpiry l => Sys2Proof.Machine.execNoteWaitExpiry l s
  | .bayAllocation l => Sys2Proof.Machine.execBayAllocation l s
  | .claimGrant => Sys2Proof.Machine.execClaimGrant s
  | .outfeedHeadDispatch => Sys2Proof.Machine.execOutfeedHeadDispatch s
  | .loadingEnd n => Sys2Proof.Machine.execLoadingEnd n s
  | .trackEye l => Sys2Proof.Machine.execTrackEye l s
  | .outfeedEye => Sys2Proof.Machine.execOutfeedEye s
  | .exitEye e => Sys2Proof.Machine.execExitEye e s
  | .transferJam t => Sys2Proof.Machine.execTransferJam t s
  | .bayInputChange n input level => Sys2Proof.Machine.execBayInputChange n input level s
  | .fillLimitExpiry n => Sys2Proof.Machine.execFillLimitExpiry n s
  | .grant => Sys2Proof.Machine.execGrant s
  | .grantAtBay n => Sys2Proof.Machine.execGrantAtBay n s
  | .intensifierRelease n => Sys2Proof.Machine.execIntensifierRelease n s
  | .retuneExpiry x => Sys2Proof.Machine.execRetuneExpiry x s
  | .faultInputChange x level => Sys2Proof.Machine.execFaultInputChange x level s
  | .samplePair n pressure gauge => Sys2Proof.Machine.execSamplePair n pressure gauge s
  | .riseLimitExpiry n => Sys2Proof.Machine.execRiseLimitExpiry n s
  | .holdExpiry n => Sys2Proof.Machine.execHoldExpiry n s
  | .releaseLimitExpiry n => Sys2Proof.Machine.execReleaseLimitExpiry n s
  | .settleExpiry n => Sys2Proof.Machine.execSettleExpiry n s
  | .pressurisedLimitExpiry n => Sys2Proof.Machine.execPressurisedLimitExpiry n s
  | .checkExpiry n => Sys2Proof.Machine.execCheckExpiry n s
  | .nestEye st => Sys2Proof.Machine.execNestEye st s
  | .stationNestEyeOff st => Sys2Proof.Machine.execStationNestEyeOff st s
  | .orderOffer st => Sys2Proof.Machine.execOrderOffer st s
  | .guardClosedChange level => Sys2Proof.Machine.execGuardClosedChange level s
  | .stationReadyChange st level => Sys2Proof.Machine.execStationReadyChange st level s
  | .taken st level => Sys2Proof.Machine.execTaken st level s
  | .takeLimitExpiry st => Sys2Proof.Machine.execTakeLimitExpiry st s
  | .doneStrobe st result change => Sys2Proof.Machine.execDoneStrobe st result change s
  | .workLimitExpiry st => Sys2Proof.Machine.execWorkLimitExpiry st s
  | .ejectBegin st => Sys2Proof.Machine.execEjectBegin st s

end Sys2Proof.Machine
end

