-- ==== Sys2Proof/Machine/CommandUnit.lean ====
section
/-! DEFINITION. The command unit with no command queued (R165 to R167): it takes the word that waits in CMB. -/

namespace Sys2Proof.Machine

/-- What the block does with no command queued: the command unit takes the word in a full CMB by its code (R165 to R167), and
with CMB empty the block idles. That the word is taken then, where no command row took it before, is the model's choice
(log 12). -/
def idleStep (s : State) : Host.Outcome State Fault Refusal :=
  if s.cmbFull then exec (commandOfWord s.cmbWord) s else .next s

end Sys2Proof.Machine
end

