-- ==== Sys2Proof/Machine/Step.lean ====
section
/-! DEFINITION. One step: the command at the front of the queue is executed on the state with the queue's rest; with no command
queued, the command unit takes the word that waits in CMB. -/

namespace Sys2Proof.Machine

/-- One step: the command at the front of the queue, or what the block does without one. -/
def step (s : State) : Host.Outcome State Fault Refusal :=
  match s.pending with
  | [] => idleStep s
  | c :: rest => exec c { s with pending := rest }

/-- The state with the command that a table word spells put at the front of its queue; unchanged where it spells none. -/
def State.withFetchWord (s : State) (nbits w : Nat) : State :=
  match decodeTableWord nbits w with
  | some c => { s with pending := c :: s.pending }
  | none => s

end Sys2Proof.Machine
end

