-- ==== Sys2Proof/Safety.lean ====
section
/-! DEFINITION. The terms the statements use: that a command completes, which parts of the state a step leaves alone, the
answer of a command in STAT, and the invariants every step keeps. -/

namespace Sys2Proof.Machine

/-! ## Completion -/

/-- The command completes: it answers a next state, neither a fault nor a refusal. -/
def Completes (c : Instr) (s : State) : Prop := ∃ t, exec c s = .next t

/-- The command answers a next state, and that state satisfies `P`. -/
def Gives (c : Instr) (s : State) (P : State → Prop) : Prop := ∃ t, exec c s = .next t ∧ P t

/-! ## Frames -/

/-- The parts of the state. Every field of `State` belongs to one part, but the edit counts of the header and of the block
records, the line computer's overlay of the RQ4's records (`Published`), and `justEmptied` (O3, O13, `Answered`). -/
inductive Part where
  | queue
  | runState
  | eStopInput
  | lineSeconds
  | mailbox
  | overwriteFlag
  | alertSeen
  | interruptEnable
  | busReadData
  | interruptPulses
  | notices
  | settings
  | types
  | templates
  | date
  | reader (l : LaneId)
  | expect
  | entry (i : RosterIndex)
  | freeCount
  | lane (l : LaneId)
  | outfeed
  | exits
  | claims
  | bay (n : BayId)
  | requests
  | releases
  | intensifier (i : IntensifierId)
  | station (st : StationId)
  | guardClosed
  | choices
  | slotCount (k : SlotId)
  | store
deriving DecidableEq, Repr

/-- A lane but for its record's edit count. -/
def Lane.bare (x : Lane) : Lane := { x with editCount := 0#8 }

/-- An intensifier but for its record's edit count. -/
def Intensifier.bare (x : Intensifier) : Intensifier := { x with editCount := 0#8 }

/-- A bay but for its record's edit count. -/
def Bay.bare (b : Bay) : Bay := { b with editCount := 0#8 }

/-- A station but for its record's edit count. -/
def Station.bare (x : Station) : Station := { x with editCount := 0#8 }

/-- The line computer reads every byte outside the RQ4's records, the note board included, as before. -/
def SameStore (s t : State) : Prop := ∀ a, recordAt a = none → t.storeByte a = s.storeByte a

/-- A part of the state is the same after a step. -/
def Same : Part → State → State → Prop
  | .queue, s, t => t.pending = s.pending
  | .runState, s, t => t.runState = s.runState
  | .eStopInput, s, t => t.eStopInput = s.eStopInput
  | .lineSeconds, s, t => t.lineSeconds = s.lineSeconds
  | .mailbox, s, t =>
    t.cmbWord = s.cmbWord ∧ t.cmbFull = s.cmbFull ∧ t.lastCommand = s.lastCommand ∧ t.lastResult = s.lastResult
  | .overwriteFlag, s, t => t.overwriteFlag = s.overwriteFlag
  | .alertSeen, s, t => t.alertSeen = s.alertSeen
  | .interruptEnable, s, t => t.interruptEnable = s.interruptEnable
  | .busReadData, s, t => t.busReadData = s.busReadData
  | .interruptPulses, s, t => t.interruptPulses = s.interruptPulses
  | .notices, s, t => t.notices = s.notices ∧ t.nmb = s.nmb
  | .settings, s, t => t.settings = s.settings ∧ t.tablesHeld = s.tablesHeld ∧ t.firstBad = s.firstBad
  | .types, s, t => t.types = s.types ∧ t.typeMask = s.typeMask
  | .templates, s, t => t.templates = s.templates ∧ t.templateMask = s.templateMask
  | .date, s, t => t.date = s.date
  | .reader l, s, t => t.reader l = s.reader l
  | .expect, s, t => t.expect = s.expect
  | .entry i, s, t => t.entry i = s.entry i
  | .freeCount, s, t => t.freeCount = s.freeCount
  | .lane l, s, t => (t.lane l).bare = (s.lane l).bare
  | .outfeed, s, t =>
    t.outfeedState = s.outfeedState ∧ t.outfeedQueue = s.outfeedQueue ∧
      t.outfeedHeadInFlight = s.outfeedHeadInFlight
  | .exits, s, t => t.exits = s.exits
  | .claims, s, t => t.claims = s.claims
  | .bay n, s, t => t.bay n = s.bay n
  | .requests, s, t => t.requests = s.requests
  | .releases, s, t => t.releases = s.releases
  | .intensifier i, s, t => (t.intensifier i).bare = (s.intensifier i).bare
  | .station st, s, t => (t.station st).bare = (s.station st).bare
  | .guardClosed, s, t => t.guardClosed = s.guardClosed
  | .choices, s, t => t.choices = s.choices
  | .slotCount k, s, t => t.slotCounts[k] = s.slotCounts[k]
  | .store, s, t => SameStore s t

/-- Every part of the state but the parts listed is the same after a step. -/
def Frame (changed : List Part) (s t : State) : Prop := ∀ p, p ∉ changed → Same p s t

/-- The six bays as parts. -/
def bayParts : List Part := allBays.map Part.bay

/-- The roster entry of an item as a part. -/
def itemParts : Item → List Part
  | .entry i => [.entry i]
  | .marker => []

/-! ## What the line computer reads of the records (R163, R164) -/

/-- After a step from `s` to `t` every byte of a record reads as the RQ4 holds it, or, where the step left the record
unedited, as it read before. -/
def Published (s t : State) : Prop :=
  ∀ a r, recordAt a = some r →
    t.storeByte a = (if s.sameRecord t a then s.storeByte a else (t.recordBytes r).getD (a - r.base) 0x00#8)

/-! ## Commands (R166) -/

/-- The code and the argument of a command of the command list (R167). -/
def commandOf : Instr → Option (Byte × BitVec 24)
  | .takeTables arg => some (0x01#8, arg)
  | .setDate arg => some (0x02#8, arg)
  | .run arg => some (0x03#8, arg)
  | .stopLine arg => some (0x04#8, arg)
  | .clearStatus arg => some (0x05#8, arg)
  | .postNote arg => some (0x10#8, arg)
  | .withdrawNote arg => some (0x11#8, arg)
  | .releaseEntry arg => some (0x12#8, arg)
  | .bayHold arg => some (0x20#8, arg)
  | .bayResume arg => some (0x21#8, arg)
  | .bayAbort arg => some (0x22#8, arg)
  | .bayZero arg => some (0x23#8, arg)
  | .takeOutOfService arg => some (0x24#8, arg)
  | .serviceLine arg => some (0x25#8, arg)
  | .returnToService arg => some (0x30#8, arg)
  | .laneClear arg => some (0x31#8, arg)
  | _ => none

/-- The commands that are taken in AWAITING TABLES: TAKE TABLES, SET DATE and CLEAR STATUS (R166). -/
def exemptCode (code : Byte) : Bool := decide (code = 0x01#8) || decide (code = 0x02#8) || decide (code = 0x05#8)

/-- The command unit takes the command and consults its owner: CMB holds no other word, and the run state is not AWAITING
TABLES (R165, R166). -/
def Heard (code : Byte) (arg : BitVec 24) (s : State) : Prop :=
  s.cmbBlocked (commandWord code arg) = false ∧ s.runState ≠ .awaitingTables

/-- STAT shows the command with its result, and CMB has just become empty (R166; log 31). -/
def Answered (code : Byte) (arg : BitVec 24) (result : ResultCode) (t : State) : Prop :=
  t.cmbWord = commandWord code arg ∧ t.cmbFull = false ∧ t.lastCommand = code ∧ t.lastResult = result ∧
    t.justEmptied = true

/-- The command is answered with a result and has no other effect. -/
def AnsweredOnly (code : Byte) (arg : BitVec 24) (result : ResultCode) (s t : State) : Prop :=
  Answered code arg result t ∧ Frame [.mailbox] s t

/-- The drain test of R177 has been made: in STOPPING the run state is READY once the hall has drained, and otherwise it is
as before. -/
def DrainTested (s t : State) : Prop :=
  t.runState = if s.runState = .stopping ∧ t.drained = true then .ready else s.runState

/-- The infeed permit of a lane is as its conditions give (R71). -/
def PermitSet (t : State) (l : LaneId) : Prop := (t.lane l).permit = t.permitHolds l

/-- A notice stands in NMB or in the notice list. -/
def Waiting (x : Notice) (t : State) : Prop := t.nmb = some x ∨ x ∈ t.notices

/-- An alert has been handed over: it waits, and ALERT SEEN is set (R169). -/
def Alerted (source : Nat) (code : AlertCode) (t : State) : Prop :=
  Waiting (.alert source code) t ∧ t.alertSeen = true

/-- No release and no request of a bay is with the arbiter. -/
def Unqueued (n : BayId) (s : State) : Prop := (∀ r ∈ s.releases, r.bay ≠ n) ∧ ∀ r ∈ s.requests, r.bay ≠ n

/-- The outputs of a bay with a cylinder that stands closed: DOOR alone (R93). -/
def doorOnly : BayOutputs := ⟨false, false, false, false, false, true, false⟩

/-- The outputs of a bay that vents with its door closed: VENT and DOOR (R93). -/
def ventAndDoor : BayOutputs := ⟨false, false, true, false, false, true, false⟩

/-- The outputs of a zero check: VENT and BURETTE DRAIN, and DOOR while a cylinder is held (R93). -/
def checkOutputs (cylinder : Bool) : BayOutputs := ⟨false, false, true, false, false, cylinder, true⟩

/-! ## Note slots -/

/-- The note unit has edited a slot once: its state, refusal reason and roster index are written, its edit count is two
higher, and every other byte outside the records reads as before (R53, R163, R184; log 38). -/
def SlotEdited (k : SlotId) (state reason index : Byte) (s t : State) : Prop :=
  t.storeByte (slotBase k + 0x01) = state ∧ t.storeByte (slotBase k + 0x11) = reason ∧
    t.storeByte (slotBase k + 0x12) = index ∧ t.storeByte (slotBase k) = s.slotCounts[k] + 2#8 ∧
    t.slotCounts[k] = s.slotCounts[k] + 2#8 ∧
    ∀ a, recordAt a = none → a ≠ slotBase k → a ≠ slotBase k + 0x01 → a ≠ slotBase k + 0x11 →
      a ≠ slotBase k + 0x12 → t.storeByte a = s.storeByte a

/-- A character of a serial: '0' to '9' or 'A' to 'Z' (R41, R58). -/
def SerialChar (b : Byte) : Prop := (0x30 ≤ b.toNat ∧ b.toNat ≤ 0x39) ∨ (0x41 ≤ b.toNat ∧ b.toNat ≤ 0x5A)

/-- The serial field of a slot as it stands in the store (R53, R184). -/
def slotText (s : State) (k : SlotId) : List Byte := (List.range 12).map (fun j => s.storeByte (slotBase k + 2 + j))

/-- An entry in AWAITING NOTE carries a serial (R59). -/
def AwaitsNote (i : RosterIndex) (serial : List Byte) (s : State) : Prop :=
  (s.entry i).state = .awaitingNote ∧ (s.entry i).serial = some serial

/-- The expect table holds a note from a slot (R57). -/
def Expected (k : SlotId) (s : State) : Prop := ∃ note ∈ s.expect, note.slot = k

/-- The bytes of a slot that a reset writes: EMPTY, the edit count, the content, the reason and the index absent (R66). -/
def SlotReset (k : SlotId) (count : Byte) (t : State) : Prop :=
  t.storeByte (slotBase k) = count ∧ t.storeByte (slotBase k + 1) = 0#8 ∧
    (∀ o, 0x02 ≤ o → o ≤ 0x12 → t.storeByte (slotBase k + o) = 0xFF#8) ∧
    ∀ o, 0x13 ≤ o → o < 0x20 → t.storeByte (slotBase k + o) = 0#8

/-! ## Resets -/

/-- What a reset leaves of a bay, but for its state, its outputs, its running check, its zero reference, its checks owed and
its input levels (R121). -/
def ResetBay (b : Bay) : Prop :=
  b.index = none ∧ (b.pressurised = false ∧ b.lapsed = false ∧ b.aborted = false ∧ b.ruptured = false) ∧
    (b.releaseCause = none ∧ b.suspendedFrom = none ∧ b.resume = none ∧ b.coupled = none ∧ b.faultCause = none) ∧
    (b.baseline = none ∧ b.holdStart = none ∧ b.peak = none ∧ b.et = none ∧ b.drop = none ∧ b.ep = none) ∧
    (b.latestPressure = 0 ∧ b.latestGauge = 0) ∧ (b.risePaused = none ∧ b.pressTimer = none ∧ b.loading = none) ∧
    (b.trace = emptyTrace ∧ b.traceIndex = 0 ∧ b.traceCount = 0 ∧ b.pairCount = 0) ∧
    (b.validity = 0 ∧ b.failures = 0 ∧ b.requested = false ∧ b.grants = [] ∧ b.kept = none ∧ b.sampleSeen = false)

/-- What a reset leaves of an intensifier whose FAULT input has a level (R144). -/
def ResetIntensifier (fault : Bool) (x : Intensifier) : Prop :=
  x.state = (if fault then .fault else .free) ∧ x.setpoint = none ∧ x.coupledBay = none ∧ x.requested = none ∧
    x.pendingOffline = false ∧ x.retuneExpiry = none ∧ x.faultInput = fault

/-- What a reset leaves of a station, its input levels apart (R160). -/
def ResetStation (x : Station) : Prop :=
  x.state = .idle ∧ x.nest = .empty ∧ x.index = none ∧ x.order = none ∧ x.mark = none ∧ x.bytePos = none ∧
    x.reoffer = 0 ∧ x.resultLatch = 0#4 ∧ x.ejectExit = none ∧ x.ejectBegun = false ∧ x.faultCause = none ∧
    x.limit = none ∧ x.loading = none ∧ x.orderReady = false ∧ x.orderBus = 0#8

/-- What a reset leaves of a roster entry: every field of a FREE entry (R1, R24; log 17). -/
def ResetEntry (count : Byte) (e : Entry) : Prop :=
  e = Entry.freeEntry count ∧ e.state = .free ∧ e.place = .nowhere ∧ e.serial = none ∧ e.arrivalTime = 0#32 ∧
    e.outcome = none ∧ e.countedVoids = 0 ∧ e.testsStarted = 0

/-- What a reset leaves of a lane (R68, R78, R90). -/
def ResetLane (x : Lane) : Prop :=
  x.state = .normal ∧ x.queue = [] ∧ x.headInFlight = false ∧ x.noteWait = none ∧ x.permit = false ∧ x.track = [] ∧
    x.trackOut = false

/-- What a reset leaves of a reader in a state (R51). -/
def ResetReader (state : ReaderState) (r : Reader) : Prop :=
  r.state = state ∧ r.frame = [] ∧ r.held = none ∧ r.badFrames = 0 ∧ r.duplicateReads = 0 ∧ r.overruns = 0

/-! ## Records as bytes (R181 to R185) -/

/-- The `k` bytes of a record from an offset on. -/
def fieldAt (bytes : List Byte) (offset k : Nat) : List Byte := (bytes.drop offset).take k

/-- The bytes an access writes (R162). -/
def widthOf : AccessSize → Nat
  | .byte => 1
  | .halfword => 2
  | .word => 4

/-! ## Bays after a state entry -/

/-- A bay in RELEASING with a release cause: VENT and DOOR on, the hold, rise and pressurised limits discarded, its request
withdrawn, its intensifier released, the release limit running (R93, R103). -/
def Bay.releasing (b : Bay) (cause : ReleaseCause) (expiry : Seconds) : Bay :=
  { b with
    state := .releasing
    outputs := ventAndDoor
    releaseCause := some cause
    suspendedFrom := none
    resume := none
    stepTimer := some expiry
    risePaused := none
    pressTimer := none
    requested := false
    coupled := none
    kept := none }

/-- A bay in UNLOADING, at rest (R93, R107, R110). -/
def Bay.unloading (b : Bay) : Bay :=
  { b with
    state := .unloading
    outputs := BayOutputs.rest
    releaseCause := none
    suspendedFrom := none
    resume := none
    stepTimer := none
    risePaused := none
    pressTimer := none
    kept := none }

/-- A bay in ZEROING with a resume point and its first check running (R93, R124). -/
def Bay.checking (b : Bay) (rp : Option ResumePoint) (expiry : Seconds) : Bay :=
  { b with
    state := .zeroing
    outputs := checkOutputs b.index.isSome
    resume := rp
    failures := 0
    releaseCause := none
    suspendedFrom := none
    stepTimer := some expiry
    risePaused := none
    pressTimer := none
    sampleSeen := false
    kept := none }

/-- A bay in SUSPENDED, the state it was held from recorded (R93, R111). -/
def Bay.held (b : Bay) (origin : SuspendedFrom) : Bay :=
  { b with
    state := .suspended
    outputs := doorOnly
    suspendedFrom := some origin
    stepTimer := none
    risePaused := none
    kept := none }

/-- A bay in AWAIT INTENSIFIER with its request placed (R93, R98). -/
def Bay.waiting (b : Bay) : Bay :=
  { b with
    state := .awaitIntensifier
    outputs := doorOnly
    resume := none
    suspendedFrom := none
    stepTimer := none
    requested := true
    kept := none }

/-- A bay in FAULT with its cause, every timer stopped (R93, R118). -/
def Bay.faultedWith (b : Bay) (cause : AlertCode) : Bay :=
  { b with
    state := .fault
    outputs := ⟨false, false, true, false, false, b.index.isSome, false⟩
    faultCause := some cause
    suspendedFrom := none
    stepTimer := none
    risePaused := none
    pressTimer := none
    requested := false
    kept := none }

/-- The bay has entered RELEASING (R103): its request is withdrawn, and a coupled intensifier is released. -/
def Releases (n : BayId) (cause : ReleaseCause) (s t : State) : Prop :=
  (t.bay n).bare = ((s.bay n).releasing cause (s.after 60)).bare ∧
    t.requests = s.requests.filter (fun r => decide (r.bay ≠ n)) ∧
    t.releases = s.releases ++ ((s.bay n).coupled.map (fun i => Release.mk n i)).toList

/-- The bay has entered ZEROING with its first check begun (R124). -/
def Checks (n : BayId) (rp : Option ResumePoint) (s t : State) : Prop :=
  (t.bay n).bare = ((s.bay n).checking rp (s.after 40)).bare

/-- A claimant stands in the claim list, the claims before it kept in their order (R81). -/
def Claimed (c : Claimant) (s t : State) : Prop :=
  t.claims = if c ∈ s.claims then s.claims else s.claims ++ [c]

/-- An entry that is live and routed TEST is held ABORTED; any other entry is as before (R20). -/
def AbortReported (i : RosterIndex) (s t : State) : Prop :=
  t.entry i =
    if (s.entry i).state.live = true ∧ (s.entry i).route = some .test then
      { s.entry i with
        route := some .hold
        holdReason := some .aborted
        editCount := (s.entry i).editCount + 2#8 }
    else s.entry i

/-- A bay in IDLE (R93, R110, R127). -/
def Bay.idling (b : Bay) : Bay :=
  { b with
    state := .idle
    outputs := BayOutputs.rest
    resume := none
    failures := 0
    releaseCause := none
    suspendedFrom := none
    stepTimer := none
    risePaused := none
    pressTimer := none
    kept := none }

/-- A bay in FILLING with its attempt's fields cleared and the fill limit running (R93, R97). -/
def Bay.fillingFrom (b : Bay) (expiry : Seconds) : Bay :=
  { b with
    state := .filling
    outputs := ⟨true, false, true, false, false, true, false⟩
    pressurised := false
    lapsed := false
    aborted := false
    ruptured := false
    baseline := none
    holdStart := none
    peak := none
    et := none
    drop := none
    ep := none
    releaseCause := none
    suspendedFrom := none
    resume := none
    stepTimer := some expiry
    risePaused := none
    pressTimer := none
    kept := none }

/-- The proactive trigger's condition in a state, for a bay with a validity: its lane's occupancy is at or below almost-empty,
and twice the validity is below the zero interval (R129). -/
def OldValidity (n : BayId) (validity : Nat) (t : State) : Prop :=
  (t.lane (laneOf n)).queue.length ≤ t.work.almostEmpty (laneOf n) ∧ validity * 2 < t.work.zeroInterval

/-- A bay after an occupancy report or new settings (R68, R129): an IDLE bay outside E-STOPPED that meets the proactive trigger's
condition after the event has entered ZEROING, and any other bay is as before. -/
def Proactive (n : BayId) (s t : State) : Prop :=
  ((s.bay n).state = .idle → s.runState ≠ .eStopped → OldValidity n (s.bay n).validity t → Checks n none s t) ∧
    ((s.bay n).state ≠ .idle ∨ s.runState = .eStopped ∨ ¬OldValidity n (s.bay n).validity t → t.bay n = s.bay n)

/-- The bay is told that its transfer out is over (R110): its index is cleared, and it enters FAULT with RUPTURE INSPECTION
when the ruptured flag is set; otherwise it enters IDLE, where the triggers of R129 may take it on to ZEROING. -/
def BayEmptied (n : BayId) (s t : State) : Prop :=
  let b := { s.bay n with index := none }
  (b.ruptured = true → (t.bay n).bare = (b.faultedWith .ruptureInspection).bare ∧
    Alerted (baySource n) .ruptureInspection t) ∧
  (b.ruptured = false → s.runState ≠ .eStopped →
    0 < b.checksOwed ∨ b.validity = 0 ∨ OldValidity n b.validity s →
    (t.bay n).bare = (b.checking none (s.after 40)).bare) ∧
  (b.ruptured = false →
    s.runState = .eStopped ∨ ¬(0 < b.checksOwed ∨ b.validity = 0 ∨ OldValidity n b.validity s) →
    (t.bay n).bare = b.idling.bare)

/-! ## The checks of TAKE TABLES (R26, R27) -/

/-- A check of the settings record passes: the twelve fields by their numbers, and 13, the roster fit test (R26, R27). -/
def SettingOk (s : State) (w : Settings) : Nat → Prop
  | 1 => w.stationCode.all isLiteral = true
  | 2 => 600 ≤ w.zeroInterval ∧ w.zeroInterval ≤ 7200
  | 3 => 1 ≤ w.driftLimit ∧ w.driftLimit ≤ 500
  | 4 => 5 ≤ w.noteWaitLimit ∧ w.noteWaitLimit ≤ 600
  | 5 => 20 ≤ w.riseLimit ∧ w.riseLimit ≤ 600
  | 6 => 10 ≤ w.settleTime ∧ w.settleTime ≤ 300
  | 7 => 120 ≤ w.pressurisedLimit ∧ w.pressurisedLimit ≤ 3600
  | 8 => 5 ≤ w.transferLimit ∧ w.transferLimit ≤ 60
  | 9 => 1 ≤ w.almostFullA ∧ w.almostFullA ≤ 11
  | 10 => 1 ≤ w.almostFullB ∧ w.almostFullB ≤ 11
  | 11 => w.almostEmptyA ≤ 10 ∧ w.almostEmptyA < w.almostFullA
  | 12 => w.almostEmptyB ≤ 10 ∧ w.almostEmptyB < w.almostFullB
  | 13 => ∀ (i : RosterIndex) (p : Params), (s.entry i).route = some .test → (s.entry i).params = some p →
      p.holdTime + w.riseLimit + w.settleTime + 120 ≤ w.zeroInterval ∧
        p.holdTime + w.riseLimit + 15 ≤ w.pressurisedLimit
  | _ => True

/-! ## Lanes and entries after an event -/

/-- A lane of which a step has changed the infeed permit alone, as its conditions give (R71). -/
def PermitOnly (l : LaneId) (s t : State) : Prop :=
  (t.lane l).bare = { s.lane l with permit := t.permitHolds l }.bare

/-- The note-wait timer of a lane whose head has just come to the head position (R72). -/
def headTimer (t : State) (l : LaneId) : Option NoteWait :=
  match (t.lane l).queue.head? with
  | some (.entry j) =>
    if (t.entry j).state = .awaitingNote then some ⟨t.work.noteWaitLimit, t.after t.work.noteWaitLimit⟩ else none
  | _ => none

/-- A lane's head claims outfeed room: the marker, and a QUEUED entry with route HOLD, PASS-THROUGH or DEFACE (R72). -/
def headClaims (t : State) (l : LaneId) : Prop :=
  match (t.lane l).queue.head? with
  | some .marker => True
  | some (.entry j) =>
    (t.entry j).state = .queued ∧
      ((t.entry j).route = some .hold ∨ (t.entry j).route = some .passThrough ∨ (t.entry j).route = some .deface)
  | none => False

/-- A lane has acted on the item that came to its head: the note wait starts, or a NORMAL lane's claim joins the claims
`before` (R72, R81). -/
def HeadActed (l : LaneId) (before : List Claimant) (t : State) : Prop :=
  (t.lane l).noteWait = headTimer t l ∧
    ((t.lane l).state = .normal → headClaims t l →
      t.claims = if Claimant.lane l ∈ before then before else before ++ [.lane l]) ∧
    ((t.lane l).state = .fault ∨ ¬headClaims t l → t.claims = before)

/-- The other lane. -/
def otherLane : LaneId → LaneId
  | .a => .b
  | .b => .a

/-- An entry after one edit (R163). -/
def Entry.edited (e : Entry) : Entry := { e with editCount := e.editCount + 2#8 }

/-- An entry is closed with an outcome, and its OUTCOME notice waits (R22). -/
def Closed (i : RosterIndex) (code : OutcomeCode) (reason : Reason) (s t : State) : Prop :=
  t.entry i = { s.entry i with
      outcome := some (code, reason)
      doneTime := some s.lineSeconds
      place := .nowhere
      state := .done }.edited ∧
    Waiting (.outcome i code reason) t

/-- A jammed transfer's entry is closed MISSING, TRANSFER JAM (R76). -/
def JamClosed (item : Item) (s t : State) : Prop :=
  ∀ i, item = .entry i → (s.entry i).state = .queued ∨ (s.entry i).state = .testing ∨ (s.entry i).state = .outbound →
    Closed i .missing .transferJam s t

/-- The entry of a transfer has arrived at a place (R16). -/
def ArrivedAt (item : Item) (place : Place) (s t : State) : Prop :=
  ∀ i, item = .entry i → (s.entry i).state.live = true → t.entry i = { s.entry i with place := place }.edited

/-- The transfer of a cylinder begun now with the working transfer limit (R74). -/
def begunTransit (s : State) (item : Item) (source : TransferSource) : Transit :=
  ⟨item, source, s.work.transferLimit, some (s.after s.work.transferLimit), false⟩

/-- The bay is IDLE, its PRESENT eye is off, and its validity is at least an allowance (R95). -/
def Available (n : BayId) (allowance : Nat) (s : State) : Prop :=
  (s.bay n).state = .idle ∧ (s.bay n).present = false ∧ allowance ≤ (s.bay n).validity

/-- The bays of a lane's group as parts. -/
def groupParts (l : LaneId) : List Part := (groupOf l).map Part.bay

/-- Every roster entry as a part. -/
def entryParts : List Part := (List.finRange 48).map Part.entry

/-- A bay has taken a candidate (R74, R95): LOADING at rest, the candidate's index recorded and its loading transfer begun. -/
def Bay.takes (b : Bay) (i : RosterIndex) (t : Transit) : Bay :=
  { b with
    state := .loading
    outputs := BayOutputs.rest
    stepTimer := none
    kept := none
    index := some i
    loading := some t }

/-- An entry whose transfer to a destination has begun (R16). -/
def Entry.leaving (e : Entry) (state : RosterState) : Entry := { e with place := .inTransfer, state := state }

/-! ## Samples, voids and stations -/

/-- A bay after a sample pair (R94): the latest values, and the peak from the first PRESSURISING entry of an attempt on. -/
def Bay.sees (b : Bay) (p g : Nat) : Bay :=
  { b with
    latestPressure := p
    latestGauge := g
    sampleSeen := true
    peak :=
      if b.state = .pressurising ∨ b.state = .holding ∨
          (b.state = .suspended ∨ b.state = .awaitIntensifier) ∧ b.pressurised = true then
        some (max p (b.peak.getD 0))
      else b.peak }

/-- The test allowance of the cylinder a bay holds is above its validity once that has counted down by one (R98, R123). -/
def FallsShort (n : BayId) (s : State) : Prop :=
  ∃ p, s.bayParams n = some p ∧ 0 < (s.bay n).validity ∧ (s.bay n).validity ≤ s.allowance p

/-- The track has room (R79). -/
def TrackRoom (l : LaneId) (s : State) : Prop :=
  (s.lane l).state = .normal ∧ s.runState ≠ .eStopped ∧ (s.lane l).track.length < 3

/-- A void with cause `c` and measurement set `m` has been reported for entry `i`, routed TEST, and bay `n`, which then stood as
`b`, has acted on the answer (R18, R108): unloading with a claim once the retests are exhausted; onto the track; a retest in
place by the fill step; or, while the run state is E-STOPPED, waiting for the release. `toTrack` says that the cause calls
for the unload decision. -/
def ActedOnVoid (n : BayId) (i : RosterIndex) (c : VoidCause) (m : Option Measurements) (toTrack : Prop) (b : Bay)
    (s t : State) : Prop :=
  let e := ((s.entry i).voided s.lineSeconds c m).edited
  let exhausted := c.counted = true ∧ (s.entry i).countedVoids = 2
  (exhausted → (t.bay n).bare = b.unloading.bare ∧ Claimed (.bay n) s t ∧ t.entry i = e) ∧
  (¬exhausted → toTrack → TrackRoom (laneOf n) s →
    (t.bay n).bare = b.unloading.bare ∧
      (t.lane (laneOf n)).track =
        (s.lane (laneOf n)).track ++ [.reserved (begunTransit s (.entry i) (.bay n))] ∧
      t.entry i = (e.leaving .queued).edited) ∧
  (¬exhausted → ¬(toTrack ∧ TrackRoom (laneOf n) s) → s.runState = .eStopped →
    (t.bay n).bare = { b with
      kept := some .fillStep
      stepTimer := none
      outputs := { b.outputs with vent := true, fill := false } }.bare ∧ t.entry i = e) ∧
  (¬exhausted → ¬(toTrack ∧ TrackRoom (laneOf n) s) → s.runState ≠ .eStopped →
    0 < b.checksOwed ∨ s.short n = true →
    (t.bay n).bare = (b.checking (some .fill) (s.after 40)).bare ∧ t.entry i = e) ∧
  (¬exhausted → ¬(toTrack ∧ TrackRoom (laneOf n) s) → s.runState ≠ .eStopped → b.checksOwed = 0 →
    s.short n = false →
    t.entry i = { e with
      testsStarted := min 15 (e.testsStarted + 1)
      meas := Measurements.absent }.edited ∧
    ((b.full = false ∨ b.doorClosed = false) → (t.bay n).bare = (b.fillingFrom (s.after 60)).bare) ∧
    (b.full = true → b.doorClosed = true → (t.bay n).state = .awaitIntensifier ∧
      (t.bay n).baseline = some b.latestGauge ∧ ∃ r ∈ t.requests, r.bay = n))

/-- The parts that acting on a void can change. -/
def voidActionParts (n : BayId) (i : RosterIndex) : List Part :=
  [.lane (laneOf n), .claims, .bay n, .requests, .releases, .intensifier .one, .intensifier .two, .entry i, .runState]

/-- A bay whose attempt has begun and is not under pressure: FILLING, or AWAIT INTENSIFIER or SUSPENDED with the pressurised flag
clear (R119). -/
def Bay.unpressurisedAttempt (b : Bay) : Prop :=
  b.state = .filling ∨ (b.state = .awaitIntensifier ∨ b.state = .suspended) ∧ b.pressurised = false

/-- A bay in ZEROING whose attempt is still open: its resume point is REQUEST or SUSPEND (R109, R132). -/
def Bay.openCheck (b : Bay) : Prop := b.state = .zeroing ∧ (b.resume = some .request ∨ b.resume = some .suspend)

/-- In FILLING, SETTLING, ZEROING and FAULT, whether the bay's attempt has not yet had its verdict, void or abort (R106): in FILLING
and SETTLING unless a step is kept for the release of an E-STOP, in ZEROING with resume point REQUEST or SUSPEND, and in FAULT
while a release cause stands (R117). -/
def Bay.attemptUnended (b : Bay) : Prop :=
  (b.state = .filling ∨ b.state = .settling) ∧ b.kept = none ∨ b.openCheck ∨
    b.state = .fault ∧ b.releaseCause.isSome = true

/-- A transfer is in flight at its owner: loading a bay or a station's nest, reserved on a track or in the outfeed, or on its way
to an exit (R74). -/
def InFlight (x : Transit) (s : State) : Prop :=
  (∃ n, (s.bay n).loading = some x) ∨ (∃ l, .reserved x ∈ (s.lane l).track) ∨ .reserved x ∈ s.outfeedQueue ∨
    (∃ y ∈ s.exits, y.transit = x) ∨ ∃ st, (s.station st).loading = some x

/-- An intensifier has entered FAULT (R138). -/
def Intensifier.faulted (x : Intensifier) : Intensifier :=
  { x with
    state := .fault
    setpoint := none
    coupledBay := none
    requested := none
    retuneExpiry := none
    pendingOffline := false }

/-- An offering is broken off (R151, R152, R156). -/
def Station.silenced (x : Station) : Station := { x with orderReady := false, limit := none, bytePos := none }

/-- A station in EJECTING with its exit recorded (R154). -/
def Station.ejecting (x : Station) (exit : Exit) : Station :=
  { x with
    state := .ejecting
    nest := .outgoing
    ejectExit := some exit
    order := none
    mark := none
    limit := none }

/-- A station after its eject is over (R157). -/
def Station.emptied (x : Station) : Station :=
  { x with
    ejectBegun := false
    nest := .empty
    index := none
    ejectExit := none
    state :=
      if x.state = .ejecting then (if x.faultCause = none then .idle else .fault) else x.state }

/-- The cylinder on a station's nest is reported uncertain (R20, R154): its route becomes HOLD with the station's reason. -/
def DoubtReported (st : StationId) (i : RosterIndex) (s t : State) : Prop :=
  (s.entry i).state.live = true → (s.entry i).route = some (if st = StationId.stamper then Route.stamp else Route.deface) →
    t.entry i = { s.entry i with
      route := some .hold
      holdReason := some (if st = StationId.stamper then Reason.markUncertain else Reason.defaceUncertain) }.edited

/-- The exclusive-OR of the bytes of an order before its last equals its last (R149). -/
def checkedOrder (l : List Byte) : Prop := l.dropLast.foldl (fun a b => a ^^^ b) 0x00#8 = l.getLastD 0x00#8

/-! ## Invariants -/

/-- Each transfer in flight comes from a source of its owner's paths (R74): a bay loads from the heads of its lane and its track, a
track receives from the bays of its group, the outfeed from the bays and the lanes, a nest from the outfeed head, and an exit from
the outfeed head and the stations. -/
def SourcesAgree (s : State) : Prop :=
  (∀ n x, (s.bay n).loading = some x → x.source = .laneHead (laneOf n) ∨ x.source = .trackHead (laneOf n)) ∧
    (∀ l x, .reserved x ∈ (s.lane l).track → ∃ n, laneOf n = l ∧ x.source = .bay n) ∧
    (∀ x, .reserved x ∈ s.outfeedQueue → (∃ n, x.source = .bay n) ∨ ∃ l, x.source = .laneHead l) ∧
    (∀ st x, (s.station st).loading = some x → x.source = .outfeedHead) ∧
    ∀ x ∈ s.exits, x.transit.source = .outfeedHead ∨ ∃ st, x.transit.source = .station st

/-- The bounded queues and counts: lane queues of at most 12 items, tracks of at most 3 and an outfeed of at most 8
positions; each bay at most once in the request queue; at most 2 counted voids of an entry, and at most 2 checks owed by
a bay; no two notes of the expect table with one serial or one slot, and none with the serial of an AWAITING NOTE entry;
one eject in flight for a station whose eject has begun, and none for any other; and every transfer's source agreeing with its
owner (R7, R18, R55, R68, R74, R78, R80, R122, R134, R157). -/
def Bounded (s : State) : Prop :=
  (∀ l, (s.lane l).queue.length ≤ Config.laneCapacity ∧ (s.lane l).track.length ≤ Config.trackCapacity) ∧
    s.outfeedQueue.length ≤ Config.outfeedCapacity ∧
    s.claims.Nodup ∧
    (s.requests.map Request.bay).Nodup ∧
    (∀ i, (s.entry i).countedVoids ≤ 2 ∧ (s.entry i).testsStarted ≤ 15) ∧
    (∀ n, (s.bay n).checksOwed ≤ 2 ∧ (s.bay n).failures ≤ 1 ∧ (s.bay n).traceIndex < 64 ∧ (s.bay n).traceCount ≤ 255) ∧
    ((s.expect.map Note.slot).Nodup ∧ (s.expect.map Note.serial).Nodup ∧
      ∀ note ∈ s.expect, ∀ i, ¬AwaitsNote i note.serial s) ∧
    (∀ st, (s.exits.filter (fun x => decide (x.transit.source = .station st))).length =
      if (s.station st).ejectBegun then 1 else 0) ∧
    SourcesAgree s

/-- The number of FREE entries (R9). -/
def State.countFree (s : State) : Nat := ((List.finRange 48).filter (fun i => decide ((s.entry i).state = .free))).length

/-- The free count is the number of FREE entries (R9). -/
def FreeCounted (s : State) : Prop := s.freeCount = s.countFree

/-- Each infeed permit is as its conditions give (R71). -/
def PermitsHeld (s : State) : Prop := ∀ l, PermitSet s l

/-- Every edit count is even: no edit is in progress between two steps (R163). -/
def EvenCounts (s : State) : Prop :=
  (∀ r, (s.editCount r).getLsbD 0 = false) ∧ ∀ k : SlotId, s.slotCounts[k].getLsbD 0 = false

/-- The store's bytes are held in their canonical form. -/
def StoreFormed (s : State) : Prop := s.memWf = true

end Sys2Proof.Machine
end

