-- ==== Sys2Proof/Certificates/Slice0/Obligations.lean ====
section
/-! DEFINITION. The statements about the RQ4's commands that the provers settle, one definition each. -/

open Sys2Proof Sys2Proof.Machine

/-! ## The queue of commands and the whole of a step -/

/-- O1. A step takes the command at the front of the queue and executes it on the state with the queue's rest. On an empty queue
the command unit takes the word in a full CMB: the word's code picks the command, and a code outside the list is an unknown
command; with CMB empty the block idles. What is done on an empty queue is the model's choice: log 12. -/
def Obligations.QueueStep : Prop :=
  (∀ (c : Instr) (rest : List Instr) (s : State),
    s.pending = c :: rest → step s = exec c { s with pending := rest }) ∧
  (∀ s : State, s.pending = [] → s.cmbFull = true → step s = exec (commandOfWord s.cmbWord) s) ∧
  (∀ s : State, s.pending = [] → s.cmbFull = false → step s = .next s) ∧
  (∀ (c : Instr) (code : Byte) (arg : BitVec 24), commandOf c = some (code, arg) →
    commandOfWord (commandWord code arg) = c) ∧
  ∀ word : Word, commandCode word ∉ listedCodes → commandOfWord word = .unknownCommand word

/-- O2. The bits of STAT, CMB and the words of NMB, and the codes and byte layouts of the records: each field of the header, of
a lane, bay, intensifier and station record, of a roster entry and of a trace ring at its offset, little-endian, absent fields
FFh and unassigned bytes 00h; where each record lies; and the source numbers. That the model holds every field in this form at
every moment, and that a station in FAULT shows no limit, are its own: logs 10, 11 and 42. -/
def Obligations.RegisterWords : Prop :=
  (∀ s : State,
    let w := s.hostRead 0x10008 .word
    s.hostRead 0x10000 .word = s.cmbWord ∧ w.getLsbD 0 = s.cmbFull ∧ w.getLsbD 1 = s.nmb.isSome ∧
      w.toNat / 0x10 % 8 = s.runState.code ∧ w.getLsbD 8 = s.overwriteFlag ∧ w.getLsbD 9 = s.alertSeen ∧
      w.toNat / 0x10000 % 16 = s.lastResult.code ∧ w.toNat / 0x1000000 = s.lastCommand.toNat ∧
      ∀ k ∈ [2, 3, 7, 10, 11, 12, 13, 14, 15, 20, 21, 22, 23], w.getLsbD k = false) ∧
  (∀ (i : RosterIndex) (code : OutcomeCode) (reason : Reason),
    (Notice.outcome i code reason).word.toNat = ((1 * 0x100 + i.val) * 0x100 + code.code) * 0x100 + reason.code) ∧
  (∀ (source : Nat) (code : AlertCode), source < 16 →
    (Notice.alert source code).word.toNat = (2 * 0x100 + source) * 0x10000 + code.code) ∧
  [RunState.awaitingTables, .ready, .running, .stopping, .eStopped].map RunState.code = [0, 1, 2, 3, 4] ∧
  [ResultCode.accepted, .unknownCommand, .badArgument, .wrongState, .duplicate, .tooLate, .notReady, .tableError].map
    ResultCode.code = [0, 1, 2, 3, 4, 5, 6, 7] ∧
  ([RosterState.free, .awaitingNote, .queued, .testing, .outbound, .done].map RosterState.code = [0, 1, 2, 3, 4, 5] ∧
    [Place.nowhere, .lane .a, .lane .b, .recirc .a, .recirc .b, .inTransfer, .outfeed, .station .stamper,
      .station .defacer].map Place.code = [0, 1, 2, 3, 4, 5, 0x20, 0x21, 0x22] ∧
    (∀ n, (Place.bay n).code = 0x11 + n.val) ∧
    [Route.test, .passThrough, .deface, .stamp, .hold].map Route.code = [1, 2, 3, 4, 5] ∧
    (Verdict.pass.code = 1 ∧ Verdict.notDue.code = 3 ∧ ∀ r, (Verdict.condemn r).code = 2) ∧
    (Verdict.pass.reason = .none ∧ Verdict.notDue.reason = .none ∧ ∀ r, (Verdict.condemn r).reason = r) ∧
    [VoidCause.noFill, .noPressure, .leak, .overpressure, .pressureLimit, .zeroLapsed, .gauge, .eStop].map
      VoidCause.code = [1, 2, 3, 4, 5, 6, 7, 8] ∧
    [Reason.none, .visual, .ratio, .elastic, .rupture, .retestsExhausted, .unidentified, .unannounced,
      .duplicateIdentity, .unknownType, .aborted, .markUncertain, .defaceUncertain, .laneClear, .transferJam,
      .noCylinder].map Reason.code = [0, 1, 2, 3, 4, 5, 6, 7, 8, 9, 10, 11, 12, 13, 14, 15] ∧
    [OutcomeCode.passedMarked, .notDueReleased, .condemnedDefaced, .held, .removed, .missing].map OutcomeCode.code =
      [1, 2, 3, 4, 5, 6] ∧
    [AlertCode.readerBreak, .laneOverfill, .unrosteredArrival, .transferJam, .gaugeDrift, .ventFailure,
      .ruptureInspection, .intensifierFault, .noAnswer, .toolFault, .noCylinder, .protocol, .unrosteredHeld,
      .eStopAsserted, .eStopReleased].map AlertCode.code = [1, 2, 3, 4, 5, 6, 7, 8, 9, 10, 11, 12, 13, 14, 15] ∧
    [BayState.starting, .zeroing, .idle, .loading, .filling, .awaitIntensifier, .pressurising, .holding, .suspended,
      .releasing, .settling, .unloading, .offline, .fault].map BayState.code =
      [0, 1, 2, 3, 4, 5, 6, 7, 8, 9, 10, 11, 12, 13] ∧
    ([ReleaseCause.holdEnd, .rupture, .abort].map ReleaseCause.code = [0x10, 0x11, 0x12] ∧
      ∀ c, (ReleaseCause.void c).code = c.code) ∧
    [SuspendedFrom.awaitIntensifier, .pressurising, .holding].map SuspendedFrom.code = [5, 6, 7] ∧
    [ResumePoint.fill, .request, .suspend, .unloadDecision].map ResumePoint.code = [1, 2, 3, 4] ∧
    [Visual.accept, .condemn].map Visual.code = [1, 2] ∧
    [ReaderState.off, .hunt, .frame, .fault].map ReaderState.code = [0, 1, 2, 3] ∧
    [FlowState.normal, .fault].map FlowState.code = [0, 1] ∧
    [IntensifierState.offline, .fault, .free, .retuning, .driving].map IntensifierState.code = [0, 1, 2, 3, 4] ∧
    [StationState.idle, .nestLoading, .nestLoaded, .offering, .working, .ejecting, .fault, .offline].map
      StationState.code = [0, 1, 2, 3, 4, 5, 6, 7] ∧
    [Nest.empty, .incoming, .loaded, .outgoing].map Nest.code = [0, 1, 2, 3] ∧
    [Exit.releaseConveyor, .scrapBin, .holdChute].map Exit.code = [1, 2, 3] ∧
    [IntensifierId.one, .two].map IntensifierId.number = [1, 2] ∧
    (Item.marker.code = 0x40 ∧ (∀ i, (Item.entry i).code = i.val) ∧
      ∀ x t, (Position.occupied x).code = x.code ∧ (Position.reserved t).code = 0x80 + t.item.code) ∧
    ((∀ n, (Claimant.bay n).code = n.val + 1) ∧ (Claimant.lane .a).code = 0x0A ∧ (Claimant.lane .b).code = 0x0B)) ∧
  ((∀ k n, (leBytes k n).length = k ∧ ∀ j, j < k → (leBytes k n).getD j 0#8 = BitVec.ofNat 8 (n / 256 ^ j)) ∧
    (∀ k, optBytes k none = List.replicate k 0xFF#8 ∧ ∀ n, optBytes k (some n) = leBytes k n) ∧
    (optSigned none = List.replicate 4 0xFF#8 ∧ ∀ z : Int, optSigned (some z) = leBytes 4 (BitVec.ofInt 32 z).toNat) ∧
    (optTime none = List.replicate 4 0xFF#8 ∧ ∀ e : Seconds, optTime (some e) = leBytes 4 e.toNat) ∧
    (∀ k fill l, (padBytes k fill l).length = k ∧ ∀ j, j < k → (padBytes k fill l).getD j 0#8 = l.getD j fill) ∧
    (∀ k l, optText k none = List.replicate k 0xFF#8 ∧ optText k (some l) = padBytes k 0x00#8 l) ∧
    ∀ l j, (flagBits l).testBit j = l.getD j false) ∧
  (∀ s : State,
    let f := fieldAt (s.recordBytes .header)
    (s.recordBytes .header).length = 0x40 ∧ f 0x00 1 = [s.headerCount] ∧ f 0x01 1 = [1#8] ∧
      f 0x02 1 = leBytes 1 s.runState.code ∧ f 0x03 1 = optBytes 1 s.firstBad ∧
      f 0x04 2 = optBytes 2 (s.date.map Date.year) ∧ f 0x06 1 = optBytes 1 (s.date.map Date.month) ∧
      f 0x07 1 = [0#8] ∧ f 0x08 4 = leBytes 4 s.lineSeconds.toNat ∧ f 0x0C 4 = leBytes 4 s.typeMask.toNat ∧
      f 0x10 2 = leBytes 2 s.templateMask.toNat ∧ f 0x12 1 = leBytes 1 s.freeCount ∧
      f 0x13 1 = leBytes 1 s.notices.length ∧ f 0x14 1 = leBytes 1 s.outfeedState.code ∧
      f 0x15 1 = leBytes 1 (flagBits [s.outfeedHeadInFlight]) ∧ f 0x16 1 = leBytes 1 s.ejectsInFlight ∧
      f 0x17 1 = leBytes 1 s.outfeedQueue.length ∧
      f 0x18 8 = padBytes 8 0xFF#8 (s.outfeedQueue.map (fun p => BitVec.ofNat 8 p.code)) ∧
      f 0x20 1 = leBytes 1 s.claims.length ∧
      f 0x21 8 = padBytes 8 0xFF#8 (s.claims.map (fun c => BitVec.ofNat 8 c.code)) ∧
      f 0x29 0x17 = List.replicate 0x17 0#8) ∧
  (∀ (l : LaneId) (s : State),
    let f := fieldAt (s.recordBytes (.lane l))
    let x := s.lane l
    let r := s.reader l
    (s.recordBytes (.lane l)).length = 0x40 ∧ f 0x00 1 = [x.editCount] ∧ f 0x01 1 = leBytes 1 x.state.code ∧
      f 0x02 1 = leBytes 1 (flagBits
        [x.permit, x.headInFlight, decide (Claimant.lane l ∈ s.claims), x.trackOut, x.noteWait.isSome]) ∧
      f 0x03 1 = leBytes 1 x.queue.length ∧
      f 0x04 12 = padBytes 12 0xFF#8 (x.queue.map (fun i => BitVec.ofNat 8 i.code)) ∧
      f 0x10 4 = optTime (x.noteWait.map NoteWait.expiry) ∧ f 0x14 1 = leBytes 1 x.track.length ∧
      f 0x15 3 = padBytes 3 0xFF#8 (x.track.map (fun p => BitVec.ofNat 8 p.code)) ∧
      f 0x18 1 = leBytes 1 r.state.code ∧ f 0x19 1 = leBytes 1 r.badFrames ∧ f 0x1A 1 = leBytes 1 r.duplicateReads ∧
      f 0x1B 1 = leBytes 1 r.overruns ∧ f 0x1C 12 = optText 12 (r.held.map Identity.serial) ∧
      f 0x28 2 = optBytes 2 (r.held.map (fun h => h.date.year)) ∧
      f 0x2A 1 = optBytes 1 (r.held.map (fun h => h.date.month)) ∧ f 0x2B 0x15 = List.replicate 0x15 0#8) ∧
  (∀ (n : BayId) (s : State),
    let f := fieldAt (s.recordBytes (.bay n))
    let b := s.bay n
    let timer := if b.state = BayState.loading then b.loading.bind Transit.expiry else b.stepTimer
    ((s.recordBytes (.bay n)).length = 0x40 ∧ f 0x00 1 = [b.editCount] ∧ f 0x01 1 = leBytes 1 b.state.code ∧
      f 0x02 1 = optBytes 1 (b.index.map Fin.val) ∧
      f 0x03 1 = leBytes 1 (flagBits [b.pressurised, b.lapsed, b.aborted, b.ruptured]) ∧
      f 0x04 1 = optBytes 1 (b.releaseCause.map ReleaseCause.code) ∧
      f 0x05 1 = optBytes 1 (b.suspendedFrom.map SuspendedFrom.code) ∧
      f 0x06 1 = optBytes 1 (b.resume.map ResumePoint.code) ∧
      f 0x07 1 = optBytes 1 (b.coupled.map IntensifierId.number) ∧
      f 0x08 1 = optBytes 1 (b.faultCause.map AlertCode.code) ∧ f 0x09 1 = leBytes 1 b.checksOwed ∧
      f 0x0A 1 = leBytes 1 b.failures ∧ f 0x0B 1 = leBytes 1 b.traceIndex ∧ f 0x0C 1 = leBytes 1 b.traceCount) ∧
    (f 0x0D 1 = leBytes 1 (flagBits [b.outputs.fill, b.outputs.isolate, b.outputs.vent, b.outputs.couple1,
        b.outputs.couple2, b.outputs.door, b.outputs.buretteDrain]) ∧
      f 0x0E 1 = leBytes 1 (flagBits [b.present, b.full, b.doorClosed]) ∧
      f 0x0F 1 = leBytes 1 (flagBits [timer.isSome, b.risePaused.isSome, b.pressTimer.isSome]) ∧
      f 0x10 2 = leBytes 2 (flagBits [b.baseline.isSome, b.holdStart.isSome, b.peak.isSome, b.et.isSome,
        b.drop.isSome, b.ep.isSome, b.zeroReference.isSome, b.lastZeroReading.isSome, b.lastDrift.isSome])) ∧
    (f 0x12 2 = optBytes 2 b.baseline ∧ f 0x14 2 = optBytes 2 b.holdStart ∧ f 0x16 2 = optBytes 2 b.peak ∧
      f 0x18 4 = optSigned b.et ∧ f 0x1C 4 = optSigned b.drop ∧ f 0x20 2 = optBytes 2 b.ep ∧
      f 0x22 2 = leBytes 2 b.latestPressure ∧ f 0x24 2 = leBytes 2 b.latestGauge ∧
      f 0x26 2 = optBytes 2 b.zeroReference ∧ f 0x28 2 = leBytes 2 b.validity ∧
      f 0x2A 2 = optBytes 2 b.lastZeroReading ∧ f 0x2C 2 = optBytes 2 b.lastDrift ∧
      f 0x2E 2 = optBytes 2 b.risePaused ∧ f 0x30 4 = optTime timer ∧ f 0x34 4 = optTime b.pressTimer ∧
      f 0x38 8 = List.replicate 8 0#8) ∧
    (s.recordBytes (.trace n)).length = 256 ∧
      ∀ k : Fin 64, fieldAt (s.recordBytes (.trace n)) (4 * k.val) 4 =
        leBytes 2 b.trace[k].pressure ++ leBytes 2 b.trace[k].gauge) ∧
  (∀ (i : IntensifierId) (s : State),
    let f := fieldAt (s.recordBytes (.intensifier i))
    let x := s.intensifier i
    let q := if i = .one then s.requests else []
    (s.recordBytes (.intensifier i)).length = 0x20 ∧ f 0x00 1 = [x.editCount] ∧ f 0x01 1 = leBytes 1 x.state.code ∧
      f 0x02 2 = optBytes 2 x.setpoint ∧ f 0x04 1 = optBytes 1 (x.coupledBay.map (fun n => n.val + 1)) ∧
      f 0x05 2 = optBytes 2 x.requested ∧ f 0x07 1 = leBytes 1 (flagBits [x.pendingOffline, x.faultInput]) ∧
      f 0x08 4 = optTime x.retuneExpiry ∧ f 0x0C 1 = leBytes 1 q.length ∧
      f 0x0D 18 = padBytes 18 0xFF#8 (q.flatMap (fun r => leBytes 1 (r.bay.val + 1) ++ leBytes 2 r.pressure)) ∧
      f 0x1F 1 = [0#8]) ∧
  (∀ (st : StationId) (s : State),
    let f := fieldAt (s.recordBytes (.station st))
    let x := s.station st
    let limit :=
      if x.state = StationState.nestLoading then x.loading.bind Transit.expiry
      else if x.state = StationState.offering ∨ x.state = StationState.working then x.limit
      else none
    (s.recordBytes (.station st)).length = 0x20 ∧ f 0x00 1 = [x.editCount] ∧ f 0x01 1 = leBytes 1 x.state.code ∧
      f 0x02 1 = leBytes 1 x.nest.code ∧ f 0x03 1 = optBytes 1 (x.index.map Fin.val) ∧
      f 0x04 1 = optBytes 1 (x.order.map List.length) ∧
      f 0x05 1 = (if st = .stamper then optBytes 1 (x.mark.map List.length) else [0xFF#8]) ∧
      f 0x06 1 = optBytes 1 x.bytePos ∧ f 0x07 1 = leBytes 1 x.reoffer ∧ f 0x08 1 = leBytes 1 x.resultLatch.toNat ∧
      f 0x09 1 = optBytes 1 (x.ejectExit.map Exit.code) ∧
      f 0x0A 1 = leBytes 1 (flagBits [x.ejectBegun, limit.isSome]) ∧
      f 0x0B 1 = optBytes 1 (x.faultCause.map AlertCode.code) ∧ f 0x0C 1 = [x.orderBus] ∧
      f 0x0D 1 = leBytes 1 (flagBits [x.orderReady, x.taken, x.done, x.ready, x.nestEye, s.guardClosed]) ∧
      f 0x0E 4 = optTime limit ∧ f 0x12 0xE = List.replicate 0xE 0#8) ∧
  (∀ (i : RosterIndex) (s : State),
    let f := fieldAt (s.recordBytes (.entry i))
    let e := s.entry i
    ((s.recordBytes (.entry i)).length = 0x80 ∧ f 0x00 1 = [e.editCount] ∧ f 0x01 1 = leBytes 1 e.state.code ∧
      f 0x02 1 = leBytes 1 e.place.code ∧ f 0x03 1 = optBytes 1 (e.route.map Route.code) ∧
      f 0x04 12 = optText 12 e.serial ∧ f 0x10 2 = optBytes 2 (e.tagDate.map Date.year) ∧
      f 0x12 1 = optBytes 1 (e.tagDate.map Date.month) ∧ f 0x13 1 = optBytes 1 (e.noteSlot.map Fin.val) ∧
      f 0x14 1 = optBytes 1 (e.typeCode.map Fin.val) ∧ f 0x15 1 = optBytes 1 (e.visual.map Visual.code) ∧
      f 0x16 1 = leBytes 1 (flagBits [e.forceTest])) ∧
    (f 0x17 1 = optBytes 1 (e.params.map Params.strikeClass) ∧ f 0x18 2 = optBytes 2 (e.params.map Params.testPressure) ∧
      f 0x1A 2 = optBytes 2 (e.params.map Params.holdTime) ∧ f 0x1C 2 = optBytes 2 (e.params.map Params.ratioLimit) ∧
      f 0x1E 2 = optBytes 2 (e.params.map Params.elasticLimit) ∧ f 0x20 2 = optBytes 2 (e.params.map Params.capacity) ∧
      f 0x22 1 = optBytes 1 (e.params.map Params.dropTolerance) ∧ f 0x23 1 = optBytes 1 (e.params.map Params.template)) ∧
    (f 0x24 1 = leBytes 1 e.countedVoids ∧ f 0x25 1 = leBytes 1 e.testsStarted ∧
      f 0x26 1 = optBytes 1 (e.lastVoid.map VoidCause.code) ∧
      f 0x27 1 = optBytes 1 (e.lastBay.map (fun n => n.val + 1)) ∧
      f 0x28 1 = leBytes 1 (flagBits [e.meas.baseline.isSome, e.meas.peak.isSome, e.meas.et.isSome,
        e.meas.drop.isSome, e.meas.ep.isSome, e.meas.ratio.isSome]) ∧
      f 0x29 1 = optBytes 1 (e.verdict.map Verdict.code) ∧
      f 0x2A 1 = optBytes 1 (e.verdict.map (fun v => v.reason.code)) ∧
      f 0x2B 1 = optBytes 1 (e.holdReason.map Reason.code) ∧ f 0x2C 2 = optBytes 2 e.meas.baseline ∧
      f 0x2E 2 = optBytes 2 e.meas.peak ∧ f 0x30 4 = optSigned e.meas.et ∧ f 0x34 4 = optSigned e.meas.drop ∧
      f 0x38 2 = optBytes 2 e.meas.ep ∧ f 0x3A 2 = optBytes 2 e.meas.ratio) ∧
    f 0x3C 1 = optBytes 1 (e.mark.map List.length) ∧ f 0x3D 24 = optText 24 e.mark ∧
      f 0x55 3 = List.replicate 3 0#8 ∧ f 0x58 4 = leBytes 4 e.arrivalTime.toNat ∧ f 0x5C 4 = optTime e.verdictTime ∧
      f 0x60 4 = optTime e.doneTime ∧ f 0x64 1 = optBytes 1 (e.outcome.map (fun o => o.1.code)) ∧
      f 0x65 1 = optBytes 1 (e.outcome.map (fun o => o.2.code)) ∧ f 0x66 0x1A = List.replicate 0x1A 0#8) ∧
  (Record.header.base = 0 ∧ [LaneId.a, .b].map (fun l => (Record.lane l).base) = [0x100, 0x140] ∧
    [IntensifierId.one, .two].map (fun i => (Record.intensifier i).base) = [0x180, 0x1A0] ∧
    [StationId.stamper, .defacer].map (fun st => (Record.station st).base) = [0x1C0, 0x1E0] ∧
    (∀ n, (Record.bay n).base = 0x200 + n.val * 0x40 ∧ (Record.trace n).base = 0x2800 + n.val * 0x100) ∧
    (∀ i, (Record.entry i).base = 0x1000 + i.val * 0x80) ∧
    (∀ (s : State) (r : Record) (j : Nat), j < (s.recordBytes r).length → recordAt (r.base + j) = some r) ∧
    (∀ k : SlotId, slotBase k = 0xA00 + k.val * 0x20) ∧
    ([LaneId.a, .b].map readerSource = [1, 2] ∧ [LaneId.a, .b].map laneSource = [3, 4] ∧
      (∀ n, baySource n = n.val + 5) ∧ [IntensifierId.one, .two].map intensifierSource = [11, 12] ∧
      [StationId.stamper, .defacer].map stationSource = [13, 14] ∧ outfeedSource = 15 ∧ runSource = 0) ∧
    ∀ a r, recordAt a = some r → r.base ≤ a ∧ a < 0x2E00 ∧ ∀ s : State, a < r.base + (s.recordBytes r).length)

/-- O3. Every command answers a next state in every state, and leaves the queue of waiting commands as it is. Only a command
word, or a host write other than a word write of CTL, leaves CMB marked as just emptied (log 31). The model's choice that events
and expiries are commands: log 1. -/
def Obligations.EveryCommandCompletes : Prop :=
  ∀ (c : Instr) (s : State), Gives c s fun t => Same .queue s t ∧
    (t.justEmptied = true → (commandOf c).isSome = true ∨ (∃ word, c = .unknownCommand word) ∨
      s.justEmptied = true ∧ ((∃ word, c = .overwrite word) ∨ ∃ a size value, c = .registerWrite a size value ∧ ¬(a = 0x1000C#32 ∧ size = .word)))

/-! ## Invariants every step keeps -/

/-- O4. Every step keeps the canonical form of the store's bytes. -/
def Obligations.StoreFormKept : Prop := ∀ s t : State, StoreFormed s → step s = .next t → StoreFormed t

/-- O5. Every step keeps the bounds of the queues, tracks, claims, requests and counts, and keeps each transfer's source
agreeing with its owner. -/
def Obligations.BoundsKept : Prop := ∀ s t : State, Bounded s → step s = .next t → Bounded t

/-- O6. Every step keeps the free count equal to the number of FREE roster entries. -/
def Obligations.FreeCountKept : Prop := ∀ s t : State, FreeCounted s → step s = .next t → FreeCounted t

/-- O7. The state after power-on satisfies the invariants. -/
def Obligations.InvariantsAtReset : Prop :=
  StoreFormed State.reset ∧ Bounded State.reset ∧ FreeCounted State.reset ∧ EvenCounts State.reset

/-- O8. After every command but the resets and the host's own writes, each byte of a record reads as the RQ4 holds it, or,
where the record was left unedited, as before; after a reset each reads as the RQ4 holds it. Every edit count stays even, and
that of a lane, bay, intensifier or station record advances by two exactly where the step changed the record. How the line
computer's bytes overlay the records, a bay's trace ring with its record, the header's layout version with its edits, and that a
step edits a block record once, are the model's choices: logs 11, 37, 41 and 10. -/
def Obligations.RecordsPublished : Prop :=
  (∀ (c : Instr) (s t : State), exec c s = .next t →
    (match c with
     | .powerOnReset | .lineReset _ | .registerWrite _ _ _ => True
     | _ => Published s t)) ∧
  (∀ (c : Instr) (s t : State) (a : Nat) (r : Record), exec c s = .next t → recordAt a = some r →
    (match c with
     | .powerOnReset | .lineReset _ => t.storeByte a = (t.recordBytes r).getD (a - r.base) 0x00#8
     | _ => True)) ∧
  (∀ s t : State, EvenCounts s → step s = .next t → EvenCounts t) ∧
  ∀ (c : Instr) (s t : State), exec c s = .next t →
    (match c with
     | .powerOnReset | .lineReset _ | .registerWrite _ _ _ => True
     | _ =>
       (∀ l, (t.lane l).editCount =
         if s.laneBody l = t.laneBody l then (s.lane l).editCount else (s.lane l).editCount + 2#8) ∧
       (∀ n, (t.bay n).editCount =
         if (s.bay n).body = (t.bay n).body ∧ (s.bay n).traceBytes = (t.bay n).traceBytes then (s.bay n).editCount
         else (s.bay n).editCount + 2#8) ∧
       (∀ i, (t.intensifier i).editCount =
         if s.intensifierBody i = t.intensifierBody i then (s.intensifier i).editCount
         else (s.intensifier i).editCount + 2#8) ∧
       ∀ st, (t.station st).editCount =
         if s.stationBody st = t.stationBody st then (s.station st).editCount
         else (s.station st).editCount + 2#8)

/-! ## Resets -/

/-- O9. What the manual gives the registers, the table unit, the note board, the roster, the readers, the lanes, the outfeed, the
bays, the arbiter and the stations at power-on. The model's choices: the FAULT input of each intensifier is off, so that it is
FREE and no notice stands (log 7); the FREE entry's arrival time of 0 (log 17). -/
def Obligations.PowerOnValues : Prop :=
  let s := State.reset
  (s.runState = .awaitingTables ∧ s.lineSeconds = 0#32 ∧ s.hostRead 0x10000 .word = 0#32 ∧ s.statWord = 0#32 ∧
    s.cmbFull = false ∧ s.nmb = none ∧ s.notices = [] ∧ s.interruptOutput = false) ∧
  (s.settings = none ∧ s.tablesHeld = false ∧ s.firstBad = none ∧ s.date = none ∧ s.typeMask = 0#32 ∧
    s.templateMask = 0#16 ∧ s.expect = [] ∧ s.freeCount = 48) ∧
  ((∀ c : Fin 32, s.types[c] = none) ∧ ∀ k : Fin 16, s.templates[k] = none) ∧
  (∀ i, s.entry i = Entry.freeEntry 0#8 ∧ ResetEntry 0#8 (s.entry i)) ∧
  (∀ l, s.lane l = Lane.reset 0#8 ∧ ResetLane (s.lane l) ∧ s.reader l = Reader.reset ∧ ResetReader .off (s.reader l)) ∧
  (s.outfeedState = .normal ∧ s.outfeedQueue = [] ∧ s.outfeedHeadInFlight = false ∧ s.exits = [] ∧ s.claims = [] ∧
    s.requests = [] ∧ s.releases = []) ∧
  (∀ n, (s.bay n).state = .starting ∧ (s.bay n).outputs = BayOutputs.rest ∧ (s.bay n).checksOwed = 2 ∧
    (s.bay n).validity = 0 ∧ (s.bay n).zeroReference = none ∧ (s.bay n).lastZeroReading = none ∧
    (s.bay n).lastDrift = none ∧ (s.bay n).stepTimer = none ∧ ResetBay (s.bay n)) ∧
  (∀ i, (s.intensifier i).state = .free ∧ (s.intensifier i).setpoint = none ∧ ResetIntensifier false (s.intensifier i)) ∧
  (∀ st, (s.station st).state = .idle ∧ (s.station st).nest = .empty ∧ (s.station st).orderReady = false ∧
    ResetStation (s.station st)) ∧
  (∀ k, SlotReset k 0#8 s) ∧ ∀ r, s.editCount r = 0#8

/-- O10. POWER_ON_RESET sets the registers, the table unit, the note board, the roster, the readers, the lanes, the outfeed, the
bays, the arbiter and the stations to their power-on state, from any state, every edit count 0; an intensifier whose FAULT input
is on ends in FAULT with its alert, and with both inputs off no notice stands. The model's choices: input levels outlast a reset
(log 7); the FREE entry's arrival time of 0 (log 17). -/
def Obligations.PowerOnReset : Prop :=
  ∀ s : State, Gives .powerOnReset s fun t =>
    (t.runState = .awaitingTables ∧ t.lineSeconds = 0#32 ∧ t.cmbWord = 0#32 ∧ t.cmbFull = false ∧
      t.lastCommand = 0#8 ∧ t.lastResult = .accepted ∧ t.overwriteFlag = false ∧ t.interruptEnable = false) ∧
    (t.settings = none ∧ t.tablesHeld = false ∧ t.firstBad = none ∧ t.date = none ∧ t.typeMask = 0#32 ∧
      t.templateMask = 0#16 ∧ t.expect = [] ∧ t.freeCount = 48) ∧
    ((∀ c : Fin 32, t.types[c] = none) ∧ ∀ k : Fin 16, t.templates[k] = none) ∧
    (∀ i, t.entry i = Entry.freeEntry 0#8 ∧ ResetEntry 0#8 (t.entry i)) ∧
    (∀ l, t.lane l = Lane.reset 0#8 ∧ ResetLane (t.lane l) ∧ t.reader l = Reader.reset ∧
      ResetReader .off (t.reader l)) ∧
    (t.outfeedState = .normal ∧ t.outfeedQueue = [] ∧ t.outfeedHeadInFlight = false ∧ t.exits = [] ∧ t.claims = [] ∧
      t.requests = [] ∧ t.releases = []) ∧
    (∀ n, (t.bay n).state = .starting ∧ (t.bay n).index = none ∧ (t.bay n).outputs = BayOutputs.rest ∧
      (t.bay n).checksOwed = 2 ∧ (t.bay n).validity = 0 ∧ (t.bay n).zeroReference = none ∧
      (t.bay n).trace = emptyTrace ∧ (t.bay n).lastZeroReading = none ∧ (t.bay n).lastDrift = none ∧
      (t.bay n).stepTimer = none ∧ ResetBay (t.bay n) ∧
      ∀ input, (t.bay n).input input = (s.bay n).input input) ∧
    (∀ i, (t.intensifier i).state = (if (s.intensifier i).faultInput then .fault else .free) ∧
      (t.intensifier i).setpoint = none ∧ (t.intensifier i).coupledBay = none ∧
      ResetIntensifier (s.intensifier i).faultInput (t.intensifier i)) ∧
    (∀ st, (t.station st).state = .idle ∧ (t.station st).nest = .empty ∧ (t.station st).index = none ∧
      (t.station st).orderReady = false ∧ ResetStation (t.station st)) ∧
    ((∀ i, (s.intensifier i).faultInput = false) → t.notices = [] ∧ t.nmb = none ∧ t.alertSeen = false) ∧
    (∀ i, (s.intensifier i).faultInput = true → Alerted (intensifierSource i) .intensifierFault t) ∧
    (∀ k, SlotReset k 0#8 t) ∧
    (∀ r, r ≠ .header → t.editCount r = 0#8) ∧
    (t.headerCount = 0#8 ∨ ∃ i, (s.intensifier i).faultInput = true) ∧
    t.eStopInput = s.eStopInput ∧ t.guardClosed = s.guardClosed

/-- O11. LINE_RESET sets the registers, the note board, the roster, the readers, the lanes, the outfeed, the bays, the arbiter and
the stations by their line reset rules and keeps the tables, the date, the line seconds, the bays' zero references and last
checks, and the regions the RQ4 never writes; the run state is READY, E-STOPPED or AWAITING TABLES as tables, date and the
E-STOP input give, and the inputs that are on raise their alerts. The model's choices: one edit of each record (log 10), input
levels kept (log 7), the FREE entry's arrival time of 0 (log 17), readers leaving OFF on the way to E-STOPPED (log 28). -/
def Obligations.LineReset : Prop :=
  ∀ (enable : Bool) (s : State), Gives (.lineReset enable) s fun t =>
    let ready := s.tablesHeld = true ∧ s.date.isSome = true
    (t.runState = (if ready then (if s.eStopInput then .eStopped else .ready) else .awaitingTables)) ∧
    (Same .lineSeconds s t ∧ Same .settings s t ∧ Same .types s t ∧ Same .templates s t ∧ Same .date s t ∧
      Same .eStopInput s t ∧ Same .guardClosed s t) ∧
    (t.cmbWord = 0#32 ∧ t.cmbFull = false ∧ t.lastCommand = 0#8 ∧ t.lastResult = .accepted ∧
      t.overwriteFlag = false ∧ t.interruptEnable = false ∧ t.expect = [] ∧ t.freeCount = 48) ∧
    (∀ i, t.entry i = Entry.freeEntry ((s.entry i).editCount + 2#8) ∧
      ResetEntry ((s.entry i).editCount + 2#8) (t.entry i)) ∧
    (∀ l, (t.lane l).bare = Lane.reset 0#8 ∧ ResetLane (t.lane l) ∧
      (t.lane l).editCount = (s.lane l).editCount + 2#8 ∧ (t.reader l).held = none ∧
      ResetReader (if ready then .hunt else .off) (t.reader l)) ∧
    (t.outfeedState = .normal ∧ t.outfeedQueue = [] ∧ t.outfeedHeadInFlight = false ∧ t.exits = [] ∧ t.claims = [] ∧
      t.requests = [] ∧ t.releases = []) ∧
    (∀ n, (t.bay n).index = none ∧ (t.bay n).validity = 0 ∧ (t.bay n).zeroReference = (s.bay n).zeroReference ∧
      (t.bay n).checksOwed = (if (s.bay n).zeroReference.isSome then 1 else 2) ∧
      (t.bay n).lastZeroReading = (s.bay n).lastZeroReading ∧ (t.bay n).lastDrift = (s.bay n).lastDrift ∧
      ResetBay (t.bay n) ∧ (t.bay n).editCount = (s.bay n).editCount + 2#8 ∧
      (∀ input, (t.bay n).input input = (s.bay n).input input) ∧
      (s.tablesHeld = true ∧ ¬(s.date.isSome = true ∧ s.eStopInput = true) →
        (t.bay n).state = .zeroing ∧ (t.bay n).outputs = checkOutputs false ∧
          (t.bay n).stepTimer = some (s.after 40)) ∧
      (¬(s.tablesHeld = true ∧ ¬(s.date.isSome = true ∧ s.eStopInput = true)) →
        (t.bay n).state = .starting ∧ (t.bay n).outputs = BayOutputs.rest ∧ (t.bay n).stepTimer = none)) ∧
    (∀ i, (t.intensifier i).state = (if (s.intensifier i).faultInput then .fault else .free) ∧
      (t.intensifier i).setpoint = none ∧ (t.intensifier i).coupledBay = none ∧
      ResetIntensifier (s.intensifier i).faultInput (t.intensifier i) ∧
      (t.intensifier i).editCount = (s.intensifier i).editCount + 2#8) ∧
    (∀ st, (t.station st).state = .idle ∧ (t.station st).nest = .empty ∧ (t.station st).index = none ∧
      ResetStation (t.station st) ∧ (t.station st).editCount = (s.station st).editCount + 2#8) ∧
    ((∀ i, (s.intensifier i).faultInput = false) → s.eStopInput = false →
      t.notices = [] ∧ t.nmb = none ∧ t.alertSeen = false) ∧
    (∀ i, (s.intensifier i).faultInput = true → Alerted (intensifierSource i) .intensifierFault t) ∧
    (ready → s.eStopInput = true → Alerted runSource .eStopAsserted t) ∧
    (∀ k : SlotId, SlotReset k (s.slotCounts[k] + 2#8) t ∧ t.slotCounts[k] = s.slotCounts[k] + 2#8) ∧
    ∀ a, recordAt a = none → a < 0xA00 ∨ 0xE00 ≤ a → t.storeByte a = s.storeByte a

/-! ## The store port and the registers -/

/-- O12. INTERRUPT_ENABLE stores the enable, and so does a CTL write with LINE RESET clear; the interrupt output is on exactly
while NMB is full and the enable is set. A CTL write with LINE RESET set is a line reset. -/
def Obligations.ControlWrites : Prop :=
  (∀ (enable : Bool) (s : State), Gives (.interruptEnable enable) s fun t =>
    t.interruptEnable = enable ∧ t.interruptOutput = (s.nmb.isSome && enable) ∧ Frame [.interruptEnable] s t) ∧
  (∀ (value : Word) (s : State), value.getLsbD 31 = false →
    Gives (.registerWrite 0x1000C#32 .word value) s fun t =>
      t.interruptEnable = value.getLsbD 0 ∧ t.interruptOutput = (s.nmb.isSome && value.getLsbD 0) ∧
        Frame [.interruptEnable] s t) ∧
  (∀ s : State, s.interruptOutput = (s.nmb.isSome && s.interruptEnable)) ∧
  ∀ (value : Word) (s : State), value.getLsbD 31 = true →
    exec (.registerWrite 0x1000C#32 .word value) s = exec (.lineReset (value.getLsbD 0)) s

/-- O13. A write of CMB is stored when CMB is empty; when it is full the word is discarded and the sticky OVERWRITE flag set. A
write taken right behind a command may have come before the emptying of CMB, and is then discarded. A read of CMB returns the
word last stored. The model's choices: a word stored by these two commands stays in CMB until it is taken
(logs 4, 12); which of a write and the emptying is first is a free value (log 31). -/
def Obligations.MailboxWrites : Prop :=
  ∀ (word : Word) (s : State) (c : Instr), (c = .overwrite word ∨ c = .registerWrite 0x10000#32 .word word) →
    (s.cmbFull = true → Gives c s fun t =>
      t.overwriteFlag = true ∧ t.hostRead 0x10000 .word = s.hostRead 0x10000 .word ∧ Frame [.overwriteFlag] s t) ∧
    (s.cmbFull = false → s.justEmptied = false → Gives c s fun t =>
      t.cmbWord = word ∧ t.cmbFull = true ∧ t.hostRead 0x10000 .word = word ∧ t.lastCommand = s.lastCommand ∧
        t.lastResult = s.lastResult ∧ t.justEmptied = false ∧ Frame [.mailbox] s t) ∧
    (s.cmbFull = false → s.justEmptied = true → Gives c s fun t =>
      t.lastCommand = s.lastCommand ∧ t.lastResult = s.lastResult ∧
        (t.overwriteFlag = true ∧ t.cmbWord = s.cmbWord ∧ t.cmbFull = false ∧ t.justEmptied = true ∨
          t.overwriteFlag = s.overwriteFlag ∧ t.cmbWord = word ∧ t.cmbFull = true ∧ t.justEmptied = false) ∧
        Frame [.mailbox, .overwriteFlag, .choices] s t)

/-- O14. A host write into the store is read back, little-endian, and changes no other byte and no unit; a register write
that no register takes is ignored; and a read of the store by bytes, halfwords or words gives its bytes, little-endian. That an unaligned halfword or word of the store is its consecutive bytes, those past FFFFh
ignored, and that an access no register takes is ignored, are the model's choices: log 5. -/
def Obligations.StoreWrites : Prop :=
  (∀ (s : State) (a : Nat) (size : AccessSize), a + widthOf size ≤ 0x10000 →
    (s.hostRead a size).toNat < 256 ^ widthOf size ∧
      ∀ k, k < widthOf size → s.storeByte (a + k) = BitVec.ofNat 8 ((s.hostRead a size).toNat / 256 ^ k)) ∧
  (∀ (a : Word) (size : AccessSize) (value : Word) (s : State), StoreFormed s → a.toNat < 0x10000 →
    Gives (.registerWrite a size value) s fun t =>
      (∀ k, k < widthOf size → a.toNat + k < 0x10000 →
        t.storeByte (a.toNat + k) = BitVec.ofNat 8 (value.toNat / 256 ^ k)) ∧
      (∀ b, b < a.toNat ∨ a.toNat + widthOf size ≤ b → t.storeByte b = s.storeByte b) ∧ Frame [.store] s t) ∧
  ∀ (a : Word) (size : AccessSize) (value : Word) (s : State), 0x10000 ≤ a.toNat →
    ¬(size = .word ∧ (a = 0x10000#32 ∨ a = 0x1000C#32)) → exec (.registerWrite a size value) s = .next s

/-- O15. A read of a full NMB returns its word, empties it and moves the oldest notice in, turning the interrupt output off and
on again where another notice waits and the enable is set; a read of an empty NMB returns the word of kind NONE and changes
nothing. The model's choices: the word read stands in a field of the state (log 21), and so does the count of the output's
pulses (log 32). -/
def Obligations.NoticeRead : Prop :=
  (∀ (x : Notice) (s : State), s.nmb = some x → Gives .nmbRead s fun t =>
    t.busReadData = x.word ∧ t.nmb = s.notices.head? ∧ t.notices = s.notices.tail ∧
      t.interruptOutput = (decide (s.notices ≠ []) && s.interruptEnable) ∧
      t.interruptPulses =
        (if s.interruptEnable = true ∧ s.notices ≠ [] then s.interruptPulses + 1 else s.interruptPulses) ∧
      Frame [.busReadData, .notices, .interruptPulses] s t) ∧
  ∀ s : State, s.nmb = none → Gives .nmbRead s fun t => t.busReadData = 0#32 ∧ Frame [.busReadData] s t

/-- O16. The notice list: an outcome is appended; an alert is appended, or replaces the code of a waiting alert of its source in
place; and while NMB is empty the oldest notice moves into it. -/
def Obligations.NoticeList : Prop :=
  (∀ (s : State) (x : Notice), s.nmb = some x →
    (∀ i code reason, (s.raiseOutcome i code reason).notices = s.notices ++ [.outcome i code reason] ∧
      (s.raiseOutcome i code reason).nmb = some x) ∧
    (∀ source code, (∀ k, .alert source k ∉ s.notices) →
      (s.raiseAlert source code).notices = s.notices ++ [.alert source code] ∧
        (s.raiseAlert source code).alertSeen = true) ∧
    ∀ source code k l r, s.notices = l ++ .alert source k :: r → (∀ j, .alert source j ∉ l ++ r) →
      (s.raiseAlert source code).notices = l ++ .alert source code :: r ∧
        (s.raiseAlert source code).alertSeen = true) ∧
  ∀ s : State, s.nmb = none → s.notices = [] →
    (∀ i code reason, (s.raiseOutcome i code reason).nmb = some (.outcome i code reason) ∧
      (s.raiseOutcome i code reason).notices = []) ∧
    ∀ source code, (s.raiseAlert source code).nmb = some (.alert source code) ∧
      (s.raiseAlert source code).notices = [] ∧ (s.raiseAlert source code).alertSeen = true

/-! ## The command unit -/

/-- O17. A command word that finds another word in CMB is discarded with OVERWRITE set; in AWAITING TABLES every command but
TAKE TABLES, SET DATE and CLEAR STATUS is answered NOT READY with no other effect. The case of a full CMB is the model's
reading: log 4. -/
def Obligations.CommandsTurnedAway : Prop :=
  (∀ (c : Instr) (code : Byte) (arg : BitVec 24) (s : State), commandOf c = some (code, arg) →
    s.cmbBlocked (commandWord code arg) = true →
    Gives c s fun t => t.overwriteFlag = true ∧ Frame [.overwriteFlag] s t) ∧
  ∀ (c : Instr) (code : Byte) (arg : BitVec 24) (s : State), commandOf c = some (code, arg) →
    exemptCode code = false → s.cmbBlocked (commandWord code arg) = false → s.runState = .awaitingTables →
    Gives c s (AnsweredOnly code arg .notReady s)

/-- O18. A word whose code is outside the command list is answered UNKNOWN COMMAND, in every run state; CLEAR STATUS clears
the two sticky flags and is ACCEPTED in every run state, and a CMB write that came before its end can leave OVERWRITE set. The
case of a full CMB is the model's reading: log 4; a write behind CLEAR STATUS is a free value: log 31. -/
def Obligations.StatusCommands : Prop :=
  (∀ (word : Word) (s : State), commandCode word ∉ listedCodes → s.cmbBlocked word = false →
    Gives (.unknownCommand word) s fun t =>
      t.cmbWord = word ∧ t.cmbFull = false ∧ t.lastCommand.toNat = commandCode word ∧
        t.lastResult = .unknownCommand ∧ t.justEmptied = true ∧ Frame [.mailbox] s t) ∧
  (∀ (arg : BitVec 24) (s : State), s.cmbBlocked (commandWord 0x05#8 arg) = false →
    Gives (.clearStatus arg) s fun t =>
      Answered 0x05#8 arg .accepted t ∧ t.overwriteFlag = false ∧ t.alertSeen = false ∧
        Frame [.mailbox, .overwriteFlag, .alertSeen] s t) ∧
  ∀ (arg : BitVec 24) (word : Word) (s t : State), s.cmbBlocked (commandWord 0x05#8 arg) = false →
    exec (.clearStatus arg) s = .next t → Gives (.overwrite word) t fun u =>
      (u.overwriteFlag = true ∧ Answered 0x05#8 arg .accepted u) ∨
        (u.overwriteFlag = false ∧ u.cmbWord = word ∧ u.cmbFull = true)

/-- O19. RUN takes READY to RUNNING with the permits set anew; STOP LINE takes RUNNING to STOPPING, or through it to READY
when the hall has drained, with the permits off; in every other run state both are answered WRONG STATE. The hall has drained when both
lanes hold no item and no track position, the outfeed holds no position and neither a head transfer nor an eject is in flight, no
bay reports itself occupied, and no station holds the line. -/
def Obligations.RunAndStop : Prop :=
  (∀ (arg : BitVec 24) (s : State), Heard 0x03#8 arg s →
    (s.runState = .ready → Gives (.run arg) s fun t =>
      Answered 0x03#8 arg .accepted t ∧ t.runState = .running ∧
        (∀ l, PermitSet t l ∧ (t.lane l).bare = { s.lane l with permit := t.permitHolds l }.bare) ∧
        Frame [.mailbox, .runState, .lane .a, .lane .b] s t) ∧
    (s.runState ≠ .ready → Gives (.run arg) s (AnsweredOnly 0x03#8 arg .wrongState s))) ∧
  (∀ s : State, s.drained = true ↔
    (∀ l, (s.lane l).queue = [] ∧ (s.lane l).track = []) ∧
      (s.outfeedQueue = [] ∧ s.outfeedHeadInFlight = false ∧ ∀ x ∈ s.exits, ∀ st, x.transit.source ≠ .station st) ∧
      (∀ n, (s.bay n).index = none ∨ (s.bay n).state = .zeroing ∨ (s.bay n).state = .offline ∨
        (s.bay n).state = .fault) ∧
      ∀ st, (s.station st).nest = .empty ∨ (s.station st).state = .fault ∨ (s.station st).state = .offline) ∧
  ∀ (arg : BitVec 24) (s : State), Heard 0x04#8 arg s →
    (s.runState = .running → Gives (.stopLine arg) s fun t =>
      Answered 0x04#8 arg .accepted t ∧ t.runState = (if s.drained then .ready else .stopping) ∧
        (∀ l, (t.lane l).bare = { s.lane l with permit := false }.bare) ∧
        Frame [.mailbox, .runState, .lane .a, .lane .b] s t) ∧
    (s.runState ≠ .running → Gives (.stopLine arg) s (AnsweredOnly 0x04#8 arg .wrongState s))

/-- O20. The infeed permit of a lane, re-evaluated, holds exactly while the run state is RUNNING, the lane is NORMAL, its
occupancy is below almost-full, and more than 2 entries are FREE; every step keeps each permit as these conditions give it, and
so it stands after power-on. -/
def Obligations.PermitConditions : Prop :=
  (∀ (s : State) (l : LaneId), (s.evalPermits.lane l).permit = true ↔
    s.runState = .running ∧ (s.lane l).state = .normal ∧ (s.lane l).queue.length < s.work.almostFull l ∧
      2 < s.freeCount) ∧
  (∀ s t : State, PermitsHeld s → step s = .next t → PermitsHeld t) ∧
  (∀ (s : State) (l : LaneId), s.permitHolds l = true ↔
    s.runState = .running ∧ (s.lane l).state = .normal ∧ (s.lane l).queue.length < s.work.almostFull l ∧
      2 < s.freeCount) ∧
  (∀ w : Settings, w.almostFull .a = w.almostFullA ∧ w.almostFull .b = w.almostFullB ∧
    w.almostEmpty .a = w.almostEmptyA ∧ w.almostEmpty .b = w.almostEmptyB) ∧
  PermitsHeld State.reset

/-! ## The table unit -/

/-- O21. SET DATE with a year of 0 to 99 and a month of 1 to 12 sets the date; outside them it is answered BAD ARGUMENT. The
first date with tables held takes AWAITING TABLES to READY, the readers to HUNT, and on to E-STOPPED with its alert when the
E-STOP input is on. -/
def Obligations.SetDate : Prop :=
  ∀ (arg : BitVec 24) (s : State), s.cmbBlocked (commandWord 0x02#8 arg) = false →
    (argMiddle arg ≤ 99 → 1 ≤ argByte arg → argByte arg ≤ 12 →
      ¬(s.runState = .awaitingTables ∧ s.tablesHeld = true) →
      Gives (.setDate arg) s fun t =>
        Answered 0x02#8 arg .accepted t ∧ t.date = some ⟨2000 + argMiddle arg, argByte arg⟩ ∧
          Frame [.mailbox, .date] s t) ∧
    (argMiddle arg ≤ 99 → 1 ≤ argByte arg → argByte arg ≤ 12 → s.runState = .awaitingTables → s.tablesHeld = true →
      s.eStopInput = false →
      Gives (.setDate arg) s fun t =>
        Answered 0x02#8 arg .accepted t ∧ t.date = some ⟨2000 + argMiddle arg, argByte arg⟩ ∧ t.runState = .ready ∧
          (∀ l, (t.reader l).state =
            (if (s.reader l).state = .off then .hunt else (s.reader l).state)) ∧ (∀ l, PermitOnly l s t) ∧
          Frame [.mailbox, .date, .runState, .reader .a, .reader .b, .lane .a, .lane .b] s t) ∧
    (argMiddle arg ≤ 99 → 1 ≤ argByte arg → argByte arg ≤ 12 → s.runState = .awaitingTables → s.tablesHeld = true →
      s.eStopInput = true →
      Gives (.setDate arg) s fun t =>
        Answered 0x02#8 arg .accepted t ∧ t.date = some ⟨2000 + argMiddle arg, argByte arg⟩ ∧
          t.runState = .eStopped ∧ Alerted runSource .eStopAsserted t ∧
          ∀ l, (t.reader l).state = (if (s.reader l).state = .off then .hunt else (s.reader l).state)) ∧
    (¬(argMiddle arg ≤ 99 ∧ 1 ≤ argByte arg ∧ argByte arg ≤ 12) →
      Gives (.setDate arg) s (AnsweredOnly 0x02#8 arg .badArgument s))

/-- O22. TAKE TABLES: with a bad setting field the result is TABLE ERROR, the field's number is published, and the working tables
stay; otherwise the settings, types, templates and masks are replaced together, an unusable template keeps its content, a STARTING
bay goes to its zero check, and an IDLE bay with an old validity under the new settings to its own. -/
def Obligations.TakeTables : Prop :=
  ∀ (arg : BitVec 24) (s : State), s.cmbBlocked (commandWord 0x01#8 arg) = false →
    (∀ k, s.firstBadField s.readSettings = some k → Gives (.takeTables arg) s fun t =>
      Answered 0x01#8 arg .tableError t ∧ t.firstBad = some k ∧ t.settings = s.settings ∧
        t.tablesHeld = s.tablesHeld ∧ Frame [.mailbox, .settings] s t) ∧
    (s.firstBadField s.readSettings = none → Gives (.takeTables arg) s fun t =>
      Answered 0x01#8 arg .accepted t ∧ t.settings = some s.readSettings ∧ t.tablesHeld = true ∧
        t.firstBad = some 0 ∧
        (∀ c : Fin 32, t.types[c] = some (s.readType (typeAddress c.val)) ∧
          t.typeMask.getLsbD c.val = (s.readType (typeAddress c.val)).usable s.readSettings
            (fun k => templateUsable (s.readTemplate k))) ∧
        (∀ k : Fin 16, t.templateMask.getLsbD k.val = templateUsable (s.readTemplate k.val) ∧
          t.templates[k] =
            (if templateUsable (s.readTemplate k.val) then some (s.readTemplate k.val) else s.templates[k])) ∧
        (s.runState ≠ .eStopped →
          ¬(s.runState = .awaitingTables ∧ s.date.isSome = true ∧ s.eStopInput = true) → ∀ n,
          ((s.bay n).state = .starting → Checks n none s t) ∧
            ((s.bay n).state ≠ .starting → Proactive n s t)) ∧
        (s.runState = .eStopped → ∀ n, t.bay n = s.bay n) ∧
        (s.runState ≠ .awaitingTables →
          (∀ l, PermitOnly l s t) ∧ Frame ([.mailbox, .settings, .types, .templates, .lane .a, .lane .b] ++ bayParts) s t) ∧
        (s.runState = .awaitingTables → s.date.isSome = true → s.eStopInput = true →
          t.runState = .eStopped ∧ Alerted runSource .eStopAsserted t) ∧
        (s.runState = .awaitingTables → ¬(s.date.isSome = true ∧ s.eStopInput = true) →
          t.runState = (if s.date.isSome then .ready else .awaitingTables) ∧
            (∀ l, PermitOnly l s t ∧ (t.reader l).state =
              (if s.date.isSome = true ∧ (s.reader l).state = .off then .hunt else (s.reader l).state)) ∧
            Frame ([.mailbox, .settings, .types, .templates, .runState, .reader .a, .reader .b, .lane .a, .lane .b] ++
              bayParts) s t))

/-- O23. A settings record passes exactly when its twelve fields lie in their ranges and every entry with route TEST still fits,
and its first failing check gives the first bad setting field; a type is usable exactly by the five tests; a template exactly by
its three; and the settings, type and template records are read from their bytes of the store. That the fit test takes in every
entry with route TEST and copied parameters, DONE ones as well, is the model's reading: log 29. -/
def Obligations.TableChecks : Prop :=
  (∀ (s : State) (w : Settings), s.firstBadField w = none ↔
    w.stationCode.all isLiteral = true ∧ (600 ≤ w.zeroInterval ∧ w.zeroInterval ≤ 7200) ∧
      (1 ≤ w.driftLimit ∧ w.driftLimit ≤ 500) ∧ (5 ≤ w.noteWaitLimit ∧ w.noteWaitLimit ≤ 600) ∧
      (20 ≤ w.riseLimit ∧ w.riseLimit ≤ 600) ∧ (10 ≤ w.settleTime ∧ w.settleTime ≤ 300) ∧
      (120 ≤ w.pressurisedLimit ∧ w.pressurisedLimit ≤ 3600) ∧ (5 ≤ w.transferLimit ∧ w.transferLimit ≤ 60) ∧
      (1 ≤ w.almostFullA ∧ w.almostFullA ≤ 11) ∧ (1 ≤ w.almostFullB ∧ w.almostFullB ≤ 11) ∧
      (w.almostEmptyA ≤ 10 ∧ w.almostEmptyA < w.almostFullA) ∧
      (w.almostEmptyB ≤ 10 ∧ w.almostEmptyB < w.almostFullB) ∧
      ∀ (i : RosterIndex) (p : Params), (s.entry i).route = some .test → (s.entry i).params = some p →
        p.holdTime + w.riseLimit + w.settleTime + 120 ≤ w.zeroInterval ∧
          p.holdTime + w.riseLimit + 15 ≤ w.pressurisedLimit) ∧
  (∀ (t : TypeEntry) (w : Settings) (usableTemplate : Nat → Bool), t.usable w usableTemplate = true ↔
    t.defined = true ∧
      ((5 ≤ t.capacity ∧ t.capacity ≤ 800) ∧ (50 ≤ t.testPressure ∧ t.testPressure ≤ 450) ∧
        (10 ≤ t.holdTime ∧ t.holdTime ≤ 300) ∧ (1 ≤ t.elasticLimit ∧ t.elasticLimit ≤ 65000) ∧
        (10 ≤ t.ratioLimit ∧ t.ratioLimit ≤ 300) ∧ (1 ≤ t.dropTolerance ∧ t.dropTolerance ≤ 100) ∧
        (1 ≤ t.interval ∧ t.interval ≤ 15) ∧ t.template ≤ 15 ∧ (1 ≤ t.strikeClass ∧ t.strikeClass ≤ 3)) ∧
      usableTemplate t.template = true ∧ t.holdTime + w.riseLimit + 15 ≤ w.pressurisedLimit ∧
      t.holdTime + w.riseLimit + w.settleTime + 120 ≤ w.zeroInterval) ∧
  (∀ l : List Byte, templateUsable l = true ↔
    (∀ b ∈ l, expandedLength b ≠ none) ∧ (1 ≤ templateLength l ∧ templateLength l ≤ 24) ∧ 0x02#8 ∈ l ∧ 0x03#8 ∈ l) ∧
  (∀ (s : State) (w : Settings) (k : Nat), s.firstBadField w = some k ↔
    1 ≤ k ∧ k ≤ 13 ∧ ¬SettingOk s w k ∧ ∀ j, 1 ≤ j → j < k → SettingOk s w j) ∧
  (∀ b : Byte, isLiteral b = true ↔
    b.toNat = 0x20 ∨ (0x2D ≤ b.toNat ∧ b.toNat ≤ 0x2F) ∨ (0x30 ≤ b.toNat ∧ b.toNat ≤ 0x39) ∨
      (0x41 ≤ b.toNat ∧ b.toNat ≤ 0x5A)) ∧
  ((∀ b : Byte, isLiteral b = true → expandedLength b = some 1) ∧
    [0x01#8, 0x02#8, 0x03#8, 0x04#8, 0x05#8].map expandedLength = [some 4, some 2, some 2, some 3, some 12] ∧
    (∀ b : Byte, isLiteral b = false → b = 0#8 ∨ 6 ≤ b.toNat → expandedLength b = none) ∧
    templateLength [] = 0 ∧ ∀ b l, templateLength (b :: l) = (expandedLength b).getD 0 + templateLength l) ∧
  ∀ s : State,
    let at1 (a : Nat) : Nat := (s.storeByte a).toNat
    let at2 (a : Nat) : Nat := (s.storeByte a).toNat + 256 * (s.storeByte (a + 1)).toNat
    s.readSettings = ⟨[s.storeByte 0x40, s.storeByte 0x41, s.storeByte 0x42, s.storeByte 0x43], at2 0x44, at2 0x46,
      at2 0x48, at2 0x4A, at2 0x4C, at2 0x4E, at1 0x50, at1 0x51, at1 0x52, at1 0x53, at1 0x54⟩ ∧
    (∀ c : Fin 32, let a := 0x400 + c.val * 0x20
      s.readType (typeAddress c.val) = ⟨decide (s.storeByte a = 1#8), at1 (a + 1), at2 (a + 2), at2 (a + 4),
        at2 (a + 6), at2 (a + 8), at2 (a + 0xA), at1 (a + 0xC), at1 (a + 0xD), at1 (a + 0xE)⟩) ∧
    ∀ k : Fin 16, s.readTemplate k.val =
      ((List.range 24).map (fun j => s.storeByte (0x800 + k.val * 0x20 + j))).takeWhile (fun b => decide (b ≠ 0#8))

/-! ## The note unit and the roster -/

/-- O24. POST NOTE: a slot above 31 is BAD ARGUMENT, and a slot that is not FILLED or has a note in the expect table WRONG STATE.
Of a FILLED slot the content is checked in its order: a note whose content fails is REFUSED with its reason; a note for an
AWAITING NOTE entry is matched to it, its lane acting where it is the head, and the slot TAKEN with its index; a serial already
expected is REFUSED DUPLICATE; and any other note joins the expect table as it was read, its slot POSTED. Each edit writes the
slot's state, reason, index and edit count and no other byte, the unassigned bytes included (the model's reading: log 38). That
the slot is read in one moment is the model's choice: log 34. -/
def Obligations.PostNote : Prop :=
  (∀ (arg : BitVec 24) (s : State), 32 ≤ argByte arg → Heard 0x10#8 arg s →
    Gives (.postNote arg) s (AnsweredOnly 0x10#8 arg .badArgument s)) ∧
  (∀ (arg : BitVec 24) (k : SlotId) (s : State), Heard 0x10#8 arg s → argByte arg = k.val →
    (Expected k s ∨ s.storeByte (slotBase k + 1) ≠ 1#8) →
    Gives (.postNote arg) s (AnsweredOnly 0x10#8 arg .wrongState s)) ∧
  (∀ (k : SlotId) (s : State),
    let kind := s.storeByte (slotBase k + 0x0E)
    let verdict := s.storeByte (slotBase k + 0x0F)
    let force := s.storeByte (slotBase k + 0x10)
    let fields := (∀ b ∈ slotText s k, SerialChar b) ∧ (verdict = 1#8 ∨ verdict = 2#8) ∧ (force = 0#8 ∨ force = 1#8)
    (¬fields → s.checkedNote k = .inl 4#8) ∧
    (fields → ¬(kind.toNat < 32 ∧ s.typeMask.getLsbD kind.toNat = true) → s.checkedNote k = .inl 1#8) ∧
    (fields → ∀ c : Fin 32, kind.toNat = c.val → s.typeMask.getLsbD c.val = true → s.checkedNote k =
      .inr ⟨slotText s k, c, if verdict = 1#8 then .accept else .condemn, decide (force = 1#8), k⟩)) ∧
  ∀ (arg : BitVec 24) (k : SlotId) (s : State), StoreFormed s → Heard 0x10#8 arg s → argByte arg = k.val →
    s.storeByte (slotBase k + 1) = 1#8 → ¬Expected k s →
    (∀ reason, s.checkedNote k = .inl reason → Gives (.postNote arg) s fun t =>
      Answered 0x10#8 arg .badArgument t ∧ SlotEdited k 5#8 reason 0xFF#8 s t ∧
        Frame [.mailbox, .store, .slotCount k] s t) ∧
    (∀ note i, s.checkedNote k = .inr note → AwaitsNote i note.serial s → (∀ j, j < i → ¬AwaitsNote j note.serial s) →
      Gives (.postNote arg) s fun t =>
      Answered 0x10#8 arg .accepted t ∧ SlotEdited k 3#8 0xFF#8 (BitVec.ofNat 8 i.val) s t ∧
        t.entry i = { s.matched note (s.entry i) with editCount := (s.entry i).editCount + 2#8 } ∧
        (∀ l, (s.lane l).queue.head? = some (.entry i) → (s.lane (otherLane l)).queue.head? ≠ some (.entry i) →
          (t.lane l).bare = { s.lane l with noteWait := none }.bare ∧
            ((t.entry i).route = some .test ∨ (s.lane l).state = .fault → Same .claims s t) ∧
            ((t.entry i).route ≠ some .test → (s.lane l).state = .normal → Claimed (.lane l) s t)) ∧
        (∀ l, (s.lane l).queue.head? ≠ some (.entry i) → Same (.lane l) s t) ∧
        ((∀ l, (s.lane l).queue.head? ≠ some (.entry i)) → Same .claims s t) ∧
        Frame [.mailbox, .store, .slotCount k, .entry i, .lane .a, .lane .b, .claims] s t) ∧
    (∀ note, s.checkedNote k = .inr note → (∀ i, ¬AwaitsNote i note.serial s) →
      (∃ old ∈ s.expect, old.serial = note.serial) → Gives (.postNote arg) s fun t =>
      Answered 0x10#8 arg .duplicate t ∧ SlotEdited k 5#8 2#8 0xFF#8 s t ∧
        Frame [.mailbox, .store, .slotCount k] s t) ∧
    (∀ note, s.checkedNote k = .inr note → (∀ i, ¬AwaitsNote i note.serial s) →
      (∀ old ∈ s.expect, old.serial ≠ note.serial) → Gives (.postNote arg) s fun t =>
      Answered 0x10#8 arg .accepted t ∧ t.expect = s.expect ++ [note] ∧ SlotEdited k 2#8 0xFF#8 0xFF#8 s t ∧
        Frame [.mailbox, .store, .slotCount k, .expect] s t)

/-- O25. WITHDRAW NOTE: a slot above 31 is BAD ARGUMENT; a note from the slot in the expect table is removed and the slot written
WITHDRAWN, reason and index absent and no other byte changed, the unassigned bytes included (the model's reading: log 38); with
no note in the table the result is TOO LATE for a slot that reads TAKEN and WRONG STATE for any other, with no effect, its state
read in one moment (the model's choice: log 34). -/
def Obligations.WithdrawNote : Prop :=
  (∀ (arg : BitVec 24) (s : State), 32 ≤ argByte arg → Heard 0x11#8 arg s →
    Gives (.withdrawNote arg) s (AnsweredOnly 0x11#8 arg .badArgument s)) ∧
  ∀ (arg : BitVec 24) (k : SlotId) (s : State), Heard 0x11#8 arg s → argByte arg = k.val →
    (Expected k s → StoreFormed s → Gives (.withdrawNote arg) s fun t =>
      Answered 0x11#8 arg .accepted t ∧ t.expect = s.expect.filter (fun n => decide (n.slot ≠ k)) ∧
        SlotEdited k 4#8 0xFF#8 0xFF#8 s t ∧ Frame [.mailbox, .store, .slotCount k, .expect] s t) ∧
    (¬Expected k s → s.storeByte (slotBase k + 1) = 3#8 →
      Gives (.withdrawNote arg) s (AnsweredOnly 0x11#8 arg .tooLate s)) ∧
    (¬Expected k s → s.storeByte (slotBase k + 1) ≠ 3#8 →
      Gives (.withdrawNote arg) s (AnsweredOnly 0x11#8 arg .wrongState s))

/-- O26. RELEASE ENTRY returns a DONE entry to FREE, raises the free count, and removes the entry's OUTCOME notice from the list;
an index above 47 is BAD ARGUMENT and an entry in any other state WRONG STATE. The FREE entry's arrival time of 0 is the model's
reading: log 17. -/
def Obligations.ReleaseEntry : Prop :=
  ∀ (arg : BitVec 24) (s : State), Heard 0x12#8 arg s →
    (∀ i : RosterIndex, argByte arg = i.val → (s.entry i).state = .done → Gives (.releaseEntry arg) s fun t =>
      Answered 0x12#8 arg .accepted t ∧ t.entry i = Entry.freeEntry ((s.entry i).editCount + 2#8) ∧
        t.freeCount = s.freeCount + 1 ∧ (∀ x ∈ t.notices, x.isOutcomeOf i = false) ∧
        (s.nmb.isSome = true → t.nmb = s.nmb ∧ t.notices = s.notices.filter (fun x => !x.isOutcomeOf i)) ∧
        (∀ l, PermitOnly l s t) ∧ Frame [.mailbox, .entry i, .freeCount, .notices, .lane .a, .lane .b] s t) ∧
    (∀ i : RosterIndex, argByte arg = i.val → (s.entry i).state ≠ .done →
      Gives (.releaseEntry arg) s (AnsweredOnly 0x12#8 arg .wrongState s)) ∧
    (48 ≤ argByte arg → Gives (.releaseEntry arg) s (AnsweredOnly 0x12#8 arg .badArgument s))

/-- O27. The route decision at a match: HOLD UNKNOWN TYPE, DEFACE with CONDEMN VISUAL, PASS-THROUGH with NOT DUE, or TEST, by the
ordered tests and the due rule; with a usable type its figures are copied, and the entry is QUEUED. -/
def Obligations.RouteDecision : Prop :=
  (∀ (s : State) (c : Fin 32), (s.typeMask.getLsbD c.val = true → s.usableType c = s.types[c]) ∧
    (s.typeMask.getLsbD c.val = false → s.usableType c = none)) ∧
  (∀ d : Date, d.months = d.year * 12 + (d.month - 1)) ∧
  ∀ (s : State) (note : Note) (e : Entry) (tag now : Date), e.tagDate = some tag → s.date = some now →
    let m := s.matched note e
    (m.state = .queued ∧ m.noteSlot = some note.slot ∧ m.typeCode = some note.typeCode ∧ m.visual = some note.visual ∧
      m.forceTest = note.forceTest) ∧
    (s.usableType note.typeCode = none → m.route = some .hold ∧ m.holdReason = some .unknownType ∧
      m.params = e.params ∧ m.verdict = e.verdict) ∧
    ∀ t, s.usableType note.typeCode = some t →
      m.params = some ⟨t.testPressure, t.holdTime, t.ratioLimit, t.elasticLimit, t.dropTolerance, t.capacity,
        t.template, t.strikeClass⟩ ∧
      (note.visual = .condemn → m.route = some .deface ∧ m.verdict = some (.condemn .visual) ∧
        m.verdictTime = some s.lineSeconds) ∧
      (note.visual = .accept →
        (tag.months + 12 * t.interval ≤ now.months ∨ now.months < tag.months ∨ note.forceTest = true) →
        m.route = some .test ∧ m.verdict = e.verdict) ∧
      (note.visual = .accept →
        ¬(tag.months + 12 * t.interval ≤ now.months ∨ now.months < tag.months ∨ note.forceTest = true) →
        m.route = some .passThrough ∧ m.verdict = some .notDue ∧ m.verdictTime = some s.lineSeconds)

/-- O28. When a bay with a TESTING entry enters FILLING it reports the start of an attempt: tests started grows by 1, saturating at
15, and every measurement is absent; the rest of the entry stays, and so does every other entry. -/
def Obligations.AttemptStart : Prop :=
  ∀ (s : State) (n : BayId) (i : RosterIndex), (s.bay n).index = some i → (s.entry i).state = .testing →
    (s.enterFilling n).entry i =
      { s.entry i with
        testsStarted := min 15 ((s.entry i).testsStarted + 1)
        meas := Measurements.absent
        editCount := (s.entry i).editCount + 2#8 } ∧
    ∀ j, j ≠ i → (s.enterFilling n).entry j = s.entry j

/-- O29. A void report: the cause is recorded and the measurement set written; a cause that is not counted changes no count; a
counted cause, NO FILL, NO PRESSURE or LEAK, counts, and at the third the entry is condemned RETESTS EXHAUSTED with route DEFACE. A
report for an entry whose route is not TEST is dropped. -/
def Obligations.VoidReport : Prop :=
  ([VoidCause.noFill, .noPressure, .leak].map VoidCause.counted = [true, true, true] ∧
    [VoidCause.overpressure, .pressureLimit, .zeroLapsed, .gauge, .eStop].map VoidCause.counted =
      [false, false, false, false, false]) ∧
  ∀ (s : State) (i : RosterIndex) (c : VoidCause) (m : Option Measurements),
    ((s.entry i).state = .testing → (s.entry i).route = some .test →
      let e := (s.reportVoid i c m).entry i
      e.lastVoid = some c ∧ e.meas = m.getD (s.entry i).meas ∧ e.editCount = (s.entry i).editCount + 2#8 ∧
        (c.counted = false → e.countedVoids = (s.entry i).countedVoids ∧ e.route = some .test ∧
          e.verdict = (s.entry i).verdict) ∧
        (c.counted = true → (s.entry i).countedVoids < 2 → e.countedVoids = (s.entry i).countedVoids + 1 ∧
          e.route = some .test ∧ e.verdict = (s.entry i).verdict) ∧
        (c.counted = true → (s.entry i).countedVoids = 2 → e.countedVoids = 2 ∧ e.route = some .deface ∧
          e.verdict = some (.condemn .retestsExhausted) ∧ e.verdictTime = some s.lineSeconds)) ∧
    ((s.entry i).route ≠ some .test → s.reportVoid i c m = s) ∧
    Frame [.entry i] s (s.reportVoid i c m)

/-- O30. The outcome of an exit and a route: PASSED MARKED, NOT DUE RELEASED, CONDEMNED DEFACED with the verdict's reason, or HELD
with the hold reason. -/
def Obligations.OutcomeTable : Prop :=
  ∀ e : Entry,
    (e.route = some .stamp → exitOutcome .releaseConveyor e = some (.passedMarked, .none)) ∧
    (e.route = some .passThrough → exitOutcome .releaseConveyor e = some (.notDueReleased, .none)) ∧
    (∀ r, e.route = some .deface → e.verdict = some (.condemn r) →
      exitOutcome .scrapBin e = some (.condemnedDefaced, r)) ∧
    ∀ r, e.route = some .hold → e.holdReason = some r → exitOutcome .holdChute e = some (.held, r)

/-! ## The readers -/

/-- O31. In HUNT a 1Dh with a good stop element starts a frame, with nothing taken and a running check of 0; every other character
is discarded, and no count changes. -/
def Obligations.ReaderHunt : Prop :=
  ∀ (l : LaneId) (value : Byte) (stopGood : Bool) (s : State), (s.reader l).state = .hunt →
    (value = 0x1D#8 → stopGood = true → Gives (.readerCharacter l value stopGood) s fun t =>
      (t.reader l).state = .frame ∧ (t.reader l).frame.length = 0 ∧ xorBytes (t.reader l).frame = 0x00#8 ∧
        t.reader l = { s.reader l with state := .frame, frame := [] } ∧ Frame [.reader l] s t) ∧
    (¬(value = 0x1D#8 ∧ stopGood = true) → Gives (.readerCharacter l value stopGood) s fun t =>
      t.reader l = s.reader l ∧ Frame [] s t)

/-- O32. In FRAME a character with a good stop element within its position's set is kept; at position 18 an equal check hands the
identity to the holding buffer and a different one makes the frame bad; a character outside its set, or with a bad stop element,
makes the frame bad; and a SYNC that broke a frame starts a new one. In OFF and FAULT no character is formed. The sets of positions
2 to 17 and the identity a good frame carries are as R41 gives them. -/
def Obligations.ReaderFrame : Prop :=
  ((∀ (p : Nat) (taken : List Byte) (b : Byte), 2 ≤ p → p ≤ 13 → (allowedAt p taken b = true ↔ SerialChar b)) ∧
    (∀ (p : Nat) (taken : List Byte) (b : Byte), p = 14 ∨ p = 15 →
      (allowedAt p taken b = true ↔ 0x30 ≤ b.toNat ∧ b.toNat ≤ 0x39)) ∧
    (∀ (taken : List Byte) (b : Byte), allowedAt 16 taken b = true ↔ b = 0x30#8 ∨ b = 0x31#8) ∧
    ∀ (taken : List Byte) (b : Byte), taken.length = 15 →
      (taken.getLast? = some 0x30#8 → (allowedAt 17 taken b = true ↔ 0x31 ≤ b.toNat ∧ b.toNat ≤ 0x39)) ∧
        (taken.getLast? = some 0x31#8 → (allowedAt 17 taken b = true ↔ 0x30 ≤ b.toNat ∧ b.toNat ≤ 0x32))) ∧
  (∀ (serial : List Byte) (y1 y0 m1 m0 : Byte), serial.length = 12 → identityOf (serial ++ [y1, y0, m1, m0]) =
    ⟨serial, ⟨2000 + (10 * (y1.toNat - 0x30) + (y0.toNat - 0x30)), 10 * (m1.toNat - 0x30) + (m0.toNat - 0x30)⟩⟩) ∧
  ∀ (l : LaneId) (value : Byte) (stopGood : Bool) (s : State),
    let r := s.reader l
    let bad : Reader := { r with state := .hunt, frame := [], badFrames := min 255 (r.badFrames + 1) }
    Gives (.readerCharacter l value stopGood) s fun t =>
      Frame [.reader l] s t ∧
      (r.state = .off ∨ r.state = .fault → t.reader l = r) ∧
      (r.state = .frame →
        (stopGood = false → t.reader l = bad) ∧
        (stopGood = true → r.frame.length < 16 → allowedAt (r.frame.length + 2) r.frame value = true →
          t.reader l = { r with frame := r.frame ++ [value] }) ∧
        (stopGood = true → r.frame.length < 16 → allowedAt (r.frame.length + 2) r.frame value = false →
          value ≠ 0x1D#8 → t.reader l = bad) ∧
        (stopGood = true → r.frame.length < 16 → allowedAt (r.frame.length + 2) r.frame value = false →
          value = 0x1D#8 → t.reader l = { bad with state := .frame }) ∧
        (stopGood = true → 16 ≤ r.frame.length → value ≠ xorBytes r.frame → t.reader l = bad) ∧
        (stopGood = true → 16 ≤ r.frame.length → value = xorBytes r.frame →
          t.reader l = { r with state := .hunt, frame := [] }.store (identityOf r.frame)))

/-- O33. A good frame's identity and the holding buffer: it is stored when the buffer is empty; with the held serial it is dropped
and counted as a duplicate read, the held identity kept; with another serial it replaces the held one and counts an overrun.
Both counts saturate at 255. -/
def Obligations.HoldingBuffer : Prop :=
  ∀ (l : LaneId) (value : Byte) (s : State),
    let r := s.reader l
    let id := identityOf r.frame
    let hunting : Reader := { r with state := .hunt, frame := [] }
    r.state = .frame → 16 ≤ r.frame.length → value = xorBytes r.frame →
    (r.held = none → Gives (.readerCharacter l value true) s fun t =>
      t.reader l = { hunting with held := some id } ∧ Frame [.reader l] s t) ∧
    (∀ old, r.held = some old → old.serial = id.serial → Gives (.readerCharacter l value true) s fun t =>
      t.reader l = { hunting with duplicateReads := min 255 (r.duplicateReads + 1) } ∧ Frame [.reader l] s t) ∧
    ∀ old, r.held = some old → old.serial ≠ id.serial → Gives (.readerCharacter l value true) s fun t =>
      t.reader l = { hunting with held := some id, overruns := min 255 (r.overruns + 1) } ∧ Frame [.reader l] s t

/-- O34. A break in HUNT or FRAME discards the frame, empties the buffer, puts the receiver in FAULT and raises READER BREAK; in OFF
and FAULT it is not watched for. RETURN of the reader takes FAULT to HUNT, and is otherwise answered WRONG STATE. -/
def Obligations.ReaderBreakAndReturn : Prop :=
  (∀ (l : LaneId) (s : State),
    ((s.reader l).state = .hunt ∨ (s.reader l).state = .frame → Gives (.readerBreak l) s fun t =>
      t.reader l = { s.reader l with state := .fault, frame := [], held := none } ∧
        Alerted (readerSource l) .readerBreak t ∧ Frame [.reader l, .notices, .alertSeen] s t) ∧
    ((s.reader l).state = .off ∨ (s.reader l).state = .fault → Gives (.readerBreak l) s (Frame [] s))) ∧
  ∀ (l : LaneId) (arg : BitVec 24) (s : State), Heard 0x30#8 arg s → argByte arg = readerSource l →
    ((s.reader l).state = .fault → Gives (.returnToService arg) s fun t =>
      Answered 0x30#8 arg .accepted t ∧ t.reader l = { s.reader l with state := .hunt } ∧
        Frame [.mailbox, .reader l] s t) ∧
    ((s.reader l).state ≠ .fault → Gives (.returnToService arg) s (AnsweredOnly 0x30#8 arg .wrongState s))

/-! ## The commands of a bay -/

/-- O35. BAY HOLD in AWAIT INTENSIFIER, PRESSURISING or HOLDING takes the bay to SUSPENDED and BAY RESUME sends a SUSPENDED bay back
to AWAIT INTENSIFIER with a new request, each with the comparison of validity and allowance; in any other state both are
answered WRONG STATE. -/
def Obligations.HoldAndResume : Prop :=
  (∀ (arg : BitVec 24) (n : BayId) (s : State), Heard 0x20#8 arg s → argByte arg = n.val + 1 →
    ((s.bay n).state = .holding → Gives (.bayHold arg) s fun t =>
      Answered 0x20#8 arg .accepted t ∧ (t.bay n).bare = ((s.bay n).held .holding).bare ∧
        Frame [.mailbox, .bay n] s t) ∧
    ((s.bay n).state = .pressurising → Gives (.bayHold arg) s fun t =>
      Answered 0x20#8 arg .accepted t ∧
        (t.bay n).bare = { (s.bay n).held .pressurising with coupled := none }.bare ∧
        t.releases = s.releases ++ ((s.bay n).coupled.map (fun i => Release.mk n i)).toList ∧
        Frame [.mailbox, .bay n, .releases] s t) ∧
    ((s.bay n).state = .awaitIntensifier → s.short n = false ∨ (s.bay n).pressurised = true →
      Gives (.bayHold arg) s fun t =>
        Answered 0x20#8 arg .accepted t ∧
          (t.bay n).bare = { (s.bay n).held .awaitIntensifier with requested := false }.bare ∧
          t.requests = s.requests.filter (fun r => decide (r.bay ≠ n)) ∧ DrainTested s t ∧
          Frame [.mailbox, .bay n, .requests, .runState] s t) ∧
    ((s.bay n).state = .awaitIntensifier → s.short n = true → (s.bay n).pressurised = false →
      s.runState ≠ .eStopped → Gives (.bayHold arg) s fun t =>
        Answered 0x20#8 arg .accepted t ∧
          (t.bay n).bare = { (s.bay n).checking (some .suspend) (s.after 40) with requested := false }.bare ∧
          t.requests = s.requests.filter (fun r => decide (r.bay ≠ n)) ∧ DrainTested s t ∧
          Frame [.mailbox, .bay n, .requests, .runState] s t) ∧
    ((s.bay n).state ≠ .awaitIntensifier → (s.bay n).state ≠ .pressurising → (s.bay n).state ≠ .holding →
      Gives (.bayHold arg) s (AnsweredOnly 0x20#8 arg .wrongState s))) ∧
  ∀ (arg : BitVec 24) (n : BayId) (s : State), Heard 0x21#8 arg s → argByte arg = n.val + 1 →
    ((s.bay n).state = .suspended → s.short n = false → Gives (.bayResume arg) s fun t =>
      Answered 0x21#8 arg .accepted t ∧ (t.bay n).bare = (s.bay n).waiting.bare ∧
        (∃ r ∈ t.requests, r.bay = n) ∧
        (Unqueued n s → t.requests = s.requests ++ [⟨n, s.testPressure n⟩] ∧ Same .releases s t ∧
          Same (.intensifier .one) s t ∧ Same (.intensifier .two) s t) ∧
        DrainTested s t ∧
        Frame [.mailbox, .bay n, .requests, .releases, .intensifier .one, .intensifier .two, .runState] s t) ∧
    ((s.bay n).state = .suspended → s.short n = true → (s.bay n).pressurised = true →
      Gives (.bayResume arg) s fun t =>
        Answered 0x21#8 arg .accepted t ∧ (t.bay n).state = .releasing ∧
          (t.bay n).releaseCause = some (.void .zeroLapsed) ∧ (t.bay n).outputs = ventAndDoor ∧
          (∀ r ∈ t.requests, r.bay ≠ n) ∧ DrainTested s t ∧
          Frame [.mailbox, .bay n, .requests, .releases, .intensifier .one, .intensifier .two, .runState] s t) ∧
    ((s.bay n).state = .suspended → s.short n = true → (s.bay n).pressurised = false → s.runState ≠ .eStopped →
      Gives (.bayResume arg) s fun t =>
        Answered 0x21#8 arg .accepted t ∧ (t.bay n).state = .zeroing ∧ (t.bay n).resume = some .request ∧
          (t.bay n).outputs = checkOutputs (s.bay n).index.isSome ∧ (t.bay n).stepTimer = some (s.after 40) ∧
          (∀ r ∈ t.requests, r.bay ≠ n) ∧ DrainTested s t ∧
          Frame [.mailbox, .bay n, .requests, .releases, .intensifier .one, .intensifier .two, .runState] s t) ∧
    ((s.bay n).state ≠ .suspended → Gives (.bayResume arg) s (AnsweredOnly 0x21#8 arg .wrongState s))

/-- O36. BAY ABORT: an attempt under pressure vents with release cause ABORT; one with no pressure, and one in SETTLING, is
reported aborted and the bay unloads with a claim; in RELEASING the aborted flag is set; UNLOADING is TOO LATE, and every
other state WRONG STATE. The model's choice on routes: log 30. -/
def Obligations.BayAbort : Prop :=
  ∀ (arg : BitVec 24) (n : BayId) (s : State), Heard 0x22#8 arg s → argByte arg = n.val + 1 →
    ((s.bay n).state = .pressurising ∨ (s.bay n).state = .holding ∨
        ((s.bay n).state = .awaitIntensifier ∨ (s.bay n).state = .suspended) ∧ (s.bay n).pressurised = true →
      Gives (.bayAbort arg) s fun t =>
        Answered 0x22#8 arg .accepted t ∧ Releases n .abort s t ∧
          Frame [.mailbox, .bay n, .requests, .releases] s t) ∧
    (∀ i, (s.bay n).index = some i →
      (s.bay n).state = .filling ∨
        ((s.bay n).state = .awaitIntensifier ∨ (s.bay n).state = .suspended) ∧ (s.bay n).pressurised = false →
      Gives (.bayAbort arg) s fun t =>
        Answered 0x22#8 arg .accepted t ∧ (t.bay n).bare = { (s.bay n).unloading with requested := false }.bare ∧
          t.requests = s.requests.filter (fun r => decide (r.bay ≠ n)) ∧ AbortReported i s t ∧
          Claimed (.bay n) s t ∧ Frame [.mailbox, .bay n, .requests, .claims, .entry i] s t) ∧
    ((s.bay n).state = .releasing → Gives (.bayAbort arg) s fun t =>
      Answered 0x22#8 arg .accepted t ∧ (t.bay n).bare = { s.bay n with aborted := true }.bare ∧
        Frame [.mailbox, .bay n] s t) ∧
    (∀ i, (s.bay n).index = some i → (s.bay n).state = .settling → Gives (.bayAbort arg) s fun t =>
      Answered 0x22#8 arg .accepted t ∧ (t.bay n).bare = { (s.bay n).unloading with aborted := true }.bare ∧
        AbortReported i s t ∧ Claimed (.bay n) s t ∧ Frame [.mailbox, .bay n, .claims, .entry i] s t) ∧
    ((s.bay n).state = .unloading → Gives (.bayAbort arg) s (AnsweredOnly 0x22#8 arg .tooLate s)) ∧
    ((s.bay n).state = .starting ∨ (s.bay n).state = .zeroing ∨ (s.bay n).state = .idle ∨
        (s.bay n).state = .loading ∨ (s.bay n).state = .offline ∨ (s.bay n).state = .fault →
      Gives (.bayAbort arg) s (AnsweredOnly 0x22#8 arg .wrongState s))

/-- O37. BAY ZERO takes an IDLE bay to ZEROING, outside E-STOPPED; SERVICE LINE sets one output of an OFFLINE bay, outside
E-STOPPED; otherwise both are answered WRONG STATE; and a bay, line or level outside its range is BAD ARGUMENT. -/
def Obligations.ZeroAndServiceLine : Prop :=
  (∀ (arg : BitVec 24) (n : BayId) (s : State), Heard 0x23#8 arg s → argByte arg = n.val + 1 →
    ((s.bay n).state = .idle → s.runState ≠ .eStopped → Gives (.bayZero arg) s fun t =>
      Answered 0x23#8 arg .accepted t ∧ Checks n none s t ∧ Frame [.mailbox, .bay n] s t) ∧
    ((s.bay n).state ≠ .idle ∨ s.runState = .eStopped →
      Gives (.bayZero arg) s (AnsweredOnly 0x23#8 arg .wrongState s))) ∧
  (∀ (arg : BitVec 24) (n : BayId) (line : Nat) (level : Bool) (s : State), Heard 0x25#8 arg s →
    argHigh arg = n.val + 1 → argMiddle arg = line → 1 ≤ line → line ≤ 5 → argByte arg = level.toNat →
    ((s.bay n).state = .offline → s.runState ≠ .eStopped → Gives (.serviceLine arg) s fun t =>
      let o := (s.bay n).outputs
      let p := (t.bay n).outputs
      Answered 0x25#8 arg .accepted t ∧ (t.bay n).bare = { s.bay n with outputs := p }.bare ∧
        p.fill = (if line = 1 then level else o.fill) ∧ p.isolate = (if line = 2 then level else o.isolate) ∧
        p.vent = (if line = 3 then level else o.vent) ∧ p.door = (if line = 4 then level else o.door) ∧
        p.buretteDrain = (if line = 5 then level else o.buretteDrain) ∧ p.couple1 = o.couple1 ∧
        p.couple2 = o.couple2 ∧ Frame [.mailbox, .bay n] s t) ∧
    ((s.bay n).state ≠ .offline ∨ s.runState = .eStopped →
      Gives (.serviceLine arg) s (AnsweredOnly 0x25#8 arg .wrongState s))) ∧
  (∀ (arg : BitVec 24) (s : State), Heard 0x25#8 arg s →
    (argHigh arg = 0 ∨ 7 ≤ argHigh arg ∨ argMiddle arg = 0 ∨ 6 ≤ argMiddle arg ∨ 2 ≤ argByte arg) →
    Gives (.serviceLine arg) s (AnsweredOnly 0x25#8 arg .badArgument s)) ∧
  ∀ (arg : BitVec 24) (s : State), (argByte arg = 0 ∨ 7 ≤ argByte arg) →
    (Heard 0x20#8 arg s → Gives (.bayHold arg) s (AnsweredOnly 0x20#8 arg .badArgument s)) ∧
    (Heard 0x21#8 arg s → Gives (.bayResume arg) s (AnsweredOnly 0x21#8 arg .badArgument s)) ∧
    (Heard 0x22#8 arg s → Gives (.bayAbort arg) s (AnsweredOnly 0x22#8 arg .badArgument s)) ∧
    (Heard 0x23#8 arg s → Gives (.bayZero arg) s (AnsweredOnly 0x23#8 arg .badArgument s))

/-! ## Service commands that name a source -/

/-- O38. TAKE OUT OF SERVICE: the bays, the intensifiers and the stations by their tables; every other source is BAD
ARGUMENT. That a bay keeps its fault cause in OFFLINE is the model's reading: log 19. -/
def Obligations.TakeOutOfService : Prop :=
  (∀ (arg : BitVec 24) (n : BayId) (s : State), Heard 0x24#8 arg s → argByte arg = n.val + 5 →
    ((s.bay n).state = .starting ∨ (s.bay n).state = .idle ∨
        ((s.bay n).state = .zeroing ∨ (s.bay n).state = .fault) ∧ (s.bay n).index = none →
      Gives (.takeOutOfService arg) s fun t =>
        Answered 0x24#8 arg .accepted t ∧
          (t.bay n).bare = { s.bay n with
            state := .offline
            outputs := BayOutputs.rest
            stepTimer := none
            kept := none
            failures := 0 }.bare ∧
          Frame [.mailbox, .bay n] s t) ∧
    (¬((s.bay n).state = .starting ∨ (s.bay n).state = .idle ∨
        ((s.bay n).state = .zeroing ∨ (s.bay n).state = .fault) ∧ (s.bay n).index = none) →
      Gives (.takeOutOfService arg) s (AnsweredOnly 0x24#8 arg .wrongState s))) ∧
  (∀ (arg : BitVec 24) (i : IntensifierId) (s : State), Heard 0x24#8 arg s → argByte arg = intensifierSource i →
    let x := s.intensifier i
    (x.state = .free ∨ x.state = .fault → Gives (.takeOutOfService arg) s fun t =>
      Answered 0x24#8 arg .accepted t ∧ (t.intensifier i).bare = { x with state := .offline }.bare ∧
        Frame [.mailbox, .intensifier i] s t) ∧
    (x.state = .retuning ∨ x.state = .driving → x.pendingOffline = false → Gives (.takeOutOfService arg) s fun t =>
      Answered 0x24#8 arg .accepted t ∧ (t.intensifier i).bare = { x with pendingOffline := true }.bare ∧
        Frame [.mailbox, .intensifier i] s t) ∧
    (x.state = .retuning ∨ x.state = .driving → x.pendingOffline = true →
      Gives (.takeOutOfService arg) s (AnsweredOnly 0x24#8 arg .duplicate s)) ∧
    (x.state = .offline → Gives (.takeOutOfService arg) s (AnsweredOnly 0x24#8 arg .wrongState s))) ∧
  (∀ (arg : BitVec 24) (st : StationId) (s : State), Heard 0x24#8 arg s → argByte arg = stationSource st →
    let x := s.station st
    (x.state = .idle → Gives (.takeOutOfService arg) s fun t =>
      Answered 0x24#8 arg .accepted t ∧ (t.station st).bare = { x with state := .offline }.bare ∧
        Frame [.mailbox, .station st] s t) ∧
    (x.state = .fault → x.nest = .empty ∨ x.nest = .loaded → Gives (.takeOutOfService arg) s fun t =>
      Answered 0x24#8 arg .accepted t ∧
        (t.station st).bare = { x with
          state := .offline
          faultCause := none
          reoffer := if x.nest = Nest.loaded then 0 else x.reoffer }.bare ∧
        Frame [.mailbox, .station st] s t) ∧
    (¬(x.state = .idle ∨ x.state = .fault ∧ (x.nest = .empty ∨ x.nest = .loaded)) →
      Gives (.takeOutOfService arg) s (AnsweredOnly 0x24#8 arg .wrongState s))) ∧
  ∀ (arg : BitVec 24) (s : State), Heard 0x24#8 arg s → (argByte arg ≤ 4 ∨ 15 ≤ argByte arg) →
    Gives (.takeOutOfService arg) s (AnsweredOnly 0x24#8 arg .badArgument s)

/-- O39. RETURN: the bays (none in E-STOPPED), the intensifiers, the stations and the outfeed by their tables; the sources with
no RETURN are BAD ARGUMENT. That a bay's fault cause stays until the RETURN of a bay with no cylinder is the model's reading:
log 19. -/
def Obligations.ReturnToService : Prop :=
  (∀ (arg : BitVec 24) (n : BayId) (s : State), Heard 0x30#8 arg s → argByte arg = n.val + 5 →
    let b := s.bay n
    (s.runState = .eStopped → Gives (.returnToService arg) s (AnsweredOnly 0x30#8 arg .wrongState s)) ∧
    (s.runState ≠ .eStopped → b.state = .offline → Gives (.returnToService arg) s fun t =>
      Answered 0x30#8 arg .accepted t ∧
        (t.bay n).bare = { b.checking none (s.after 40) with checksOwed := max 1 b.checksOwed }.bare ∧
        Frame [.mailbox, .bay n] s t) ∧
    (s.runState ≠ .eStopped → b.state = .fault → b.index = none → Gives (.returnToService arg) s fun t =>
      Answered 0x30#8 arg .accepted t ∧
        (t.bay n).bare = { b.checking none (s.after 40) with
          faultCause := none
          zeroReference := if b.faultCause = some AlertCode.gaugeDrift then none else b.zeroReference
          checksOwed := if b.faultCause = some AlertCode.gaugeDrift then 2 else max 1 b.checksOwed }.bare ∧
        Frame [.mailbox, .bay n] s t) ∧
    (s.runState ≠ .eStopped → b.state = .fault → b.index.isSome = true → b.faultCause = some .ventFailure →
      Gives (.returnToService arg) s fun t =>
        Answered 0x30#8 arg .accepted t ∧ (t.bay n).state = .releasing ∧ (t.bay n).outputs = ventAndDoor ∧
          (t.bay n).releaseCause = b.releaseCause ∧ (t.bay n).stepTimer = some (s.after 60) ∧
          (t.bay n).checksOwed = max 1 b.checksOwed ∧ (t.bay n).index = b.index ∧ (t.bay n).et = b.et ∧
          (t.bay n).drop = b.drop ∧ (t.bay n).zeroReference = b.zeroReference ∧ Frame [.mailbox, .bay n] s t) ∧
    (s.runState ≠ .eStopped → b.state = .fault → b.index.isSome = true → b.faultCause = some .gaugeDrift →
      Gives (.returnToService arg) s fun t =>
        Answered 0x30#8 arg .accepted t ∧
          (t.bay n).bare = { b.checking b.resume (s.after 40) with zeroReference := none, checksOwed := 2 }.bare ∧
          Frame [.mailbox, .bay n] s t) ∧
    (b.state ≠ .offline → b.state ≠ .fault →
      Gives (.returnToService arg) s (AnsweredOnly 0x30#8 arg .wrongState s))) ∧
  (∀ (arg : BitVec 24) (i : IntensifierId) (s : State), Heard 0x30#8 arg s → argByte arg = intensifierSource i →
    let x := s.intensifier i
    (x.state = .offline ∨ x.state = .fault → x.faultInput = false → Gives (.returnToService arg) s fun t =>
      Answered 0x30#8 arg .accepted t ∧
        (t.intensifier i).bare = { x with state := .free, setpoint := none }.bare ∧
        Frame [.mailbox, .intensifier i] s t) ∧
    (x.state = .retuning ∨ x.state = .driving → x.pendingOffline = true → Gives (.returnToService arg) s fun t =>
      Answered 0x30#8 arg .accepted t ∧ (t.intensifier i).bare = { x with pendingOffline := false }.bare ∧
        Frame [.mailbox, .intensifier i] s t) ∧
    ((x.state = .offline ∨ x.state = .fault) ∧ x.faultInput = true ∨
        (x.state = .retuning ∨ x.state = .driving) ∧ x.pendingOffline = false ∨ x.state = .free →
      Gives (.returnToService arg) s (AnsweredOnly 0x30#8 arg .wrongState s))) ∧
  (∀ (arg : BitVec 24) (st : StationId) (s : State), Heard 0x30#8 arg s → argByte arg = stationSource st →
    let x := s.station st
    (x.state = .fault ∨ x.state = .offline → x.nest = .loaded → Gives (.returnToService arg) s fun t =>
      Answered 0x30#8 arg .accepted t ∧
        (t.station st).bare = { x with state := .nestLoaded, faultCause := none, reoffer := 0 }.bare ∧
        Frame [.mailbox, .station st] s t) ∧
    (x.state = .fault ∨ x.state = .offline → x.nest = .empty → Gives (.returnToService arg) s fun t =>
      Answered 0x30#8 arg .accepted t ∧ (t.station st).bare = { x with state := .idle, faultCause := none }.bare ∧
        Frame [.mailbox, .station st] s t) ∧
    (¬((x.state = .fault ∨ x.state = .offline) ∧ (x.nest = .loaded ∨ x.nest = .empty)) →
      Gives (.returnToService arg) s (AnsweredOnly 0x30#8 arg .wrongState s))) ∧
  (∀ (arg : BitVec 24) (s : State), Heard 0x30#8 arg s → argByte arg = 15 →
    (s.outfeedState = .fault → Gives (.returnToService arg) s fun t =>
      Answered 0x30#8 arg .accepted t ∧ t.outfeedState = .normal ∧ t.outfeedQueue = s.outfeedQueue ∧
        t.outfeedHeadInFlight = s.outfeedHeadInFlight ∧ Frame [.mailbox, .outfeed] s t) ∧
    (s.outfeedState = .normal → Gives (.returnToService arg) s (AnsweredOnly 0x30#8 arg .wrongState s))) ∧
  ∀ (arg : BitVec 24) (s : State), Heard 0x30#8 arg s →
    (argByte arg = 0 ∨ argByte arg = 3 ∨ argByte arg = 4 ∨ 16 ≤ argByte arg) →
    Gives (.returnToService arg) s (AnsweredOnly 0x30#8 arg .badArgument s)

/-! ## Lanes -/

/-- O40. LANE CLEAR: WRONG STATE while a NORMAL lane's head transfer is in flight; otherwise the queue is emptied, each AWAITING NOTE
or QUEUED entry of it closed REMOVED, the note wait stopped, the claim withdrawn, and the lane NORMAL; the empty lane's IDLE bays
with an old validity zero-check. -/
def Obligations.LaneClear : Prop :=
  (∀ (arg : BitVec 24) (l : LaneId) (s : State), Heard 0x31#8 arg s → laneOfNumber (argByte arg) = some l →
    ((s.lane l).state = .normal → (s.lane l).headInFlight = true →
      Gives (.laneClear arg) s (AnsweredOnly 0x31#8 arg .wrongState s)) ∧
    ((s.lane l).state = .fault ∨ (s.lane l).headInFlight = false → Gives (.laneClear arg) s fun t =>
      Answered 0x31#8 arg .accepted t ∧
        (t.lane l).bare = { s.lane l with
          queue := []
          state := .normal
          noteWait := none
          permit := t.permitHolds l }.bare ∧
        PermitOnly (otherLane l) s t ∧ t.claims = s.claims.filter (fun c => decide (c ≠ .lane l)) ∧
        (∀ i : RosterIndex, Item.entry i ∈ (s.lane l).queue →
          (s.entry i).state = .awaitingNote ∨ (s.entry i).state = .queued → Closed i .removed .laneClear s t) ∧
        (∀ n, laneOf n = l → Proactive n s t) ∧ DrainTested s t ∧
        Frame ([.mailbox, .lane .a, .lane .b, .claims, .notices, .runState] ++ groupParts l ++
          (s.lane l).queue.flatMap itemParts) s t)) ∧
  ∀ (arg : BitVec 24) (s : State), Heard 0x31#8 arg s → 2 ≤ argByte arg →
    Gives (.laneClear arg) s (AnsweredOnly 0x31#8 arg .badArgument s)

/-! ## Emergency stop and the line seconds -/

/-- O41. E_STOP_ASSERTED in READY, RUNNING or STOPPING: the run state is E-STOPPED with its alert, the permits are off, the
limits of transfers in flight stop, the request queue empties and couplings end, offerings break off, and each bay acts by
its state: an attempt under pressure vents, one without is voided E-STOP, and so is one that a zero check holds open; a bay whose
entry's route is no longer TEST unloads with a claim, and no other claim is placed. In the other run states the input's level
alone is recorded. The model's choices: grants and releases in flight are dropped (log 8), the bays act in number order (log 22),
reports are dropped for a route other than TEST (log 30), a step kept for the release is held apart (log 36), the
release cause ends at the report (log 43). -/
def Obligations.EStopAsserted : Prop :=
  ∀ s : State,
    (s.eStopInput = true → Gives .eStopAsserted s (Frame [] s)) ∧
    (s.eStopInput = false → s.runState = .awaitingTables ∨ s.runState = .eStopped → Gives .eStopAsserted s fun t =>
      t.eStopInput = true ∧ Frame [.eStopInput] s t) ∧
    (s.eStopInput = false → s.runState = .ready ∨ s.runState = .running ∨ s.runState = .stopping →
      Gives .eStopAsserted s fun t =>
        (t.eStopInput = true ∧ t.runState = .eStopped ∧ Alerted runSource .eStopAsserted t) ∧
        (∀ l, (t.lane l).bare = { s.lane l with
          permit := false
          track := (s.lane l).track.map (Position.mapTransit Transit.stopped) }.bare) ∧
        (t.outfeedState = s.outfeedState ∧ t.outfeedHeadInFlight = s.outfeedHeadInFlight ∧
          t.outfeedQueue = s.outfeedQueue.map (Position.mapTransit Transit.stopped) ∧
          t.exits = s.exits.map (fun x => { x with transit := x.transit.stopped })) ∧
        (t.requests = [] ∧ t.releases = []) ∧
        (∀ i, let x := s.intensifier i
          (x.state = .retuning ∨ x.state = .driving → (t.intensifier i).bare = { x with
            state := if x.pendingOffline then .offline else .free
            coupledBay := none
            requested := none
            retuneExpiry := none
            pendingOffline := false }.bare) ∧
          (x.state = .free ∨ x.state = .fault ∨ x.state = .offline → (t.intensifier i).bare = x.bare)) ∧
        (∀ st, let x := { s.station st with loading := (s.station st).loading.map Transit.stopped }
          (x.state = .offering → (t.station st).bare = { x with
            state := .nestLoaded
            orderReady := false
            limit := none
            bytePos := none }.bare) ∧
          (x.state ≠ .offering → (t.station st).bare = x.bare)) ∧
        (∀ n, let b := { s.bay n with loading := (s.bay n).loading.map Transit.stopped, grants := [] }
          (b.state = .pressurising ∨ b.state = .holding ∨
              (b.state = .awaitIntensifier ∨ b.state = .suspended) ∧ b.pressurised = true →
            (t.bay n).bare = (b.releasing (.void .eStop) (s.after 60)).bare) ∧
          (∀ i, b.index = some i → (∀ m, m ≠ n → (s.bay m).index ≠ some i) → (s.entry i).state = .testing →
            (s.entry i).route = some .test → b.aborted = false →
            b.unpressurisedAttempt →
            (t.bay n).bare = { b with
                state := .settling
                outputs := ventAndDoor
                releaseCause := none
                suspendedFrom := none
                stepTimer := none
                risePaused := none
                requested := false
                kept := some .fillStep }.bare ∧
              t.entry i = { s.entry i with lastVoid := some .eStop }.edited) ∧
          (∀ i, b.index = some i → (∀ m, m ≠ n → (s.bay m).index ≠ some i) → (s.entry i).route ≠ some .test →
            b.aborted = false → b.unpressurisedAttempt →
            (t.bay n).bare = { b with requested := false }.unloading.bare ∧ Claimant.bay n ∈ t.claims ∧
              t.entry i = s.entry i) ∧
          (∀ i, b.index = some i → (∀ m, m ≠ n → (s.bay m).index ≠ some i) → (s.entry i).state = .testing →
            (s.entry i).route = some .test → b.openCheck →
            t.entry i = { s.entry i with lastVoid := some .eStop }.edited) ∧
          (b.state = .zeroing → (t.bay n).bare = { b with
            stepTimer := none
            outputs := { b.outputs with buretteDrain := false }
            resume :=
              if (b.resume = some ResumePoint.request ∨ b.resume = some ResumePoint.suspend) ∧ b.index.isSome = true then some .fill
              else b.resume }.bare) ∧
          (b.state = .offline → (t.bay n).bare = { b with outputs := BayOutputs.rest }.bare) ∧
          (b.state = .starting ∨ b.state = .idle ∨ b.state = .loading ∨ b.state = .releasing ∨ b.state = .settling ∨
              b.state = .unloading ∨ b.state = .fault → (t.bay n).bare = b.bare)) ∧
        (∀ i, (∀ n, (s.bay n).index = some i → ¬(s.bay n).unpressurisedAttempt ∧ ¬(s.bay n).openCheck) →
          t.entry i = s.entry i) ∧
        (s.claims <+: t.claims ∧
          (∀ c ∈ t.claims, c ∉ s.claims → ∃ n, c = .bay n ∧ (s.bay n).unpressurisedAttempt) ∧
          ((∀ n, (s.bay n).unpressurisedAttempt → (s.bay n).aborted = false ∧
            ∀ i, (s.bay n).index = some i → (s.entry i).route = some .test) → t.claims = s.claims)) ∧
        Frame ([.eStopInput, .runState, .notices, .alertSeen, .lane .a, .lane .b, .outfeed, .exits, .claims,
          .requests, .releases, .intensifier .one, .intensifier .two, .station .stamper, .station .defacer] ++
          bayParts ++ entryParts) s t)

/-- O42. E_STOP_RELEASED in E-STOPPED: the run state is READY with its alert, every bay owes at least one check, the limits
of transfers in flight restart in full, and each bay takes the step it was kept from. In the other run states the input's
level alone is recorded. The bays act in number order, the model's choice: log 22. -/
def Obligations.EStopReleased : Prop :=
  ∀ s : State,
    (s.eStopInput = false → Gives .eStopReleased s (Frame [] s)) ∧
    (s.eStopInput = true → s.runState ≠ .eStopped → Gives .eStopReleased s fun t =>
      t.eStopInput = false ∧ Frame [.eStopInput] s t) ∧
    (s.eStopInput = true → s.runState = .eStopped → Gives .eStopReleased s fun t =>
      let restart := Transit.restarted s.lineSeconds
      (t.eStopInput = false ∧ t.runState = .ready ∧ Alerted runSource .eStopReleased t) ∧
      (∀ l, (t.lane l).bare = { s.lane l with
        permit := false
        track := (s.lane l).track.map (Position.mapTransit restart) }.bare) ∧
      (t.outfeedState = s.outfeedState ∧ t.outfeedHeadInFlight = s.outfeedHeadInFlight ∧
        t.outfeedQueue = s.outfeedQueue.map (Position.mapTransit restart) ∧
        t.exits = s.exits.map (fun x => { x with transit := restart x.transit })) ∧
      (∀ st, (t.station st).bare =
        { s.station st with loading := (s.station st).loading.map restart }.bare) ∧
      (∀ n, let b := { s.bay n with
            checksOwed := max 1 (s.bay n).checksOwed
            loading := (s.bay n).loading.map restart }
        (t.bay n).bare =
          (match b.state with
           | .loading =>
             if b.loading = none ∧ b.index.isSome = true then b.checking (some .fill) (s.after 40) else b
           | .zeroing =>
             if b.stepTimer = none then
               { b with
                 outputs := { b.outputs with buretteDrain := true }
                 stepTimer := some (s.after 40)
                 sampleSeen := false }
             else b
           | .idle => b.checking none (s.after 40)
           | .starting => if s.tablesHeld then b.checking none (s.after 40) else b
           | _ =>
             match b.kept with
             | some .fillStep => b.checking (some .fill) (s.after 40)
             | some (.zeroing rp) => b.checking (some rp) (s.after 40)
             | none => b).bare) ∧
      Frame ([.eStopInput, .runState, .notices, .alertSeen, .lane .a, .lane .b, .outfeed, .exits,
        .station .stamper, .station .defacer] ++ bayParts) s t)

/-- O43. LINE_SECONDS_ADVANCE adds one to the line seconds, wrapping, and counts every bay's validity down by one, but for
OFFLINE and STARTING and a validity of 0; a validity that reaches 0 takes an IDLE bay to ZEROING and sets the lapsed flag of
an attempt, and so does an old one under the proactive trigger; a shortfall in AWAIT INTENSIFIER, and in SUSPENDED with no
pressure, acts; no other request leaves the queue. ZERO_VALIDITY_LAPSE makes a bay whose validity is 0 act on it, and changes
nothing else. The model's choices: the lapse is done at the count-down (log 3); an attempt aborted under pressure lasts until its
report (log 40). -/
def Obligations.LineSecondsAndLapse : Prop :=
  (∀ s : State, Gives .lineSecondsAdvance s fun t =>
    t.lineSeconds = s.lineSeconds + 1#32 ∧ DrainTested s t ∧
      (∀ n, let b := s.bay n
        let c := { b with validity := b.validity - 1 }
        let lapsing (open_ : Bool) : Bay := { c with lapsed := b.lapsed || (decide (b.validity = 1) && open_) }
        (b.state = .offline ∨ b.state = .starting ∨ b.validity = 0 → t.bay n = b) ∧
        (b.state ≠ .offline → b.state ≠ .starting → (t.bay n).validity = b.validity - 1) ∧
        (b.state = .idle → b.validity = 1 → s.runState ≠ .eStopped →
          (t.bay n).bare = (c.checking none (t.after 40)).bare) ∧
        (b.state = .idle → 1 < b.validity → s.runState ≠ .eStopped →
          (OldValidity n (b.validity - 1) s → (t.bay n).bare = (c.checking none (t.after 40)).bare) ∧
          (¬OldValidity n (b.validity - 1) s → (t.bay n).bare = c.bare)) ∧
        (b.state = .idle → 0 < b.validity → s.runState = .eStopped → (t.bay n).bare = c.bare) ∧
        (b.state = .pressurising ∨ b.state = .holding ∨ b.state = .releasing → 0 < b.validity →
          (t.bay n).bare = { c with lapsed := b.lapsed || decide (b.validity = 1) }.bare) ∧
        (b.state = .filling ∨ b.state = .settling → 0 < b.validity →
          (t.bay n).bare = (lapsing b.kept.isNone).bare) ∧
        (b.state = .zeroing → 0 < b.validity → (t.bay n).bare =
          (lapsing (decide (b.resume = some ResumePoint.request ∨ b.resume = some ResumePoint.suspend))).bare) ∧
        (b.state = .fault → 0 < b.validity → (t.bay n).bare = (lapsing b.releaseCause.isSome).bare) ∧
        (b.state = .loading ∨ b.state = .unloading → 0 < b.validity → (t.bay n).bare = c.bare) ∧
        (b.state = .awaitIntensifier ∧ ¬FallsShort n s ∨
            b.state = .suspended ∧ (¬FallsShort n s ∨ b.pressurised = true) → 0 < b.validity →
          (t.bay n).bare = (lapsing true).bare) ∧
        (∀ p, s.bayParams n = some p → b.state = .awaitIntensifier → 0 < b.validity →
          b.validity ≤ s.allowance p →
          (b.pressurised = true → (t.bay n).state = .releasing ∧
            (t.bay n).releaseCause = some (.void .zeroLapsed) ∧
            (t.bay n).bare = ((lapsing true).releasing (.void .zeroLapsed) (t.after 60)).bare ∧
            (∀ r ∈ t.requests, r.bay ≠ n)) ∧
          (b.pressurised = false → s.runState ≠ .eStopped → (t.bay n).state = .zeroing ∧
            (t.bay n).resume = some .request ∧
            (t.bay n).bare =
              { (lapsing true).checking (some .request) (t.after 40) with requested := false }.bare ∧
            (∀ r ∈ t.requests, r.bay ≠ n))) ∧
        (∀ p, s.bayParams n = some p → b.state = .suspended → 0 < b.validity → b.validity ≤ s.allowance p →
          b.pressurised = false → s.runState ≠ .eStopped →
          (t.bay n).bare = ((lapsing true).checking (some .suspend) (t.after 40)).bare)) ∧
      (t.requests.Sublist s.requests ∧
        ∀ r ∈ s.requests, ¬((s.bay r.bay).state = .awaitIntensifier ∧ FallsShort r.bay s) → r ∈ t.requests) ∧
      s.releases <+: t.releases ∧
      Frame ([.runState, .lineSeconds, .requests, .releases] ++ bayParts) s t) ∧
  ∀ (n : BayId) (s : State),
    let b := s.bay n
    (b.validity ≠ 0 → Gives (.zeroValidityLapse n) s (Frame [] s)) ∧
    (b.validity = 0 → b.state = .idle → s.runState ≠ .eStopped → Gives (.zeroValidityLapse n) s fun t =>
      Checks n none s t ∧ Frame [.bay n] s t) ∧
    (b.validity = 0 → b.state = .awaitIntensifier ∨ b.state = .pressurising ∨ b.state = .holding ∨
        b.state = .suspended ∨ b.state = .releasing → Gives (.zeroValidityLapse n) s fun t =>
      (t.bay n).bare = { b with lapsed := true }.bare ∧ Frame [.bay n] s t) ∧
    (b.validity = 0 → b.attemptUnended → Gives (.zeroValidityLapse n) s fun t =>
      (t.bay n).bare = { b with lapsed := true }.bare ∧ Frame [.bay n] s t) ∧
    (b.state = .filling ∨ b.state = .settling ∨ b.state = .zeroing ∨ b.state = .fault → ¬b.attemptUnended →
      Gives (.zeroValidityLapse n) s (Frame [] s)) ∧
    (b.state = .starting ∨ b.state = .loading ∨ b.state = .unloading ∨ b.state = .offline ∨
        b.state = .idle ∧ s.runState = .eStopped → Gives (.zeroValidityLapse n) s (Frame [] s))

/-! ## Arrivals and the head of a lane -/

/-- O44. An arrival at a NORMAL lane with room takes the lowest-numbered FREE entry and the holding buffer's identity: UNIDENTIFIED,
DUPLICATE IDENTITY, AWAITING NOTE, or matched at once with its note, whose slot is written TAKEN with the index and no other
byte (the unassigned bytes are left: the model's reading, log 38); the entry joins the queue at its tail, and as the head it starts the note wait or the lane claims; the lane's IDLE bays with
an old validity zero-check while its occupancy stays at or below almost-empty. -/
def Obligations.ArrivalRostered : Prop :=
  ∀ (l : LaneId) (i : RosterIndex) (s : State), s.runState ≠ .awaitingTables → (s.lane l).state = .normal →
    (s.lane l).queue.length < 12 → (s.entry i).state = .free → (∀ j, j < i → (s.entry j).state ≠ .free) →
    Gives (.arrival l) s fun t =>
      let base := { Entry.freeEntry ((s.entry i).editCount + 2#8) with
        place := .lane l
        arrivalTime := s.lineSeconds }
      (t.reader l = { s.reader l with held := none } ∧ (t.lane l).queue = (s.lane l).queue ++ [.entry i] ∧
        t.freeCount = s.freeCount - 1 ∧ PermitSet t l ∧ PermitOnly (otherLane l) s t ∧
        ∀ n, laneOf n = l → Proactive n s t) ∧
      ((s.reader l).held = none →
        t.entry i = { base with state := .queued, route := some .hold, holdReason := some .unidentified } ∧
          Same .expect s t ∧ Same .store s t ∧ t.slotCounts = s.slotCounts) ∧
      (∀ id, (s.reader l).held = some id →
        let named := { base with serial := some id.serial, tagDate := some id.date }
        ((∃ j, (s.entry j).state.live = true ∧ (s.entry j).serial = some id.serial) →
          t.entry i = { named with state := .queued, route := some .hold, holdReason := some .duplicateIdentity } ∧
            Same .expect s t ∧ Same .store s t ∧ t.slotCounts = s.slotCounts) ∧
        ((∀ j, (s.entry j).state.live = true → (s.entry j).serial ≠ some id.serial) →
          ((∀ note ∈ s.expect, note.serial ≠ id.serial) → t.entry i = { named with state := .awaitingNote } ∧
            Same .expect s t ∧ Same .store s t ∧ t.slotCounts = s.slotCounts) ∧
          (∀ note pre post, s.expect = pre ++ note :: post → note.serial = id.serial →
            (∀ other ∈ pre, other.serial ≠ id.serial) → t.entry i = s.matched note named ∧
            t.expect = s.expect.filter (fun n => decide (n.slot ≠ note.slot)) ∧
            (∀ k, k ≠ note.slot → Same (.slotCount k) s t) ∧
            (StoreFormed s → SlotEdited note.slot 3#8 0xFF#8 (BitVec.ofNat 8 i.val) s t)))) ∧
      ((s.lane l).queue = [] →
        ((t.entry i).state = .awaitingNote →
          (t.lane l).noteWait = some ⟨s.work.noteWaitLimit, s.after s.work.noteWaitLimit⟩ ∧ Same .claims s t) ∧
        ((t.entry i).state = .queued → (t.lane l).noteWait = none ∧
          ((t.entry i).route ≠ some .test → Claimed (.lane l) s t) ∧
          ((t.entry i).route = some .test → Same .claims s t))) ∧
      ((s.lane l).queue ≠ [] → (t.lane l).noteWait = (s.lane l).noteWait ∧ Same .claims s t) ∧
      Frame ([.reader l, .entry i, .freeCount, .lane .a, .lane .b, .claims, .expect, .store] ++
        (List.finRange 32).map Part.slotCount ++ groupParts l) s t

/-- O45. An arrival that is not rostered: dropped in AWAITING TABLES; LANE OVERFILL at a lane in FAULT, and at a full NORMAL
lane, which enters FAULT; and the UNROSTERED marker with its alert where no entry is FREE. The holding buffer is emptied in
each. That a faulted lane's transfers in flight are disowned is the model's reading: log 25. -/
def Obligations.ArrivalUnrostered : Prop :=
  ∀ (l : LaneId) (s : State),
    (s.runState = .awaitingTables → Gives (.arrival l) s fun t =>
      t.reader l = { s.reader l with held := none } ∧ Frame [.reader l] s t) ∧
    (s.runState ≠ .awaitingTables → (s.lane l).state = .fault → Gives (.arrival l) s fun t =>
      t.reader l = { s.reader l with held := none } ∧ Alerted (laneSource l) .laneOverfill t ∧
        Frame [.reader l, .notices, .alertSeen] s t) ∧
    (s.runState ≠ .awaitingTables → (s.lane l).state = .normal → 12 ≤ (s.lane l).queue.length →
      Gives (.arrival l) s fun t =>
        t.reader l = { s.reader l with held := none } ∧ Alerted (laneSource l) .laneOverfill t ∧
          (t.lane l).state = .fault ∧ (t.lane l).permit = false ∧ (t.lane l).headInFlight = false ∧
          (t.lane l).queue = (s.lane l).queue ∧ (t.lane l).noteWait = (s.lane l).noteWait ∧
          t.claims = s.claims.filter (fun c => decide (c ≠ .lane l)) ∧
          t.outfeedQueue = s.outfeedQueue.map (Position.mapTransit (Transit.disownFor l)) ∧
          (∀ n, (t.bay n).bare =
            { s.bay n with loading := (s.bay n).loading.map (Transit.disownFor l) }.bare) ∧
          Frame ([.reader l, .notices, .alertSeen, .lane .a, .lane .b, .claims, .outfeed, .exits,
            .station .stamper, .station .defacer] ++ bayParts) s t) ∧
    (s.runState ≠ .awaitingTables → (s.lane l).state = .normal → (s.lane l).queue.length < 12 →
      (∀ i, (s.entry i).state ≠ .free) → Gives (.arrival l) s fun t =>
        t.reader l = { s.reader l with held := none } ∧ Alerted (laneSource l) .unrosteredArrival t ∧
          (t.lane l).bare = { s.lane l with
            queue := (s.lane l).queue ++ [Item.marker]
            permit := t.permitHolds l }.bare ∧
          PermitOnly (otherLane l) s t ∧ ((s.lane l).queue = [] → Claimed (.lane l) s t) ∧
          ((s.lane l).queue ≠ [] → Same .claims s t) ∧ (∀ n, laneOf n = l → Proactive n s t) ∧
          Frame ([.reader l, .notices, .alertSeen, .lane .a, .lane .b, .claims] ++ groupParts l) s t)

/-- O46. NOTE_WAIT_EXPIRY of a due timer: the timer stops, the AWAITING NOTE head is held UNANNOUNCED and QUEUED, and a
NORMAL lane claims outfeed room. With no timer due nothing changes. When an expiry is due is the model's choice: log 2. -/
def Obligations.NoteWaitExpiry : Prop :=
  ∀ (l : LaneId) (s : State),
    (∀ i : RosterIndex, s.due ((s.lane l).noteWait.map NoteWait.expiry) = true →
      (s.lane l).queue.head? = some (.entry i) → (s.entry i).state = .awaitingNote →
      Gives (.noteWaitExpiry l) s fun t =>
        (t.lane l).bare = { s.lane l with noteWait := none }.bare ∧
          t.entry i = { s.entry i with
            route := some .hold
            holdReason := some .unannounced
            state := .queued }.edited ∧
          ((s.lane l).state = .normal → Claimed (.lane l) s t) ∧ ((s.lane l).state = .fault → Same .claims s t) ∧
          Frame [.lane l, .entry i, .claims] s t) ∧
    (s.due ((s.lane l).noteWait.map NoteWait.expiry) = false → Gives (.noteWaitExpiry l) s (Frame [] s))

/-- O47. BAY_ALLOCATION in READY, RUNNING or STOPPING: the lowest-numbered available bay of the group takes the candidate,
the track head before the lane head, and its loading transfer begins; the lane acts on the item that comes to its head; an IDLE
bay before it found short enters ZEROING; with no bay available the candidate stays; with a transfer of the candidate's source in
flight, or no candidate, and in the other run states no attempt is made. The allowance is the copied hold time + rise limit +
settle time + 120 s, and a bay falls short when its validity is below that of the cylinder it holds. That an attempt may come at
any time is the model's choice: log 1. -/
def Obligations.BayAllocation : Prop :=
  (∀ (s : State) (w : Settings), s.settings = some w →
    s.work = w ∧ ∀ p : Params, s.allowance p = p.holdTime + w.riseLimit + w.settleTime + 120) ∧
  (∀ (s : State) (n : BayId),
    (∀ i, (s.bay n).index = some i → s.bayParams n = (s.entry i).params) ∧
      ((s.bay n).index = none → s.bayParams n = none) ∧
      (s.short n = true ↔ ∃ p, s.bayParams n = some p ∧ (s.bay n).validity < s.allowance p)) ∧
  (∀ (n : BayId) (s : State),
    let l := laneOf n
    s.runState = .ready ∨ s.runState = .running ∨ s.runState = .stopping →
    (∀ j : RosterIndex, (s.lane l).track.head? ≠ some (.occupied (.entry j))) → (s.lane l).state = .normal →
    (s.lane l).headInFlight = false → ∀ i, (s.lane l).queue.head? = some (.entry i) → (s.entry i).state = .queued →
    (s.entry i).route = some .test → ∀ p, (s.entry i).params = some p → Available n (s.allowance p) s →
    (∀ m, laneOf m = l → m < n → ¬Available m (s.allowance p) s) →
    Gives (.bayAllocation l) s fun t =>
      (t.bay n).bare = ((s.bay n).takes i (begunTransit s (.entry i) (.laneHead l))).bare ∧
        t.entry i = { (s.entry i).leaving .testing with lastBay := some n }.edited ∧
        (t.lane l).queue = (s.lane l).queue.tail ∧ (t.lane l).headInFlight = true ∧ PermitSet t l ∧
        (t.lane l).state = .normal ∧ (t.lane l).track = (s.lane l).track ∧
        (t.lane l).trackOut = (s.lane l).trackOut ∧ HeadActed l s.claims t ∧
        PermitOnly (otherLane l) s t ∧
        (∀ m, laneOf m = l → m < n →
          ((s.bay m).state = .idle → (s.bay m).present = false → Checks m none s t) ∧
          (¬((s.bay m).state = .idle ∧ (s.bay m).present = false) → Proactive m s t)) ∧
        (∀ m, laneOf m = l → n < m → Proactive m s t) ∧ DrainTested s t ∧
        Frame ([.entry i, .lane .a, .lane .b, .claims, .runState] ++ groupParts l) s t) ∧
  (∀ (n : BayId) (s : State),
    let l := laneOf n
    s.runState = .ready ∨ s.runState = .running ∨ s.runState = .stopping → (s.lane l).trackOut = false →
    ∀ i, (s.lane l).track.head? = some (.occupied (.entry i)) → (s.entry i).state = .queued →
    ∀ p, (s.entry i).params = some p → Available n (s.allowance p) s →
    (∀ m, laneOf m = l → m < n → ¬Available m (s.allowance p) s) →
    Gives (.bayAllocation l) s fun t =>
      (t.bay n).bare = ((s.bay n).takes i (begunTransit s (.entry i) (.trackHead l))).bare ∧
        t.entry i = { (s.entry i).leaving .testing with lastBay := some n }.edited ∧
        (t.lane l).bare = { s.lane l with track := (s.lane l).track.tail, trackOut := true }.bare ∧
        (∀ m, laneOf m = l → m < n →
          ((s.bay m).state = .idle → (s.bay m).present = false → Checks m none s t) ∧
          (¬((s.bay m).state = .idle ∧ (s.bay m).present = false) → t.bay m = s.bay m)) ∧
        (∀ m, laneOf m = l → n < m → t.bay m = s.bay m) ∧ DrainTested s t ∧
        Frame ([.entry i, .lane l, .runState] ++ groupParts l) s t) ∧
  (∀ (l : LaneId) (i : RosterIndex) (s : State),
    (s.lane l).track.head? = some (.occupied (.entry i)) ∨
      (∀ j : RosterIndex, (s.lane l).track.head? ≠ some (.occupied (.entry j))) ∧
        (s.lane l).queue.head? = some (.entry i) →
    ∀ p, (s.entry i).params = some p → (∀ n, laneOf n = l → ¬Available n (s.allowance p) s) →
    Gives (.bayAllocation l) s fun t => DrainTested s t ∧ Frame (.runState :: groupParts l) s t ∧
      (s.runState = .ready ∨ s.runState = .running ∨ s.runState = .stopping →
        (s.lane l).track.head? = some (.occupied (.entry i)) ∧ (s.lane l).trackOut = false ∨
          (s.lane l).track.head? ≠ some (.occupied (.entry i)) ∧ (s.lane l).state = .normal ∧
            (s.lane l).headInFlight = false ∧ (s.entry i).state = .queued ∧ (s.entry i).route = some .test →
        ∀ m, laneOf m = l →
          ((s.bay m).state = .idle → (s.bay m).present = false → Checks m none s t) ∧
          (¬((s.bay m).state = .idle ∧ (s.bay m).present = false) → t.bay m = s.bay m))) ∧
  (∀ (l : LaneId) (s : State), s.runState = .awaitingTables ∨ s.runState = .eStopped →
    Gives (.bayAllocation l) s (Frame [] s)) ∧
  ∀ (l : LaneId) (s : State),
    (∃ i : RosterIndex, (s.lane l).track.head? = some (.occupied (.entry i))) ∧ (s.lane l).trackOut = true ∨
      (∀ j : RosterIndex, (s.lane l).track.head? ≠ some (.occupied (.entry j))) ∧
        ((s.lane l).state = .fault ∨ (s.lane l).headInFlight = true ∨
          ∀ i, (s.lane l).queue.head? = some (.entry i) →
            (s.entry i).state ≠ .queued ∨ (s.entry i).route ≠ some .test) →
    Gives (.bayAllocation l) s fun t => DrainTested s t ∧ Frame [.runState] s t

/-! ## The outfeed -/

/-- O48. CLAIM_GRANT: with the outfeed NORMAL, outside E-STOPPED and with fewer than 8 positions, the oldest claim is
granted: the tail is reserved and the claimant's transfer begins; a lane then acts on the item that comes to its head, and its
IDLE bays with an old validity zero-check. While a condition fails nothing is granted. That an attempt
may come at any time is the model's choice: log 1; a lane's grant waits for its head transfer: log 9. -/
def Obligations.ClaimGrant : Prop :=
  (∀ (n : BayId) (s : State), s.claims.head? = some (.bay n) → s.outfeedState = .normal →
    s.runState ≠ .eStopped → s.outfeedQueue.length < 8 → ∀ i, (s.bay n).index = some i → Gives .claimGrant s fun t =>
      t.claims = s.claims.tail ∧
        t.outfeedQueue = s.outfeedQueue ++ [.reserved (begunTransit s (.entry i) (.bay n))] ∧
        t.outfeedState = s.outfeedState ∧ t.outfeedHeadInFlight = s.outfeedHeadInFlight ∧
        ((s.entry i).state = .queued ∨ (s.entry i).state = .testing →
          t.entry i = ((s.entry i).leaving .outbound).edited) ∧
        DrainTested s t ∧ Frame [.claims, .outfeed, .entry i, .runState] s t) ∧
  (∀ (l : LaneId) (s : State), s.claims.head? = some (.lane l) → s.outfeedState = .normal →
    s.runState ≠ .eStopped → s.outfeedQueue.length < 8 → (s.lane l).headInFlight = false →
    ∀ item, (s.lane l).queue.head? = some item → Gives .claimGrant s fun t =>
      s.claims.tail <+: t.claims ∧
        t.outfeedQueue = s.outfeedQueue ++ [.reserved (begunTransit s item (.laneHead l))] ∧
        t.outfeedState = s.outfeedState ∧ t.outfeedHeadInFlight = s.outfeedHeadInFlight ∧
        (t.lane l).queue = (s.lane l).queue.tail ∧ (t.lane l).headInFlight = true ∧ PermitSet t l ∧
        PermitOnly (otherLane l) s t ∧
        (∀ i, item = .entry i → (s.entry i).state = .queued →
          t.entry i = ((s.entry i).leaving .outbound).edited) ∧
        HeadActed l s.claims.tail t ∧ (t.lane l).state = (s.lane l).state ∧ (t.lane l).track = (s.lane l).track ∧
        (t.lane l).trackOut = (s.lane l).trackOut ∧
        (∀ n, laneOf n = l → Proactive n s t) ∧ DrainTested s t ∧
        Frame ([.claims, .outfeed, .lane .a, .lane .b, .runState] ++ itemParts item ++ groupParts l) s t) ∧
  ∀ s : State, s.claims = [] ∨ s.outfeedState = .fault ∨ s.runState = .eStopped ∨ 8 ≤ s.outfeedQueue.length ∨
      (∃ l, s.claims.head? = some (.lane l) ∧ (s.lane l).headInFlight = true) →
    Gives .claimGrant s fun t => DrainTested s t ∧ Frame [.runState] s t

/-- O49. OUTFEED_HEAD_DISPATCH: an occupied head goes to the exit of its route, with the outfeed NORMAL, no head transfer in
flight and no E-STOP: PASS-THROUGH to the release exit, HOLD and the marker to the hold chute, STAMP and DEFACE to the nest
of a station that is IDLE with its nest eye off; otherwise the head waits. That an attempt may come at any time is the
model's choice: log 1. -/
def Obligations.OutfeedHeadDispatch : Prop :=
  (∀ s : State, s.outfeedState = .normal → s.runState ≠ .eStopped → s.outfeedHeadInFlight = false →
    (s.outfeedQueue.head? = some (.occupied .marker) → Gives .outfeedHeadDispatch s fun t =>
      t.outfeedQueue = s.outfeedQueue.tail ∧ t.outfeedHeadInFlight = true ∧ t.outfeedState = s.outfeedState ∧
        t.exits = s.exits ++ [⟨begunTransit s .marker .outfeedHead, .holdChute⟩] ∧ DrainTested s t ∧
        Frame [.outfeed, .exits, .runState] s t) ∧
    ∀ i : RosterIndex, s.outfeedQueue.head? = some (.occupied (.entry i)) →
      (∀ e : Exit, e = .releaseConveyor ∧ (s.entry i).route = some .passThrough ∨
          e = .holdChute ∧ (s.entry i).route = some .hold → Gives .outfeedHeadDispatch s fun t =>
        t.outfeedQueue = s.outfeedQueue.tail ∧ t.outfeedHeadInFlight = true ∧ t.outfeedState = s.outfeedState ∧
          t.exits = s.exits ++ [⟨begunTransit s (.entry i) .outfeedHead, e⟩] ∧
          ((s.entry i).state = .outbound → t.entry i = ((s.entry i).leaving .outbound).edited) ∧ DrainTested s t ∧
          Frame [.outfeed, .exits, .entry i, .runState] s t) ∧
      (∀ st : StationId, st = .stamper ∧ (s.entry i).route = some .stamp ∨
          st = .defacer ∧ (s.entry i).route = some .deface →
        ((s.station st).state = .idle → (s.station st).nestEye = false → Gives .outfeedHeadDispatch s fun t =>
          t.outfeedQueue = s.outfeedQueue.tail ∧ t.outfeedHeadInFlight = true ∧ t.outfeedState = s.outfeedState ∧
            (t.station st).bare = { s.station st with
              state := .nestLoading
              nest := .incoming
              index := some i
              loading := some (begunTransit s (.entry i) .outfeedHead) }.bare ∧
            ((s.entry i).state = .outbound → t.entry i = ((s.entry i).leaving .outbound).edited) ∧
            DrainTested s t ∧ Frame [.outfeed, .station st, .entry i, .runState] s t) ∧
        ((s.station st).state ≠ .idle ∨ (s.station st).nestEye = true → Gives .outfeedHeadDispatch s fun t =>
          DrainTested s t ∧ Frame [.runState] s t))) ∧
  ∀ s : State, s.outfeedState = .fault ∨ s.runState = .eStopped ∨ s.outfeedHeadInFlight = true ∨
      (∀ item, s.outfeedQueue.head? ≠ some (.occupied item)) →
    Gives .outfeedHeadDispatch s fun t => DrainTested s t ∧ Frame [.runState] s t

/-- O50. The track eye, the outfeed eye and an exit eye end the oldest transfer in flight towards them: the position becomes
occupied, or the entry is closed with its outcome (the marker raises UNROSTERED HELD); the source is told; and an eye with no
transfer in flight changes nothing. A gate output is open exactly while a transfer of its path is in flight. The model's choices:
an eye with no transfer in flight changes nothing (log 15); a gate output is computed from the transfers in flight (log 16), two
that share one keeping it open (log 39); a disowned transfer's end leaves the lane's head transfer as it is (log 25, read from
section 5.6). -/
def Obligations.DestinationEyes : Prop :=
  (∀ s : State,
    (∀ n,
      (s.gateOpen (.laneFeed n) = true ↔
        ∃ t, (s.bay n).loading = some t ∧ t.source = .laneHead (laneOf n)) ∧
      (s.gateOpen (.track n) = true ↔ ∃ t, (s.bay n).loading = some t ∧ t.source = .trackHead (laneOf n)) ∧
      (s.gateOpen (.unload n) = true ↔ ∃ t, InFlight t s ∧ t.source = .bay n)) ∧
    (∀ l, s.gateOpen (.bypass l) = true ↔ ∃ t, .reserved t ∈ s.outfeedQueue ∧ t.source = .laneHead l) ∧
    (s.gateOpen .outfeedHead = true ↔ ∃ t, InFlight t s ∧ t.source = .outfeedHead) ∧
    ∀ st, s.gateOpen (.eject st) = true ↔ ∃ t, InFlight t s ∧ t.source = .station st) ∧
  (∀ (pre post : List Position) (tr : Transit), (∀ x ∈ pre, ∃ item, x = .occupied item) →
    occupyFirst (pre ++ .reserved tr :: post) = some (tr, pre ++ .occupied tr.item :: post) ∧
      occupyFirst pre = none) ∧
  (∀ (p : ExitTransfer → Bool) (pre post : List ExitTransfer) (x : ExitTransfer), (∀ y ∈ pre, p y = false) →
    p x = true → takeExit p (pre ++ x :: post) = some (x, pre ++ post) ∧ takeExit p pre = none) ∧
  (∀ (l : LaneId) (s : State),
    (∀ x, occupyFirst (s.lane l).track = some x → ∀ n, x.1.source = .bay n → Gives (.trackEye l) s fun t =>
      (t.lane l).bare = { s.lane l with track := x.2 }.bare ∧ ArrivedAt x.1.item (.recirc l) s t ∧
        BayEmptied n s t ∧ DrainTested s t ∧
        Frame ([.lane l, .bay n, .requests, .notices, .alertSeen, .runState] ++ itemParts x.1.item) s t) ∧
    (occupyFirst (s.lane l).track = none → Gives (.trackEye l) s fun t =>
      DrainTested s t ∧ Frame [.runState] s t)) ∧
  (∀ s : State,
    (∀ x, occupyFirst s.outfeedQueue = some x →
      (∀ n, x.1.source = .bay n → Gives .outfeedEye s fun t =>
        t.outfeedQueue = x.2 ∧ t.outfeedState = s.outfeedState ∧ t.outfeedHeadInFlight = s.outfeedHeadInFlight ∧
          ArrivedAt x.1.item .outfeed s t ∧ BayEmptied n s t ∧ DrainTested s t ∧
          Frame ([.outfeed, .bay n, .requests, .notices, .alertSeen, .runState] ++ itemParts x.1.item) s t) ∧
      (∀ l, x.1.source = .laneHead l → Gives .outfeedEye s fun t =>
        t.outfeedQueue = x.2 ∧ t.outfeedState = s.outfeedState ∧ t.outfeedHeadInFlight = s.outfeedHeadInFlight ∧
          ArrivedAt x.1.item .outfeed s t ∧
          (t.lane l).bare = { s.lane l with
            headInFlight := if x.1.disowned then (s.lane l).headInFlight else false }.bare ∧
          DrainTested s t ∧ Frame ([.outfeed, .lane l, .runState] ++ itemParts x.1.item) s t)) ∧
    (occupyFirst s.outfeedQueue = none → Gives .outfeedEye s fun t => DrainTested s t ∧ Frame [.runState] s t)) ∧
  ∀ (e : Exit) (s : State),
    (∀ x, takeExit (fun x => decide (x.exit = e)) s.exits = some x →
      (x.1.transit.source = .outfeedHead → Gives (.exitEye e) s fun t =>
        t.exits = x.2 ∧ t.outfeedHeadInFlight = false ∧ t.outfeedQueue = s.outfeedQueue ∧
          t.outfeedState = s.outfeedState ∧
          (x.1.transit.item = .marker → Alerted outfeedSource .unrosteredHeld t) ∧
          (∀ i, x.1.transit.item = .entry i → (s.entry i).state = .outbound →
            ∀ o, exitOutcome e (s.entry i) = some o → Closed i o.1 o.2 s t) ∧
          DrainTested s t ∧
          Frame ([.exits, .outfeed, .notices, .alertSeen, .runState] ++ itemParts x.1.transit.item) s t) ∧
      (∀ st, x.1.transit.source = .station st → Gives (.exitEye e) s fun t =>
        t.exits = x.2 ∧
          (∀ i, x.1.transit.item = .entry i → (s.entry i).state = .outbound →
            ∀ o, exitOutcome e (s.entry i) = some o → Closed i o.1 o.2 s t) ∧
          (t.station st).bare = { s.station st with
            ejectBegun := false
            nest := .empty
            index := none
            ejectExit := none
            state :=
              if (s.station st).state = StationState.ejecting then
                (if (s.station st).faultCause = none then .idle else .fault)
              else (s.station st).state }.bare ∧
          DrainTested s t ∧
          Frame ([.exits, .station st, .notices, .alertSeen, .runState] ++ itemParts x.1.transit.item) s t)) ∧
    (takeExit (fun x => decide (x.exit = e)) s.exits = none → Gives (.exitEye e) s fun t =>
      DrainTested s t ∧ Frame [.runState] s t)

/-- O51. TRANSFER_JAM of a due transfer, for each owner: the reservation is released, the entry closed MISSING, the source
told, and the owner enters FAULT with ALERT TRANSFER JAM, the track closing up in its order. A transfer whose limit is not due
does not jam. The model's choices: when an expiry is due (log 2), the transfers a faulted lane disowns (log 25, read from
section 5.6), the order in which a jam's notices join the list (log 33). -/
def Obligations.TransferJam : Prop :=
  (∀ (p : Transit → Bool) (pre post : List Position) (tr : Transit), (∀ u, .reserved u ∈ pre → p u = false) →
    p tr = true → releaseReservation p (pre ++ .reserved tr :: post) = some (tr, pre ++ post) ∧
      releaseReservation p pre = none) ∧
  (∀ (n : BayId) (s : State),
    (∀ tr, (s.bay n).loading = some tr → s.due tr.expiry = true → ∀ l,
      tr.source = .laneHead l ∨ tr.source = .trackHead l → Gives (.transferJam (.loading n)) s fun t =>
        (t.bay n).bare =
          ({ s.bay n with loading := none, index := none }.faultedWith .transferJam).bare ∧
          JamClosed tr.item s t ∧ Alerted (baySource n) .transferJam t ∧
          t.requests = s.requests.filter (fun r => decide (r.bay ≠ n)) ∧
          (tr.source = .laneHead l → (t.lane l).bare = { s.lane l with
            headInFlight := if tr.disowned then (s.lane l).headInFlight else false }.bare) ∧
          (tr.source = .trackHead l → (t.lane l).bare = { s.lane l with trackOut := false }.bare) ∧
          DrainTested s t ∧
          Frame ([.bay n, .requests, .notices, .alertSeen, .lane l, .runState] ++ itemParts tr.item) s t) ∧
    ((∀ tr, (s.bay n).loading = some tr → s.due tr.expiry = false) → Gives (.transferJam (.loading n)) s fun t =>
      DrainTested s t ∧ Frame [.runState] s t)) ∧
  (∀ (n : BayId) (s : State),
    let l := laneOf n
    (∀ x, releaseReservation (s.dueFrom (.bay n)) (s.lane l).track = some x → (s.bay n).loading = none →
      Gives (.transferJam (.ontoTrack n)) s fun t =>
        (t.lane l).state = .fault ∧ (t.lane l).queue = (s.lane l).queue ∧
          (t.lane l).track.length = x.2.length ∧ (t.lane l).noteWait = (s.lane l).noteWait ∧
          (t.lane l).trackOut = (s.lane l).trackOut ∧
          ((s.lane l).state = .normal → (t.lane l).permit = false ∧ (t.lane l).headInFlight = false ∧
            (t.lane l).track = x.2.map (Position.mapTransit (Transit.disownFor l)) ∧
            t.claims = s.claims.filter (fun c => decide (c ≠ .lane l)) ∧
            t.outfeedState = s.outfeedState ∧ t.outfeedHeadInFlight = s.outfeedHeadInFlight ∧
            t.outfeedQueue = s.outfeedQueue.map (Position.mapTransit (Transit.disownFor l)) ∧
            ∀ m, m ≠ n → (t.bay m).bare =
              { s.bay m with loading := (s.bay m).loading.map (Transit.disownFor l) }.bare) ∧
          ((s.lane l).state = .fault → (t.lane l).bare = { s.lane l with track := x.2 }.bare ∧
            Frame ([.lane l, .bay n, .requests, .notices, .alertSeen, .runState] ++ itemParts x.1.item) s t) ∧
          JamClosed x.1.item s t ∧ Alerted (laneSource l) .transferJam t ∧ BayEmptied n s t ∧ DrainTested s t ∧
          Frame ([.lane .a, .lane .b, .claims, .outfeed, .exits, .station .stamper, .station .defacer, .requests,
            .notices, .alertSeen, .runState] ++ bayParts ++ itemParts x.1.item) s t) ∧
    (releaseReservation (s.dueFrom (.bay n)) (s.lane l).track = none → Gives (.transferJam (.ontoTrack n)) s fun t =>
      DrainTested s t ∧ Frame [.runState] s t)) ∧
  (∀ (n : BayId) (s : State),
    (∀ x, releaseReservation (s.dueFrom (.bay n)) s.outfeedQueue = some x →
      Gives (.transferJam (.bayToOutfeed n)) s fun t =>
        t.outfeedQueue = x.2 ∧ t.outfeedState = .fault ∧ t.outfeedHeadInFlight = s.outfeedHeadInFlight ∧
          JamClosed x.1.item s t ∧ Alerted outfeedSource .transferJam t ∧ BayEmptied n s t ∧ DrainTested s t ∧
          Frame ([.outfeed, .bay n, .requests, .notices, .alertSeen, .runState] ++ itemParts x.1.item) s t) ∧
    (releaseReservation (s.dueFrom (.bay n)) s.outfeedQueue = none →
      Gives (.transferJam (.bayToOutfeed n)) s fun t => DrainTested s t ∧ Frame [.runState] s t)) ∧
  (∀ (l : LaneId) (s : State),
    (∀ x, releaseReservation (s.dueFrom (.laneHead l)) s.outfeedQueue = some x →
      Gives (.transferJam (.laneToOutfeed l)) s fun t =>
        t.outfeedQueue = x.2 ∧ t.outfeedState = .fault ∧ t.outfeedHeadInFlight = s.outfeedHeadInFlight ∧
          JamClosed x.1.item s t ∧ Alerted outfeedSource .transferJam t ∧
          (t.lane l).bare = { s.lane l with
            headInFlight := if x.1.disowned then (s.lane l).headInFlight else false }.bare ∧ DrainTested s t ∧
          Frame ([.outfeed, .lane l, .notices, .alertSeen, .runState] ++ itemParts x.1.item) s t) ∧
    (releaseReservation (s.dueFrom (.laneHead l)) s.outfeedQueue = none →
      Gives (.transferJam (.laneToOutfeed l)) s fun t => DrainTested s t ∧ Frame [.runState] s t)) ∧
  (∀ (st : StationId) (s : State),
    (∀ tr, (s.station st).loading = some tr → s.due tr.expiry = true → tr.source = .outfeedHead →
      Gives (.transferJam (.nest st)) s fun t =>
        (t.station st).bare = { s.station st with
          loading := none
          nest := .empty
          index := none
          state := .fault
          faultCause := some .transferJam }.bare ∧
          JamClosed tr.item s t ∧ Alerted (stationSource st) .transferJam t ∧ t.outfeedHeadInFlight = false ∧
          t.outfeedQueue = s.outfeedQueue ∧ t.outfeedState = s.outfeedState ∧ DrainTested s t ∧
          Frame ([.station st, .outfeed, .notices, .alertSeen, .runState] ++ itemParts tr.item) s t) ∧
    ((∀ tr, (s.station st).loading = some tr → s.due tr.expiry = false) → Gives (.transferJam (.nest st)) s fun t =>
      DrainTested s t ∧ Frame [.runState] s t)) ∧
  (∀ s : State,
    (∀ x, takeExit (fun x => s.dueFrom .outfeedHead x.transit) s.exits = some x →
      Gives (.transferJam .headToExit) s fun t =>
        t.exits = x.2 ∧ t.outfeedState = .fault ∧ t.outfeedHeadInFlight = false ∧
          t.outfeedQueue = s.outfeedQueue ∧ JamClosed x.1.transit.item s t ∧
          Alerted outfeedSource .transferJam t ∧ DrainTested s t ∧
          Frame ([.exits, .outfeed, .notices, .alertSeen, .runState] ++ itemParts x.1.transit.item) s t) ∧
    (takeExit (fun x => s.dueFrom .outfeedHead x.transit) s.exits = none →
      Gives (.transferJam .headToExit) s fun t => DrainTested s t ∧ Frame [.runState] s t)) ∧
  ∀ (st : StationId) (s : State),
    (∀ x, takeExit (fun x => s.dueFrom (.station st) x.transit) s.exits = some x →
      Gives (.transferJam (.eject st)) s fun t =>
        t.exits = x.2 ∧ t.outfeedState = .fault ∧ t.outfeedHeadInFlight = s.outfeedHeadInFlight ∧
          t.outfeedQueue = s.outfeedQueue ∧ JamClosed x.1.transit.item s t ∧
          Alerted outfeedSource .transferJam t ∧ (t.station st).bare = (s.station st).emptied.bare ∧
          DrainTested s t ∧
          Frame ([.exits, .outfeed, .station st, .notices, .alertSeen, .runState] ++
            itemParts x.1.transit.item) s t) ∧
    (takeExit (fun x => s.dueFrom (.station st) x.transit) s.exits = none →
      Gives (.transferJam (.eject st)) s fun t => DrainTested s t ∧ Frame [.runState] s t)

/-! ## Bays: loading, filling and samples -/

/-- O52. LOADING_END ends the bay's loading transfer: outside E-STOPPED the bay takes the fill step (ZEROING with resume point FILL, or
FILLING with the attempt reported), and in E-STOPPED it waits in LOADING. BAY_INPUT_CHANGE records the level; PRESENT turning
on is LOADING_END, and FULL and DOOR CLOSED both on in FILLING take the baseline and ask for an intensifier, unless the bay waits
there for the release of an E-STOP. The model's choices: the arrival and the attempt's start are two edits of the entry (log 10);
a disowned transfer's end leaves the lane's head transfer as it is (log 25, read from section 5.6). -/
def Obligations.LoadingAndInputs : Prop :=
  (∀ (n : BayId) (s : State),
    ((s.bay n).loading = none → Gives (.loadingEnd n) s fun t =>
      (t.bay n).bare = { s.bay n with present := true }.bare ∧ DrainTested s t ∧ Frame [.bay n, .runState] s t) ∧
    (∀ tr, (s.bay n).loading = some tr → ∀ l, tr.source = .laneHead l ∨ tr.source = .trackHead l →
      let b := { s.bay n with present := true, loading := none }
      Gives (.loadingEnd n) s fun t =>
        (s.runState = .eStopped → (t.bay n).bare = b.bare ∧ ArrivedAt tr.item (.bay n) s t) ∧
          (s.runState ≠ .eStopped → 0 < b.checksOwed ∨ s.short n = true →
            (t.bay n).bare = (b.checking (some .fill) (s.after 40)).bare ∧ ArrivedAt tr.item (.bay n) s t) ∧
          (s.runState ≠ .eStopped → b.checksOwed = 0 → s.short n = false →
            ((b.full = false ∨ b.doorClosed = false) → (t.bay n).bare = (b.fillingFrom (s.after 60)).bare) ∧
            (b.full = true → b.doorClosed = true → (t.bay n).state = .awaitIntensifier ∧
              (t.bay n).baseline = some b.latestGauge ∧ ∃ r ∈ t.requests, r.bay = n) ∧
            ∀ i, b.index = some i → tr.item = .entry i → (s.entry i).state = .testing →
              t.entry i = { s.entry i with
                place := .bay n
                testsStarted := min 15 ((s.entry i).testsStarted + 1)
                meas := Measurements.absent
                editCount := (s.entry i).editCount + 4#8 }) ∧
          (tr.source = .laneHead l → (t.lane l).bare = { s.lane l with
            headInFlight := if tr.disowned then (s.lane l).headInFlight else false }.bare) ∧
          (tr.source = .trackHead l → (t.lane l).bare = { s.lane l with trackOut := false }.bare) ∧
          DrainTested s t ∧
          Frame ([.lane l, .bay n, .requests, .releases, .intensifier .one, .intensifier .two, .runState] ++
            itemParts tr.item ++ ((s.bay n).index.map Part.entry).toList) s t)) ∧
  ∀ (n : BayId) (input : BayInput) (level : Bool) (s : State),
    let b := (s.bay n).setInput input level
    b.input input = level ∧
    ((s.bay n).input input = level → Gives (.bayInputChange n input level) s fun t =>
      DrainTested s t ∧ Frame [.runState] s t) ∧
    ((s.bay n).present = false → exec (.bayInputChange n .present true) s = exec (.loadingEnd n) s) ∧
    ((s.bay n).input input ≠ level → (input = .present ∧ level = false) ∨
        (input ≠ .present ∧ (b.state ≠ .filling ∨ b.kept.isSome = true ∨ b.full = false ∨ b.doorClosed = false)) →
      Gives (.bayInputChange n input level) s fun t =>
        (t.bay n).bare = b.bare ∧ DrainTested s t ∧ Frame [.bay n, .runState] s t) ∧
    ((s.bay n).input input ≠ level → input ≠ .present → b.state = .filling → b.kept = none → b.full = true →
      b.doorClosed = true → s.short n = false → Gives (.bayInputChange n input level) s fun t =>
        (t.bay n).bare = { b.waiting with baseline := some b.latestGauge }.bare ∧ (∃ r ∈ t.requests, r.bay = n) ∧
          (Unqueued n s → t.requests = s.requests ++ [⟨n, s.testPressure n⟩]) ∧ DrainTested s t ∧
          Frame [.bay n, .requests, .releases, .intensifier .one, .intensifier .two, .runState] s t)

/-- O53. SAMPLE_PAIR: the latest values and the peak in every state; in PRESSURISING overpressure, test pressure reached, or no
change; in HOLDING rupture, overpressure, or the trace, every 4th pair of which is written into the ring. -/
def Obligations.SamplePair : Prop :=
  ∀ (n : BayId) (pressure gauge : BitVec 16) (s : State),
    let p := pressure.toNat
    let g := gauge.toNat
    let b := (s.bay n).sees p g
    ((s.bay n).state ≠ .filling → (s.bay n).state ≠ .pressurising → (s.bay n).state ≠ .holding →
      (s.bay n).state ≠ .releasing → Gives (.samplePair n pressure gauge) s fun t =>
        (t.bay n).bare = b.bare ∧ DrainTested s t ∧ Frame [.bay n, .runState] s t) ∧
    ((s.bay n).state = .filling → b.kept.isSome = true ∨ b.full = false ∨ b.doorClosed = false →
      Gives (.samplePair n pressure gauge) s fun t =>
      (t.bay n).bare = b.bare ∧ DrainTested s t ∧ Frame [.bay n, .runState] s t) ∧
    ((s.bay n).state = .filling → b.kept = none → b.full = true → b.doorClosed = true → s.short n = false →
      Gives (.samplePair n pressure gauge) s fun t =>
        (t.bay n).bare = { b.waiting with baseline := some g }.bare ∧ (∃ r ∈ t.requests, r.bay = n) ∧
          DrainTested s t ∧
          Frame [.bay n, .requests, .releases, .intensifier .one, .intensifier .two, .runState] s t) ∧
    (∀ q, s.bayParams n = some q → (s.bay n).state = .pressurising →
      (q.testPressure * 11 < p → Gives (.samplePair n pressure gauge) s fun t =>
        (t.bay n).bare = (b.releasing (.void .overpressure) (s.after 60)).bare ∧
          t.requests = s.requests.filter (fun r => decide (r.bay ≠ n)) ∧
          t.releases = s.releases ++ (b.coupled.map (fun i => Release.mk n i)).toList ∧
          (∀ i, let x := s.intensifier i
            (b.coupled = some i ∧ (x.state = .retuning ∨ x.state = .driving) ∧ x.coupledBay = some n →
              (t.intensifier i).bare = x.faulted.bare ∧ Alerted (intensifierSource i) .intensifierFault t) ∧
            (¬(b.coupled = some i ∧ (x.state = .retuning ∨ x.state = .driving) ∧ x.coupledBay = some n) →
              (t.intensifier i).bare = x.bare)) ∧
          DrainTested s t ∧
          Frame [.bay n, .requests, .releases, .intensifier .one, .intensifier .two, .notices, .alertSeen,
            .runState] s t) ∧
      (q.testPressure * 10 ≤ p → p ≤ q.testPressure * 11 → Gives (.samplePair n pressure gauge) s fun t =>
        (t.bay n).bare = { b with
          state := .holding
          outputs := doorOnly
          coupled := none
          holdStart := some p
          stepTimer := some (s.after q.holdTime)
          risePaused := none
          pairCount := 0
          kept := none }.bare ∧
          t.releases = s.releases ++ (b.coupled.map (fun i => Release.mk n i)).toList ∧ DrainTested s t ∧
          Frame [.bay n, .releases, .runState] s t) ∧
      (p < q.testPressure * 10 → Gives (.samplePair n pressure gauge) s fun t =>
        (t.bay n).bare = b.bare ∧ DrainTested s t ∧ Frame [.bay n, .runState] s t)) ∧
    ∀ q, s.bayParams n = some q → (s.bay n).state = .holding →
      (p < q.testPressure * 5 → Gives (.samplePair n pressure gauge) s fun t =>
        (t.bay n).bare = ({ b with ruptured := true }.releasing .rupture (s.after 60)).bare ∧
          t.requests = s.requests.filter (fun r => decide (r.bay ≠ n)) ∧ DrainTested s t ∧
          Frame [.bay n, .requests, .releases, .runState] s t) ∧
      (q.testPressure * 11 < p → Gives (.samplePair n pressure gauge) s fun t =>
        (t.bay n).bare = (b.releasing (.void .overpressure) (s.after 60)).bare ∧
          t.requests = s.requests.filter (fun r => decide (r.bay ≠ n)) ∧ DrainTested s t ∧
          Frame [.bay n, .requests, .releases, .runState] s t) ∧
      (q.testPressure * 5 ≤ p → p ≤ q.testPressure * 11 → (b.pairCount + 1) % 4 ≠ 0 →
        Gives (.samplePair n pressure gauge) s fun t =>
          (t.bay n).bare = { b with pairCount := b.pairCount + 1 }.bare ∧ DrainTested s t ∧
            Frame [.bay n, .runState] s t) ∧
      (q.testPressure * 5 ≤ p → p ≤ q.testPressure * 11 → (b.pairCount + 1) % 4 = 0 →
        ∀ h : b.traceIndex < 64, Gives (.samplePair n pressure gauge) s fun t =>
          (t.bay n).bare = { b with
            pairCount := b.pairCount + 1
            trace := b.trace.set b.traceIndex ⟨p, g⟩ h
            traceIndex := (b.traceIndex + 1) % 64
            traceCount := min 255 (b.traceCount + 1) }.bare ∧ DrainTested s t ∧ Frame [.bay n, .runState] s t)

/-- O54. The due limits of a bay: the rise limit and the pressurised limit vent with their void, the hold takes Et and the
hold drop and vents with HOLD END, the release limit faults the bay VENT FAILURE, and the fill limit voids NO FILL; a limit that
is not due, or of a bay in another state, changes nothing. A timer started for a length expires that many line seconds ahead,
modulo the wrap; it is due when the line seconds less its expiry, modulo the wrap, are below 2^31, a stopped one never. The
model's choices: when an expiry is due (log 2), which reports are an edit of their own (log 10). -/
def Obligations.BayLimits : Prop :=
  (∀ s : State,
    (∀ k : Nat, (s.after k).toNat = (s.lineSeconds.toNat + k) % 2 ^ 32) ∧
      s.due none = false ∧
      (∀ e : Seconds, s.due (some e) = true ↔ (s.lineSeconds.toNat + (2 ^ 32 - e.toNat)) % 2 ^ 32 < 2 ^ 31) ∧
      ∀ e : Seconds, s.remaining e =
        if s.due (some e) = true then 0 else (e.toNat + (2 ^ 32 - s.lineSeconds.toNat)) % 2 ^ 32) ∧
  (∀ (n : BayId) (s : State),
    let b := s.bay n
    (b.state = .pressurising → s.due b.stepTimer = true → Gives (.riseLimitExpiry n) s fun t =>
      Releases n (.void .noPressure) s t ∧ Frame [.bay n, .requests, .releases] s t) ∧
    (b.state ≠ .pressurising ∨ s.due b.stepTimer = false → Gives (.riseLimitExpiry n) s (Frame [] s)) ∧
    (b.state = .holding → s.due b.stepTimer = true → Gives (.holdExpiry n) s fun t =>
      (t.bay n).bare = ({ b with
        et := some ((b.latestGauge : Int) - (b.baseline.getD 0 : Nat))
        drop := some (((b.holdStart.getD 0 : Nat) : Int) - (b.latestPressure : Nat)) }.releasing .holdEnd
          (s.after 60)).bare ∧
        t.requests = s.requests.filter (fun r => decide (r.bay ≠ n)) ∧
        Frame [.bay n, .requests, .releases] s t) ∧
    (b.state ≠ .holding ∨ s.due b.stepTimer = false → Gives (.holdExpiry n) s (Frame [] s)) ∧
    (b.state = .pressurising ∨ b.state = .holding ∨ b.state = .suspended ∨ b.state = .awaitIntensifier →
      s.due b.pressTimer = true → Gives (.pressurisedLimitExpiry n) s fun t =>
        Releases n (.void .pressureLimit) s t ∧ Frame [.bay n, .requests, .releases] s t) ∧
    (¬(b.state = .pressurising ∨ b.state = .holding ∨ b.state = .suspended ∨ b.state = .awaitIntensifier) ∨
        s.due b.pressTimer = false → Gives (.pressurisedLimitExpiry n) s (Frame [] s)) ∧
    (b.state = .releasing → s.due b.stepTimer = true → Gives (.releaseLimitExpiry n) s fun t =>
      (t.bay n).bare = (b.faultedWith .ventFailure).bare ∧ Alerted (baySource n) .ventFailure t ∧
        t.requests = s.requests.filter (fun r => decide (r.bay ≠ n)) ∧ DrainTested s t ∧
        Frame [.bay n, .requests, .notices, .alertSeen, .runState] s t) ∧
    (b.state ≠ .releasing ∨ s.due b.stepTimer = false → Gives (.releaseLimitExpiry n) s fun t =>
      DrainTested s t ∧ Frame [.runState] s t)) ∧
  ∀ (n : BayId) (s : State),
    let b := s.bay n
    (∀ i, b.index = some i → (s.entry i).state = .testing → (s.entry i).route = some .test →
      (s.entry i).countedVoids ≤ 2 → b.state = .filling → s.due b.stepTimer = true →
      Gives (.fillLimitExpiry n) s fun t =>
        ActedOnVoid n i .noFill none True
            { b with
              stepTimer := none
              outputs := { b.outputs with fill := false, vent := true }
              releaseCause := none } s t ∧
          DrainTested s t ∧ Frame (voidActionParts n i) s t) ∧
    (b.state ≠ .filling ∨ s.due b.stepTimer = false → Gives (.fillLimitExpiry n) s fun t =>
      DrainTested s t ∧ Frame [.runState] s t)

/-- O55. The end of venting and of settling: a pair below 1.0 bar takes RELEASING to SETTLING by the release cause; at the
settle expiry the attempt is judged by the seven ordered tests, a verdict goes to the roster and the bay unloads with a
claim, and a void acts on its answer; for an entry whose route is no longer TEST the report is dropped and the bay unloads with a
claim. The measurement set and the mark are as R105 and R32 give them. The model's choices: when an expiry is due (log 2), which
reports are an edit of their own (log 10), the lapsed flag at a void GAUGE (log 35), a step kept for the release (log 36), the
release cause ends at the report (log 43). -/
def Obligations.SettlingAndVerdict : Prop :=
  (∀ (n : BayId) (pressure gauge : BitVec 16) (s : State), (s.bay n).state = .releasing →
    let b := (s.bay n).sees pressure.toNat gauge.toNat
    (10 ≤ pressure.toNat → Gives (.samplePair n pressure gauge) s fun t =>
      (t.bay n).bare = b.bare ∧ DrainTested s t ∧ Frame [.bay n, .runState] s t) ∧
    (pressure.toNat < 10 → b.aborted = false →
      b.releaseCause = some .holdEnd ∨ b.releaseCause = some .rupture → Gives (.samplePair n pressure gauge) s fun t =>
        (t.bay n).bare = { b with
          state := .settling
          outputs := ventAndDoor
          stepTimer := some (s.after s.work.settleTime)
          kept := none }.bare ∧ DrainTested s t ∧ Frame [.bay n, .runState] s t) ∧
    (∀ i, b.index = some i → pressure.toNat < 10 → b.aborted = true ∨ b.releaseCause = some .abort →
      Gives (.samplePair n pressure gauge) s fun t =>
        (t.bay n).bare = b.unloading.bare ∧ AbortReported i s t ∧ Claimed (.bay n) s t ∧ DrainTested s t ∧
          Frame [.bay n, .claims, .entry i, .runState] s t) ∧
    (∀ i, b.index = some i → pressure.toNat < 10 → b.aborted = false → (s.entry i).state = .testing →
      (s.entry i).route = some .test → (s.entry i).countedVoids ≤ 2 →
      ∀ c : VoidCause, b.releaseCause = some (.void c) → Gives (.samplePair n pressure gauge) s fun t =>
        ActedOnVoid n i c none (c ≠ .eStop)
            { b with
              state := .settling
              outputs := ventAndDoor
              stepTimer := none
              kept := none
              releaseCause := none } s t ∧
          DrainTested s t ∧ Frame (voidActionParts n i) s t)) ∧
  (∀ (b : Bay) (q : Params) (et drop : Int) (ep : Nat), b.et = some et → b.drop = some drop → b.ep = some ep →
    b.judge q =
      (if b.ruptured then .inr (.condemn .rupture)
       else if q.dropTolerance < drop then .inl .leak
       else if b.lapsed then .inl .zeroLapsed
       else if et < 1 then .inl .gauge
       else if q.elasticLimit < et then .inr (.condemn .elastic)
       else if (q.ratioLimit : Int) < (ep : Int) * 1000 / et then .inr (.condemn .ratio)
       else .inr .pass)) ∧
  (∀ (b : Bay) (q : Params), b.ruptured = true → b.judge q = .inr (.condemn .rupture)) ∧
  (∀ b : Bay, (b.measured.baseline = b.baseline ∧ b.measured.peak = b.peak ∧ b.measured.et = b.et ∧
      b.measured.drop = b.drop ∧ b.measured.ep = b.ep) ∧
    (b.et = none ∨ b.ep = none → b.measured.ratio = none) ∧
    ∀ et ep, b.et = some et → b.ep = some ep → (et < 1 → b.measured.ratio = none) ∧
      (1 ≤ et → b.measured.ratio = some (min 65535 (ep * 1000 / et.toNat)))) ∧
  (∀ (s : State) (e : Entry) (q : Params) (k : Fin 16) (template serial : List Byte) (d : Date),
    e.params = some q → q.template = k.val → s.templates[k] = some template → e.serial = some serial →
    s.date = some d →
    let digit (x : Nat) : Byte := BitVec.ofNat 8 (0x30 + x % 10)
    s.composeMark e = template.flatMap (fun b =>
      if b = 0x01#8 then s.work.stationCode
      else if b = 0x02#8 then [digit (d.month / 10), digit d.month]
      else if b = 0x03#8 then [digit ((d.year - 2000) / 10), digit (d.year - 2000)]
      else if b = 0x04#8 then [digit (q.testPressure / 100), digit (q.testPressure / 10), digit q.testPressure]
      else if b = 0x05#8 then serial
      else [b])) ∧
  ∀ (n : BayId) (s : State),
    (∀ i, (s.bay n).index = some i → ∀ q, (s.entry i).params = some q → (s.entry i).state = .testing →
      (s.entry i).route = some .test → (s.bay n).state = .settling → s.due (s.bay n).stepTimer = true →
      (s.bay n).releaseCause = some .holdEnd ∨ (s.bay n).releaseCause = some .rupture →
      let b := { s.bay n with
        stepTimer := none
        ep :=
          if (s.bay n).releaseCause = some ReleaseCause.holdEnd then
            some ((s.bay n).latestGauge - (s.bay n).baseline.getD 0)
          else (s.bay n).ep }
      (∀ v, b.judge q = .inr v → Gives (.settleExpiry n) s fun t =>
        let e := t.entry i
        (e.meas = b.measured ∧ e.verdict = some v ∧ e.verdictTime = some s.lineSeconds ∧
            e.route = (if v = .pass then some .stamp else if v = .notDue then some .test else some .deface) ∧
            (v = .pass → e.mark = some (s.composeMark (s.entry i))) ∧
            e.editCount = (s.entry i).editCount + 2#8) ∧
          (t.bay n).bare = b.unloading.bare ∧ Claimed (.bay n) s t ∧ DrainTested s t ∧
          Frame [.bay n, .claims, .entry i, .runState] s t) ∧
      (b.judge q = .inl .leak → (s.entry i).countedVoids ≤ 2 → Gives (.settleExpiry n) s fun t =>
        ActedOnVoid n i .leak (some b.measured) True { b with releaseCause := none } s t ∧ DrainTested s t ∧
          Frame (voidActionParts n i) s t) ∧
      (∀ c, b.judge q = .inl c → c = .zeroLapsed ∨ c = .gauge → Gives (.settleExpiry n) s fun t =>
        t.entry i = ((s.entry i).voided s.lineSeconds c (some b.measured)).edited ∧
          (s.runState ≠ .eStopped → (t.bay n).bare = ({ b with
            validity := if c = VoidCause.gauge then 0 else b.validity }.checking (some .unloadDecision) (s.after 40)).bare) ∧
          (s.runState = .eStopped → (t.bay n).state = .settling ∧
            (t.bay n).kept = some (.zeroing .unloadDecision) ∧ (t.bay n).outputs.vent = true ∧
            (t.bay n).validity = (if c = VoidCause.gauge then 0 else b.validity)) ∧
          DrainTested s t ∧ Frame [.bay n, .entry i, .runState] s t)) ∧
    (∀ i, (s.bay n).index = some i → ∀ q, (s.entry i).params = some q → (s.entry i).route ≠ some .test →
      (s.bay n).state = .settling → s.due (s.bay n).stepTimer = true →
      (s.bay n).releaseCause = some .holdEnd ∨ (s.bay n).releaseCause = some .rupture →
      Gives (.settleExpiry n) s fun t =>
        (t.bay n).state = .unloading ∧ (t.bay n).outputs = BayOutputs.rest ∧ (t.bay n).index = some i ∧
          (t.bay n).stepTimer = none ∧ (t.bay n).releaseCause = none ∧ Claimed (.bay n) s t ∧ DrainTested s t ∧
          Frame [.bay n, .claims, .runState] s t) ∧
    ((s.bay n).state ≠ .settling ∨ s.due (s.bay n).stepTimer = false → Gives (.settleExpiry n) s fun t =>
      DrainTested s t ∧ Frame [.runState] s t)

/-- O56. CHECK_EXPIRY: a check with no sample pair, or with a drift above the limit, is a failure, repeated once and then
FAULT GAUGE DRIFT; a check with no zero reference stores it and a second begins; a drift within the limit renews the
validity, and the stay ends in IDLE or at the resume point unless a check is still owed. When an expiry is due is the model's
choice: log 2; a check that stores a reference ends the failures in a row: log 18; a second failure leaves the lapsed flag:
log 35. -/
def Obligations.CheckExpiry : Prop :=
  ∀ (n : BayId) (s : State),
    let b := s.bay n
    (b.state ≠ .zeroing ∨ s.due b.stepTimer = false → Gives (.checkExpiry n) s fun t =>
      DrainTested s t ∧ Frame [.runState] s t) ∧
    (b.state = .zeroing → s.due b.stepTimer = true →
      (b.sampleSeen = true → b.zeroReference = none → Gives (.checkExpiry n) s fun t =>
        (t.bay n).bare = { b with
          lastZeroReading := some b.latestGauge
          zeroReference := some b.latestGauge
          lastDrift := none
          checksOwed := b.checksOwed - 1
          failures := 0
          stepTimer := some (s.after 40)
          sampleSeen := false }.bare ∧ DrainTested s t ∧ Frame [.bay n, .runState] s t) ∧
      (b.failures = 0 → b.sampleSeen = false → Gives (.checkExpiry n) s fun t =>
        (t.bay n).bare = { b with
          lastZeroReading := none
          lastDrift := none
          failures := 1
          stepTimer := some (s.after 40)
          sampleSeen := false }.bare ∧ DrainTested s t ∧ Frame [.bay n, .runState] s t) ∧
      (∀ z, b.zeroReference = some z → b.sampleSeen = true →
        let drift := (b.latestGauge - z) + (z - b.latestGauge)
        let c := { b with
          lastZeroReading := some b.latestGauge
          zeroReference := some b.latestGauge
          lastDrift := some drift
          validity := s.work.zeroInterval
          checksOwed := b.checksOwed - 1
          failures := 0 }
        (drift ≤ s.work.driftLimit → 1 < b.checksOwed → Gives (.checkExpiry n) s fun t =>
          (t.bay n).bare = { c with stepTimer := some (s.after 40), sampleSeen := false }.bare ∧ DrainTested s t ∧
            Frame [.bay n, .runState] s t) ∧
        (drift ≤ s.work.driftLimit → b.checksOwed ≤ 1 → b.index = none → 0 < s.work.zeroInterval →
          Gives (.checkExpiry n) s fun t =>
            (t.bay n).bare = c.idling.bare ∧ DrainTested s t ∧ Frame [.bay n, .runState] s t) ∧
        (drift ≤ s.work.driftLimit → b.checksOwed ≤ 1 →
          ∀ i, b.index = some i → ∀ q, (s.entry i).params = some q → s.allowance q ≤ s.work.zeroInterval →
          Gives (.checkExpiry n) s fun t =>
            (b.resume = some .request → (t.bay n).bare =
                { c.waiting with baseline := some b.latestGauge }.bare ∧ ∃ r ∈ t.requests, r.bay = n) ∧
            (b.resume = some .suspend → (t.bay n).bare = { c with
                state := .suspended
                outputs := doorOnly
                baseline := some b.latestGauge
                suspendedFrom := some .awaitIntensifier
                resume := none
                stepTimer := none
                kept := none }.bare) ∧
            (b.resume = some .fill → b.full = false ∨ b.doorClosed = false →
              (t.bay n).bare = (c.fillingFrom (s.after 60)).bare) ∧
            (b.resume = some .unloadDecision → TrackRoom (laneOf n) s → (t.bay n).bare = c.unloading.bare ∧
              (t.lane (laneOf n)).track =
                (s.lane (laneOf n)).track ++ [.reserved (begunTransit s (.entry i) (.bay n))]) ∧
            DrainTested s t ∧
            Frame [.lane (laneOf n), .bay n, .requests, .releases, .intensifier .one, .intensifier .two, .entry i,
              .runState] s t) ∧
        (s.work.driftLimit < drift → b.failures = 0 → Gives (.checkExpiry n) s fun t =>
          (t.bay n).bare = { b with
            lastZeroReading := some b.latestGauge
            lastDrift := some drift
            failures := 1
            stepTimer := some (s.after 40)
            sampleSeen := false }.bare ∧ DrainTested s t ∧ Frame [.bay n, .runState] s t) ∧
        (s.work.driftLimit < drift → b.failures = 1 → Gives (.checkExpiry n) s fun t =>
          (t.bay n).bare = ({ b with
            lastZeroReading := some b.latestGauge
            lastDrift := some drift
            failures := 0
            validity := 0
            resume :=
              if (b.resume = some ResumePoint.request ∨ b.resume = some ResumePoint.suspend) ∧ b.index.isSome = true then
                some ResumePoint.fill
              else b.resume }.faultedWith .gaugeDrift).bare ∧
            Alerted (baySource n) .gaugeDrift t ∧
            (∀ i, b.index = some i → (s.entry i).state.live = true → (s.entry i).route = some .test →
              t.entry i = if b.resume = some ResumePoint.request ∨ b.resume = some ResumePoint.suspend then
                { s.entry i with lastVoid := some .gauge }.edited else s.entry i) ∧
            DrainTested s t ∧
            Frame ([.bay n, .requests, .notices, .alertSeen, .runState] ++ (b.index.map Part.entry).toList) s t)) ∧
      (b.sampleSeen = false → b.failures = 1 → Gives (.checkExpiry n) s fun t =>
        (t.bay n).state = .fault ∧ (t.bay n).faultCause = some .gaugeDrift ∧ (t.bay n).validity = 0 ∧
          (t.bay n).failures = 0 ∧ (t.bay n).index = b.index ∧ (t.bay n).zeroReference = b.zeroReference ∧
          (t.bay n).lastZeroReading = none ∧ (t.bay n).lastDrift = none ∧ Alerted (baySource n) .gaugeDrift t ∧
          DrainTested s t ∧
          Frame ([.bay n, .requests, .notices, .alertSeen, .runState] ++ (b.index.map Part.entry).toList) s t))

/-! ## The arbiter -/

/-- O57. GRANT gives the head request the intensifier of R135, driving at once with an equal setpoint and retuning for 15 s
otherwise; GRANT_AT_BAY takes a waiting bay to PRESSURISING, or releases the intensifier unused; INTENSIFIER_RELEASE frees an
intensifier coupled to the releasing bay, and otherwise removes that bay's request. Grants and releases in flight, a grant
a later one has overtaken, and the notice taken with a grant, are the model's choice: log 8; that GRANT may come at any time and acts only where its
conditions hold: log 1. -/
def Obligations.Grants : Prop :=
  (∀ (s : State) (i : IntensifierId),
    let one := s.intensifier .one
    let two := s.intensifier .two
    (∀ r, s.requests.head? = some r → s.runState ≠ .eStopped →
      (i = .one ∧ one.state = .free ∧
          (two.state ≠ .free ∨ one.setpoint = some r.pressure ∨ two.setpoint ≠ some r.pressure)) ∨
        (i = .two ∧ two.state = .free ∧
          (one.state ≠ .free ∨ (one.setpoint ≠ some r.pressure ∧ two.setpoint = some r.pressure))) →
      Gives .grant s fun t =>
        let x := { s.intensifier i with coupledBay := some r.bay, requested := some r.pressure }
        t.requests = s.requests.tail ∧
          ((s.intensifier i).setpoint = some r.pressure →
            (t.intensifier i).bare = { x with state := .driving }.bare) ∧
          ((s.intensifier i).setpoint ≠ some r.pressure → (t.intensifier i).bare = { x with
            state := .retuning
            setpoint := none
            retuneExpiry := some (s.after 15) }.bare) ∧
          (t.bay r.bay).bare = { s.bay r.bay with grants := (s.bay r.bay).grants ++ [i] }.bare ∧
          Frame [.requests, .intensifier i, .bay r.bay] s t) ∧
    (s.requests = [] ∨ s.runState = .eStopped ∨ (one.state ≠ .free ∧ two.state ≠ .free) →
      Gives .grant s (Frame [] s))) ∧
  (∀ (n : BayId) (s : State),
    let b := s.bay n
    (b.grants = [] → Gives (.grantAtBay n) s fun t => DrainTested s t ∧ Frame [.runState] s t) ∧
    ∀ i, b.grants.head? = some i →
      (b.state ≠ .awaitIntensifier ∨ b.requested = false → Gives (.grantAtBay n) s fun t =>
        (t.bay n).bare = { b with grants := b.grants.tail }.bare ∧ t.releases = s.releases ++ [⟨n, i⟩] ∧
          DrainTested s t ∧ Frame [.bay n, .releases, .runState] s t) ∧
      (b.state = .awaitIntensifier → b.requested = true → s.short n = true → s.runState ≠ .eStopped →
        Gives (.grantAtBay n) s fun t =>
          (Release.mk n i ∈ t.releases) ∧
            (b.pressurised = true → (t.bay n).state = .releasing ∧
              (t.bay n).releaseCause = some (.void .zeroLapsed)) ∧
            (b.pressurised = false → (t.bay n).state = .zeroing ∧ (t.bay n).resume = some .request) ∧
            (∀ r ∈ t.requests, r.bay ≠ n) ∧ DrainTested s t ∧
            Frame [.bay n, .requests, .releases, .runState] s t) ∧
      (b.state = .awaitIntensifier → b.requested = true → s.short n = false →
        (s.intensifier i).coupledBay = some n → i ∉ b.grants.tail →
        Gives (.grantAtBay n) s fun t =>
          (t.bay n).bare = { b with
            grants := b.grants.tail
            state := .pressurising
            coupled := some i
            outputs := ⟨false, true, false, decide (i = IntensifierId.one), decide (i = IntensifierId.two), true, false⟩
            requested := false
            kept := none
            pressurised := true
            pressTimer := if b.pressurised then b.pressTimer else some (s.after s.work.pressurisedLimit)
            trace := if b.pressurised then b.trace else emptyTrace
            traceIndex := if b.pressurised then b.traceIndex else 0
            traceCount := if b.pressurised then b.traceCount else 0
            stepTimer :=
              if (s.intensifier i).state = IntensifierState.driving then
                some (s.after (b.risePaused.getD s.work.riseLimit))
              else none
            risePaused :=
              if (s.intensifier i).state = IntensifierState.driving then none else b.risePaused }.bare ∧
            DrainTested s t ∧ Frame [.bay n, .runState] s t) ∧
      (b.state = .awaitIntensifier → b.requested = true → s.short n = false →
        (s.intensifier i).coupledBay ≠ some n ∨ i ∈ b.grants.tail → Gives (.grantAtBay n) s fun t =>
          (t.bay n).state = .awaitIntensifier ∧ (t.bay n).coupled = none ∧ (t.bay n).requested = true ∧
            (t.bay n).pressurised = true ∧ (t.bay n).grants = b.grants.tail ∧
            (t.bay n).risePaused = b.risePaused ∧ DrainTested s t ∧ Frame [.bay n, .runState] s t)) ∧
  ∀ (n : BayId) (s : State),
    (takeReleaseFrom n s.releases = none → Gives (.intensifierRelease n) s (Frame [] s)) ∧
    ∀ x, takeReleaseFrom n s.releases = some x →
      let y := s.intensifier x.1.intensifier
      x.1.bay = n ∧
      ((y.state = .retuning ∨ y.state = .driving) ∧ y.coupledBay = some n → Gives (.intensifierRelease n) s fun t =>
        t.releases = x.2 ∧ (t.intensifier x.1.intensifier).bare = { y with
          state := if y.pendingOffline then .offline else .free
          coupledBay := none
          requested := none
          retuneExpiry := none
          pendingOffline := false }.bare ∧ Frame [.releases, .intensifier x.1.intensifier] s t) ∧
      (¬((y.state = .retuning ∨ y.state = .driving) ∧ y.coupledBay = some n) →
        Gives (.intensifierRelease n) s fun t =>
          t.releases = x.2 ∧ t.requests = s.requests.filter (fun r => decide (r.bay ≠ n)) ∧
            Frame [.releases, .requests] s t)

/-- O58. RETUNE_EXPIRY of a due retune: the setpoint is the requested pressure, the intensifier drives, and the bay's rise
limit starts or resumes. FAULT_INPUT_CHANGE records the level; turning on, it faults an intensifier in FREE, RETUNING or
DRIVING, and the coupled bay waits again at the head of the queue, or, under pressure with a validity below the allowance, vents
with ZERO LAPSED. The drive output is on in DRIVING alone, and the setpoint
output presents the requested pressure in RETUNING and DRIVING and 0 in the other states. The model's choices: when an expiry is
due (log 2), the fault notice taken with the fault (log 8), the two outputs computed from the state (log 16). -/
def Obligations.RetuneAndFaultInput : Prop :=
  (∀ x : Intensifier,
    (x.drive = true ↔ x.state = .driving) ∧
      (∀ p, x.requested = some p → x.state = .retuning ∨ x.state = .driving → x.setpointOutput = p) ∧
      (x.state = .offline ∨ x.state = .fault ∨ x.state = .free → x.setpointOutput = 0)) ∧
  (∀ (i : IntensifierId) (s : State),
    let x := s.intensifier i
    (x.state = .retuning → s.due x.retuneExpiry = true → Gives (.retuneExpiry i) s fun t =>
      (t.intensifier i).bare = { x with
        state := .driving
        setpoint := x.requested
        retuneExpiry := none }.bare ∧
        (∀ n, x.coupledBay = some n → (s.bay n).state = .pressurising → (s.bay n).coupled = some i →
          (t.bay n).bare = { s.bay n with
            stepTimer := some (s.after ((s.bay n).risePaused.getD s.work.riseLimit))
            risePaused := none }.bare) ∧
        (∀ n, x.coupledBay ≠ some n ∨ (s.bay n).state ≠ .pressurising ∨ (s.bay n).coupled ≠ some i →
          t.bay n = s.bay n) ∧
        Frame (.intensifier i :: bayParts) s t) ∧
    (x.state ≠ .retuning ∨ s.due x.retuneExpiry = false → Gives (.retuneExpiry i) s (Frame [] s))) ∧
  ∀ (i : IntensifierId) (level : Bool) (s : State),
    let x := s.intensifier i
    (x.faultInput = level → Gives (.faultInputChange i level) s fun t => DrainTested s t ∧ Frame [.runState] s t) ∧
    (x.faultInput ≠ level → level = false ∨ x.state = .fault ∨ x.state = .offline →
      Gives (.faultInputChange i level) s fun t =>
        (t.intensifier i).bare = { x with faultInput := level }.bare ∧ DrainTested s t ∧
          Frame [.intensifier i, .runState] s t) ∧
    (x.faultInput = false → level = true → x.state = .free ∨ x.state = .retuning ∨ x.state = .driving →
      Gives (.faultInputChange i level) s fun t =>
        (t.intensifier i).bare = { x.faulted with faultInput := true }.bare ∧
          Alerted (intensifierSource i) .intensifierFault t ∧
          (x.coupledBay = none → Same .requests s t ∧ Same .releases s t ∧ ∀ n, t.bay n = s.bay n) ∧
          (∀ n, x.coupledBay = some n →
            ((s.bay n).state ≠ .pressurising ∨ (s.bay n).coupled ≠ some i →
              t.bay n = s.bay n ∧ t.requests =
                ⟨n, x.requested.getD 0⟩ :: s.requests.filter (fun r => decide (r.bay ≠ n))) ∧
            ((s.bay n).state = .pressurising → (s.bay n).coupled = some i → s.short n = false →
              t.requests = ⟨n, x.requested.getD 0⟩ :: s.requests.filter (fun r => decide (r.bay ≠ n)) ∧
                (t.bay n).bare = { (s.bay n).waiting with
                  coupled := none
                  risePaused :=
                    match (s.bay n).stepTimer with
                    | some e => some (s.remaining e)
                    | none => (s.bay n).risePaused }.bare) ∧
            ((s.bay n).state = .pressurising → (s.bay n).coupled = some i → s.short n = true →
              (s.bay n).pressurised = true →
              t.requests = s.requests.filter (fun r => decide (r.bay ≠ n)) ∧ Same .releases s t ∧
                (t.bay n).bare = ({ s.bay n with coupled := none }.releasing (.void .zeroLapsed) (s.after 60)).bare) ∧
            ∀ m, m ≠ n → t.bay m = s.bay m) ∧
          DrainTested s t ∧
          Frame ([.intensifier i, .requests, .releases, .notices, .alertSeen, .runState] ++ bayParts) s t)

/-! ## Stations -/

/-- O59. The nest and the offering: NEST_EYE loads the nest, copies the mark and builds the order; STATION_NEST_EYE_OFF,
GUARD_CLOSED_CHANGE and STATION_READY_CHANGE record their levels, and the guard opening breaks off an offering; ORDER_OFFER
offers the first byte by the gating; TAKEN takes a byte and offers the next; and a due take limit faults the station. The model's
choices: when an expiry is due (log 2); ORDER OFFER may come at any time and acts only where its conditions hold (log 1). -/
def Obligations.NestAndOffering : Prop :=
  (∀ (st : StationId) (s : State),
    let x := s.station st
    (x.loading = none → Gives (.nestEye st) s fun t =>
      (t.station st).bare = { x with nestEye := true }.bare ∧ DrainTested s t ∧ Frame [.station st, .runState] s t) ∧
    (∀ tr, x.loading = some tr → tr.source = .outfeedHead → ∀ i, x.index = some i → Gives (.nestEye st) s fun t =>
      (t.station st).bare = { x with
        nestEye := true
        loading := none
        nest := .loaded
        reoffer := 0
        mark := if st = StationId.stamper then (s.entry i).mark else none
        order := some (stationOrder st (s.entry i))
        state := if x.state = StationState.nestLoading then .nestLoaded else x.state }.bare ∧
        ArrivedAt tr.item (.station st) s t ∧ t.outfeedHeadInFlight = false ∧ t.outfeedQueue = s.outfeedQueue ∧
        t.outfeedState = s.outfeedState ∧ DrainTested s t ∧
        Frame ([.station st, .outfeed, .runState] ++ itemParts tr.item) s t) ∧
    (Gives (.stationNestEyeOff st) s fun t =>
      (t.station st).bare = { x with nestEye := false }.bare ∧ Frame [.station st] s t) ∧
    (∀ level, Gives (.stationReadyChange st level) s fun t =>
      (t.station st).bare = { x with ready := level }.bare ∧ Frame [.station st] s t)) ∧
  (∀ (e : Entry),
    (∀ q mark, e.params = some q → e.mark = some mark → ∃ check, stationOrder .stamper e =
      [0x53#8, BitVec.ofNat 8 q.strikeClass, BitVec.ofNat 8 mark.length] ++ mark ++ [check] ∧
        checkedOrder (stationOrder .stamper e)) ∧
    (∀ q serial, e.params = some q → e.serial = some serial → ∃ check, stationOrder .defacer e =
      [0x44#8, if q.capacity ≤ 100 then 1#8 else 2#8, BitVec.ofNat 8 serial.length] ++ serial ++ [check] ∧
        checkedOrder (stationOrder .defacer e)) ∧
    ∀ q, e.params = some q → e.serial = none → stationOrder .defacer e =
      [0x44#8, if q.capacity ≤ 100 then 1#8 else 2#8, 0#8, if q.capacity ≤ 100 then 0x45#8 else 0x46#8]) ∧
  (∀ (level : Bool) (s : State), Gives (.guardClosedChange level) s fun t =>
    t.guardClosed = level ∧
      (∀ st, (t.station st).bare =
        (if s.guardClosed = true ∧ level = false ∧ (s.station st).state = StationState.offering then
          { (s.station st).silenced with state := .nestLoaded }
         else s.station st).bare) ∧
      Frame [.guardClosed, .station .stamper, .station .defacer] s t) ∧
  (∀ (st : StationId) (s : State),
    let x := s.station st
    (x.state = .nestLoaded → s.guardClosed = true → x.ready = true → s.runState ≠ .eStopped →
      Gives (.orderOffer st) s fun t =>
        (t.station st).bare = { x with
          state := .offering
          bytePos := some 1
          limit := some (s.after 2)
          orderReady := if x.taken then x.orderReady else true
          orderBus := if x.taken then x.orderBus else (x.order.getD []).getD 0 0x00#8 }.bare ∧
          Frame [.station st] s t) ∧
    (x.state ≠ .nestLoaded ∨ s.guardClosed = false ∨ x.ready = false ∨ s.runState = .eStopped →
      Gives (.orderOffer st) s (Frame [] s)) ∧
    (x.state = .offering → s.due x.limit = true → Gives (.takeLimitExpiry st) s fun t =>
      (t.station st).bare = { x.silenced with state := .fault, faultCause := some .noAnswer }.bare ∧
        Alerted (stationSource st) .noAnswer t ∧ DrainTested s t ∧
        Frame [.station st, .notices, .alertSeen, .runState] s t) ∧
    (x.state ≠ .offering ∨ s.due x.limit = false → Gives (.takeLimitExpiry st) s fun t =>
      DrainTested s t ∧ Frame [.runState] s t)) ∧
  ∀ (st : StationId) (s : State),
    let x := s.station st
    (Gives (.taken st x.taken) s (Frame [] s)) ∧
    (∀ level, x.taken ≠ level →
      x.state ≠ .offering ∨ (level = true ∧ x.orderReady = false) ∨ (level = false ∧ x.orderReady = true) →
      Gives (.taken st level) s fun t =>
        (t.station st).bare = { x with taken := level }.bare ∧ Frame [.station st] s t) ∧
    (∀ pos order, x.bytePos = some pos → x.order = some order → x.state = .offering → x.taken = false →
      x.orderReady = true → Gives (.taken st true) s fun t =>
        (pos < order.length → (t.station st).bare = { x with
          taken := true
          orderReady := false
          bytePos := some (pos + 1)
          limit := some (s.after 2) }.bare) ∧
        (order.length ≤ pos → (t.station st).bare = { x with
          taken := true
          orderReady := false
          state := .working
          bytePos := none
          limit := some (s.after (if st = StationId.stamper then 20 else 40)) }.bare) ∧
        Frame [.station st] s t) ∧
    (∀ pos order, x.bytePos = some pos → x.order = some order → x.state = .offering → x.taken = true →
      x.orderReady = false → Gives (.taken st false) s fun t =>
        (t.station st).bare = { x with
          taken := false
          orderReady := true
          orderBus := order.getD (pos - 1) 0x00#8 }.bare ∧ Frame [.station st] s t)

/-- O60. Results and ejects: DONE_STROBE latches the result; in WORKING the station acts on it by its value, and in any other
state but FAULT and OFFLINE it is a breach of the link; the DONE line's level is recorded, left on or off by a strobe and going off
without one; a due work limit acts as TOOL FAULT; and EJECT_BEGIN begins a waiting
eject outside E-STOPPED. The model's choices: the changes of the DONE line as an operand (log 14), when an expiry is due (log 2), EJECT
BEGIN may come at any time and acts only where its conditions hold (log 1). -/
def Obligations.StationResults : Prop :=
  (∀ (st : StationId) (result : BitVec 4) (level : Bool) (s : State),
    let x := { s.station st with resultLatch := result, done := level }
    (x.state = .fault ∨ x.state = .offline → Gives (.doneStrobe st result (.strobe level)) s fun t =>
      (t.station st).bare = x.bare ∧ DrainTested s t ∧ Frame [.station st, .runState] s t) ∧
    (x.state = .idle ∨ x.state = .nestLoading ∨ x.state = .nestLoaded ∨ x.state = .ejecting →
      Gives (.doneStrobe st result (.strobe level)) s fun t =>
        (t.station st).bare = { x with state := .fault, faultCause := some .protocol }.bare ∧
          Alerted (stationSource st) .protocol t ∧ DrainTested s t ∧
          Frame [.station st, .notices, .alertSeen, .runState] s t) ∧
    (x.state = .offering → Gives (.doneStrobe st result (.strobe level)) s fun t =>
      (t.station st).bare = { x.silenced with state := .fault, faultCause := some .protocol }.bare ∧
        Alerted (stationSource st) .protocol t ∧ DrainTested s t ∧
        Frame [.station st, .notices, .alertSeen, .runState] s t) ∧
    (x.state = .working → result = 1#4 → Gives (.doneStrobe st result (.strobe level)) s fun t =>
      (t.station st).bare = (x.ejecting (if st = StationId.stamper then .releaseConveyor else .scrapBin)).bare ∧
        DrainTested s t ∧ Frame [.station st, .runState] s t) ∧
    (∀ i, x.index = some i → x.state = .working → result = 2#4 → Gives (.doneStrobe st result (.strobe level)) s fun t =>
      (t.station st).bare = (x.ejecting .holdChute).bare ∧ DoubtReported st i s t ∧ DrainTested s t ∧
        Frame [.station st, .entry i, .runState] s t) ∧
    (∀ i, x.index = some i → x.state = .working → result = 3#4 ∨ result = 0#4 ∨ 6 ≤ result.toNat →
      Gives (.doneStrobe st result (.strobe level)) s fun t =>
        let cause := if result = 3#4 then AlertCode.toolFault else AlertCode.protocol
        (t.station st).bare = { x.ejecting .holdChute with faultCause := some cause }.bare ∧
          Alerted (stationSource st) cause t ∧ DoubtReported st i s t ∧ DrainTested s t ∧
          Frame [.station st, .entry i, .notices, .alertSeen, .runState] s t) ∧
    (∀ i, x.index = some i → x.state = .working → result = 4#4 → Gives (.doneStrobe st result (.strobe level)) s fun t =>
      (t.station st).bare = { x with
        limit := none
        state := .fault
        nest := .empty
        index := none
        order := none
        mark := none
        faultCause := some .noCylinder }.bare ∧
        Alerted (stationSource st) .noCylinder t ∧
        ((s.entry i).state = .outbound → Closed i .missing .noCylinder s t) ∧ DrainTested s t ∧
        Frame [.station st, .entry i, .notices, .alertSeen, .choices, .runState] s t) ∧
    (x.state = .working → result = 5#4 → x.reoffer = 0 → Gives (.doneStrobe st result (.strobe level)) s fun t =>
      (t.station st).bare = { x with limit := none, reoffer := 1, state := .nestLoaded }.bare ∧ DrainTested s t ∧
        Frame [.station st, .runState] s t) ∧
    (x.state = .working → result = 5#4 → x.reoffer ≠ 0 → Gives (.doneStrobe st result (.strobe level)) s fun t =>
      (t.station st).bare = { x with limit := none, state := .fault, faultCause := some .protocol }.bare ∧
        Alerted (stationSource st) .protocol t ∧ DrainTested s t ∧
        Frame [.station st, .notices, .alertSeen, .runState] s t)) ∧
  (∀ (st : StationId) (result : BitVec 4) (s : State), Gives (.doneStrobe st result .off) s fun t =>
    (t.station st).bare = { s.station st with done := false }.bare ∧ Frame [.station st] s t) ∧
  ∀ (st : StationId) (s : State),
    let x := s.station st
    (∀ i, x.index = some i → x.state = .working → s.due x.limit = true → Gives (.workLimitExpiry st) s fun t =>
      (t.station st).bare = { x.ejecting .holdChute with faultCause := some .toolFault }.bare ∧
        Alerted (stationSource st) .toolFault t ∧ DoubtReported st i s t ∧
        Frame [.station st, .entry i, .notices, .alertSeen] s t) ∧
    (x.state ≠ .working ∨ s.due x.limit = false → Gives (.workLimitExpiry st) s (Frame [] s)) ∧
    (∀ i, x.index = some i → ∀ e, x.ejectExit = some e → x.nest = .outgoing → x.ejectBegun = false →
      s.runState ≠ .eStopped → Gives (.ejectBegin st) s fun t =>
        (t.station st).bare = { x with ejectBegun := true }.bare ∧
          t.exits = s.exits ++ [⟨begunTransit s (.entry i) (.station st), e⟩] ∧
          ((s.entry i).state = .outbound → t.entry i = ((s.entry i).leaving .outbound).edited) ∧
          DrainTested s t ∧ Frame [.station st, .exits, .entry i, .runState] s t) ∧
    (x.nest ≠ .outgoing ∨ x.ejectBegun = true ∨ s.runState = .eStopped → Gives (.ejectBegin st) s fun t =>
      DrainTested s t ∧ Frame [.runState] s t)
end

