-- ==== Sys2Proof/Laws/State.lean ====
section
/-! SUPPORT. One lemma per field and per update of the state: what an update leaves alone, and what a read gives after it. -/

namespace Sys2Proof.Machine

/-! ## setLane -/

@[simp] theorem setLane_pending (s : State) (l : LaneId) (x : Lane) : (s.setLane l x).pending = s.pending := rfl
@[simp] theorem setLane_runState (s : State) (l : LaneId) (x : Lane) : (s.setLane l x).runState = s.runState := rfl
@[simp] theorem setLane_eStopInput (s : State) (l : LaneId) (x : Lane) : (s.setLane l x).eStopInput = s.eStopInput := rfl
@[simp] theorem setLane_lineSeconds (s : State) (l : LaneId) (x : Lane) : (s.setLane l x).lineSeconds = s.lineSeconds := rfl
@[simp] theorem setLane_cmbWord (s : State) (l : LaneId) (x : Lane) : (s.setLane l x).cmbWord = s.cmbWord := rfl
@[simp] theorem setLane_cmbFull (s : State) (l : LaneId) (x : Lane) : (s.setLane l x).cmbFull = s.cmbFull := rfl
@[simp] theorem setLane_justEmptied (s : State) (l : LaneId) (x : Lane) : (s.setLane l x).justEmptied = s.justEmptied := rfl
@[simp] theorem setLane_lastCommand (s : State) (l : LaneId) (x : Lane) : (s.setLane l x).lastCommand = s.lastCommand := rfl
@[simp] theorem setLane_lastResult (s : State) (l : LaneId) (x : Lane) : (s.setLane l x).lastResult = s.lastResult := rfl
@[simp] theorem setLane_overwriteFlag (s : State) (l : LaneId) (x : Lane) : (s.setLane l x).overwriteFlag = s.overwriteFlag := rfl
@[simp] theorem setLane_alertSeen (s : State) (l : LaneId) (x : Lane) : (s.setLane l x).alertSeen = s.alertSeen := rfl
@[simp] theorem setLane_interruptEnable (s : State) (l : LaneId) (x : Lane) : (s.setLane l x).interruptEnable = s.interruptEnable := rfl
@[simp] theorem setLane_busReadData (s : State) (l : LaneId) (x : Lane) : (s.setLane l x).busReadData = s.busReadData := rfl
@[simp] theorem setLane_interruptPulses (s : State) (l : LaneId) (x : Lane) : (s.setLane l x).interruptPulses = s.interruptPulses := rfl
@[simp] theorem setLane_mem (s : State) (l : LaneId) (x : Lane) : (s.setLane l x).mem = s.mem := rfl
@[simp] theorem setLane_headerCount (s : State) (l : LaneId) (x : Lane) : (s.setLane l x).headerCount = s.headerCount := rfl
@[simp] theorem setLane_slotCounts (s : State) (l : LaneId) (x : Lane) : (s.setLane l x).slotCounts = s.slotCounts := rfl
@[simp] theorem setLane_notices (s : State) (l : LaneId) (x : Lane) : (s.setLane l x).notices = s.notices := rfl
@[simp] theorem setLane_nmb (s : State) (l : LaneId) (x : Lane) : (s.setLane l x).nmb = s.nmb := rfl
@[simp] theorem setLane_settings (s : State) (l : LaneId) (x : Lane) : (s.setLane l x).settings = s.settings := rfl
@[simp] theorem setLane_types (s : State) (l : LaneId) (x : Lane) : (s.setLane l x).types = s.types := rfl
@[simp] theorem setLane_typeMask (s : State) (l : LaneId) (x : Lane) : (s.setLane l x).typeMask = s.typeMask := rfl
@[simp] theorem setLane_templates (s : State) (l : LaneId) (x : Lane) : (s.setLane l x).templates = s.templates := rfl
@[simp] theorem setLane_templateMask (s : State) (l : LaneId) (x : Lane) : (s.setLane l x).templateMask = s.templateMask := rfl
@[simp] theorem setLane_tablesHeld (s : State) (l : LaneId) (x : Lane) : (s.setLane l x).tablesHeld = s.tablesHeld := rfl
@[simp] theorem setLane_firstBad (s : State) (l : LaneId) (x : Lane) : (s.setLane l x).firstBad = s.firstBad := rfl
@[simp] theorem setLane_date (s : State) (l : LaneId) (x : Lane) : (s.setLane l x).date = s.date := rfl
@[simp] theorem setLane_readerA (s : State) (l : LaneId) (x : Lane) : (s.setLane l x).readerA = s.readerA := rfl
@[simp] theorem setLane_readerB (s : State) (l : LaneId) (x : Lane) : (s.setLane l x).readerB = s.readerB := rfl
@[simp] theorem setLane_expect (s : State) (l : LaneId) (x : Lane) : (s.setLane l x).expect = s.expect := rfl
@[simp] theorem setLane_roster (s : State) (l : LaneId) (x : Lane) : (s.setLane l x).roster = s.roster := rfl
@[simp] theorem setLane_freeCount (s : State) (l : LaneId) (x : Lane) : (s.setLane l x).freeCount = s.freeCount := rfl
@[simp] theorem setLane_outfeedState (s : State) (l : LaneId) (x : Lane) : (s.setLane l x).outfeedState = s.outfeedState := rfl
@[simp] theorem setLane_outfeedQueue (s : State) (l : LaneId) (x : Lane) : (s.setLane l x).outfeedQueue = s.outfeedQueue := rfl
@[simp] theorem setLane_outfeedHeadInFlight (s : State) (l : LaneId) (x : Lane) : (s.setLane l x).outfeedHeadInFlight = s.outfeedHeadInFlight := rfl
@[simp] theorem setLane_exits (s : State) (l : LaneId) (x : Lane) : (s.setLane l x).exits = s.exits := rfl
@[simp] theorem setLane_claims (s : State) (l : LaneId) (x : Lane) : (s.setLane l x).claims = s.claims := rfl
@[simp] theorem setLane_bays (s : State) (l : LaneId) (x : Lane) : (s.setLane l x).bays = s.bays := rfl
@[simp] theorem setLane_requests (s : State) (l : LaneId) (x : Lane) : (s.setLane l x).requests = s.requests := rfl
@[simp] theorem setLane_releases (s : State) (l : LaneId) (x : Lane) : (s.setLane l x).releases = s.releases := rfl
@[simp] theorem setLane_intensifier1 (s : State) (l : LaneId) (x : Lane) : (s.setLane l x).intensifier1 = s.intensifier1 := rfl
@[simp] theorem setLane_intensifier2 (s : State) (l : LaneId) (x : Lane) : (s.setLane l x).intensifier2 = s.intensifier2 := rfl
@[simp] theorem setLane_stamper (s : State) (l : LaneId) (x : Lane) : (s.setLane l x).stamper = s.stamper := rfl
@[simp] theorem setLane_defacer (s : State) (l : LaneId) (x : Lane) : (s.setLane l x).defacer = s.defacer := rfl
@[simp] theorem setLane_guardClosed (s : State) (l : LaneId) (x : Lane) : (s.setLane l x).guardClosed = s.guardClosed := rfl
@[simp] theorem setLane_choices (s : State) (l : LaneId) (x : Lane) : (s.setLane l x).choices = s.choices := rfl

/-! ## setReader -/

@[simp] theorem setReader_pending (s : State) (l : LaneId) (x : Reader) : (s.setReader l x).pending = s.pending := rfl
@[simp] theorem setReader_runState (s : State) (l : LaneId) (x : Reader) : (s.setReader l x).runState = s.runState := rfl
@[simp] theorem setReader_eStopInput (s : State) (l : LaneId) (x : Reader) : (s.setReader l x).eStopInput = s.eStopInput := rfl
@[simp] theorem setReader_lineSeconds (s : State) (l : LaneId) (x : Reader) : (s.setReader l x).lineSeconds = s.lineSeconds := rfl
@[simp] theorem setReader_cmbWord (s : State) (l : LaneId) (x : Reader) : (s.setReader l x).cmbWord = s.cmbWord := rfl
@[simp] theorem setReader_cmbFull (s : State) (l : LaneId) (x : Reader) : (s.setReader l x).cmbFull = s.cmbFull := rfl
@[simp] theorem setReader_justEmptied (s : State) (l : LaneId) (x : Reader) : (s.setReader l x).justEmptied = s.justEmptied := rfl
@[simp] theorem setReader_lastCommand (s : State) (l : LaneId) (x : Reader) : (s.setReader l x).lastCommand = s.lastCommand := rfl
@[simp] theorem setReader_lastResult (s : State) (l : LaneId) (x : Reader) : (s.setReader l x).lastResult = s.lastResult := rfl
@[simp] theorem setReader_overwriteFlag (s : State) (l : LaneId) (x : Reader) : (s.setReader l x).overwriteFlag = s.overwriteFlag := rfl
@[simp] theorem setReader_alertSeen (s : State) (l : LaneId) (x : Reader) : (s.setReader l x).alertSeen = s.alertSeen := rfl
@[simp] theorem setReader_interruptEnable (s : State) (l : LaneId) (x : Reader) : (s.setReader l x).interruptEnable = s.interruptEnable := rfl
@[simp] theorem setReader_busReadData (s : State) (l : LaneId) (x : Reader) : (s.setReader l x).busReadData = s.busReadData := rfl
@[simp] theorem setReader_interruptPulses (s : State) (l : LaneId) (x : Reader) : (s.setReader l x).interruptPulses = s.interruptPulses := rfl
@[simp] theorem setReader_mem (s : State) (l : LaneId) (x : Reader) : (s.setReader l x).mem = s.mem := rfl
@[simp] theorem setReader_headerCount (s : State) (l : LaneId) (x : Reader) : (s.setReader l x).headerCount = s.headerCount := rfl
@[simp] theorem setReader_slotCounts (s : State) (l : LaneId) (x : Reader) : (s.setReader l x).slotCounts = s.slotCounts := rfl
@[simp] theorem setReader_notices (s : State) (l : LaneId) (x : Reader) : (s.setReader l x).notices = s.notices := rfl
@[simp] theorem setReader_nmb (s : State) (l : LaneId) (x : Reader) : (s.setReader l x).nmb = s.nmb := rfl
@[simp] theorem setReader_settings (s : State) (l : LaneId) (x : Reader) : (s.setReader l x).settings = s.settings := rfl
@[simp] theorem setReader_types (s : State) (l : LaneId) (x : Reader) : (s.setReader l x).types = s.types := rfl
@[simp] theorem setReader_typeMask (s : State) (l : LaneId) (x : Reader) : (s.setReader l x).typeMask = s.typeMask := rfl
@[simp] theorem setReader_templates (s : State) (l : LaneId) (x : Reader) : (s.setReader l x).templates = s.templates := rfl
@[simp] theorem setReader_templateMask (s : State) (l : LaneId) (x : Reader) : (s.setReader l x).templateMask = s.templateMask := rfl
@[simp] theorem setReader_tablesHeld (s : State) (l : LaneId) (x : Reader) : (s.setReader l x).tablesHeld = s.tablesHeld := rfl
@[simp] theorem setReader_firstBad (s : State) (l : LaneId) (x : Reader) : (s.setReader l x).firstBad = s.firstBad := rfl
@[simp] theorem setReader_date (s : State) (l : LaneId) (x : Reader) : (s.setReader l x).date = s.date := rfl
@[simp] theorem setReader_expect (s : State) (l : LaneId) (x : Reader) : (s.setReader l x).expect = s.expect := rfl
@[simp] theorem setReader_roster (s : State) (l : LaneId) (x : Reader) : (s.setReader l x).roster = s.roster := rfl
@[simp] theorem setReader_freeCount (s : State) (l : LaneId) (x : Reader) : (s.setReader l x).freeCount = s.freeCount := rfl
@[simp] theorem setReader_laneA (s : State) (l : LaneId) (x : Reader) : (s.setReader l x).laneA = s.laneA := rfl
@[simp] theorem setReader_laneB (s : State) (l : LaneId) (x : Reader) : (s.setReader l x).laneB = s.laneB := rfl
@[simp] theorem setReader_outfeedState (s : State) (l : LaneId) (x : Reader) : (s.setReader l x).outfeedState = s.outfeedState := rfl
@[simp] theorem setReader_outfeedQueue (s : State) (l : LaneId) (x : Reader) : (s.setReader l x).outfeedQueue = s.outfeedQueue := rfl
@[simp] theorem setReader_outfeedHeadInFlight (s : State) (l : LaneId) (x : Reader) : (s.setReader l x).outfeedHeadInFlight = s.outfeedHeadInFlight := rfl
@[simp] theorem setReader_exits (s : State) (l : LaneId) (x : Reader) : (s.setReader l x).exits = s.exits := rfl
@[simp] theorem setReader_claims (s : State) (l : LaneId) (x : Reader) : (s.setReader l x).claims = s.claims := rfl
@[simp] theorem setReader_bays (s : State) (l : LaneId) (x : Reader) : (s.setReader l x).bays = s.bays := rfl
@[simp] theorem setReader_requests (s : State) (l : LaneId) (x : Reader) : (s.setReader l x).requests = s.requests := rfl
@[simp] theorem setReader_releases (s : State) (l : LaneId) (x : Reader) : (s.setReader l x).releases = s.releases := rfl
@[simp] theorem setReader_intensifier1 (s : State) (l : LaneId) (x : Reader) : (s.setReader l x).intensifier1 = s.intensifier1 := rfl
@[simp] theorem setReader_intensifier2 (s : State) (l : LaneId) (x : Reader) : (s.setReader l x).intensifier2 = s.intensifier2 := rfl
@[simp] theorem setReader_stamper (s : State) (l : LaneId) (x : Reader) : (s.setReader l x).stamper = s.stamper := rfl
@[simp] theorem setReader_defacer (s : State) (l : LaneId) (x : Reader) : (s.setReader l x).defacer = s.defacer := rfl
@[simp] theorem setReader_guardClosed (s : State) (l : LaneId) (x : Reader) : (s.setReader l x).guardClosed = s.guardClosed := rfl
@[simp] theorem setReader_choices (s : State) (l : LaneId) (x : Reader) : (s.setReader l x).choices = s.choices := rfl

/-! ## setIntensifier -/

@[simp] theorem setIntensifier_pending (s : State) (i : IntensifierId) (x : Intensifier) : (s.setIntensifier i x).pending = s.pending := rfl
@[simp] theorem setIntensifier_runState (s : State) (i : IntensifierId) (x : Intensifier) : (s.setIntensifier i x).runState = s.runState := rfl
@[simp] theorem setIntensifier_eStopInput (s : State) (i : IntensifierId) (x : Intensifier) : (s.setIntensifier i x).eStopInput = s.eStopInput := rfl
@[simp] theorem setIntensifier_lineSeconds (s : State) (i : IntensifierId) (x : Intensifier) : (s.setIntensifier i x).lineSeconds = s.lineSeconds := rfl
@[simp] theorem setIntensifier_cmbWord (s : State) (i : IntensifierId) (x : Intensifier) : (s.setIntensifier i x).cmbWord = s.cmbWord := rfl
@[simp] theorem setIntensifier_cmbFull (s : State) (i : IntensifierId) (x : Intensifier) : (s.setIntensifier i x).cmbFull = s.cmbFull := rfl
@[simp] theorem setIntensifier_justEmptied (s : State) (i : IntensifierId) (x : Intensifier) : (s.setIntensifier i x).justEmptied = s.justEmptied := rfl
@[simp] theorem setIntensifier_lastCommand (s : State) (i : IntensifierId) (x : Intensifier) : (s.setIntensifier i x).lastCommand = s.lastCommand := rfl
@[simp] theorem setIntensifier_lastResult (s : State) (i : IntensifierId) (x : Intensifier) : (s.setIntensifier i x).lastResult = s.lastResult := rfl
@[simp] theorem setIntensifier_overwriteFlag (s : State) (i : IntensifierId) (x : Intensifier) : (s.setIntensifier i x).overwriteFlag = s.overwriteFlag := rfl
@[simp] theorem setIntensifier_alertSeen (s : State) (i : IntensifierId) (x : Intensifier) : (s.setIntensifier i x).alertSeen = s.alertSeen := rfl
@[simp] theorem setIntensifier_interruptEnable (s : State) (i : IntensifierId) (x : Intensifier) : (s.setIntensifier i x).interruptEnable = s.interruptEnable := rfl
@[simp] theorem setIntensifier_busReadData (s : State) (i : IntensifierId) (x : Intensifier) : (s.setIntensifier i x).busReadData = s.busReadData := rfl
@[simp] theorem setIntensifier_interruptPulses (s : State) (i : IntensifierId) (x : Intensifier) : (s.setIntensifier i x).interruptPulses = s.interruptPulses := rfl
@[simp] theorem setIntensifier_mem (s : State) (i : IntensifierId) (x : Intensifier) : (s.setIntensifier i x).mem = s.mem := rfl
@[simp] theorem setIntensifier_headerCount (s : State) (i : IntensifierId) (x : Intensifier) : (s.setIntensifier i x).headerCount = s.headerCount := rfl
@[simp] theorem setIntensifier_slotCounts (s : State) (i : IntensifierId) (x : Intensifier) : (s.setIntensifier i x).slotCounts = s.slotCounts := rfl
@[simp] theorem setIntensifier_notices (s : State) (i : IntensifierId) (x : Intensifier) : (s.setIntensifier i x).notices = s.notices := rfl
@[simp] theorem setIntensifier_nmb (s : State) (i : IntensifierId) (x : Intensifier) : (s.setIntensifier i x).nmb = s.nmb := rfl
@[simp] theorem setIntensifier_settings (s : State) (i : IntensifierId) (x : Intensifier) : (s.setIntensifier i x).settings = s.settings := rfl
@[simp] theorem setIntensifier_types (s : State) (i : IntensifierId) (x : Intensifier) : (s.setIntensifier i x).types = s.types := rfl
@[simp] theorem setIntensifier_typeMask (s : State) (i : IntensifierId) (x : Intensifier) : (s.setIntensifier i x).typeMask = s.typeMask := rfl
@[simp] theorem setIntensifier_templates (s : State) (i : IntensifierId) (x : Intensifier) : (s.setIntensifier i x).templates = s.templates := rfl
@[simp] theorem setIntensifier_templateMask (s : State) (i : IntensifierId) (x : Intensifier) : (s.setIntensifier i x).templateMask = s.templateMask := rfl
@[simp] theorem setIntensifier_tablesHeld (s : State) (i : IntensifierId) (x : Intensifier) : (s.setIntensifier i x).tablesHeld = s.tablesHeld := rfl
@[simp] theorem setIntensifier_firstBad (s : State) (i : IntensifierId) (x : Intensifier) : (s.setIntensifier i x).firstBad = s.firstBad := rfl
@[simp] theorem setIntensifier_date (s : State) (i : IntensifierId) (x : Intensifier) : (s.setIntensifier i x).date = s.date := rfl
@[simp] theorem setIntensifier_readerA (s : State) (i : IntensifierId) (x : Intensifier) : (s.setIntensifier i x).readerA = s.readerA := rfl
@[simp] theorem setIntensifier_readerB (s : State) (i : IntensifierId) (x : Intensifier) : (s.setIntensifier i x).readerB = s.readerB := rfl
@[simp] theorem setIntensifier_expect (s : State) (i : IntensifierId) (x : Intensifier) : (s.setIntensifier i x).expect = s.expect := rfl
@[simp] theorem setIntensifier_roster (s : State) (i : IntensifierId) (x : Intensifier) : (s.setIntensifier i x).roster = s.roster := rfl
@[simp] theorem setIntensifier_freeCount (s : State) (i : IntensifierId) (x : Intensifier) : (s.setIntensifier i x).freeCount = s.freeCount := rfl
@[simp] theorem setIntensifier_laneA (s : State) (i : IntensifierId) (x : Intensifier) : (s.setIntensifier i x).laneA = s.laneA := rfl
@[simp] theorem setIntensifier_laneB (s : State) (i : IntensifierId) (x : Intensifier) : (s.setIntensifier i x).laneB = s.laneB := rfl
@[simp] theorem setIntensifier_outfeedState (s : State) (i : IntensifierId) (x : Intensifier) : (s.setIntensifier i x).outfeedState = s.outfeedState := rfl
@[simp] theorem setIntensifier_outfeedQueue (s : State) (i : IntensifierId) (x : Intensifier) : (s.setIntensifier i x).outfeedQueue = s.outfeedQueue := rfl
@[simp] theorem setIntensifier_outfeedHeadInFlight (s : State) (i : IntensifierId) (x : Intensifier) : (s.setIntensifier i x).outfeedHeadInFlight = s.outfeedHeadInFlight := rfl
@[simp] theorem setIntensifier_exits (s : State) (i : IntensifierId) (x : Intensifier) : (s.setIntensifier i x).exits = s.exits := rfl
@[simp] theorem setIntensifier_claims (s : State) (i : IntensifierId) (x : Intensifier) : (s.setIntensifier i x).claims = s.claims := rfl
@[simp] theorem setIntensifier_bays (s : State) (i : IntensifierId) (x : Intensifier) : (s.setIntensifier i x).bays = s.bays := rfl
@[simp] theorem setIntensifier_requests (s : State) (i : IntensifierId) (x : Intensifier) : (s.setIntensifier i x).requests = s.requests := rfl
@[simp] theorem setIntensifier_releases (s : State) (i : IntensifierId) (x : Intensifier) : (s.setIntensifier i x).releases = s.releases := rfl
@[simp] theorem setIntensifier_stamper (s : State) (i : IntensifierId) (x : Intensifier) : (s.setIntensifier i x).stamper = s.stamper := rfl
@[simp] theorem setIntensifier_defacer (s : State) (i : IntensifierId) (x : Intensifier) : (s.setIntensifier i x).defacer = s.defacer := rfl
@[simp] theorem setIntensifier_guardClosed (s : State) (i : IntensifierId) (x : Intensifier) : (s.setIntensifier i x).guardClosed = s.guardClosed := rfl
@[simp] theorem setIntensifier_choices (s : State) (i : IntensifierId) (x : Intensifier) : (s.setIntensifier i x).choices = s.choices := rfl

/-! ## setStation -/

@[simp] theorem setStation_pending (s : State) (st : StationId) (x : Station) : (s.setStation st x).pending = s.pending := rfl
@[simp] theorem setStation_runState (s : State) (st : StationId) (x : Station) : (s.setStation st x).runState = s.runState := rfl
@[simp] theorem setStation_eStopInput (s : State) (st : StationId) (x : Station) : (s.setStation st x).eStopInput = s.eStopInput := rfl
@[simp] theorem setStation_lineSeconds (s : State) (st : StationId) (x : Station) : (s.setStation st x).lineSeconds = s.lineSeconds := rfl
@[simp] theorem setStation_cmbWord (s : State) (st : StationId) (x : Station) : (s.setStation st x).cmbWord = s.cmbWord := rfl
@[simp] theorem setStation_cmbFull (s : State) (st : StationId) (x : Station) : (s.setStation st x).cmbFull = s.cmbFull := rfl
@[simp] theorem setStation_justEmptied (s : State) (st : StationId) (x : Station) : (s.setStation st x).justEmptied = s.justEmptied := rfl
@[simp] theorem setStation_lastCommand (s : State) (st : StationId) (x : Station) : (s.setStation st x).lastCommand = s.lastCommand := rfl
@[simp] theorem setStation_lastResult (s : State) (st : StationId) (x : Station) : (s.setStation st x).lastResult = s.lastResult := rfl
@[simp] theorem setStation_overwriteFlag (s : State) (st : StationId) (x : Station) : (s.setStation st x).overwriteFlag = s.overwriteFlag := rfl
@[simp] theorem setStation_alertSeen (s : State) (st : StationId) (x : Station) : (s.setStation st x).alertSeen = s.alertSeen := rfl
@[simp] theorem setStation_interruptEnable (s : State) (st : StationId) (x : Station) : (s.setStation st x).interruptEnable = s.interruptEnable := rfl
@[simp] theorem setStation_busReadData (s : State) (st : StationId) (x : Station) : (s.setStation st x).busReadData = s.busReadData := rfl
@[simp] theorem setStation_interruptPulses (s : State) (st : StationId) (x : Station) : (s.setStation st x).interruptPulses = s.interruptPulses := rfl
@[simp] theorem setStation_mem (s : State) (st : StationId) (x : Station) : (s.setStation st x).mem = s.mem := rfl
@[simp] theorem setStation_headerCount (s : State) (st : StationId) (x : Station) : (s.setStation st x).headerCount = s.headerCount := rfl
@[simp] theorem setStation_slotCounts (s : State) (st : StationId) (x : Station) : (s.setStation st x).slotCounts = s.slotCounts := rfl
@[simp] theorem setStation_notices (s : State) (st : StationId) (x : Station) : (s.setStation st x).notices = s.notices := rfl
@[simp] theorem setStation_nmb (s : State) (st : StationId) (x : Station) : (s.setStation st x).nmb = s.nmb := rfl
@[simp] theorem setStation_settings (s : State) (st : StationId) (x : Station) : (s.setStation st x).settings = s.settings := rfl
@[simp] theorem setStation_types (s : State) (st : StationId) (x : Station) : (s.setStation st x).types = s.types := rfl
@[simp] theorem setStation_typeMask (s : State) (st : StationId) (x : Station) : (s.setStation st x).typeMask = s.typeMask := rfl
@[simp] theorem setStation_templates (s : State) (st : StationId) (x : Station) : (s.setStation st x).templates = s.templates := rfl
@[simp] theorem setStation_templateMask (s : State) (st : StationId) (x : Station) : (s.setStation st x).templateMask = s.templateMask := rfl
@[simp] theorem setStation_tablesHeld (s : State) (st : StationId) (x : Station) : (s.setStation st x).tablesHeld = s.tablesHeld := rfl
@[simp] theorem setStation_firstBad (s : State) (st : StationId) (x : Station) : (s.setStation st x).firstBad = s.firstBad := rfl
@[simp] theorem setStation_date (s : State) (st : StationId) (x : Station) : (s.setStation st x).date = s.date := rfl
@[simp] theorem setStation_readerA (s : State) (st : StationId) (x : Station) : (s.setStation st x).readerA = s.readerA := rfl
@[simp] theorem setStation_readerB (s : State) (st : StationId) (x : Station) : (s.setStation st x).readerB = s.readerB := rfl
@[simp] theorem setStation_expect (s : State) (st : StationId) (x : Station) : (s.setStation st x).expect = s.expect := rfl
@[simp] theorem setStation_roster (s : State) (st : StationId) (x : Station) : (s.setStation st x).roster = s.roster := rfl
@[simp] theorem setStation_freeCount (s : State) (st : StationId) (x : Station) : (s.setStation st x).freeCount = s.freeCount := rfl
@[simp] theorem setStation_laneA (s : State) (st : StationId) (x : Station) : (s.setStation st x).laneA = s.laneA := rfl
@[simp] theorem setStation_laneB (s : State) (st : StationId) (x : Station) : (s.setStation st x).laneB = s.laneB := rfl
@[simp] theorem setStation_outfeedState (s : State) (st : StationId) (x : Station) : (s.setStation st x).outfeedState = s.outfeedState := rfl
@[simp] theorem setStation_outfeedQueue (s : State) (st : StationId) (x : Station) : (s.setStation st x).outfeedQueue = s.outfeedQueue := rfl
@[simp] theorem setStation_outfeedHeadInFlight (s : State) (st : StationId) (x : Station) : (s.setStation st x).outfeedHeadInFlight = s.outfeedHeadInFlight := rfl
@[simp] theorem setStation_exits (s : State) (st : StationId) (x : Station) : (s.setStation st x).exits = s.exits := rfl
@[simp] theorem setStation_claims (s : State) (st : StationId) (x : Station) : (s.setStation st x).claims = s.claims := rfl
@[simp] theorem setStation_bays (s : State) (st : StationId) (x : Station) : (s.setStation st x).bays = s.bays := rfl
@[simp] theorem setStation_requests (s : State) (st : StationId) (x : Station) : (s.setStation st x).requests = s.requests := rfl
@[simp] theorem setStation_releases (s : State) (st : StationId) (x : Station) : (s.setStation st x).releases = s.releases := rfl
@[simp] theorem setStation_intensifier1 (s : State) (st : StationId) (x : Station) : (s.setStation st x).intensifier1 = s.intensifier1 := rfl
@[simp] theorem setStation_intensifier2 (s : State) (st : StationId) (x : Station) : (s.setStation st x).intensifier2 = s.intensifier2 := rfl
@[simp] theorem setStation_guardClosed (s : State) (st : StationId) (x : Station) : (s.setStation st x).guardClosed = s.guardClosed := rfl
@[simp] theorem setStation_choices (s : State) (st : StationId) (x : Station) : (s.setStation st x).choices = s.choices := rfl

/-! ## setBay -/

@[simp] theorem setBay_pending (s : State) (n : BayId) (b : Bay) : (s.setBay n b).pending = s.pending := rfl
@[simp] theorem setBay_runState (s : State) (n : BayId) (b : Bay) : (s.setBay n b).runState = s.runState := rfl
@[simp] theorem setBay_eStopInput (s : State) (n : BayId) (b : Bay) : (s.setBay n b).eStopInput = s.eStopInput := rfl
@[simp] theorem setBay_lineSeconds (s : State) (n : BayId) (b : Bay) : (s.setBay n b).lineSeconds = s.lineSeconds := rfl
@[simp] theorem setBay_cmbWord (s : State) (n : BayId) (b : Bay) : (s.setBay n b).cmbWord = s.cmbWord := rfl
@[simp] theorem setBay_cmbFull (s : State) (n : BayId) (b : Bay) : (s.setBay n b).cmbFull = s.cmbFull := rfl
@[simp] theorem setBay_justEmptied (s : State) (n : BayId) (b : Bay) : (s.setBay n b).justEmptied = s.justEmptied := rfl
@[simp] theorem setBay_lastCommand (s : State) (n : BayId) (b : Bay) : (s.setBay n b).lastCommand = s.lastCommand := rfl
@[simp] theorem setBay_lastResult (s : State) (n : BayId) (b : Bay) : (s.setBay n b).lastResult = s.lastResult := rfl
@[simp] theorem setBay_overwriteFlag (s : State) (n : BayId) (b : Bay) : (s.setBay n b).overwriteFlag = s.overwriteFlag := rfl
@[simp] theorem setBay_alertSeen (s : State) (n : BayId) (b : Bay) : (s.setBay n b).alertSeen = s.alertSeen := rfl
@[simp] theorem setBay_interruptEnable (s : State) (n : BayId) (b : Bay) : (s.setBay n b).interruptEnable = s.interruptEnable := rfl
@[simp] theorem setBay_busReadData (s : State) (n : BayId) (b : Bay) : (s.setBay n b).busReadData = s.busReadData := rfl
@[simp] theorem setBay_interruptPulses (s : State) (n : BayId) (b : Bay) : (s.setBay n b).interruptPulses = s.interruptPulses := rfl
@[simp] theorem setBay_mem (s : State) (n : BayId) (b : Bay) : (s.setBay n b).mem = s.mem := rfl
@[simp] theorem setBay_headerCount (s : State) (n : BayId) (b : Bay) : (s.setBay n b).headerCount = s.headerCount := rfl
@[simp] theorem setBay_slotCounts (s : State) (n : BayId) (b : Bay) : (s.setBay n b).slotCounts = s.slotCounts := rfl
@[simp] theorem setBay_notices (s : State) (n : BayId) (b : Bay) : (s.setBay n b).notices = s.notices := rfl
@[simp] theorem setBay_nmb (s : State) (n : BayId) (b : Bay) : (s.setBay n b).nmb = s.nmb := rfl
@[simp] theorem setBay_settings (s : State) (n : BayId) (b : Bay) : (s.setBay n b).settings = s.settings := rfl
@[simp] theorem setBay_types (s : State) (n : BayId) (b : Bay) : (s.setBay n b).types = s.types := rfl
@[simp] theorem setBay_typeMask (s : State) (n : BayId) (b : Bay) : (s.setBay n b).typeMask = s.typeMask := rfl
@[simp] theorem setBay_templates (s : State) (n : BayId) (b : Bay) : (s.setBay n b).templates = s.templates := rfl
@[simp] theorem setBay_templateMask (s : State) (n : BayId) (b : Bay) : (s.setBay n b).templateMask = s.templateMask := rfl
@[simp] theorem setBay_tablesHeld (s : State) (n : BayId) (b : Bay) : (s.setBay n b).tablesHeld = s.tablesHeld := rfl
@[simp] theorem setBay_firstBad (s : State) (n : BayId) (b : Bay) : (s.setBay n b).firstBad = s.firstBad := rfl
@[simp] theorem setBay_date (s : State) (n : BayId) (b : Bay) : (s.setBay n b).date = s.date := rfl
@[simp] theorem setBay_readerA (s : State) (n : BayId) (b : Bay) : (s.setBay n b).readerA = s.readerA := rfl
@[simp] theorem setBay_readerB (s : State) (n : BayId) (b : Bay) : (s.setBay n b).readerB = s.readerB := rfl
@[simp] theorem setBay_expect (s : State) (n : BayId) (b : Bay) : (s.setBay n b).expect = s.expect := rfl
@[simp] theorem setBay_roster (s : State) (n : BayId) (b : Bay) : (s.setBay n b).roster = s.roster := rfl
@[simp] theorem setBay_freeCount (s : State) (n : BayId) (b : Bay) : (s.setBay n b).freeCount = s.freeCount := rfl
@[simp] theorem setBay_laneA (s : State) (n : BayId) (b : Bay) : (s.setBay n b).laneA = s.laneA := rfl
@[simp] theorem setBay_laneB (s : State) (n : BayId) (b : Bay) : (s.setBay n b).laneB = s.laneB := rfl
@[simp] theorem setBay_outfeedState (s : State) (n : BayId) (b : Bay) : (s.setBay n b).outfeedState = s.outfeedState := rfl
@[simp] theorem setBay_outfeedQueue (s : State) (n : BayId) (b : Bay) : (s.setBay n b).outfeedQueue = s.outfeedQueue := rfl
@[simp] theorem setBay_outfeedHeadInFlight (s : State) (n : BayId) (b : Bay) : (s.setBay n b).outfeedHeadInFlight = s.outfeedHeadInFlight := rfl
@[simp] theorem setBay_exits (s : State) (n : BayId) (b : Bay) : (s.setBay n b).exits = s.exits := rfl
@[simp] theorem setBay_claims (s : State) (n : BayId) (b : Bay) : (s.setBay n b).claims = s.claims := rfl
@[simp] theorem setBay_requests (s : State) (n : BayId) (b : Bay) : (s.setBay n b).requests = s.requests := rfl
@[simp] theorem setBay_releases (s : State) (n : BayId) (b : Bay) : (s.setBay n b).releases = s.releases := rfl
@[simp] theorem setBay_intensifier1 (s : State) (n : BayId) (b : Bay) : (s.setBay n b).intensifier1 = s.intensifier1 := rfl
@[simp] theorem setBay_intensifier2 (s : State) (n : BayId) (b : Bay) : (s.setBay n b).intensifier2 = s.intensifier2 := rfl
@[simp] theorem setBay_stamper (s : State) (n : BayId) (b : Bay) : (s.setBay n b).stamper = s.stamper := rfl
@[simp] theorem setBay_defacer (s : State) (n : BayId) (b : Bay) : (s.setBay n b).defacer = s.defacer := rfl
@[simp] theorem setBay_guardClosed (s : State) (n : BayId) (b : Bay) : (s.setBay n b).guardClosed = s.guardClosed := rfl
@[simp] theorem setBay_choices (s : State) (n : BayId) (b : Bay) : (s.setBay n b).choices = s.choices := rfl

/-! ## setEntry -/

@[simp] theorem setEntry_pending (s : State) (i : RosterIndex) (e : Entry) : (s.setEntry i e).pending = s.pending := rfl
@[simp] theorem setEntry_runState (s : State) (i : RosterIndex) (e : Entry) : (s.setEntry i e).runState = s.runState := rfl
@[simp] theorem setEntry_eStopInput (s : State) (i : RosterIndex) (e : Entry) : (s.setEntry i e).eStopInput = s.eStopInput := rfl
@[simp] theorem setEntry_lineSeconds (s : State) (i : RosterIndex) (e : Entry) : (s.setEntry i e).lineSeconds = s.lineSeconds := rfl
@[simp] theorem setEntry_cmbWord (s : State) (i : RosterIndex) (e : Entry) : (s.setEntry i e).cmbWord = s.cmbWord := rfl
@[simp] theorem setEntry_cmbFull (s : State) (i : RosterIndex) (e : Entry) : (s.setEntry i e).cmbFull = s.cmbFull := rfl
@[simp] theorem setEntry_justEmptied (s : State) (i : RosterIndex) (e : Entry) : (s.setEntry i e).justEmptied = s.justEmptied := rfl
@[simp] theorem setEntry_lastCommand (s : State) (i : RosterIndex) (e : Entry) : (s.setEntry i e).lastCommand = s.lastCommand := rfl
@[simp] theorem setEntry_lastResult (s : State) (i : RosterIndex) (e : Entry) : (s.setEntry i e).lastResult = s.lastResult := rfl
@[simp] theorem setEntry_overwriteFlag (s : State) (i : RosterIndex) (e : Entry) : (s.setEntry i e).overwriteFlag = s.overwriteFlag := rfl
@[simp] theorem setEntry_alertSeen (s : State) (i : RosterIndex) (e : Entry) : (s.setEntry i e).alertSeen = s.alertSeen := rfl
@[simp] theorem setEntry_interruptEnable (s : State) (i : RosterIndex) (e : Entry) : (s.setEntry i e).interruptEnable = s.interruptEnable := rfl
@[simp] theorem setEntry_busReadData (s : State) (i : RosterIndex) (e : Entry) : (s.setEntry i e).busReadData = s.busReadData := rfl
@[simp] theorem setEntry_interruptPulses (s : State) (i : RosterIndex) (e : Entry) : (s.setEntry i e).interruptPulses = s.interruptPulses := rfl
@[simp] theorem setEntry_mem (s : State) (i : RosterIndex) (e : Entry) : (s.setEntry i e).mem = s.mem := rfl
@[simp] theorem setEntry_headerCount (s : State) (i : RosterIndex) (e : Entry) : (s.setEntry i e).headerCount = s.headerCount := rfl
@[simp] theorem setEntry_slotCounts (s : State) (i : RosterIndex) (e : Entry) : (s.setEntry i e).slotCounts = s.slotCounts := rfl
@[simp] theorem setEntry_notices (s : State) (i : RosterIndex) (e : Entry) : (s.setEntry i e).notices = s.notices := rfl
@[simp] theorem setEntry_nmb (s : State) (i : RosterIndex) (e : Entry) : (s.setEntry i e).nmb = s.nmb := rfl
@[simp] theorem setEntry_settings (s : State) (i : RosterIndex) (e : Entry) : (s.setEntry i e).settings = s.settings := rfl
@[simp] theorem setEntry_types (s : State) (i : RosterIndex) (e : Entry) : (s.setEntry i e).types = s.types := rfl
@[simp] theorem setEntry_typeMask (s : State) (i : RosterIndex) (e : Entry) : (s.setEntry i e).typeMask = s.typeMask := rfl
@[simp] theorem setEntry_templates (s : State) (i : RosterIndex) (e : Entry) : (s.setEntry i e).templates = s.templates := rfl
@[simp] theorem setEntry_templateMask (s : State) (i : RosterIndex) (e : Entry) : (s.setEntry i e).templateMask = s.templateMask := rfl
@[simp] theorem setEntry_tablesHeld (s : State) (i : RosterIndex) (e : Entry) : (s.setEntry i e).tablesHeld = s.tablesHeld := rfl
@[simp] theorem setEntry_firstBad (s : State) (i : RosterIndex) (e : Entry) : (s.setEntry i e).firstBad = s.firstBad := rfl
@[simp] theorem setEntry_date (s : State) (i : RosterIndex) (e : Entry) : (s.setEntry i e).date = s.date := rfl
@[simp] theorem setEntry_readerA (s : State) (i : RosterIndex) (e : Entry) : (s.setEntry i e).readerA = s.readerA := rfl
@[simp] theorem setEntry_readerB (s : State) (i : RosterIndex) (e : Entry) : (s.setEntry i e).readerB = s.readerB := rfl
@[simp] theorem setEntry_expect (s : State) (i : RosterIndex) (e : Entry) : (s.setEntry i e).expect = s.expect := rfl
@[simp] theorem setEntry_freeCount (s : State) (i : RosterIndex) (e : Entry) : (s.setEntry i e).freeCount = s.freeCount := rfl
@[simp] theorem setEntry_laneA (s : State) (i : RosterIndex) (e : Entry) : (s.setEntry i e).laneA = s.laneA := rfl
@[simp] theorem setEntry_laneB (s : State) (i : RosterIndex) (e : Entry) : (s.setEntry i e).laneB = s.laneB := rfl
@[simp] theorem setEntry_outfeedState (s : State) (i : RosterIndex) (e : Entry) : (s.setEntry i e).outfeedState = s.outfeedState := rfl
@[simp] theorem setEntry_outfeedQueue (s : State) (i : RosterIndex) (e : Entry) : (s.setEntry i e).outfeedQueue = s.outfeedQueue := rfl
@[simp] theorem setEntry_outfeedHeadInFlight (s : State) (i : RosterIndex) (e : Entry) : (s.setEntry i e).outfeedHeadInFlight = s.outfeedHeadInFlight := rfl
@[simp] theorem setEntry_exits (s : State) (i : RosterIndex) (e : Entry) : (s.setEntry i e).exits = s.exits := rfl
@[simp] theorem setEntry_claims (s : State) (i : RosterIndex) (e : Entry) : (s.setEntry i e).claims = s.claims := rfl
@[simp] theorem setEntry_bays (s : State) (i : RosterIndex) (e : Entry) : (s.setEntry i e).bays = s.bays := rfl
@[simp] theorem setEntry_requests (s : State) (i : RosterIndex) (e : Entry) : (s.setEntry i e).requests = s.requests := rfl
@[simp] theorem setEntry_releases (s : State) (i : RosterIndex) (e : Entry) : (s.setEntry i e).releases = s.releases := rfl
@[simp] theorem setEntry_intensifier1 (s : State) (i : RosterIndex) (e : Entry) : (s.setEntry i e).intensifier1 = s.intensifier1 := rfl
@[simp] theorem setEntry_intensifier2 (s : State) (i : RosterIndex) (e : Entry) : (s.setEntry i e).intensifier2 = s.intensifier2 := rfl
@[simp] theorem setEntry_stamper (s : State) (i : RosterIndex) (e : Entry) : (s.setEntry i e).stamper = s.stamper := rfl
@[simp] theorem setEntry_defacer (s : State) (i : RosterIndex) (e : Entry) : (s.setEntry i e).defacer = s.defacer := rfl
@[simp] theorem setEntry_guardClosed (s : State) (i : RosterIndex) (e : Entry) : (s.setEntry i e).guardClosed = s.guardClosed := rfl
@[simp] theorem setEntry_choices (s : State) (i : RosterIndex) (e : Entry) : (s.setEntry i e).choices = s.choices := rfl

/-! ## headerEdit -/

@[simp] theorem headerEdit_pending (s : State) : (s.headerEdit).pending = s.pending := rfl
@[simp] theorem headerEdit_runState (s : State) : (s.headerEdit).runState = s.runState := rfl
@[simp] theorem headerEdit_eStopInput (s : State) : (s.headerEdit).eStopInput = s.eStopInput := rfl
@[simp] theorem headerEdit_lineSeconds (s : State) : (s.headerEdit).lineSeconds = s.lineSeconds := rfl
@[simp] theorem headerEdit_cmbWord (s : State) : (s.headerEdit).cmbWord = s.cmbWord := rfl
@[simp] theorem headerEdit_cmbFull (s : State) : (s.headerEdit).cmbFull = s.cmbFull := rfl
@[simp] theorem headerEdit_justEmptied (s : State) : (s.headerEdit).justEmptied = s.justEmptied := rfl
@[simp] theorem headerEdit_lastCommand (s : State) : (s.headerEdit).lastCommand = s.lastCommand := rfl
@[simp] theorem headerEdit_lastResult (s : State) : (s.headerEdit).lastResult = s.lastResult := rfl
@[simp] theorem headerEdit_overwriteFlag (s : State) : (s.headerEdit).overwriteFlag = s.overwriteFlag := rfl
@[simp] theorem headerEdit_alertSeen (s : State) : (s.headerEdit).alertSeen = s.alertSeen := rfl
@[simp] theorem headerEdit_interruptEnable (s : State) : (s.headerEdit).interruptEnable = s.interruptEnable := rfl
@[simp] theorem headerEdit_busReadData (s : State) : (s.headerEdit).busReadData = s.busReadData := rfl
@[simp] theorem headerEdit_interruptPulses (s : State) : (s.headerEdit).interruptPulses = s.interruptPulses := rfl
@[simp] theorem headerEdit_mem (s : State) : (s.headerEdit).mem = s.mem := rfl
@[simp] theorem headerEdit_slotCounts (s : State) : (s.headerEdit).slotCounts = s.slotCounts := rfl
@[simp] theorem headerEdit_notices (s : State) : (s.headerEdit).notices = s.notices := rfl
@[simp] theorem headerEdit_nmb (s : State) : (s.headerEdit).nmb = s.nmb := rfl
@[simp] theorem headerEdit_settings (s : State) : (s.headerEdit).settings = s.settings := rfl
@[simp] theorem headerEdit_types (s : State) : (s.headerEdit).types = s.types := rfl
@[simp] theorem headerEdit_typeMask (s : State) : (s.headerEdit).typeMask = s.typeMask := rfl
@[simp] theorem headerEdit_templates (s : State) : (s.headerEdit).templates = s.templates := rfl
@[simp] theorem headerEdit_templateMask (s : State) : (s.headerEdit).templateMask = s.templateMask := rfl
@[simp] theorem headerEdit_tablesHeld (s : State) : (s.headerEdit).tablesHeld = s.tablesHeld := rfl
@[simp] theorem headerEdit_firstBad (s : State) : (s.headerEdit).firstBad = s.firstBad := rfl
@[simp] theorem headerEdit_date (s : State) : (s.headerEdit).date = s.date := rfl
@[simp] theorem headerEdit_readerA (s : State) : (s.headerEdit).readerA = s.readerA := rfl
@[simp] theorem headerEdit_readerB (s : State) : (s.headerEdit).readerB = s.readerB := rfl
@[simp] theorem headerEdit_expect (s : State) : (s.headerEdit).expect = s.expect := rfl
@[simp] theorem headerEdit_roster (s : State) : (s.headerEdit).roster = s.roster := rfl
@[simp] theorem headerEdit_freeCount (s : State) : (s.headerEdit).freeCount = s.freeCount := rfl
@[simp] theorem headerEdit_laneA (s : State) : (s.headerEdit).laneA = s.laneA := rfl
@[simp] theorem headerEdit_laneB (s : State) : (s.headerEdit).laneB = s.laneB := rfl
@[simp] theorem headerEdit_outfeedState (s : State) : (s.headerEdit).outfeedState = s.outfeedState := rfl
@[simp] theorem headerEdit_outfeedQueue (s : State) : (s.headerEdit).outfeedQueue = s.outfeedQueue := rfl
@[simp] theorem headerEdit_outfeedHeadInFlight (s : State) : (s.headerEdit).outfeedHeadInFlight = s.outfeedHeadInFlight := rfl
@[simp] theorem headerEdit_exits (s : State) : (s.headerEdit).exits = s.exits := rfl
@[simp] theorem headerEdit_claims (s : State) : (s.headerEdit).claims = s.claims := rfl
@[simp] theorem headerEdit_bays (s : State) : (s.headerEdit).bays = s.bays := rfl
@[simp] theorem headerEdit_requests (s : State) : (s.headerEdit).requests = s.requests := rfl
@[simp] theorem headerEdit_releases (s : State) : (s.headerEdit).releases = s.releases := rfl
@[simp] theorem headerEdit_intensifier1 (s : State) : (s.headerEdit).intensifier1 = s.intensifier1 := rfl
@[simp] theorem headerEdit_intensifier2 (s : State) : (s.headerEdit).intensifier2 = s.intensifier2 := rfl
@[simp] theorem headerEdit_stamper (s : State) : (s.headerEdit).stamper = s.stamper := rfl
@[simp] theorem headerEdit_defacer (s : State) : (s.headerEdit).defacer = s.defacer := rfl
@[simp] theorem headerEdit_guardClosed (s : State) : (s.headerEdit).guardClosed = s.guardClosed := rfl
@[simp] theorem headerEdit_choices (s : State) : (s.headerEdit).choices = s.choices := rfl

/-! ## setRunState -/

@[simp] theorem setRunState_pending (s : State) (r : RunState) : (s.setRunState r).pending = s.pending := rfl
@[simp] theorem setRunState_eStopInput (s : State) (r : RunState) : (s.setRunState r).eStopInput = s.eStopInput := rfl
@[simp] theorem setRunState_lineSeconds (s : State) (r : RunState) : (s.setRunState r).lineSeconds = s.lineSeconds := rfl
@[simp] theorem setRunState_cmbWord (s : State) (r : RunState) : (s.setRunState r).cmbWord = s.cmbWord := rfl
@[simp] theorem setRunState_cmbFull (s : State) (r : RunState) : (s.setRunState r).cmbFull = s.cmbFull := rfl
@[simp] theorem setRunState_justEmptied (s : State) (r : RunState) : (s.setRunState r).justEmptied = s.justEmptied := rfl
@[simp] theorem setRunState_lastCommand (s : State) (r : RunState) : (s.setRunState r).lastCommand = s.lastCommand := rfl
@[simp] theorem setRunState_lastResult (s : State) (r : RunState) : (s.setRunState r).lastResult = s.lastResult := rfl
@[simp] theorem setRunState_overwriteFlag (s : State) (r : RunState) : (s.setRunState r).overwriteFlag = s.overwriteFlag := rfl
@[simp] theorem setRunState_alertSeen (s : State) (r : RunState) : (s.setRunState r).alertSeen = s.alertSeen := rfl
@[simp] theorem setRunState_interruptEnable (s : State) (r : RunState) : (s.setRunState r).interruptEnable = s.interruptEnable := rfl
@[simp] theorem setRunState_busReadData (s : State) (r : RunState) : (s.setRunState r).busReadData = s.busReadData := rfl
@[simp] theorem setRunState_interruptPulses (s : State) (r : RunState) : (s.setRunState r).interruptPulses = s.interruptPulses := rfl
@[simp] theorem setRunState_mem (s : State) (r : RunState) : (s.setRunState r).mem = s.mem := rfl
@[simp] theorem setRunState_slotCounts (s : State) (r : RunState) : (s.setRunState r).slotCounts = s.slotCounts := rfl
@[simp] theorem setRunState_notices (s : State) (r : RunState) : (s.setRunState r).notices = s.notices := rfl
@[simp] theorem setRunState_nmb (s : State) (r : RunState) : (s.setRunState r).nmb = s.nmb := rfl
@[simp] theorem setRunState_settings (s : State) (r : RunState) : (s.setRunState r).settings = s.settings := rfl
@[simp] theorem setRunState_types (s : State) (r : RunState) : (s.setRunState r).types = s.types := rfl
@[simp] theorem setRunState_typeMask (s : State) (r : RunState) : (s.setRunState r).typeMask = s.typeMask := rfl
@[simp] theorem setRunState_templates (s : State) (r : RunState) : (s.setRunState r).templates = s.templates := rfl
@[simp] theorem setRunState_templateMask (s : State) (r : RunState) : (s.setRunState r).templateMask = s.templateMask := rfl
@[simp] theorem setRunState_tablesHeld (s : State) (r : RunState) : (s.setRunState r).tablesHeld = s.tablesHeld := rfl
@[simp] theorem setRunState_firstBad (s : State) (r : RunState) : (s.setRunState r).firstBad = s.firstBad := rfl
@[simp] theorem setRunState_date (s : State) (r : RunState) : (s.setRunState r).date = s.date := rfl
@[simp] theorem setRunState_readerA (s : State) (r : RunState) : (s.setRunState r).readerA = s.readerA := rfl
@[simp] theorem setRunState_readerB (s : State) (r : RunState) : (s.setRunState r).readerB = s.readerB := rfl
@[simp] theorem setRunState_expect (s : State) (r : RunState) : (s.setRunState r).expect = s.expect := rfl
@[simp] theorem setRunState_roster (s : State) (r : RunState) : (s.setRunState r).roster = s.roster := rfl
@[simp] theorem setRunState_freeCount (s : State) (r : RunState) : (s.setRunState r).freeCount = s.freeCount := rfl
@[simp] theorem setRunState_laneA (s : State) (r : RunState) : (s.setRunState r).laneA = s.laneA := rfl
@[simp] theorem setRunState_laneB (s : State) (r : RunState) : (s.setRunState r).laneB = s.laneB := rfl
@[simp] theorem setRunState_outfeedState (s : State) (r : RunState) : (s.setRunState r).outfeedState = s.outfeedState := rfl
@[simp] theorem setRunState_outfeedQueue (s : State) (r : RunState) : (s.setRunState r).outfeedQueue = s.outfeedQueue := rfl
@[simp] theorem setRunState_outfeedHeadInFlight (s : State) (r : RunState) : (s.setRunState r).outfeedHeadInFlight = s.outfeedHeadInFlight := rfl
@[simp] theorem setRunState_exits (s : State) (r : RunState) : (s.setRunState r).exits = s.exits := rfl
@[simp] theorem setRunState_claims (s : State) (r : RunState) : (s.setRunState r).claims = s.claims := rfl
@[simp] theorem setRunState_bays (s : State) (r : RunState) : (s.setRunState r).bays = s.bays := rfl
@[simp] theorem setRunState_requests (s : State) (r : RunState) : (s.setRunState r).requests = s.requests := rfl
@[simp] theorem setRunState_releases (s : State) (r : RunState) : (s.setRunState r).releases = s.releases := rfl
@[simp] theorem setRunState_intensifier1 (s : State) (r : RunState) : (s.setRunState r).intensifier1 = s.intensifier1 := rfl
@[simp] theorem setRunState_intensifier2 (s : State) (r : RunState) : (s.setRunState r).intensifier2 = s.intensifier2 := rfl
@[simp] theorem setRunState_stamper (s : State) (r : RunState) : (s.setRunState r).stamper = s.stamper := rfl
@[simp] theorem setRunState_defacer (s : State) (r : RunState) : (s.setRunState r).defacer = s.defacer := rfl
@[simp] theorem setRunState_guardClosed (s : State) (r : RunState) : (s.setRunState r).guardClosed = s.guardClosed := rfl
@[simp] theorem setRunState_choices (s : State) (r : RunState) : (s.setRunState r).choices = s.choices := rfl

/-! ## withNotices -/

@[simp] theorem withNotices_pending (s : State) (l : List Notice) : (s.withNotices l).pending = s.pending := rfl
@[simp] theorem withNotices_runState (s : State) (l : List Notice) : (s.withNotices l).runState = s.runState := rfl
@[simp] theorem withNotices_eStopInput (s : State) (l : List Notice) : (s.withNotices l).eStopInput = s.eStopInput := rfl
@[simp] theorem withNotices_lineSeconds (s : State) (l : List Notice) : (s.withNotices l).lineSeconds = s.lineSeconds := rfl
@[simp] theorem withNotices_cmbWord (s : State) (l : List Notice) : (s.withNotices l).cmbWord = s.cmbWord := rfl
@[simp] theorem withNotices_cmbFull (s : State) (l : List Notice) : (s.withNotices l).cmbFull = s.cmbFull := rfl
@[simp] theorem withNotices_justEmptied (s : State) (l : List Notice) : (s.withNotices l).justEmptied = s.justEmptied := rfl
@[simp] theorem withNotices_lastCommand (s : State) (l : List Notice) : (s.withNotices l).lastCommand = s.lastCommand := rfl
@[simp] theorem withNotices_lastResult (s : State) (l : List Notice) : (s.withNotices l).lastResult = s.lastResult := rfl
@[simp] theorem withNotices_overwriteFlag (s : State) (l : List Notice) : (s.withNotices l).overwriteFlag = s.overwriteFlag := rfl
@[simp] theorem withNotices_alertSeen (s : State) (l : List Notice) : (s.withNotices l).alertSeen = s.alertSeen := rfl
@[simp] theorem withNotices_interruptEnable (s : State) (l : List Notice) : (s.withNotices l).interruptEnable = s.interruptEnable := rfl
@[simp] theorem withNotices_busReadData (s : State) (l : List Notice) : (s.withNotices l).busReadData = s.busReadData := rfl
@[simp] theorem withNotices_interruptPulses (s : State) (l : List Notice) : (s.withNotices l).interruptPulses = s.interruptPulses := rfl
@[simp] theorem withNotices_mem (s : State) (l : List Notice) : (s.withNotices l).mem = s.mem := rfl
@[simp] theorem withNotices_slotCounts (s : State) (l : List Notice) : (s.withNotices l).slotCounts = s.slotCounts := rfl
@[simp] theorem withNotices_settings (s : State) (l : List Notice) : (s.withNotices l).settings = s.settings := rfl
@[simp] theorem withNotices_types (s : State) (l : List Notice) : (s.withNotices l).types = s.types := rfl
@[simp] theorem withNotices_typeMask (s : State) (l : List Notice) : (s.withNotices l).typeMask = s.typeMask := rfl
@[simp] theorem withNotices_templates (s : State) (l : List Notice) : (s.withNotices l).templates = s.templates := rfl
@[simp] theorem withNotices_templateMask (s : State) (l : List Notice) : (s.withNotices l).templateMask = s.templateMask := rfl
@[simp] theorem withNotices_tablesHeld (s : State) (l : List Notice) : (s.withNotices l).tablesHeld = s.tablesHeld := rfl
@[simp] theorem withNotices_firstBad (s : State) (l : List Notice) : (s.withNotices l).firstBad = s.firstBad := rfl
@[simp] theorem withNotices_date (s : State) (l : List Notice) : (s.withNotices l).date = s.date := rfl
@[simp] theorem withNotices_readerA (s : State) (l : List Notice) : (s.withNotices l).readerA = s.readerA := rfl
@[simp] theorem withNotices_readerB (s : State) (l : List Notice) : (s.withNotices l).readerB = s.readerB := rfl
@[simp] theorem withNotices_expect (s : State) (l : List Notice) : (s.withNotices l).expect = s.expect := rfl
@[simp] theorem withNotices_roster (s : State) (l : List Notice) : (s.withNotices l).roster = s.roster := rfl
@[simp] theorem withNotices_freeCount (s : State) (l : List Notice) : (s.withNotices l).freeCount = s.freeCount := rfl
@[simp] theorem withNotices_laneA (s : State) (l : List Notice) : (s.withNotices l).laneA = s.laneA := rfl
@[simp] theorem withNotices_laneB (s : State) (l : List Notice) : (s.withNotices l).laneB = s.laneB := rfl
@[simp] theorem withNotices_outfeedState (s : State) (l : List Notice) : (s.withNotices l).outfeedState = s.outfeedState := rfl
@[simp] theorem withNotices_outfeedQueue (s : State) (l : List Notice) : (s.withNotices l).outfeedQueue = s.outfeedQueue := rfl
@[simp] theorem withNotices_outfeedHeadInFlight (s : State) (l : List Notice) : (s.withNotices l).outfeedHeadInFlight = s.outfeedHeadInFlight := rfl
@[simp] theorem withNotices_exits (s : State) (l : List Notice) : (s.withNotices l).exits = s.exits := rfl
@[simp] theorem withNotices_claims (s : State) (l : List Notice) : (s.withNotices l).claims = s.claims := rfl
@[simp] theorem withNotices_bays (s : State) (l : List Notice) : (s.withNotices l).bays = s.bays := rfl
@[simp] theorem withNotices_requests (s : State) (l : List Notice) : (s.withNotices l).requests = s.requests := rfl
@[simp] theorem withNotices_releases (s : State) (l : List Notice) : (s.withNotices l).releases = s.releases := rfl
@[simp] theorem withNotices_intensifier1 (s : State) (l : List Notice) : (s.withNotices l).intensifier1 = s.intensifier1 := rfl
@[simp] theorem withNotices_intensifier2 (s : State) (l : List Notice) : (s.withNotices l).intensifier2 = s.intensifier2 := rfl
@[simp] theorem withNotices_stamper (s : State) (l : List Notice) : (s.withNotices l).stamper = s.stamper := rfl
@[simp] theorem withNotices_defacer (s : State) (l : List Notice) : (s.withNotices l).defacer = s.defacer := rfl
@[simp] theorem withNotices_guardClosed (s : State) (l : List Notice) : (s.withNotices l).guardClosed = s.guardClosed := rfl
@[simp] theorem withNotices_choices (s : State) (l : List Notice) : (s.withNotices l).choices = s.choices := rfl

/-! ## writePlain -/

@[simp] theorem writePlain_pending (s : State) (a : Nat) (b : Byte) : (s.writePlain a b).pending = s.pending := rfl
@[simp] theorem writePlain_runState (s : State) (a : Nat) (b : Byte) : (s.writePlain a b).runState = s.runState := rfl
@[simp] theorem writePlain_eStopInput (s : State) (a : Nat) (b : Byte) : (s.writePlain a b).eStopInput = s.eStopInput := rfl
@[simp] theorem writePlain_lineSeconds (s : State) (a : Nat) (b : Byte) : (s.writePlain a b).lineSeconds = s.lineSeconds := rfl
@[simp] theorem writePlain_cmbWord (s : State) (a : Nat) (b : Byte) : (s.writePlain a b).cmbWord = s.cmbWord := rfl
@[simp] theorem writePlain_cmbFull (s : State) (a : Nat) (b : Byte) : (s.writePlain a b).cmbFull = s.cmbFull := rfl
@[simp] theorem writePlain_justEmptied (s : State) (a : Nat) (b : Byte) : (s.writePlain a b).justEmptied = s.justEmptied := rfl
@[simp] theorem writePlain_lastCommand (s : State) (a : Nat) (b : Byte) : (s.writePlain a b).lastCommand = s.lastCommand := rfl
@[simp] theorem writePlain_lastResult (s : State) (a : Nat) (b : Byte) : (s.writePlain a b).lastResult = s.lastResult := rfl
@[simp] theorem writePlain_overwriteFlag (s : State) (a : Nat) (b : Byte) : (s.writePlain a b).overwriteFlag = s.overwriteFlag := rfl
@[simp] theorem writePlain_alertSeen (s : State) (a : Nat) (b : Byte) : (s.writePlain a b).alertSeen = s.alertSeen := rfl
@[simp] theorem writePlain_interruptEnable (s : State) (a : Nat) (b : Byte) : (s.writePlain a b).interruptEnable = s.interruptEnable := rfl
@[simp] theorem writePlain_busReadData (s : State) (a : Nat) (b : Byte) : (s.writePlain a b).busReadData = s.busReadData := rfl
@[simp] theorem writePlain_interruptPulses (s : State) (a : Nat) (b : Byte) : (s.writePlain a b).interruptPulses = s.interruptPulses := rfl
@[simp] theorem writePlain_headerCount (s : State) (a : Nat) (b : Byte) : (s.writePlain a b).headerCount = s.headerCount := rfl
@[simp] theorem writePlain_slotCounts (s : State) (a : Nat) (b : Byte) : (s.writePlain a b).slotCounts = s.slotCounts := rfl
@[simp] theorem writePlain_notices (s : State) (a : Nat) (b : Byte) : (s.writePlain a b).notices = s.notices := rfl
@[simp] theorem writePlain_nmb (s : State) (a : Nat) (b : Byte) : (s.writePlain a b).nmb = s.nmb := rfl
@[simp] theorem writePlain_settings (s : State) (a : Nat) (b : Byte) : (s.writePlain a b).settings = s.settings := rfl
@[simp] theorem writePlain_types (s : State) (a : Nat) (b : Byte) : (s.writePlain a b).types = s.types := rfl
@[simp] theorem writePlain_typeMask (s : State) (a : Nat) (b : Byte) : (s.writePlain a b).typeMask = s.typeMask := rfl
@[simp] theorem writePlain_templates (s : State) (a : Nat) (b : Byte) : (s.writePlain a b).templates = s.templates := rfl
@[simp] theorem writePlain_templateMask (s : State) (a : Nat) (b : Byte) : (s.writePlain a b).templateMask = s.templateMask := rfl
@[simp] theorem writePlain_tablesHeld (s : State) (a : Nat) (b : Byte) : (s.writePlain a b).tablesHeld = s.tablesHeld := rfl
@[simp] theorem writePlain_firstBad (s : State) (a : Nat) (b : Byte) : (s.writePlain a b).firstBad = s.firstBad := rfl
@[simp] theorem writePlain_date (s : State) (a : Nat) (b : Byte) : (s.writePlain a b).date = s.date := rfl
@[simp] theorem writePlain_readerA (s : State) (a : Nat) (b : Byte) : (s.writePlain a b).readerA = s.readerA := rfl
@[simp] theorem writePlain_readerB (s : State) (a : Nat) (b : Byte) : (s.writePlain a b).readerB = s.readerB := rfl
@[simp] theorem writePlain_expect (s : State) (a : Nat) (b : Byte) : (s.writePlain a b).expect = s.expect := rfl
@[simp] theorem writePlain_roster (s : State) (a : Nat) (b : Byte) : (s.writePlain a b).roster = s.roster := rfl
@[simp] theorem writePlain_freeCount (s : State) (a : Nat) (b : Byte) : (s.writePlain a b).freeCount = s.freeCount := rfl
@[simp] theorem writePlain_laneA (s : State) (a : Nat) (b : Byte) : (s.writePlain a b).laneA = s.laneA := rfl
@[simp] theorem writePlain_laneB (s : State) (a : Nat) (b : Byte) : (s.writePlain a b).laneB = s.laneB := rfl
@[simp] theorem writePlain_outfeedState (s : State) (a : Nat) (b : Byte) : (s.writePlain a b).outfeedState = s.outfeedState := rfl
@[simp] theorem writePlain_outfeedQueue (s : State) (a : Nat) (b : Byte) : (s.writePlain a b).outfeedQueue = s.outfeedQueue := rfl
@[simp] theorem writePlain_outfeedHeadInFlight (s : State) (a : Nat) (b : Byte) : (s.writePlain a b).outfeedHeadInFlight = s.outfeedHeadInFlight := rfl
@[simp] theorem writePlain_exits (s : State) (a : Nat) (b : Byte) : (s.writePlain a b).exits = s.exits := rfl
@[simp] theorem writePlain_claims (s : State) (a : Nat) (b : Byte) : (s.writePlain a b).claims = s.claims := rfl
@[simp] theorem writePlain_bays (s : State) (a : Nat) (b : Byte) : (s.writePlain a b).bays = s.bays := rfl
@[simp] theorem writePlain_requests (s : State) (a : Nat) (b : Byte) : (s.writePlain a b).requests = s.requests := rfl
@[simp] theorem writePlain_releases (s : State) (a : Nat) (b : Byte) : (s.writePlain a b).releases = s.releases := rfl
@[simp] theorem writePlain_intensifier1 (s : State) (a : Nat) (b : Byte) : (s.writePlain a b).intensifier1 = s.intensifier1 := rfl
@[simp] theorem writePlain_intensifier2 (s : State) (a : Nat) (b : Byte) : (s.writePlain a b).intensifier2 = s.intensifier2 := rfl
@[simp] theorem writePlain_stamper (s : State) (a : Nat) (b : Byte) : (s.writePlain a b).stamper = s.stamper := rfl
@[simp] theorem writePlain_defacer (s : State) (a : Nat) (b : Byte) : (s.writePlain a b).defacer = s.defacer := rfl
@[simp] theorem writePlain_guardClosed (s : State) (a : Nat) (b : Byte) : (s.writePlain a b).guardClosed = s.guardClosed := rfl
@[simp] theorem writePlain_choices (s : State) (a : Nat) (b : Byte) : (s.writePlain a b).choices = s.choices := rfl

/-! ## markEmptied -/

@[simp] theorem markEmptied_pending (s : State) (b : Bool) : (s.markEmptied b).pending = s.pending := rfl
@[simp] theorem markEmptied_runState (s : State) (b : Bool) : (s.markEmptied b).runState = s.runState := rfl
@[simp] theorem markEmptied_eStopInput (s : State) (b : Bool) : (s.markEmptied b).eStopInput = s.eStopInput := rfl
@[simp] theorem markEmptied_lineSeconds (s : State) (b : Bool) : (s.markEmptied b).lineSeconds = s.lineSeconds := rfl
@[simp] theorem markEmptied_cmbWord (s : State) (b : Bool) : (s.markEmptied b).cmbWord = s.cmbWord := rfl
@[simp] theorem markEmptied_cmbFull (s : State) (b : Bool) : (s.markEmptied b).cmbFull = s.cmbFull := rfl
@[simp] theorem markEmptied_lastCommand (s : State) (b : Bool) : (s.markEmptied b).lastCommand = s.lastCommand := rfl
@[simp] theorem markEmptied_lastResult (s : State) (b : Bool) : (s.markEmptied b).lastResult = s.lastResult := rfl
@[simp] theorem markEmptied_overwriteFlag (s : State) (b : Bool) : (s.markEmptied b).overwriteFlag = s.overwriteFlag := rfl
@[simp] theorem markEmptied_alertSeen (s : State) (b : Bool) : (s.markEmptied b).alertSeen = s.alertSeen := rfl
@[simp] theorem markEmptied_interruptEnable (s : State) (b : Bool) : (s.markEmptied b).interruptEnable = s.interruptEnable := rfl
@[simp] theorem markEmptied_busReadData (s : State) (b : Bool) : (s.markEmptied b).busReadData = s.busReadData := rfl
@[simp] theorem markEmptied_interruptPulses (s : State) (b : Bool) : (s.markEmptied b).interruptPulses = s.interruptPulses := rfl
@[simp] theorem markEmptied_mem (s : State) (b : Bool) : (s.markEmptied b).mem = s.mem := rfl
@[simp] theorem markEmptied_headerCount (s : State) (b : Bool) : (s.markEmptied b).headerCount = s.headerCount := rfl
@[simp] theorem markEmptied_slotCounts (s : State) (b : Bool) : (s.markEmptied b).slotCounts = s.slotCounts := rfl
@[simp] theorem markEmptied_notices (s : State) (b : Bool) : (s.markEmptied b).notices = s.notices := rfl
@[simp] theorem markEmptied_nmb (s : State) (b : Bool) : (s.markEmptied b).nmb = s.nmb := rfl
@[simp] theorem markEmptied_settings (s : State) (b : Bool) : (s.markEmptied b).settings = s.settings := rfl
@[simp] theorem markEmptied_types (s : State) (b : Bool) : (s.markEmptied b).types = s.types := rfl
@[simp] theorem markEmptied_typeMask (s : State) (b : Bool) : (s.markEmptied b).typeMask = s.typeMask := rfl
@[simp] theorem markEmptied_templates (s : State) (b : Bool) : (s.markEmptied b).templates = s.templates := rfl
@[simp] theorem markEmptied_templateMask (s : State) (b : Bool) : (s.markEmptied b).templateMask = s.templateMask := rfl
@[simp] theorem markEmptied_tablesHeld (s : State) (b : Bool) : (s.markEmptied b).tablesHeld = s.tablesHeld := rfl
@[simp] theorem markEmptied_firstBad (s : State) (b : Bool) : (s.markEmptied b).firstBad = s.firstBad := rfl
@[simp] theorem markEmptied_date (s : State) (b : Bool) : (s.markEmptied b).date = s.date := rfl
@[simp] theorem markEmptied_readerA (s : State) (b : Bool) : (s.markEmptied b).readerA = s.readerA := rfl
@[simp] theorem markEmptied_readerB (s : State) (b : Bool) : (s.markEmptied b).readerB = s.readerB := rfl
@[simp] theorem markEmptied_expect (s : State) (b : Bool) : (s.markEmptied b).expect = s.expect := rfl
@[simp] theorem markEmptied_roster (s : State) (b : Bool) : (s.markEmptied b).roster = s.roster := rfl
@[simp] theorem markEmptied_freeCount (s : State) (b : Bool) : (s.markEmptied b).freeCount = s.freeCount := rfl
@[simp] theorem markEmptied_laneA (s : State) (b : Bool) : (s.markEmptied b).laneA = s.laneA := rfl
@[simp] theorem markEmptied_laneB (s : State) (b : Bool) : (s.markEmptied b).laneB = s.laneB := rfl
@[simp] theorem markEmptied_outfeedState (s : State) (b : Bool) : (s.markEmptied b).outfeedState = s.outfeedState := rfl
@[simp] theorem markEmptied_outfeedQueue (s : State) (b : Bool) : (s.markEmptied b).outfeedQueue = s.outfeedQueue := rfl
@[simp] theorem markEmptied_outfeedHeadInFlight (s : State) (b : Bool) : (s.markEmptied b).outfeedHeadInFlight = s.outfeedHeadInFlight := rfl
@[simp] theorem markEmptied_exits (s : State) (b : Bool) : (s.markEmptied b).exits = s.exits := rfl
@[simp] theorem markEmptied_claims (s : State) (b : Bool) : (s.markEmptied b).claims = s.claims := rfl
@[simp] theorem markEmptied_bays (s : State) (b : Bool) : (s.markEmptied b).bays = s.bays := rfl
@[simp] theorem markEmptied_requests (s : State) (b : Bool) : (s.markEmptied b).requests = s.requests := rfl
@[simp] theorem markEmptied_releases (s : State) (b : Bool) : (s.markEmptied b).releases = s.releases := rfl
@[simp] theorem markEmptied_intensifier1 (s : State) (b : Bool) : (s.markEmptied b).intensifier1 = s.intensifier1 := rfl
@[simp] theorem markEmptied_intensifier2 (s : State) (b : Bool) : (s.markEmptied b).intensifier2 = s.intensifier2 := rfl
@[simp] theorem markEmptied_stamper (s : State) (b : Bool) : (s.markEmptied b).stamper = s.stamper := rfl
@[simp] theorem markEmptied_defacer (s : State) (b : Bool) : (s.markEmptied b).defacer = s.defacer := rfl
@[simp] theorem markEmptied_guardClosed (s : State) (b : Bool) : (s.markEmptied b).guardClosed = s.guardClosed := rfl
@[simp] theorem markEmptied_choices (s : State) (b : Bool) : (s.markEmptied b).choices = s.choices := rfl

/-! ## placeClaim -/

@[simp] theorem placeClaim_pending (s : State) (c : Claimant) : (s.placeClaim c).pending = s.pending := rfl
@[simp] theorem placeClaim_runState (s : State) (c : Claimant) : (s.placeClaim c).runState = s.runState := rfl
@[simp] theorem placeClaim_eStopInput (s : State) (c : Claimant) : (s.placeClaim c).eStopInput = s.eStopInput := rfl
@[simp] theorem placeClaim_lineSeconds (s : State) (c : Claimant) : (s.placeClaim c).lineSeconds = s.lineSeconds := rfl
@[simp] theorem placeClaim_cmbWord (s : State) (c : Claimant) : (s.placeClaim c).cmbWord = s.cmbWord := rfl
@[simp] theorem placeClaim_cmbFull (s : State) (c : Claimant) : (s.placeClaim c).cmbFull = s.cmbFull := rfl
@[simp] theorem placeClaim_justEmptied (s : State) (c : Claimant) : (s.placeClaim c).justEmptied = s.justEmptied := rfl
@[simp] theorem placeClaim_lastCommand (s : State) (c : Claimant) : (s.placeClaim c).lastCommand = s.lastCommand := rfl
@[simp] theorem placeClaim_lastResult (s : State) (c : Claimant) : (s.placeClaim c).lastResult = s.lastResult := rfl
@[simp] theorem placeClaim_overwriteFlag (s : State) (c : Claimant) : (s.placeClaim c).overwriteFlag = s.overwriteFlag := rfl
@[simp] theorem placeClaim_alertSeen (s : State) (c : Claimant) : (s.placeClaim c).alertSeen = s.alertSeen := rfl
@[simp] theorem placeClaim_interruptEnable (s : State) (c : Claimant) : (s.placeClaim c).interruptEnable = s.interruptEnable := rfl
@[simp] theorem placeClaim_busReadData (s : State) (c : Claimant) : (s.placeClaim c).busReadData = s.busReadData := rfl
@[simp] theorem placeClaim_interruptPulses (s : State) (c : Claimant) : (s.placeClaim c).interruptPulses = s.interruptPulses := rfl
@[simp] theorem placeClaim_mem (s : State) (c : Claimant) : (s.placeClaim c).mem = s.mem := rfl
@[simp] theorem placeClaim_headerCount (s : State) (c : Claimant) : (s.placeClaim c).headerCount = s.headerCount := rfl
@[simp] theorem placeClaim_slotCounts (s : State) (c : Claimant) : (s.placeClaim c).slotCounts = s.slotCounts := rfl
@[simp] theorem placeClaim_notices (s : State) (c : Claimant) : (s.placeClaim c).notices = s.notices := rfl
@[simp] theorem placeClaim_nmb (s : State) (c : Claimant) : (s.placeClaim c).nmb = s.nmb := rfl
@[simp] theorem placeClaim_settings (s : State) (c : Claimant) : (s.placeClaim c).settings = s.settings := rfl
@[simp] theorem placeClaim_types (s : State) (c : Claimant) : (s.placeClaim c).types = s.types := rfl
@[simp] theorem placeClaim_typeMask (s : State) (c : Claimant) : (s.placeClaim c).typeMask = s.typeMask := rfl
@[simp] theorem placeClaim_templates (s : State) (c : Claimant) : (s.placeClaim c).templates = s.templates := rfl
@[simp] theorem placeClaim_templateMask (s : State) (c : Claimant) : (s.placeClaim c).templateMask = s.templateMask := rfl
@[simp] theorem placeClaim_tablesHeld (s : State) (c : Claimant) : (s.placeClaim c).tablesHeld = s.tablesHeld := rfl
@[simp] theorem placeClaim_firstBad (s : State) (c : Claimant) : (s.placeClaim c).firstBad = s.firstBad := rfl
@[simp] theorem placeClaim_date (s : State) (c : Claimant) : (s.placeClaim c).date = s.date := rfl
@[simp] theorem placeClaim_readerA (s : State) (c : Claimant) : (s.placeClaim c).readerA = s.readerA := rfl
@[simp] theorem placeClaim_readerB (s : State) (c : Claimant) : (s.placeClaim c).readerB = s.readerB := rfl
@[simp] theorem placeClaim_expect (s : State) (c : Claimant) : (s.placeClaim c).expect = s.expect := rfl
@[simp] theorem placeClaim_roster (s : State) (c : Claimant) : (s.placeClaim c).roster = s.roster := rfl
@[simp] theorem placeClaim_freeCount (s : State) (c : Claimant) : (s.placeClaim c).freeCount = s.freeCount := rfl
@[simp] theorem placeClaim_laneA (s : State) (c : Claimant) : (s.placeClaim c).laneA = s.laneA := rfl
@[simp] theorem placeClaim_laneB (s : State) (c : Claimant) : (s.placeClaim c).laneB = s.laneB := rfl
@[simp] theorem placeClaim_outfeedState (s : State) (c : Claimant) : (s.placeClaim c).outfeedState = s.outfeedState := rfl
@[simp] theorem placeClaim_outfeedQueue (s : State) (c : Claimant) : (s.placeClaim c).outfeedQueue = s.outfeedQueue := rfl
@[simp] theorem placeClaim_outfeedHeadInFlight (s : State) (c : Claimant) : (s.placeClaim c).outfeedHeadInFlight = s.outfeedHeadInFlight := rfl
@[simp] theorem placeClaim_exits (s : State) (c : Claimant) : (s.placeClaim c).exits = s.exits := rfl
@[simp] theorem placeClaim_bays (s : State) (c : Claimant) : (s.placeClaim c).bays = s.bays := rfl
@[simp] theorem placeClaim_requests (s : State) (c : Claimant) : (s.placeClaim c).requests = s.requests := rfl
@[simp] theorem placeClaim_releases (s : State) (c : Claimant) : (s.placeClaim c).releases = s.releases := rfl
@[simp] theorem placeClaim_intensifier1 (s : State) (c : Claimant) : (s.placeClaim c).intensifier1 = s.intensifier1 := rfl
@[simp] theorem placeClaim_intensifier2 (s : State) (c : Claimant) : (s.placeClaim c).intensifier2 = s.intensifier2 := rfl
@[simp] theorem placeClaim_stamper (s : State) (c : Claimant) : (s.placeClaim c).stamper = s.stamper := rfl
@[simp] theorem placeClaim_defacer (s : State) (c : Claimant) : (s.placeClaim c).defacer = s.defacer := rfl
@[simp] theorem placeClaim_guardClosed (s : State) (c : Claimant) : (s.placeClaim c).guardClosed = s.guardClosed := rfl
@[simp] theorem placeClaim_choices (s : State) (c : Claimant) : (s.placeClaim c).choices = s.choices := rfl

/-! ## withdrawClaim -/

@[simp] theorem withdrawClaim_pending (s : State) (c : Claimant) : (s.withdrawClaim c).pending = s.pending := rfl
@[simp] theorem withdrawClaim_runState (s : State) (c : Claimant) : (s.withdrawClaim c).runState = s.runState := rfl
@[simp] theorem withdrawClaim_eStopInput (s : State) (c : Claimant) : (s.withdrawClaim c).eStopInput = s.eStopInput := rfl
@[simp] theorem withdrawClaim_lineSeconds (s : State) (c : Claimant) : (s.withdrawClaim c).lineSeconds = s.lineSeconds := rfl
@[simp] theorem withdrawClaim_cmbWord (s : State) (c : Claimant) : (s.withdrawClaim c).cmbWord = s.cmbWord := rfl
@[simp] theorem withdrawClaim_cmbFull (s : State) (c : Claimant) : (s.withdrawClaim c).cmbFull = s.cmbFull := rfl
@[simp] theorem withdrawClaim_justEmptied (s : State) (c : Claimant) : (s.withdrawClaim c).justEmptied = s.justEmptied := rfl
@[simp] theorem withdrawClaim_lastCommand (s : State) (c : Claimant) : (s.withdrawClaim c).lastCommand = s.lastCommand := rfl
@[simp] theorem withdrawClaim_lastResult (s : State) (c : Claimant) : (s.withdrawClaim c).lastResult = s.lastResult := rfl
@[simp] theorem withdrawClaim_overwriteFlag (s : State) (c : Claimant) : (s.withdrawClaim c).overwriteFlag = s.overwriteFlag := rfl
@[simp] theorem withdrawClaim_alertSeen (s : State) (c : Claimant) : (s.withdrawClaim c).alertSeen = s.alertSeen := rfl
@[simp] theorem withdrawClaim_interruptEnable (s : State) (c : Claimant) : (s.withdrawClaim c).interruptEnable = s.interruptEnable := rfl
@[simp] theorem withdrawClaim_busReadData (s : State) (c : Claimant) : (s.withdrawClaim c).busReadData = s.busReadData := rfl
@[simp] theorem withdrawClaim_interruptPulses (s : State) (c : Claimant) : (s.withdrawClaim c).interruptPulses = s.interruptPulses := rfl
@[simp] theorem withdrawClaim_mem (s : State) (c : Claimant) : (s.withdrawClaim c).mem = s.mem := rfl
@[simp] theorem withdrawClaim_headerCount (s : State) (c : Claimant) : (s.withdrawClaim c).headerCount = s.headerCount := rfl
@[simp] theorem withdrawClaim_slotCounts (s : State) (c : Claimant) : (s.withdrawClaim c).slotCounts = s.slotCounts := rfl
@[simp] theorem withdrawClaim_notices (s : State) (c : Claimant) : (s.withdrawClaim c).notices = s.notices := rfl
@[simp] theorem withdrawClaim_nmb (s : State) (c : Claimant) : (s.withdrawClaim c).nmb = s.nmb := rfl
@[simp] theorem withdrawClaim_settings (s : State) (c : Claimant) : (s.withdrawClaim c).settings = s.settings := rfl
@[simp] theorem withdrawClaim_types (s : State) (c : Claimant) : (s.withdrawClaim c).types = s.types := rfl
@[simp] theorem withdrawClaim_typeMask (s : State) (c : Claimant) : (s.withdrawClaim c).typeMask = s.typeMask := rfl
@[simp] theorem withdrawClaim_templates (s : State) (c : Claimant) : (s.withdrawClaim c).templates = s.templates := rfl
@[simp] theorem withdrawClaim_templateMask (s : State) (c : Claimant) : (s.withdrawClaim c).templateMask = s.templateMask := rfl
@[simp] theorem withdrawClaim_tablesHeld (s : State) (c : Claimant) : (s.withdrawClaim c).tablesHeld = s.tablesHeld := rfl
@[simp] theorem withdrawClaim_firstBad (s : State) (c : Claimant) : (s.withdrawClaim c).firstBad = s.firstBad := rfl
@[simp] theorem withdrawClaim_date (s : State) (c : Claimant) : (s.withdrawClaim c).date = s.date := rfl
@[simp] theorem withdrawClaim_readerA (s : State) (c : Claimant) : (s.withdrawClaim c).readerA = s.readerA := rfl
@[simp] theorem withdrawClaim_readerB (s : State) (c : Claimant) : (s.withdrawClaim c).readerB = s.readerB := rfl
@[simp] theorem withdrawClaim_expect (s : State) (c : Claimant) : (s.withdrawClaim c).expect = s.expect := rfl
@[simp] theorem withdrawClaim_roster (s : State) (c : Claimant) : (s.withdrawClaim c).roster = s.roster := rfl
@[simp] theorem withdrawClaim_freeCount (s : State) (c : Claimant) : (s.withdrawClaim c).freeCount = s.freeCount := rfl
@[simp] theorem withdrawClaim_laneA (s : State) (c : Claimant) : (s.withdrawClaim c).laneA = s.laneA := rfl
@[simp] theorem withdrawClaim_laneB (s : State) (c : Claimant) : (s.withdrawClaim c).laneB = s.laneB := rfl
@[simp] theorem withdrawClaim_outfeedState (s : State) (c : Claimant) : (s.withdrawClaim c).outfeedState = s.outfeedState := rfl
@[simp] theorem withdrawClaim_outfeedQueue (s : State) (c : Claimant) : (s.withdrawClaim c).outfeedQueue = s.outfeedQueue := rfl
@[simp] theorem withdrawClaim_outfeedHeadInFlight (s : State) (c : Claimant) : (s.withdrawClaim c).outfeedHeadInFlight = s.outfeedHeadInFlight := rfl
@[simp] theorem withdrawClaim_exits (s : State) (c : Claimant) : (s.withdrawClaim c).exits = s.exits := rfl
@[simp] theorem withdrawClaim_bays (s : State) (c : Claimant) : (s.withdrawClaim c).bays = s.bays := rfl
@[simp] theorem withdrawClaim_requests (s : State) (c : Claimant) : (s.withdrawClaim c).requests = s.requests := rfl
@[simp] theorem withdrawClaim_releases (s : State) (c : Claimant) : (s.withdrawClaim c).releases = s.releases := rfl
@[simp] theorem withdrawClaim_intensifier1 (s : State) (c : Claimant) : (s.withdrawClaim c).intensifier1 = s.intensifier1 := rfl
@[simp] theorem withdrawClaim_intensifier2 (s : State) (c : Claimant) : (s.withdrawClaim c).intensifier2 = s.intensifier2 := rfl
@[simp] theorem withdrawClaim_stamper (s : State) (c : Claimant) : (s.withdrawClaim c).stamper = s.stamper := rfl
@[simp] theorem withdrawClaim_defacer (s : State) (c : Claimant) : (s.withdrawClaim c).defacer = s.defacer := rfl
@[simp] theorem withdrawClaim_guardClosed (s : State) (c : Claimant) : (s.withdrawClaim c).guardClosed = s.guardClosed := rfl
@[simp] theorem withdrawClaim_choices (s : State) (c : Claimant) : (s.withdrawClaim c).choices = s.choices := rfl

/-! ## mapTransits -/

@[simp] theorem mapTransits_pending (s : State) (f : Transit → Transit) : (s.mapTransits f).pending = s.pending := rfl
@[simp] theorem mapTransits_runState (s : State) (f : Transit → Transit) : (s.mapTransits f).runState = s.runState := rfl
@[simp] theorem mapTransits_eStopInput (s : State) (f : Transit → Transit) : (s.mapTransits f).eStopInput = s.eStopInput := rfl
@[simp] theorem mapTransits_lineSeconds (s : State) (f : Transit → Transit) : (s.mapTransits f).lineSeconds = s.lineSeconds := rfl
@[simp] theorem mapTransits_cmbWord (s : State) (f : Transit → Transit) : (s.mapTransits f).cmbWord = s.cmbWord := rfl
@[simp] theorem mapTransits_cmbFull (s : State) (f : Transit → Transit) : (s.mapTransits f).cmbFull = s.cmbFull := rfl
@[simp] theorem mapTransits_justEmptied (s : State) (f : Transit → Transit) : (s.mapTransits f).justEmptied = s.justEmptied := rfl
@[simp] theorem mapTransits_lastCommand (s : State) (f : Transit → Transit) : (s.mapTransits f).lastCommand = s.lastCommand := rfl
@[simp] theorem mapTransits_lastResult (s : State) (f : Transit → Transit) : (s.mapTransits f).lastResult = s.lastResult := rfl
@[simp] theorem mapTransits_overwriteFlag (s : State) (f : Transit → Transit) : (s.mapTransits f).overwriteFlag = s.overwriteFlag := rfl
@[simp] theorem mapTransits_alertSeen (s : State) (f : Transit → Transit) : (s.mapTransits f).alertSeen = s.alertSeen := rfl
@[simp] theorem mapTransits_interruptEnable (s : State) (f : Transit → Transit) : (s.mapTransits f).interruptEnable = s.interruptEnable := rfl
@[simp] theorem mapTransits_busReadData (s : State) (f : Transit → Transit) : (s.mapTransits f).busReadData = s.busReadData := rfl
@[simp] theorem mapTransits_interruptPulses (s : State) (f : Transit → Transit) : (s.mapTransits f).interruptPulses = s.interruptPulses := rfl
@[simp] theorem mapTransits_mem (s : State) (f : Transit → Transit) : (s.mapTransits f).mem = s.mem := rfl
@[simp] theorem mapTransits_headerCount (s : State) (f : Transit → Transit) : (s.mapTransits f).headerCount = s.headerCount := rfl
@[simp] theorem mapTransits_slotCounts (s : State) (f : Transit → Transit) : (s.mapTransits f).slotCounts = s.slotCounts := rfl
@[simp] theorem mapTransits_notices (s : State) (f : Transit → Transit) : (s.mapTransits f).notices = s.notices := rfl
@[simp] theorem mapTransits_nmb (s : State) (f : Transit → Transit) : (s.mapTransits f).nmb = s.nmb := rfl
@[simp] theorem mapTransits_settings (s : State) (f : Transit → Transit) : (s.mapTransits f).settings = s.settings := rfl
@[simp] theorem mapTransits_types (s : State) (f : Transit → Transit) : (s.mapTransits f).types = s.types := rfl
@[simp] theorem mapTransits_typeMask (s : State) (f : Transit → Transit) : (s.mapTransits f).typeMask = s.typeMask := rfl
@[simp] theorem mapTransits_templates (s : State) (f : Transit → Transit) : (s.mapTransits f).templates = s.templates := rfl
@[simp] theorem mapTransits_templateMask (s : State) (f : Transit → Transit) : (s.mapTransits f).templateMask = s.templateMask := rfl
@[simp] theorem mapTransits_tablesHeld (s : State) (f : Transit → Transit) : (s.mapTransits f).tablesHeld = s.tablesHeld := rfl
@[simp] theorem mapTransits_firstBad (s : State) (f : Transit → Transit) : (s.mapTransits f).firstBad = s.firstBad := rfl
@[simp] theorem mapTransits_date (s : State) (f : Transit → Transit) : (s.mapTransits f).date = s.date := rfl
@[simp] theorem mapTransits_readerA (s : State) (f : Transit → Transit) : (s.mapTransits f).readerA = s.readerA := rfl
@[simp] theorem mapTransits_readerB (s : State) (f : Transit → Transit) : (s.mapTransits f).readerB = s.readerB := rfl
@[simp] theorem mapTransits_expect (s : State) (f : Transit → Transit) : (s.mapTransits f).expect = s.expect := rfl
@[simp] theorem mapTransits_roster (s : State) (f : Transit → Transit) : (s.mapTransits f).roster = s.roster := rfl
@[simp] theorem mapTransits_freeCount (s : State) (f : Transit → Transit) : (s.mapTransits f).freeCount = s.freeCount := rfl
@[simp] theorem mapTransits_outfeedState (s : State) (f : Transit → Transit) : (s.mapTransits f).outfeedState = s.outfeedState := rfl
@[simp] theorem mapTransits_outfeedHeadInFlight (s : State) (f : Transit → Transit) : (s.mapTransits f).outfeedHeadInFlight = s.outfeedHeadInFlight := rfl
@[simp] theorem mapTransits_claims (s : State) (f : Transit → Transit) : (s.mapTransits f).claims = s.claims := rfl
@[simp] theorem mapTransits_requests (s : State) (f : Transit → Transit) : (s.mapTransits f).requests = s.requests := rfl
@[simp] theorem mapTransits_releases (s : State) (f : Transit → Transit) : (s.mapTransits f).releases = s.releases := rfl
@[simp] theorem mapTransits_intensifier1 (s : State) (f : Transit → Transit) : (s.mapTransits f).intensifier1 = s.intensifier1 := rfl
@[simp] theorem mapTransits_intensifier2 (s : State) (f : Transit → Transit) : (s.mapTransits f).intensifier2 = s.intensifier2 := rfl
@[simp] theorem mapTransits_guardClosed (s : State) (f : Transit → Transit) : (s.mapTransits f).guardClosed = s.guardClosed := rfl
@[simp] theorem mapTransits_choices (s : State) (f : Transit → Transit) : (s.mapTransits f).choices = s.choices := rfl

/-! ## evalPermits -/

@[simp] theorem evalPermits_pending (s : State) : (s.evalPermits).pending = s.pending := rfl
@[simp] theorem evalPermits_runState (s : State) : (s.evalPermits).runState = s.runState := rfl
@[simp] theorem evalPermits_eStopInput (s : State) : (s.evalPermits).eStopInput = s.eStopInput := rfl
@[simp] theorem evalPermits_lineSeconds (s : State) : (s.evalPermits).lineSeconds = s.lineSeconds := rfl
@[simp] theorem evalPermits_cmbWord (s : State) : (s.evalPermits).cmbWord = s.cmbWord := rfl
@[simp] theorem evalPermits_cmbFull (s : State) : (s.evalPermits).cmbFull = s.cmbFull := rfl
@[simp] theorem evalPermits_justEmptied (s : State) : (s.evalPermits).justEmptied = s.justEmptied := rfl
@[simp] theorem evalPermits_lastCommand (s : State) : (s.evalPermits).lastCommand = s.lastCommand := rfl
@[simp] theorem evalPermits_lastResult (s : State) : (s.evalPermits).lastResult = s.lastResult := rfl
@[simp] theorem evalPermits_overwriteFlag (s : State) : (s.evalPermits).overwriteFlag = s.overwriteFlag := rfl
@[simp] theorem evalPermits_alertSeen (s : State) : (s.evalPermits).alertSeen = s.alertSeen := rfl
@[simp] theorem evalPermits_interruptEnable (s : State) : (s.evalPermits).interruptEnable = s.interruptEnable := rfl
@[simp] theorem evalPermits_busReadData (s : State) : (s.evalPermits).busReadData = s.busReadData := rfl
@[simp] theorem evalPermits_interruptPulses (s : State) : (s.evalPermits).interruptPulses = s.interruptPulses := rfl
@[simp] theorem evalPermits_mem (s : State) : (s.evalPermits).mem = s.mem := rfl
@[simp] theorem evalPermits_headerCount (s : State) : (s.evalPermits).headerCount = s.headerCount := rfl
@[simp] theorem evalPermits_slotCounts (s : State) : (s.evalPermits).slotCounts = s.slotCounts := rfl
@[simp] theorem evalPermits_notices (s : State) : (s.evalPermits).notices = s.notices := rfl
@[simp] theorem evalPermits_nmb (s : State) : (s.evalPermits).nmb = s.nmb := rfl
@[simp] theorem evalPermits_settings (s : State) : (s.evalPermits).settings = s.settings := rfl
@[simp] theorem evalPermits_types (s : State) : (s.evalPermits).types = s.types := rfl
@[simp] theorem evalPermits_typeMask (s : State) : (s.evalPermits).typeMask = s.typeMask := rfl
@[simp] theorem evalPermits_templates (s : State) : (s.evalPermits).templates = s.templates := rfl
@[simp] theorem evalPermits_templateMask (s : State) : (s.evalPermits).templateMask = s.templateMask := rfl
@[simp] theorem evalPermits_tablesHeld (s : State) : (s.evalPermits).tablesHeld = s.tablesHeld := rfl
@[simp] theorem evalPermits_firstBad (s : State) : (s.evalPermits).firstBad = s.firstBad := rfl
@[simp] theorem evalPermits_date (s : State) : (s.evalPermits).date = s.date := rfl
@[simp] theorem evalPermits_readerA (s : State) : (s.evalPermits).readerA = s.readerA := rfl
@[simp] theorem evalPermits_readerB (s : State) : (s.evalPermits).readerB = s.readerB := rfl
@[simp] theorem evalPermits_expect (s : State) : (s.evalPermits).expect = s.expect := rfl
@[simp] theorem evalPermits_roster (s : State) : (s.evalPermits).roster = s.roster := rfl
@[simp] theorem evalPermits_freeCount (s : State) : (s.evalPermits).freeCount = s.freeCount := rfl
@[simp] theorem evalPermits_outfeedState (s : State) : (s.evalPermits).outfeedState = s.outfeedState := rfl
@[simp] theorem evalPermits_outfeedQueue (s : State) : (s.evalPermits).outfeedQueue = s.outfeedQueue := rfl
@[simp] theorem evalPermits_outfeedHeadInFlight (s : State) : (s.evalPermits).outfeedHeadInFlight = s.outfeedHeadInFlight := rfl
@[simp] theorem evalPermits_exits (s : State) : (s.evalPermits).exits = s.exits := rfl
@[simp] theorem evalPermits_claims (s : State) : (s.evalPermits).claims = s.claims := rfl
@[simp] theorem evalPermits_bays (s : State) : (s.evalPermits).bays = s.bays := rfl
@[simp] theorem evalPermits_requests (s : State) : (s.evalPermits).requests = s.requests := rfl
@[simp] theorem evalPermits_releases (s : State) : (s.evalPermits).releases = s.releases := rfl
@[simp] theorem evalPermits_intensifier1 (s : State) : (s.evalPermits).intensifier1 = s.intensifier1 := rfl
@[simp] theorem evalPermits_intensifier2 (s : State) : (s.evalPermits).intensifier2 = s.intensifier2 := rfl
@[simp] theorem evalPermits_stamper (s : State) : (s.evalPermits).stamper = s.stamper := rfl
@[simp] theorem evalPermits_defacer (s : State) : (s.evalPermits).defacer = s.defacer := rfl
@[simp] theorem evalPermits_guardClosed (s : State) : (s.evalPermits).guardClosed = s.guardClosed := rfl
@[simp] theorem evalPermits_choices (s : State) : (s.evalPermits).choices = s.choices := rfl

/-! ## withCommand -/

@[simp] theorem withCommand_pending (s : State) (word : Word) : (s.withCommand word).pending = s.pending := rfl
@[simp] theorem withCommand_runState (s : State) (word : Word) : (s.withCommand word).runState = s.runState := rfl
@[simp] theorem withCommand_eStopInput (s : State) (word : Word) : (s.withCommand word).eStopInput = s.eStopInput := rfl
@[simp] theorem withCommand_lineSeconds (s : State) (word : Word) : (s.withCommand word).lineSeconds = s.lineSeconds := rfl
@[simp] theorem withCommand_justEmptied (s : State) (word : Word) : (s.withCommand word).justEmptied = s.justEmptied := rfl
@[simp] theorem withCommand_lastCommand (s : State) (word : Word) : (s.withCommand word).lastCommand = s.lastCommand := rfl
@[simp] theorem withCommand_lastResult (s : State) (word : Word) : (s.withCommand word).lastResult = s.lastResult := rfl
@[simp] theorem withCommand_overwriteFlag (s : State) (word : Word) : (s.withCommand word).overwriteFlag = s.overwriteFlag := rfl
@[simp] theorem withCommand_alertSeen (s : State) (word : Word) : (s.withCommand word).alertSeen = s.alertSeen := rfl
@[simp] theorem withCommand_interruptEnable (s : State) (word : Word) : (s.withCommand word).interruptEnable = s.interruptEnable := rfl
@[simp] theorem withCommand_busReadData (s : State) (word : Word) : (s.withCommand word).busReadData = s.busReadData := rfl
@[simp] theorem withCommand_interruptPulses (s : State) (word : Word) : (s.withCommand word).interruptPulses = s.interruptPulses := rfl
@[simp] theorem withCommand_mem (s : State) (word : Word) : (s.withCommand word).mem = s.mem := rfl
@[simp] theorem withCommand_headerCount (s : State) (word : Word) : (s.withCommand word).headerCount = s.headerCount := rfl
@[simp] theorem withCommand_slotCounts (s : State) (word : Word) : (s.withCommand word).slotCounts = s.slotCounts := rfl
@[simp] theorem withCommand_notices (s : State) (word : Word) : (s.withCommand word).notices = s.notices := rfl
@[simp] theorem withCommand_nmb (s : State) (word : Word) : (s.withCommand word).nmb = s.nmb := rfl
@[simp] theorem withCommand_settings (s : State) (word : Word) : (s.withCommand word).settings = s.settings := rfl
@[simp] theorem withCommand_types (s : State) (word : Word) : (s.withCommand word).types = s.types := rfl
@[simp] theorem withCommand_typeMask (s : State) (word : Word) : (s.withCommand word).typeMask = s.typeMask := rfl
@[simp] theorem withCommand_templates (s : State) (word : Word) : (s.withCommand word).templates = s.templates := rfl
@[simp] theorem withCommand_templateMask (s : State) (word : Word) : (s.withCommand word).templateMask = s.templateMask := rfl
@[simp] theorem withCommand_tablesHeld (s : State) (word : Word) : (s.withCommand word).tablesHeld = s.tablesHeld := rfl
@[simp] theorem withCommand_firstBad (s : State) (word : Word) : (s.withCommand word).firstBad = s.firstBad := rfl
@[simp] theorem withCommand_date (s : State) (word : Word) : (s.withCommand word).date = s.date := rfl
@[simp] theorem withCommand_readerA (s : State) (word : Word) : (s.withCommand word).readerA = s.readerA := rfl
@[simp] theorem withCommand_readerB (s : State) (word : Word) : (s.withCommand word).readerB = s.readerB := rfl
@[simp] theorem withCommand_expect (s : State) (word : Word) : (s.withCommand word).expect = s.expect := rfl
@[simp] theorem withCommand_roster (s : State) (word : Word) : (s.withCommand word).roster = s.roster := rfl
@[simp] theorem withCommand_freeCount (s : State) (word : Word) : (s.withCommand word).freeCount = s.freeCount := rfl
@[simp] theorem withCommand_laneA (s : State) (word : Word) : (s.withCommand word).laneA = s.laneA := rfl
@[simp] theorem withCommand_laneB (s : State) (word : Word) : (s.withCommand word).laneB = s.laneB := rfl
@[simp] theorem withCommand_outfeedState (s : State) (word : Word) : (s.withCommand word).outfeedState = s.outfeedState := rfl
@[simp] theorem withCommand_outfeedQueue (s : State) (word : Word) : (s.withCommand word).outfeedQueue = s.outfeedQueue := rfl
@[simp] theorem withCommand_outfeedHeadInFlight (s : State) (word : Word) : (s.withCommand word).outfeedHeadInFlight = s.outfeedHeadInFlight := rfl
@[simp] theorem withCommand_exits (s : State) (word : Word) : (s.withCommand word).exits = s.exits := rfl
@[simp] theorem withCommand_claims (s : State) (word : Word) : (s.withCommand word).claims = s.claims := rfl
@[simp] theorem withCommand_bays (s : State) (word : Word) : (s.withCommand word).bays = s.bays := rfl
@[simp] theorem withCommand_requests (s : State) (word : Word) : (s.withCommand word).requests = s.requests := rfl
@[simp] theorem withCommand_releases (s : State) (word : Word) : (s.withCommand word).releases = s.releases := rfl
@[simp] theorem withCommand_intensifier1 (s : State) (word : Word) : (s.withCommand word).intensifier1 = s.intensifier1 := rfl
@[simp] theorem withCommand_intensifier2 (s : State) (word : Word) : (s.withCommand word).intensifier2 = s.intensifier2 := rfl
@[simp] theorem withCommand_stamper (s : State) (word : Word) : (s.withCommand word).stamper = s.stamper := rfl
@[simp] theorem withCommand_defacer (s : State) (word : Word) : (s.withCommand word).defacer = s.defacer := rfl
@[simp] theorem withCommand_guardClosed (s : State) (word : Word) : (s.withCommand word).guardClosed = s.guardClosed := rfl
@[simp] theorem withCommand_choices (s : State) (word : Word) : (s.withCommand word).choices = s.choices := rfl

/-! ## completed -/

@[simp] theorem completed_pending (s : State) (code : Byte) (result : ResultCode) : (s.completed code result).pending = s.pending := rfl
@[simp] theorem completed_runState (s : State) (code : Byte) (result : ResultCode) : (s.completed code result).runState = s.runState := rfl
@[simp] theorem completed_eStopInput (s : State) (code : Byte) (result : ResultCode) : (s.completed code result).eStopInput = s.eStopInput := rfl
@[simp] theorem completed_lineSeconds (s : State) (code : Byte) (result : ResultCode) : (s.completed code result).lineSeconds = s.lineSeconds := rfl
@[simp] theorem completed_cmbWord (s : State) (code : Byte) (result : ResultCode) : (s.completed code result).cmbWord = s.cmbWord := rfl
@[simp] theorem completed_justEmptied (s : State) (code : Byte) (result : ResultCode) : (s.completed code result).justEmptied = s.justEmptied := rfl
@[simp] theorem completed_overwriteFlag (s : State) (code : Byte) (result : ResultCode) : (s.completed code result).overwriteFlag = s.overwriteFlag := rfl
@[simp] theorem completed_alertSeen (s : State) (code : Byte) (result : ResultCode) : (s.completed code result).alertSeen = s.alertSeen := rfl
@[simp] theorem completed_interruptEnable (s : State) (code : Byte) (result : ResultCode) : (s.completed code result).interruptEnable = s.interruptEnable := rfl
@[simp] theorem completed_busReadData (s : State) (code : Byte) (result : ResultCode) : (s.completed code result).busReadData = s.busReadData := rfl
@[simp] theorem completed_interruptPulses (s : State) (code : Byte) (result : ResultCode) : (s.completed code result).interruptPulses = s.interruptPulses := rfl
@[simp] theorem completed_mem (s : State) (code : Byte) (result : ResultCode) : (s.completed code result).mem = s.mem := rfl
@[simp] theorem completed_headerCount (s : State) (code : Byte) (result : ResultCode) : (s.completed code result).headerCount = s.headerCount := rfl
@[simp] theorem completed_slotCounts (s : State) (code : Byte) (result : ResultCode) : (s.completed code result).slotCounts = s.slotCounts := rfl
@[simp] theorem completed_notices (s : State) (code : Byte) (result : ResultCode) : (s.completed code result).notices = s.notices := rfl
@[simp] theorem completed_nmb (s : State) (code : Byte) (result : ResultCode) : (s.completed code result).nmb = s.nmb := rfl
@[simp] theorem completed_settings (s : State) (code : Byte) (result : ResultCode) : (s.completed code result).settings = s.settings := rfl
@[simp] theorem completed_types (s : State) (code : Byte) (result : ResultCode) : (s.completed code result).types = s.types := rfl
@[simp] theorem completed_typeMask (s : State) (code : Byte) (result : ResultCode) : (s.completed code result).typeMask = s.typeMask := rfl
@[simp] theorem completed_templates (s : State) (code : Byte) (result : ResultCode) : (s.completed code result).templates = s.templates := rfl
@[simp] theorem completed_templateMask (s : State) (code : Byte) (result : ResultCode) : (s.completed code result).templateMask = s.templateMask := rfl
@[simp] theorem completed_tablesHeld (s : State) (code : Byte) (result : ResultCode) : (s.completed code result).tablesHeld = s.tablesHeld := rfl
@[simp] theorem completed_firstBad (s : State) (code : Byte) (result : ResultCode) : (s.completed code result).firstBad = s.firstBad := rfl
@[simp] theorem completed_date (s : State) (code : Byte) (result : ResultCode) : (s.completed code result).date = s.date := rfl
@[simp] theorem completed_readerA (s : State) (code : Byte) (result : ResultCode) : (s.completed code result).readerA = s.readerA := rfl
@[simp] theorem completed_readerB (s : State) (code : Byte) (result : ResultCode) : (s.completed code result).readerB = s.readerB := rfl
@[simp] theorem completed_expect (s : State) (code : Byte) (result : ResultCode) : (s.completed code result).expect = s.expect := rfl
@[simp] theorem completed_roster (s : State) (code : Byte) (result : ResultCode) : (s.completed code result).roster = s.roster := rfl
@[simp] theorem completed_freeCount (s : State) (code : Byte) (result : ResultCode) : (s.completed code result).freeCount = s.freeCount := rfl
@[simp] theorem completed_laneA (s : State) (code : Byte) (result : ResultCode) : (s.completed code result).laneA = s.laneA := rfl
@[simp] theorem completed_laneB (s : State) (code : Byte) (result : ResultCode) : (s.completed code result).laneB = s.laneB := rfl
@[simp] theorem completed_outfeedState (s : State) (code : Byte) (result : ResultCode) : (s.completed code result).outfeedState = s.outfeedState := rfl
@[simp] theorem completed_outfeedQueue (s : State) (code : Byte) (result : ResultCode) : (s.completed code result).outfeedQueue = s.outfeedQueue := rfl
@[simp] theorem completed_outfeedHeadInFlight (s : State) (code : Byte) (result : ResultCode) : (s.completed code result).outfeedHeadInFlight = s.outfeedHeadInFlight := rfl
@[simp] theorem completed_exits (s : State) (code : Byte) (result : ResultCode) : (s.completed code result).exits = s.exits := rfl
@[simp] theorem completed_claims (s : State) (code : Byte) (result : ResultCode) : (s.completed code result).claims = s.claims := rfl
@[simp] theorem completed_bays (s : State) (code : Byte) (result : ResultCode) : (s.completed code result).bays = s.bays := rfl
@[simp] theorem completed_requests (s : State) (code : Byte) (result : ResultCode) : (s.completed code result).requests = s.requests := rfl
@[simp] theorem completed_releases (s : State) (code : Byte) (result : ResultCode) : (s.completed code result).releases = s.releases := rfl
@[simp] theorem completed_intensifier1 (s : State) (code : Byte) (result : ResultCode) : (s.completed code result).intensifier1 = s.intensifier1 := rfl
@[simp] theorem completed_intensifier2 (s : State) (code : Byte) (result : ResultCode) : (s.completed code result).intensifier2 = s.intensifier2 := rfl
@[simp] theorem completed_stamper (s : State) (code : Byte) (result : ResultCode) : (s.completed code result).stamper = s.stamper := rfl
@[simp] theorem completed_defacer (s : State) (code : Byte) (result : ResultCode) : (s.completed code result).defacer = s.defacer := rfl
@[simp] theorem completed_guardClosed (s : State) (code : Byte) (result : ResultCode) : (s.completed code result).guardClosed = s.guardClosed := rfl
@[simp] theorem completed_choices (s : State) (code : Byte) (result : ResultCode) : (s.completed code result).choices = s.choices := rfl

/-! ## sendRelease -/

@[simp] theorem sendRelease_pending (s : State) (n : BayId) (i : IntensifierId) : (s.sendRelease n i).pending = s.pending := rfl
@[simp] theorem sendRelease_runState (s : State) (n : BayId) (i : IntensifierId) : (s.sendRelease n i).runState = s.runState := rfl
@[simp] theorem sendRelease_eStopInput (s : State) (n : BayId) (i : IntensifierId) : (s.sendRelease n i).eStopInput = s.eStopInput := rfl
@[simp] theorem sendRelease_lineSeconds (s : State) (n : BayId) (i : IntensifierId) : (s.sendRelease n i).lineSeconds = s.lineSeconds := rfl
@[simp] theorem sendRelease_cmbWord (s : State) (n : BayId) (i : IntensifierId) : (s.sendRelease n i).cmbWord = s.cmbWord := rfl
@[simp] theorem sendRelease_cmbFull (s : State) (n : BayId) (i : IntensifierId) : (s.sendRelease n i).cmbFull = s.cmbFull := rfl
@[simp] theorem sendRelease_justEmptied (s : State) (n : BayId) (i : IntensifierId) : (s.sendRelease n i).justEmptied = s.justEmptied := rfl
@[simp] theorem sendRelease_lastCommand (s : State) (n : BayId) (i : IntensifierId) : (s.sendRelease n i).lastCommand = s.lastCommand := rfl
@[simp] theorem sendRelease_lastResult (s : State) (n : BayId) (i : IntensifierId) : (s.sendRelease n i).lastResult = s.lastResult := rfl
@[simp] theorem sendRelease_overwriteFlag (s : State) (n : BayId) (i : IntensifierId) : (s.sendRelease n i).overwriteFlag = s.overwriteFlag := rfl
@[simp] theorem sendRelease_alertSeen (s : State) (n : BayId) (i : IntensifierId) : (s.sendRelease n i).alertSeen = s.alertSeen := rfl
@[simp] theorem sendRelease_interruptEnable (s : State) (n : BayId) (i : IntensifierId) : (s.sendRelease n i).interruptEnable = s.interruptEnable := rfl
@[simp] theorem sendRelease_busReadData (s : State) (n : BayId) (i : IntensifierId) : (s.sendRelease n i).busReadData = s.busReadData := rfl
@[simp] theorem sendRelease_interruptPulses (s : State) (n : BayId) (i : IntensifierId) : (s.sendRelease n i).interruptPulses = s.interruptPulses := rfl
@[simp] theorem sendRelease_mem (s : State) (n : BayId) (i : IntensifierId) : (s.sendRelease n i).mem = s.mem := rfl
@[simp] theorem sendRelease_headerCount (s : State) (n : BayId) (i : IntensifierId) : (s.sendRelease n i).headerCount = s.headerCount := rfl
@[simp] theorem sendRelease_slotCounts (s : State) (n : BayId) (i : IntensifierId) : (s.sendRelease n i).slotCounts = s.slotCounts := rfl
@[simp] theorem sendRelease_notices (s : State) (n : BayId) (i : IntensifierId) : (s.sendRelease n i).notices = s.notices := rfl
@[simp] theorem sendRelease_nmb (s : State) (n : BayId) (i : IntensifierId) : (s.sendRelease n i).nmb = s.nmb := rfl
@[simp] theorem sendRelease_settings (s : State) (n : BayId) (i : IntensifierId) : (s.sendRelease n i).settings = s.settings := rfl
@[simp] theorem sendRelease_types (s : State) (n : BayId) (i : IntensifierId) : (s.sendRelease n i).types = s.types := rfl
@[simp] theorem sendRelease_typeMask (s : State) (n : BayId) (i : IntensifierId) : (s.sendRelease n i).typeMask = s.typeMask := rfl
@[simp] theorem sendRelease_templates (s : State) (n : BayId) (i : IntensifierId) : (s.sendRelease n i).templates = s.templates := rfl
@[simp] theorem sendRelease_templateMask (s : State) (n : BayId) (i : IntensifierId) : (s.sendRelease n i).templateMask = s.templateMask := rfl
@[simp] theorem sendRelease_tablesHeld (s : State) (n : BayId) (i : IntensifierId) : (s.sendRelease n i).tablesHeld = s.tablesHeld := rfl
@[simp] theorem sendRelease_firstBad (s : State) (n : BayId) (i : IntensifierId) : (s.sendRelease n i).firstBad = s.firstBad := rfl
@[simp] theorem sendRelease_date (s : State) (n : BayId) (i : IntensifierId) : (s.sendRelease n i).date = s.date := rfl
@[simp] theorem sendRelease_readerA (s : State) (n : BayId) (i : IntensifierId) : (s.sendRelease n i).readerA = s.readerA := rfl
@[simp] theorem sendRelease_readerB (s : State) (n : BayId) (i : IntensifierId) : (s.sendRelease n i).readerB = s.readerB := rfl
@[simp] theorem sendRelease_expect (s : State) (n : BayId) (i : IntensifierId) : (s.sendRelease n i).expect = s.expect := rfl
@[simp] theorem sendRelease_roster (s : State) (n : BayId) (i : IntensifierId) : (s.sendRelease n i).roster = s.roster := rfl
@[simp] theorem sendRelease_freeCount (s : State) (n : BayId) (i : IntensifierId) : (s.sendRelease n i).freeCount = s.freeCount := rfl
@[simp] theorem sendRelease_laneA (s : State) (n : BayId) (i : IntensifierId) : (s.sendRelease n i).laneA = s.laneA := rfl
@[simp] theorem sendRelease_laneB (s : State) (n : BayId) (i : IntensifierId) : (s.sendRelease n i).laneB = s.laneB := rfl
@[simp] theorem sendRelease_outfeedState (s : State) (n : BayId) (i : IntensifierId) : (s.sendRelease n i).outfeedState = s.outfeedState := rfl
@[simp] theorem sendRelease_outfeedQueue (s : State) (n : BayId) (i : IntensifierId) : (s.sendRelease n i).outfeedQueue = s.outfeedQueue := rfl
@[simp] theorem sendRelease_outfeedHeadInFlight (s : State) (n : BayId) (i : IntensifierId) : (s.sendRelease n i).outfeedHeadInFlight = s.outfeedHeadInFlight := rfl
@[simp] theorem sendRelease_exits (s : State) (n : BayId) (i : IntensifierId) : (s.sendRelease n i).exits = s.exits := rfl
@[simp] theorem sendRelease_claims (s : State) (n : BayId) (i : IntensifierId) : (s.sendRelease n i).claims = s.claims := rfl
@[simp] theorem sendRelease_bays (s : State) (n : BayId) (i : IntensifierId) : (s.sendRelease n i).bays = s.bays := rfl
@[simp] theorem sendRelease_requests (s : State) (n : BayId) (i : IntensifierId) : (s.sendRelease n i).requests = s.requests := rfl
@[simp] theorem sendRelease_intensifier1 (s : State) (n : BayId) (i : IntensifierId) : (s.sendRelease n i).intensifier1 = s.intensifier1 := rfl
@[simp] theorem sendRelease_intensifier2 (s : State) (n : BayId) (i : IntensifierId) : (s.sendRelease n i).intensifier2 = s.intensifier2 := rfl
@[simp] theorem sendRelease_stamper (s : State) (n : BayId) (i : IntensifierId) : (s.sendRelease n i).stamper = s.stamper := rfl
@[simp] theorem sendRelease_defacer (s : State) (n : BayId) (i : IntensifierId) : (s.sendRelease n i).defacer = s.defacer := rfl
@[simp] theorem sendRelease_guardClosed (s : State) (n : BayId) (i : IntensifierId) : (s.sendRelease n i).guardClosed = s.guardClosed := rfl
@[simp] theorem sendRelease_choices (s : State) (n : BayId) (i : IntensifierId) : (s.sendRelease n i).choices = s.choices := rfl

/-! ## removeRequest -/

@[simp] theorem removeRequest_pending (s : State) (n : BayId) : (s.removeRequest n).pending = s.pending := rfl
@[simp] theorem removeRequest_runState (s : State) (n : BayId) : (s.removeRequest n).runState = s.runState := rfl
@[simp] theorem removeRequest_eStopInput (s : State) (n : BayId) : (s.removeRequest n).eStopInput = s.eStopInput := rfl
@[simp] theorem removeRequest_lineSeconds (s : State) (n : BayId) : (s.removeRequest n).lineSeconds = s.lineSeconds := rfl
@[simp] theorem removeRequest_cmbWord (s : State) (n : BayId) : (s.removeRequest n).cmbWord = s.cmbWord := rfl
@[simp] theorem removeRequest_cmbFull (s : State) (n : BayId) : (s.removeRequest n).cmbFull = s.cmbFull := rfl
@[simp] theorem removeRequest_justEmptied (s : State) (n : BayId) : (s.removeRequest n).justEmptied = s.justEmptied := rfl
@[simp] theorem removeRequest_lastCommand (s : State) (n : BayId) : (s.removeRequest n).lastCommand = s.lastCommand := rfl
@[simp] theorem removeRequest_lastResult (s : State) (n : BayId) : (s.removeRequest n).lastResult = s.lastResult := rfl
@[simp] theorem removeRequest_overwriteFlag (s : State) (n : BayId) : (s.removeRequest n).overwriteFlag = s.overwriteFlag := rfl
@[simp] theorem removeRequest_alertSeen (s : State) (n : BayId) : (s.removeRequest n).alertSeen = s.alertSeen := rfl
@[simp] theorem removeRequest_interruptEnable (s : State) (n : BayId) : (s.removeRequest n).interruptEnable = s.interruptEnable := rfl
@[simp] theorem removeRequest_busReadData (s : State) (n : BayId) : (s.removeRequest n).busReadData = s.busReadData := rfl
@[simp] theorem removeRequest_interruptPulses (s : State) (n : BayId) : (s.removeRequest n).interruptPulses = s.interruptPulses := rfl
@[simp] theorem removeRequest_mem (s : State) (n : BayId) : (s.removeRequest n).mem = s.mem := rfl
@[simp] theorem removeRequest_headerCount (s : State) (n : BayId) : (s.removeRequest n).headerCount = s.headerCount := rfl
@[simp] theorem removeRequest_slotCounts (s : State) (n : BayId) : (s.removeRequest n).slotCounts = s.slotCounts := rfl
@[simp] theorem removeRequest_notices (s : State) (n : BayId) : (s.removeRequest n).notices = s.notices := rfl
@[simp] theorem removeRequest_nmb (s : State) (n : BayId) : (s.removeRequest n).nmb = s.nmb := rfl
@[simp] theorem removeRequest_settings (s : State) (n : BayId) : (s.removeRequest n).settings = s.settings := rfl
@[simp] theorem removeRequest_types (s : State) (n : BayId) : (s.removeRequest n).types = s.types := rfl
@[simp] theorem removeRequest_typeMask (s : State) (n : BayId) : (s.removeRequest n).typeMask = s.typeMask := rfl
@[simp] theorem removeRequest_templates (s : State) (n : BayId) : (s.removeRequest n).templates = s.templates := rfl
@[simp] theorem removeRequest_templateMask (s : State) (n : BayId) : (s.removeRequest n).templateMask = s.templateMask := rfl
@[simp] theorem removeRequest_tablesHeld (s : State) (n : BayId) : (s.removeRequest n).tablesHeld = s.tablesHeld := rfl
@[simp] theorem removeRequest_firstBad (s : State) (n : BayId) : (s.removeRequest n).firstBad = s.firstBad := rfl
@[simp] theorem removeRequest_date (s : State) (n : BayId) : (s.removeRequest n).date = s.date := rfl
@[simp] theorem removeRequest_readerA (s : State) (n : BayId) : (s.removeRequest n).readerA = s.readerA := rfl
@[simp] theorem removeRequest_readerB (s : State) (n : BayId) : (s.removeRequest n).readerB = s.readerB := rfl
@[simp] theorem removeRequest_expect (s : State) (n : BayId) : (s.removeRequest n).expect = s.expect := rfl
@[simp] theorem removeRequest_roster (s : State) (n : BayId) : (s.removeRequest n).roster = s.roster := rfl
@[simp] theorem removeRequest_freeCount (s : State) (n : BayId) : (s.removeRequest n).freeCount = s.freeCount := rfl
@[simp] theorem removeRequest_laneA (s : State) (n : BayId) : (s.removeRequest n).laneA = s.laneA := rfl
@[simp] theorem removeRequest_laneB (s : State) (n : BayId) : (s.removeRequest n).laneB = s.laneB := rfl
@[simp] theorem removeRequest_outfeedState (s : State) (n : BayId) : (s.removeRequest n).outfeedState = s.outfeedState := rfl
@[simp] theorem removeRequest_outfeedQueue (s : State) (n : BayId) : (s.removeRequest n).outfeedQueue = s.outfeedQueue := rfl
@[simp] theorem removeRequest_outfeedHeadInFlight (s : State) (n : BayId) : (s.removeRequest n).outfeedHeadInFlight = s.outfeedHeadInFlight := rfl
@[simp] theorem removeRequest_exits (s : State) (n : BayId) : (s.removeRequest n).exits = s.exits := rfl
@[simp] theorem removeRequest_claims (s : State) (n : BayId) : (s.removeRequest n).claims = s.claims := rfl
@[simp] theorem removeRequest_bays (s : State) (n : BayId) : (s.removeRequest n).bays = s.bays := rfl
@[simp] theorem removeRequest_releases (s : State) (n : BayId) : (s.removeRequest n).releases = s.releases := rfl
@[simp] theorem removeRequest_intensifier1 (s : State) (n : BayId) : (s.removeRequest n).intensifier1 = s.intensifier1 := rfl
@[simp] theorem removeRequest_intensifier2 (s : State) (n : BayId) : (s.removeRequest n).intensifier2 = s.intensifier2 := rfl
@[simp] theorem removeRequest_stamper (s : State) (n : BayId) : (s.removeRequest n).stamper = s.stamper := rfl
@[simp] theorem removeRequest_defacer (s : State) (n : BayId) : (s.removeRequest n).defacer = s.defacer := rfl
@[simp] theorem removeRequest_guardClosed (s : State) (n : BayId) : (s.removeRequest n).guardClosed = s.guardClosed := rfl
@[simp] theorem removeRequest_choices (s : State) (n : BayId) : (s.removeRequest n).choices = s.choices := rfl

/-! ## appendRequest -/

@[simp] theorem appendRequest_pending (s : State) (n : BayId) : (s.appendRequest n).pending = s.pending := rfl
@[simp] theorem appendRequest_runState (s : State) (n : BayId) : (s.appendRequest n).runState = s.runState := rfl
@[simp] theorem appendRequest_eStopInput (s : State) (n : BayId) : (s.appendRequest n).eStopInput = s.eStopInput := rfl
@[simp] theorem appendRequest_lineSeconds (s : State) (n : BayId) : (s.appendRequest n).lineSeconds = s.lineSeconds := rfl
@[simp] theorem appendRequest_cmbWord (s : State) (n : BayId) : (s.appendRequest n).cmbWord = s.cmbWord := rfl
@[simp] theorem appendRequest_cmbFull (s : State) (n : BayId) : (s.appendRequest n).cmbFull = s.cmbFull := rfl
@[simp] theorem appendRequest_justEmptied (s : State) (n : BayId) : (s.appendRequest n).justEmptied = s.justEmptied := rfl
@[simp] theorem appendRequest_lastCommand (s : State) (n : BayId) : (s.appendRequest n).lastCommand = s.lastCommand := rfl
@[simp] theorem appendRequest_lastResult (s : State) (n : BayId) : (s.appendRequest n).lastResult = s.lastResult := rfl
@[simp] theorem appendRequest_overwriteFlag (s : State) (n : BayId) : (s.appendRequest n).overwriteFlag = s.overwriteFlag := rfl
@[simp] theorem appendRequest_alertSeen (s : State) (n : BayId) : (s.appendRequest n).alertSeen = s.alertSeen := rfl
@[simp] theorem appendRequest_interruptEnable (s : State) (n : BayId) : (s.appendRequest n).interruptEnable = s.interruptEnable := rfl
@[simp] theorem appendRequest_busReadData (s : State) (n : BayId) : (s.appendRequest n).busReadData = s.busReadData := rfl
@[simp] theorem appendRequest_interruptPulses (s : State) (n : BayId) : (s.appendRequest n).interruptPulses = s.interruptPulses := rfl
@[simp] theorem appendRequest_mem (s : State) (n : BayId) : (s.appendRequest n).mem = s.mem := rfl
@[simp] theorem appendRequest_headerCount (s : State) (n : BayId) : (s.appendRequest n).headerCount = s.headerCount := rfl
@[simp] theorem appendRequest_slotCounts (s : State) (n : BayId) : (s.appendRequest n).slotCounts = s.slotCounts := rfl
@[simp] theorem appendRequest_notices (s : State) (n : BayId) : (s.appendRequest n).notices = s.notices := rfl
@[simp] theorem appendRequest_nmb (s : State) (n : BayId) : (s.appendRequest n).nmb = s.nmb := rfl
@[simp] theorem appendRequest_settings (s : State) (n : BayId) : (s.appendRequest n).settings = s.settings := rfl
@[simp] theorem appendRequest_types (s : State) (n : BayId) : (s.appendRequest n).types = s.types := rfl
@[simp] theorem appendRequest_typeMask (s : State) (n : BayId) : (s.appendRequest n).typeMask = s.typeMask := rfl
@[simp] theorem appendRequest_templates (s : State) (n : BayId) : (s.appendRequest n).templates = s.templates := rfl
@[simp] theorem appendRequest_templateMask (s : State) (n : BayId) : (s.appendRequest n).templateMask = s.templateMask := rfl
@[simp] theorem appendRequest_tablesHeld (s : State) (n : BayId) : (s.appendRequest n).tablesHeld = s.tablesHeld := rfl
@[simp] theorem appendRequest_firstBad (s : State) (n : BayId) : (s.appendRequest n).firstBad = s.firstBad := rfl
@[simp] theorem appendRequest_date (s : State) (n : BayId) : (s.appendRequest n).date = s.date := rfl
@[simp] theorem appendRequest_readerA (s : State) (n : BayId) : (s.appendRequest n).readerA = s.readerA := rfl
@[simp] theorem appendRequest_readerB (s : State) (n : BayId) : (s.appendRequest n).readerB = s.readerB := rfl
@[simp] theorem appendRequest_expect (s : State) (n : BayId) : (s.appendRequest n).expect = s.expect := rfl
@[simp] theorem appendRequest_roster (s : State) (n : BayId) : (s.appendRequest n).roster = s.roster := rfl
@[simp] theorem appendRequest_freeCount (s : State) (n : BayId) : (s.appendRequest n).freeCount = s.freeCount := rfl
@[simp] theorem appendRequest_laneA (s : State) (n : BayId) : (s.appendRequest n).laneA = s.laneA := rfl
@[simp] theorem appendRequest_laneB (s : State) (n : BayId) : (s.appendRequest n).laneB = s.laneB := rfl
@[simp] theorem appendRequest_outfeedState (s : State) (n : BayId) : (s.appendRequest n).outfeedState = s.outfeedState := rfl
@[simp] theorem appendRequest_outfeedQueue (s : State) (n : BayId) : (s.appendRequest n).outfeedQueue = s.outfeedQueue := rfl
@[simp] theorem appendRequest_outfeedHeadInFlight (s : State) (n : BayId) : (s.appendRequest n).outfeedHeadInFlight = s.outfeedHeadInFlight := rfl
@[simp] theorem appendRequest_exits (s : State) (n : BayId) : (s.appendRequest n).exits = s.exits := rfl
@[simp] theorem appendRequest_claims (s : State) (n : BayId) : (s.appendRequest n).claims = s.claims := rfl
@[simp] theorem appendRequest_bays (s : State) (n : BayId) : (s.appendRequest n).bays = s.bays := rfl
@[simp] theorem appendRequest_releases (s : State) (n : BayId) : (s.appendRequest n).releases = s.releases := rfl
@[simp] theorem appendRequest_intensifier1 (s : State) (n : BayId) : (s.appendRequest n).intensifier1 = s.intensifier1 := rfl
@[simp] theorem appendRequest_intensifier2 (s : State) (n : BayId) : (s.appendRequest n).intensifier2 = s.intensifier2 := rfl
@[simp] theorem appendRequest_stamper (s : State) (n : BayId) : (s.appendRequest n).stamper = s.stamper := rfl
@[simp] theorem appendRequest_defacer (s : State) (n : BayId) : (s.appendRequest n).defacer = s.defacer := rfl
@[simp] theorem appendRequest_guardClosed (s : State) (n : BayId) : (s.appendRequest n).guardClosed = s.guardClosed := rfl
@[simp] theorem appendRequest_choices (s : State) (n : BayId) : (s.appendRequest n).choices = s.choices := rfl

/-! ## countAllocated -/

@[simp] theorem countAllocated_pending (s : State) : (s.countAllocated).pending = s.pending := rfl
@[simp] theorem countAllocated_runState (s : State) : (s.countAllocated).runState = s.runState := rfl
@[simp] theorem countAllocated_eStopInput (s : State) : (s.countAllocated).eStopInput = s.eStopInput := rfl
@[simp] theorem countAllocated_lineSeconds (s : State) : (s.countAllocated).lineSeconds = s.lineSeconds := rfl
@[simp] theorem countAllocated_cmbWord (s : State) : (s.countAllocated).cmbWord = s.cmbWord := rfl
@[simp] theorem countAllocated_cmbFull (s : State) : (s.countAllocated).cmbFull = s.cmbFull := rfl
@[simp] theorem countAllocated_justEmptied (s : State) : (s.countAllocated).justEmptied = s.justEmptied := rfl
@[simp] theorem countAllocated_lastCommand (s : State) : (s.countAllocated).lastCommand = s.lastCommand := rfl
@[simp] theorem countAllocated_lastResult (s : State) : (s.countAllocated).lastResult = s.lastResult := rfl
@[simp] theorem countAllocated_overwriteFlag (s : State) : (s.countAllocated).overwriteFlag = s.overwriteFlag := rfl
@[simp] theorem countAllocated_alertSeen (s : State) : (s.countAllocated).alertSeen = s.alertSeen := rfl
@[simp] theorem countAllocated_interruptEnable (s : State) : (s.countAllocated).interruptEnable = s.interruptEnable := rfl
@[simp] theorem countAllocated_busReadData (s : State) : (s.countAllocated).busReadData = s.busReadData := rfl
@[simp] theorem countAllocated_interruptPulses (s : State) : (s.countAllocated).interruptPulses = s.interruptPulses := rfl
@[simp] theorem countAllocated_mem (s : State) : (s.countAllocated).mem = s.mem := rfl
@[simp] theorem countAllocated_slotCounts (s : State) : (s.countAllocated).slotCounts = s.slotCounts := rfl
@[simp] theorem countAllocated_notices (s : State) : (s.countAllocated).notices = s.notices := rfl
@[simp] theorem countAllocated_nmb (s : State) : (s.countAllocated).nmb = s.nmb := rfl
@[simp] theorem countAllocated_settings (s : State) : (s.countAllocated).settings = s.settings := rfl
@[simp] theorem countAllocated_types (s : State) : (s.countAllocated).types = s.types := rfl
@[simp] theorem countAllocated_typeMask (s : State) : (s.countAllocated).typeMask = s.typeMask := rfl
@[simp] theorem countAllocated_templates (s : State) : (s.countAllocated).templates = s.templates := rfl
@[simp] theorem countAllocated_templateMask (s : State) : (s.countAllocated).templateMask = s.templateMask := rfl
@[simp] theorem countAllocated_tablesHeld (s : State) : (s.countAllocated).tablesHeld = s.tablesHeld := rfl
@[simp] theorem countAllocated_firstBad (s : State) : (s.countAllocated).firstBad = s.firstBad := rfl
@[simp] theorem countAllocated_date (s : State) : (s.countAllocated).date = s.date := rfl
@[simp] theorem countAllocated_readerA (s : State) : (s.countAllocated).readerA = s.readerA := rfl
@[simp] theorem countAllocated_readerB (s : State) : (s.countAllocated).readerB = s.readerB := rfl
@[simp] theorem countAllocated_expect (s : State) : (s.countAllocated).expect = s.expect := rfl
@[simp] theorem countAllocated_roster (s : State) : (s.countAllocated).roster = s.roster := rfl
@[simp] theorem countAllocated_laneA (s : State) : (s.countAllocated).laneA = s.laneA := rfl
@[simp] theorem countAllocated_laneB (s : State) : (s.countAllocated).laneB = s.laneB := rfl
@[simp] theorem countAllocated_outfeedState (s : State) : (s.countAllocated).outfeedState = s.outfeedState := rfl
@[simp] theorem countAllocated_outfeedQueue (s : State) : (s.countAllocated).outfeedQueue = s.outfeedQueue := rfl
@[simp] theorem countAllocated_outfeedHeadInFlight (s : State) : (s.countAllocated).outfeedHeadInFlight = s.outfeedHeadInFlight := rfl
@[simp] theorem countAllocated_exits (s : State) : (s.countAllocated).exits = s.exits := rfl
@[simp] theorem countAllocated_claims (s : State) : (s.countAllocated).claims = s.claims := rfl
@[simp] theorem countAllocated_bays (s : State) : (s.countAllocated).bays = s.bays := rfl
@[simp] theorem countAllocated_requests (s : State) : (s.countAllocated).requests = s.requests := rfl
@[simp] theorem countAllocated_releases (s : State) : (s.countAllocated).releases = s.releases := rfl
@[simp] theorem countAllocated_intensifier1 (s : State) : (s.countAllocated).intensifier1 = s.intensifier1 := rfl
@[simp] theorem countAllocated_intensifier2 (s : State) : (s.countAllocated).intensifier2 = s.intensifier2 := rfl
@[simp] theorem countAllocated_stamper (s : State) : (s.countAllocated).stamper = s.stamper := rfl
@[simp] theorem countAllocated_defacer (s : State) : (s.countAllocated).defacer = s.defacer := rfl
@[simp] theorem countAllocated_guardClosed (s : State) : (s.countAllocated).guardClosed = s.guardClosed := rfl
@[simp] theorem countAllocated_choices (s : State) : (s.countAllocated).choices = s.choices := rfl

/-! ## raiseAlert -/

@[simp] theorem raiseAlert_pending (s : State) (source : Nat) (code : AlertCode) : (s.raiseAlert source code).pending = s.pending := rfl
@[simp] theorem raiseAlert_runState (s : State) (source : Nat) (code : AlertCode) : (s.raiseAlert source code).runState = s.runState := rfl
@[simp] theorem raiseAlert_eStopInput (s : State) (source : Nat) (code : AlertCode) : (s.raiseAlert source code).eStopInput = s.eStopInput := rfl
@[simp] theorem raiseAlert_lineSeconds (s : State) (source : Nat) (code : AlertCode) : (s.raiseAlert source code).lineSeconds = s.lineSeconds := rfl
@[simp] theorem raiseAlert_cmbWord (s : State) (source : Nat) (code : AlertCode) : (s.raiseAlert source code).cmbWord = s.cmbWord := rfl
@[simp] theorem raiseAlert_cmbFull (s : State) (source : Nat) (code : AlertCode) : (s.raiseAlert source code).cmbFull = s.cmbFull := rfl
@[simp] theorem raiseAlert_justEmptied (s : State) (source : Nat) (code : AlertCode) : (s.raiseAlert source code).justEmptied = s.justEmptied := rfl
@[simp] theorem raiseAlert_lastCommand (s : State) (source : Nat) (code : AlertCode) : (s.raiseAlert source code).lastCommand = s.lastCommand := rfl
@[simp] theorem raiseAlert_lastResult (s : State) (source : Nat) (code : AlertCode) : (s.raiseAlert source code).lastResult = s.lastResult := rfl
@[simp] theorem raiseAlert_overwriteFlag (s : State) (source : Nat) (code : AlertCode) : (s.raiseAlert source code).overwriteFlag = s.overwriteFlag := rfl
@[simp] theorem raiseAlert_interruptEnable (s : State) (source : Nat) (code : AlertCode) : (s.raiseAlert source code).interruptEnable = s.interruptEnable := rfl
@[simp] theorem raiseAlert_busReadData (s : State) (source : Nat) (code : AlertCode) : (s.raiseAlert source code).busReadData = s.busReadData := rfl
@[simp] theorem raiseAlert_interruptPulses (s : State) (source : Nat) (code : AlertCode) : (s.raiseAlert source code).interruptPulses = s.interruptPulses := rfl
@[simp] theorem raiseAlert_mem (s : State) (source : Nat) (code : AlertCode) : (s.raiseAlert source code).mem = s.mem := rfl
@[simp] theorem raiseAlert_slotCounts (s : State) (source : Nat) (code : AlertCode) : (s.raiseAlert source code).slotCounts = s.slotCounts := rfl
@[simp] theorem raiseAlert_settings (s : State) (source : Nat) (code : AlertCode) : (s.raiseAlert source code).settings = s.settings := rfl
@[simp] theorem raiseAlert_types (s : State) (source : Nat) (code : AlertCode) : (s.raiseAlert source code).types = s.types := rfl
@[simp] theorem raiseAlert_typeMask (s : State) (source : Nat) (code : AlertCode) : (s.raiseAlert source code).typeMask = s.typeMask := rfl
@[simp] theorem raiseAlert_templates (s : State) (source : Nat) (code : AlertCode) : (s.raiseAlert source code).templates = s.templates := rfl
@[simp] theorem raiseAlert_templateMask (s : State) (source : Nat) (code : AlertCode) : (s.raiseAlert source code).templateMask = s.templateMask := rfl
@[simp] theorem raiseAlert_tablesHeld (s : State) (source : Nat) (code : AlertCode) : (s.raiseAlert source code).tablesHeld = s.tablesHeld := rfl
@[simp] theorem raiseAlert_firstBad (s : State) (source : Nat) (code : AlertCode) : (s.raiseAlert source code).firstBad = s.firstBad := rfl
@[simp] theorem raiseAlert_date (s : State) (source : Nat) (code : AlertCode) : (s.raiseAlert source code).date = s.date := rfl
@[simp] theorem raiseAlert_readerA (s : State) (source : Nat) (code : AlertCode) : (s.raiseAlert source code).readerA = s.readerA := rfl
@[simp] theorem raiseAlert_readerB (s : State) (source : Nat) (code : AlertCode) : (s.raiseAlert source code).readerB = s.readerB := rfl
@[simp] theorem raiseAlert_expect (s : State) (source : Nat) (code : AlertCode) : (s.raiseAlert source code).expect = s.expect := rfl
@[simp] theorem raiseAlert_roster (s : State) (source : Nat) (code : AlertCode) : (s.raiseAlert source code).roster = s.roster := rfl
@[simp] theorem raiseAlert_freeCount (s : State) (source : Nat) (code : AlertCode) : (s.raiseAlert source code).freeCount = s.freeCount := rfl
@[simp] theorem raiseAlert_laneA (s : State) (source : Nat) (code : AlertCode) : (s.raiseAlert source code).laneA = s.laneA := rfl
@[simp] theorem raiseAlert_laneB (s : State) (source : Nat) (code : AlertCode) : (s.raiseAlert source code).laneB = s.laneB := rfl
@[simp] theorem raiseAlert_outfeedState (s : State) (source : Nat) (code : AlertCode) : (s.raiseAlert source code).outfeedState = s.outfeedState := rfl
@[simp] theorem raiseAlert_outfeedQueue (s : State) (source : Nat) (code : AlertCode) : (s.raiseAlert source code).outfeedQueue = s.outfeedQueue := rfl
@[simp] theorem raiseAlert_outfeedHeadInFlight (s : State) (source : Nat) (code : AlertCode) : (s.raiseAlert source code).outfeedHeadInFlight = s.outfeedHeadInFlight := rfl
@[simp] theorem raiseAlert_exits (s : State) (source : Nat) (code : AlertCode) : (s.raiseAlert source code).exits = s.exits := rfl
@[simp] theorem raiseAlert_claims (s : State) (source : Nat) (code : AlertCode) : (s.raiseAlert source code).claims = s.claims := rfl
@[simp] theorem raiseAlert_bays (s : State) (source : Nat) (code : AlertCode) : (s.raiseAlert source code).bays = s.bays := rfl
@[simp] theorem raiseAlert_requests (s : State) (source : Nat) (code : AlertCode) : (s.raiseAlert source code).requests = s.requests := rfl
@[simp] theorem raiseAlert_releases (s : State) (source : Nat) (code : AlertCode) : (s.raiseAlert source code).releases = s.releases := rfl
@[simp] theorem raiseAlert_intensifier1 (s : State) (source : Nat) (code : AlertCode) : (s.raiseAlert source code).intensifier1 = s.intensifier1 := rfl
@[simp] theorem raiseAlert_intensifier2 (s : State) (source : Nat) (code : AlertCode) : (s.raiseAlert source code).intensifier2 = s.intensifier2 := rfl
@[simp] theorem raiseAlert_stamper (s : State) (source : Nat) (code : AlertCode) : (s.raiseAlert source code).stamper = s.stamper := rfl
@[simp] theorem raiseAlert_defacer (s : State) (source : Nat) (code : AlertCode) : (s.raiseAlert source code).defacer = s.defacer := rfl
@[simp] theorem raiseAlert_guardClosed (s : State) (source : Nat) (code : AlertCode) : (s.raiseAlert source code).guardClosed = s.guardClosed := rfl
@[simp] theorem raiseAlert_choices (s : State) (source : Nat) (code : AlertCode) : (s.raiseAlert source code).choices = s.choices := rfl

/-! ## raiseOutcome -/

@[simp] theorem raiseOutcome_pending (s : State) (i : RosterIndex) (code : OutcomeCode) (reason : Reason) : (s.raiseOutcome i code reason).pending = s.pending := rfl
@[simp] theorem raiseOutcome_runState (s : State) (i : RosterIndex) (code : OutcomeCode) (reason : Reason) : (s.raiseOutcome i code reason).runState = s.runState := rfl
@[simp] theorem raiseOutcome_eStopInput (s : State) (i : RosterIndex) (code : OutcomeCode) (reason : Reason) : (s.raiseOutcome i code reason).eStopInput = s.eStopInput := rfl
@[simp] theorem raiseOutcome_lineSeconds (s : State) (i : RosterIndex) (code : OutcomeCode) (reason : Reason) : (s.raiseOutcome i code reason).lineSeconds = s.lineSeconds := rfl
@[simp] theorem raiseOutcome_cmbWord (s : State) (i : RosterIndex) (code : OutcomeCode) (reason : Reason) : (s.raiseOutcome i code reason).cmbWord = s.cmbWord := rfl
@[simp] theorem raiseOutcome_cmbFull (s : State) (i : RosterIndex) (code : OutcomeCode) (reason : Reason) : (s.raiseOutcome i code reason).cmbFull = s.cmbFull := rfl
@[simp] theorem raiseOutcome_justEmptied (s : State) (i : RosterIndex) (code : OutcomeCode) (reason : Reason) : (s.raiseOutcome i code reason).justEmptied = s.justEmptied := rfl
@[simp] theorem raiseOutcome_lastCommand (s : State) (i : RosterIndex) (code : OutcomeCode) (reason : Reason) : (s.raiseOutcome i code reason).lastCommand = s.lastCommand := rfl
@[simp] theorem raiseOutcome_lastResult (s : State) (i : RosterIndex) (code : OutcomeCode) (reason : Reason) : (s.raiseOutcome i code reason).lastResult = s.lastResult := rfl
@[simp] theorem raiseOutcome_overwriteFlag (s : State) (i : RosterIndex) (code : OutcomeCode) (reason : Reason) : (s.raiseOutcome i code reason).overwriteFlag = s.overwriteFlag := rfl
@[simp] theorem raiseOutcome_alertSeen (s : State) (i : RosterIndex) (code : OutcomeCode) (reason : Reason) : (s.raiseOutcome i code reason).alertSeen = s.alertSeen := rfl
@[simp] theorem raiseOutcome_interruptEnable (s : State) (i : RosterIndex) (code : OutcomeCode) (reason : Reason) : (s.raiseOutcome i code reason).interruptEnable = s.interruptEnable := rfl
@[simp] theorem raiseOutcome_busReadData (s : State) (i : RosterIndex) (code : OutcomeCode) (reason : Reason) : (s.raiseOutcome i code reason).busReadData = s.busReadData := rfl
@[simp] theorem raiseOutcome_interruptPulses (s : State) (i : RosterIndex) (code : OutcomeCode) (reason : Reason) : (s.raiseOutcome i code reason).interruptPulses = s.interruptPulses := rfl
@[simp] theorem raiseOutcome_mem (s : State) (i : RosterIndex) (code : OutcomeCode) (reason : Reason) : (s.raiseOutcome i code reason).mem = s.mem := rfl
@[simp] theorem raiseOutcome_slotCounts (s : State) (i : RosterIndex) (code : OutcomeCode) (reason : Reason) : (s.raiseOutcome i code reason).slotCounts = s.slotCounts := rfl
@[simp] theorem raiseOutcome_settings (s : State) (i : RosterIndex) (code : OutcomeCode) (reason : Reason) : (s.raiseOutcome i code reason).settings = s.settings := rfl
@[simp] theorem raiseOutcome_types (s : State) (i : RosterIndex) (code : OutcomeCode) (reason : Reason) : (s.raiseOutcome i code reason).types = s.types := rfl
@[simp] theorem raiseOutcome_typeMask (s : State) (i : RosterIndex) (code : OutcomeCode) (reason : Reason) : (s.raiseOutcome i code reason).typeMask = s.typeMask := rfl
@[simp] theorem raiseOutcome_templates (s : State) (i : RosterIndex) (code : OutcomeCode) (reason : Reason) : (s.raiseOutcome i code reason).templates = s.templates := rfl
@[simp] theorem raiseOutcome_templateMask (s : State) (i : RosterIndex) (code : OutcomeCode) (reason : Reason) : (s.raiseOutcome i code reason).templateMask = s.templateMask := rfl
@[simp] theorem raiseOutcome_tablesHeld (s : State) (i : RosterIndex) (code : OutcomeCode) (reason : Reason) : (s.raiseOutcome i code reason).tablesHeld = s.tablesHeld := rfl
@[simp] theorem raiseOutcome_firstBad (s : State) (i : RosterIndex) (code : OutcomeCode) (reason : Reason) : (s.raiseOutcome i code reason).firstBad = s.firstBad := rfl
@[simp] theorem raiseOutcome_date (s : State) (i : RosterIndex) (code : OutcomeCode) (reason : Reason) : (s.raiseOutcome i code reason).date = s.date := rfl
@[simp] theorem raiseOutcome_readerA (s : State) (i : RosterIndex) (code : OutcomeCode) (reason : Reason) : (s.raiseOutcome i code reason).readerA = s.readerA := rfl
@[simp] theorem raiseOutcome_readerB (s : State) (i : RosterIndex) (code : OutcomeCode) (reason : Reason) : (s.raiseOutcome i code reason).readerB = s.readerB := rfl
@[simp] theorem raiseOutcome_expect (s : State) (i : RosterIndex) (code : OutcomeCode) (reason : Reason) : (s.raiseOutcome i code reason).expect = s.expect := rfl
@[simp] theorem raiseOutcome_roster (s : State) (i : RosterIndex) (code : OutcomeCode) (reason : Reason) : (s.raiseOutcome i code reason).roster = s.roster := rfl
@[simp] theorem raiseOutcome_freeCount (s : State) (i : RosterIndex) (code : OutcomeCode) (reason : Reason) : (s.raiseOutcome i code reason).freeCount = s.freeCount := rfl
@[simp] theorem raiseOutcome_laneA (s : State) (i : RosterIndex) (code : OutcomeCode) (reason : Reason) : (s.raiseOutcome i code reason).laneA = s.laneA := rfl
@[simp] theorem raiseOutcome_laneB (s : State) (i : RosterIndex) (code : OutcomeCode) (reason : Reason) : (s.raiseOutcome i code reason).laneB = s.laneB := rfl
@[simp] theorem raiseOutcome_outfeedState (s : State) (i : RosterIndex) (code : OutcomeCode) (reason : Reason) : (s.raiseOutcome i code reason).outfeedState = s.outfeedState := rfl
@[simp] theorem raiseOutcome_outfeedQueue (s : State) (i : RosterIndex) (code : OutcomeCode) (reason : Reason) : (s.raiseOutcome i code reason).outfeedQueue = s.outfeedQueue := rfl
@[simp] theorem raiseOutcome_outfeedHeadInFlight (s : State) (i : RosterIndex) (code : OutcomeCode) (reason : Reason) : (s.raiseOutcome i code reason).outfeedHeadInFlight = s.outfeedHeadInFlight := rfl
@[simp] theorem raiseOutcome_exits (s : State) (i : RosterIndex) (code : OutcomeCode) (reason : Reason) : (s.raiseOutcome i code reason).exits = s.exits := rfl
@[simp] theorem raiseOutcome_claims (s : State) (i : RosterIndex) (code : OutcomeCode) (reason : Reason) : (s.raiseOutcome i code reason).claims = s.claims := rfl
@[simp] theorem raiseOutcome_bays (s : State) (i : RosterIndex) (code : OutcomeCode) (reason : Reason) : (s.raiseOutcome i code reason).bays = s.bays := rfl
@[simp] theorem raiseOutcome_requests (s : State) (i : RosterIndex) (code : OutcomeCode) (reason : Reason) : (s.raiseOutcome i code reason).requests = s.requests := rfl
@[simp] theorem raiseOutcome_releases (s : State) (i : RosterIndex) (code : OutcomeCode) (reason : Reason) : (s.raiseOutcome i code reason).releases = s.releases := rfl
@[simp] theorem raiseOutcome_intensifier1 (s : State) (i : RosterIndex) (code : OutcomeCode) (reason : Reason) : (s.raiseOutcome i code reason).intensifier1 = s.intensifier1 := rfl
@[simp] theorem raiseOutcome_intensifier2 (s : State) (i : RosterIndex) (code : OutcomeCode) (reason : Reason) : (s.raiseOutcome i code reason).intensifier2 = s.intensifier2 := rfl
@[simp] theorem raiseOutcome_stamper (s : State) (i : RosterIndex) (code : OutcomeCode) (reason : Reason) : (s.raiseOutcome i code reason).stamper = s.stamper := rfl
@[simp] theorem raiseOutcome_defacer (s : State) (i : RosterIndex) (code : OutcomeCode) (reason : Reason) : (s.raiseOutcome i code reason).defacer = s.defacer := rfl
@[simp] theorem raiseOutcome_guardClosed (s : State) (i : RosterIndex) (code : OutcomeCode) (reason : Reason) : (s.raiseOutcome i code reason).guardClosed = s.guardClosed := rfl
@[simp] theorem raiseOutcome_choices (s : State) (i : RosterIndex) (code : OutcomeCode) (reason : Reason) : (s.raiseOutcome i code reason).choices = s.choices := rfl

/-! ## publish -/

@[simp] theorem publish_pending (s : State) (t : State) : (s.publish t).pending = t.pending := rfl
@[simp] theorem publish_runState (s : State) (t : State) : (s.publish t).runState = t.runState := rfl
@[simp] theorem publish_eStopInput (s : State) (t : State) : (s.publish t).eStopInput = t.eStopInput := rfl
@[simp] theorem publish_lineSeconds (s : State) (t : State) : (s.publish t).lineSeconds = t.lineSeconds := rfl
@[simp] theorem publish_cmbWord (s : State) (t : State) : (s.publish t).cmbWord = t.cmbWord := rfl
@[simp] theorem publish_cmbFull (s : State) (t : State) : (s.publish t).cmbFull = t.cmbFull := rfl
@[simp] theorem publish_lastCommand (s : State) (t : State) : (s.publish t).lastCommand = t.lastCommand := rfl
@[simp] theorem publish_lastResult (s : State) (t : State) : (s.publish t).lastResult = t.lastResult := rfl
@[simp] theorem publish_overwriteFlag (s : State) (t : State) : (s.publish t).overwriteFlag = t.overwriteFlag := rfl
@[simp] theorem publish_alertSeen (s : State) (t : State) : (s.publish t).alertSeen = t.alertSeen := rfl
@[simp] theorem publish_interruptEnable (s : State) (t : State) : (s.publish t).interruptEnable = t.interruptEnable := rfl
@[simp] theorem publish_busReadData (s : State) (t : State) : (s.publish t).busReadData = t.busReadData := rfl
@[simp] theorem publish_interruptPulses (s : State) (t : State) : (s.publish t).interruptPulses = t.interruptPulses := rfl
@[simp] theorem publish_slotCounts (s : State) (t : State) : (s.publish t).slotCounts = t.slotCounts := rfl
@[simp] theorem publish_notices (s : State) (t : State) : (s.publish t).notices = t.notices := rfl
@[simp] theorem publish_nmb (s : State) (t : State) : (s.publish t).nmb = t.nmb := rfl
@[simp] theorem publish_settings (s : State) (t : State) : (s.publish t).settings = t.settings := rfl
@[simp] theorem publish_types (s : State) (t : State) : (s.publish t).types = t.types := rfl
@[simp] theorem publish_typeMask (s : State) (t : State) : (s.publish t).typeMask = t.typeMask := rfl
@[simp] theorem publish_templates (s : State) (t : State) : (s.publish t).templates = t.templates := rfl
@[simp] theorem publish_templateMask (s : State) (t : State) : (s.publish t).templateMask = t.templateMask := rfl
@[simp] theorem publish_tablesHeld (s : State) (t : State) : (s.publish t).tablesHeld = t.tablesHeld := rfl
@[simp] theorem publish_firstBad (s : State) (t : State) : (s.publish t).firstBad = t.firstBad := rfl
@[simp] theorem publish_date (s : State) (t : State) : (s.publish t).date = t.date := rfl
@[simp] theorem publish_readerA (s : State) (t : State) : (s.publish t).readerA = t.readerA := rfl
@[simp] theorem publish_readerB (s : State) (t : State) : (s.publish t).readerB = t.readerB := rfl
@[simp] theorem publish_expect (s : State) (t : State) : (s.publish t).expect = t.expect := rfl
@[simp] theorem publish_roster (s : State) (t : State) : (s.publish t).roster = t.roster := rfl
@[simp] theorem publish_freeCount (s : State) (t : State) : (s.publish t).freeCount = t.freeCount := rfl
@[simp] theorem publish_outfeedState (s : State) (t : State) : (s.publish t).outfeedState = t.outfeedState := rfl
@[simp] theorem publish_outfeedQueue (s : State) (t : State) : (s.publish t).outfeedQueue = t.outfeedQueue := rfl
@[simp] theorem publish_outfeedHeadInFlight (s : State) (t : State) : (s.publish t).outfeedHeadInFlight = t.outfeedHeadInFlight := rfl
@[simp] theorem publish_exits (s : State) (t : State) : (s.publish t).exits = t.exits := rfl
@[simp] theorem publish_claims (s : State) (t : State) : (s.publish t).claims = t.claims := rfl
@[simp] theorem publish_requests (s : State) (t : State) : (s.publish t).requests = t.requests := rfl
@[simp] theorem publish_releases (s : State) (t : State) : (s.publish t).releases = t.releases := rfl
@[simp] theorem publish_guardClosed (s : State) (t : State) : (s.publish t).guardClosed = t.guardClosed := rfl
@[simp] theorem publish_choices (s : State) (t : State) : (s.publish t).choices = t.choices := rfl

/-! ## The views of a state -/

@[simp] theorem setLane_reader (s : State) (l : LaneId) (x : Lane) (m : LaneId) : (s.setLane l x).reader m = s.reader m := rfl
@[simp] theorem setLane_intensifier (s : State) (l : LaneId) (x : Lane) (j : IntensifierId) : (s.setLane l x).intensifier j = s.intensifier j := rfl
@[simp] theorem setLane_station (s : State) (l : LaneId) (x : Lane) (u : StationId) : (s.setLane l x).station u = s.station u := rfl
@[simp] theorem setLane_bay (s : State) (l : LaneId) (x : Lane) (m : BayId) : (s.setLane l x).bay m = s.bay m := rfl
@[simp] theorem setLane_entry (s : State) (l : LaneId) (x : Lane) (j : RosterIndex) : (s.setLane l x).entry j = s.entry j := rfl
@[simp] theorem setLane_after (s : State) (l : LaneId) (x : Lane) (k : Nat) : (s.setLane l x).after k = s.after k := rfl
@[simp] theorem setLane_due (s : State) (l : LaneId) (x : Lane) (q : Option Seconds) : (s.setLane l x).due q = s.due q := rfl
@[simp] theorem setLane_stopped (s : State) (l : LaneId) (x : Lane) : (s.setLane l x).stopped = s.stopped := rfl
@[simp] theorem setLane_work (s : State) (l : LaneId) (x : Lane) : (s.setLane l x).work = s.work := rfl
@[simp] theorem setLane_allowance (s : State) (l : LaneId) (x : Lane) (p : Params) : (s.setLane l x).allowance p = s.allowance p := rfl
@[simp] theorem setLane_bayParams (s : State) (l : LaneId) (x : Lane) (m : BayId) : (s.setLane l x).bayParams m = s.bayParams m := rfl
@[simp] theorem setLane_short (s : State) (l : LaneId) (x : Lane) (m : BayId) : (s.setLane l x).short m = s.short m := rfl
@[simp] theorem setLane_testPressure (s : State) (l : LaneId) (x : Lane) (m : BayId) : (s.setLane l x).testPressure m = s.testPressure m := rfl
@[simp] theorem setReader_lane (s : State) (l : LaneId) (x : Reader) (m : LaneId) : (s.setReader l x).lane m = s.lane m := rfl
@[simp] theorem setReader_intensifier (s : State) (l : LaneId) (x : Reader) (j : IntensifierId) : (s.setReader l x).intensifier j = s.intensifier j := rfl
@[simp] theorem setReader_station (s : State) (l : LaneId) (x : Reader) (u : StationId) : (s.setReader l x).station u = s.station u := rfl
@[simp] theorem setReader_bay (s : State) (l : LaneId) (x : Reader) (m : BayId) : (s.setReader l x).bay m = s.bay m := rfl
@[simp] theorem setReader_entry (s : State) (l : LaneId) (x : Reader) (j : RosterIndex) : (s.setReader l x).entry j = s.entry j := rfl
@[simp] theorem setReader_after (s : State) (l : LaneId) (x : Reader) (k : Nat) : (s.setReader l x).after k = s.after k := rfl
@[simp] theorem setReader_due (s : State) (l : LaneId) (x : Reader) (q : Option Seconds) : (s.setReader l x).due q = s.due q := rfl
@[simp] theorem setReader_stopped (s : State) (l : LaneId) (x : Reader) : (s.setReader l x).stopped = s.stopped := rfl
@[simp] theorem setReader_work (s : State) (l : LaneId) (x : Reader) : (s.setReader l x).work = s.work := rfl
@[simp] theorem setReader_allowance (s : State) (l : LaneId) (x : Reader) (p : Params) : (s.setReader l x).allowance p = s.allowance p := rfl
@[simp] theorem setReader_bayParams (s : State) (l : LaneId) (x : Reader) (m : BayId) : (s.setReader l x).bayParams m = s.bayParams m := rfl
@[simp] theorem setReader_short (s : State) (l : LaneId) (x : Reader) (m : BayId) : (s.setReader l x).short m = s.short m := rfl
@[simp] theorem setReader_testPressure (s : State) (l : LaneId) (x : Reader) (m : BayId) : (s.setReader l x).testPressure m = s.testPressure m := rfl
@[simp] theorem setIntensifier_lane (s : State) (i : IntensifierId) (x : Intensifier) (m : LaneId) : (s.setIntensifier i x).lane m = s.lane m := rfl
@[simp] theorem setIntensifier_reader (s : State) (i : IntensifierId) (x : Intensifier) (m : LaneId) : (s.setIntensifier i x).reader m = s.reader m := rfl
@[simp] theorem setIntensifier_station (s : State) (i : IntensifierId) (x : Intensifier) (u : StationId) : (s.setIntensifier i x).station u = s.station u := rfl
@[simp] theorem setIntensifier_bay (s : State) (i : IntensifierId) (x : Intensifier) (m : BayId) : (s.setIntensifier i x).bay m = s.bay m := rfl
@[simp] theorem setIntensifier_entry (s : State) (i : IntensifierId) (x : Intensifier) (j : RosterIndex) : (s.setIntensifier i x).entry j = s.entry j := rfl
@[simp] theorem setIntensifier_after (s : State) (i : IntensifierId) (x : Intensifier) (k : Nat) : (s.setIntensifier i x).after k = s.after k := rfl
@[simp] theorem setIntensifier_due (s : State) (i : IntensifierId) (x : Intensifier) (q : Option Seconds) : (s.setIntensifier i x).due q = s.due q := rfl
@[simp] theorem setIntensifier_stopped (s : State) (i : IntensifierId) (x : Intensifier) : (s.setIntensifier i x).stopped = s.stopped := rfl
@[simp] theorem setIntensifier_work (s : State) (i : IntensifierId) (x : Intensifier) : (s.setIntensifier i x).work = s.work := rfl
@[simp] theorem setIntensifier_allowance (s : State) (i : IntensifierId) (x : Intensifier) (p : Params) : (s.setIntensifier i x).allowance p = s.allowance p := rfl
@[simp] theorem setIntensifier_bayParams (s : State) (i : IntensifierId) (x : Intensifier) (m : BayId) : (s.setIntensifier i x).bayParams m = s.bayParams m := rfl
@[simp] theorem setIntensifier_short (s : State) (i : IntensifierId) (x : Intensifier) (m : BayId) : (s.setIntensifier i x).short m = s.short m := rfl
@[simp] theorem setIntensifier_testPressure (s : State) (i : IntensifierId) (x : Intensifier) (m : BayId) : (s.setIntensifier i x).testPressure m = s.testPressure m := rfl
@[simp] theorem setStation_lane (s : State) (st : StationId) (x : Station) (m : LaneId) : (s.setStation st x).lane m = s.lane m := rfl
@[simp] theorem setStation_reader (s : State) (st : StationId) (x : Station) (m : LaneId) : (s.setStation st x).reader m = s.reader m := rfl
@[simp] theorem setStation_intensifier (s : State) (st : StationId) (x : Station) (j : IntensifierId) : (s.setStation st x).intensifier j = s.intensifier j := rfl
@[simp] theorem setStation_bay (s : State) (st : StationId) (x : Station) (m : BayId) : (s.setStation st x).bay m = s.bay m := rfl
@[simp] theorem setStation_entry (s : State) (st : StationId) (x : Station) (j : RosterIndex) : (s.setStation st x).entry j = s.entry j := rfl
@[simp] theorem setStation_after (s : State) (st : StationId) (x : Station) (k : Nat) : (s.setStation st x).after k = s.after k := rfl
@[simp] theorem setStation_due (s : State) (st : StationId) (x : Station) (q : Option Seconds) : (s.setStation st x).due q = s.due q := rfl
@[simp] theorem setStation_stopped (s : State) (st : StationId) (x : Station) : (s.setStation st x).stopped = s.stopped := rfl
@[simp] theorem setStation_work (s : State) (st : StationId) (x : Station) : (s.setStation st x).work = s.work := rfl
@[simp] theorem setStation_allowance (s : State) (st : StationId) (x : Station) (p : Params) : (s.setStation st x).allowance p = s.allowance p := rfl
@[simp] theorem setStation_bayParams (s : State) (st : StationId) (x : Station) (m : BayId) : (s.setStation st x).bayParams m = s.bayParams m := rfl
@[simp] theorem setStation_short (s : State) (st : StationId) (x : Station) (m : BayId) : (s.setStation st x).short m = s.short m := rfl
@[simp] theorem setStation_testPressure (s : State) (st : StationId) (x : Station) (m : BayId) : (s.setStation st x).testPressure m = s.testPressure m := rfl
@[simp] theorem setBay_lane (s : State) (n : BayId) (b : Bay) (m : LaneId) : (s.setBay n b).lane m = s.lane m := rfl
@[simp] theorem setBay_reader (s : State) (n : BayId) (b : Bay) (m : LaneId) : (s.setBay n b).reader m = s.reader m := rfl
@[simp] theorem setBay_intensifier (s : State) (n : BayId) (b : Bay) (j : IntensifierId) : (s.setBay n b).intensifier j = s.intensifier j := rfl
@[simp] theorem setBay_station (s : State) (n : BayId) (b : Bay) (u : StationId) : (s.setBay n b).station u = s.station u := rfl
@[simp] theorem setBay_entry (s : State) (n : BayId) (b : Bay) (j : RosterIndex) : (s.setBay n b).entry j = s.entry j := rfl
@[simp] theorem setBay_after (s : State) (n : BayId) (b : Bay) (k : Nat) : (s.setBay n b).after k = s.after k := rfl
@[simp] theorem setBay_due (s : State) (n : BayId) (b : Bay) (q : Option Seconds) : (s.setBay n b).due q = s.due q := rfl
@[simp] theorem setBay_stopped (s : State) (n : BayId) (b : Bay) : (s.setBay n b).stopped = s.stopped := rfl
@[simp] theorem setBay_work (s : State) (n : BayId) (b : Bay) : (s.setBay n b).work = s.work := rfl
@[simp] theorem setBay_allowance (s : State) (n : BayId) (b : Bay) (p : Params) : (s.setBay n b).allowance p = s.allowance p := rfl
@[simp] theorem setEntry_lane (s : State) (i : RosterIndex) (e : Entry) (m : LaneId) : (s.setEntry i e).lane m = s.lane m := rfl
@[simp] theorem setEntry_reader (s : State) (i : RosterIndex) (e : Entry) (m : LaneId) : (s.setEntry i e).reader m = s.reader m := rfl
@[simp] theorem setEntry_intensifier (s : State) (i : RosterIndex) (e : Entry) (j : IntensifierId) : (s.setEntry i e).intensifier j = s.intensifier j := rfl
@[simp] theorem setEntry_station (s : State) (i : RosterIndex) (e : Entry) (u : StationId) : (s.setEntry i e).station u = s.station u := rfl
@[simp] theorem setEntry_bay (s : State) (i : RosterIndex) (e : Entry) (m : BayId) : (s.setEntry i e).bay m = s.bay m := rfl
@[simp] theorem setEntry_after (s : State) (i : RosterIndex) (e : Entry) (k : Nat) : (s.setEntry i e).after k = s.after k := rfl
@[simp] theorem setEntry_due (s : State) (i : RosterIndex) (e : Entry) (q : Option Seconds) : (s.setEntry i e).due q = s.due q := rfl
@[simp] theorem setEntry_stopped (s : State) (i : RosterIndex) (e : Entry) : (s.setEntry i e).stopped = s.stopped := rfl
@[simp] theorem setEntry_work (s : State) (i : RosterIndex) (e : Entry) : (s.setEntry i e).work = s.work := rfl
@[simp] theorem setEntry_allowance (s : State) (i : RosterIndex) (e : Entry) (p : Params) : (s.setEntry i e).allowance p = s.allowance p := rfl
@[simp] theorem headerEdit_lane (s : State) (m : LaneId) : (s.headerEdit).lane m = s.lane m := rfl
@[simp] theorem headerEdit_reader (s : State) (m : LaneId) : (s.headerEdit).reader m = s.reader m := rfl
@[simp] theorem headerEdit_intensifier (s : State) (j : IntensifierId) : (s.headerEdit).intensifier j = s.intensifier j := rfl
@[simp] theorem headerEdit_station (s : State) (u : StationId) : (s.headerEdit).station u = s.station u := rfl
@[simp] theorem headerEdit_bay (s : State) (m : BayId) : (s.headerEdit).bay m = s.bay m := rfl
@[simp] theorem headerEdit_entry (s : State) (j : RosterIndex) : (s.headerEdit).entry j = s.entry j := rfl
@[simp] theorem headerEdit_after (s : State) (k : Nat) : (s.headerEdit).after k = s.after k := rfl
@[simp] theorem headerEdit_due (s : State) (q : Option Seconds) : (s.headerEdit).due q = s.due q := rfl
@[simp] theorem headerEdit_stopped (s : State) : (s.headerEdit).stopped = s.stopped := rfl
@[simp] theorem headerEdit_work (s : State) : (s.headerEdit).work = s.work := rfl
@[simp] theorem headerEdit_allowance (s : State) (p : Params) : (s.headerEdit).allowance p = s.allowance p := rfl
@[simp] theorem headerEdit_bayParams (s : State) (m : BayId) : (s.headerEdit).bayParams m = s.bayParams m := rfl
@[simp] theorem headerEdit_short (s : State) (m : BayId) : (s.headerEdit).short m = s.short m := rfl
@[simp] theorem headerEdit_testPressure (s : State) (m : BayId) : (s.headerEdit).testPressure m = s.testPressure m := rfl
@[simp] theorem setRunState_lane (s : State) (r : RunState) (m : LaneId) : (s.setRunState r).lane m = s.lane m := rfl
@[simp] theorem setRunState_reader (s : State) (r : RunState) (m : LaneId) : (s.setRunState r).reader m = s.reader m := rfl
@[simp] theorem setRunState_intensifier (s : State) (r : RunState) (j : IntensifierId) : (s.setRunState r).intensifier j = s.intensifier j := rfl
@[simp] theorem setRunState_station (s : State) (r : RunState) (u : StationId) : (s.setRunState r).station u = s.station u := rfl
@[simp] theorem setRunState_bay (s : State) (r : RunState) (m : BayId) : (s.setRunState r).bay m = s.bay m := rfl
@[simp] theorem setRunState_entry (s : State) (r : RunState) (j : RosterIndex) : (s.setRunState r).entry j = s.entry j := rfl
@[simp] theorem setRunState_after (s : State) (r : RunState) (k : Nat) : (s.setRunState r).after k = s.after k := rfl
@[simp] theorem setRunState_due (s : State) (r : RunState) (q : Option Seconds) : (s.setRunState r).due q = s.due q := rfl
@[simp] theorem setRunState_work (s : State) (r : RunState) : (s.setRunState r).work = s.work := rfl
@[simp] theorem setRunState_allowance (s : State) (r : RunState) (p : Params) : (s.setRunState r).allowance p = s.allowance p := rfl
@[simp] theorem setRunState_bayParams (s : State) (r : RunState) (m : BayId) : (s.setRunState r).bayParams m = s.bayParams m := rfl
@[simp] theorem setRunState_short (s : State) (r : RunState) (m : BayId) : (s.setRunState r).short m = s.short m := rfl
@[simp] theorem setRunState_testPressure (s : State) (r : RunState) (m : BayId) : (s.setRunState r).testPressure m = s.testPressure m := rfl
@[simp] theorem withNotices_lane (s : State) (l : List Notice) (m : LaneId) : (s.withNotices l).lane m = s.lane m := rfl
@[simp] theorem withNotices_reader (s : State) (l : List Notice) (m : LaneId) : (s.withNotices l).reader m = s.reader m := rfl
@[simp] theorem withNotices_intensifier (s : State) (l : List Notice) (j : IntensifierId) : (s.withNotices l).intensifier j = s.intensifier j := rfl
@[simp] theorem withNotices_station (s : State) (l : List Notice) (u : StationId) : (s.withNotices l).station u = s.station u := rfl
@[simp] theorem withNotices_bay (s : State) (l : List Notice) (m : BayId) : (s.withNotices l).bay m = s.bay m := rfl
@[simp] theorem withNotices_entry (s : State) (l : List Notice) (j : RosterIndex) : (s.withNotices l).entry j = s.entry j := rfl
@[simp] theorem withNotices_after (s : State) (l : List Notice) (k : Nat) : (s.withNotices l).after k = s.after k := rfl
@[simp] theorem withNotices_due (s : State) (l : List Notice) (q : Option Seconds) : (s.withNotices l).due q = s.due q := rfl
@[simp] theorem withNotices_stopped (s : State) (l : List Notice) : (s.withNotices l).stopped = s.stopped := rfl
@[simp] theorem withNotices_work (s : State) (l : List Notice) : (s.withNotices l).work = s.work := rfl
@[simp] theorem withNotices_allowance (s : State) (l : List Notice) (p : Params) : (s.withNotices l).allowance p = s.allowance p := rfl
@[simp] theorem withNotices_bayParams (s : State) (l : List Notice) (m : BayId) : (s.withNotices l).bayParams m = s.bayParams m := rfl
@[simp] theorem withNotices_short (s : State) (l : List Notice) (m : BayId) : (s.withNotices l).short m = s.short m := rfl
@[simp] theorem withNotices_testPressure (s : State) (l : List Notice) (m : BayId) : (s.withNotices l).testPressure m = s.testPressure m := rfl
@[simp] theorem writePlain_lane (s : State) (a : Nat) (b : Byte) (m : LaneId) : (s.writePlain a b).lane m = s.lane m := rfl
@[simp] theorem writePlain_reader (s : State) (a : Nat) (b : Byte) (m : LaneId) : (s.writePlain a b).reader m = s.reader m := rfl
@[simp] theorem writePlain_intensifier (s : State) (a : Nat) (b : Byte) (j : IntensifierId) : (s.writePlain a b).intensifier j = s.intensifier j := rfl
@[simp] theorem writePlain_station (s : State) (a : Nat) (b : Byte) (u : StationId) : (s.writePlain a b).station u = s.station u := rfl
@[simp] theorem writePlain_bay (s : State) (a : Nat) (b : Byte) (m : BayId) : (s.writePlain a b).bay m = s.bay m := rfl
@[simp] theorem writePlain_entry (s : State) (a : Nat) (b : Byte) (j : RosterIndex) : (s.writePlain a b).entry j = s.entry j := rfl
@[simp] theorem writePlain_after (s : State) (a : Nat) (b : Byte) (k : Nat) : (s.writePlain a b).after k = s.after k := rfl
@[simp] theorem writePlain_due (s : State) (a : Nat) (b : Byte) (q : Option Seconds) : (s.writePlain a b).due q = s.due q := rfl
@[simp] theorem writePlain_stopped (s : State) (a : Nat) (b : Byte) : (s.writePlain a b).stopped = s.stopped := rfl
@[simp] theorem writePlain_work (s : State) (a : Nat) (b : Byte) : (s.writePlain a b).work = s.work := rfl
@[simp] theorem writePlain_allowance (s : State) (a : Nat) (b : Byte) (p : Params) : (s.writePlain a b).allowance p = s.allowance p := rfl
@[simp] theorem writePlain_bayParams (s : State) (a : Nat) (b : Byte) (m : BayId) : (s.writePlain a b).bayParams m = s.bayParams m := rfl
@[simp] theorem writePlain_short (s : State) (a : Nat) (b : Byte) (m : BayId) : (s.writePlain a b).short m = s.short m := rfl
@[simp] theorem writePlain_testPressure (s : State) (a : Nat) (b : Byte) (m : BayId) : (s.writePlain a b).testPressure m = s.testPressure m := rfl
@[simp] theorem markEmptied_lane (s : State) (b : Bool) (m : LaneId) : (s.markEmptied b).lane m = s.lane m := rfl
@[simp] theorem markEmptied_reader (s : State) (b : Bool) (m : LaneId) : (s.markEmptied b).reader m = s.reader m := rfl
@[simp] theorem markEmptied_intensifier (s : State) (b : Bool) (j : IntensifierId) : (s.markEmptied b).intensifier j = s.intensifier j := rfl
@[simp] theorem markEmptied_station (s : State) (b : Bool) (u : StationId) : (s.markEmptied b).station u = s.station u := rfl
@[simp] theorem markEmptied_bay (s : State) (b : Bool) (m : BayId) : (s.markEmptied b).bay m = s.bay m := rfl
@[simp] theorem markEmptied_entry (s : State) (b : Bool) (j : RosterIndex) : (s.markEmptied b).entry j = s.entry j := rfl
@[simp] theorem markEmptied_after (s : State) (b : Bool) (k : Nat) : (s.markEmptied b).after k = s.after k := rfl
@[simp] theorem markEmptied_due (s : State) (b : Bool) (q : Option Seconds) : (s.markEmptied b).due q = s.due q := rfl
@[simp] theorem markEmptied_stopped (s : State) (b : Bool) : (s.markEmptied b).stopped = s.stopped := rfl
@[simp] theorem markEmptied_work (s : State) (b : Bool) : (s.markEmptied b).work = s.work := rfl
@[simp] theorem markEmptied_allowance (s : State) (b : Bool) (p : Params) : (s.markEmptied b).allowance p = s.allowance p := rfl
@[simp] theorem markEmptied_bayParams (s : State) (b : Bool) (m : BayId) : (s.markEmptied b).bayParams m = s.bayParams m := rfl
@[simp] theorem markEmptied_short (s : State) (b : Bool) (m : BayId) : (s.markEmptied b).short m = s.short m := rfl
@[simp] theorem markEmptied_testPressure (s : State) (b : Bool) (m : BayId) : (s.markEmptied b).testPressure m = s.testPressure m := rfl
@[simp] theorem placeClaim_lane (s : State) (c : Claimant) (m : LaneId) : (s.placeClaim c).lane m = s.lane m := rfl
@[simp] theorem placeClaim_reader (s : State) (c : Claimant) (m : LaneId) : (s.placeClaim c).reader m = s.reader m := rfl
@[simp] theorem placeClaim_intensifier (s : State) (c : Claimant) (j : IntensifierId) : (s.placeClaim c).intensifier j = s.intensifier j := rfl
@[simp] theorem placeClaim_station (s : State) (c : Claimant) (u : StationId) : (s.placeClaim c).station u = s.station u := rfl
@[simp] theorem placeClaim_bay (s : State) (c : Claimant) (m : BayId) : (s.placeClaim c).bay m = s.bay m := rfl
@[simp] theorem placeClaim_entry (s : State) (c : Claimant) (j : RosterIndex) : (s.placeClaim c).entry j = s.entry j := rfl
@[simp] theorem placeClaim_after (s : State) (c : Claimant) (k : Nat) : (s.placeClaim c).after k = s.after k := rfl
@[simp] theorem placeClaim_due (s : State) (c : Claimant) (q : Option Seconds) : (s.placeClaim c).due q = s.due q := rfl
@[simp] theorem placeClaim_stopped (s : State) (c : Claimant) : (s.placeClaim c).stopped = s.stopped := rfl
@[simp] theorem placeClaim_work (s : State) (c : Claimant) : (s.placeClaim c).work = s.work := rfl
@[simp] theorem placeClaim_allowance (s : State) (c : Claimant) (p : Params) : (s.placeClaim c).allowance p = s.allowance p := rfl
@[simp] theorem placeClaim_bayParams (s : State) (c : Claimant) (m : BayId) : (s.placeClaim c).bayParams m = s.bayParams m := rfl
@[simp] theorem placeClaim_short (s : State) (c : Claimant) (m : BayId) : (s.placeClaim c).short m = s.short m := rfl
@[simp] theorem placeClaim_testPressure (s : State) (c : Claimant) (m : BayId) : (s.placeClaim c).testPressure m = s.testPressure m := rfl
@[simp] theorem withdrawClaim_lane (s : State) (c : Claimant) (m : LaneId) : (s.withdrawClaim c).lane m = s.lane m := rfl
@[simp] theorem withdrawClaim_reader (s : State) (c : Claimant) (m : LaneId) : (s.withdrawClaim c).reader m = s.reader m := rfl
@[simp] theorem withdrawClaim_intensifier (s : State) (c : Claimant) (j : IntensifierId) : (s.withdrawClaim c).intensifier j = s.intensifier j := rfl
@[simp] theorem withdrawClaim_station (s : State) (c : Claimant) (u : StationId) : (s.withdrawClaim c).station u = s.station u := rfl
@[simp] theorem withdrawClaim_bay (s : State) (c : Claimant) (m : BayId) : (s.withdrawClaim c).bay m = s.bay m := rfl
@[simp] theorem withdrawClaim_entry (s : State) (c : Claimant) (j : RosterIndex) : (s.withdrawClaim c).entry j = s.entry j := rfl
@[simp] theorem withdrawClaim_after (s : State) (c : Claimant) (k : Nat) : (s.withdrawClaim c).after k = s.after k := rfl
@[simp] theorem withdrawClaim_due (s : State) (c : Claimant) (q : Option Seconds) : (s.withdrawClaim c).due q = s.due q := rfl
@[simp] theorem withdrawClaim_stopped (s : State) (c : Claimant) : (s.withdrawClaim c).stopped = s.stopped := rfl
@[simp] theorem withdrawClaim_work (s : State) (c : Claimant) : (s.withdrawClaim c).work = s.work := rfl
@[simp] theorem withdrawClaim_allowance (s : State) (c : Claimant) (p : Params) : (s.withdrawClaim c).allowance p = s.allowance p := rfl
@[simp] theorem withdrawClaim_bayParams (s : State) (c : Claimant) (m : BayId) : (s.withdrawClaim c).bayParams m = s.bayParams m := rfl
@[simp] theorem withdrawClaim_short (s : State) (c : Claimant) (m : BayId) : (s.withdrawClaim c).short m = s.short m := rfl
@[simp] theorem withdrawClaim_testPressure (s : State) (c : Claimant) (m : BayId) : (s.withdrawClaim c).testPressure m = s.testPressure m := rfl
@[simp] theorem mapTransits_reader (s : State) (f : Transit → Transit) (m : LaneId) : (s.mapTransits f).reader m = s.reader m := rfl
@[simp] theorem mapTransits_intensifier (s : State) (f : Transit → Transit) (j : IntensifierId) : (s.mapTransits f).intensifier j = s.intensifier j := rfl
@[simp] theorem mapTransits_entry (s : State) (f : Transit → Transit) (j : RosterIndex) : (s.mapTransits f).entry j = s.entry j := rfl
@[simp] theorem mapTransits_after (s : State) (f : Transit → Transit) (k : Nat) : (s.mapTransits f).after k = s.after k := rfl
@[simp] theorem mapTransits_due (s : State) (f : Transit → Transit) (q : Option Seconds) : (s.mapTransits f).due q = s.due q := rfl
@[simp] theorem mapTransits_stopped (s : State) (f : Transit → Transit) : (s.mapTransits f).stopped = s.stopped := rfl
@[simp] theorem mapTransits_work (s : State) (f : Transit → Transit) : (s.mapTransits f).work = s.work := rfl
@[simp] theorem mapTransits_allowance (s : State) (f : Transit → Transit) (p : Params) : (s.mapTransits f).allowance p = s.allowance p := rfl
@[simp] theorem evalPermits_reader (s : State) (m : LaneId) : (s.evalPermits).reader m = s.reader m := rfl
@[simp] theorem evalPermits_intensifier (s : State) (j : IntensifierId) : (s.evalPermits).intensifier j = s.intensifier j := rfl
@[simp] theorem evalPermits_station (s : State) (u : StationId) : (s.evalPermits).station u = s.station u := rfl
@[simp] theorem evalPermits_bay (s : State) (m : BayId) : (s.evalPermits).bay m = s.bay m := rfl
@[simp] theorem evalPermits_entry (s : State) (j : RosterIndex) : (s.evalPermits).entry j = s.entry j := rfl
@[simp] theorem evalPermits_after (s : State) (k : Nat) : (s.evalPermits).after k = s.after k := rfl
@[simp] theorem evalPermits_due (s : State) (q : Option Seconds) : (s.evalPermits).due q = s.due q := rfl
@[simp] theorem evalPermits_stopped (s : State) : (s.evalPermits).stopped = s.stopped := rfl
@[simp] theorem evalPermits_work (s : State) : (s.evalPermits).work = s.work := rfl
@[simp] theorem evalPermits_allowance (s : State) (p : Params) : (s.evalPermits).allowance p = s.allowance p := rfl
@[simp] theorem evalPermits_bayParams (s : State) (m : BayId) : (s.evalPermits).bayParams m = s.bayParams m := rfl
@[simp] theorem evalPermits_short (s : State) (m : BayId) : (s.evalPermits).short m = s.short m := rfl
@[simp] theorem evalPermits_testPressure (s : State) (m : BayId) : (s.evalPermits).testPressure m = s.testPressure m := rfl
@[simp] theorem withCommand_lane (s : State) (word : Word) (m : LaneId) : (s.withCommand word).lane m = s.lane m := rfl
@[simp] theorem withCommand_reader (s : State) (word : Word) (m : LaneId) : (s.withCommand word).reader m = s.reader m := rfl
@[simp] theorem withCommand_intensifier (s : State) (word : Word) (j : IntensifierId) : (s.withCommand word).intensifier j = s.intensifier j := rfl
@[simp] theorem withCommand_station (s : State) (word : Word) (u : StationId) : (s.withCommand word).station u = s.station u := rfl
@[simp] theorem withCommand_bay (s : State) (word : Word) (m : BayId) : (s.withCommand word).bay m = s.bay m := rfl
@[simp] theorem withCommand_entry (s : State) (word : Word) (j : RosterIndex) : (s.withCommand word).entry j = s.entry j := rfl
@[simp] theorem withCommand_after (s : State) (word : Word) (k : Nat) : (s.withCommand word).after k = s.after k := rfl
@[simp] theorem withCommand_due (s : State) (word : Word) (q : Option Seconds) : (s.withCommand word).due q = s.due q := rfl
@[simp] theorem withCommand_stopped (s : State) (word : Word) : (s.withCommand word).stopped = s.stopped := rfl
@[simp] theorem withCommand_work (s : State) (word : Word) : (s.withCommand word).work = s.work := rfl
@[simp] theorem withCommand_allowance (s : State) (word : Word) (p : Params) : (s.withCommand word).allowance p = s.allowance p := rfl
@[simp] theorem withCommand_bayParams (s : State) (word : Word) (m : BayId) : (s.withCommand word).bayParams m = s.bayParams m := rfl
@[simp] theorem withCommand_short (s : State) (word : Word) (m : BayId) : (s.withCommand word).short m = s.short m := rfl
@[simp] theorem withCommand_testPressure (s : State) (word : Word) (m : BayId) : (s.withCommand word).testPressure m = s.testPressure m := rfl
@[simp] theorem completed_lane (s : State) (code : Byte) (result : ResultCode) (m : LaneId) : (s.completed code result).lane m = s.lane m := rfl
@[simp] theorem completed_reader (s : State) (code : Byte) (result : ResultCode) (m : LaneId) : (s.completed code result).reader m = s.reader m := rfl
@[simp] theorem completed_intensifier (s : State) (code : Byte) (result : ResultCode) (j : IntensifierId) : (s.completed code result).intensifier j = s.intensifier j := rfl
@[simp] theorem completed_station (s : State) (code : Byte) (result : ResultCode) (u : StationId) : (s.completed code result).station u = s.station u := rfl
@[simp] theorem completed_bay (s : State) (code : Byte) (result : ResultCode) (m : BayId) : (s.completed code result).bay m = s.bay m := rfl
@[simp] theorem completed_entry (s : State) (code : Byte) (result : ResultCode) (j : RosterIndex) : (s.completed code result).entry j = s.entry j := rfl
@[simp] theorem completed_after (s : State) (code : Byte) (result : ResultCode) (k : Nat) : (s.completed code result).after k = s.after k := rfl
@[simp] theorem completed_due (s : State) (code : Byte) (result : ResultCode) (q : Option Seconds) : (s.completed code result).due q = s.due q := rfl
@[simp] theorem completed_stopped (s : State) (code : Byte) (result : ResultCode) : (s.completed code result).stopped = s.stopped := rfl
@[simp] theorem completed_work (s : State) (code : Byte) (result : ResultCode) : (s.completed code result).work = s.work := rfl
@[simp] theorem completed_allowance (s : State) (code : Byte) (result : ResultCode) (p : Params) : (s.completed code result).allowance p = s.allowance p := rfl
@[simp] theorem completed_bayParams (s : State) (code : Byte) (result : ResultCode) (m : BayId) : (s.completed code result).bayParams m = s.bayParams m := rfl
@[simp] theorem completed_short (s : State) (code : Byte) (result : ResultCode) (m : BayId) : (s.completed code result).short m = s.short m := rfl
@[simp] theorem completed_testPressure (s : State) (code : Byte) (result : ResultCode) (m : BayId) : (s.completed code result).testPressure m = s.testPressure m := rfl
@[simp] theorem sendRelease_lane (s : State) (n : BayId) (i : IntensifierId) (m : LaneId) : (s.sendRelease n i).lane m = s.lane m := rfl
@[simp] theorem sendRelease_reader (s : State) (n : BayId) (i : IntensifierId) (m : LaneId) : (s.sendRelease n i).reader m = s.reader m := rfl
@[simp] theorem sendRelease_intensifier (s : State) (n : BayId) (i : IntensifierId) (j : IntensifierId) : (s.sendRelease n i).intensifier j = s.intensifier j := rfl
@[simp] theorem sendRelease_station (s : State) (n : BayId) (i : IntensifierId) (u : StationId) : (s.sendRelease n i).station u = s.station u := rfl
@[simp] theorem sendRelease_bay (s : State) (n : BayId) (i : IntensifierId) (m : BayId) : (s.sendRelease n i).bay m = s.bay m := rfl
@[simp] theorem sendRelease_entry (s : State) (n : BayId) (i : IntensifierId) (j : RosterIndex) : (s.sendRelease n i).entry j = s.entry j := rfl
@[simp] theorem sendRelease_after (s : State) (n : BayId) (i : IntensifierId) (k : Nat) : (s.sendRelease n i).after k = s.after k := rfl
@[simp] theorem sendRelease_due (s : State) (n : BayId) (i : IntensifierId) (q : Option Seconds) : (s.sendRelease n i).due q = s.due q := rfl
@[simp] theorem sendRelease_stopped (s : State) (n : BayId) (i : IntensifierId) : (s.sendRelease n i).stopped = s.stopped := rfl
@[simp] theorem sendRelease_work (s : State) (n : BayId) (i : IntensifierId) : (s.sendRelease n i).work = s.work := rfl
@[simp] theorem sendRelease_allowance (s : State) (n : BayId) (i : IntensifierId) (p : Params) : (s.sendRelease n i).allowance p = s.allowance p := rfl
@[simp] theorem sendRelease_bayParams (s : State) (n : BayId) (i : IntensifierId) (m : BayId) : (s.sendRelease n i).bayParams m = s.bayParams m := rfl
@[simp] theorem sendRelease_short (s : State) (n : BayId) (i : IntensifierId) (m : BayId) : (s.sendRelease n i).short m = s.short m := rfl
@[simp] theorem sendRelease_testPressure (s : State) (n : BayId) (i : IntensifierId) (m : BayId) : (s.sendRelease n i).testPressure m = s.testPressure m := rfl
@[simp] theorem removeRequest_lane (s : State) (n : BayId) (m : LaneId) : (s.removeRequest n).lane m = s.lane m := rfl
@[simp] theorem removeRequest_reader (s : State) (n : BayId) (m : LaneId) : (s.removeRequest n).reader m = s.reader m := rfl
@[simp] theorem removeRequest_intensifier (s : State) (n : BayId) (j : IntensifierId) : (s.removeRequest n).intensifier j = s.intensifier j := rfl
@[simp] theorem removeRequest_station (s : State) (n : BayId) (u : StationId) : (s.removeRequest n).station u = s.station u := rfl
@[simp] theorem removeRequest_bay (s : State) (n : BayId) (m : BayId) : (s.removeRequest n).bay m = s.bay m := rfl
@[simp] theorem removeRequest_entry (s : State) (n : BayId) (j : RosterIndex) : (s.removeRequest n).entry j = s.entry j := rfl
@[simp] theorem removeRequest_after (s : State) (n : BayId) (k : Nat) : (s.removeRequest n).after k = s.after k := rfl
@[simp] theorem removeRequest_due (s : State) (n : BayId) (q : Option Seconds) : (s.removeRequest n).due q = s.due q := rfl
@[simp] theorem removeRequest_stopped (s : State) (n : BayId) : (s.removeRequest n).stopped = s.stopped := rfl
@[simp] theorem removeRequest_work (s : State) (n : BayId) : (s.removeRequest n).work = s.work := rfl
@[simp] theorem removeRequest_allowance (s : State) (n : BayId) (p : Params) : (s.removeRequest n).allowance p = s.allowance p := rfl
@[simp] theorem removeRequest_bayParams (s : State) (n : BayId) (m : BayId) : (s.removeRequest n).bayParams m = s.bayParams m := rfl
@[simp] theorem removeRequest_short (s : State) (n : BayId) (m : BayId) : (s.removeRequest n).short m = s.short m := rfl
@[simp] theorem removeRequest_testPressure (s : State) (n : BayId) (m : BayId) : (s.removeRequest n).testPressure m = s.testPressure m := rfl
@[simp] theorem appendRequest_lane (s : State) (n : BayId) (m : LaneId) : (s.appendRequest n).lane m = s.lane m := rfl
@[simp] theorem appendRequest_reader (s : State) (n : BayId) (m : LaneId) : (s.appendRequest n).reader m = s.reader m := rfl
@[simp] theorem appendRequest_intensifier (s : State) (n : BayId) (j : IntensifierId) : (s.appendRequest n).intensifier j = s.intensifier j := rfl
@[simp] theorem appendRequest_station (s : State) (n : BayId) (u : StationId) : (s.appendRequest n).station u = s.station u := rfl
@[simp] theorem appendRequest_bay (s : State) (n : BayId) (m : BayId) : (s.appendRequest n).bay m = s.bay m := rfl
@[simp] theorem appendRequest_entry (s : State) (n : BayId) (j : RosterIndex) : (s.appendRequest n).entry j = s.entry j := rfl
@[simp] theorem appendRequest_after (s : State) (n : BayId) (k : Nat) : (s.appendRequest n).after k = s.after k := rfl
@[simp] theorem appendRequest_due (s : State) (n : BayId) (q : Option Seconds) : (s.appendRequest n).due q = s.due q := rfl
@[simp] theorem appendRequest_stopped (s : State) (n : BayId) : (s.appendRequest n).stopped = s.stopped := rfl
@[simp] theorem appendRequest_work (s : State) (n : BayId) : (s.appendRequest n).work = s.work := rfl
@[simp] theorem appendRequest_allowance (s : State) (n : BayId) (p : Params) : (s.appendRequest n).allowance p = s.allowance p := rfl
@[simp] theorem appendRequest_bayParams (s : State) (n : BayId) (m : BayId) : (s.appendRequest n).bayParams m = s.bayParams m := rfl
@[simp] theorem appendRequest_short (s : State) (n : BayId) (m : BayId) : (s.appendRequest n).short m = s.short m := rfl
@[simp] theorem appendRequest_testPressure (s : State) (n : BayId) (m : BayId) : (s.appendRequest n).testPressure m = s.testPressure m := rfl
@[simp] theorem countAllocated_lane (s : State) (m : LaneId) : (s.countAllocated).lane m = s.lane m := rfl
@[simp] theorem countAllocated_reader (s : State) (m : LaneId) : (s.countAllocated).reader m = s.reader m := rfl
@[simp] theorem countAllocated_intensifier (s : State) (j : IntensifierId) : (s.countAllocated).intensifier j = s.intensifier j := rfl
@[simp] theorem countAllocated_station (s : State) (u : StationId) : (s.countAllocated).station u = s.station u := rfl
@[simp] theorem countAllocated_bay (s : State) (m : BayId) : (s.countAllocated).bay m = s.bay m := rfl
@[simp] theorem countAllocated_entry (s : State) (j : RosterIndex) : (s.countAllocated).entry j = s.entry j := rfl
@[simp] theorem countAllocated_after (s : State) (k : Nat) : (s.countAllocated).after k = s.after k := rfl
@[simp] theorem countAllocated_due (s : State) (q : Option Seconds) : (s.countAllocated).due q = s.due q := rfl
@[simp] theorem countAllocated_stopped (s : State) : (s.countAllocated).stopped = s.stopped := rfl
@[simp] theorem countAllocated_work (s : State) : (s.countAllocated).work = s.work := rfl
@[simp] theorem countAllocated_allowance (s : State) (p : Params) : (s.countAllocated).allowance p = s.allowance p := rfl
@[simp] theorem countAllocated_bayParams (s : State) (m : BayId) : (s.countAllocated).bayParams m = s.bayParams m := rfl
@[simp] theorem countAllocated_short (s : State) (m : BayId) : (s.countAllocated).short m = s.short m := rfl
@[simp] theorem countAllocated_testPressure (s : State) (m : BayId) : (s.countAllocated).testPressure m = s.testPressure m := rfl
@[simp] theorem raiseAlert_lane (s : State) (source : Nat) (code : AlertCode) (m : LaneId) : (s.raiseAlert source code).lane m = s.lane m := rfl
@[simp] theorem raiseAlert_reader (s : State) (source : Nat) (code : AlertCode) (m : LaneId) : (s.raiseAlert source code).reader m = s.reader m := rfl
@[simp] theorem raiseAlert_intensifier (s : State) (source : Nat) (code : AlertCode) (j : IntensifierId) : (s.raiseAlert source code).intensifier j = s.intensifier j := rfl
@[simp] theorem raiseAlert_station (s : State) (source : Nat) (code : AlertCode) (u : StationId) : (s.raiseAlert source code).station u = s.station u := rfl
@[simp] theorem raiseAlert_bay (s : State) (source : Nat) (code : AlertCode) (m : BayId) : (s.raiseAlert source code).bay m = s.bay m := rfl
@[simp] theorem raiseAlert_entry (s : State) (source : Nat) (code : AlertCode) (j : RosterIndex) : (s.raiseAlert source code).entry j = s.entry j := rfl
@[simp] theorem raiseAlert_after (s : State) (source : Nat) (code : AlertCode) (k : Nat) : (s.raiseAlert source code).after k = s.after k := rfl
@[simp] theorem raiseAlert_due (s : State) (source : Nat) (code : AlertCode) (q : Option Seconds) : (s.raiseAlert source code).due q = s.due q := rfl
@[simp] theorem raiseAlert_stopped (s : State) (source : Nat) (code : AlertCode) : (s.raiseAlert source code).stopped = s.stopped := rfl
@[simp] theorem raiseAlert_work (s : State) (source : Nat) (code : AlertCode) : (s.raiseAlert source code).work = s.work := rfl
@[simp] theorem raiseAlert_allowance (s : State) (source : Nat) (code : AlertCode) (p : Params) : (s.raiseAlert source code).allowance p = s.allowance p := rfl
@[simp] theorem raiseAlert_bayParams (s : State) (source : Nat) (code : AlertCode) (m : BayId) : (s.raiseAlert source code).bayParams m = s.bayParams m := rfl
@[simp] theorem raiseAlert_short (s : State) (source : Nat) (code : AlertCode) (m : BayId) : (s.raiseAlert source code).short m = s.short m := rfl
@[simp] theorem raiseAlert_testPressure (s : State) (source : Nat) (code : AlertCode) (m : BayId) : (s.raiseAlert source code).testPressure m = s.testPressure m := rfl
@[simp] theorem raiseOutcome_lane (s : State) (i : RosterIndex) (code : OutcomeCode) (reason : Reason) (m : LaneId) : (s.raiseOutcome i code reason).lane m = s.lane m := rfl
@[simp] theorem raiseOutcome_reader (s : State) (i : RosterIndex) (code : OutcomeCode) (reason : Reason) (m : LaneId) : (s.raiseOutcome i code reason).reader m = s.reader m := rfl
@[simp] theorem raiseOutcome_intensifier (s : State) (i : RosterIndex) (code : OutcomeCode) (reason : Reason) (j : IntensifierId) : (s.raiseOutcome i code reason).intensifier j = s.intensifier j := rfl
@[simp] theorem raiseOutcome_station (s : State) (i : RosterIndex) (code : OutcomeCode) (reason : Reason) (u : StationId) : (s.raiseOutcome i code reason).station u = s.station u := rfl
@[simp] theorem raiseOutcome_bay (s : State) (i : RosterIndex) (code : OutcomeCode) (reason : Reason) (m : BayId) : (s.raiseOutcome i code reason).bay m = s.bay m := rfl
@[simp] theorem raiseOutcome_entry (s : State) (i : RosterIndex) (code : OutcomeCode) (reason : Reason) (j : RosterIndex) : (s.raiseOutcome i code reason).entry j = s.entry j := rfl
@[simp] theorem raiseOutcome_after (s : State) (i : RosterIndex) (code : OutcomeCode) (reason : Reason) (k : Nat) : (s.raiseOutcome i code reason).after k = s.after k := rfl
@[simp] theorem raiseOutcome_due (s : State) (i : RosterIndex) (code : OutcomeCode) (reason : Reason) (q : Option Seconds) : (s.raiseOutcome i code reason).due q = s.due q := rfl
@[simp] theorem raiseOutcome_stopped (s : State) (i : RosterIndex) (code : OutcomeCode) (reason : Reason) : (s.raiseOutcome i code reason).stopped = s.stopped := rfl
@[simp] theorem raiseOutcome_work (s : State) (i : RosterIndex) (code : OutcomeCode) (reason : Reason) : (s.raiseOutcome i code reason).work = s.work := rfl
@[simp] theorem raiseOutcome_allowance (s : State) (i : RosterIndex) (code : OutcomeCode) (reason : Reason) (p : Params) : (s.raiseOutcome i code reason).allowance p = s.allowance p := rfl
@[simp] theorem raiseOutcome_bayParams (s : State) (i : RosterIndex) (code : OutcomeCode) (reason : Reason) (m : BayId) : (s.raiseOutcome i code reason).bayParams m = s.bayParams m := rfl
@[simp] theorem raiseOutcome_short (s : State) (i : RosterIndex) (code : OutcomeCode) (reason : Reason) (m : BayId) : (s.raiseOutcome i code reason).short m = s.short m := rfl
@[simp] theorem raiseOutcome_testPressure (s : State) (i : RosterIndex) (code : OutcomeCode) (reason : Reason) (m : BayId) : (s.raiseOutcome i code reason).testPressure m = s.testPressure m := rfl
@[simp] theorem publish_reader (s : State) (t : State) (m : LaneId) : (s.publish t).reader m = t.reader m := rfl
@[simp] theorem publish_entry (s : State) (t : State) (j : RosterIndex) : (s.publish t).entry j = t.entry j := rfl
@[simp] theorem publish_after (s : State) (t : State) (k : Nat) : (s.publish t).after k = t.after k := rfl
@[simp] theorem publish_due (s : State) (t : State) (q : Option Seconds) : (s.publish t).due q = t.due q := rfl
@[simp] theorem publish_stopped (s : State) (t : State) : (s.publish t).stopped = t.stopped := rfl
@[simp] theorem publish_work (s : State) (t : State) : (s.publish t).work = t.work := rfl
@[simp] theorem publish_allowance (s : State) (t : State) (p : Params) : (s.publish t).allowance p = t.allowance p := rfl

/-! ## Reads of what an update wrote -/

@[simp] theorem lane_setLane (s : State) (l m : LaneId) (x : Lane) :
    (s.setLane l x).lane m = if l = m then x else s.lane m := by
  cases l <;> cases m <;> rfl

@[simp] theorem reader_setReader (s : State) (l m : LaneId) (x : Reader) :
    (s.setReader l x).reader m = if l = m then x else s.reader m := by
  cases l <;> cases m <;> rfl

@[simp] theorem intensifier_setIntensifier (s : State) (i j : IntensifierId) (x : Intensifier) :
    (s.setIntensifier i x).intensifier j = if i = j then x else s.intensifier j := by
  cases i <;> cases j <;> rfl

@[simp] theorem station_setStation (s : State) (st u : StationId) (x : Station) :
    (s.setStation st x).station u = if st = u then x else s.station u := by
  cases st <;> cases u <;> rfl

@[simp] theorem bay_setBay (s : State) (n m : BayId) (b : Bay) :
    (s.setBay n b).bay m = if n = m then b else s.bay m := by
  simp only [State.bay, State.setBay, Fin.getElem_fin, Vector.getElem_set, Fin.ext_iff]

@[simp] theorem entry_setEntry (s : State) (i j : RosterIndex) (e : Entry) :
    (s.setEntry i e).entry j = if i = j then e else s.entry j := by
  simp only [State.entry, State.setEntry, Fin.getElem_fin, Vector.getElem_set, Fin.ext_iff]

/-! ## The derived updates -/

@[simp] theorem updLane_eq (s : State) (l : LaneId) (f : Lane → Lane) : s.updLane l f = s.setLane l (f (s.lane l)) := rfl

@[simp] theorem updBay_eq (s : State) (n : BayId) (f : Bay → Bay) : s.updBay n f = s.setBay n (f (s.bay n)) := rfl

@[simp] theorem updStation_eq (s : State) (st : StationId) (f : Station → Station) :
    s.updStation st f = s.setStation st (f (s.station st)) := rfl

@[simp] theorem editEntry_eq (s : State) (i : RosterIndex) (f : Entry → Entry) :
    s.editEntry i f = s.setEntry i { f (s.entry i) with editCount := (s.entry i).editCount + 2#8 } := rfl

theorem bay_ofFn (f : BayId → Bay) (n : BayId) : (Vector.ofFn f)[n] = f n := by simp

theorem entry_ofFn (f : RosterIndex → Entry) (i : RosterIndex) : (Vector.ofFn f)[i] = f i := by simp

end Sys2Proof.Machine
end

