-- ==== Sys2Proof/Laws/Memory.lean ====
section
/-! SUPPORT. The bytes of the store: what a read gives after a write, and that every memory operation keeps the canonical
form. -/

namespace Sys2Proof.Machine

/-! ## Rising addresses -/

/-- The cells' addresses rise strictly. -/
theorem rising_iff (m : List Host.Cell) : Memory.rising m = true ↔ m.Pairwise (fun c d => c.1 < d.1) := by
  induction m with
  | nil => simp [Memory.rising]
  | cons c rest ih =>
    cases rest with
    | nil => simp [Memory.rising]
    | cons d rest =>
      simp only [Memory.rising, Bool.and_eq_true, decide_eq_true_eq, ih, List.pairwise_cons, List.mem_cons]
      constructor
      · rintro ⟨h, hd, hr⟩
        refine ⟨?_, hd, hr⟩
        rintro x (rfl | hx)
        · exact h
        · exact Nat.lt_trans h (hd x hx)
      · rintro ⟨hc, hd, hr⟩
        exact ⟨hc d (Or.inl rfl), hd, hr⟩

/-- The cells a write leaves are cells of the store, or the cell written. -/
theorem mem_write {dflt : Byte} {a : Nat} {b : Byte} {m : List Host.Cell} {c : Host.Cell}
    (h : c ∈ Memory.write dflt a b m) : (c = (a, b) ∧ b ≠ dflt) ∨ c ∈ m := by
  induction m with
  | nil =>
    simp only [Memory.write] at h
    split at h
    · simp at h
    · rename_i hb; exact Or.inl ⟨by simpa using h, hb⟩
  | cons d rest ih =>
    simp only [Memory.write] at h
    split at h
    · split at h
      · exact Or.inr h
      · rename_i hb
        rcases List.mem_cons.1 h with h | h
        · exact Or.inl ⟨h, hb⟩
        · exact Or.inr h
    · split at h
      · split at h
        · exact Or.inr (List.mem_cons_of_mem _ h)
        · rename_i hb
          rcases List.mem_cons.1 h with h | h
          · exact Or.inl ⟨h, hb⟩
          · exact Or.inr (List.mem_cons_of_mem _ h)
      · rcases List.mem_cons.1 h with h | h
        · exact Or.inr (h ▸ List.mem_cons_self)
        · exact (ih h).imp id (List.mem_cons_of_mem _)

/-- A write keeps the addresses rising. -/
theorem rising_write (dflt : Byte) (a : Nat) (b : Byte) {m : List Host.Cell} (h : Memory.rising m = true) :
    Memory.rising (Memory.write dflt a b m) = true := by
  rw [rising_iff] at h ⊢
  induction m with
  | nil => simp only [Memory.write]; split <;> simp
  | cons d rest ih =>
    have ⟨hd, hr⟩ := List.pairwise_cons.1 h
    simp only [Memory.write]
    split
    · split
      · exact h
      · rename_i hlt _
        refine List.pairwise_cons.2 ⟨fun c hc => ?_, h⟩
        rcases List.mem_cons.1 hc with rfl | hc
        · exact hlt
        · exact Nat.lt_trans hlt (hd c hc)
    · split
      · rename_i heq
        split
        · exact hr
        · exact List.pairwise_cons.2 ⟨fun c hc => heq ▸ hd c hc, hr⟩
      · rename_i hlt hne
        refine List.pairwise_cons.2 ⟨fun c hc => ?_, ih hr⟩
        rcases mem_write hc with ⟨rfl, _⟩ | hc
        · simp only; omega
        · exact hd c hc

/-- A filter keeps the addresses rising. -/
theorem rising_filter (p : Host.Cell → Bool) {m : List Host.Cell} (h : Memory.rising m = true) :
    Memory.rising (m.filter p) = true := by
  rw [rising_iff] at h ⊢
  exact h.filter p

/-! ## Reads -/

/-- An address no cell has is not listed. -/
theorem lookup_eq_none {m : List Host.Cell} {a : Nat} (h : ∀ c ∈ m, c.1 ≠ a) : Memory.lookup m a = none := by
  induction m with
  | nil => rfl
  | cons c rest ih =>
    simp only [Memory.lookup, if_neg (h c List.mem_cons_self)]
    exact ih fun d hd => h d (List.mem_cons_of_mem _ hd)

/-- What is listed for an address is a cell. -/
theorem mem_of_lookup {m : List Host.Cell} {a : Nat} {b : Byte} (h : Memory.lookup m a = some b) : (a, b) ∈ m := by
  induction m with
  | nil => simp [Memory.lookup] at h
  | cons c rest ih =>
    simp only [Memory.lookup] at h
    split at h
    · rename_i hc
      have : c = (a, b) := by cases c; simp_all
      exact this ▸ List.mem_cons_self
    · exact List.mem_cons_of_mem _ (ih h)

/-- A write at another address does not change what is listed. -/
theorem lookup_write_of_ne {dflt : Byte} {a c : Nat} (b : Byte) (m : List Host.Cell) (h : c ≠ a) :
    Memory.lookup (Memory.write dflt a b m) c = Memory.lookup m c := by
  induction m with
  | nil =>
    simp only [Memory.write]
    split <;> simp [Memory.lookup, h.symm]
  | cons d rest ih =>
    simp only [Memory.write]
    split
    · split <;> simp [Memory.lookup, h.symm]
    · split
      · rename_i heq
        have hd : d.1 ≠ c := heq ▸ h.symm
        split <;> simp [Memory.lookup, h.symm, hd]
      · simp only [Memory.lookup, ih]

/-- A write is read back. -/
theorem lookup_write_self (dflt : Byte) (a : Nat) (b : Byte) {m : List Host.Cell} (h : Memory.rising m = true) :
    (Memory.lookup (Memory.write dflt a b m) a).getD dflt = b := by
  rw [rising_iff] at h
  induction m with
  | nil =>
    simp only [Memory.write]
    split <;> simp_all [Memory.lookup]
  | cons d rest ih =>
    have ⟨hd, hr⟩ := List.pairwise_cons.1 h
    simp only [Memory.write]
    split
    · rename_i hlt
      split
      · rename_i hb
        rw [lookup_eq_none (a := a)]
        · simpa using hb.symm
        · intro c hc
          rcases List.mem_cons.1 hc with rfl | hc
          · omega
          · have := hd c hc; omega
      · simp [Memory.lookup]
    · split
      · rename_i heq
        split
        · rename_i hb
          rw [lookup_eq_none (a := a)]
          · simpa using hb.symm
          · intro c hc
            have := hd c hc; omega
        · simp [Memory.lookup]
      · rename_i hne
        simp only [Memory.lookup, if_neg (Ne.symm hne)]
        exact ih hr

/-- A filter on addresses drops or keeps what is listed. -/
theorem lookup_filter (q : Nat → Bool) (m : List Host.Cell) (a : Nat) :
    Memory.lookup (m.filter (fun c => q c.1)) a = if q a then Memory.lookup m a else none := by
  induction m with
  | nil => simp [Memory.lookup]
  | cons c rest ih =>
    by_cases hc : c.1 = a
    · subst hc
      by_cases hq : q c.1 <;> simp [Memory.lookup, hq, ih]
    · by_cases hq : q c.1 <;> simp [Memory.lookup, hq, hc, ih]

/-! ## The regions the RQ4 never writes and the note board -/

/-- Outside the RQ4's records the line computer reads the plain bytes. -/
theorem storeByte_of_plain {a : Nat} (s : State) (h : recordAt a = none) : s.storeByte a = s.plainByte a := by
  simp [State.storeByte, State.unlistedByte, State.plainByte, h]

/-- A plain write is read back. -/
theorem plainByte_writePlain_self (s : State) (a : Nat) (b : Byte) (h : Memory.rising s.mem = true) :
    (s.writePlain a b).plainByte a = b := lookup_write_self _ _ _ h

/-- A plain write changes no other byte. -/
theorem plainByte_writePlain_of_ne (s : State) {a c : Nat} (b : Byte) (h : c ≠ a) :
    (s.writePlain a b).plainByte c = s.plainByte c := by
  simp [State.plainByte, State.writePlain, lookup_write_of_ne b s.mem h]

/-! ## The canonical form -/

/-- The canonical form, spelled out. -/
theorem memWf_iff (s : State) : s.memWf = true ↔
    Memory.rising s.mem = true ∧ ∀ c ∈ s.mem, c.1 < 0x10000 ∧ c.2 ≠ s.unlistedByte c.1 := by
  simp [State.memWf, Bool.and_eq_true, List.all_eq_true]

/-- A byte written by the line computer keeps the canonical form (R162, R164). -/
theorem memWf_pokeByte {s : State} (a : Nat) (b : Byte) (h : s.memWf = true) : (s.pokeByte a b).memWf = true := by
  unfold State.pokeByte
  split
  · rename_i ha
    rw [memWf_iff] at h ⊢
    refine ⟨rising_write _ _ _ h.1, fun c hc => ?_⟩
    rcases mem_write hc with ⟨rfl, hb⟩ | hc
    · exact ⟨ha, hb⟩
    · exact h.2 c hc
  · exact h

/-- A byte written by the line computer is read back. -/
theorem storeByte_pokeByte_self {s : State} {a : Nat} (b : Byte) (ha : a < 0x10000) (h : s.memWf = true) :
    (s.pokeByte a b).storeByte a = b := by
  simp only [State.pokeByte, if_pos ha]
  exact lookup_write_self _ _ _ ((memWf_iff s).1 h).1

/-- A byte written by the line computer changes no other byte. -/
theorem storeByte_pokeByte_of_ne (s : State) {a c : Nat} (b : Byte) (h : c ≠ a) :
    (s.pokeByte a b).storeByte c = s.storeByte c := by
  unfold State.pokeByte
  split
  · show (Memory.lookup (Memory.write _ a b s.mem) c).getD _ = _
    rw [lookup_write_of_ne b s.mem h]
    rfl
  · rfl

end Sys2Proof.Machine
end

