-- ==== Sys2Proof/Laws/Publish.lean ====
section
/-! SUPPORT. What publishing a step's edits can do (R163, R164): it changes edit counts and the line computer's overlay of
the RQ4's records, and nothing else; and the laws of frames. -/

namespace Sys2Proof.Machine

/-! ## The blocks after publishing -/

/-- Publishing changes a bay's edit count alone. -/
theorem publish_bay (s t : State) (n : BayId) : (s.publish t).bay n =
    { t.bay n with
      editCount := nextCount ((s.bay n).body ++ (s.bay n).traceBytes) ((t.bay n).body ++ (t.bay n).traceBytes)
        (t.bay n).editCount } := by
  simp [State.publish, State.overwriteEdited, State.countEdits, State.bay]

/-- A bay a step does not change is published unchanged. -/
theorem publish_bay_of_eq {s t : State} {n : BayId} (h : t.bay n = s.bay n) : (s.publish t).bay n = s.bay n := by
  rw [publish_bay, h, nextCount, if_pos rfl]

/-- Publishing changes a lane's edit count alone. -/
theorem publish_lane (s t : State) (l : LaneId) : (s.publish t).lane l =
    { t.lane l with editCount := nextCount (s.laneBody l) (t.laneBody l) (t.lane l).editCount } := by
  cases l <;> rfl

/-- Publishing changes an intensifier's edit count alone. -/
theorem publish_intensifier (s t : State) (i : IntensifierId) : (s.publish t).intensifier i =
    { t.intensifier i with
      editCount := nextCount (s.intensifierBody i) (t.intensifierBody i) (t.intensifier i).editCount } := by
  cases i <;> rfl

/-- Publishing changes a station's edit count alone. -/
theorem publish_station (s t : State) (st : StationId) : (s.publish t).station st =
    { t.station st with
      editCount := nextCount (s.stationBody st) (t.stationBody st) (t.station st).editCount } := by
  cases st <;> rfl

@[simp] theorem publish_bay_bare (s t : State) (n : BayId) : ((s.publish t).bay n).bare = (t.bay n).bare := by
  rw [publish_bay]; simp only [Bay.bare]

@[simp] theorem publish_lane_bare (s t : State) (l : LaneId) : ((s.publish t).lane l).bare = (t.lane l).bare := by
  rw [publish_lane]; rfl

@[simp] theorem publish_intensifier_bare (s t : State) (i : IntensifierId) :
    ((s.publish t).intensifier i).bare = (t.intensifier i).bare := by
  rw [publish_intensifier]; rfl

@[simp] theorem publish_station_bare (s t : State) (st : StationId) :
    ((s.publish t).station st).bare = (t.station st).bare := by
  rw [publish_station]; rfl

/-! ## The store after publishing -/

/-- Publishing keeps the cells of the records the step left unedited, and every cell outside the records. -/
theorem publish_mem (s t : State) :
    (s.publish t).mem = t.mem.filter (fun c => s.sameRecord (s.countEdits t) c.1) := rfl

/-- Publishing changes no byte outside the records. -/
theorem publish_storeByte_of_plain (s t : State) {a : Nat} (h : recordAt a = none) :
    (s.publish t).storeByte a = t.storeByte a := by
  have hq : s.sameRecord (s.countEdits t) a = true := by simp [State.sameRecord, h]
  rw [storeByte_of_plain _ h, storeByte_of_plain _ h, State.plainByte, State.plainByte, publish_mem,
    lookup_filter (s.sameRecord (s.countEdits t)), if_pos hq]

/-- A step's operations write the note board at most: every cell they add lies outside the RQ4's records, and what is listed
in the records stays. -/
def BoardOnly (s t : State) : Prop :=
  (Memory.rising s.mem = true → Memory.rising t.mem = true) ∧
    (∀ c ∈ t.mem, c ∈ s.mem ∨ (recordAt c.1 = none ∧ c.1 < 0x10000 ∧ c.2 ≠ plainDefault c.1)) ∧
    ∀ a, recordAt a ≠ none → Memory.lookup t.mem a = Memory.lookup s.mem a

theorem BoardOnly.of_mem_eq {s t : State} (h : t.mem = s.mem) : BoardOnly s t :=
  ⟨fun hs => h ▸ hs, fun _ hc => Or.inl (h ▸ hc), fun _ _ => by rw [h]⟩

theorem BoardOnly.refl (s : State) : BoardOnly s s := .of_mem_eq rfl

theorem BoardOnly.trans {s t u : State} (h : BoardOnly s t) (k : BoardOnly t u) : BoardOnly s u :=
  ⟨fun hs => k.1 (h.1 hs), fun c hc => (k.2.1 c hc).elim (fun hc => h.2.1 c hc) Or.inr,
    fun a ha => (k.2.2 a ha).trans (h.2.2 a ha)⟩

/-- A write outside the records. -/
theorem BoardOnly.writePlain (s : State) {a : Nat} (b : Byte) (hr : recordAt a = none) (ha : a < 0x10000) :
    BoardOnly s (s.writePlain a b) := by
  refine ⟨fun hs => rising_write _ _ _ hs, fun c hc => ?_, fun c hc => ?_⟩
  · rcases mem_write hc with ⟨rfl, hb⟩ | hc
    · exact Or.inr ⟨hr, ha, hb⟩
    · exact Or.inl hc
  · exact lookup_write_of_ne b s.mem (fun h => hc (h ▸ hr))

/-- A record's bytes equal before and after give the same unlisted byte. -/
theorem unlistedByte_of_sameRecord {s t : State} {a : Nat} (h : s.sameRecord t a = true) :
    t.unlistedByte a = s.unlistedByte a := by
  unfold State.sameRecord at h
  unfold State.unlistedByte
  split at h
  · simp only [Bool.and_eq_true, decide_eq_true_eq] at h
    simp only [h.2]
  · rfl

/-- Publishing keeps the canonical form of the store. -/
theorem memWf_publish {s t : State} (hs : s.memWf = true) (h : BoardOnly s t) : (s.publish t).memWf = true := by
  rw [memWf_iff] at hs ⊢
  refine ⟨rising_filter _ (h.1 hs.1), fun c hc => ?_⟩
  rw [publish_mem, List.mem_filter] at hc
  have hu : (s.publish t).unlistedByte c.1 = s.unlistedByte c.1 :=
    unlistedByte_of_sameRecord (t := s.countEdits t) hc.2
  rw [hu]
  rcases h.2.1 c hc.1 with hm | ⟨hr, ha, hb⟩
  · exact hs.2 c hm
  · refine ⟨ha, ?_⟩
    simpa [State.unlistedByte, hr] using hb

/-- What publishing shows the line computer of a record (R163, R164). -/
theorem published_publish {s t : State} (h : BoardOnly s t) : Published s (s.publish t) := by
  intro a r hr
  have hsame : s.sameRecord (s.publish t) a = s.sameRecord (s.countEdits t) a := rfl
  have hl : Memory.lookup t.mem a = Memory.lookup s.mem a := h.2.2 a (by simp [hr])
  rw [hsame]
  show (Memory.lookup (s.publish t).mem a).getD _ = _
  rw [publish_mem, lookup_filter (s.sameRecord (s.countEdits t)), hl]
  split
  · rename_i hq
    have hu : (s.publish t).unlistedByte a = s.unlistedByte a :=
      unlistedByte_of_sameRecord (t := s.countEdits t) hq
    rw [hu]; rfl
  · simp [State.unlistedByte, hr]

/-! ## Frames -/

theorem Same.refl (p : Part) (s : State) : Same p s s := by
  cases p <;> simp [Same, SameStore]

theorem Same.trans {p : Part} {s t u : State} (h : Same p s t) (k : Same p t u) : Same p s u := by
  cases p <;> simp_all [Same, SameStore]

theorem Frame.refl (L : List Part) (s : State) : Frame L s s := fun p _ => .refl p s

theorem Frame.trans {L : List Part} {s t u : State} (h : Frame L s t) (k : Frame L t u) : Frame L s u :=
  fun p hp => (h p hp).trans (k p hp)

theorem Frame.mono {L M : List Part} {s t : State} (h : Frame L s t) (hLM : L ⊆ M) : Frame M s t :=
  fun p hp => h p (fun hL => hp (hLM hL))

/-- Publishing adds nothing to what a step changed. -/
theorem Same.publish {p : Part} {s t : State} (h : Same p s t) : Same p s (s.publish t) := by
  cases p
  case bay n => exact publish_bay_of_eq h
  case store => exact fun a ha => (publish_storeByte_of_plain s t ha).trans (h a ha)
  case lane l => exact (publish_lane_bare s t l).trans h
  case intensifier i => exact (publish_intensifier_bare s t i).trans h
  case station st => exact (publish_station_bare s t st).trans h
  all_goals simpa only [Same, publish_pending, publish_runState, publish_eStopInput, publish_lineSeconds,
    publish_cmbWord, publish_cmbFull, publish_lastCommand, publish_lastResult, publish_overwriteFlag,
    publish_alertSeen, publish_interruptEnable, publish_busReadData, publish_interruptPulses, publish_slotCounts, publish_notices, publish_nmb, publish_settings,
    publish_tablesHeld, publish_firstBad, publish_types, publish_typeMask, publish_templates, publish_templateMask,
    publish_date, publish_reader, publish_expect, publish_entry, publish_freeCount, publish_outfeedState,
    publish_outfeedQueue, publish_outfeedHeadInFlight, publish_exits, publish_claims, publish_requests,
    publish_releases, publish_guardClosed, publish_choices] using h

theorem Frame.publish {L : List Part} {s t : State} (h : Frame L s t) : Frame L s (s.publish t) :=
  fun p hp => (h p hp).publish

end Sys2Proof.Machine
end

