-- ==== Sys2Proof/Laws/Frames.lean ====
section
/-! SUPPORT. The frame of each shared operation: the parts of the state it can change, and that it writes the note board at
most. A proof about a meaning chains these in place of unfolding the operations. -/

namespace Sys2Proof.Machine

/-- Two steps, each within a frame. -/
theorem Frame.seq {L M N : List Part} {s t u : State} (h : Frame L s t) (k : Frame M t u) (hL : L ⊆ N) (hM : M ⊆ N) :
    Frame N s u :=
  (h.mono hL).trans (k.mono hM)

/-- A step that is a choice of two. -/
theorem Frame.ite {L : List Part} {s t u : State} {c : Prop} [Decidable c] (h : c → Frame L s t)
    (k : ¬c → Frame L s u) : Frame L s (if c then t else u) := by
  split
  · exact h ‹_›
  · exact k ‹_›

/-- A step that keeps the note board keeps every byte outside the records. -/
theorem SameStore.of_mem_eq {s t : State} (h : t.mem = s.mem) : SameStore s t := by
  intro a ha
  rw [storeByte_of_plain _ ha, storeByte_of_plain _ ha, State.plainByte, State.plainByte, h]

/-! ## Plain updates -/

theorem frame_setBay (s : State) (n : BayId) (b : Bay) : Frame [.bay n] s (s.setBay n b) := by
  intro p hp
  cases p
  case bay m =>
    have hne : n ≠ m := fun h => hp (by simp [h])
    simp [Same, hne]
  case store => exact .of_mem_eq rfl
  all_goals simp [Same]

theorem frame_setLane (s : State) (l : LaneId) (x : Lane) : Frame [.lane l] s (s.setLane l x) := by
  intro p hp
  cases p
  case lane m =>
    have hne : l ≠ m := fun h => hp (by simp [h])
    simp [Same, hne]
  case store => exact .of_mem_eq rfl
  all_goals simp [Same]

theorem frame_setReader (s : State) (l : LaneId) (x : Reader) : Frame [.reader l] s (s.setReader l x) := by
  intro p hp
  cases p
  case reader m =>
    have hne : l ≠ m := fun h => hp (by simp [h])
    simp [Same, hne]
  case store => exact .of_mem_eq rfl
  all_goals simp [Same]

theorem frame_setIntensifier (s : State) (i : IntensifierId) (x : Intensifier) :
    Frame [.intensifier i] s (s.setIntensifier i x) := by
  intro p hp
  cases p
  case intensifier m =>
    have hne : i ≠ m := fun h => hp (by simp [h])
    simp [Same, hne]
  case store => exact .of_mem_eq rfl
  all_goals simp [Same]

theorem frame_setStation (s : State) (st : StationId) (x : Station) : Frame [.station st] s (s.setStation st x) := by
  intro p hp
  cases p
  case station m =>
    have hne : st ≠ m := fun h => hp (by simp [h])
    simp [Same, hne]
  case store => exact .of_mem_eq rfl
  all_goals simp [Same]

theorem frame_setEntry (s : State) (i : RosterIndex) (e : Entry) : Frame [.entry i] s (s.setEntry i e) := by
  intro p hp
  cases p
  case entry m =>
    have hne : i ≠ m := fun h => hp (by simp [h])
    simp [Same, hne]
  case store => exact .of_mem_eq rfl
  all_goals simp [Same]

theorem frame_editEntry (s : State) (i : RosterIndex) (f : Entry → Entry) : Frame [.entry i] s (s.editEntry i f) :=
  frame_setEntry s i _

theorem frame_headerEdit (s : State) : Frame [] s s.headerEdit := by
  intro p _
  cases p
  case store => exact .of_mem_eq rfl
  all_goals simp [Same]

theorem frame_setRunState (s : State) (r : RunState) : Frame [.runState] s (s.setRunState r) := by
  intro p hp
  cases p
  case runState => simp at hp
  case store => exact .of_mem_eq rfl
  all_goals simp [Same]

theorem frame_withNotices (s : State) (l : List Notice) : Frame [.notices] s (s.withNotices l) := by
  intro p hp
  cases p
  case notices => simp at hp
  case store => exact .of_mem_eq rfl
  all_goals simp [Same]

theorem frame_raiseAlert (s : State) (source : Nat) (code : AlertCode) :
    Frame [.notices, .alertSeen] s (s.raiseAlert source code) := by
  intro p hp
  have h := frame_withNotices s (mergeAlert source code s.notices) p (by simp_all)
  cases p
  case alertSeen => simp at hp
  case store => exact .of_mem_eq rfl
  all_goals exact h

theorem frame_raiseOutcome (s : State) (i : RosterIndex) (code : OutcomeCode) (reason : Reason) :
    Frame [.notices] s (s.raiseOutcome i code reason) := frame_withNotices s _

theorem frame_placeClaim (s : State) (c : Claimant) : Frame [.claims] s (s.placeClaim c) := by
  intro p hp
  cases p
  case claims => simp at hp
  case store => exact .of_mem_eq rfl
  all_goals simp [Same]

theorem frame_withdrawClaim (s : State) (c : Claimant) : Frame [.claims] s (s.withdrawClaim c) := by
  intro p hp
  cases p
  case claims => simp at hp
  case store => exact .of_mem_eq rfl
  all_goals simp [Same]

theorem frame_setRequests (s : State) (l : List Request) : Frame [.requests] s { s with requests := l } := by
  intro p hp
  cases p
  case requests => simp at hp
  case store => exact .of_mem_eq rfl
  all_goals first | rfl | exact ⟨rfl, rfl⟩ | exact ⟨rfl, rfl, rfl⟩ | exact ⟨rfl, rfl, rfl, rfl⟩

theorem frame_setReleases (s : State) (l : List Release) : Frame [.releases] s { s with releases := l } := by
  intro p hp
  cases p
  case releases => simp at hp
  case store => exact .of_mem_eq rfl
  all_goals first | rfl | exact ⟨rfl, rfl⟩ | exact ⟨rfl, rfl, rfl⟩ | exact ⟨rfl, rfl, rfl, rfl⟩

theorem frame_setClaims (s : State) (l : List Claimant) : Frame [.claims] s { s with claims := l } := by
  intro p hp
  cases p
  case claims => simp at hp
  case store => exact .of_mem_eq rfl
  all_goals first | rfl | exact ⟨rfl, rfl⟩ | exact ⟨rfl, rfl, rfl⟩ | exact ⟨rfl, rfl, rfl, rfl⟩

theorem frame_setExits (s : State) (l : List ExitTransfer) : Frame [.exits] s { s with exits := l } := by
  intro p hp
  cases p
  case exits => simp at hp
  case store => exact .of_mem_eq rfl
  all_goals first | rfl | exact ⟨rfl, rfl⟩ | exact ⟨rfl, rfl, rfl⟩ | exact ⟨rfl, rfl, rfl, rfl⟩

theorem frame_setOutfeedQueue (s : State) (l : List Position) : Frame [.outfeed] s { s with outfeedQueue := l } := by
  intro p hp
  cases p
  case outfeed => simp at hp
  case store => exact .of_mem_eq rfl
  all_goals first | rfl | exact ⟨rfl, rfl⟩ | exact ⟨rfl, rfl, rfl⟩ | exact ⟨rfl, rfl, rfl, rfl⟩

theorem frame_evalPermits (s : State) : Frame [.lane .a, .lane .b] s s.evalPermits := by
  intro p hp
  cases p
  case lane m => cases m <;> simp at hp
  case store => exact .of_mem_eq rfl
  all_goals simp [Same]

theorem frame_drainTest (s : State) : Frame [.runState] s s.drainTest := by
  unfold State.drainTest
  split
  · exact frame_setRunState s _
  · exact .refl _ s

/-! ## The infeed permits -/

/-- The permits as their conditions give them, after the re-evaluation (R71). -/
theorem permitsHeld_evalPermits (s : State) : PermitsHeld s.evalPermits := by
  intro l
  cases l <;> rfl

/-- What the permit conditions read decides them (R71). -/
theorem permitHolds_congr {s t : State} {l : LaneId} (hr : t.runState = s.runState)
    (hs : (t.lane l).state = (s.lane l).state) (hq : (t.lane l).queue.length = (s.lane l).queue.length)
    (hw : t.settings = s.settings) (hf : t.freeCount = s.freeCount) : t.permitHolds l = s.permitHolds l := by
  rw [State.permitHolds, State.permitHolds, State.work, State.work, hr, hs, hq, hw, hf]

/-- A step that leaves the run state, the settings, the free count and both lanes alone keeps the permits as their conditions
give them. -/
theorem PermitsHeld.of_frame {L : List Part} {s t : State} (h : PermitsHeld s) (k : Frame L s t) (hr : .runState ∉ L)
    (hw : .settings ∉ L) (hf : .freeCount ∉ L) (hl : ∀ l, .lane l ∉ L) : PermitsHeld t := by
  intro l
  have hb : (t.lane l).bare = (s.lane l).bare := k _ (hl l)
  have h1 : (t.lane l).permit = (s.lane l).permit :=
    show (t.lane l).bare.permit = (s.lane l).bare.permit by rw [hb]
  have h2 : (t.lane l).state = (s.lane l).state :=
    show (t.lane l).bare.state = (s.lane l).bare.state by rw [hb]
  have h3 : (t.lane l).queue = (s.lane l).queue :=
    show (t.lane l).bare.queue = (s.lane l).bare.queue by rw [hb]
  rw [PermitSet, h1, permitHolds_congr (k _ hr) h2 (by rw [h3]) (k _ hw).1 (k _ hf)]
  exact h l

/-! ## Roster reports -/

theorem frame_countAllocated (s : State) : Frame [.freeCount] s s.countAllocated := by
  intro p hp
  cases p
  case freeCount => simp at hp
  case store => exact .of_mem_eq rfl
  all_goals first | rfl | exact ⟨rfl, rfl⟩ | exact ⟨rfl, rfl, rfl⟩ | exact ⟨rfl, rfl, rfl, rfl⟩

theorem frame_reportBegin (s : State) (item : Item) (dest : Place) :
    Frame (itemParts item) s (s.reportBegin item dest) := by
  cases item with
  | marker => exact .refl _ s
  | entry i =>
    simp only [State.reportBegin, itemParts]
    split
    · exact frame_editEntry s i _
    · exact .refl _ s

theorem frame_reportEnd (s : State) (item : Item) (place : Place) :
    Frame (itemParts item) s (s.reportEnd item place) := by
  cases item with
  | marker => exact .refl _ s
  | entry i =>
    simp only [State.reportEnd, itemParts]
    split
    · exact frame_editEntry s i _
    · exact .refl _ s

theorem frame_closeEntry (s : State) (i : RosterIndex) (code : OutcomeCode) (reason : Reason) :
    Frame [.entry i, .notices] s (s.closeEntry i code reason) :=
  (frame_editEntry s i _).seq (frame_raiseOutcome _ i code reason) (by simp) (by simp)

theorem frame_closeJammed (s : State) (item : Item) :
    Frame (.notices :: itemParts item) s (s.closeJammed item) := by
  cases item with
  | marker => exact .refl _ s
  | entry i =>
    simp only [State.closeJammed, itemParts]
    split
    all_goals first | exact .refl _ s | exact (frame_closeEntry s i _ _).mono (by simp)

theorem frame_closeAtExit (s : State) (i : RosterIndex) (exit : Exit) :
    Frame [.entry i, .notices] s (s.closeAtExit i exit) := by
  unfold State.closeAtExit
  split
  · split
    · exact frame_closeEntry s i _ _
    · exact .refl _ s
  · exact .refl _ s

theorem frame_closeCleared (s : State) (i : RosterIndex) : Frame [.entry i, .notices] s (s.closeCleared i) := by
  unfold State.closeCleared
  split
  all_goals first | exact .refl _ s | exact frame_closeEntry s i _ _

theorem frame_closeNoCylinder (s : State) (i : RosterIndex) :
    Frame [.entry i, .notices] s (s.closeNoCylinder i) := by
  unfold State.closeNoCylinder
  exact .ite (fun _ => frame_closeEntry s i _ _) (fun _ => .refl _ s)

theorem frame_reportAttempt (s : State) (i : RosterIndex) : Frame [.entry i] s (s.reportAttempt i) := by
  unfold State.reportAttempt
  exact .ite (fun _ => frame_editEntry s i _) (fun _ => .refl _ s)

theorem frame_reportVoid (s : State) (i : RosterIndex) (c : VoidCause) (m : Option Measurements) :
    Frame [.entry i] s (s.reportVoid i c m) := by
  unfold State.reportVoid
  exact .ite (fun _ => frame_editEntry s i _) (fun _ => .refl _ s)

theorem frame_reportVerdict (s : State) (i : RosterIndex) (v : Verdict) (m : Measurements) :
    Frame [.entry i] s (s.reportVerdict i v m) := by
  unfold State.reportVerdict
  exact .ite (fun _ => frame_editEntry s i _) (fun _ => .refl _ s)

theorem frame_reportAborted (s : State) (i : RosterIndex) : Frame [.entry i] s (s.reportAborted i) := by
  unfold State.reportAborted
  exact .ite (fun _ => frame_editEntry s i _) (fun _ => .refl _ s)

theorem frame_reportDoubt (s : State) (st : StationId) (i : RosterIndex) :
    Frame [.entry i] s (s.reportDoubt st i) := by
  unfold State.reportDoubt
  exact .ite (fun _ => frame_editEntry s i _) (fun _ => .refl _ s)

theorem frame_reportUnannounced (s : State) (i : RosterIndex) : Frame [.entry i] s (s.reportUnannounced i) := by
  unfold State.reportUnannounced
  exact .ite (fun _ => frame_editEntry s i _) (fun _ => .refl _ s)

/-! ## Requests and releases of a bay -/

theorem frame_removeRequest (s : State) (n : BayId) : Frame [.requests] s (s.removeRequest n) := frame_setRequests s _

theorem frame_withdrawRequest (s : State) (n : BayId) : Frame [.requests, .bay n] s (s.withdrawRequest n) :=
  (frame_removeRequest s n).seq (frame_setBay _ n _) (by simp) (by simp)

theorem frame_sendRelease (s : State) (n : BayId) (i : IntensifierId) : Frame [.releases] s (s.sendRelease n i) :=
  frame_setReleases s _

theorem frame_releaseCoupled (s : State) (n : BayId) : Frame [.releases, .bay n] s (s.releaseCoupled n) := by
  unfold State.releaseCoupled
  split
  · exact (frame_sendRelease s n _).seq (frame_setBay _ n _) (by simp) (by simp)
  · exact .refl _ s

theorem frame_takeRelease (s : State) (r : Release) :
    Frame [.requests, .intensifier .one, .intensifier .two] s (s.takeRelease r) := by
  unfold State.takeRelease
  split
  · exact (frame_setIntensifier s _ _).mono (by cases r.intensifier <;> simp)
  · exact (frame_removeRequest s _).mono (by simp)

theorem frame_foldl_takeRelease (l : List Release) (s : State) :
    Frame [.requests, .intensifier .one, .intensifier .two] s (l.foldl State.takeRelease s) := by
  induction l generalizing s with
  | nil => exact .refl _ s
  | cons r rest ih => exact (frame_takeRelease s r).trans (ih _)

theorem frame_takeReleasesOf (s : State) (n : BayId) :
    Frame [.requests, .releases, .intensifier .one, .intensifier .two] s (s.takeReleasesOf n) :=
  (frame_setReleases s _).seq (frame_foldl_takeRelease _ _) (by simp) (by simp)

theorem frame_placeRequest (s : State) (n : BayId) :
    Frame [.bay n, .requests, .releases, .intensifier .one, .intensifier .two] s (s.placeRequest n) :=
  ((frame_takeReleasesOf s n).seq (frame_setRequests _ _) (N := [.requests, .releases, .intensifier .one,
    .intensifier .two]) (by simp) (by simp)).seq (frame_setBay _ n _) (by simp) (by simp)

/-! ## State entries of a bay -/

theorem frame_beginCheck (s : State) (n : BayId) : Frame [.bay n] s (s.beginCheck n) := frame_setBay s n _

theorem frame_enterZeroing (s : State) (n : BayId) (rp : Option ResumePoint) :
    Frame [.bay n] s (s.enterZeroing n rp) := by
  unfold State.enterZeroing
  exact .ite (fun _ => (frame_setBay s n _).trans (frame_setBay _ n _))
    (fun _ => (frame_setBay s n _).trans (frame_beginCheck _ n))

theorem frame_keepStep (s : State) (n : BayId) (k : KeptStep) : Frame [.bay n] s (s.keepStep n k) := frame_setBay s n _

theorem frame_zeroingStep (s : State) (n : BayId) (rp : ResumePoint) : Frame [.bay n] s (s.zeroingStep n rp) := by
  unfold State.zeroingStep
  exact .ite (fun _ => frame_keepStep s n _) (fun _ => frame_enterZeroing s n _)

theorem frame_testProactive (s : State) (n : BayId) : Frame [.bay n] s (s.testProactive n) := by
  unfold State.testProactive
  exact .ite (fun _ => frame_enterZeroing s n _) (fun _ => .refl _ s)

theorem frame_testIdleTriggers (s : State) (n : BayId) : Frame [.bay n] s (s.testIdleTriggers n) := by
  unfold State.testIdleTriggers
  exact .ite (fun _ => frame_enterZeroing s n _) (fun _ => .refl _ s)

theorem frame_enterIdle (s : State) (n : BayId) : Frame [.bay n] s (s.enterIdle n) :=
  (frame_setBay s n _).trans (frame_testIdleTriggers _ n)

theorem frame_reportOccupancy (s : State) (l : LaneId) :
    Frame ((groupOf l).map Part.bay) s (s.reportOccupancy l) := by
  cases l <;> exact ((frame_testProactive s _).mono (by simp [groupOf])).trans
    (((frame_testProactive _ _).mono (by simp [groupOf])).trans ((frame_testProactive _ _).mono (by simp [groupOf])))

theorem frame_enterReleasing (s : State) (n : BayId) (cause : ReleaseCause) :
    Frame [.bay n, .requests, .releases] s (s.enterReleasing n cause) :=
  ((frame_withdrawRequest s n).seq (frame_releaseCoupled _ n) (N := [.bay n, .requests, .releases]) (by simp)
    (by simp)).trans ((frame_setBay _ n _).mono (by simp))

theorem frame_testShortfall (s : State) (n : BayId) :
    Frame [.bay n, .requests, .releases] s (s.testShortfall n) := by
  unfold State.testShortfall
  refine .ite (fun _ => ?_) (fun _ => .refl _ s)
  split
  · exact .ite (fun _ => frame_enterReleasing s n _)
      (fun _ => (frame_withdrawRequest s n).seq (frame_zeroingStep _ n _) (by simp) (by simp))
  · exact .ite (fun _ => .refl _ s) (fun _ => (frame_zeroingStep s n _).mono (by simp))
  · exact .refl _ s

/-- The parts a bay's request can change. -/
def requestParts (n : BayId) : List Part := [.bay n, .requests, .releases, .intensifier .one, .intensifier .two]

theorem frame_enterAwait (s : State) (n : BayId) : Frame (requestParts n) s (s.enterAwait n) :=
  ((frame_setBay s n _).mono (by simp [requestParts])).trans
    ((frame_placeRequest _ n).trans ((frame_testShortfall _ n).mono (by simp)))

theorem frame_fillComplete (s : State) (n : BayId) : Frame (requestParts n) s (s.fillComplete n) :=
  ((frame_setBay s n _).mono (by simp [requestParts])).trans (frame_enterAwait _ n)

theorem frame_testFilled (s : State) (n : BayId) : Frame (requestParts n) s (s.testFilled n) := by
  unfold State.testFilled
  exact .ite (fun _ => frame_fillComplete s n) (fun _ => .refl _ s)

/-- The entry a bay holds, as a part. -/
def heldParts (s : State) (n : BayId) : List Part := ((s.bay n).index.map Part.entry).toList

theorem frame_reportBayAttempt (s : State) (n : BayId) : Frame (heldParts s n) s (s.reportBayAttempt n) := by
  unfold State.reportBayAttempt heldParts
  split
  · rename_i i h; simpa [h] using frame_reportAttempt s i
  · exact .refl _ s

theorem frame_enterFilling (s : State) (n : BayId) :
    Frame (requestParts n ++ heldParts s n) s (s.enterFilling n) :=
  ((frame_reportBayAttempt s n).mono (by simp)).trans
    (((frame_setBay _ n _).mono (by simp [requestParts])).trans ((frame_testFilled _ n).mono (by simp)))

theorem frame_fillStep (s : State) (n : BayId) : Frame (requestParts n ++ heldParts s n) s (s.fillStep n) := by
  unfold State.fillStep
  exact .ite (fun _ => (frame_keepStep s n _).mono (by simp [requestParts]))
    (fun _ => .ite (fun _ => (frame_enterZeroing s n _).mono (by simp [requestParts]))
      (fun _ => frame_enterFilling s n))

theorem frame_unloadToOutfeed (s : State) (n : BayId) : Frame [.bay n, .claims] s (s.unloadToOutfeed n) :=
  (frame_setBay s n _).seq (frame_placeClaim _ _) (by simp) (by simp)

/-- The parts a void of a bay can change. -/
def voidParts (s : State) (n : BayId) : List Part :=
  .lane (laneOf n) :: .claims :: (requestParts n ++ heldParts s n)

theorem frame_unloadDecision (s : State) (n : BayId) : Frame (voidParts s n) s (s.unloadDecision n) := by
  unfold State.unloadDecision
  split
  · rename_i i h
    refine .ite (fun _ => ?_) (fun _ => (frame_fillStep s n).mono (by simp [voidParts]))
    refine ((frame_setBay s n _).mono (by simp [voidParts, requestParts])).trans
      (((frame_setLane _ (laneOf n) _).mono (by simp [voidParts])).trans ((frame_reportBegin _ _ _).mono ?_))
    simp [itemParts, voidParts, heldParts, h]
  · exact .refl _ s

theorem frame_bayFault (s : State) (n : BayId) (cause : AlertCode) :
    Frame [.bay n, .requests, .notices, .alertSeen] s (s.bayFault n cause) :=
  ((frame_withdrawRequest s n).mono (by simp)).trans
    (((frame_setBay _ n _).mono (by simp)).trans ((frame_raiseAlert _ _ _).mono (by simp)))

theorem frame_bayUnloaded (s : State) (n : BayId) :
    Frame [.bay n, .requests, .notices, .alertSeen] s (s.bayUnloaded n) := by
  unfold State.bayUnloaded
  exact .ite (fun _ => ((frame_setBay s n _).mono (by simp)).trans (frame_bayFault _ n _))
    (fun _ => ((frame_setBay s n _).mono (by simp)).trans ((frame_enterIdle _ n).mono (by simp)))

/-- A report for the entry a bay holds leaves the bay holding it. -/
theorem heldParts_of_index {s t : State} {n : BayId} (h : (t.bay n).index = (s.bay n).index) :
    heldParts t n = heldParts s n := by
  simp [heldParts, h]

theorem voidParts_of_index {s t : State} {n : BayId} (h : (t.bay n).index = (s.bay n).index) :
    voidParts t n = voidParts s n := by
  simp [voidParts, heldParts, h]

theorem reportVoid_bay (s : State) (i : RosterIndex) (c : VoidCause) (m : Option Measurements) (n : BayId) :
    (s.reportVoid i c m).bay n = s.bay n :=
  frame_reportVoid s i c m (.bay n) (by simp)

theorem reportAborted_bay (s : State) (i : RosterIndex) (n : BayId) : (s.reportAborted i).bay n = s.bay n :=
  frame_reportAborted s i (.bay n) (by simp)

theorem frame_voidAndAct (s : State) (n : BayId) (c : VoidCause) (m : Option Measurements) (settled : Bool) :
    Frame (voidParts s n) s (s.voidAndAct n c m settled) := by
  unfold State.voidAndAct
  split
  · rename_i i h
    have hf : Frame (voidParts s n) s ((s.reportVoid i c m).updBay n (fun b => { b with releaseCause := none })) :=
      ((frame_reportVoid s i c m).mono (by simp [voidParts, heldParts, h])).trans
        ((frame_setBay _ n _).mono (by simp [voidParts, requestParts]))
    have hi : (((s.reportVoid i c m).updBay n (fun b => { b with releaseCause := none })).bay n).index =
        (s.bay n).index := by
      simp [reportVoid_bay]
    have hp := voidParts_of_index hi
    have hfill := frame_fillStep ((s.reportVoid i c m).updBay n (fun b => { b with releaseCause := none })) n
    have hunload := frame_unloadDecision ((s.reportVoid i c m).updBay n (fun b => { b with releaseCause := none })) n
    rw [hp] at hunload
    rw [heldParts_of_index hi] at hfill
    refine .ite (fun _ => hf.trans ?_) (fun _ => hf.trans ((frame_unloadToOutfeed _ n).mono ?_))
    · split
      · exact hfill.mono (by simp [voidParts])
      all_goals first
        | exact hunload
        | exact .ite (fun _ => (frame_zeroingStep _ n _).mono (by simp [voidParts, requestParts])) (fun _ => hunload)
    · simp [voidParts, requestParts]
  · exact .refl _ s

theorem frame_abortAndUnload (s : State) (n : BayId) :
    Frame (.claims :: .bay n :: heldParts s n) s (s.abortAndUnload n) := by
  unfold State.abortAndUnload
  split
  · rename_i i h
    exact ((frame_reportAborted s i).mono (by simp [heldParts, h])).trans
      ((frame_unloadToOutfeed _ n).mono (by simp))
  · exact .refl _ s

theorem frame_enterSettling (s : State) (n : BayId) : Frame (voidParts s n) s (s.enterSettling n) := by
  have hi : ((s.updBay n (fun b => b.enter .settling)).bay n).index = (s.bay n).index := by simp [Bay.enter]
  have hs : Frame (voidParts s n) s (s.updBay n (fun b => b.enter .settling)) :=
    (frame_setBay s n _).mono (by simp [voidParts, requestParts])
  have ha := frame_abortAndUnload (s.updBay n (fun b => b.enter .settling)) n
  rw [heldParts_of_index hi] at ha
  have ha' : Frame (voidParts s n) (s.updBay n (fun b => b.enter .settling)) _ :=
    ha.mono (by simp [voidParts, requestParts, List.subset_def]; tauto)
  unfold State.enterSettling
  refine .ite (fun _ => hs.trans ha') (fun _ => hs.trans ?_)
  split
  · exact (frame_setBay _ n _).mono (by simp [voidParts, requestParts])
  · exact (frame_setBay _ n _).mono (by simp [voidParts, requestParts])
  · exact ha'
  · have hv := frame_voidAndAct (s.updBay n (fun b => b.enter .settling)) n ‹_› none false
    rwa [voidParts_of_index hi] at hv
  · exact .refl _ _

theorem frame_lapse (s : State) (n : BayId) : Frame [.bay n] s (s.lapse n) := by
  unfold State.lapse
  exact .ite (fun _ => .ite (fun _ => .refl _ s) (fun _ => frame_enterZeroing s n _))
    (fun _ => .ite (fun _ => frame_setBay s n _) (fun _ => .refl _ s))

theorem frame_drivingNotice (s : State) (n : BayId) (i : IntensifierId) : Frame [.bay n] s (s.drivingNotice n i) := by
  unfold State.drivingNotice
  exact .ite (fun _ => frame_setBay s n _) (fun _ => .refl _ s)

theorem frame_faultNotice (s : State) (n : BayId) (i : IntensifierId) :
    Frame [.bay n, .requests, .releases] s (s.faultNotice n i) := by
  unfold State.faultNotice
  exact .ite (fun _ => ((frame_setBay s n _).mono (by simp)).trans (frame_testShortfall _ n)) (fun _ => .refl _ s)

/-! ## Lanes and the outfeed -/

theorem frame_claimForLane (s : State) (l : LaneId) : Frame [.claims] s (s.claimForLane l) := by
  unfold State.claimForLane
  split
  · exact frame_placeClaim s _
  · exact .refl _ s

theorem frame_headAction (s : State) (l : LaneId) : Frame [.lane l, .claims] s (s.headAction l) := by
  unfold State.headAction
  split
  · exact .refl _ s
  · exact (frame_claimForLane s l).mono (by simp)
  · split
    · exact (frame_setLane s l _).mono (by simp)
    · split
      all_goals first
        | exact ((frame_setLane s l _).mono (by simp)).trans ((frame_claimForLane _ l).mono (by simp))
        | exact (frame_setLane s l _).mono (by simp)
    all_goals exact .refl _ s

theorem frame_afterPop (s : State) (l : LaneId) :
    Frame (.lane .a :: .lane .b :: .claims :: (groupOf l).map Part.bay) s (s.afterPop l) :=
  ((frame_headAction s l).mono (by cases l <;> simp)).trans
    (((frame_reportOccupancy _ l).mono (fun p hp => by simp [hp])).trans ((frame_evalPermits _).mono (by simp)))

theorem frame_beginOutfeed (s : State) (item : Item) (source : TransferSource) :
    Frame (.outfeed :: itemParts item) s (s.beginOutfeed item source) :=
  ((frame_setOutfeedQueue s _).mono (by simp)).trans ((frame_reportBegin _ _ _).mono (by simp))

theorem frame_outfeedJam (s : State) : Frame [.outfeed, .notices, .alertSeen] s s.outfeedJam := by
  refine Frame.trans (t := { s with outfeedState := .fault }) ?_ ((frame_raiseAlert _ _ _).mono (by simp))
  intro p hp
  cases p
  case outfeed => simp at hp
  case store => exact .of_mem_eq rfl
  all_goals first | rfl | exact ⟨rfl, rfl⟩ | exact ⟨rfl, rfl, rfl⟩ | exact ⟨rfl, rfl, rfl, rfl⟩

/-- The parts the end of a transfer can change at its source. -/
def sourceParts : TransferSource → List Part
  | .laneHead l => [.lane l]
  | .trackHead l => [.lane l]
  | .bay n => [.bay n, .requests, .notices, .alertSeen]
  | .outfeedHead => [.outfeed]
  | .station st => [.station st]

theorem frame_setHeadInFlight (s : State) (b : Bool) : Frame [.outfeed] s { s with outfeedHeadInFlight := b } := by
  intro p hp
  cases p
  case outfeed => simp at hp
  case store => exact .of_mem_eq rfl
  all_goals first | rfl | exact ⟨rfl, rfl⟩ | exact ⟨rfl, rfl, rfl⟩ | exact ⟨rfl, rfl, rfl, rfl⟩

theorem frame_tellSource (s : State) (t : Transit) : Frame (sourceParts t.source) s (s.tellSource t) := by
  cases h : t.source with
  | laneHead l =>
    simp only [State.tellSource, h, sourceParts]
    split
    · exact .refl _ s
    · exact frame_setLane s l _
  | trackHead l => simp only [State.tellSource, h, sourceParts]; exact frame_setLane s l _
  | bay n => simp only [State.tellSource, h, sourceParts]; exact frame_bayUnloaded s n
  | outfeedHead => simp only [State.tellSource, h, sourceParts]; exact frame_setHeadInFlight s _
  | station st => simp only [State.tellSource, h, sourceParts]; exact frame_setStation s st _

/-! ## Stations -/

theorem frame_stationFault (s : State) (st : StationId) (cause : AlertCode) :
    Frame [.station st, .notices, .alertSeen] s (s.stationFault st cause) :=
  ((frame_setStation s st _).mono (by simp)).trans ((frame_raiseAlert _ _ _).mono (by simp))

/-- The entry on a station's nest, as a part. -/
def nestParts (s : State) (st : StationId) : List Part := ((s.station st).index.map Part.entry).toList

theorem frame_stationDoubt (s : State) (st : StationId) : Frame (nestParts s st) s (s.stationDoubt st) := by
  unfold State.stationDoubt nestParts
  split
  · rename_i i h; simpa [h] using frame_reportDoubt s st i
  · exact .refl _ s

theorem frame_faultedResult (s : State) (st : StationId) (cause : AlertCode) :
    Frame (.station st :: .notices :: .alertSeen :: nestParts s st) s (s.faultedResult st cause) :=
  ((frame_stationDoubt s st).mono (fun p hp => by simp [hp])).trans
    (((frame_setStation _ st _).mono (by simp)).trans ((frame_raiseAlert _ _ _).mono (by simp)))

end Sys2Proof.Machine
end

