-- ==== Sys2Proof/Laws/Commands.lean ====
section
/-! SUPPORT. How a command word is carried through to its result (R166): the laws of the mailbox around an owner's effect. -/

namespace Sys2Proof.Machine

/-- The code of a command word (R182). -/
theorem commandCode_commandWord (code : Byte) (arg : BitVec 24) : commandCode (commandWord code arg) = code.toNat := by
  unfold commandCode commandWord
  rw [BitVec.toNat_ushiftRight, BitVec.toNat_append, Nat.shiftRight_or_distrib, Nat.shiftLeft_shiftRight,
    Nat.shiftRight_eq_div_pow arg.toNat, Nat.div_eq_of_lt (by have := arg.isLt; omega)]
  simp

/-- A command that is heard is answered by its owner. -/
theorem carry_heard {code : Byte} {arg : BitVec 24} {s : State} (h : Heard code arg s) (exempt : Bool)
    (owner : State → State × ResultCode) : s.carry (commandWord code arg) exempt owner =
      (owner (s.withCommand (commandWord code arg))).1.completed code (owner (s.withCommand (commandWord code arg))).2 := by
  have hb := h.1
  have hr : (s.withCommand (commandWord code arg)).runState ≠ .awaitingTables := h.2
  unfold State.carry State.consult
  rw [if_neg (by simp [hb]), if_neg (fun hc => hr hc.1), commandCode_commandWord]
  simp

theorem frame_withCommand (s : State) (word : Word) : Frame [.mailbox] s (s.withCommand word) := by
  intro p hp
  cases p
  case mailbox => simp at hp
  case store => exact .of_mem_eq rfl
  all_goals first | rfl | exact ⟨rfl, rfl⟩ | exact ⟨rfl, rfl, rfl⟩

theorem frame_completed (s : State) (code : Byte) (result : ResultCode) :
    Frame [.mailbox] s (s.completed code result) := by
  intro p hp
  cases p
  case mailbox => simp at hp
  case store => exact .of_mem_eq rfl
  all_goals first | rfl | exact ⟨rfl, rfl⟩ | exact ⟨rfl, rfl, rfl⟩

/-- A command step that is heard publishes its owner's answer. -/
theorem commandStep_heard {code : Byte} {arg : BitVec 24} {s : State} (h : Heard code arg s) (exempt : Bool)
    (owner : State → State × ResultCode) : s.commandStep (commandWord code arg) exempt owner =
      (s.publish ((owner (s.withCommand (commandWord code arg))).1.completed code
        (owner (s.withCommand (commandWord code arg))).2)).markEmptied true := by
  unfold State.commandStep
  rw [carry_heard h, h.1]; rfl

/-- The mark of an emptied CMB belongs to no part. -/
theorem Same.markEmptied {p : Part} {s t : State} (h : Same p s t) (b : Bool) : Same p s (t.markEmptied b) := by
  cases p <;> exact h

theorem Frame.markEmptied {L : List Part} {s t : State} (h : Frame L s t) (b : Bool) : Frame L s (t.markEmptied b) :=
  fun p hp => (h p hp).markEmptied b

/-- The frame of a command is that of its owner's effect, and the mailbox. -/
theorem frame_command {L : List Part} {s u : State} {word : Word} (h : Frame L (s.withCommand word) u) (code : Byte)
    (result : ResultCode) (b : Bool) :
    Frame (.mailbox :: L) s ((s.publish (u.completed code result)).markEmptied b) :=
  ((((frame_withCommand s word).seq h (by simp) (by simp)).trans
    ((frame_completed u code result).mono (by simp))).publish).markEmptied b

/-- STAT and CMB after an owner's effect that left the mailbox alone. -/
theorem answered_of_frame {L : List Part} {s u : State} {code : Byte} {arg : BitVec 24} (result : ResultCode)
    (h : Frame L (s.withCommand (commandWord code arg)) u) (hm : .mailbox ∉ L) :
    Answered code arg result ((s.publish (u.completed code result)).markEmptied true) :=
  ⟨(h .mailbox hm).1, rfl, rfl, rfl, rfl⟩

/-- An answer with no effect. -/
theorem answeredOnly_refl (s : State) (code : Byte) (arg : BitVec 24) (result : ResultCode) :
    AnsweredOnly code arg result s
      ((s.publish ((s.withCommand (commandWord code arg)).completed code result)).markEmptied true) :=
  ⟨answered_of_frame result (.refl [] _) (by simp), frame_command (.refl [] _) code result true⟩

/-! ## Writes of CMB (R165; log 31) -/

theorem cmbWrite_full {s : State} (word : Word) (h : s.cmbFull = true) :
    s.cmbWrite word = { s with overwriteFlag := true } := by simp [State.cmbWrite, h]

theorem cmbWrite_empty {s : State} (word : Word) (h : s.cmbFull = false) (hj : s.justEmptied = false) :
    s.cmbWrite word = s.storeWord word := by simp [State.cmbWrite, h, hj]

/-- Right behind a command a write is discarded or stored, and either way a free value has been drawn. -/
theorem cmbWrite_racing {s : State} (word : Word) (h : s.cmbFull = false) (hj : s.justEmptied = true) :
    s.cmbWrite word = { s with choices := s.choices + 1, overwriteFlag := true } ∨
      s.cmbWrite word = { s with choices := s.choices + 1 }.storeWord word := by
  simp only [State.cmbWrite, h, hj, State.racingWrite]
  cases Config.writeBeforeEmptying s.choices <;> simp

end Sys2Proof.Machine
end

