-- ==== Sys2Proof/Laws/Bays.lean ====
section
/-! SUPPORT. What each shared operation of a bay gives: the bay, the request queue, the releases and the claims after it. -/

namespace Sys2Proof.Machine

theorem stopped_eq_false {s : State} (h : s.runState ≠ .eStopped) : s.stopped = false := by simp [State.stopped, h]

theorem stopped_eq_true {s : State} (h : s.runState = .eStopped) : s.stopped = true := by simp [State.stopped, h]

/-! ## Requests and releases -/

@[simp] theorem removeRequest_requests (s : State) (n : BayId) :
    (s.removeRequest n).requests = s.requests.filter (fun r => decide (r.bay ≠ n)) := rfl

@[simp] theorem sendRelease_releases (s : State) (n : BayId) (i : IntensifierId) :
    (s.sendRelease n i).releases = s.releases ++ [⟨n, i⟩] := rfl

/-- A withdrawal (R134). -/
theorem withdrawRequest_eq (s : State) (n : BayId) :
    s.withdrawRequest n = (s.removeRequest n).setBay n { s.bay n with requested := false } := rfl

@[simp] theorem withdrawRequest_bay (s : State) (n m : BayId) :
    (s.withdrawRequest n).bay m = if n = m then { s.bay n with requested := false } else s.bay m := by
  simp [withdrawRequest_eq]

@[simp] theorem withdrawRequest_requests (s : State) (n : BayId) :
    (s.withdrawRequest n).requests = s.requests.filter (fun r => decide (r.bay ≠ n)) := rfl

@[simp] theorem withdrawRequest_releases (s : State) (n : BayId) : (s.withdrawRequest n).releases = s.releases := rfl

@[simp] theorem withdrawRequest_entry (s : State) (n : BayId) (i : RosterIndex) :
    (s.withdrawRequest n).entry i = s.entry i := rfl

@[simp] theorem withdrawRequest_claims (s : State) (n : BayId) : (s.withdrawRequest n).claims = s.claims := rfl

@[simp] theorem withdrawRequest_stopped (s : State) (n : BayId) : (s.withdrawRequest n).stopped = s.stopped := rfl

@[simp] theorem withdrawRequest_after (s : State) (n : BayId) (k : Nat) : (s.withdrawRequest n).after k = s.after k := rfl

/-- A bay releases its coupled intensifier (R103, R137). -/
@[simp] theorem releaseCoupled_bay (s : State) (n m : BayId) :
    (s.releaseCoupled n).bay m = if n = m then { s.bay n with coupled := none } else s.bay m := by
  unfold State.releaseCoupled
  split
  · simp
  · rename_i h
    split
    · rename_i hm; subst hm
      generalize s.bay n = b at h
      cases b; simp_all
    · rfl

@[simp] theorem releaseCoupled_releases (s : State) (n : BayId) :
    (s.releaseCoupled n).releases = s.releases ++ ((s.bay n).coupled.map (fun i => Release.mk n i)).toList := by
  unfold State.releaseCoupled
  split <;> simp_all

@[simp] theorem releaseCoupled_requests (s : State) (n : BayId) : (s.releaseCoupled n).requests = s.requests := by
  unfold State.releaseCoupled
  split <;> simp

@[simp] theorem releaseCoupled_lineSeconds (s : State) (n : BayId) :
    (s.releaseCoupled n).lineSeconds = s.lineSeconds := by
  unfold State.releaseCoupled
  split <;> simp

/-- RELEASING entry (R103). -/
theorem enterReleasing_bay (s : State) (n : BayId) (cause : ReleaseCause) :
    (s.enterReleasing n cause).bay n = (s.bay n).releasing cause (s.after 60) := by
  simp [State.enterReleasing, Bay.vented, Bay.enter, outputsOf, Bay.releasing, ventAndDoor, State.after,
    Config.releaseLimit]

theorem releases_enterReleasing (s : State) (n : BayId) (cause : ReleaseCause) :
    Releases n cause s (s.enterReleasing n cause) := by
  refine ⟨congrArg Bay.bare (enterReleasing_bay s n cause), ?_, ?_⟩ <;> simp [State.enterReleasing]

/-! ## State entries -/

/-- ZEROING entry, outside E-STOPPED (R124). -/
theorem enterZeroing_bay {s : State} (n : BayId) (rp : Option ResumePoint) (h : s.stopped = false) :
    (s.enterZeroing n rp).bay n = (s.bay n).checking rp (s.after 40) := by
  simp [State.enterZeroing, h, State.beginCheck, Bay.zeroed, Bay.enter, outputsOf, Bay.checking, checkOutputs,
    Config.checkTime]

/-- FAULT entry (R118). -/
theorem bayFault_bay (s : State) (n : BayId) (cause : AlertCode) :
    (s.bayFault n cause).bay n = (s.bay n).faultedWith cause := by
  simp [State.bayFault, Bay.faulted, Bay.enter, outputsOf, Bay.faultedWith]

/-- UNLOADING entry with a claim (R107). -/
@[simp] theorem unloadToOutfeed_bay (s : State) (n : BayId) : (s.unloadToOutfeed n).bay n = (s.bay n).unloading := by
  simp [State.unloadToOutfeed, Bay.unloadStarted, Bay.enter, outputsOf, Bay.unloading]

theorem claimed_unloadToOutfeed (s : State) (n : BayId) : Claimed (.bay n) s (s.unloadToOutfeed n) := by
  simp [Claimed, State.unloadToOutfeed, State.placeClaim]

@[simp] theorem unloadToOutfeed_entry (s : State) (n : BayId) (i : RosterIndex) :
    (s.unloadToOutfeed n).entry i = s.entry i := rfl

/-- AWAIT INTENSIFIER entry with enough validity (R98). -/
theorem placeRequest_bay (s : State) (n : BayId) :
    (s.placeRequest n).bay n = { s.bay n with requested := true } := by
  have h := frame_takeReleasesOf s n (.bay n) (by simp)
  simp only [Same] at h
  simp [State.placeRequest, h]

theorem testShortfall_of_enough {s : State} {n : BayId} (h : s.short n = false) : s.testShortfall n = s := by
  simp [State.testShortfall, h]

/-! ## The drain test (R177) -/

theorem drained_completed (t : State) (code : Byte) (result : ResultCode) :
    (t.completed code result).drained = t.drained := rfl

theorem drained_setRunState (t : State) (r : RunState) : (t.setRunState r).drained = t.drained := rfl

theorem drained_drainTest (t : State) : t.drainTest.drained = t.drained := by
  unfold State.drainTest
  split <;> rfl

theorem drained_publish (s t : State) : (s.publish t).drained = t.drained := by
  have hb (n : BayId) : ((s.publish t).bay n).occupied = (t.bay n).occupied := by rw [publish_bay]; simp only [Bay.occupied]
  have hl (l : LaneId) : ((s.publish t).lane l).empty = (t.lane l).empty := by rw [publish_lane]; simp only [Lane.empty]
  have hs (st : StationId) : ((s.publish t).station st).holdsLine = (t.station st).holdsLine := by
    rw [publish_station]; simp only [Station.holdsLine]
  have ho : (s.publish t).outfeedEmpty = t.outfeedEmpty := by
    unfold State.outfeedEmpty State.ejectsInFlight
    rw [publish_outfeedQueue, publish_outfeedHeadInFlight, publish_exits]
  exact congrArg₂ (· && ·) (congrArg₂ (· && ·) (congrArg₂ (· && ·) (congrArg₂ (· && ·) (congrArg₂ (· && ·) (hl .a)
    (hl .b)) ho) (congrArg allBays.all (funext fun n => congrArg (! ·) (hb n))))
    (congrArg (! ·) (hs .stamper))) (congrArg (! ·) (hs .defacer))

theorem runState_drainTest (t : State) :
    t.drainTest.runState = if t.runState = .stopping ∧ t.drained = true then .ready else t.runState := by
  unfold State.drainTest
  split <;> rfl

/-- The drain test at the end of an event. -/
theorem drainTested_publish {s u : State} (h : u.runState = s.runState) : DrainTested s (s.publish u.drainTest) := by
  rw [DrainTested, drained_publish, drained_drainTest, publish_runState, runState_drainTest, h]

/-- The drain test at the end of a command. -/
theorem drainTested_command {s u : State} (h : u.runState = s.runState) (code : Byte) (result : ResultCode) :
    DrainTested s (s.publish (u.drainTest.completed code result)) := by
  rw [DrainTested, drained_publish, drained_completed, drained_drainTest, publish_runState, completed_runState,
    runState_drainTest, h]

@[simp] theorem drainTest_bay (s : State) (n : BayId) : s.drainTest.bay n = s.bay n := by
  unfold State.drainTest
  split <;> rfl

@[simp] theorem drainTest_entry (s : State) (i : RosterIndex) : s.drainTest.entry i = s.entry i := by
  unfold State.drainTest
  split <;> rfl

end Sys2Proof.Machine
end

