-- ==== Sys2Proof/Laws/Layout.lean ====
section
/-! SUPPORT. Records as bytes: how long an encoding is, where a field of a record stands, and what the note unit's edit of a
slot leaves in the store. -/

namespace Sys2Proof.Machine

/-! ## The lengths of the encodings (R181) -/

@[simp] theorem length_leBytes (k n : Nat) : (leBytes k n).length = k := by
  induction k generalizing n with
  | zero => rfl
  | succ k ih => simp [leBytes, ih]

@[simp] theorem length_absentBytes (k : Nat) : (absentBytes k).length = k := List.length_replicate

@[simp] theorem length_optBytes (k : Nat) (o : Option Nat) : (optBytes k o).length = k := by
  cases o <;> simp [optBytes]

@[simp] theorem length_optSigned (o : Option Int) : (optSigned o).length = 4 := by
  cases o <;> simp [optSigned]

@[simp] theorem length_optTime (o : Option Seconds) : (optTime o).length = 4 := length_optBytes 4 _

@[simp] theorem length_padBytes (k : Nat) (fill : Byte) (l : List Byte) : (padBytes k fill l).length = k := by
  simp [padBytes]

@[simp] theorem length_optText (k : Nat) (o : Option (List Byte)) : (optText k o).length = k := by
  cases o <;> simp [optText]

/-! ## The fields of a record -/

/-- A field that begins behind the first part stands in the rest. -/
theorem fieldAt_append_of_le {l : List Byte} {offset : Nat} (r : List Byte) (k : Nat) (h : l.length ≤ offset) :
    fieldAt (l ++ r) offset k = fieldAt r (offset - l.length) k := by
  simp [fieldAt, List.drop_append, List.drop_eq_nil_of_le h]

/-- The field at offset 0 of the first part's length is the first part. -/
theorem fieldAt_append_self {l : List Byte} {k : Nat} (r : List Byte) (h : l.length = k) :
    fieldAt (l ++ r) 0 k = l := by
  simp [fieldAt, ← h]

/-- A record of one field. -/
theorem fieldAt_self {l : List Byte} {k : Nat} (h : l.length = k) : fieldAt l 0 k = l := by
  simp [fieldAt, ← h]

/-! ## The note board -/

/-- A slot lies outside the RQ4's records, inside the store. -/
theorem recordAt_slot (k : SlotId) {o : Nat} (h : o < 0x20) : recordAt (slotBase k + o) = none := by
  have hk := k.isLt
  have h1 : 0xA00 ≤ slotBase k := Nat.le_add_right _ _
  have h2 : slotBase k + o < 0xE00 := by unfold slotBase; omega
  unfold recordAt
  repeat rw [if_neg (by omega)]
  rw [dif_neg (by omega), if_pos (by omega)]

/-- The line computer reads back a byte written on the note board. -/
theorem storeByte_writePlain_self {s : State} {a : Nat} (b : Byte) (hr : recordAt a = none)
    (h : Memory.rising s.mem = true) : (s.writePlain a b).storeByte a = b := by
  rw [storeByte_of_plain _ hr, plainByte_writePlain_self _ _ _ h]

/-- A byte written on the note board leaves every other byte outside the records. -/
theorem storeByte_writePlain_of_ne {s : State} {a c : Nat} (b : Byte) (hr : recordAt c = none) (h : c ≠ a) :
    (s.writePlain a b).storeByte c = s.storeByte c := by
  rw [storeByte_of_plain _ hr, storeByte_of_plain _ hr, plainByte_writePlain_of_ne _ _ h]

/-- The four writes of an edit of a slot: each is read back, and every other byte outside the records is as before. -/
theorem storeByte_slotWrites {u : State} (hu : Memory.rising u.mem = true) (k : SlotId)
    (count state reason index : Byte) :
    let t := (((u.writePlain (slotBase k) count).writePlain (slotBase k + 0x01) state).writePlain (slotBase k + 0x11)
      reason).writePlain (slotBase k + 0x12) index
    t.storeByte (slotBase k + 0x01) = state ∧ t.storeByte (slotBase k + 0x11) = reason ∧
      t.storeByte (slotBase k + 0x12) = index ∧ t.storeByte (slotBase k) = count ∧
      ∀ a, recordAt a = none → a ≠ slotBase k → a ≠ slotBase k + 0x01 → a ≠ slotBase k + 0x11 →
        a ≠ slotBase k + 0x12 → t.storeByte a = u.storeByte a := by
  have h0 : recordAt (slotBase k) = none := recordAt_slot k (o := 0) (by omega)
  have h1 := recordAt_slot k (o := 0x01) (by omega)
  have h11 := recordAt_slot k (o := 0x11) (by omega)
  have h12 := recordAt_slot k (o := 0x12) (by omega)
  have hr : ∀ (t : State) (a : Nat) (b : Byte), Memory.rising t.mem = true →
      Memory.rising (t.writePlain a b).mem = true := fun t a b h => rising_write _ _ _ h
  refine ⟨?_, ?_, ?_, ?_, fun a ha n0 n1 n11 n12 => ?_⟩
  · rw [storeByte_writePlain_of_ne _ h1 (by omega), storeByte_writePlain_of_ne _ h1 (by omega),
      storeByte_writePlain_self _ h1 (hr _ _ _ hu)]
  · rw [storeByte_writePlain_of_ne _ h11 (by omega), storeByte_writePlain_self _ h11 (hr _ _ _ (hr _ _ _ hu))]
  · rw [storeByte_writePlain_self _ h12 (hr _ _ _ (hr _ _ _ (hr _ _ _ hu)))]
  · rw [storeByte_writePlain_of_ne _ h0 (by omega), storeByte_writePlain_of_ne _ h0 (by omega),
      storeByte_writePlain_of_ne _ h0 (by omega), storeByte_writePlain_self _ h0 hu]
  · rw [storeByte_writePlain_of_ne _ ha n12, storeByte_writePlain_of_ne _ ha n11, storeByte_writePlain_of_ne _ ha n1,
      storeByte_writePlain_of_ne _ ha n0]

/-- One edit of a slot writes its state, reason, index and edit count, and nothing else outside the records (R53). -/
theorem slotEdited_editSlot {s : State} (hs : StoreFormed s) (k : SlotId) (state reason index : Byte) :
    SlotEdited k state reason index s (s.editSlot k state reason index) := by
  have h := storeByte_slotWrites
    (u := { s with slotCounts := s.slotCounts.set k.val (s.slotCounts[k] + 2#8) k.isLt }) ((memWf_iff s).1 hs).1 k
    (s.slotCounts[k] + 2#8) state reason index
  refine ⟨h.1, h.2.1, h.2.2.1, h.2.2.2.1, by simp [State.editSlot, State.writePlain], fun a ha n0 n1 n11 n12 =>
    (h.2.2.2.2 a ha n0 n1 n11 n12).trans ?_⟩
  rw [storeByte_of_plain _ ha, storeByte_of_plain _ ha]
  rfl

/-- Publishing leaves an edited slot as the edit left it. -/
theorem SlotEdited.publish {k : SlotId} {state reason index : Byte} {s t : State} (h : SlotEdited k state reason index s t) :
    SlotEdited k state reason index s (s.publish t) := by
  have hp : ∀ {a : Nat}, recordAt a = none → (s.publish t).storeByte a = t.storeByte a :=
    publish_storeByte_of_plain s t
  have h0 : recordAt (slotBase k) = none := recordAt_slot k (o := 0) (by omega)
  refine ⟨?_, ?_, ?_, ?_, h.2.2.2.2.1, fun a ha n0 n1 n11 n12 => (hp ha).trans (h.2.2.2.2.2 a ha n0 n1 n11 n12)⟩
  · rw [hp (recordAt_slot k (by omega)), h.1]
  · rw [hp (recordAt_slot k (by omega)), h.2.1]
  · rw [hp (recordAt_slot k (by omega)), h.2.2.1]
  · rw [hp h0, h.2.2.2.1]

end Sys2Proof.Machine
end

