-- ==== Sys2Proof/Laws/Step.lean ====
section
/-! SUPPORT. What a step can do: it executes one command, or the block idles. -/

namespace Sys2Proof.Machine

@[simp] theorem step_cons {s : State} {c : Instr} {rest : List Instr} (h : s.pending = c :: rest) :
    step s = exec c { s with pending := rest } := by
  unfold step; rw [h]

@[simp] theorem step_nil {s : State} (h : s.pending = []) : step s = idleStep s := by unfold step; rw [h]

/-- A step that answers a next state leaves the state as it was, or executes a command on the state with some queue. -/
theorem step_next {s t : State} (h : step s = .next t) :
    t = s ∨ ∃ c queue, exec c { s with pending := queue } = .next t := by
  cases hp : s.pending with
  | cons c rest => exact .inr ⟨c, rest, by rw [← step_cons hp]; exact h⟩
  | nil =>
    rw [step_nil hp, idleStep] at h
    split at h
    · exact .inr ⟨_, s.pending, h⟩
    · exact .inl (by cases h; rfl)

end Sys2Proof.Machine
end

