-- ==== Sys2Proof/Tests/Slice0.lean ====
section
/-! SUPPORT. Tests: the well-formedness checks, one step of commands on small states, and for every statement with
hypotheses a state and operands that meet them, clause by clause. -/

namespace Sys2Proof.Tests

open Sys2Proof Sys2Proof.Machine

/-! ## States -/

def settings0 : Settings := ⟨[0x4E#8, 0x51#8, 0x30#8, 0x37#8], 1800, 20, 30, 90, 30, 300, 20, 9, 9, 2, 2⟩

/-- Test parameters whose allowance under `settings0` is 270 s. -/
def params0 : Params := ⟨250, 30, 100, 1200, 20, 134, 0, 2⟩

/-- An IDLE bay with a zero reference and a validity. -/
def idleBay (validity : Nat) : Bay :=
  { Bay.powerOn with
    state := .idle
    checksOwed := 0
    validity := validity
    zeroReference := some 388
    latestGauge := 388 }

/-- A hall in RUNNING with tables and a date, and with six IDLE bays. -/
def hall : State :=
  { State.reset with
    runState := .running
    settings := some settings0
    tablesHeld := true
    firstBad := some 0
    date := some ⟨2024, 5⟩
    readerA := { Reader.reset with state := .hunt }
    readerB := { Reader.reset with state := .hunt }
    bays := Vector.replicate 6 (idleBay 1800) }

/-- The hall in E-STOPPED. -/
def stoppedHall : State := { hall with runState := .eStopped, eStopInput := true }

/-- The hall before its tables. -/
def waitingHall : State := { hall with runState := .awaitingTables }

/-- An entry under test. -/
def tested : Entry :=
  { Entry.freeEntry 0#8 with state := .testing, place := .bay 0, route := some .test, params := some params0 }

/-- An entry on its way out with a route. -/
def leaving (route : Route) : Entry :=
  { tested with state := .outbound, route := some route, holdReason := some .aborted, verdict := some .pass }

/-- Bay 1 with entry 5 under test, in a state, with changes. -/
def bayIn (state : BayState) (f : Bay → Bay) : State :=
  (hall.setEntry 5 tested).updBay 0 (fun b => f { b with state := state, index := some 5 })

/-- The same with the bay's pressurised flag set. -/
def pressurisedIn (state : BayState) : State := bayIn state (fun b => { b with pressurised := true })

/-- The same with a validity one second short of the allowance. -/
def shortIn (state : BayState) (pressurised : Bool) : State :=
  bayIn state (fun b => { b with pressurised := pressurised, validity := 269 })

/-- The same with the timer of the state due. -/
def dueIn (state : BayState) : State := bayIn state (fun b => { b with stepTimer := some 0#32 })

/-- A transfer in flight, due or not. -/
def transit (item : Item) (source : TransferSource) (expiry : Seconds) : Transit := ⟨item, source, 20, some expiry, false⟩

/-- Lane A with a queue whose head is entry 5, and that entry. -/
def headed (e : Entry) : State :=
  (hall.setEntry 5 e).updLane .a (fun x => { x with queue := [.entry 5] })

/-- A QUEUED entry with a route. -/
def queued (route : Route) : Entry := { tested with state := .queued, place := .lane .a, route := some route }

/-- The outfeed with a head. -/
def outfeedWith (item : Item) (e : Entry) : State := { hall.setEntry 5 e with outfeedQueue := [.occupied item] }

/-- A station with changes. -/
def stationIn (st : StationId) (f : Station → Station) : State :=
  (hall.setEntry 5 (leaving .stamp)).setStation st (f { Station.powerOn with index := some 5 })

/-- The next state of a command, or the state itself where there is none. -/
def after (c : Instr) (s : State) : State :=
  match exec c s with
  | .next t => t
  | _ => s

/-- The argument of a command with one byte. -/
def one (k : Nat) : BitVec 24 := BitVec.ofNat 24 k

/-! ## Well-formedness and the table's words -/

theorem test_illformed_unknown_command_with_listed_code : Instr.wellFormed (.unknownCommand 0x31000000#32) = false := by
  decide

theorem test_wellformed_unknown_command : Instr.wellFormed (.unknownCommand 0x06000000#32) = true := by decide

theorem test_illformed_byte_write : Instr.wellFormed (.registerWrite 0x40#32 .byte 0x100#32) = false := by decide

theorem test_illformed_halfword_write : Instr.wellFormed (.registerWrite 0x40#32 .halfword 0x10000#32) = false := by
  decide

theorem test_wellformed_writes :
    Instr.wellFormed (.registerWrite 0x40#32 .byte 0xFF#32) = true ∧
      Instr.wellFormed (.registerWrite 0x40#32 .halfword 0xFFFF#32) = true ∧
      Instr.wellFormed (.registerWrite 0x40#32 .word 0xFFFFFFFF#32) = true := by decide

theorem test_no_word_spells_a_command : decodeTableWord 32 0x03000000 = none := rfl

/-! ## One step of a command -/

theorem test_step_takes_the_front : (match step { hall with pending := [.stopLine 0#24, .run 0#24] } with
    | .next t => decide (t.pending = [.run 0#24]) && decide (t.lastCommand = 0x04#8)
    | _ => false) = true := by decide

theorem test_interrupt_enable : (after (.interruptEnable true) hall).statWord = (hall.statWord) ∧
    (after (.interruptEnable true) { hall with nmb := some (.alert 1 .readerBreak) }).interruptOutput = true := by decide

theorem test_set_date : (after (.setDate 0x1805#24) hall).date = some ⟨2024, 5⟩ := by decide

theorem test_run_from_ready :
    (after (.run 0#24) { hall with runState := .ready }).runState = .running ∧
      ((after (.run 0#24) { hall with runState := .ready }).lane .a).permit = true := by decide

theorem test_stop_line_of_a_drained_hall : (after (.stopLine 0#24) hall).runState = .ready := by decide

theorem test_clear_status :
    (after (.clearStatus 0#24) { hall with overwriteFlag := true, alertSeen := true }).statWord = 0x05000020#32 := by decide

theorem test_take_tables_of_an_empty_store :
    (after (.takeTables 0#24) State.reset).lastResult = .tableError ∧
      (after (.takeTables 0#24) State.reset).firstBad = some 1 := by decide

theorem test_hold_in_holding : ((after (.bayHold (one 1)) (bayIn .holding id)).bay 0).suspendedFrom = some .holding := by
  decide

theorem test_resume_asks_again : (after (.bayResume (one 1)) (pressurisedIn .suspended)).requests = [⟨0, 250⟩] := by decide

theorem test_abort_in_filling :
    ((after (.bayAbort (one 1)) (bayIn .filling id)).bay 0).state = .unloading ∧
      ((after (.bayAbort (one 1)) (bayIn .filling id)).entry 5).holdReason = some .aborted ∧
      (after (.bayAbort (one 1)) (bayIn .filling id)).claims = [.bay 0] := by decide

theorem test_bay_zero : ((after (.bayZero (one 1)) hall).bay 0).outputs = ⟨false, false, true, false, false, false, true⟩ := by
  decide

theorem test_take_out_of_service : ((after (.takeOutOfService (one 10)) hall).bay 5).state = .offline := by decide

theorem test_service_line :
    ((after (.serviceLine 0x010101#24) (hall.updBay 0 (fun b => { b with state := .offline }))).bay 0).outputs.fill = true := by
  decide

theorem test_return_of_the_outfeed :
    (after (.returnToService (one 15)) { hall with outfeedState := .fault }).outfeedState = .normal := by decide

theorem test_lane_clear_closes_removed :
    ((after (.laneClear (one 0)) (headed (queued .hold))).entry 5).outcome = some (.removed, .laneClear) := by decide

theorem test_e_stop_vents : ((after .eStopAsserted (bayIn .holding id)).bay 0).releaseCause = some (.void .eStop) := by decide

theorem test_e_stop_release : (after .eStopReleased stoppedHall).runState = .ready := by decide

theorem test_line_seconds_count_down : ((after .lineSecondsAdvance hall).bay 0).validity = 1799 := by decide

theorem test_sync_starts_a_frame : ((after (.readerCharacter .a 0x1D#8 true) hall).reader .a).state = .frame := by decide

theorem test_reader_break : (after (.readerBreak .a) hall).nmb = some (.alert 1 .readerBreak) := by decide

theorem test_unidentified_arrival :
    ((after (.arrival .a) hall).entry 0).holdReason = some .unidentified ∧ (after (.arrival .a) hall).freeCount = 47 ∧
      (after (.arrival .a) hall).claims = [.lane .a] := by decide

theorem test_note_wait_expiry :
    ((after (.noteWaitExpiry .a) ((headed { tested with state := .awaitingNote, route := none }).updLane .a
      (fun x => { x with noteWait := some ⟨30, 0#32⟩ }))).entry 5).holdReason = some .unannounced := by decide

theorem test_allocation_takes_the_lowest_bay :
    ((after (.bayAllocation .a) (headed (queued .test))).bay 0).state = .loading ∧
      ((after (.bayAllocation .a) (headed (queued .test))).entry 5).lastBay = some 0 := by decide

theorem test_claim_grant :
    (after .claimGrant { headed (queued .hold) with claims := [.lane .a] }).outfeedQueue =
      [.reserved (transit (.entry 5) (.laneHead .a) 20#32)] := by decide

theorem test_dispatch_to_the_hold_chute :
    (after .outfeedHeadDispatch (outfeedWith (.entry 5) (leaving .hold))).exits =
      [⟨transit (.entry 5) .outfeedHead 20#32, .holdChute⟩] := by decide

theorem test_loading_end_fills :
    ((after (.loadingEnd 0) (bayIn .loading (fun b =>
      { b with loading := some (transit (.entry 5) (.laneHead .a) 20#32) }))).bay 0).state = .filling ∧
      ((after (.loadingEnd 0) (bayIn .loading (fun b =>
        { b with loading := some (transit (.entry 5) (.laneHead .a) 20#32) }))).entry 5).testsStarted = 1 := by decide

theorem test_track_eye :
    ((after (.trackEye .a) (hall.updLane .a (fun x =>
      { x with track := [.reserved (transit (.entry 5) (.bay 0) 20#32)] }))).lane .a).track = [.occupied (.entry 5)] := by
  decide

theorem test_outfeed_eye :
    (after .outfeedEye { hall with outfeedQueue := [.reserved (transit .marker (.laneHead .a) 20#32)] }).outfeedQueue =
      [.occupied .marker] := by decide

theorem test_hold_chute_eye_closes_held :
    ((after (.exitEye .holdChute) { outfeedWith (.entry 5) (leaving .hold) with
      exits := [⟨transit (.entry 5) .outfeedHead 20#32, .holdChute⟩] }).entry 5).outcome = some (.held, .aborted) := by decide

theorem test_jam_faults_the_outfeed :
    (after (.transferJam .headToExit) { outfeedWith (.entry 5) (leaving .hold) with
      exits := [⟨transit (.entry 5) .outfeedHead 0#32, .holdChute⟩] }).outfeedState = .fault := by decide

theorem test_overpressure_at_one_above_the_limit :
    ((after (.samplePair 0 2751#16 400#16) (pressurisedIn .pressurising)).bay 0).releaseCause = some (.void .overpressure) ∧
      ((after (.samplePair 0 2750#16 400#16) (pressurisedIn .pressurising)).bay 0).state = .holding := by decide

theorem test_rupture_below_half_the_test_pressure :
    ((after (.samplePair 0 1249#16 400#16) (pressurisedIn .holding)).bay 0).ruptured = true ∧
      ((after (.samplePair 0 1250#16 400#16) (pressurisedIn .holding)).bay 0).state = .holding := by decide

theorem test_hold_expiry_takes_et :
    ((after (.holdExpiry 0) (bayIn .holding (fun b =>
      { b with stepTimer := some 0#32, baseline := some 388, latestGauge := 1388 }))).bay 0).et = some 1000 := by decide

theorem test_fill_limit_voids_no_fill :
    ((after (.fillLimitExpiry 0) (dueIn .filling)).entry 5).lastVoid = some .noFill := by decide

theorem test_settle_passes :
    ((after (.settleExpiry 0) (bayIn .settling (fun b =>
      { b with
        stepTimer := some 0#32
        releaseCause := some .holdEnd
        baseline := some 388
        latestGauge := 400
        et := some 1000
        drop := some 5 }))).entry 5).verdict = some .pass := by decide

theorem test_check_expiry_fails_without_a_sample :
    ((after (.checkExpiry 0) (hall.updBay 0 (fun b => { b with state := .zeroing, stepTimer := some 0#32 }))).bay 0).failures =
      1 := by decide

theorem test_grant_prefers_the_equal_setpoint :
    ((after .grant { hall with
      requests := [⟨0, 250⟩]
      intensifier2 := { hall.intensifier2 with setpoint := some 250 } }).intensifier .two).state = .driving := by decide

theorem test_grant_retunes :
    ((after .grant { hall with requests := [⟨0, 250⟩] }).intensifier .one).retuneExpiry = some 15#32 := by decide

theorem test_fault_input :
    (after (.faultInputChange .one true) hall).nmb = some (.alert 11 .intensifierFault) := by decide

theorem test_guard_breaks_off_an_offering :
    ((after (.guardClosedChange false) { stationIn .stamper (fun x =>
      { x with state := .offering, orderReady := true, bytePos := some 1, limit := some 2#32 }) with
        guardClosed := true }).station .stamper).state = .nestLoaded := by decide

theorem test_done_complete_ejects :
    ((after (.doneStrobe .stamper 1#4 (.strobe true)) (stationIn .stamper (fun x =>
      { x with state := .working, nest := .loaded }))).station .stamper).ejectExit = some .releaseConveyor := by decide

theorem test_done_shows_on_then_off :
    let s := after (.doneStrobe .stamper 1#4 (.strobe true)) (stationIn .stamper (fun x => { x with state := .working }))
    (s.stationBody .stamper).getD 0x0C 0#8 = 0x04#8 ∧
      ((after (.doneStrobe .stamper 1#4 .off) s).stationBody .stamper).getD 0x0C 0#8 = 0x00#8 := by decide

theorem test_taken_offers_the_next_byte :
    ((after (.taken .stamper false) (stationIn .stamper (fun x =>
      { x with
        state := .offering
        nest := .loaded
        taken := true
        order := some [0x53#8, 2#8, 1#8]
        bytePos := some 2 }))).station .stamper).orderBus = 2#8 := by decide

theorem test_nmb_read : (after .nmbRead { hall with nmb := some (.alert 1 .readerBreak) }).busReadData = 0x02010001#32 := by
  decide

theorem test_nmb_read_pulses_the_output :
    (after .nmbRead { hall with
      nmb := some (.alert 1 .readerBreak), notices := [.alert 3 .laneOverfill], interruptEnable := true }).interruptPulses =
      1 ∧
    (after .nmbRead { hall with nmb := some (.alert 1 .readerBreak), interruptEnable := true }).interruptPulses = 0 := by
  decide

theorem test_free_entry_reads_arrival_time_zero :
    fieldAt (State.reset.recordBytes (.entry 0)) 0x58 4 = [0#8, 0#8, 0#8, 0#8] ∧
      fieldAt (State.reset.recordBytes (.entry 0)) 0x5C 4 = [0xFF#8, 0xFF#8, 0xFF#8, 0xFF#8] := by decide

/-! ## The hypotheses of the statements are met -/

theorem test_hypotheses_QueueStep :
    { hall with pending := [Instr.claimGrant] }.pending = .claimGrant :: [] ∧
      (hall.pending = [] ∧ hall.cmbFull = false ∧ { hall with cmbFull := true }.cmbFull = true) ∧
      commandOf (.laneClear 1#24) = some (0x31#8, 1#24) ∧ commandCode 0x06000000#32 ∉ listedCodes := by decide

theorem test_command_words :
    commandOfWord 0x0200180C#32 = .setDate 0x00180C#24 ∧ commandOfWord 0x10000005#32 = .postNote 5#24 ∧
      commandOfWord 0x25010602#32 = .serviceLine 0x010602#24 ∧ commandOfWord 0x31000001#32 = .laneClear 1#24 ∧
      commandOfWord 0x00000000#32 = .unknownCommand 0#32 ∧ commandOfWord 0x32000000#32 = .unknownCommand 0x32000000#32 := by
  decide

theorem test_a_stored_word_is_taken :
    (match step (after (.registerWrite 0x10000#32 .word 0x03000000#32) { hall with runState := .ready }) with
    | .next t => decide (t.runState = .running) && decide (t.lastCommand = 0x03#8) && !t.cmbFull
    | _ => false) = true := by decide

theorem test_hypotheses_invariants :
    StoreFormed State.reset ∧ Bounded State.reset ∧ FreeCounted State.reset ∧ PermitsHeld State.reset ∧
      ∃ t, step { State.reset with pending := [.claimGrant] } = .next t := by
  refine ⟨by unfold StoreFormed; decide, ?_, by unfold FreeCounted; decide, fun l => by cases l <;> rfl, _, rfl⟩
  refine ⟨fun l => by cases l <;> decide, by decide, by decide, by decide, by decide, by decide,
    ⟨by decide, by decide, fun note h => by cases h⟩, fun st => by cases st <;> decide, fun n x h => ?_, fun l x h => ?_,
    fun x h => (by cases h), fun st x h => ?_, fun x h => (by cases h)⟩
  · have : ∀ n, (State.reset.bay n).loading = none := by decide
    rw [this n] at h; cases h
  · cases l <;> cases h
  · cases st <;> cases h

theorem test_hypotheses_RecordsPublished : (∃ t, exec .nmbRead hall = .next t) ∧
    (∃ t, exec .powerOnReset hall = .next t) ∧ recordAt 0 = some .header ∧ recordAt 0x2DFF = some (.trace 5) ∧
    EvenCounts State.reset ∧ ∃ t, step { State.reset with pending := [.powerOnReset] } = .next t := by
  refine ⟨⟨_, rfl⟩, ⟨_, rfl⟩, by decide, by decide, ⟨fun r => ?_, fun k => by revert k; decide⟩, _, rfl⟩
  cases r with
  | header => decide
  | lane l => cases l <;> decide
  | intensifier i => cases i <;> decide
  | station st => cases st <;> decide
  | bay n => revert n; decide
  | trace n => revert n; decide
  | entry i => revert i; decide

theorem test_hypotheses_EveryCommandCompletes : (after (.clearStatus 0#24) hall).justEmptied = true ∧
    (commandOf (.clearStatus 0#24)).isSome = true := by decide

theorem test_hypotheses_RegisterWords :
    15 < 16 ∧ 3 < 4 ∧ 0x3F < (State.reset.recordBytes .header).length ∧ recordAt 0x2DFF = some (.trace 5) ∧
      recordAt 0x3F = some .header := by decide

theorem test_hypotheses_PowerOnReset :
    (∀ i, (hall.intensifier i).faultInput = false) ∧
      ({ hall with intensifier2 := Intensifier.reset 0#8 true }.intensifier .two).faultInput = true ∧
      Record.lane .a ≠ .header := by
  exact ⟨fun i => by cases i <;> decide, by decide, by decide⟩

theorem test_hypotheses_LineReset :
    ((∀ i, (hall.intensifier i).faultInput = false) ∧ hall.eStopInput = false) ∧
      ((hall.tablesHeld = true ∧ hall.date.isSome = true) ∧ stoppedHall.eStopInput = true) ∧
      ({ hall with intensifier1 := Intensifier.reset 0#8 true }.intensifier .one).faultInput = true ∧
      (hall.tablesHeld = true ∧ ¬(hall.date.isSome = true ∧ hall.eStopInput = true)) ∧
      ¬(stoppedHall.tablesHeld = true ∧ ¬(stoppedHall.date.isSome = true ∧ stoppedHall.eStopInput = true)) ∧
      (recordAt 0x9FF = none ∧ 0x9FF < 0xA00) ∧ recordAt 0xE00 = none := by
  exact ⟨⟨fun i => by cases i <;> decide, by decide⟩, by decide⟩

theorem test_hypotheses_ControlWrites :
    (0x7FFFFFFF#32).getLsbD 31 = false ∧ (0x80000000#32).getLsbD 31 = true := by decide

theorem test_hypotheses_MailboxWrites : { hall with cmbFull := true }.cmbFull = true ∧
    (hall.cmbFull = false ∧ hall.justEmptied = false) ∧
    ((after (.clearStatus 0#24) hall).cmbFull = false ∧ (after (.clearStatus 0#24) hall).justEmptied = true) := by decide

theorem test_hypotheses_StoreWrites :
    (StoreFormed hall ∧ (0xFFFE#32).toNat < 0x10000 ∧ 1 < widthOf .word ∧ 0xFFFE + 1 < 0x10000 ∧ 0xFFFD < (0xFFFE#32).toNat) ∧
      (0x10000 ≤ (0x10000#32).toNat ∧
        ¬(AccessSize.halfword = .word ∧ (0x10000#32 = 0x10000#32 ∨ 0x10000#32 = 0x1000C#32))) ∧
      (0x10000 ≤ (0x10004#32).toNat ∧
        ¬(AccessSize.word = .word ∧ (0x10004#32 = 0x10000#32 ∨ 0x10004#32 = 0x1000C#32))) ∧
      0xFFFC + widthOf .word ≤ 0x10000 ∧ 0xFFFF + widthOf .byte ≤ 0x10000 := by
  unfold StoreFormed; decide

theorem test_store_reads :
    let s := after (.registerWrite 0x40#32 .word 0x11223344#32) hall
    s.hostRead 0x40 .word = 0x11223344#32 ∧ s.hostRead 0x40 .halfword = 0x3344#32 ∧ s.hostRead 0x42 .halfword = 0x1122#32 ∧
      s.hostRead 0x41 .byte = 0x33#32 := by decide

theorem test_hypotheses_notices :
    ({ hall with nmb := some (.alert 1 .readerBreak) }.nmb = some (.alert 1 .readerBreak) ∧ hall.nmb = none ∧
      hall.notices = []) ∧
    (∀ k, Notice.alert 3 k ∉ ([] : List Notice)) ∧
    { hall with notices := [.alert 3 .laneOverfill] }.notices = [] ++ .alert 3 .laneOverfill :: [] := by
  exact ⟨by decide, fun k => by simp, by decide⟩

theorem test_hypotheses_CommandsTurnedAway :
    (commandOf (.run 0#24) = some (0x03#8, 0#24) ∧
      { hall with cmbFull := true, cmbWord := 1#32 }.cmbBlocked (commandWord 0x03#8 0#24) = true) ∧
    (exemptCode 0x03#8 = false ∧ waitingHall.cmbBlocked (commandWord 0x03#8 0#24) = false ∧
      waitingHall.runState = .awaitingTables) := by decide

theorem test_hypotheses_StatusCommands :
    commandCode 0x32000000#32 ∉ listedCodes ∧ hall.cmbBlocked 0x32000000#32 = false ∧
      hall.cmbBlocked (commandWord 0x05#8 0#24) = false ∧ ∃ t, exec (.clearStatus 0#24) hall = .next t := by
  exact ⟨by decide, by decide, by decide, _, rfl⟩

theorem test_hypotheses_PermitConditions :
    PermitsHeld State.reset ∧ ∃ t, step { State.reset with pending := [.arrival .a] } = .next t := by
  exact ⟨fun l => by cases l <;> rfl, _, rfl⟩

theorem test_hypotheses_RunAndStop :
    (Heard 0x03#8 0#24 { hall with runState := .ready } ∧ { hall with runState := .ready }.runState = .ready) ∧
      (Heard 0x03#8 0#24 hall ∧ hall.runState ≠ .ready) ∧ (Heard 0x04#8 0#24 hall ∧ hall.runState = .running) ∧
      (Heard 0x04#8 0#24 stoppedHall ∧ stoppedHall.runState ≠ .running) := by unfold Heard; decide

theorem test_drained :
    hall.drained = true ∧ (headed (queued .test)).drained = false ∧ (bayIn .unloading id).drained = false ∧
      (bayIn .fault id).drained = true ∧ { hall with outfeedHeadInFlight := true }.drained = false ∧
      (stationIn .stamper (fun x => { x with state := .working, nest := .loaded })).drained = false ∧
      (stationIn .stamper (fun x => { x with state := .fault, nest := .loaded })).drained = true := by decide

theorem test_hypotheses_SetDate :
    (argMiddle 0x630C#24 ≤ 99 ∧ 1 ≤ argByte 0x630C#24 ∧ argByte 0x630C#24 ≤ 12 ∧
      hall.cmbBlocked (commandWord 0x02#8 0x630C#24) = false ∧
      ¬(hall.runState = .awaitingTables ∧ hall.tablesHeld = true)) ∧
    (argMiddle 0x0001#24 ≤ 99 ∧ 1 ≤ argByte 0x0001#24 ∧ argByte 0x0001#24 ≤ 12 ∧
      waitingHall.runState = .awaitingTables ∧ waitingHall.tablesHeld = true ∧ waitingHall.eStopInput = false) ∧
    (let s := { waitingHall with eStopInput := true }
     s.cmbBlocked (commandWord 0x02#8 0x0001#24) = false ∧ s.runState = .awaitingTables ∧ s.tablesHeld = true ∧
       s.eStopInput = true) ∧
    ¬(argMiddle 0x6401#24 ≤ 99 ∧ 1 ≤ argByte 0x6401#24 ∧ argByte 0x6401#24 ≤ 12) ∧
    ¬(argMiddle 0x000D#24 ≤ 99 ∧ 1 ≤ argByte 0x000D#24 ∧ argByte 0x000D#24 ≤ 12) ∧
    ¬(argMiddle 0x0000#24 ≤ 99 ∧ 1 ≤ argByte 0x0000#24 ∧ argByte 0x0000#24 ≤ 12) := by decide

/-- Bytes put into the plain regions of the store one after another. -/
def putBytes (s : State) (a : Nat) : List Nat → State
  | [] => s
  | b :: rest => putBytes (s.writePlain a (BitVec.ofNat 8 b)) (a + 1) rest

/-- A settings record whose fields lie at the ends of their ranges. -/
def goodTables (s : State) : State :=
  putBytes s 0x40 [0x4E, 0x51, 0x30, 0x37, 0x20, 0x1C, 0xF4, 1, 5, 0, 20, 0, 10, 0, 0x10, 0x0E, 60, 11, 1, 10, 0]

theorem test_hypotheses_TakeTables :
    hall.firstBadField hall.readSettings = some 1 ∧
      (goodTables hall).firstBadField (goodTables hall).readSettings = none ∧
      (goodTables hall).runState ≠ .awaitingTables ∧ (goodTables hall).runState ≠ .eStopped ∧
      (goodTables hall).eStopInput = false ∧
      (goodTables waitingHall).firstBadField (goodTables waitingHall).readSettings = none ∧
      (goodTables waitingHall).runState = .awaitingTables ∧ (State.reset.bay 0).state = .starting ∧
      (hall.bay 0).state ≠ .starting ∧
      (let s := goodTables { waitingHall with eStopInput := true }
       s.cmbBlocked (commandWord 0x01#8 0#24) = false ∧ s.firstBadField s.readSettings = none ∧
         s.runState = .awaitingTables ∧ s.date.isSome = true ∧ s.eStopInput = true) ∧
      (goodTables stoppedHall).firstBadField (goodTables stoppedHall).readSettings = none ∧
      (goodTables stoppedHall).runState = .eStopped := by decide

theorem test_hypotheses_TableChecks :
    ((bayIn .holding id).entry 5).route = some .test ∧ ((bayIn .holding id).entry 5).params = some params0 ∧
      isLiteral 0x2D#8 = true ∧ isLiteral 0x05#8 = false ∧ (isLiteral 0x06#8 = false ∧ 6 ≤ (0x06#8).toNat) := by decide

/-- A FILLED slot 0: the first character of the serial, the type code, the visual verdict and the force-test byte. -/
def slotHall (first kind verdict force : Nat) : State :=
  { putBytes hall 0xA01 (1 :: first :: List.replicate 11 0x41 ++ [kind, verdict, force]) with typeMask := 0x80000001#32 }

def serial0 : List Byte := List.replicate 12 0x41#8

def note0 : Note := ⟨serial0, 0, .accept, false, 0⟩

/-- A note of type code 0 with verdict ACCEPT waits in slot 0. -/
def noteHall : State := slotHall 0x41 0 1 0

theorem test_hypotheses_PostNote_turned_away :
    (32 ≤ argByte (one 32) ∧ Heard 0x10#8 (one 32) hall) ∧
    (Heard 0x10#8 (one 31) hall ∧ argByte (one 31) = (31 : SlotId).val ∧ hall.storeByte (slotBase 31 + 1) ≠ 1#8) ∧
    (Heard 0x10#8 (one 0) { noteHall with expect := [note0] } ∧ argByte (one 0) = (0 : SlotId).val ∧
      Expected 0 { noteHall with expect := [note0] }) := by unfold Heard Expected; decide

theorem test_hypotheses_PostNote_checks :
    let fields (s : State) : Prop := (∀ b ∈ slotText s 0, SerialChar b) ∧
      (s.storeByte (slotBase 0 + 0x0F) = 1#8 ∨ s.storeByte (slotBase 0 + 0x0F) = 2#8) ∧
      (s.storeByte (slotBase 0 + 0x10) = 0#8 ∨ s.storeByte (slotBase 0 + 0x10) = 1#8)
    (¬fields (slotHall 0x2F 0 1 0) ∧ ¬fields (slotHall 0x5B 0 1 0) ∧ ¬fields (slotHall 0x41 0 0 0) ∧
      ¬fields (slotHall 0x41 0 1 2)) ∧
    (fields (slotHall 0x30 32 1 0) ∧ ¬((0x20#8).toNat < 32)) ∧
    (fields (slotHall 0x5A 31 2 1) ∧ ((slotHall 0x5A 31 2 1).storeByte (slotBase 0 + 0x0E)).toNat = (31 : Fin 32).val ∧
      (slotHall 0x5A 31 2 1).typeMask.getLsbD 31 = true) := by
  unfold SerialChar
  refine ⟨⟨?_, ?_, ?_, ?_⟩, ⟨?_, ?_⟩, ?_, ?_, ?_⟩ <;> decide

theorem test_hypotheses_PostNote_filled :
    let bad := slotHall 0x41 0 1 2
    let waiting := noteHall.setEntry 5 { tested with state := .awaitingNote, serial := some serial0 }
    let posted := { noteHall with expect := [{ note0 with slot := 1 }] }
    (StoreFormed bad ∧ Heard 0x10#8 0#24 bad ∧ argByte 0#24 = (0 : SlotId).val ∧
      bad.storeByte (slotBase 0 + 1) = 1#8 ∧ ¬Expected 0 bad ∧ bad.checkedNote 0 = .inl 4#8) ∧
    (StoreFormed waiting ∧ waiting.checkedNote 0 = .inr note0 ∧ AwaitsNote 5 serial0 waiting ∧
      (∀ j, j < (5 : RosterIndex) → ¬AwaitsNote j serial0 waiting) ∧ ∀ l, (waiting.lane l).queue.head? ≠ some (.entry 5)) ∧
    (StoreFormed posted ∧ ¬Expected 0 posted ∧ posted.checkedNote 0 = .inr note0 ∧
      (∀ i, ¬AwaitsNote i serial0 posted) ∧ ∃ old ∈ posted.expect, old.serial = serial0) ∧
    (StoreFormed noteHall ∧ ¬Expected 0 noteHall ∧ noteHall.checkedNote 0 = .inr note0 ∧
      (∀ i, ¬AwaitsNote i serial0 noteHall) ∧ ∀ old ∈ noteHall.expect, old.serial ≠ serial0) ∧
    (((headed { tested with state := .awaitingNote }).lane .a).queue.head? = some (.entry 5) ∧
      ((headed tested).lane (otherLane .a)).queue.head? ≠ some (.entry 5)) := by
  intro bad waiting posted
  refine ⟨?_, ⟨?_, ?_, ?_, ?_, fun l => by cases l <;> decide⟩, ?_, ?_, ?_⟩
  · unfold StoreFormed Heard Expected; decide
  · unfold StoreFormed; decide
  · decide
  · unfold AwaitsNote; decide
  · unfold AwaitsNote; decide
  · unfold StoreFormed Expected AwaitsNote; decide
  · unfold StoreFormed Expected AwaitsNote; decide
  · decide

theorem test_hypotheses_WithdrawNote :
    (32 ≤ argByte (one 32) ∧ Heard 0x11#8 (one 32) hall) ∧
    (Heard 0x11#8 (one 0) { hall with expect := [note0] } ∧ Expected 0 { hall with expect := [note0] } ∧
      StoreFormed { hall with expect := [note0] }) ∧
    (¬Expected 0 (putBytes hall 0xA01 [3]) ∧ (putBytes hall 0xA01 [3]).storeByte (slotBase 0 + 1) = 3#8) ∧
    (argByte (one 31) = (31 : SlotId).val ∧ Heard 0x11#8 (one 31) hall ∧ ¬Expected 31 hall ∧
      hall.storeByte (slotBase 31 + 1) ≠ 3#8) := by unfold Heard Expected StoreFormed; decide

theorem test_hypotheses_ReleaseEntry :
    (Heard 0x12#8 (one 47) (hall.setEntry 47 { tested with state := .done }) ∧
      argByte (one 47) = (47 : RosterIndex).val ∧
      ((hall.setEntry 47 { tested with state := .done }).entry 47).state = .done) ∧
    (hall.entry 0).state ≠ .done ∧ 48 ≤ argByte (one 48) := by unfold Heard; decide

def type0 : TypeEntry := ⟨true, 5, 134, 250, 30, 1200, 100, 20, 0, 2⟩

theorem test_hypotheses_RouteDecision :
    let s := { hall with types := hall.types.set 0 (some type0), typeMask := 1#32 }
    let e := { tested with tagDate := some ⟨2019, 5⟩ }
    e.tagDate = some ⟨2019, 5⟩ ∧ s.date = some ⟨2024, 5⟩ ∧ hall.usableType 0 = none ∧ s.usableType 0 = some type0 ∧
      (s.typeMask.getLsbD 0 = true ∧ s.typeMask.getLsbD 31 = false) ∧
      (⟨2019, 5⟩ : Date).months + 12 * type0.interval ≤ (⟨2024, 5⟩ : Date).months ∧
      ¬((⟨2019, 6⟩ : Date).months + 12 * type0.interval ≤ (⟨2024, 5⟩ : Date).months ∨
        (⟨2024, 5⟩ : Date).months < (⟨2019, 6⟩ : Date).months) := by decide

theorem test_hypotheses_AttemptStart :
    ((bayIn .loading id).bay 0).index = some 5 ∧ ((bayIn .loading id).entry 5).state = .testing ∧
      (0 : RosterIndex) ≠ 5 := by decide

theorem test_hypotheses_VoidReport :
    (tested.state = .testing ∧ tested.route = some .test ∧ VoidCause.zeroLapsed.counted = false ∧
      VoidCause.leak.counted = true ∧ { tested with countedVoids := 1 }.countedVoids < 2 ∧
      { tested with countedVoids := 2 }.countedVoids = 2) ∧ (leaving .hold).route ≠ some .test := by decide

theorem test_hypotheses_OutcomeTable :
    (leaving .stamp).route = some .stamp ∧ (leaving .passThrough).route = some .passThrough ∧
      { leaving .deface with verdict := some (.condemn .visual) }.verdict = some (.condemn .visual) ∧
      (leaving .hold).holdReason = some .aborted := by decide

/-- Reader A with a frame of the first characters of a tag. -/
def framed (taken : List Byte) (held : Option Identity) : State :=
  { hall with readerA := ⟨.frame, taken, held, 255, 255, 255⟩ }

def tag15 : List Byte := List.replicate 12 0x41#8 ++ [0x31#8, 0x39#8, 0x30#8]

def tag16 : List Byte := tag15 ++ [0x35#8]

theorem test_hypotheses_readers :
    (hall.reader .a).state = .hunt ∧ ¬(0x1C#8 = 0x1D#8 ∧ true = true) ∧
    ((framed tag15 none).reader .a).state = .frame ∧ tag15.length < 16 ∧
      allowedAt (tag15.length + 2) tag15 0x39#8 = true ∧ allowedAt (tag15.length + 2) tag15 0x30#8 = false ∧
      allowedAt (tag15.length + 2) tag15 0x1D#8 = false ∧ 0x30#8 ≠ 0x1D#8 ∧
    16 ≤ tag16.length ∧ 0x00#8 ≠ xorBytes tag16 ∧ (State.reset.reader .a).state = .off := by decide

theorem test_hypotheses_ReaderFrame_sets :
    (tag15.length = 15 ∧ tag15.getLast? = some 0x30#8) ∧
      ((tag15.dropLast ++ [0x31#8]).length = 15 ∧ (tag15.dropLast ++ [0x31#8]).getLast? = some 0x31#8) ∧
      (List.replicate 12 0x41#8).length = 12 := by decide

theorem test_hypotheses_HoldingBuffer :
    ((framed tag16 none).reader .a).state = .frame ∧ 16 ≤ ((framed tag16 none).reader .a).frame.length ∧
      ((framed tag16 none).reader .a).held = none ∧ (identityOf tag16).serial = (identityOf (tag15 ++ [0x36#8])).serial ∧
      (⟨List.replicate 12 0x42#8, ⟨2019, 5⟩⟩ : Identity).serial ≠ (identityOf tag16).serial := by decide

theorem test_hypotheses_ReaderBreakAndReturn :
    let s := { hall with readerB := { Reader.reset with state := .fault } }
    (Heard 0x30#8 (one 2) s ∧ argByte (one 2) = readerSource .b ∧ (s.reader .b).state = .fault) ∧
      (Heard 0x30#8 (one 1) s ∧ argByte (one 1) = readerSource .a ∧ (s.reader .a).state ≠ .fault) := by unfold Heard; decide

theorem test_hypotheses_HoldAndResume :
    (Heard 0x20#8 (one 1) (bayIn .holding id) ∧ argByte (one 1) = (0 : BayId).val + 1 ∧
      ((bayIn .holding id).bay 0).state = .holding) ∧
    ((bayIn .awaitIntensifier id).short 0 = false ∧ (shortIn .awaitIntensifier false).short 0 = true ∧
      ((shortIn .awaitIntensifier false).bay 0).pressurised = false ∧
      (shortIn .awaitIntensifier false).runState ≠ .eStopped) ∧
    (Heard 0x21#8 (one 1) (bayIn .suspended id) ∧ ((bayIn .suspended id).bay 0).state = .suspended ∧
      (bayIn .suspended (fun b => { b with validity := 270 })).short 0 = false ∧ Unqueued 0 (bayIn .suspended id)) ∧
    ((shortIn .suspended true).short 0 = true ∧ ((shortIn .suspended true).bay 0).pressurised = true ∧
      ((shortIn .suspended false).bay 0).pressurised = false) := by unfold Heard Unqueued; decide

theorem test_hypotheses_BayAbort :
    Heard 0x22#8 (one 6) hall ∧ argByte (one 6) = (5 : BayId).val + 1 ∧
      ((pressurisedIn .suspended).bay 0).pressurised = true ∧ ((bayIn .suspended id).bay 0).pressurised = false ∧
      ((bayIn .suspended id).bay 0).index = some 5 ∧ ((bayIn .releasing id).bay 0).state = .releasing ∧
      ((bayIn .settling id).bay 0).index = some 5 ∧ ((bayIn .unloading id).bay 0).state = .unloading := by
  unfold Heard; decide

theorem test_hypotheses_ZeroAndServiceLine :
    let offline := hall.updBay 5 (fun b => { b with state := .offline })
    (Heard 0x23#8 (one 6) hall ∧ (hall.bay 5).state = .idle ∧ hall.runState ≠ .eStopped ∧
      stoppedHall.runState = .eStopped) ∧
    (Heard 0x25#8 0x060501#24 offline ∧ argHigh 0x060501#24 = (5 : BayId).val + 1 ∧ argMiddle 0x060501#24 = 5 ∧
      argByte 0x060501#24 = true.toNat ∧ (offline.bay 5).state = .offline ∧ (hall.bay 5).state ≠ .offline) ∧
    (argHigh 0x000101#24 = 0 ∧ 7 ≤ argHigh 0x070101#24 ∧ argMiddle 0x010001#24 = 0 ∧ 6 ≤ argMiddle 0x010601#24 ∧
      2 ≤ argByte 0x010102#24) ∧ argByte (one 0) = 0 ∧ 7 ≤ argByte (one 7) := by unfold Heard; decide

theorem test_hypotheses_TakeOutOfService :
    (Heard 0x24#8 (one 5) hall ∧ argByte (one 5) = (0 : BayId).val + 5 ∧ (hall.bay 0).state = .idle) ∧
    ¬(((bayIn .zeroing id).bay 0).state = .starting ∨ ((bayIn .zeroing id).bay 0).state = .idle ∨
      (((bayIn .zeroing id).bay 0).state = .zeroing ∨ ((bayIn .zeroing id).bay 0).state = .fault) ∧
        ((bayIn .zeroing id).bay 0).index = none) ∧
    (argByte (one 12) = intensifierSource .two ∧ (hall.intensifier .two).state = .free) ∧
    (let s := hall.setIntensifier .two { hall.intensifier2 with state := .driving, pendingOffline := true }
     (s.intensifier .two).state = .driving ∧ (s.intensifier .two).pendingOffline = true ∧
       (s.setIntensifier .two { s.intensifier2 with pendingOffline := false }).intensifier2.pendingOffline = false) ∧
    (hall.setIntensifier .two { hall.intensifier2 with state := .offline }).intensifier2.state = .offline ∧
    (argByte (one 13) = stationSource .stamper ∧ (hall.station .stamper).state = .idle) ∧
    (let x := stationIn .stamper (fun x => { x with state := .fault, nest := .loaded })
     (x.station .stamper).state = .fault ∧ (x.station .stamper).nest = .loaded) ∧
    ((stationIn .stamper (fun x => { x with state := .working })).station .stamper).state = .working ∧
    argByte (one 4) ≤ 4 ∧ 15 ≤ argByte (one 15) := by unfold Heard; decide

theorem test_hypotheses_ReturnToService :
    (Heard 0x30#8 (one 5) hall ∧ stoppedHall.runState = .eStopped ∧ hall.runState ≠ .eStopped) ∧
    ((hall.updBay 0 (fun b => { b with state := .offline })).bay 0).state = .offline ∧
    (let s := hall.updBay 0 (fun b => { b with state := .fault, faultCause := some .gaugeDrift })
     (s.bay 0).state = .fault ∧ (s.bay 0).index = none) ∧
    (let s := bayIn .fault (fun b => { b with faultCause := some .ventFailure })
     (s.bay 0).state = .fault ∧ (s.bay 0).index.isSome = true ∧ (s.bay 0).faultCause = some .ventFailure) ∧
    (let s := bayIn .fault (fun b => { b with faultCause := some .gaugeDrift })
     (s.bay 0).state = .fault ∧ (s.bay 0).index.isSome = true ∧ (s.bay 0).faultCause = some .gaugeDrift) ∧
    ((hall.bay 0).state ≠ .offline ∧ (hall.bay 0).state ≠ .fault) ∧
    (argByte (one 11) = intensifierSource .one ∧
      (Intensifier.reset 0#8 false).faultInput = false ∧ (Intensifier.reset 0#8 true).faultInput = true ∧
      (hall.intensifier .one).state = .free) ∧
    (argByte (one 14) = stationSource .defacer ∧
      ((stationIn .defacer (fun x => { x with state := .fault, nest := .loaded })).station .defacer).nest = .loaded ∧
      ((stationIn .defacer (fun x => { x with state := .offline })).station .defacer).nest = .empty) ∧
    ({ hall with outfeedState := .fault }.outfeedState = .fault ∧ hall.outfeedState = .normal ∧
      argByte (one 15) = 15 ∧ argByte (one 3) = 3 ∧ 16 ≤ argByte (one 16)) := by unfold Heard; decide

theorem test_hypotheses_LaneClear :
    (Heard 0x31#8 (one 1) hall ∧ laneOfNumber (argByte (one 1)) = some .b ∧ (hall.lane .b).headInFlight = false) ∧
      (let s := hall.updLane .b (fun x => { x with headInFlight := true })
       (s.lane .b).state = .normal ∧ (s.lane .b).headInFlight = true) ∧
      (Heard 0x31#8 (one 0) (headed (queued .hold)) ∧ laneOfNumber (argByte (one 0)) = some .a ∧
        Item.entry 5 ∈ ((headed (queued .hold)).lane .a).queue ∧ ((headed (queued .hold)).entry 5).state = .queued) ∧
      laneOf 2 = .a ∧ 2 ≤ argByte (one 2) := by unfold Heard; decide

theorem test_hypotheses_LineSeconds :
    let idle (v : Nat) := hall.updBay 0 (fun _ => idleBay v)
    let waiting := bayIn .awaitIntensifier (fun b => { b with validity := 270 })
    let holding := bayIn .suspended (fun b => { b with validity := 270 })
    (((idle 1).bay 0).validity = 1 ∧ hall.runState ≠ .eStopped) ∧
      (1 < ((idle 900).bay 0).validity ∧ OldValidity 0 (900 - 1) (idle 900)) ∧
      ¬OldValidity 0 (901 - 1) (idle 901) ∧
      ((stoppedHall.bay 0).state = .idle ∧ 0 < (stoppedHall.bay 0).validity ∧ stoppedHall.runState = .eStopped) ∧
      (0 < ((bayIn .holding id).bay 0).validity ∧ 0 < ((bayIn .filling id).bay 0).validity ∧
        0 < ((bayIn .zeroing id).bay 0).validity ∧ 0 < ((bayIn .fault id).bay 0).validity ∧
        0 < ((bayIn .loading id).bay 0).validity) ∧
      (waiting.bayParams 0 = some params0 ∧ (waiting.bay 0).validity ≤ waiting.allowance params0 ∧
        (waiting.bay 0).pressurised = false ∧ 0 < (waiting.bay 0).validity ∧ waiting.runState ≠ .eStopped) ∧
      (holding.bayParams 0 = some params0 ∧ (holding.bay 0).state = .suspended ∧
        (holding.bay 0).validity ≤ holding.allowance params0 ∧ (holding.bay 0).pressurised = false) := by
  unfold OldValidity; decide

theorem test_hypotheses_LineSeconds_enough :
    let s := bayIn .awaitIntensifier (fun b => { b with validity := 271 })
    (s.bay 0).state = .awaitIntensifier ∧ ¬FallsShort 0 s ∧ ∀ r ∈ ({ s with requests := [⟨0, 250⟩] } : State).requests,
      (s.bay r.bay).state = .awaitIntensifier := by
  refine ⟨by decide, ?_, by decide⟩
  rintro ⟨p, hp, _, h⟩
  cases hp
  revert h
  decide

theorem test_hypotheses_ZeroValidityLapse :
    (hall.bay 0).validity ≠ 0 ∧
      (let s := hall.updBay 0 (fun _ => idleBay 0)
       (s.bay 0).validity = 0 ∧ (s.bay 0).state = .idle ∧ s.runState ≠ .eStopped) ∧
      (let s := bayIn .holding (fun b => { b with validity := 0 })
       (s.bay 0).validity = 0 ∧ (s.bay 0).state = .holding) ∧
      (State.reset.bay 0).state = .starting ∧ ((stoppedHall.bay 0).state = .idle ∧ stoppedHall.runState = .eStopped) := by
  decide

theorem test_hypotheses_ZeroValidityLapse_open :
    ((bayIn .filling (fun b => { b with validity := 0 })).bay 0).attemptUnended ∧
      ((bayIn .zeroing (fun b => { b with validity := 0, resume := some .request })).bay 0).attemptUnended ∧
      ((bayIn .fault (fun b => { b with validity := 0, releaseCause := some .holdEnd })).bay 0).attemptUnended ∧
      ¬((bayIn .settling (fun b => { b with validity := 0, kept := some .fillStep })).bay 0).attemptUnended ∧
      ¬((bayIn .zeroing (fun b => { b with validity := 0, resume := some .fill })).bay 0).attemptUnended ∧
      ¬((bayIn .fault (fun b => { b with validity := 0 })).bay 0).attemptUnended := by
  unfold Bay.attemptUnended Bay.openCheck; decide

theorem test_hypotheses_EStopAsserted :
    stoppedHall.eStopInput = true ∧ (waitingHall.eStopInput = false ∧ waitingHall.runState = .awaitingTables) ∧
      (hall.eStopInput = false ∧ hall.runState = .running) ∧
      (let s := bayIn .filling id
       (s.bay 0).index = some 5 ∧ (∀ m, m ≠ 0 → (s.bay m).index ≠ some 5) ∧ (s.entry 5).state = .testing ∧
         (s.entry 5).route = some .test ∧ (s.bay 0).aborted = false) ∧
      ((pressurisedIn .suspended).bay 0).pressurised = true ∧ (∀ n, (hall.bay n).index ≠ some 5) := by decide

theorem test_hypotheses_EStopAsserted_routes :
    (let s := bayIn .filling id
     (s.bay 0).unpressurisedAttempt ∧ ∀ n, (s.bay n).unpressurisedAttempt → (s.bay n).aborted = false ∧
       ∀ i, (s.bay n).index = some i → (s.entry i).route = some .test) ∧
    (let s := (bayIn .suspended id).setEntry 5 (leaving .hold)
     (s.bay 0).unpressurisedAttempt ∧ (s.entry 5).route ≠ some .test ∧ (s.bay 0).aborted = false) ∧
    (let s := bayIn .zeroing (fun b => { b with resume := some .suspend })
     (s.bay 0).openCheck ∧ (s.bay 0).index = some 5 ∧ (∀ m, m ≠ 0 → (s.bay m).index ≠ some 5) ∧
       (s.entry 5).state = .testing ∧ (s.entry 5).route = some .test) ∧
    (let s := bayIn .zeroing (fun b => { b with resume := some .fill })
     ∀ n, (s.bay n).index = some 5 → ¬(s.bay n).unpressurisedAttempt ∧ ¬(s.bay n).openCheck) := by
  unfold Bay.unpressurisedAttempt Bay.openCheck; decide

theorem test_hypotheses_EStopReleased :
    hall.eStopInput = false ∧ ({ hall with eStopInput := true }.eStopInput = true ∧ hall.runState ≠ .eStopped) ∧
      (stoppedHall.eStopInput = true ∧ stoppedHall.runState = .eStopped) := by decide

theorem test_hypotheses_ArrivalRostered :
    (hall.runState ≠ .awaitingTables ∧ (hall.lane .a).state = .normal ∧ (hall.lane .a).queue.length < 12 ∧
      (hall.entry 0).state = .free ∧ ∀ j, j < (0 : RosterIndex) → (hall.entry j).state ≠ .free) ∧
    (let s := { hall with readerA := { hall.readerA with held := some ⟨serial0, ⟨2019, 5⟩⟩ } }
     (s.reader .a).held = some ⟨serial0, ⟨2019, 5⟩⟩ ∧
       (∀ j, (s.entry j).state.live = true → (s.entry j).serial ≠ some serial0) ∧
       (∀ note ∈ s.expect, note.serial ≠ serial0) ∧
       ({ s with expect := [note0] }.expect = [] ++ note0 :: [] ∧ note0.serial = serial0 ∧
         ∀ other ∈ ([] : List Note), other.serial ≠ serial0) ∧
       StoreFormed s) ∧
    (((hall.setEntry 5 { tested with serial := some serial0 }).entry 5).state.live = true ∧
      ((hall.setEntry 5 { tested with serial := some serial0 }).entry 5).serial = some serial0) ∧
    (hall.lane .a).queue = [] ∧ ((headed (queued .hold)).lane .a).queue ≠ [] := by unfold StoreFormed; decide

theorem test_hypotheses_BayAllocation_none :
    (let s := (hall.setEntry 5 (queued .test)).updLane .a (fun x => { x with track := [.occupied (.entry 5)], trackOut := true })
     s.lane .a |>.track.head? = some (.occupied (.entry 5))) ∧
    (let s := (headed (queued .test)).updLane .a (fun x => { x with headInFlight := true })
     (∀ j : RosterIndex, (s.lane .a).track.head? ≠ some (.occupied (.entry j))) ∧ (s.lane .a).headInFlight = true) ∧
    (let s := headed (queued .hold)
     (s.lane .a).queue.head? = some (.entry 5) ∧ (s.entry 5).route ≠ some .test) := by decide

theorem test_hypotheses_ArrivalUnrostered :
    waitingHall.runState = .awaitingTables ∧
      ((hall.updLane .a (fun x => { x with state := .fault })).lane .a).state = .fault ∧
      12 ≤ ((hall.updLane .a (fun x => { x with queue := List.replicate 12 .marker })).lane .a).queue.length ∧
      ∀ i, ({ hall with roster := Vector.replicate 48 tested }.entry i).state ≠ .free := by decide

theorem test_hypotheses_NoteWaitExpiry :
    let s := (headed { tested with state := .awaitingNote }).updLane .a (fun x => { x with noteWait := some ⟨30, 0#32⟩ })
    s.due ((s.lane .a).noteWait.map NoteWait.expiry) = true ∧ (s.lane .a).queue.head? = some (.entry 5) ∧
      (s.entry 5).state = .awaitingNote ∧ hall.due ((hall.lane .a).noteWait.map NoteWait.expiry) = false ∧
      hall.due (some 1#32) = false := by decide

theorem test_hypotheses_BayAllocation_allowance :
    hall.settings = some settings0 ∧ ((bayIn .idle id).bay 0).index = some 5 ∧ (hall.bay 0).index = none ∧
      hall.allowance params0 = 270 ∧ (bayIn .idle (fun b => { b with validity := 269 })).short 0 = true ∧
      (bayIn .idle (fun b => { b with validity := 270 })).short 0 = false := by decide

theorem test_hypotheses_BayAllocation :
    let s := (headed (queued .test)).updBay 1 (fun _ => idleBay 270)
    let s1 := s.updBay 0 (fun _ => idleBay 269)
    let s2 := s1.updLane .a (fun x => { x with track := [.occupied (.entry 5)] })
    (laneOf 1 = .a ∧ (∀ j : RosterIndex, (s1.lane .a).track.head? ≠ some (.occupied (.entry j))) ∧
      (s1.lane .a).headInFlight = false ∧ (s1.lane .a).queue.head? = some (.entry 5) ∧
      (s1.entry 5).state = .queued ∧ (s1.entry 5).params = some params0 ∧ Available 1 (s1.allowance params0) s1 ∧
      ∀ m, laneOf m = .a → m < 1 → ¬Available m (s1.allowance params0) s1) ∧
    ((s2.lane .a).trackOut = false ∧ (s2.lane .a).track.head? = some (.occupied (.entry 5)) ∧
      Available 1 (s2.allowance params0) s2) ∧
    (let s3 := (s1.updBay 1 (fun _ => idleBay 269)).updBay 2 (fun _ => idleBay 0)
     ∀ n, laneOf n = .a → ¬Available n (s3.allowance params0) s3) ∧ stoppedHall.runState = .eStopped := by
  unfold Available; decide

theorem test_hypotheses_ClaimGrant :
    (let s := { bayIn .unloading id with claims := [.bay 0], outfeedQueue := List.replicate 7 (.occupied .marker) }
     s.claims.head? = some (.bay 0) ∧ s.outfeedState = .normal ∧ s.runState ≠ .eStopped ∧ s.outfeedQueue.length < 8 ∧
       (s.bay 0).index = some 5) ∧
    (let s := { headed (queued .hold) with claims := [.lane .a] }
     s.claims.head? = some (.lane .a) ∧ s.outfeedState = .normal ∧ s.runState ≠ .eStopped ∧ s.outfeedQueue.length < 8 ∧
       (s.lane .a).headInFlight = false ∧ (s.lane .a).queue.head? = some (.entry 5) ∧ (s.entry 5).state = .queued) ∧
    hall.claims = [] ∧ 8 ≤ (List.replicate 8 (Position.occupied .marker)).length ∧
    (let s := { headed (queued .hold) with claims := [.lane .a] }.updLane .a (fun x => { x with headInFlight := true })
     s.claims.head? = some (.lane .a) ∧ (s.lane .a).headInFlight = true) := by decide

theorem test_hypotheses_DestinationEyes_lists :
    (∀ x ∈ [Position.occupied (.entry 1), .occupied .marker], ∃ item, x = .occupied item) ∧
      (∀ y ∈ [(⟨transit .marker .outfeedHead 20#32, .holdChute⟩ : ExitTransfer)], decide (y.exit = .scrapBin) = false) ∧
      decide ((⟨transit .marker .outfeedHead 20#32, .scrapBin⟩ : ExitTransfer).exit = .scrapBin) = true := by
  exact ⟨by simp, by decide, by decide⟩

theorem test_hypotheses_LoadingAndInputs_stopped :
    (let s := { bayIn .loading (fun b => { b with loading := some (transit (.entry 5) (.trackHead .a) 20#32) }) with
       runState := .eStopped, eStopInput := true }
     (s.bay 0).loading = some (transit (.entry 5) (.trackHead .a) 20#32) ∧ s.runState = .eStopped) ∧
    (let b := ((bayIn .filling (fun b => { b with doorClosed := true, kept := some .fillStep })).bay 0).setInput .full true
     b.state = .filling ∧ b.kept.isSome = true) ∧
    ((hall.bay 0).input .full ≠ true ∧ (BayInput.full ≠ .present)) := by decide

theorem test_hypotheses_SamplePair_filling :
    (let b := (bayIn .filling (fun b => { b with full := true, doorClosed := true, kept := some .fillStep })).bay 0
     b.state = .filling ∧ b.kept.isSome = true) ∧
    (let s := bayIn .filling (fun b => { b with full := true, doorClosed := true })
     (s.bay 0).kept = none ∧ (s.bay 0).full = true ∧ (s.bay 0).doorClosed = true ∧ s.short 0 = false) ∧
    ((hall.bay 0).state ≠ .filling ∧ (hall.bay 0).state ≠ .pressurising ∧ (hall.bay 0).state ≠ .holding ∧
      (hall.bay 0).state ≠ .releasing) := by decide

theorem test_hypotheses_SettlingAndVerdict_report :
    (let s := bayIn .settling (fun b => { b with
       stepTimer := some 0#32, releaseCause := some .rupture, ruptured := true, et := none, drop := none, ep := none })
     (s.bay 0).index = some 5 ∧ (s.entry 5).params = some params0 ∧ (s.entry 5).route = some .test ∧
       s.due (s.bay 0).stepTimer = true ∧ (s.bay 0).releaseCause = some .rupture ∧ (s.bay 0).ruptured = true ∧
       (s.bay 0).et = none) ∧
    (let s := (bayIn .settling (fun b => { b with stepTimer := some 0#32, releaseCause := some .holdEnd })).setEntry 5
       { tested with route := some .hold }
     (s.bay 0).index = some 5 ∧ (s.entry 5).params = some params0 ∧ (s.entry 5).route ≠ some .test ∧
       s.due (s.bay 0).stepTimer = true) ∧
    (let s := { hall with templates := hall.templates.set 0 (some [0x02#8, 0x03#8]) }
     let e := { tested with serial := some serial0 }
     e.params = some params0 ∧ params0.template = (0 : Fin 16).val ∧ s.templates[(0 : Fin 16)] = some [0x02#8, 0x03#8] ∧
       e.serial = some serial0 ∧ s.date = some ⟨2024, 5⟩) ∧
    ((0 : Int) < 1 ∧ (1 : Int) ≤ 1) := by decide

theorem test_hypotheses_OutfeedHeadDispatch :
    (let s := outfeedWith .marker tested
     s.outfeedState = .normal ∧ s.runState ≠ .eStopped ∧ s.outfeedHeadInFlight = false ∧
       s.outfeedQueue.head? = some (.occupied .marker)) ∧
    (let s := outfeedWith (.entry 5) (leaving .stamp)
     s.outfeedQueue.head? = some (.occupied (.entry 5)) ∧ (s.entry 5).route = some .stamp ∧
       (s.station .stamper).state = .idle ∧ (s.station .stamper).nestEye = false) ∧
    hall.outfeedQueue.head? = none ∧ (leaving .passThrough).route = some .passThrough := by decide

theorem test_gates :
    (let s := bayIn .loading (fun b => { b with loading := some (transit (.entry 5) (.laneHead .a) 20#32) })
     s.gateOpen (.laneFeed 0) = true ∧ s.gateOpen (.laneFeed 1) = false ∧ s.gateOpen (.track 0) = false) ∧
    (let s := { hall with outfeedQueue := [.reserved (transit .marker (.laneHead .b) 20#32)] }
     s.gateOpen (.bypass .b) = true ∧ s.gateOpen (.bypass .a) = false) ∧
    (let s := { hall with exits := [⟨transit (.entry 5) (.station .stamper) 20#32, .scrapBin⟩] }
     s.gateOpen (.eject .stamper) = true ∧ s.gateOpen .outfeedHead = false ∧ s.gateOpen (.unload 0) = false) := by decide

theorem test_hypotheses_DestinationEyes :
    (let s := hall.updLane .a (fun x => { x with track := [.reserved (transit (.entry 5) (.bay 0) 20#32)] })
     occupyFirst (s.lane .a).track =
       some (transit (.entry 5) (.bay 0) 20#32, [.occupied (.entry 5)])) ∧
    occupyFirst (hall.lane .a).track = none ∧
    occupyFirst [.reserved (transit .marker (.laneHead .b) 20#32)] =
      some (transit .marker (.laneHead .b) 20#32, [.occupied .marker]) ∧
    takeExit (fun x => decide (x.exit = .holdChute)) [⟨transit .marker .outfeedHead 20#32, .holdChute⟩] =
      some (⟨transit .marker .outfeedHead 20#32, .holdChute⟩, []) ∧
    takeExit (fun x => decide (x.exit = .scrapBin)) [⟨transit .marker .outfeedHead 20#32, .holdChute⟩] = none ∧
    takeExit (fun x => decide (x.exit = .releaseConveyor))
        [⟨transit (.entry 5) (.station .stamper) 20#32, .releaseConveyor⟩] =
      some (⟨transit (.entry 5) (.station .stamper) 20#32, .releaseConveyor⟩, []) ∧
    exitOutcome .releaseConveyor (leaving .stamp) = some (.passedMarked, .none) := by decide

theorem test_hypotheses_TransferJam :
    (let s := bayIn .loading (fun b => { b with loading := some (transit (.entry 5) (.laneHead .a) 0#32) })
     (s.bay 0).loading = some (transit (.entry 5) (.laneHead .a) 0#32) ∧ s.due (some 0#32) = true) ∧
    hall.due (some 1#32) = false ∧
    releaseReservation (hall.dueFrom (.bay 0)) [.reserved (transit (.entry 5) (.bay 0) 0#32)] =
      some (transit (.entry 5) (.bay 0) 0#32, []) ∧
    (hall.bay 0).loading = none ∧ releaseReservation (hall.dueFrom (.bay 0)) (hall.lane .a).track = none ∧
    takeExit (fun x => hall.dueFrom .outfeedHead x.transit) [⟨transit .marker .outfeedHead 0#32, .holdChute⟩] =
      some (⟨transit .marker .outfeedHead 0#32, .holdChute⟩, []) ∧
    takeExit (fun x => hall.dueFrom .outfeedHead x.transit) [⟨transit .marker .outfeedHead 1#32, .holdChute⟩] = none ∧
    (let s := stationIn .stamper (fun x =>
       { x with state := .nestLoading, loading := some (transit (.entry 5) .outfeedHead 0#32) })
     (s.station .stamper).loading = some (transit (.entry 5) .outfeedHead 0#32)) := by decide

theorem test_hypotheses_LoadingAndInputs :
    (let s := bayIn .loading (fun b => { b with loading := some (transit (.entry 5) (.laneHead .a) 20#32) })
     (s.bay 0).loading = some (transit (.entry 5) (.laneHead .a) 20#32) ∧ s.runState ≠ .eStopped ∧
       (s.bay 0).checksOwed = 0 ∧ s.short 0 = false ∧ (s.bay 0).full = false ∧ (s.entry 5).state = .testing) ∧
    (shortIn .loading false).short 0 = true ∧
    (let b := ((bayIn .filling (fun b => { b with doorClosed := true })).bay 0).setInput .full true
     b.state = .filling ∧ b.kept = none ∧ b.full = true ∧ b.doorClosed = true) ∧
    ((hall.bay 0).input .full = false ∧ (hall.bay 0).present = false) := by decide

theorem test_hypotheses_SamplePair :
    (pressurisedIn .pressurising).bayParams 0 = some params0 ∧ params0.testPressure * 11 < (2751#16).toNat ∧
      params0.testPressure * 10 ≤ (2500#16).toNat ∧ (2750#16).toNat ≤ params0.testPressure * 11 ∧
      (2499#16).toNat < params0.testPressure * 10 ∧ (1249#16).toNat < params0.testPressure * 5 ∧
      params0.testPressure * 5 ≤ (1250#16).toNat ∧ (2 + 1) % 4 ≠ 0 ∧ (3 + 1) % 4 = 0 ∧
      ((pressurisedIn .holding).bay 0).traceIndex < 64 := by decide

theorem test_hypotheses_BayLimits :
    (let s := dueIn .pressurising
     (s.bay 0).state = .pressurising ∧ s.due (s.bay 0).stepTimer = true) ∧
    (let s := bayIn .awaitIntensifier (fun b => { b with pressTimer := some 0#32 })
     s.due (s.bay 0).pressTimer = true) ∧
    (let s := dueIn .filling
     (s.bay 0).index = some 5 ∧ (s.entry 5).state = .testing ∧ (s.entry 5).route = some .test ∧
       (s.entry 5).countedVoids ≤ 2 ∧ s.due (s.bay 0).stepTimer = true) ∧
    hall.due (hall.bay 0).stepTimer = false ∧ TrackRoom .a hall ∧ ¬TrackRoom .a stoppedHall := by
  unfold TrackRoom; decide

theorem test_hypotheses_BayLimits_time :
    (let s := { hall with lineSeconds := 0#32 }
     s.due (some 0#32) = true ∧ s.due (some 0x80000001#32) = true ∧ s.due (some 0x80000000#32) = false ∧
       s.due (some 1#32) = false ∧ s.remaining 1#32 = 1) ∧
    { hall with lineSeconds := 0xFFFFFFFF#32 }.after 2 = 1#32 := by decide

theorem test_hypotheses_SettlingAndVerdict :
    (let s := bayIn .releasing (fun b => { b with releaseCause := some .holdEnd })
     (s.bay 0).state = .releasing ∧ 10 ≤ (10#16).toNat ∧ (9#16).toNat < 10 ∧ (s.bay 0).aborted = false) ∧
    (let s := bayIn .settling (fun b => { b with
       stepTimer := some 0#32, releaseCause := some .holdEnd, et := some 1000, drop := some 20, ep := some 100 })
     s.due (s.bay 0).stepTimer = true ∧ (s.bay 0).judge params0 = .inr .pass ∧
       { s.bay 0 with drop := some 21 }.judge params0 = .inl .leak ∧
       { s.bay 0 with et := some 0 }.judge params0 = .inl .gauge ∧
       { s.bay 0 with et := some 1201 }.judge params0 = .inr (.condemn .elastic) ∧
       { s.bay 0 with ep := some 101 }.judge params0 = .inr (.condemn .ratio) ∧
       { s.bay 0 with ruptured := true }.judge params0 = .inr (.condemn .rupture) ∧
       { s.bay 0 with lapsed := true }.judge params0 = .inl .zeroLapsed) := by decide

theorem test_storing_check_ends_the_run :
    let s := after (.checkExpiry 0) (hall.updBay 0 (fun b => { b with
      state := .zeroing, stepTimer := some 0#32, sampleSeen := true, zeroReference := none, checksOwed := 2, failures := 1 }))
    (s.bay 0).failures = 0 ∧ (s.bay 0).zeroReference = some 388 ∧ (s.bay 0).checksOwed = 1 := by decide

theorem test_hypotheses_CheckExpiry :
    let s := hall.updBay 0 (fun b => { b with
      state := .zeroing, stepTimer := some 0#32, sampleSeen := true, checksOwed := 1, latestGauge := 408 })
    ((s.bay 0).state = .zeroing ∧ s.due (s.bay 0).stepTimer = true ∧ (s.bay 0).zeroReference = some 388 ∧
      (408 - 388) + (388 - 408) ≤ s.work.driftLimit ∧ s.work.driftLimit < (409 - 388) + (388 - 409) ∧
      (s.bay 0).checksOwed ≤ 1 ∧ (s.bay 0).index = none ∧ 0 < s.work.zeroInterval ∧
      s.allowance params0 ≤ s.work.zeroInterval ∧ (s.bay 0).failures = 0) ∧ (hall.bay 0).state ≠ .zeroing := by decide

theorem test_hypotheses_Grants :
    (let s := { hall with requests := [⟨0, 250⟩] }
     s.requests.head? = some ⟨0, 250⟩ ∧ s.runState ≠ .eStopped ∧ (s.intensifier .one).state = .free ∧
       (s.intensifier .two).setpoint ≠ some 250) ∧
    hall.requests = [] ∧
    (let s := (bayIn .awaitIntensifier (fun b => { b with requested := true, grants := [.one] })).setIntensifier .one
       { hall.intensifier1 with state := .driving, coupledBay := some 0 }
     (s.bay 0).grants.head? = some .one ∧ (s.bay 0).requested = true ∧ s.short 0 = false ∧
       (s.intensifier .one).coupledBay = some 0 ∧ IntensifierId.one ∉ (s.bay 0).grants.tail) ∧
    (hall.intensifier .one).coupledBay ≠ some 0 ∧ (shortIn .awaitIntensifier true).short 0 = true ∧
    takeReleaseFrom 0 [⟨1, .one⟩, ⟨0, .two⟩] = some (⟨0, .two⟩, [⟨1, .one⟩]) ∧ takeReleaseFrom 0 [] = none := by decide

theorem test_hypotheses_RetuneAndFaultInput :
    (let s := (bayIn .pressurising (fun b => { b with coupled := some .one })).setIntensifier .one
       { hall.intensifier1 with state := .retuning, coupledBay := some 0, retuneExpiry := some 0#32 }
     (s.intensifier .one).state = .retuning ∧ s.due (s.intensifier .one).retuneExpiry = true ∧
       (s.intensifier .one).coupledBay = some 0 ∧ (s.bay 0).state = .pressurising ∧ (s.bay 0).coupled = some .one ∧
       s.short 0 = false ∧ (s.intensifier .one).faultInput = false) ∧
    (hall.intensifier .one).state ≠ .retuning ∧ (hall.intensifier .one).coupledBay = none := by decide

theorem test_hypotheses_RetuneAndFaultInput_shortfall :
    let s := (shortIn .pressurising true).updBay 0 (fun b => { b with coupled := some .one })
    (s.bay 0).state = .pressurising ∧ (s.bay 0).coupled = some .one ∧ s.short 0 = true ∧ (s.bay 0).pressurised = true := by
  decide

theorem test_hypotheses_RetuneAndFaultInput_outputs :
    let x := { hall.intensifier1 with state := .driving, requested := some 250 }
    x.drive = true ∧ x.setpointOutput = 250 ∧ { x with state := .retuning }.drive = false ∧
      { x with state := .retuning }.setpointOutput = 250 ∧ { x with state := .free }.setpointOutput = 0 := by decide

theorem test_hypotheses_NestAndOffering :
    (let s := stationIn .stamper (fun x =>
       { x with state := .nestLoading, loading := some (transit (.entry 5) .outfeedHead 20#32) })
     (s.station .stamper).loading = some (transit (.entry 5) .outfeedHead 20#32) ∧ (s.station .stamper).index = some 5) ∧
    (hall.station .stamper).loading = none ∧ tested.params = some params0 ∧
    { tested with mark := some [0x41#8], serial := some serial0 }.mark = some [0x41#8] ∧
    (let s := { stationIn .stamper (fun x => { x with state := .nestLoaded, ready := true }) with guardClosed := true }
     (s.station .stamper).state = .nestLoaded ∧ s.guardClosed = true ∧ (s.station .stamper).ready = true ∧
       s.runState ≠ .eStopped) ∧
    (let x := (stationIn .stamper (fun x => { x with
       state := .offering, bytePos := some 3, order := some [0x53#8, 2#8, 1#8], orderReady := true,
       limit := some 0#32 })).station .stamper
     x.bytePos = some 3 ∧ x.order = some [0x53#8, 2#8, 1#8] ∧ x.taken = false ∧ x.orderReady = true ∧
       hall.due x.limit = true) := by decide

theorem test_hypotheses_StationResults :
    (let x := (stationIn .stamper (fun x => { x with state := .working, nest := .loaded, limit := some 0#32 })).station .stamper
     x.index = some 5 ∧ x.state = .working ∧ hall.due x.limit = true ∧ x.reoffer = 0 ∧ { x with reoffer := 1 }.reoffer ≠ 0) ∧
    6 ≤ (6#4).toNat ∧ (leaving .stamp).state = .outbound ∧ (hall.station .stamper).state = .idle ∧
    (let x := (stationIn .stamper (fun x => { x with
       state := .ejecting, nest := .outgoing, ejectExit := some .holdChute })).station .stamper
     x.index = some 5 ∧ x.ejectExit = some .holdChute ∧ x.nest = .outgoing ∧ x.ejectBegun = false) ∧
    hall.runState ≠ .eStopped := by decide

end Sys2Proof.Tests
end

