-- ==== Sys2Proof/Proofs/AttemptStart.lean ====
section
/-! The start of an attempt (R17): what the report writes into the roster, and that nothing else in a FILLING entry touches it. -/

namespace Sys2Proof.Machine

/-- A step within a frame that names no roster entry keeps the roster. -/
theorem Frame.entry_eq {L : List Part} {s t : State} (h : Frame L s t) {i : RosterIndex} (hi : Part.entry i ∉ L) :
    t.entry i = s.entry i :=
  h (.entry i) hi

/-- The start of an attempt is one edit of the TESTING entry it names (R17). -/
theorem reportAttempt_entry {s : State} {i : RosterIndex} (h : (s.entry i).state = .testing) (j : RosterIndex) :
    (s.reportAttempt i).entry j =
      if i = j then
        { s.entry i with
          testsStarted := min 15 ((s.entry i).testsStarted + 1)
          meas := Measurements.absent
          editCount := (s.entry i).editCount + 2#8 }
      else s.entry j := by
  simp only [State.reportAttempt, if_pos h, editEntry_eq, entry_setEntry]

theorem reportBayAttempt_of_index {s : State} {n : BayId} {i : RosterIndex} (h : (s.bay n).index = some i) :
    s.reportBayAttempt n = s.reportAttempt i := by
  simp only [State.reportBayAttempt, h]

/-- After the report, a FILLING entry changes the bay and at most asks for an intensifier (R97): the roster stays. -/
theorem enterFilling_entry (s : State) (n : BayId) (j : RosterIndex) :
    (s.enterFilling n).entry j = (s.reportBayAttempt n).entry j := by
  have htest := (frame_testFilled ((s.reportBayAttempt n).updBay n (fun b => b.fillStarted (s.after Config.fillLimit)))
    n).entry_eq (i := j) (by simp [requestParts])
  exact htest.trans (setBay_entry _ n _ j)

/-- Settles O28: the entries after a FILLING entry are those after the report, which edits the held entry alone. -/
theorem attemptStart : Obligations.AttemptStart := by
  intro s n i hindex htesting
  have hentry (j : RosterIndex) : (s.enterFilling n).entry j = (s.reportAttempt i).entry j := by
    rw [enterFilling_entry, reportBayAttempt_of_index hindex]
  constructor
  · rw [hentry, reportAttempt_entry htesting, if_pos rfl]
  · intro j hj
    rw [hentry, reportAttempt_entry htesting, if_neg hj.symm]

end Sys2Proof.Machine
end

