-- ==== Sys2Proof/Proofs/Readers.lean ====
section
/-! The receiver in HUNT (R43) and the holding buffer (R48): what a reader makes of a character and of an identity, and that
READER_CHARACTER does that to the one reader alone. -/

namespace Sys2Proof.Machine

/-! ## The holding buffer (R48) -/

theorem Reader.store_of_empty {r : Reader} (id : Identity) (h : r.held = none) :
    r.store id = { r with held := some id } := by
  simp only [Reader.store, h]

theorem Reader.store_of_same_serial {r : Reader} {id old : Identity} (h : r.held = some old)
    (hserial : old.serial = id.serial) : r.store id = { r with duplicateReads := min 255 (r.duplicateReads + 1) } := by
  simp only [Reader.store, h, if_pos hserial, bump255]

theorem Reader.store_of_other_serial {r : Reader} {id old : Identity} (h : r.held = some old)
    (hserial : old.serial ≠ id.serial) :
    r.store id = { r with held := some id, overruns := min 255 (r.overruns + 1) } := by
  simp only [Reader.store, h, if_neg hserial, bump255]

/-! ## A character (R43, R44) -/

/-- A SYNC with a good stop element starts a frame (R43). -/
theorem Reader.take_sync_in_hunt {r : Reader} (h : r.state = .hunt) :
    r.take 0x1D#8 true = { r with state := .frame, frame := [] } := by
  simp only [Reader.take, h, Reader.hunt, Reader.startFrame, syncByte, and_self, if_true]

/-- HUNT discards every other character (R43). -/
theorem Reader.take_other_in_hunt {r : Reader} {value : Byte} {stopGood : Bool} (h : r.state = .hunt)
    (hv : ¬(value = 0x1D#8 ∧ stopGood = true)) : r.take value stopGood = r := by
  simp only [Reader.take, h, Reader.hunt]
  exact if_neg hv

/-- An equal check at position 18 completes a good frame: back to HUNT, its identity handed on (R44). -/
theorem Reader.take_good_check {r : Reader} (h : r.state = .frame) (hlen : 16 ≤ r.frame.length) :
    r.take (xorBytes r.frame) true = { r with state := .hunt, frame := [] }.store (identityOf r.frame) := by
  simp only [Reader.take, h, Reader.inFrame, Bool.true_eq_false, if_false, if_neg (Nat.not_lt.mpr hlen), if_true]

/-! ## The step -/

theorem Gives.mono {c : Instr} {s : State} {P Q : State → Prop} (h : Gives c s P) (hPQ : ∀ t, P t → Q t) :
    Gives c s Q := by
  obtain ⟨t, hexec, ht⟩ := h
  exact ⟨t, hexec, hPQ t ht⟩

/-- A step within one reader's frame that left that reader as it was changed no part. -/
theorem Frame.of_reader_eq {l : LaneId} {s t : State} (h : Frame [.reader l] s t) (hr : t.reader l = s.reader l) :
    Frame [] s t := by
  intro p _
  by_cases hp : p = .reader l
  · subst hp; exact hr
  · exact h p (by simpa using hp)

/-- READER_CHARACTER gives the reader what it makes of the character, and changes nothing else. -/
theorem gives_readerCharacter {l : LaneId} {value : Byte} {stopGood : Bool} {s : State} {r : Reader}
    (h : (s.reader l).take value stopGood = r) :
    Gives (.readerCharacter l value stopGood) s fun t => t.reader l = r ∧ Frame [.reader l] s t :=
  ⟨s.publish (s.setReader l ((s.reader l).take value stopGood)), rfl, by simp [h], (frame_setReader s l _).publish⟩

/-! ## The statements -/

/-- Settles O31: in HUNT the step is that of a SYNC, or the character leaves the reader as it was. -/
theorem readerHunt : Obligations.ReaderHunt := by
  intro l value stopGood s hstate
  constructor
  · rintro rfl rfl
    refine (gives_readerCharacter (Reader.take_sync_in_hunt hstate)).mono ?_
    rintro t ⟨hreader, hframe⟩
    rw [hreader]
    exact ⟨rfl, rfl, rfl, rfl, hframe⟩
  · intro hother
    refine (gives_readerCharacter (Reader.take_other_in_hunt hstate hother)).mono ?_
    rintro t ⟨hreader, hframe⟩
    exact ⟨hreader, hframe.of_reader_eq hreader⟩

/-- Settles O33: an equal check hands the identity on, and the holding buffer acts by what it holds. -/
theorem holdingBuffer : Obligations.HoldingBuffer := by
  intro l value s r id hunting hstate hlen hvalue
  subst hvalue
  have hgood : r.take (xorBytes r.frame) true = hunting.store id := Reader.take_good_check hstate hlen
  refine ⟨fun hempty => ?_, fun old hheld hserial => ?_, fun old hheld hserial => ?_⟩
  · exact gives_readerCharacter (hgood.trans (Reader.store_of_empty id hempty))
  · exact gives_readerCharacter (hgood.trans (Reader.store_of_same_serial hheld hserial))
  · exact gives_readerCharacter (hgood.trans (Reader.store_of_other_serial hheld hserial))

end Sys2Proof.Machine
end

