-- ==== Sys2Proof/Proofs/Meanings.lean ====
section
/-! What a command can do, said once: an event publishes its effect, a command word is carried to its owner's answer, and the
writes of CMB, the host's other writes and the two resets publish for themselves. Every invariant of a step is derived from
this. -/

-- Proofs are checked one after another: the whole text, compiled as one, would otherwise start more threads than fit into the
-- check's memory.
set_option Elab.async false

namespace Sys2Proof.Machine

/-- The effect of a command that the block publishes as it stands: the events and expiries, INTERRUPT_ENABLE and NMB_READ. -/
def effect (c : Instr) (s : State) : Option State :=
  match c with
  | .interruptEnable enable => some { s with interruptEnable := enable }
  | .nmbRead => some s.nmbRead
  | .eStopAsserted => some s.assertEStop
  | .eStopReleased => some s.releaseEStop
  | .lineSecondsAdvance => some s.advance.drainTest
  | .zeroValidityLapse n => some (s.lapseAtZero n)
  | .readerCharacter l value stopGood => some (s.setReader l ((s.reader l).take value stopGood))
  | .readerBreak l => some (s.breakReader l)
  | .arrival l => some ((s.setReader l { s.reader l with held := none }).arrive l (s.reader l).held)
  | .noteWaitExpiry l => some (s.expireNoteWait l)
  | .bayAllocation l => some (s.allocate l).drainTest
  | .claimGrant => some s.grantClaim.drainTest
  | .outfeedHeadDispatch => some s.dispatchHead.drainTest
  | .loadingEnd n => some ((s.updBay n (fun b => { b with present := true })).endLoading n).drainTest
  | .trackEye l => some (s.endTrack l).drainTest
  | .outfeedEye => some s.endOutfeed.drainTest
  | .exitEye e => some (s.endExit e).drainTest
  | .transferJam t => some (s.jam t).drainTest
  | .bayInputChange n input level => some (s.changeInput n input level).drainTest
  | .fillLimitExpiry n => some (s.expireFill n).drainTest
  | .grant => some s.grantHead
  | .grantAtBay n => some (s.takeGrant n).drainTest
  | .intensifierRelease n => some (s.arbiterRelease n)
  | .retuneExpiry i => some (s.endRetune i)
  | .faultInputChange i level => some (s.changeFaultInput i level).drainTest
  | .samplePair n pressure gauge =>
    some ((s.updBay n (fun b => b.sampled pressure.toNat gauge.toNat)).actOnSample n pressure.toNat
      gauge.toNat).drainTest
  | .riseLimitExpiry n => some (s.expireRise n)
  | .holdExpiry n => some (s.expireHold n)
  | .releaseLimitExpiry n => some (s.expireRelease n).drainTest
  | .settleExpiry n => some (s.expireSettle n).drainTest
  | .pressurisedLimitExpiry n => some (s.expirePressurised n)
  | .checkExpiry n => some (s.expireCheck n).drainTest
  | .nestEye st => some (s.nestEyeOn st).drainTest
  | .stationNestEyeOff st => some (s.updStation st (fun x => { x with nestEye := false }))
  | .orderOffer st => some (s.offerOrder st)
  | .guardClosedChange level => some (s.changeGuard level)
  | .stationReadyChange st level => some (s.updStation st (fun x => { x with ready := level }))
  | .taken st level => some (s.changeTaken st level)
  | .takeLimitExpiry st => some (s.expireTake st).drainTest
  | .doneStrobe st result change => some (s.changeDone st result change)
  | .workLimitExpiry st => some (s.expireWork st)
  | .ejectBegin st => some (s.beginEject st).drainTest
  | _ => none

/-- The owner of a command of the command list: the block that carries it out and answers its result (R166, R167). -/
def ownerOf (c : Instr) : Option (State → State × ResultCode) :=
  match c with
  | .takeTables _ => some State.takeTablesResult
  | .setDate arg => some fun t => t.setDateResult arg
  | .run _ => some State.runResult
  | .stopLine _ => some State.stopLineResult
  | .clearStatus _ => some State.clearStatusResult
  | .postNote arg => some fun t => t.postNoteResult arg
  | .withdrawNote arg => some fun t => t.withdrawNoteResult arg
  | .releaseEntry arg => some fun t => t.releaseEntryResult arg
  | .bayHold arg => some fun t => t.forBayArg arg State.holdBay
  | .bayResume arg => some fun t => t.forBayArg arg State.resumeBay
  | .bayAbort arg => some fun t => t.forBayArg arg State.abortBay
  | .bayZero arg => some fun t => t.forBayArg arg State.zeroBay
  | .takeOutOfService arg => some fun t => t.takeOutResult (argByte arg)
  | .serviceLine arg => some fun t => t.serviceLineResult arg
  | .returnToService arg => some fun t => t.returnResult (argByte arg)
  | .laneClear arg => some fun t => t.laneClearResult arg
  | _ => none

/-- An event publishes its effect. -/
theorem exec_effect {c : Instr} {s u : State} (h : effect c s = some u) : exec c s = .next (s.publish u) := by
  cases c <;> simp only [effect, Option.some.injEq, reduceCtorEq] at h
  all_goals subst h; rfl

/-- A command of the command list is carried to its owner's answer. -/
theorem exec_command {c : Instr} {code : Byte} {arg : BitVec 24} (h : commandOf c = some (code, arg)) :
    ∃ owner, ownerOf c = some owner ∧
      ∀ s, exec c s = .next (s.commandStep (commandWord code arg) (exemptCode code) owner) := by
  cases c <;> simp only [commandOf, Option.some.injEq, Prod.mk.injEq, reduceCtorEq] at h
  all_goals obtain ⟨rfl, rfl⟩ := h; exact ⟨_, rfl, fun s => rfl⟩

/-- What a command can do. -/
inductive Does (c : Instr) (s : State) : State → Prop
  /-- an event publishes its effect -/
  | event {u : State} (h : effect c s = some u) : Does c s (s.publish u)
  /-- a command word is carried to its owner's answer -/
  | command {code : Byte} {arg : BitVec 24} {owner : State → State × ResultCode} (h : commandOf c = some (code, arg))
      (ho : ownerOf c = some owner) : Does c s (s.commandStep (commandWord code arg) (exemptCode code) owner)
  /-- a word outside the command list -/
  | unknown (word : Word) (h : c = .unknownCommand word) : Does c s (s.commandStep word true State.unknownResult)
  /-- a word is written into CMB -/
  | cmb (word : Word) (h : c = .overwrite word ∨ c = .unknownCommand word ∨ ∃ a size, c = .registerWrite a size word ∧ a.toNat ≠ 0x1000C) :
      Does c s (s.cmbStep word)
  /-- the line computer writes bytes into the store -/
  | store (a : Word) (size : AccessSize) (value : Word) (h : c = .registerWrite a size value) (ha : a.toNat < 0x10000) :
      Does c s (s.storeWrite a.toNat (accessBytes size value))
  /-- a host write that nothing takes -/
  | ignored (a : Word) (size : AccessSize) (value : Word) (h : c = .registerWrite a size value)
      (ha : ¬(a = 0x1000C#32 ∧ size = .word)) : Does c s s
  /-- CTL with LINE RESET clear -/
  | enable (a : Word) (size : AccessSize) (value : Word) (h : c = .registerWrite a size value) (b : Bool) :
      Does c s (s.publish { s with interruptEnable := b })
  /-- LINE RESET -/
  | lineReset (b : Bool) (h : c = .lineReset b ∨ ∃ a size value, c = .registerWrite a size value) :
      Does c s { s with interruptEnable := b }.lineReset
  | powerOn (h : c = .powerOnReset) : Does c s s.powerOnReset

/-- A host write of a register (R162, R165, R172). -/
theorem does_registerWrite (a : Word) (size : AccessSize) (value : Word) (s : State) :
    Does (.registerWrite a size value) s (s.hostWrite a.toNat size value) := by
  unfold State.hostWrite
  split
  · exact .store a size value rfl ‹_›
  · have hctl : a.toNat ≠ 0x1000C → a ≠ 0x1000C#32 := fun h k => h (by rw [k]; rfl)
    cases size with
    | byte => exact .ignored a _ value rfl (by simp)
    | halfword => exact .ignored a _ value rfl (by simp)
    | word =>
      simp only [State.registerWrite]
      split
      · exact .cmb value (.inr (.inr ⟨a, .word, rfl, by omega⟩))
      · split
        · unfold State.ctlWrite
          dsimp only
          split
          · exact .lineReset _ (.inr ⟨a, .word, value, rfl⟩)
          · exact .enable a .word value rfl _
        · rename_i h; exact .ignored a .word value rfl (fun k => hctl h k.1)

/-- Every command completes, and what it does is one of these. -/
theorem exec_does (c : Instr) (s : State) : ∃ t, exec c s = .next t ∧ Does c s t := by
  cases he : effect c s with
  | some u => exact ⟨_, exec_effect he, .event he⟩
  | none =>
    cases hc : commandOf c with
    | some p =>
      obtain ⟨owner, ho, hx⟩ := exec_command (code := p.1) (arg := p.2) hc
      exact ⟨_, hx s, .command hc ho⟩
    | none =>
      cases c <;> simp only [effect, commandOf, reduceCtorEq] at he hc
      case powerOnReset => exact ⟨_, rfl, .powerOn rfl⟩
      case lineReset b => exact ⟨_, rfl, .lineReset b (.inl rfl)⟩
      case overwrite word => exact ⟨_, rfl, .cmb word (.inl rfl)⟩
      case registerWrite a size value => exact ⟨_, rfl, does_registerWrite a size value s⟩
      case unknownCommand word =>
        show ∃ t, execUnknownCommand word s = .next t ∧ _
        unfold execUnknownCommand
        split
        · exact ⟨_, rfl, .cmb word (.inr (.inl rfl))⟩
        · exact ⟨_, rfl, .unknown word rfl⟩

theorem does_of_exec {c : Instr} {s t : State} (h : exec c s = .next t) : Does c s t := by
  obtain ⟨u, hu, hd⟩ := exec_does c s
  rw [h] at hu
  cases hu
  exact hd

end Sys2Proof.Machine
end

