-- ==== Sys2Proof/Proofs/Kept.lean ====
section
/-! What every operation of the units keeps, as one relation that composes: the queue of commands, the RQ4's records in the
store, the edit counts that publishing alone advances, even counts, the free count and the bounds. Each operation is proved to
keep it once; the invariants of a step follow. -/

-- Proofs are checked one after another: the whole text, compiled as one, would otherwise start more threads than fit into the
-- check's memory.
set_option Elab.async false

namespace Sys2Proof.Machine

/-! ## The relation -/

/-- The edit counts of the blocks' records are left to publishing (R163). -/
def SameCounts (s t : State) : Prop :=
  (∀ l, (t.lane l).editCount = (s.lane l).editCount) ∧ (∀ n, (t.bay n).editCount = (s.bay n).editCount) ∧
    (∀ i, (t.intensifier i).editCount = (s.intensifier i).editCount) ∧
    ∀ st, (t.station st).editCount = (s.station st).editCount

/-- No two notes of the expect table with one serial or one slot, and none with the serial of an AWAITING NOTE entry. -/
def NotesDistinct (s : State) : Prop :=
  (s.expect.map Note.slot).Nodup ∧ (s.expect.map Note.serial).Nodup ∧
    ∀ note ∈ s.expect, ∀ i, ¬AwaitsNote i note.serial s

/-- The bounds of `Bounded` but for the count of ejects, which the operations on ejects keep only together. -/
structure Limits (s : State) : Prop where
  lanes : ∀ l, (s.lane l).queue.length ≤ Config.laneCapacity ∧ (s.lane l).track.length ≤ Config.trackCapacity
  outfeed : s.outfeedQueue.length ≤ Config.outfeedCapacity
  claims : s.claims.Nodup
  requests : (s.requests.map Request.bay).Nodup
  entries : ∀ i, (s.entry i).countedVoids ≤ 2 ∧ (s.entry i).testsStarted ≤ 15
  bays : ∀ n, (s.bay n).checksOwed ≤ 2 ∧ (s.bay n).failures ≤ 1 ∧ (s.bay n).traceIndex < 64 ∧ (s.bay n).traceCount ≤ 255
  notes : NotesDistinct s
  sources : SourcesAgree s

/-- One eject in flight for a station whose eject has begun, and none for any other (R157). -/
def EjectsCounted (s : State) : Prop :=
  ∀ st, (s.exits.filter (fun x => decide (x.transit.source = .station st))).length =
    if (s.station st).ejectBegun then 1 else 0

theorem bounded_iff (s : State) : Bounded s ↔ Limits s ∧ EjectsCounted s := by
  constructor
  · rintro ⟨hl, ho, hc, hr, he, hb, hn, hx, hs⟩
    exact ⟨⟨hl, ho, hc, hr, he, hb, hn, hs⟩, hx⟩
  · rintro ⟨⟨hl, ho, hc, hr, he, hb, hn, hs⟩, hx⟩
    exact ⟨hl, ho, hc, hr, he, hb, hn, hx, hs⟩

/-- The ejects of a station in flight (R80). -/
def ejectsOf (s : State) (st : StationId) : Nat :=
  (s.exits.filter (fun x => decide (x.transit.source = .station st))).length

/-- No eject has begun and none is over. -/
def EjectsSame (s t : State) : Prop :=
  ∀ st, ejectsOf t st = ejectsOf s st ∧ (t.station st).ejectBegun = (s.station st).ejectBegun

/-- What every operation of the units keeps. `E` marks the operations that neither begin nor end an eject, and `P` those that leave
the infeed permits as their conditions give them. -/
structure Kept (E P : Prop) (s t : State) : Prop where
  pending : t.pending = s.pending
  board : BoardOnly s t
  counts : SameCounts s t
  even : EvenCounts s → EvenCounts t
  free : FreeCounted s → FreeCounted t
  limits : Limits s → Limits t
  ejects : E → EjectsSame s t
  permits : P → PermitsHeld s → PermitsHeld t

variable {E P : Prop}

theorem SameCounts.trans {s t u : State} (h : SameCounts s t) (k : SameCounts t u) : SameCounts s u :=
  ⟨fun l => (k.1 l).trans (h.1 l), fun n => (k.2.1 n).trans (h.2.1 n), fun i => (k.2.2.1 i).trans (h.2.2.1 i),
    fun st => (k.2.2.2 st).trans (h.2.2.2 st)⟩

theorem EjectsSame.trans {s t u : State} (h : EjectsSame s t) (k : EjectsSame t u) : EjectsSame s u :=
  fun st => ⟨(k st).1.trans (h st).1, (k st).2.trans (h st).2⟩

theorem EjectsCounted.of_same {s t : State} (h : EjectsCounted s) (k : EjectsSame s t) : EjectsCounted t := fun st => by
  show ejectsOf t st = _
  rw [(k st).1, (k st).2]
  exact h st

theorem Kept.refl (s : State) : Kept E P s s :=
  ⟨rfl, .refl s, ⟨fun _ => rfl, fun _ => rfl, fun _ => rfl, fun _ => rfl⟩, id, id, id, fun _ _ => ⟨rfl, rfl⟩, fun _ => id⟩

theorem Kept.trans {s t u : State} (h : Kept E P s t) (k : Kept E P t u) : Kept E P s u :=
  ⟨k.pending.trans h.pending, h.board.trans k.board, h.counts.trans k.counts, fun e => k.even (h.even e),
    fun e => k.free (h.free e), fun e => k.limits (h.limits e), fun e => (h.ejects e).trans (k.ejects e),
    fun p hp => k.permits p (h.permits p hp)⟩

theorem Kept.weaken {E' P' : Prop} {s t : State} (h : Kept E P s t) (he : E' → E) (hp : P' → P) : Kept E' P' s t :=
  ⟨h.pending, h.board, h.counts, h.even, h.free, h.limits, fun e => h.ejects (he e), fun p => h.permits (hp p)⟩

theorem Kept.ite {s t u : State} {c : Prop} [Decidable c] (h : c → Kept E P s t) (k : ¬c → Kept E P s u) :
    Kept E P s (if c then t else u) := by
  split
  · exact h ‹_›
  · exact k ‹_›

theorem kept_foldl {α : Type} {g : State → α → State} (h : ∀ t x, Kept E P t (g t x)) (l : List α) (s : State) :
    Kept E P s (l.foldl g s) := by
  induction l generalizing s with
  | nil => exact .refl s
  | cons x rest ih => exact (h s x).trans (ih _)

theorem kept_forBays {f : BayId → State → State} (h : ∀ n t, Kept E P t (f n t)) (s : State) : Kept E P s (s.forBays f) :=
  kept_foldl (fun t n => h n t) _ s

/-! ## What an update of one unit keeps -/

/-- A transfer that loads a bay comes from the head of its lane or of its track (R74). -/
def Feeds (n : BayId) (source : TransferSource) : Prop :=
  source = .laneHead (laneOf n) ∨ source = .trackHead (laneOf n)

/-- A transfer into the outfeed comes from a bay or a lane (R74). -/
def FeedsOutfeed (source : TransferSource) : Prop := (∃ n, source = .bay n) ∨ ∃ l, source = .laneHead l

/-- What an update of a lane keeps. -/
structure LaneKept (P : Prop) (l : LaneId) (x y : Lane) : Prop where
  count : y.editCount = x.editCount := by rfl
  queue : x.queue.length ≤ Config.laneCapacity → y.queue.length ≤ Config.laneCapacity := by exact id
  track : x.track.length ≤ Config.trackCapacity → y.track.length ≤ Config.trackCapacity := by exact id
  source : ∀ t, .reserved t ∈ y.track → (∃ n, laneOf n = l ∧ t.source = .bay n) ∨
    ∃ u, .reserved u ∈ x.track ∧ t.source = u.source := by exact fun t h => .inr ⟨t, h, rfl⟩
  permit : P → y.state = x.state ∧ y.queue.length = x.queue.length ∧ y.permit = x.permit := by
    exact fun _ => ⟨rfl, rfl, rfl⟩

/-- What an update of a bay keeps. -/
structure BayKept (n : BayId) (x y : Bay) : Prop where
  count : y.editCount = x.editCount := by rfl
  owed : x.checksOwed ≤ 2 → y.checksOwed ≤ 2 := by exact id
  failures : x.failures ≤ 1 → y.failures ≤ 1 := by exact id
  traceIndex : x.traceIndex < 64 → y.traceIndex < 64 := by exact id
  traceCount : x.traceCount ≤ 255 → y.traceCount ≤ 255 := by exact id
  source : ∀ t, y.loading = some t → Feeds n t.source ∨ ∃ u, x.loading = some u ∧ t.source = u.source := by
    exact fun t h => .inr ⟨t, h, rfl⟩

/-- What an update of a station keeps. -/
structure StationKept (E : Prop) (x y : Station) : Prop where
  count : y.editCount = x.editCount := by rfl
  begun : E → y.ejectBegun = x.ejectBegun := by exact fun _ => rfl
  source : ∀ t, y.loading = some t → t.source = .outfeedHead ∨ ∃ u, x.loading = some u ∧ t.source = u.source := by
    exact fun t h => .inr ⟨t, h, rfl⟩

/-- What an update of a roster entry keeps: an entry becomes or leaves FREE only at a creation or a release. -/
structure EntryKept (x y : Entry) : Prop where
  count : y.editCount = x.editCount ∨ y.editCount = x.editCount + 2#8 := by exact .inl rfl
  free : y.state = .free ↔ x.state = .free := by exact Iff.rfl
  voids : x.countedVoids ≤ 2 → y.countedVoids ≤ 2 := by exact id
  tests : x.testsStarted ≤ 15 → y.testsStarted ≤ 15 := by exact id
  awaits : y.state = .awaitingNote → x.state = .awaitingNote ∧ y.serial = x.serial := by exact fun h => ⟨h, rfl⟩

/-- What an update of the outfeed queue keeps. -/
structure OutfeedKept (x y : List Position) : Prop where
  length : x.length ≤ Config.outfeedCapacity → y.length ≤ Config.outfeedCapacity := by exact id
  source : ∀ t, .reserved t ∈ y → FeedsOutfeed t.source ∨ ∃ u, .reserved u ∈ x ∧ t.source = u.source := by
    exact fun t h => .inr ⟨t, h, rfl⟩

/-- A transfer to an exit comes from the outfeed head or a station (R74). -/
def FeedsExit (source : TransferSource) : Prop := source = .outfeedHead ∨ ∃ st, source = .station st

/-- An update that touches some units and leaves the store alone. -/
structure UnitsKept (E P : Prop) (s t : State) : Prop where
  run : P → t.runState = s.runState := by exact fun _ => rfl
  settings : P → t.settings = s.settings := by exact fun _ => rfl
  pending : t.pending = s.pending := by rfl
  mem : t.mem = s.mem := by rfl
  header : t.headerCount = s.headerCount ∨ t.headerCount = s.headerCount + 2#8 := by exact .inl rfl
  slots : t.slotCounts = s.slotCounts := by rfl
  lanes : ∀ l, LaneKept P l (s.lane l) (t.lane l) := by exact fun _ => {}
  bays : ∀ n, BayKept n (s.bay n) (t.bay n) := by exact fun _ => {}
  intensifiers : ∀ i, (t.intensifier i).editCount = (s.intensifier i).editCount := by exact fun _ => rfl
  stations : ∀ st, StationKept E (s.station st) (t.station st) := by exact fun _ => {}
  entries : ∀ i, EntryKept (s.entry i) (t.entry i) := by exact fun _ => {}
  freeCount : t.freeCount = s.freeCount := by rfl
  outfeed : OutfeedKept s.outfeedQueue t.outfeedQueue := by exact {}
  claims : s.claims.Nodup → t.claims.Nodup := by exact id
  requests : (s.requests.map Request.bay).Nodup → (t.requests.map Request.bay).Nodup := by exact id
  expect : t.expect.Sublist s.expect := by exact .refl _
  exits : ∀ x ∈ t.exits, FeedsExit x.transit.source ∨ ∃ y ∈ s.exits, x.transit.source = y.transit.source := by
    exact fun x h => .inr ⟨x, h, rfl⟩
  ejects : E → ∀ st, ejectsOf t st = ejectsOf s st := by exact fun _ _ => rfl

/-- An edit keeps a count even (R163). -/
theorem even_add_two {x : Byte} (h : x.getLsbD 0 = false) : (x + 2#8).getLsbD 0 = false := by
  revert x; decide

/-- The free count of a roster whose entries are FREE where they were. -/
theorem countFree_congr {s t : State} (h : ∀ i, (t.entry i).state = .free ↔ (s.entry i).state = .free) :
    t.countFree = s.countFree := by
  simp only [State.countFree, h]

theorem SourcesAgree.kept {s t : State} (h : SourcesAgree s) (k : UnitsKept E P s t) : SourcesAgree t := by
  obtain ⟨hbay, hlane, hout, hstation, hexit⟩ := h
  refine ⟨fun n x hx => ?_, fun l x hx => ?_, fun x hx => ?_, fun st x hx => ?_, fun x hx => ?_⟩
  · obtain hf | ⟨u, hu, he⟩ := (k.bays n).source x hx
    · exact hf
    · exact he ▸ hbay n u hu
  · obtain hf | ⟨u, hu, he⟩ := (k.lanes l).source x hx
    · exact hf
    · exact he ▸ hlane l u hu
  · obtain hf | ⟨u, hu, he⟩ := k.outfeed.source x hx
    · exact hf
    · exact he ▸ hout u hu
  · obtain hf | ⟨u, hu, he⟩ := (k.stations st).source x hx
    · exact hf
    · exact he ▸ hstation st u hu
  · obtain hf | ⟨u, hu, he⟩ := k.exits x hx
    · exact hf
    · exact he ▸ hexit u hu

theorem NotesDistinct.kept {s t : State} (h : NotesDistinct s) (k : UnitsKept E P s t) : NotesDistinct t := by
  obtain ⟨hslot, hserial, hawait⟩ := h
  refine ⟨(k.expect.map Note.slot).nodup hslot, (k.expect.map Note.serial).nodup hserial, fun note hn i ha => ?_⟩
  have hw := (k.entries i).awaits ha.1
  exact hawait note (k.expect.subset hn) i ⟨hw.1, hw.2 ▸ ha.2⟩

theorem UnitsKept.limits {s t : State} (k : UnitsKept E P s t) (h : Limits s) : Limits t where
  lanes l := ⟨(k.lanes l).queue (h.lanes l).1, (k.lanes l).track (h.lanes l).2⟩
  outfeed := k.outfeed.length h.outfeed
  claims := k.claims h.claims
  requests := k.requests h.requests
  entries i := ⟨(k.entries i).voids (h.entries i).1, (k.entries i).tests (h.entries i).2⟩
  bays n :=
    ⟨(k.bays n).owed (h.bays n).1, (k.bays n).failures (h.bays n).2.1, (k.bays n).traceIndex (h.bays n).2.2.1,
      (k.bays n).traceCount (h.bays n).2.2.2⟩
  notes := h.notes.kept k
  sources := h.sources.kept k

theorem UnitsKept.even {s t : State} (k : UnitsKept E P s t) (h : EvenCounts s) : EvenCounts t := by
  obtain ⟨hr, hk⟩ := h
  refine ⟨fun r => ?_, fun j => by rw [k.slots]; exact hk j⟩
  have hedit {x y : Byte} (hxy : y = x ∨ y = x + 2#8) (hx : x.getLsbD 0 = false) : y.getLsbD 0 = false := by
    rcases hxy with rfl | rfl
    · exact hx
    · exact even_add_two hx
  cases r with
  | header => exact hedit k.header (hr .header)
  | lane l => exact hedit (.inl (k.lanes l).count) (hr (.lane l))
  | intensifier i => exact hedit (.inl (k.intensifiers i)) (hr (.intensifier i))
  | station st => exact hedit (.inl (k.stations st).count) (hr (.station st))
  | bay n => exact hedit (.inl (k.bays n).count) (hr (.bay n))
  | trace n => exact hedit (.inl (k.bays n).count) (hr (.trace n))
  | entry i => exact hedit (k.entries i).count (hr (.entry i))

/-- An update that touches some units keeps what every operation keeps. -/
theorem UnitsKept.kept {s t : State} (k : UnitsKept E P s t) : Kept E P s t where
  pending := k.pending
  board := .of_mem_eq k.mem
  counts := ⟨fun l => (k.lanes l).count, fun n => (k.bays n).count, k.intensifiers, fun st => (k.stations st).count⟩
  even := k.even
  free h := by
    have hc := countFree_congr (s := s) (t := t) (fun i => (k.entries i).free)
    rw [FreeCounted, k.freeCount, hc]; exact h
  limits := k.limits
  ejects he st := ⟨k.ejects he st, (k.stations st).begun he⟩
  permits hp h l := by
    obtain ⟨hstate, hqueue, hpermit⟩ := (k.lanes l).permit hp
    rw [PermitSet, hpermit, permitHolds_congr (k.run hp) hstate hqueue (k.settings hp) k.freeCount]
    exact h l

/-! ## The plain updates -/

theorem kept_setBay {s : State} {n : BayId} {b : Bay} (h : BayKept n (s.bay n) b) : Kept E P s (s.setBay n b) :=
  UnitsKept.kept
    { bays := fun m => by
        rw [bay_setBay]
        split
        · rename_i hm; subst hm; exact h
        · exact {} }

theorem kept_setLane {s : State} {l : LaneId} {x : Lane} (h : LaneKept P l (s.lane l) x) : Kept E P s (s.setLane l x) :=
  UnitsKept.kept
    { lanes := fun m => by
        rw [lane_setLane]
        split
        · rename_i hm; subst hm; exact h
        · exact {} }

theorem kept_setStation {s : State} {st : StationId} {x : Station} (h : StationKept E (s.station st) x) :
    Kept E P s (s.setStation st x) :=
  UnitsKept.kept
    { stations := fun u => by
        rw [station_setStation]
        split
        · rename_i hm; subst hm; exact h
        · exact {} }

theorem kept_setIntensifier {s : State} {i : IntensifierId} {x : Intensifier}
    (h : x.editCount = (s.intensifier i).editCount) : Kept E P s (s.setIntensifier i x) :=
  UnitsKept.kept
    { intensifiers := fun j => by
        rw [intensifier_setIntensifier]
        split
        · rename_i hm; subst hm; exact h
        · rfl }

theorem kept_setReader (s : State) (l : LaneId) (r : Reader) : Kept E P s (s.setReader l r) := UnitsKept.kept {}

/-- An edit of an entry that is FREE after it exactly if it was before. -/
theorem kept_editEntry {s : State} {i : RosterIndex} {f : Entry → Entry}
    (h : EntryKept (s.entry i) { f (s.entry i) with editCount := (s.entry i).editCount + 2#8 }) :
    Kept E P s (s.editEntry i f) :=
  UnitsKept.kept
    { entries := fun j => by
        rw [editEntry_eq, entry_setEntry]
        split
        · rename_i hm; subst hm; exact h
        · exact {} }

theorem kept_headerEdit (s : State) : Kept E P s s.headerEdit := UnitsKept.kept { header := .inr rfl }

theorem kept_setRunState (s : State) (r : RunState) : Kept E False s (s.setRunState r) :=
  UnitsKept.kept { header := .inr rfl, run := False.elim }

theorem kept_withNotices (s : State) (l : List Notice) : Kept E P s (s.withNotices l) :=
  UnitsKept.kept
    { header := ite_eq_or_eq _ _ _ }

theorem kept_raiseAlert (s : State) (source : Nat) (code : AlertCode) : Kept E P s (s.raiseAlert source code) :=
  (kept_withNotices s (mergeAlert source code s.notices)).trans (UnitsKept.kept {})

theorem kept_raiseOutcome (s : State) (i : RosterIndex) (code : OutcomeCode) (reason : Reason) :
    Kept E P s (s.raiseOutcome i code reason) := kept_withNotices s _

theorem kept_placeClaim (s : State) (c : Claimant) : Kept E P s (s.placeClaim c) :=
  UnitsKept.kept
    { claims := fun h => by
        simp only [State.placeClaim, List.contains_iff_mem]
        split
        · exact h
        · rename_i hc
          exact List.nodup_append.mpr ⟨h, List.nodup_singleton c, fun a ha b hb => by
            rintro rfl; exact hc (List.mem_singleton.mp hb ▸ ha)⟩ }

theorem kept_withdrawClaim (s : State) (c : Claimant) : Kept E P s (s.withdrawClaim c) :=
  UnitsKept.kept { claims := fun h => h.filter _ }

theorem kept_setRequests {s : State} {l : List Request}
    (h : (s.requests.map Request.bay).Nodup → (l.map Request.bay).Nodup) : Kept E P s { s with requests := l } :=
  UnitsKept.kept { requests := h }

theorem kept_setReleases (s : State) (l : List Release) : Kept E P s { s with releases := l } := UnitsKept.kept {}

theorem kept_setOutfeedQueue {s : State} {l : List Position} (h : OutfeedKept s.outfeedQueue l) :
    Kept E P s { s with outfeedQueue := l } :=
  UnitsKept.kept { outfeed := h }

theorem kept_setExits {s : State} {l : List ExitTransfer}
    (h : ∀ x ∈ l, FeedsExit x.transit.source ∨ ∃ y ∈ s.exits, x.transit.source = y.transit.source)
    (he : E → ∀ st, ejectsOf { s with exits := l } st = ejectsOf s st) : Kept E P s { s with exits := l } :=
  UnitsKept.kept { exits := h, ejects := he }

/-- After a re-evaluation the permits are as their conditions give them, whatever came before (R71). -/
theorem Kept.evalPermits {s t : State} (h : Kept E False s t) : Kept E P s t.evalPermits :=
  have k : Kept E False t t.evalPermits :=
    UnitsKept.kept { lanes := fun l => by cases l <;> exact { permit := False.elim } }
  ⟨(h.trans k).pending, (h.trans k).board, (h.trans k).counts, (h.trans k).even, (h.trans k).free, (h.trans k).limits,
    (h.trans k).ejects, fun _ _ => permitsHeld_evalPermits t⟩

theorem kept_evalPermits (s : State) : Kept E P s s.evalPermits := (Kept.refl s).evalPermits

/-- The permits are off in STOPPING and in READY (R71). -/
theorem permitsHeld_drainTest {s : State} (h : PermitsHeld s) : PermitsHeld s.drainTest := by
  unfold State.drainTest
  split
  · rename_i hd
    intro l
    have hoff : (s.lane l).permit = false := by rw [h l, State.permitHolds, hd.1]; rfl
    rw [PermitSet, setRunState_lane, hoff, State.permitHolds]
    rfl
  · exact h

theorem kept_drainTest (s : State) : Kept E P s s.drainTest := by
  have k : Kept E False s s.drainTest := by
    unfold State.drainTest
    exact .ite (fun _ => kept_setRunState s _) (fun _ => .refl s)
  exact ⟨k.pending, k.board, k.counts, k.even, k.free, k.limits, k.ejects, fun _ => permitsHeld_drainTest⟩

/-- A reservation of a mapped queue is a mapped reservation. -/
theorem reserved_mem_map {f : Transit → Transit} {l : List Position} {t : Transit}
    (h : .reserved t ∈ l.map (Position.mapTransit f)) : ∃ u, .reserved u ∈ l ∧ t = f u := by
  obtain ⟨p, hp, he⟩ := List.mem_map.mp h
  cases p with
  | occupied x => simp [Position.mapTransit] at he
  | reserved u => exact ⟨u, hp, by simpa [Position.mapTransit] using he.symm⟩

theorem mapTransits_lane (s : State) (f : Transit → Transit) (l : LaneId) : (s.mapTransits f).lane l =
    { s.lane l with track := (s.lane l).track.map (Position.mapTransit f) } := by
  cases l <;> rfl

theorem mapTransits_bay (s : State) (f : Transit → Transit) (n : BayId) : (s.mapTransits f).bay n =
    { s.bay n with loading := (s.bay n).loading.map f } := by
  simp [State.mapTransits, State.bay]

theorem mapTransits_station (s : State) (f : Transit → Transit) (st : StationId) : (s.mapTransits f).station st =
    { s.station st with loading := (s.station st).loading.map f } := by
  cases st <;> rfl

/-- A change of every transfer in flight that leaves each at its source (R77, R86). -/
theorem kept_mapTransits (s : State) {f : Transit → Transit} (hf : ∀ t, (f t).source = t.source) :
    Kept E P s (s.mapTransits f) :=
  UnitsKept.kept
    { lanes := fun l => by
        rw [mapTransits_lane]
        exact { track := fun h => by simpa using h
                source := fun t h => by
                  obtain ⟨u, hu, rfl⟩ := reserved_mem_map h
                  exact .inr ⟨u, hu, hf u⟩ }
      bays := fun n => by
        rw [mapTransits_bay]
        exact { source := fun t h => by
                  obtain ⟨u, hu, rfl⟩ := Option.map_eq_some_iff.mp h
                  exact .inr ⟨u, hu, hf u⟩ }
      stations := fun st => by
        rw [mapTransits_station]
        exact { source := fun t h => by
                  obtain ⟨u, hu, rfl⟩ := Option.map_eq_some_iff.mp h
                  exact .inr ⟨u, hu, hf u⟩ }
      outfeed :=
        { length := fun h => by simpa [State.mapTransits] using h
          source := fun t h => by
            obtain ⟨u, hu, rfl⟩ := reserved_mem_map h
            exact .inr ⟨u, hu, hf u⟩ }
      exits := fun x hx => by
        obtain ⟨y, hy, rfl⟩ := List.mem_map.mp hx
        exact .inr ⟨y, hy, hf _⟩
      ejects := fun _ st => by simp [ejectsOf, State.mapTransits, List.filter_map, Function.comp_def, hf] }

/-- A byte written on the note board. -/
theorem kept_writePlain (s : State) (k : SlotId) {o : Nat} (b : Byte) (ho : o < 0x20) :
    Kept E P s (s.writePlain (slotBase k + o) b) where
  pending := rfl
  board := by
    have hk := k.isLt
    exact .writePlain s b (recordAt_slot k ho) (by unfold slotBase; omega)
  counts := ⟨fun _ => rfl, fun _ => rfl, fun _ => rfl, fun _ => rfl⟩
  even := id
  free := id
  limits h := ⟨h.lanes, h.outfeed, h.claims, h.requests, h.entries, h.bays, h.notes, h.sources⟩
  ejects _ _ := ⟨rfl, rfl⟩
  permits _ h := h

/-- A slot's edit count advances (R163). -/
theorem kept_slotCount (s : State) (k : SlotId) :
    Kept E P s { s with slotCounts := s.slotCounts.set k.val (s.slotCounts[k] + 2#8) k.isLt } where
  pending := rfl
  board := .of_mem_eq rfl
  counts := ⟨fun _ => rfl, fun _ => rfl, fun _ => rfl, fun _ => rfl⟩
  even h := by
    refine ⟨h.1, fun j => ?_⟩
    show ((s.slotCounts.set k.val (s.slotCounts[k] + 2#8) k.isLt)[j]).getLsbD 0 = false
    rw [Fin.getElem_fin, Vector.getElem_set]
    split
    · exact even_add_two (h.2 k)
    · exact h.2 j
  free := id
  limits h := ⟨h.lanes, h.outfeed, h.claims, h.requests, h.entries, h.bays, h.notes, h.sources⟩
  ejects _ _ := ⟨rfl, rfl⟩
  permits _ h := h

/-- An edit of a note slot writes the note board, and its count advances by two (R53, R163). -/
theorem kept_editSlot (s : State) (k : SlotId) (state reason index : Byte) : Kept E P s (s.editSlot k state reason index) :=
  (kept_slotCount s k).trans ((kept_writePlain _ k (o := 0) _ (by omega)).trans
    ((kept_writePlain _ k _ (by omega)).trans ((kept_writePlain _ k _ (by omega)).trans
      (kept_writePlain _ k _ (by omega)))))

end Sys2Proof.Machine
end

