-- ==== Sys2Proof/Proofs/KeptOps.lean ====
section
/-! Each shared operation of the roster, the bays, the lanes and the stations keeps what every operation keeps (`Kept`). -/

-- Proofs are checked one after another: the whole text, compiled as one, would otherwise start more threads than fit into the
-- check's memory.
set_option Elab.async false

namespace Sys2Proof.Machine

variable {E P : Prop}

/-! ## Roster reports -/

theorem beginAllowed_ne_free {dest : Place} {st : RosterState} (h : beginAllowed dest st = true) : st ≠ .free := by
  rintro rfl
  cases dest <;> simp [beginAllowed] at h

theorem beginState_ne_free (dest : Place) : beginState dest ≠ .free := by cases dest <;> simp [beginState]

theorem beginState_ne_awaitingNote (dest : Place) : beginState dest ≠ .awaitingNote := by
  cases dest <;> simp [beginState]

theorem live_ne_free {st : RosterState} (h : st.live = true) : st ≠ .free := by
  rintro rfl; simp [RosterState.live] at h

theorem kept_reportBegin (s : State) (item : Item) (dest : Place) : Kept E P s (s.reportBegin item dest) := by
  cases item with
  | marker => exact .refl s
  | entry i =>
    refine .ite (fun h => kept_editEntry ?_) (fun _ => .refl s)
    exact { count := .inr rfl
            free := iff_of_false (beginState_ne_free dest) (beginAllowed_ne_free h)
            awaits := fun k => absurd k (beginState_ne_awaitingNote dest) }

theorem kept_reportEnd (s : State) (item : Item) (place : Place) : Kept E P s (s.reportEnd item place) := by
  cases item with
  | marker => exact .refl s
  | entry i => exact .ite (fun _ => kept_editEntry { count := .inr rfl }) (fun _ => .refl s)

theorem kept_closeEntry {s : State} {i : RosterIndex} (code : OutcomeCode) (reason : Reason)
    (h : (s.entry i).state ≠ .free) : Kept E P s (s.closeEntry i code reason) :=
  (kept_editEntry
    { count := .inr rfl
      free := iff_of_false (by simp [Entry.closed]) h
      awaits := fun k => by simp [Entry.closed] at k }).trans (kept_raiseOutcome _ i code reason)

theorem kept_closeJammed (s : State) (item : Item) : Kept E P s (s.closeJammed item) := by
  cases item with
  | marker => exact .refl s
  | entry i =>
    simp only [State.closeJammed]
    cases h : (s.entry i).state with
    | free | awaitingNote | done => exact .refl s
    | queued | testing | outbound => exact kept_closeEntry _ _ (by simp [h])

theorem kept_closeAtExit (s : State) (i : RosterIndex) (exit : Exit) : Kept E P s (s.closeAtExit i exit) := by
  refine .ite (fun h => ?_) (fun _ => .refl s)
  cases exitOutcome exit (s.entry i) with
  | some o => exact kept_closeEntry _ _ (by simp [h])
  | none => exact .refl s

theorem kept_closeCleared (s : State) (i : RosterIndex) : Kept E P s (s.closeCleared i) := by
  unfold State.closeCleared
  cases h : (s.entry i).state with
  | awaitingNote | queued => exact kept_closeEntry _ _ (by simp [h])
  | free | testing | outbound | done => exact .refl s

theorem kept_closeNoCylinder (s : State) (i : RosterIndex) : Kept E P s (s.closeNoCylinder i) :=
  .ite (fun h => kept_closeEntry _ _ (by simp [h])) (fun _ => .refl s)

theorem kept_reportAttempt (s : State) (i : RosterIndex) : Kept E P s (s.reportAttempt i) :=
  .ite (fun _ => kept_editEntry { count := .inr rfl, tests := fun _ => Nat.min_le_left _ _ }) (fun _ => .refl s)

/-- A void counts at most to 2 (R7, R18). -/
theorem entryKept_voided (e : Entry) (now : Seconds) (c : VoidCause) (m : Option Measurements) :
    EntryKept e { e.voided now c m with editCount := e.editCount + 2#8 } := by
  unfold Entry.voided
  dsimp only
  split
  · split
    · exact { count := .inr rfl, voids := fun _ => by dsimp only; omega }
    · exact { count := .inr rfl }
  · exact { count := .inr rfl }

theorem kept_reportVoid (s : State) (i : RosterIndex) (c : VoidCause) (m : Option Measurements) :
    Kept E P s (s.reportVoid i c m) :=
  .ite (fun _ => kept_editEntry (entryKept_voided _ _ c m)) (fun _ => .refl s)

theorem kept_reportVerdict (s : State) (i : RosterIndex) (v : Verdict) (m : Measurements) :
    Kept E P s (s.reportVerdict i v m) := by
  refine .ite (fun _ => kept_editEntry ?_) (fun _ => .refl s)
  cases v with
  | pass | condemn _ | notDue => exact { count := .inr rfl }

theorem kept_reportAborted (s : State) (i : RosterIndex) : Kept E P s (s.reportAborted i) :=
  .ite (fun _ => kept_editEntry { count := .inr rfl }) (fun _ => .refl s)

theorem kept_reportDoubt (s : State) (st : StationId) (i : RosterIndex) : Kept E P s (s.reportDoubt st i) :=
  .ite (fun _ => kept_editEntry { count := .inr rfl }) (fun _ => .refl s)

theorem kept_reportUnannounced (s : State) (i : RosterIndex) : Kept E P s (s.reportUnannounced i) :=
  .ite (fun h => kept_editEntry
    { count := .inr rfl, free := iff_of_false (by simp) (by simp [h]), awaits := fun k => by simp at k })
    (fun _ => .refl s)

/-- A match leaves the entry QUEUED, and its counts as they were (R13). -/
theorem matched_kept (s : State) (note : Note) (e : Entry) : (s.matched note e).state = .queued ∧
    (s.matched note e).countedVoids = e.countedVoids ∧ (s.matched note e).testsStarted = e.testsStarted := by
  unfold State.matched
  cases s.usableType note.typeCode with
  | none => exact ⟨rfl, rfl, rfl⟩
  | some t =>
    cases note.visual with
    | condemn => exact ⟨rfl, rfl, rfl⟩
    | accept => dsimp only; split <;> exact ⟨rfl, rfl, rfl⟩

theorem kept_matchEntry {s : State} {i : RosterIndex} (note : Note) (h : (s.entry i).state = .awaitingNote) :
    Kept E P s (s.matchEntry i note) := by
  obtain ⟨hstate, hvoids, htests⟩ := matched_kept s note (s.entry i)
  exact kept_editEntry
    { count := .inr rfl
      free := iff_of_false (by simp [hstate]) (by simp [h])
      voids := fun k => hvoids ▸ k
      tests := fun k => htests ▸ k
      awaits := fun k => absurd (hstate.symm.trans k) (by simp) }

/-! ## Requests and releases of a bay -/

theorem kept_removeRequest (s : State) (n : BayId) : Kept E P s (s.removeRequest n) :=
  kept_setRequests fun h => (List.filter_sublist.map Request.bay).nodup h

theorem kept_withdrawRequest (s : State) (n : BayId) : Kept E P s (s.withdrawRequest n) :=
  (kept_removeRequest s n).trans (kept_setBay {})

theorem kept_sendRelease (s : State) (n : BayId) (i : IntensifierId) : Kept E P s (s.sendRelease n i) :=
  kept_setReleases s _

theorem kept_releaseCoupled (s : State) (n : BayId) : Kept E P s (s.releaseCoupled n) := by
  unfold State.releaseCoupled
  cases (s.bay n).coupled with
  | some i => exact (kept_sendRelease s n i).trans (kept_setBay {})
  | none => exact .refl s

theorem kept_takeRelease (s : State) (r : Release) : Kept E P s (s.takeRelease r) :=
  .ite (fun _ => kept_setIntensifier rfl) (fun _ => kept_removeRequest s _)

theorem kept_takeReleasesOf (s : State) (n : BayId) : Kept E P s (s.takeReleasesOf n) :=
  (kept_setReleases s _).trans (kept_foldl kept_takeRelease _ _)

theorem kept_appendRequest (s : State) (n : BayId) : Kept E P s (s.appendRequest n) := by
  refine kept_setRequests fun h => ?_
  split
  · exact h
  · rename_i hn
    simp only [List.any_eq_true, decide_eq_true_eq, not_exists, not_and] at hn
    rw [List.map_append]
    refine List.nodup_append.mpr ⟨h, List.nodup_singleton _, fun a ha b hb => ?_⟩
    obtain ⟨r, hr, rfl⟩ := List.mem_map.mp ha
    rw [List.map_singleton, List.mem_singleton] at hb
    exact hb ▸ hn r hr

theorem kept_placeRequest (s : State) (n : BayId) : Kept E P s (s.placeRequest n) :=
  ((kept_takeReleasesOf s n).trans (kept_appendRequest _ n)).trans (kept_setBay {})

/-! ## State entries of a bay -/

theorem kept_beginCheck (s : State) (n : BayId) : Kept E P s (s.beginCheck n) := kept_setBay {}

theorem kept_enterZeroing (s : State) (n : BayId) (rp : Option ResumePoint) : Kept E P s (s.enterZeroing n rp) := by
  have h : Kept E P s (s.updBay n (fun b => b.zeroed rp)) := kept_setBay { failures := fun _ => Nat.zero_le _ }
  exact .ite (fun _ => h.trans (kept_setBay {})) (fun _ => h.trans (kept_beginCheck _ n))

theorem kept_keepStep (s : State) (n : BayId) (k : KeptStep) : Kept E P s (s.keepStep n k) := kept_setBay {}

theorem kept_zeroingStep (s : State) (n : BayId) (rp : ResumePoint) : Kept E P s (s.zeroingStep n rp) :=
  .ite (fun _ => kept_keepStep s n _) (fun _ => kept_enterZeroing s n _)

theorem kept_testProactive (s : State) (n : BayId) : Kept E P s (s.testProactive n) :=
  .ite (fun _ => kept_enterZeroing s n _) (fun _ => .refl s)

theorem kept_testIdleTriggers (s : State) (n : BayId) : Kept E P s (s.testIdleTriggers n) :=
  .ite (fun _ => kept_enterZeroing s n _) (fun _ => .refl s)

theorem kept_enterIdle (s : State) (n : BayId) : Kept E P s (s.enterIdle n) :=
  (kept_setBay { failures := fun _ => Nat.zero_le _ }).trans (kept_testIdleTriggers _ n)

theorem kept_reportOccupancy (s : State) (l : LaneId) : Kept E P s (s.reportOccupancy l) :=
  kept_foldl kept_testProactive _ s

theorem kept_enterReleasing (s : State) (n : BayId) (cause : ReleaseCause) : Kept E P s (s.enterReleasing n cause) :=
  ((kept_withdrawRequest s n).trans (kept_releaseCoupled _ n)).trans (kept_setBay {})

theorem kept_testShortfall (s : State) (n : BayId) : Kept E P s (s.testShortfall n) := by
  refine .ite (fun _ => ?_) (fun _ => .refl s)
  split
  · exact .ite (fun _ => kept_enterReleasing s n _)
      (fun _ => (kept_withdrawRequest s n).trans (kept_zeroingStep _ n _))
  · exact .ite (fun _ => .refl s) (fun _ => kept_zeroingStep s n _)
  · exact .refl s

theorem kept_enterAwait (s : State) (n : BayId) : Kept E P s (s.enterAwait n) :=
  ((kept_setBay {}).trans (kept_placeRequest _ n)).trans (kept_testShortfall _ n)

theorem kept_fillComplete (s : State) (n : BayId) : Kept E P s (s.fillComplete n) :=
  (kept_setBay {}).trans (kept_enterAwait _ n)

theorem kept_testFilled (s : State) (n : BayId) : Kept E P s (s.testFilled n) :=
  .ite (fun _ => kept_fillComplete s n) (fun _ => .refl s)

theorem kept_reportBayAttempt (s : State) (n : BayId) : Kept E P s (s.reportBayAttempt n) := by
  unfold State.reportBayAttempt
  cases (s.bay n).index with
  | some i => exact kept_reportAttempt s i
  | none => exact .refl s

theorem kept_enterFilling (s : State) (n : BayId) : Kept E P s (s.enterFilling n) :=
  ((kept_reportBayAttempt s n).trans (kept_setBay {})).trans (kept_testFilled _ n)

theorem kept_fillStep (s : State) (n : BayId) : Kept E P s (s.fillStep n) :=
  .ite (fun _ => kept_keepStep s n _)
    (fun _ => .ite (fun _ => kept_enterZeroing s n _) (fun _ => kept_enterFilling s n))

theorem kept_unloadToOutfeed (s : State) (n : BayId) : Kept E P s (s.unloadToOutfeed n) :=
  (kept_setBay {}).trans (kept_placeClaim _ _)

/-- A transfer joins a queue at its tail, behind the reservations that were there. -/
theorem reserved_mem_append {l : List Position} {t u : Transit} (h : .reserved t ∈ l ++ [Position.reserved u]) :
    .reserved t ∈ l ∨ t = u := by
  rcases List.mem_append.mp h with h | h
  · exact .inl h
  · exact .inr (by simpa using h)

theorem kept_unloadDecision (s : State) (n : BayId) : Kept E P s (s.unloadDecision n) := by
  unfold State.unloadDecision
  cases (s.bay n).index with
  | none => exact .refl s
  | some i =>
    refine .ite (fun h => ?_) (fun _ => kept_fillStep s n)
    have hroom : (s.lane (laneOf n)).track.length < Config.trackCapacity := by
      simp only [State.trackRoom, Bool.and_eq_true, decide_eq_true_eq] at h
      exact h.2
    have hlane : LaneKept P (laneOf n) (s.lane (laneOf n)) { s.lane (laneOf n) with
        track := (s.lane (laneOf n)).track ++ [.reserved ((s.updBay n Bay.unloadStarted).newTransit (.entry i) (.bay n))] } :=
      { track := fun _ => by simp only [List.length_append, List.length_singleton]; omega
        source := fun t ht => by
          rcases reserved_mem_append ht with h | rfl
          · exact .inr ⟨t, h, rfl⟩
          · exact .inl ⟨n, rfl, rfl⟩ }
    exact ((kept_setBay {}).trans (kept_setLane hlane)).trans (kept_reportBegin _ _ _)

theorem kept_bayFault (s : State) (n : BayId) (cause : AlertCode) : Kept E P s (s.bayFault n cause) :=
  ((kept_withdrawRequest s n).trans (kept_setBay {})).trans (kept_raiseAlert _ _ _)

theorem kept_bayUnloaded (s : State) (n : BayId) : Kept E P s (s.bayUnloaded n) :=
  .ite (fun _ => (kept_setBay {}).trans (kept_bayFault _ n _)) (fun _ => (kept_setBay {}).trans (kept_enterIdle _ n))

theorem kept_voidAndAct (s : State) (n : BayId) (c : VoidCause) (m : Option Measurements) (settled : Bool) :
    Kept E P s (s.voidAndAct n c m settled) := by
  unfold State.voidAndAct
  cases (s.bay n).index with
  | none => exact .refl s
  | some i =>
    have hreport : Kept E P s ((s.reportVoid i c m).updBay n (fun b => { b with releaseCause := none })) :=
      (kept_reportVoid s i c m).trans (kept_setBay {})
    refine .ite (fun _ => hreport.trans ?_) (fun _ => hreport.trans (kept_unloadToOutfeed _ n))
    cases c with
    | eStop => exact kept_fillStep _ n
    | zeroLapsed | gauge => exact .ite (fun _ => kept_zeroingStep _ n _) (fun _ => kept_unloadDecision _ n)
    | noFill | noPressure | leak | overpressure | pressureLimit => exact kept_unloadDecision _ n

theorem kept_abortAndUnload (s : State) (n : BayId) : Kept E P s (s.abortAndUnload n) := by
  unfold State.abortAndUnload
  cases (s.bay n).index with
  | some i => exact (kept_reportAborted s i).trans (kept_unloadToOutfeed _ n)
  | none => exact .refl s

theorem kept_enterSettling (s : State) (n : BayId) : Kept E P s (s.enterSettling n) := by
  have hs : Kept E P s (s.updBay n (fun b => b.enter .settling)) := kept_setBay {}
  refine .ite (fun _ => hs.trans (kept_abortAndUnload _ n)) (fun _ => hs.trans ?_)
  split
  · exact kept_setBay {}
  · exact kept_setBay {}
  · exact kept_abortAndUnload _ n
  · exact kept_voidAndAct _ n _ _ _
  · exact .refl _

theorem kept_lapse (s : State) (n : BayId) : Kept E P s (s.lapse n) :=
  .ite (fun _ => .ite (fun _ => .refl s) (fun _ => kept_enterZeroing s n _))
    (fun _ => .ite (fun _ => kept_setBay {}) (fun _ => .refl s))

theorem kept_drivingNotice (s : State) (n : BayId) (i : IntensifierId) : Kept E P s (s.drivingNotice n i) :=
  .ite (fun _ => kept_setBay {}) (fun _ => .refl s)

theorem kept_faultNotice (s : State) (n : BayId) (i : IntensifierId) : Kept E P s (s.faultNotice n i) :=
  .ite (fun _ => (kept_setBay {}).trans (kept_testShortfall _ n)) (fun _ => .refl s)

/-- The first PRESSURISING entry of an attempt clears the trace ring (R102). -/
theorem bayKept_coupledTo (n : BayId) (b : Bay) (i : IntensifierId) (expiry : Seconds) :
    BayKept n b (b.coupledTo i expiry) := by
  unfold Bay.coupledTo
  dsimp only
  split
  · exact {}
  · exact { traceIndex := fun _ => Nat.zero_lt_succ 63, traceCount := fun _ => Nat.zero_le 255 }

/-! ## Lanes and the outfeed -/

theorem kept_claimForLane (s : State) (l : LaneId) : Kept E P s (s.claimForLane l) := by
  unfold State.claimForLane
  cases (s.lane l).state with
  | normal => exact kept_placeClaim s _
  | fault => exact .refl s

theorem kept_startNoteWait (s : State) (l : LaneId) : Kept E P s (s.startNoteWait l) := kept_setLane {}

theorem kept_stopNoteWait (s : State) (l : LaneId) : Kept E P s (s.stopNoteWait l) := kept_setLane {}

theorem kept_headAction (s : State) (l : LaneId) : Kept E P s (s.headAction l) := by
  unfold State.headAction
  split
  · exact .refl s
  · exact kept_claimForLane s l
  · split
    · exact kept_startNoteWait s l
    · split
      · exact (kept_stopNoteWait s l).trans (kept_claimForLane _ l)
      · exact (kept_stopNoteWait s l).trans (kept_claimForLane _ l)
      · exact (kept_stopNoteWait s l).trans (kept_claimForLane _ l)
      · exact kept_stopNoteWait s l
    all_goals exact .refl s

theorem kept_actOnMatch (s : State) (i : RosterIndex) : Kept E P s (s.actOnMatch i) :=
  .ite (fun _ => kept_headAction s _) (fun _ => .ite (fun _ => kept_headAction s _) (fun _ => .refl s))

theorem kept_popHead (s : State) (l : LaneId) : Kept E False s (s.popHead l) :=
  kept_setLane { queue := fun h => by simp only [List.length_tail]; omega, permit := False.elim }

theorem Kept.afterPop {s t : State} (h : Kept E False s t) (l : LaneId) : Kept E P s (t.afterPop l) :=
  ((h.trans (kept_headAction t l)).trans (kept_reportOccupancy _ l)).evalPermits

theorem disownFor_source (l : LaneId) (t : Transit) : (t.disownFor l).source = t.source := by
  unfold Transit.disownFor
  split <;> rfl

/-- A lane that enters FAULT loses its permit, which its conditions then deny (R71, R86). -/
theorem kept_faultLane (s : State) (l : LaneId) :
    Kept E P s (s.updLane l (fun x => { x with state := .fault, permit := false, headInFlight := false })) := by
  have k : Kept E False s (s.updLane l (fun x => { x with state := .fault, permit := false, headInFlight := false })) :=
    kept_setLane { permit := False.elim }
  refine ⟨k.pending, k.board, k.counts, k.even, k.free, k.limits, k.ejects, fun _ h m => ?_⟩
  by_cases hm : l = m
  · subst hm
    simp [PermitSet, State.permitHolds]
  · have hlane : (s.updLane l (fun x => { x with state := .fault, permit := false, headInFlight := false })).lane m =
        s.lane m := by simp [hm]
    rw [PermitSet, State.permitHolds, hlane]
    exact h m

theorem kept_laneFault (s : State) (l : LaneId) : Kept E P s (s.laneFault l) := by
  unfold State.laneFault
  cases (s.lane l).state with
  | fault => exact .refl s
  | normal =>
    exact ((kept_faultLane s l).trans (kept_withdrawClaim _ _)).trans (kept_mapTransits _ (disownFor_source l))

theorem kept_outfeedJam (s : State) : Kept E P s s.outfeedJam :=
  .trans (t := { s with outfeedState := .fault }) (UnitsKept.kept {}) (kept_raiseAlert _ _ _)

/-- A source is told that its transfer out is over; a station's eject has then ended (R157). -/
theorem kept_tellSource (s : State) {t : Transit} (he : E → ∀ st, t.source ≠ .station st) :
    Kept E P s (s.tellSource t) := by
  unfold State.tellSource
  cases hs : t.source with
  | laneHead l => exact .ite (fun _ => .refl s) (fun _ => kept_setLane {})
  | trackHead l => exact kept_setLane {}
  | bay n => exact kept_bayUnloaded s n
  | outfeedHead => exact UnitsKept.kept {}
  | station st => exact kept_setStation { begun := fun h => absurd hs (he h st) }

theorem Feeds.ne_station {n : BayId} {source : TransferSource} (h : Feeds n source) (st : StationId) :
    source ≠ .station st := by
  rcases h with rfl | rfl <;> simp

theorem FeedsOutfeed.ne_station {source : TransferSource} (h : FeedsOutfeed source) (st : StationId) :
    source ≠ .station st := by
  rcases h with ⟨n, rfl⟩ | ⟨l, rfl⟩ <;> simp

theorem kept_endLoading (s : State) (n : BayId)
    (he : E → ∀ t, (s.bay n).loading = some t → Feeds n t.source) : Kept E P s (s.endLoading n) := by
  unfold State.endLoading
  cases hl : (s.bay n).loading with
  | none => exact .refl s
  | some t =>
    have h : Kept E P s (((s.updBay n (fun b => { b with loading := none })).reportEnd t.item (.bay n)).tellSource t) :=
      ((kept_setBay { source := fun t h => by simp at h }).trans (kept_reportEnd _ _ _)).trans
        (kept_tellSource _ fun h => (he h t hl).ne_station)
    exact .ite (fun _ => h) (fun _ => (h.trans (kept_setBay {})).trans (kept_fillStep _ n))

theorem kept_beginOutfeed {s : State} (item : Item) {source : TransferSource}
    (hroom : s.outfeedQueue.length < Config.outfeedCapacity) (hs : FeedsOutfeed source) :
    Kept E P s (s.beginOutfeed item source) :=
  .trans
    (kept_setOutfeedQueue
      { length := fun _ => by simp only [List.length_append, List.length_singleton]; omega
        source := fun t ht => by
          rcases reserved_mem_append ht with h | rfl
          · exact .inr ⟨t, h, rfl⟩
          · exact .inl hs })
    (kept_reportBegin _ _ _)

/-! ## Stations -/

theorem kept_stationFault (s : State) (st : StationId) (cause : AlertCode) : Kept E P s (s.stationFault st cause) :=
  (kept_setStation {}).trans (kept_raiseAlert _ _ _)

theorem stationKept_breakOffering (x : Station) : StationKept E x x.breakOffering := by
  unfold Station.breakOffering
  cases x.state <;> exact {}

theorem kept_stationDoubt (s : State) (st : StationId) : Kept E P s (s.stationDoubt st) := by
  unfold State.stationDoubt
  cases (s.station st).index with
  | some i => exact kept_reportDoubt s st i
  | none => exact .refl s

theorem kept_faultedResult (s : State) (st : StationId) (cause : AlertCode) : Kept E P s (s.faultedResult st cause) :=
  ((kept_stationDoubt s st).trans (kept_setStation {})).trans (kept_raiseAlert _ _ _)

theorem kept_noCylinderResult (s : State) (st : StationId) : Kept E P s (s.noCylinderResult st) := by
  have hclose (t : State) : Kept E P t (match (s.station st).index with
      | some i => t.closeNoCylinder i
      | none => t) := by
    cases (s.station st).index with
    | some i => exact kept_closeNoCylinder t i
    | none => exact .refl t
  have hstation : Kept E P s ({ s with choices := s.choices + 1 }.updStation st (fun x =>
      { x with state := .fault, nest := .empty, index := none, order := none, mark := none, faultCause := some .noCylinder })) :=
    .trans (UnitsKept.kept {}) (kept_setStation {})
  exact .ite (fun _ => hstation.trans ((hclose _).trans (kept_raiseAlert _ _ _)))
    (fun _ => hstation.trans ((kept_raiseAlert _ _ _).trans (hclose _)))

end Sys2Proof.Machine
end

