-- ==== Sys2Proof/Proofs/KeptEvents.lean ====
section
/-! The events of the bays, the arbiter and the run controller keep what every operation keeps (`Kept`). -/

-- Proofs are checked one after another: the whole text, compiled as one, would otherwise start more threads than fit into the
-- check's memory.
set_option Elab.async false

namespace Sys2Proof.Machine

variable {E P : Prop}

/-! ## Inputs and sample pairs -/

theorem setInput_loading (b : Bay) (input : BayInput) (level : Bool) : (b.setInput input level).loading = b.loading := by
  cases input <;> rfl

theorem kept_changeInput (s : State) (n : BayId) (input : BayInput) (level : Bool)
    (he : E → ∀ t, (s.bay n).loading = some t → Feeds n t.source) : Kept E P s (s.changeInput n input level) := by
  have hset : Kept E P s (s.updBay n (fun b => b.setInput input level)) := kept_setBay (by cases input <;> exact {})
  unfold State.changeInput
  dsimp only
  refine .ite (fun _ => .refl s) (fun _ => hset.trans ?_)
  cases input with
  | present =>
    cases level with
    | true => exact kept_endLoading _ n (by simpa [setInput_loading] using he)
    | false => exact .refl _
  | full | doorClosed => exact kept_testFilled _ n

theorem kept_faultIntensifier (s : State) (i : IntensifierId) : Kept E P s (s.faultIntensifier i) := by
  unfold State.faultIntensifier
  cases (s.intensifier i).state with
  | free | retuning | driving =>
    refine Kept.trans ?_ (kept_raiseAlert _ _ _)
    exact kept_setIntensifier rfl
  | offline | fault => exact .refl s

theorem kept_reportOverpressure (s : State) (n : BayId) (i : IntensifierId) : Kept E P s (s.reportOverpressure n i) :=
  .ite (fun _ => kept_faultIntensifier s i) (fun _ => .refl s)

theorem kept_overpressure (s : State) (n : BayId) : Kept E P s (s.overpressure n) := by
  unfold State.overpressure
  cases (s.bay n).coupled with
  | some i => exact (kept_reportOverpressure s n i).trans (kept_enterReleasing _ n _)
  | none => exact kept_enterReleasing s n _

theorem kept_enterHolding (s : State) (n : BayId) (p : Params) (pressure : Nat) :
    Kept E P s (s.enterHolding n p pressure) :=
  (kept_releaseCoupled s n).trans (kept_setBay {})

theorem bayKept_traced (n : BayId) (b : Bay) (p g : Nat) : BayKept n b (b.traced p g) := by
  unfold Bay.traced
  dsimp only
  split
  · exact { traceIndex := fun _ => Nat.mod_lt _ (by decide), traceCount := fun _ => Nat.min_le_left _ _ }
  · exact {}

theorem kept_actOnSample (s : State) (n : BayId) (p g : Nat) : Kept E P s (s.actOnSample n p g) := by
  unfold State.actOnSample
  cases (s.bay n).state with
  | filling => exact kept_testFilled s n
  | pressurising =>
    cases s.bayParams n with
    | some q =>
      exact .ite (fun _ => kept_overpressure s n) (fun _ => .ite (fun _ => kept_enterHolding s n q p) (fun _ => .refl s))
    | none => exact .refl s
  | holding =>
    cases s.bayParams n with
    | some q =>
      exact .ite (fun _ => (kept_setBay {}).trans (kept_enterReleasing _ n _))
        (fun _ => .ite (fun _ => kept_enterReleasing s n _) (fun _ => kept_setBay (bayKept_traced n _ p g)))
    | none => exact .refl s
  | releasing => exact .ite (fun _ => kept_enterSettling s n) (fun _ => .refl s)
  | starting | zeroing | idle | loading | awaitIntensifier | suspended | settling | unloading | offline | fault =>
    exact .refl s

theorem kept_samplePair (s : State) (n : BayId) (p g : Nat) :
    Kept E P s ((s.updBay n (fun b => b.sampled p g)).actOnSample n p g) :=
  (kept_setBay {}).trans (kept_actOnSample _ n p g)

/-! ## Timer expiries and judgement -/

theorem kept_expireFill (s : State) (n : BayId) : Kept E P s (s.expireFill n) :=
  .ite (fun _ => (kept_setBay {}).trans (kept_voidAndAct _ n _ _ _)) (fun _ => .refl s)

theorem kept_expireRise (s : State) (n : BayId) : Kept E P s (s.expireRise n) :=
  .ite (fun _ => kept_enterReleasing s n _) (fun _ => .refl s)

theorem kept_expireHold (s : State) (n : BayId) : Kept E P s (s.expireHold n) :=
  .ite (fun _ => (kept_setBay {}).trans (kept_enterReleasing _ n _)) (fun _ => .refl s)

theorem kept_expireRelease (s : State) (n : BayId) : Kept E P s (s.expireRelease n) :=
  .ite (fun _ => kept_bayFault s n _) (fun _ => .refl s)

theorem kept_expirePressurised (s : State) (n : BayId) : Kept E P s (s.expirePressurised n) := by
  refine .ite (fun _ => ?_) (fun _ => .refl s)
  cases (s.bay n).state with
  | pressurising | holding | suspended | awaitIntensifier => exact kept_enterReleasing s n _
  | starting | zeroing | idle | loading | filling | releasing | settling | unloading | offline | fault => exact .refl s

theorem kept_reportJudgement (s : State) (n : BayId) (i : RosterIndex) (q : Params) :
    Kept E P s (s.reportJudgement n i q) := by
  unfold State.reportJudgement
  dsimp only
  split
  · exact (kept_reportVerdict s i _ _).trans (kept_unloadToOutfeed _ n)
  · exact (kept_setBay {}).trans (kept_voidAndAct _ n _ _ _)
  · exact kept_voidAndAct s n _ _ _

theorem kept_judgeBay (s : State) (n : BayId) : Kept E P s (s.judgeBay n) := by
  unfold State.judgeBay
  cases (s.bay n).index with
  | none => exact .refl s
  | some i =>
    dsimp only
    cases (s.entry i).params with
    | some q => exact kept_reportJudgement s n i q
    | none => exact .refl s

theorem kept_expireSettle (s : State) (n : BayId) : Kept E P s (s.expireSettle n) := by
  refine .ite (fun _ => ?_) (fun _ => .refl s)
  split
  · exact (kept_setBay {}).trans (kept_judgeBay _ n)
  · exact (kept_setBay {}).trans (kept_judgeBay _ n)
  · exact .refl s

/-! ## Zero checks -/

theorem kept_endZeroing (s : State) (n : BayId) : Kept E P s (s.endZeroing n) := by
  have hend : Kept E P s (s.updBay n (fun b => { b with failures := 0, resume := none })) :=
    kept_setBay { failures := fun _ => Nat.zero_le _ }
  unfold State.endZeroing
  dsimp only
  split
  · exact hend.trans (kept_enterIdle _ n)
  · split
    · exact hend.trans (kept_fillComplete _ n)
    · exact hend.trans ((kept_setBay {}).trans (kept_testShortfall _ n))
    · exact hend.trans (kept_unloadDecision _ n)
    · exact hend.trans (kept_enterFilling _ n)
    · exact hend.trans (kept_enterFilling _ n)

theorem kept_checkFailed (s : State) (n : BayId) : Kept E P s (s.checkFailed n) := by
  refine .ite (fun _ => (kept_setBay { failures := fun _ => Nat.le_refl 1 }).trans (kept_beginCheck _ n)) (fun _ => ?_)
  have hzero : Kept E P s (s.updBay n (fun b => { b with failures := 0, validity := 0 })) :=
    kept_setBay { failures := fun _ => Nat.zero_le _ }
  refine hzero.trans (.trans ?_ (kept_bayFault _ n _))
  split
  · exact (kept_reportVoid _ _ _ _).trans (kept_setBay {})
  · exact (kept_reportVoid _ _ _ _).trans (kept_setBay {})
  · exact .refl _

theorem kept_judgeCheck (s : State) (n : BayId) : Kept E P s (s.judgeCheck n) := by
  unfold State.judgeCheck
  dsimp only
  refine .ite (fun _ => (kept_setBay {}).trans (kept_checkFailed _ n)) (fun _ => ?_)
  cases (s.bay n).zeroReference with
  | none =>
    exact (kept_setBay { owed := fun h => (Nat.sub_le _ _).trans h, failures := fun _ => Nat.zero_le _ }).trans
      (kept_beginCheck _ n)
  | some reference =>
    refine .ite (fun _ => ?_) (fun _ => (kept_setBay {}).trans (kept_checkFailed _ n))
    exact .ite
      (fun _ => (kept_setBay { owed := fun h => (Nat.sub_le _ _).trans h, failures := fun _ => Nat.zero_le _ }).trans
        (kept_beginCheck _ n))
      (fun _ => (kept_setBay { owed := fun h => (Nat.sub_le _ _).trans h, failures := fun _ => Nat.zero_le _ }).trans
        (kept_endZeroing _ n))

theorem kept_expireCheck (s : State) (n : BayId) : Kept E P s (s.expireCheck n) :=
  .ite (fun _ => kept_judgeCheck s n) (fun _ => .refl s)

theorem kept_lapseAtZero (s : State) (n : BayId) : Kept E P s (s.lapseAtZero n) :=
  .ite (fun _ => kept_lapse s n) (fun _ => .refl s)

/-! ## Grants and the arbiter -/

theorem kept_actOnGrant (s : State) (n : BayId) (i : IntensifierId) : Kept E P s (s.actOnGrant n i) := by
  refine .ite (fun _ => .ite (fun _ => (kept_sendRelease s n i).trans (kept_testShortfall _ n)) (fun _ => ?_))
    (fun _ => kept_sendRelease s n i)
  have hcouple : Kept E P s (s.updBay n (fun b => b.coupledTo i (s.after s.work.pressurisedLimit))) :=
    kept_setBay (bayKept_coupledTo n _ i _)
  exact .ite (fun _ => .ite (fun _ => hcouple.trans (kept_drivingNotice _ n i)) (fun _ => hcouple))
    (fun _ => hcouple.trans (kept_faultNotice _ n i))

theorem kept_takeGrant (s : State) (n : BayId) : Kept E P s (s.takeGrant n) := by
  unfold State.takeGrant
  cases (s.bay n).grants with
  | cons i rest => exact (kept_setBay {}).trans (kept_actOnGrant _ n i)
  | nil => exact .refl s

theorem granted_editCount (x : Intensifier) (r : Request) (expiry : Seconds) :
    (x.granted r expiry).editCount = x.editCount := by
  unfold Intensifier.granted
  dsimp only
  split <;> rfl

theorem kept_grantHead (s : State) : Kept E P s s.grantHead := by
  unfold State.grantHead
  cases hr : s.requests with
  | nil => exact .refl s
  | cons r rest =>
    refine .ite (fun _ => .refl s) (fun _ => ?_)
    cases s.chooseIntensifier r.pressure with
    | none => exact .refl s
    | some i =>
      have htake : Kept E P s { s with requests := rest } :=
        kept_setRequests fun h => by rw [hr, List.map_cons, List.nodup_cons] at h; exact h.2
      exact (htake.trans (kept_setIntensifier (granted_editCount _ _ _))).trans (kept_setBay {})

theorem kept_arbiterRelease (s : State) (n : BayId) : Kept E P s (s.arbiterRelease n) := by
  unfold State.arbiterRelease
  cases takeReleaseFrom n s.releases with
  | some p => exact (kept_setReleases s p.2).trans (kept_takeRelease _ p.1)
  | none => exact .refl s

theorem kept_endRetune (s : State) (i : IntensifierId) : Kept E P s (s.endRetune i) := by
  unfold State.endRetune
  dsimp only
  refine .ite (fun _ => ?_) (fun _ => .refl s)
  have hdrive : Kept E P s (s.setIntensifier i { s.intensifier i with
      state := .driving, setpoint := (s.intensifier i).requested, retuneExpiry := none }) := kept_setIntensifier rfl
  split
  · exact hdrive.trans (kept_drivingNotice _ _ i)
  · exact hdrive

theorem kept_requestAtHead (s : State) (n : BayId) (pressure : Nat) : Kept E P s (s.requestAtHead n pressure) := by
  refine kept_setRequests fun h => ?_
  rw [List.map_cons, List.nodup_cons]
  refine ⟨fun hm => ?_, (List.filter_sublist.map Request.bay).nodup h⟩
  obtain ⟨r, hr, hb⟩ := List.mem_map.mp hm
  exact of_decide_eq_true (List.mem_filter.mp hr).2 hb

theorem kept_inputFault (s : State) (i : IntensifierId) : Kept E P s (s.inputFault i) := by
  unfold State.inputFault
  dsimp only
  cases (s.intensifier i).state with
  | free | retuning | driving =>
    cases (s.intensifier i).coupledBay with
    | some n => exact ((kept_faultIntensifier s i).trans (kept_requestAtHead _ n _)).trans (kept_faultNotice _ n i)
    | none => exact kept_faultIntensifier s i
  | offline | fault => exact kept_faultIntensifier s i

theorem kept_changeFaultInput (s : State) (i : IntensifierId) (level : Bool) : Kept E P s (s.changeFaultInput i level) :=
  have hlevel : Kept E P s (s.setIntensifier i { s.intensifier i with faultInput := level }) := kept_setIntensifier rfl
  .ite (fun _ => .refl s) (fun _ => hlevel.trans (.ite (fun _ => kept_inputFault _ i) (fun _ => .refl _)))

/-! ## The run controller -/

theorem kept_eStopUnpressurised (s : State) (n : BayId) : Kept E P s (s.eStopUnpressurised n) :=
  ((kept_withdrawRequest s n).trans (kept_setBay {})).trans (kept_enterSettling _ n)

theorem kept_abandonCheck (s : State) (n : BayId) : Kept E P s (s.abandonCheck n) := by
  have hstop : Kept E P s (s.updBay n (fun b =>
      { b with stepTimer := none, outputs := { b.outputs with buretteDrain := false } })) := kept_setBay {}
  unfold State.abandonCheck
  dsimp only
  split
  · exact hstop.trans ((kept_reportVoid _ _ _ _).trans (kept_setBay {}))
  · exact hstop.trans ((kept_reportVoid _ _ _ _).trans (kept_setBay {}))
  · exact hstop

theorem kept_eStopBay (s : State) (n : BayId) : Kept E P s (s.eStopBay n) := by
  unfold State.eStopBay
  cases (s.bay n).state with
  | pressurising | holding => exact kept_enterReleasing s n _
  | awaitIntensifier | suspended =>
    exact .ite (fun _ => kept_enterReleasing s n _) (fun _ => kept_eStopUnpressurised s n)
  | filling => exact kept_eStopUnpressurised s n
  | offline => exact kept_setBay {}
  | zeroing => exact kept_abandonCheck s n
  | starting | idle | loading | releasing | settling | unloading | fault => exact .refl s

theorem eStopped_editCount (x : Intensifier) : x.eStopped.editCount = x.editCount := by
  unfold Intensifier.eStopped
  cases x.state <;> rfl

theorem kept_eStopArbiter (s : State) : Kept E P s s.eStopArbiter :=
  .trans
    (UnitsKept.kept (s := s)
      (t := { s with
        requests := []
        releases := []
        intensifier1 := s.intensifier1.eStopped
        intensifier2 := s.intensifier2.eStopped })
      { requests := fun _ => List.nodup_nil
        intensifiers := fun i => by cases i <;> exact eStopped_editCount _ })
    (kept_forBays (fun _ _ => kept_setBay {}) _)

theorem kept_breakOffering (s : State) (st : StationId) : Kept E P s (s.updStation st Station.breakOffering) :=
  kept_setStation (stationKept_breakOffering _)

theorem kept_enterEStop (s : State) : Kept E P s s.enterEStop := by
  have hrun : Kept E P s (((s.setRunState .eStopped).evalPermits).mapTransits Transit.stopped) :=
    (kept_setRunState s _).evalPermits.trans (kept_mapTransits _ fun _ => rfl)
  exact (((hrun.trans (kept_forBays (fun n t => kept_eStopBay t n) _)).trans (kept_eStopArbiter _)).trans
    (kept_breakOffering _ .stamper)).trans (kept_breakOffering _ .defacer)

theorem kept_assertEStop (s : State) : Kept E P s s.assertEStop := by
  have hinput : Kept E P s { s with eStopInput := true } := UnitsKept.kept {}
  refine .ite (fun _ => .refl s) (fun _ => hinput.trans ?_)
  dsimp only
  cases s.runState with
  | ready | running | stopping => exact (kept_enterEStop _).trans (kept_raiseAlert _ _ _)
  | awaitingTables | eStopped => exact .refl _

theorem kept_leaveStarting (s : State) (n : BayId) : Kept E P s (s.leaveStarting n) :=
  .ite (fun _ => kept_enterZeroing s n _) (fun _ => .refl s)

theorem kept_takeKept (s : State) (n : BayId) : Kept E P s (s.takeKept n) := by
  unfold State.takeKept
  cases (s.bay n).kept with
  | none => exact .refl s
  | some k =>
    cases k with
    | fillStep => exact kept_fillStep s n
    | zeroing rp => exact kept_enterZeroing s n _

theorem kept_releaseStep (s : State) (n : BayId) : Kept E P s (s.releaseStep n) := by
  unfold State.releaseStep
  cases (s.bay n).state with
  | loading => exact .ite (fun _ => (kept_setBay {}).trans (kept_fillStep _ n)) (fun _ => .refl s)
  | zeroing => exact .ite (fun _ => (kept_setBay {}).trans (kept_beginCheck _ n)) (fun _ => .refl s)
  | idle => exact kept_testIdleTriggers s n
  | starting => exact kept_leaveStarting s n
  | filling | awaitIntensifier | pressurising | holding | suspended | releasing | settling | unloading | offline | fault =>
    exact kept_takeKept s n

theorem kept_oweCheck (s : State) (n : BayId) : Kept E P s (s.updBay n Bay.oweCheck) :=
  kept_setBay { owed := fun h => Nat.max_le.mpr ⟨by decide, h⟩ }

theorem kept_releaseEStop (s : State) : Kept E P s s.releaseEStop := by
  have hinput : Kept E P s { s with eStopInput := false } := UnitsKept.kept {}
  refine .ite (fun _ => hinput.trans ?_) (fun _ => .refl s)
  have hready := ((kept_setRunState (E := E) { s with eStopInput := false } .ready).trans
    (kept_raiseAlert _ runSource .eStopReleased)).evalPermits (P := P)
  split
  · exact ((hready.trans (kept_forBays (fun n t => kept_oweCheck t n) _)).trans
      (kept_mapTransits _ (f := Transit.restarted s.lineSeconds) fun _ => rfl)).trans
        (kept_forBays (fun n t => kept_releaseStep t n) _)
  all_goals exact .refl _

theorem kept_leaveAwaiting (s : State) : Kept E P s s.leaveAwaiting := by
  refine .ite (fun _ => ?_) (fun _ => .refl s)
  have hready : Kept E P s (((s.setRunState .ready).readersLeaveOff).evalPermits) :=
    ((kept_setRunState s _).trans (UnitsKept.kept {})).evalPermits
  exact .ite (fun _ => (hready.trans (kept_enterEStop _)).trans (kept_raiseAlert _ _ _)) (fun _ => hready)

theorem kept_countDown (s : State) (n : BayId) : Kept E P s (s.countDown n) := by
  have hcount : Kept E P s (if (s.bay n).validity = 0 then s
      else
        let s1 := s.updBay n (fun b => { b with validity := b.validity - 1 })
        let s2 := if (s.bay n).validity = 1 then s1.lapse n else s1
        (s2.testShortfall n).testProactive n) :=
    .ite (fun _ => .refl s) (fun _ =>
      have hdown : Kept E P s (s.updBay n (fun b => { b with validity := b.validity - 1 })) := kept_setBay {}
      ((Kept.ite (fun _ => hdown.trans (kept_lapse _ n)) (fun _ => hdown)).trans (kept_testShortfall _ n)).trans
        (kept_testProactive _ n))
  unfold State.countDown
  cases (s.bay n).state with
  | offline | starting => exact .refl s
  | zeroing | idle | loading | filling | awaitIntensifier | pressurising | holding | suspended | releasing | settling
  | unloading | fault => exact hcount

theorem kept_advance (s : State) : Kept E P s s.advance :=
  (Kept.trans (t := { s with lineSeconds := s.lineSeconds + 1#32 }) (UnitsKept.kept {}) (kept_headerEdit _)).trans
    (kept_forBays (fun n t => kept_countDown t n) _)

theorem kept_runResult (s : State) : Kept E P s s.runResult.1 := by
  unfold State.runResult
  cases s.runState with
  | ready => exact (kept_setRunState s _).evalPermits
  | awaitingTables | running | stopping | eStopped => exact .refl s

theorem kept_stopLineResult (s : State) : Kept E P s s.stopLineResult.1 := by
  unfold State.stopLineResult
  cases s.runState with
  | running => exact (kept_setRunState s _).evalPermits.trans (kept_drainTest _)
  | awaitingTables | ready | stopping | eStopped => exact .refl s

end Sys2Proof.Machine
end

