-- ==== Sys2Proof/Proofs/KeptUnits.lean ====
section
/-! The commands and events of the lanes, the readers, the note unit, the outfeed, the stations, the tables and the command unit
keep what every operation keeps (`Kept`). -/

-- Proofs are checked one after another: the whole text, compiled as one, would otherwise start more threads than fit into the
-- check's memory.
set_option Elab.async false

namespace Sys2Proof.Machine

variable {E P : Prop}

/-! ## The free count -/

/-- Whether an entry is FREE, as a number to be counted. -/
def freeOf (e : Entry) : Nat := if e.state = .free then 1 else 0

theorem countFree_eq_sum (s : State) : s.countFree = ∑ i : RosterIndex, freeOf (s.entry i) := by
  have hn := (List.nodup_finRange 48).filter (fun i => decide ((s.entry i).state = .free))
  unfold State.countFree freeOf
  rw [← List.toFinset_card_of_nodup hn, Finset.sum_boole, Nat.cast_id]
  congr 1
  ext i
  simp

/-- The free count of a roster of which one entry is changed. -/
theorem countFree_setEntry (s : State) (i : RosterIndex) (e : Entry) :
    (s.setEntry i e).countFree + freeOf (s.entry i) = s.countFree + freeOf e := by
  have hrest : ∑ j ∈ Finset.univ.erase i, freeOf ((s.setEntry i e).entry j) =
      ∑ j ∈ Finset.univ.erase i, freeOf (s.entry j) :=
    Finset.sum_congr rfl fun j hj => by rw [entry_setEntry, if_neg (Finset.ne_of_mem_erase hj).symm]
  have hi : (s.setEntry i e).entry i = e := by rw [entry_setEntry, if_pos rfl]
  rw [countFree_eq_sum, countFree_eq_sum, ← Finset.add_sum_erase _ _ (Finset.mem_univ i),
    ← Finset.add_sum_erase _ (fun j => freeOf (s.entry j)) (Finset.mem_univ i), hrest, hi]
  omega

theorem countFree_pos {s : State} {i : RosterIndex} (h : (s.entry i).state = .free) : 0 < s.countFree := by
  have hc := countFree_setEntry s i { s.entry i with state := .done }
  simp only [freeOf, h, reduceCtorEq, if_true, if_false] at hc
  omega

/-- An entry is written whole, and the free count with it (R9, R23). -/
theorem kept_rewrite {s : State} {i : RosterIndex} {e : Entry} {k : Nat}
    (hk : FreeCounted s → k + freeOf (s.entry i) = s.countFree + freeOf e)
    (hcounts : e.countedVoids ≤ 2 ∧ e.testsStarted ≤ 15)
    (hawait : e.state = .awaitingNote → ∀ note ∈ s.expect, e.serial ≠ some note.serial) :
    Kept E False s { s.editEntry i (fun _ => e) with freeCount := k } := by
  have hentry (j : RosterIndex) : ({ s.editEntry i (fun _ => e) with freeCount := k } : State).entry j =
      if i = j then { e with editCount := (s.entry i).editCount + 2#8 } else s.entry j := entry_setEntry _ _ j _
  refine ⟨rfl, .of_mem_eq rfl, ⟨fun _ => rfl, fun _ => rfl, fun _ => rfl, fun _ => rfl⟩, fun h => ⟨fun r => ?_, h.2⟩,
    fun h => ?_, fun h => ⟨h.lanes, h.outfeed, h.claims, h.requests, fun j => ?_, h.bays, ?_, h.sources⟩,
    fun _ _ => ⟨rfl, rfl⟩, False.elim⟩
  · cases r with
    | entry j =>
      show (State.entry _ j).editCount.getLsbD 0 = false
      rw [hentry]
      split
      · exact even_add_two (h.1 (.entry i))
      · exact h.1 (.entry j)
    | header => exact h.1 .header
    | lane l => exact h.1 (.lane l)
    | intensifier i => exact h.1 (.intensifier i)
    | station st => exact h.1 (.station st)
    | bay n => exact h.1 (.bay n)
    | trace n => exact h.1 (.trace n)
  · have hc := countFree_setEntry s i { e with editCount := (s.entry i).editCount + 2#8 }
    have hk := hk h
    show k = (s.setEntry i { e with editCount := (s.entry i).editCount + 2#8 }).countFree
    simp only [freeOf] at hc hk
    omega
  · rw [hentry]
    split
    · exact hcounts
    · exact h.entries j
  · refine ⟨h.notes.1, h.notes.2.1, fun note hn j hj => ?_⟩
    unfold AwaitsNote at hj
    rw [hentry] at hj
    split at hj
    · exact hawait hj.1 note hn hj.2
    · exact h.notes.2.2 note hn j hj

/-- A FREE entry is filled and counted (R9). -/
theorem kept_fill {s : State} {i : RosterIndex} {e : Entry} (hfree : (s.entry i).state = .free) (he : e.state ≠ .free)
    (hcounts : e.countedVoids ≤ 2 ∧ e.testsStarted ≤ 15)
    (hawait : e.state = .awaitingNote → ∀ note ∈ s.expect, e.serial ≠ some note.serial) :
    Kept E False s (s.editEntry i (fun _ => e)).countAllocated := by
  have hk (h : FreeCounted s) : s.freeCount - 1 + freeOf (s.entry i) = s.countFree + freeOf e := by
    have := countFree_pos hfree
    simp only [freeOf, hfree, he, if_true, if_false]
    rw [h]
    omega
  exact (kept_rewrite hk hcounts hawait).trans (kept_headerEdit _)

/-- A DONE entry is freed and counted (R23). -/
theorem kept_free {s : State} {i : RosterIndex} (hdone : (s.entry i).state = .done) : Kept E P s (s.freeEntry i) := by
  have hk (h : FreeCounted s) : s.freeCount + 1 + freeOf (s.entry i) = s.countFree + freeOf (Entry.freeEntry 0#8) := by
    simp only [freeOf, hdone, Entry.freeEntry, reduceCtorEq, if_true, if_false]
    rw [h]
  have hedit : Kept E False s { s.editEntry i (fun _ => Entry.freeEntry 0#8) with freeCount := s.freeCount + 1 } :=
    kept_rewrite hk ⟨Nat.zero_le _, Nat.zero_le _⟩ (fun h => by simp [Entry.freeEntry] at h)
  exact ((hedit.trans (kept_headerEdit _)).trans (kept_withNotices _ _)).evalPermits

/-! ## Arrivals -/

theorem lowestFree_free {s : State} {i : RosterIndex} (h : s.lowestFree = some i) : (s.entry i).state = .free := by
  simpa using List.find?_some h

theorem kept_removeNote (s : State) (k : SlotId) : Kept E P s (s.removeNote k) :=
  UnitsKept.kept { expect := List.filter_sublist }

theorem kept_createIdentified {s : State} (l : LaneId) {i : RosterIndex} (identity : Identity)
    (hfree : (s.entry i).state = .free) : Kept E False s (s.createIdentified l i identity) := by
  have hzero : (0 : Nat) ≤ 2 ∧ (0 : Nat) ≤ 15 := ⟨Nat.zero_le _, Nat.zero_le _⟩
  refine .ite (fun _ => kept_fill hfree (by simp) hzero (fun h => by simp at h)) (fun _ => ?_)
  cases hn : s.expectedNote identity.serial with
  | some note =>
    have hremove := kept_removeNote (E := E) (P := False) s note.slot
    obtain ⟨hstate, hvoids, htests⟩ := matched_kept s note
      { s.created l with serial := some identity.serial, tagDate := some identity.date }
    exact (hremove.trans (kept_fill hfree (by rw [hstate]; simp) (by rw [hvoids, htests]; exact hzero)
      (fun h => by rw [hstate] at h; simp at h))).trans (kept_editSlot _ _ _ _ _)
  | none =>
    refine kept_fill hfree (by simp) hzero (fun _ note hm hs => ?_)
    have hne := List.find?_eq_none.mp hn note hm
    simp at hne hs
    exact hne hs.symm

theorem kept_createUnidentified {s : State} (l : LaneId) {i : RosterIndex} (hfree : (s.entry i).state = .free) :
    Kept E False s (s.createUnidentified l i) :=
  kept_fill hfree (by simp) ⟨Nat.zero_le _, Nat.zero_le _⟩ (fun h => by simp at h)

theorem kept_enqueue {s : State} {l : LaneId} (item : Item) (hroom : (s.lane l).queue.length < Config.laneCapacity) :
    Kept E False s (s.enqueue l item) := by
  have hjoin : Kept E False s (s.updLane l (fun x => { x with queue := x.queue ++ [item] })) :=
    kept_setLane
      { queue := fun _ => by simp only [List.length_append, List.length_singleton]; omega, permit := False.elim }
  exact .ite (fun _ => hjoin.trans (kept_headAction _ l)) (fun _ => hjoin)

theorem editSlot_lane (s : State) (k : SlotId) (state reason index : Byte) (l : LaneId) :
    (s.editSlot k state reason index).lane l = s.lane l := by
  cases l <;> rfl

theorem createIdentified_lane (s : State) (l m : LaneId) (i : RosterIndex) (id : Identity) :
    (s.createIdentified l i id).lane m = s.lane m := by
  unfold State.createIdentified
  dsimp only
  split
  · rfl
  · split
    · rw [State.takeSlot, editSlot_lane]; rfl
    · rfl

theorem kept_rosterArrival {s : State} {l : LaneId} (id : Option Identity)
    (hroom : (s.lane l).queue.length < Config.laneCapacity) : Kept E False s (s.rosterArrival l id) := by
  unfold State.rosterArrival
  cases hi : s.lowestFree with
  | none => exact (kept_enqueue _ hroom).trans (kept_raiseAlert _ _ _)
  | some i =>
    have hfree := lowestFree_free hi
    cases id with
    | some id =>
      exact (kept_createIdentified l id hfree).trans (kept_enqueue _ (by rw [createIdentified_lane]; exact hroom))
    | none => exact (kept_createUnidentified l hfree).trans (kept_enqueue _ hroom)

theorem kept_arrive (s : State) (l : LaneId) (id : Option Identity) : Kept E P s (s.arrive l id) := by
  have hnormal : Kept E P s (match (s.lane l).state with
      | .fault => s.raiseAlert (laneSource l) .laneOverfill
      | .normal =>
        if (s.lane l).queue.length < Config.laneCapacity then
          ((s.rosterArrival l id).reportOccupancy l).evalPermits
        else (s.laneFault l).raiseAlert (laneSource l) .laneOverfill) := by
    cases (s.lane l).state with
    | fault => exact kept_raiseAlert s _ _
    | normal =>
      exact .ite (fun h => ((kept_rosterArrival id h).trans (kept_reportOccupancy _ l)).evalPermits)
        (fun _ => (kept_laneFault s l).trans (kept_raiseAlert _ _ _))
  unfold State.arrive
  cases s.runState with
  | awaitingTables => exact .refl s
  | ready | running | stopping | eStopped => exact hnormal

/-! ## The other lane events -/

theorem kept_expireNoteWait (s : State) (l : LaneId) : Kept E P s (s.expireNoteWait l) := by
  refine .ite (fun _ => ?_) (fun _ => .refl s)
  split
  · exact ((kept_stopNoteWait s l).trans (kept_reportUnannounced _ _)).trans (kept_headAction _ l)
  · exact kept_stopNoteWait s l

theorem kept_takeCandidate (s : State) {n : BayId} (i : RosterIndex) {source : TransferSource} (h : Feeds n source) :
    Kept E P s (s.takeCandidate n i source) := by
  refine Kept.trans ?_ (kept_reportBegin _ _ _)
  refine kept_setBay { source := fun t ht => .inl ?_ }
  cases ht
  exact h

/-- A candidate is offered to bays of its own lane's group. -/
theorem kept_offerTo (s : State) (i : RosterIndex) {source : TransferSource} (need : Nat) {bays : List BayId}
    (h : ∀ n ∈ bays, Feeds n source) : Kept E P s (s.offerTo i source need bays).1 := by
  induction bays generalizing s with
  | nil => exact .refl s
  | cons n rest ih =>
    have hrest : ∀ m ∈ rest, Feeds m source := fun m hm => h m (List.mem_cons_of_mem _ hm)
    unfold State.offerTo
    split
    · split
      · exact kept_takeCandidate s i (h n List.mem_cons_self)
      · exact (kept_enterZeroing s n _).trans (ih _ hrest)
    · exact ih s hrest

theorem laneOf_of_mem_groupOf {l : LaneId} {n : BayId} (h : n ∈ groupOf l) : laneOf n = l := by
  revert n
  cases l <;> decide

theorem kept_popTrack (s : State) (l : LaneId) : Kept E P s (s.popTrack l) :=
  kept_setLane
    { track := fun h => by simp only [List.length_tail]; omega
      source := fun t ht => .inr ⟨t, List.mem_of_mem_tail ht, rfl⟩ }

theorem kept_allocateTrack (s : State) (l : LaneId) (i : RosterIndex) : Kept E P s (s.allocateTrack l i) := by
  have hoffer : Kept E P s (s.offerTo i (.trackHead l) (s.needOf i) (groupOf l)).1 :=
    kept_offerTo s i _ fun n hn => .inr (by rw [laneOf_of_mem_groupOf hn])
  exact .ite (fun _ => hoffer.trans (kept_popTrack _ l)) (fun _ => hoffer)

theorem kept_allocateHead (s : State) (l : LaneId) (i : RosterIndex) : Kept E P s (s.allocateHead l i) := by
  have hfeeds : ∀ n ∈ groupOf l, Feeds n (.laneHead l) := fun n hn => .inl (by rw [laneOf_of_mem_groupOf hn])
  exact .ite (fun _ => ((kept_offerTo s i _ hfeeds).trans (kept_popHead _ l)).afterPop l)
    (fun _ => kept_offerTo s i _ hfeeds)

theorem kept_allocate (s : State) (l : LaneId) : Kept E P s (s.allocate l) := by
  refine .ite (fun _ => ?_) (fun _ => .refl s)
  split
  · exact .ite (fun _ => .refl s) (fun _ => kept_allocateTrack s l _)
  · split
    · exact .ite (fun _ => kept_allocateHead s l _) (fun _ => .refl s)
    · exact .refl s

/-- The first reservation becomes occupied where it stands. -/
theorem occupyFirst_some {l positions : List Position} {t : Transit} (h : occupyFirst l = some (t, positions)) :
    positions.length = l.length ∧ (.reserved t ∈ l) ∧ ∀ u, .reserved u ∈ positions → .reserved u ∈ l := by
  induction l generalizing positions with
  | nil => simp [occupyFirst] at h
  | cons p rest ih =>
    cases p with
    | occupied x =>
      obtain ⟨r, hr, he⟩ := Option.map_eq_some_iff.mp h
      cases he
      obtain ⟨hlen, hmem, hsub⟩ := ih hr
      refine ⟨by simp [hlen], List.mem_cons_of_mem _ hmem, fun u hu => ?_⟩
      simp only [List.mem_cons, reduceCtorEq, false_or] at hu ⊢
      exact hsub u hu
    | reserved u =>
      simp only [occupyFirst, Option.some.injEq, Prod.mk.injEq] at h
      obtain ⟨rfl, rfl⟩ := h
      refine ⟨by simp, List.mem_cons_self, fun v hv => List.mem_cons_of_mem _ ?_⟩
      simpa using hv

/-- A released reservation satisfies the test, and the positions behind close up. -/
theorem releaseReservation_some {p : Transit → Bool} {l positions : List Position} {t : Transit}
    (h : releaseReservation p l = some (t, positions)) :
    p t = true ∧ .reserved t ∈ l ∧ positions.Sublist l ∧ l.length = positions.length + 1 := by
  induction l generalizing positions with
  | nil => simp [releaseReservation] at h
  | cons q rest ih =>
    cases q with
    | occupied x =>
      obtain ⟨r, hr, he⟩ := Option.map_eq_some_iff.mp h
      cases he
      obtain ⟨hp, hmem, hsub, hlen⟩ := ih hr
      exact ⟨hp, List.mem_cons_of_mem _ hmem, hsub.cons_cons _, by simp [hlen]⟩
    | reserved u =>
      simp only [releaseReservation] at h
      split at h
      · cases h
        exact ⟨‹_›, List.mem_cons_self, List.sublist_cons_self _ _, rfl⟩
      · obtain ⟨r, hr, he⟩ := Option.map_eq_some_iff.mp h
        cases he
        obtain ⟨hp, hmem, hsub, hlen⟩ := ih hr
        exact ⟨hp, List.mem_cons_of_mem _ hmem, hsub.cons_cons _, by simp [hlen]⟩

/-- An exit transfer taken satisfies the test, and the others stay. -/
theorem takeExit_some {p : ExitTransfer → Bool} {l rest : List ExitTransfer} {x : ExitTransfer}
    (h : takeExit p l = some (x, rest)) : p x = true ∧ x ∈ l ∧ rest.Sublist l ∧ l.Perm (x :: rest) := by
  induction l generalizing rest with
  | nil => simp [takeExit] at h
  | cons y ys ih =>
    simp only [takeExit] at h
    split at h
    · cases h
      exact ⟨‹_›, List.mem_cons_self, List.sublist_cons_self _ _, .refl _⟩
    · obtain ⟨r, hr, he⟩ := Option.map_eq_some_iff.mp h
      cases he
      obtain ⟨hp, hmem, hsub, hperm⟩ := ih hr
      exact ⟨hp, List.mem_cons_of_mem _ hmem, hsub.cons_cons _, (hperm.cons y).trans (.swap ..)⟩

theorem kept_endTrack (s : State) (l : LaneId) (he : E → SourcesAgree s) : Kept E P s (s.endTrack l) := by
  unfold State.endTrack
  cases h : occupyFirst (s.lane l).track with
  | none => exact .refl s
  | some r =>
    obtain ⟨hlen, hmem, hsub⟩ := occupyFirst_some h
    have hsource (h : E) (st : StationId) : r.1.source ≠ .station st := by
      obtain ⟨-, htracks, -⟩ := he h
      obtain ⟨n, -, hn⟩ := htracks l r.1 hmem
      simp [hn]
    have htrack : LaneKept P l (s.lane l) { s.lane l with track := r.2 } :=
      { track := fun k => hlen ▸ k, source := fun t ht => .inr ⟨t, hsub t ht, rfl⟩ }
    exact ((kept_setLane htrack).trans (kept_reportEnd _ _ _)).trans (kept_tellSource _ hsource)

theorem kept_closeItems (s : State) (items : List Item) : Kept E P s (s.closeItems items) := by
  induction items generalizing s with
  | nil => exact .refl s
  | cons item rest ih =>
    cases item with
    | marker => exact ih s
    | entry i => exact (kept_closeCleared s i).trans (ih _)

theorem kept_clearLane (s : State) (l : LaneId) : Kept E P s (s.clearLane l) := by
  have hempty : Kept E False s (((s.stopNoteWait l).withdrawClaim (.lane l)).updLane l (fun x => { x with queue := [] })) :=
    ((kept_stopNoteWait s l).trans (kept_withdrawClaim _ _)).trans 
      (kept_setLane { queue := fun _ => Nat.zero_le _, permit := False.elim })
  exact (((hempty.trans (kept_closeItems _ _)).trans (kept_setLane { permit := False.elim })).trans
    (kept_reportOccupancy _ l)).evalPermits.trans (kept_drainTest _)

theorem kept_laneClearResult (s : State) (arg : BitVec 24) : Kept E P s (s.laneClearResult arg).1 := by
  unfold State.laneClearResult
  cases laneOfNumber (argByte arg) with
  | none => exact .refl s
  | some l =>
    dsimp only
    cases (s.lane l).state with
    | normal =>
      dsimp only
      split
      · exact .refl s
      · exact kept_clearLane s l
    | fault => exact kept_clearLane s l

/-! ## Readers and notes -/

theorem kept_breakReader (s : State) (l : LaneId) : Kept E P s (s.breakReader l) := by
  unfold State.breakReader
  cases (s.reader l).state with
  | hunt | frame => exact (kept_setReader s l _).trans (kept_raiseAlert _ _ _)
  | off | fault => exact .refl s

theorem kept_returnReader (s : State) (l : LaneId) : Kept E P s (s.returnReader l).1 := by
  unfold State.returnReader
  cases (s.reader l).state with
  | fault => exact kept_setReader s l _
  | off | hunt | frame => exact .refl s

theorem awaitingWith_some {s : State} {serial : List Byte} {i : RosterIndex} (h : s.awaitingWith serial = some i) :
    AwaitsNote i serial s := by
  simpa [AwaitsNote] using List.find?_some h

theorem awaitingWith_none {s : State} {serial : List Byte} (h : s.awaitingWith serial = none) (i : RosterIndex) :
    ¬AwaitsNote i serial s := by
  have hi := List.find?_eq_none.mp h i (List.mem_finRange i)
  simpa [AwaitsNote] using hi

theorem expectedNote_none {s : State} {serial : List Byte} (h : s.expectedNote serial = none) :
    ∀ note ∈ s.expect, note.serial ≠ serial := fun note hn => by
  simpa using List.find?_eq_none.mp h note hn

/-- A note joins the expect table whose slot and serial it does not hold, and whose serial no entry awaits (R55, R59, R60). -/
theorem kept_expect {s : State} {note : Note} (hslot : s.expectsSlot note.slot = false)
    (hserial : ∀ m ∈ s.expect, m.serial ≠ note.serial) (hawait : ∀ i, ¬AwaitsNote i note.serial s) :
    Kept E P s { s with expect := s.expect ++ [note] } where
  pending := rfl
  board := .of_mem_eq rfl
  counts := ⟨fun _ => rfl, fun _ => rfl, fun _ => rfl, fun _ => rfl⟩
  even := id
  free := id
  ejects _ _ := ⟨rfl, rfl⟩
  permits _ h := h
  limits h := by
    refine ⟨h.lanes, h.outfeed, h.claims, h.requests, h.entries, h.bays, ⟨?_, ?_, fun m hm i hi => ?_⟩, h.sources⟩
    · rw [List.map_append]
      refine List.nodup_append.mpr ⟨h.notes.1, List.nodup_singleton _, fun a ha b hb hab => ?_⟩
      obtain ⟨m, hm, rfl⟩ := List.mem_map.mp ha
      rw [List.map_singleton, List.mem_singleton] at hb
      have := List.any_eq_false.mp hslot m hm
      simp [hab, hb] at this
    · rw [List.map_append]
      refine List.nodup_append.mpr ⟨h.notes.2.1, List.nodup_singleton _, fun a ha b hb hab => ?_⟩
      obtain ⟨m, hm, rfl⟩ := List.mem_map.mp ha
      rw [List.map_singleton, List.mem_singleton] at hb
      exact hserial m hm (hab.trans hb)
    · rcases List.mem_append.mp hm with hm | hm
      · exact h.notes.2.2 m hm i hi
      · rw [List.mem_singleton] at hm
        exact hawait i (hm ▸ hi)

theorem kept_offerNote {s : State} {note : Note} (hslot : s.expectsSlot note.slot = false) :
    Kept E P s (s.offerNote note).1 := by
  unfold State.offerNote
  cases hi : s.awaitingWith note.serial with
  | some i =>
    exact ((kept_matchEntry note (awaitingWith_some hi).1).trans (kept_actOnMatch _ i)).trans (kept_editSlot _ _ _ _ _)
  | none =>
    cases hn : s.expectedNote note.serial with
    | some _ => exact kept_editSlot _ _ _ _ _
    | none =>
      exact (kept_expect hslot (expectedNote_none hn) (awaitingWith_none hi)).trans (kept_editSlot _ _ _ _ _)

theorem checkedNote_slot {s : State} {k : SlotId} {note : Note} (h : s.checkedNote k = .inr note) : note.slot = k := by
  unfold State.checkedNote at h
  split at h
  · split at h
    · split at h
      · cases h; rfl
      · cases h
    · cases h
  · cases h

theorem kept_postSlot (s : State) (k : SlotId) : Kept E P s (s.postSlot k).1 := by
  unfold State.postSlot
  split
  · exact .refl s
  · rename_i hfilled
    cases hc : s.checkedNote k with
    | inl reason => exact kept_editSlot _ _ _ _ _
    | inr note =>
      refine kept_offerNote ?_
      rw [checkedNote_slot hc]
      simpa using fun h => hfilled (.inl h)

theorem kept_postNoteResult (s : State) (arg : BitVec 24) : Kept E P s (s.postNoteResult arg).1 := by
  unfold State.postNoteResult
  cases slotOfNumber (argByte arg) with
  | some k => exact kept_postSlot s k
  | none => exact .refl s

theorem kept_withdrawNoteResult (s : State) (arg : BitVec 24) : Kept E P s (s.withdrawNoteResult arg).1 := by
  unfold State.withdrawNoteResult
  cases slotOfNumber (argByte arg) with
  | none => exact .refl s
  | some k =>
    dsimp only
    split
    · exact (kept_removeNote s k).trans (kept_editSlot _ _ _ _ _)
    · split <;> exact .refl s

theorem kept_releaseEntryResult (s : State) (arg : BitVec 24) : Kept E P s (s.releaseEntryResult arg).1 := by
  unfold State.releaseEntryResult
  cases indexOfNumber (argByte arg) with
  | none => exact .refl s
  | some i =>
    dsimp only
    split
    · exact kept_free ‹_›
    · exact .refl s

/-! ## The outfeed -/

theorem kept_takeClaim (s : State) {c : Claimant} {rest : List Claimant} (h : s.claims = c :: rest) :
    Kept E P s { s with claims := rest } :=
  UnitsKept.kept { claims := fun k => by rw [h] at k; exact k.of_cons }

theorem kept_grantBay {s : State} (n : BayId) (hroom : s.outfeedQueue.length < Config.outfeedCapacity) :
    Kept E P s (s.grantBay n) := by
  unfold State.grantBay
  cases (s.bay n).index with
  | some i => exact kept_beginOutfeed _ hroom (.inl ⟨n, rfl⟩)
  | none => exact .refl s

theorem kept_grantLane {s : State} (l : LaneId) (hroom : s.outfeedQueue.length < Config.outfeedCapacity) :
    Kept E P s (s.grantLane l) := by
  unfold State.grantLane
  cases (s.lane l).queue with
  | cons item rest =>
    exact ((kept_popHead s l).trans (kept_beginOutfeed item hroom (.inr ⟨l, rfl⟩))).afterPop l
  | nil => exact .refl s

theorem kept_grantClaim (s : State) : Kept E P s s.grantClaim := by
  unfold State.grantClaim
  cases hc : s.claims with
  | nil => exact .refl s
  | cons c rest =>
    refine .ite (fun h => (kept_takeClaim s hc).trans ?_) (fun _ => .refl s)
    obtain ⟨-, -, hroom, -⟩ := h
    cases c with
    | bay n => exact kept_grantBay n hroom
    | lane l => exact kept_grantLane l hroom

theorem kept_popOutfeed (s : State) : Kept E P s s.popOutfeed :=
  UnitsKept.kept
    { outfeed :=
        { length := fun h => by
            have := List.length_tail (l := s.outfeedQueue)
            simp only [State.popOutfeed]; omega
          source := fun t ht => .inr ⟨t, List.mem_of_mem_tail ht, rfl⟩ } }

theorem ejectsOf_append (s : State) (x : ExitTransfer) (st : StationId) :
    ejectsOf { s with exits := s.exits ++ [x] } st =
      ejectsOf s st + if x.transit.source = .station st then 1 else 0 := by
  simp only [ejectsOf, List.filter_append, List.length_append]
  split <;> simp_all

/-- An exit transfer joins those in flight. -/
theorem kept_appendExit (s : State) {x : ExitTransfer} (h : FeedsExit x.transit.source)
    (he : E → ∀ st, x.transit.source ≠ .station st) : Kept E P s { s with exits := s.exits ++ [x] } := by
  refine kept_setExits (fun y hy => ?_) (fun hE st => ?_)
  · rcases List.mem_append.mp hy with hy | hy
    · exact .inr ⟨y, hy, rfl⟩
    · rw [List.mem_singleton] at hy
      exact .inl (hy ▸ h)
  · rw [ejectsOf_append, if_neg (he hE st)]; rfl

theorem kept_headToExit (s : State) (item : Item) (exit : Exit) : Kept E P s (s.headToExit item exit) :=
  ((kept_popOutfeed s).trans (kept_appendExit _ (.inl rfl) (fun _ _ => by simp [State.newTransit]))).trans (kept_reportBegin _ _ _)

theorem kept_headToStation (s : State) (i : RosterIndex) (st : StationId) : Kept E P s (s.headToStation i st) := by
  refine .ite (fun _ => .trans (.trans (kept_popOutfeed s) ?_) (kept_reportBegin _ _ _)) (fun _ => .refl s)
  refine kept_setStation { source := fun t ht => .inl ?_ }
  cases ht
  rfl

theorem kept_dispatchHead (s : State) : Kept E P s s.dispatchHead := by
  refine .ite (fun _ => ?_) (fun _ => .refl s)
  split
  · exact kept_headToExit s _ _
  · split
    · exact kept_headToExit s _ _
    · exact kept_headToExit s _ _
    · exact kept_headToStation s _ _
    · exact kept_headToStation s _ _
    · exact .refl s
    · exact .refl s
  · exact .refl s

theorem kept_endOutfeed (s : State) (he : E → SourcesAgree s) : Kept E P s s.endOutfeed := by
  unfold State.endOutfeed
  cases h : occupyFirst s.outfeedQueue with
  | none => exact .refl s
  | some r =>
    obtain ⟨hlen, hmem, hsub⟩ := occupyFirst_some h
    have hsource (h : E) (st : StationId) : r.1.source ≠ .station st := by
      obtain ⟨-, -, hqueue, -⟩ := he h
      exact FeedsOutfeed.ne_station (hqueue r.1 hmem) st
    have hqueue : OutfeedKept s.outfeedQueue r.2 :=
      { length := fun k => hlen ▸ k, source := fun t ht => .inr ⟨t, hsub t ht, rfl⟩ }
    exact ((kept_setOutfeedQueue hqueue).trans (kept_reportEnd _ _ _)).trans (kept_tellSource _ hsource)

theorem kept_reachExit (s : State) (item : Item) (exit : Exit) : Kept E P s (s.reachExit item exit) := by
  cases item with
  | entry i => exact kept_closeAtExit s i exit
  | marker => exact kept_raiseAlert s _ _

theorem kept_dropExit (s : State) {p : ExitTransfer → Bool} {x : ExitTransfer} {rest : List ExitTransfer}
    (h : takeExit p s.exits = some (x, rest)) : Kept False P s { s with exits := rest } :=
  kept_setExits (fun y hy => .inr ⟨y, (takeExit_some h).2.2.1.subset hy, rfl⟩) False.elim

theorem kept_endExit (s : State) (exit : Exit) : Kept False P s (s.endExit exit) := by
  unfold State.endExit
  cases h : takeExit (fun x => decide (x.exit = exit)) s.exits with
  | none => exact .refl s
  | some r => exact ((kept_dropExit s h).trans (kept_reachExit _ _ _)).trans (kept_tellSource _ False.elim)

theorem kept_beginEject (s : State) (st : StationId) : Kept False P s (s.beginEject st) := by
  refine .ite (fun _ => ?_) (fun _ => .refl s)
  split
  · have hbegun : Kept False P s (s.updStation st (fun x => { x with ejectBegun := true })) :=
      kept_setStation { begun := False.elim }
    exact (hbegun.trans (kept_appendExit _ (.inr ⟨st, rfl⟩) False.elim)).trans (kept_reportBegin _ _ _)
  · exact .refl s

theorem kept_jamLoading (s : State) (n : BayId) (he : E → SourcesAgree s) : Kept E P s (s.jamLoading n) := by
  unfold State.jamLoading
  cases hl : (s.bay n).loading with
  | none => exact .refl s
  | some t =>
    refine .ite (fun _ => ?_) (fun _ => .refl s)
    have hclear : Kept E P s (s.updBay n (fun b => { b with loading := none, index := none })) :=
      kept_setBay { source := fun t h => by simp at h }
    have hsource (h : E) : ∀ st, t.source ≠ .station st := Feeds.ne_station ((he h).1 n t hl)
    exact ((hclear.trans (kept_closeJammed _ _)).trans (kept_tellSource _ hsource)).trans (kept_bayFault _ n _)

theorem dueFrom_source {s : State} {source : TransferSource} {t : Transit} (h : s.dueFrom source t = true) :
    t.source = source := by
  simp only [State.dueFrom, Bool.and_eq_true, decide_eq_true_eq] at h
  exact h.1

theorem kept_jamTrack (s : State) (n : BayId) : Kept E P s (s.jamTrack n) := by
  unfold State.jamTrack
  cases h : releaseReservation (s.dueFrom (.bay n)) (s.lane (laneOf n)).track with
  | none => exact .refl s
  | some r =>
    obtain ⟨hdue, -, hsub, -⟩ := releaseReservation_some h
    have htrack : LaneKept P (laneOf n) (s.lane (laneOf n)) { s.lane (laneOf n) with track := r.2 } :=
      { track := fun k => hsub.length_le.trans k, source := fun t ht => .inr ⟨t, hsub.subset ht, rfl⟩ }
    have hsource : E → ∀ st, r.1.source ≠ .station st := fun _ st => by simp [dueFrom_source hdue]
    exact ((((kept_setLane htrack).trans (kept_closeJammed _ _)).trans (kept_tellSource _ hsource)).trans
      (kept_laneFault _ _)).trans (kept_raiseAlert _ _ _)

theorem kept_jamOutfeed (s : State) {source : TransferSource} (hs : FeedsOutfeed source) :
    Kept E P s (s.jamOutfeed source) := by
  unfold State.jamOutfeed
  cases h : releaseReservation (s.dueFrom source) s.outfeedQueue with
  | none => exact .refl s
  | some r =>
    obtain ⟨hdue, -, hsub, -⟩ := releaseReservation_some h
    have hqueue : OutfeedKept s.outfeedQueue r.2 :=
      { length := fun k => hsub.length_le.trans k, source := fun t ht => .inr ⟨t, hsub.subset ht, rfl⟩ }
    have hsource : E → ∀ st, r.1.source ≠ .station st := fun _ => dueFrom_source hdue ▸ hs.ne_station
    exact (((kept_setOutfeedQueue hqueue).trans (kept_closeJammed _ _)).trans (kept_tellSource _ hsource)).trans
      (kept_outfeedJam _)

theorem kept_jamNest (s : State) (st : StationId) (he : E → SourcesAgree s) : Kept E P s (s.jamNest st) := by
  unfold State.jamNest
  cases hl : (s.station st).loading with
  | none => exact .refl s
  | some t =>
    refine .ite (fun _ => ?_) (fun _ => .refl s)
    have hclear : Kept E P s (s.updStation st (fun x => { x with loading := none, nest := .empty, index := none })) :=
      kept_setStation { source := fun t h => by simp at h }
    have hsource (h : E) (u : StationId) : t.source ≠ .station u := by
      obtain ⟨-, -, -, hnest, -⟩ := he h
      simp [hnest st t hl]
    exact ((hclear.trans (kept_closeJammed _ _)).trans (kept_tellSource _ hsource)).trans (kept_stationFault _ st _)

theorem kept_jamExit (s : State) (source : TransferSource) : Kept False P s (s.jamExit source) := by
  unfold State.jamExit
  cases h : takeExit (fun x => s.dueFrom source x.transit) s.exits with
  | none => exact .refl s
  | some r =>
    exact (((kept_dropExit s h).trans (kept_closeJammed _ _)).trans (kept_tellSource _ False.elim)).trans (kept_outfeedJam _)

theorem kept_jam (s : State) (t : TransferRef) (he : E → SourcesAgree s ∧ t ≠ .headToExit ∧ ∀ st, t ≠ .eject st) :
    Kept E P s (s.jam t) := by
  cases t with
  | loading n => exact kept_jamLoading s n fun h => (he h).1
  | ontoTrack n => exact kept_jamTrack s n
  | bayToOutfeed n => exact kept_jamOutfeed s (.inl ⟨n, rfl⟩)
  | laneToOutfeed l => exact kept_jamOutfeed s (.inr ⟨l, rfl⟩)
  | nest st => exact kept_jamNest s st fun h => (he h).1
  | headToExit => exact (kept_jamExit s _).weaken (fun h => (he h).2.1 rfl) id
  | eject st => exact (kept_jamExit s _).weaken (fun h => (he h).2.2 st rfl) id

theorem kept_returnOutfeed (s : State) : Kept E P s s.returnOutfeed.1 := by
  unfold State.returnOutfeed
  cases s.outfeedState with
  | fault => exact UnitsKept.kept {}
  | normal => exact .refl s

/-! ## Stations -/

theorem kept_nestEyeOn (s : State) (st : StationId) (he : E → SourcesAgree s) : Kept E P s (s.nestEyeOn st) := by
  have hon : Kept E P s (s.updStation st (fun x => { x with nestEye := true })) := kept_setStation {}
  unfold State.nestEyeOn
  dsimp only
  split
  · rename_i t _ ht _
    have hsource (h : E) (u : StationId) : t.source ≠ .station u := by
      obtain ⟨-, -, -, hnest, -⟩ := he h
      simp [hnest st t ht]
    refine hon.trans ((Kept.trans ?_ (kept_reportEnd _ _ _)).trans (kept_tellSource _ hsource))
    exact kept_setStation { source := fun t h => by simp [Station.loaded] at h }
  · exact hon

theorem stationKept_offerByte (x : Station) (pos : Nat) (expiry : Seconds) :
    StationKept E x ({ x with state := .offering }.offerByte pos expiry) := by
  unfold Station.offerByte
  dsimp only
  split <;> exact {}

theorem kept_offerOrder (s : State) (st : StationId) : Kept E P s (s.offerOrder st) :=
  .ite (fun _ => kept_setStation (stationKept_offerByte _ _ _)) (fun _ => .refl s)

theorem kept_changeGuard (s : State) (level : Bool) : Kept E P s (s.changeGuard level) := by
  have hguard : Kept E P s { s with guardClosed := level } := UnitsKept.kept {}
  exact .ite (fun _ => (hguard.trans (kept_breakOffering _ .stamper)).trans (kept_breakOffering _ .defacer))
    (fun _ => hguard)

theorem kept_byteTaken (s : State) (st : StationId) : Kept E P s (s.byteTaken st) := by
  refine kept_setStation ?_
  dsimp only
  split
  · exact {}
  · unfold Station.offerByte
    dsimp only
    split <;> exact {}

theorem kept_changeTaken (s : State) (st : StationId) (level : Bool) : Kept E P s (s.changeTaken st level) := by
  have htaken : Kept E P s (s.updStation st (fun x => { x with taken := level })) := kept_setStation {}
  refine .ite (fun _ => .refl s) (fun _ => htaken.trans (.ite (fun _ => ?_) (fun _ => .refl _)))
  exact .ite (fun _ => .ite (fun _ => kept_byteTaken _ st) (fun _ => .refl _))
    (fun _ => .ite (fun _ => .refl _) (fun _ => kept_setStation {}))

theorem kept_expireTake (s : State) (st : StationId) : Kept E P s (s.expireTake st) :=
  .ite (fun _ => .trans (kept_setStation {}) (kept_stationFault _ st _)) (fun _ => .refl s)

theorem kept_badOrder (s : State) (st : StationId) : Kept E P s (s.badOrder st) :=
  .ite (fun _ => kept_setStation {}) (fun _ => kept_stationFault s st _)

theorem kept_actOnResult (s : State) (st : StationId) (result : Nat) : Kept E P s (s.actOnResult st result) := by
  unfold State.actOnResult
  split
  · exact kept_setStation {}
  · exact (kept_stationDoubt s st).trans (kept_setStation {})
  · exact kept_faultedResult s st _
  · exact kept_noCylinderResult s st
  · exact kept_badOrder s st
  · exact kept_faultedResult s st _

theorem kept_strobe (s : State) (st : StationId) (result : BitVec 4) (level : Bool) :
    Kept E P s (s.strobe st result level) := by
  have hlatch : Kept E P s (s.updStation st (fun x => { x with resultLatch := result, done := level })) := kept_setStation {}
  unfold State.strobe
  dsimp only
  cases (s.station st).state with
  | working =>
    refine hlatch.trans (Kept.trans ?_ (kept_actOnResult _ st _))
    exact kept_setStation {}
  | offering =>
    refine hlatch.trans (Kept.trans ?_ (kept_stationFault _ st _))
    exact kept_setStation {}
  | idle | nestLoading | nestLoaded | ejecting => exact hlatch.trans (kept_stationFault _ st _)
  | fault | offline => exact hlatch

theorem kept_changeDone (s : State) (st : StationId) (result : BitVec 4) (change : DoneChange) :
    Kept E P s (s.changeDone st result change) := by
  cases change with
  | strobe level => exact (kept_strobe s st result level).trans (kept_drainTest _)
  | off => exact kept_setStation {}

theorem kept_expireWork (s : State) (st : StationId) : Kept E P s (s.expireWork st) :=
  .ite (fun _ => kept_faultedResult s st _) (fun _ => .refl s)

theorem kept_takeOutStation (s : State) (st : StationId) : Kept E P s (s.takeOutStation st).1 := by
  unfold State.takeOutStation
  split
  · exact kept_setStation {}
  · exact kept_setStation {}
  · exact kept_setStation {}
  · exact .refl s

theorem kept_returnStation (s : State) (st : StationId) : Kept E P s (s.returnStation st).1 := by
  unfold State.returnStation
  split
  · exact kept_setStation {}
  · exact kept_setStation {}
  · exact kept_setStation {}
  · exact kept_setStation {}
  · exact .refl s

end Sys2Proof.Machine
end

