-- ==== Sys2Proof/Proofs/KeptSteps.lean ====
section
/-! Every effect of an event and every answer of a command's owner keeps what every operation keeps (`Kept`). -/

-- Proofs are checked one after another: the whole text, compiled as one, would otherwise start more threads than fit into the
-- check's memory.
set_option Elab.async false

namespace Sys2Proof.Machine

variable {E P : Prop}

/-! ## The bays' commands -/

theorem kept_holdBay (s : State) (n : BayId) : Kept E P s (s.holdBay n).1 := by
  unfold State.holdBay
  split
  · exact (((kept_withdrawRequest s n).trans (kept_setBay {})).trans (kept_testShortfall _ n)).trans (kept_drainTest _)
  · exact (kept_releaseCoupled s n).trans (kept_setBay {})
  · exact kept_setBay {}
  · exact .refl s

theorem kept_resumeBay (s : State) (n : BayId) : Kept E P s (s.resumeBay n).1 := by
  unfold State.resumeBay
  split
  · exact (kept_enterAwait s n).trans (kept_drainTest _)
  · exact .refl s

theorem kept_withdrawAndAbort (s : State) (n : BayId) : Kept E P s ((s.withdrawRequest n).abortAndUnload n) :=
  (kept_withdrawRequest s n).trans (kept_abortAndUnload _ n)

theorem kept_abortAttempt (s : State) (n : BayId) : Kept E P s (s.abortAttempt n) :=
  .ite (fun _ => kept_enterReleasing s n _) (fun _ => kept_withdrawAndAbort s n)

theorem kept_abortBay (s : State) (n : BayId) : Kept E P s (s.abortBay n).1 := by
  unfold State.abortBay
  cases (s.bay n).state with
  | filling => exact kept_withdrawAndAbort s n
  | awaitIntensifier | suspended => exact kept_abortAttempt s n
  | pressurising | holding => exact kept_enterReleasing s n _
  | releasing => exact kept_setBay {}
  | settling =>
    refine Kept.trans ?_ (kept_abortAndUnload _ n)
    exact kept_setBay {}
  | unloading | starting | zeroing | idle | loading | offline | fault => exact .refl s

theorem kept_zeroBay (s : State) (n : BayId) : Kept E P s (s.zeroBay n).1 := by
  unfold State.zeroBay
  split
  · exact kept_enterZeroing s n _
  · exact .refl s

theorem kept_forBayArg (s : State) (arg : BitVec 24) {f : State → BayId → State × ResultCode}
    (h : ∀ n, Kept E P s (f s n).1) : Kept E P s (s.forBayArg arg f).1 := by
  unfold State.forBayArg
  cases bayOfNumber (argByte arg) with
  | some n => exact h n
  | none => exact .refl s

theorem kept_wentOffline (s : State) (n : BayId) : Kept E P s (s.updBay n Bay.wentOffline) :=
  kept_setBay { failures := fun _ => Nat.zero_le _ }

theorem kept_takeOutBay (s : State) (n : BayId) : Kept E P s (s.takeOutBay n).1 := by
  unfold State.takeOutBay
  split
  · exact kept_wentOffline s n
  · exact kept_wentOffline s n
  · split
    · exact kept_wentOffline s n
    · exact .refl s
  · split
    · exact kept_wentOffline s n
    · exact .refl s
  · exact .refl s

theorem kept_serviceLineResult (s : State) (arg : BitVec 24) : Kept E P s (s.serviceLineResult arg).1 := by
  unfold State.serviceLineResult
  split
  · split
    · unfold State.setOutputs
      split
      · exact kept_setBay {}
      · exact .refl s
    · exact .refl s
  · exact .refl s

theorem kept_returned (s : State) (n : BayId) : Kept E P s (s.updBay n Bay.returned) := by
  refine kept_setBay ?_
  unfold Bay.returned
  split
  · exact { owed := fun _ => Nat.le_refl 2, failures := fun _ => Nat.zero_le _ }
  · exact { owed := fun h => Nat.max_le.mpr ⟨by decide, h⟩, failures := fun _ => Nat.zero_le _ }

theorem kept_returnHolding (s : State) (n : BayId) : Kept E P s (s.returnHolding n).1 := by
  unfold State.returnHolding
  dsimp only
  split
  · exact (kept_returned s n).trans (kept_setBay {})
  · exact (kept_returned s n).trans (kept_enterZeroing _ n _)
  · exact .refl s

theorem kept_returnBay (s : State) (n : BayId) : Kept E P s (s.returnBay n).1 := by
  unfold State.returnBay
  split
  · exact .refl s
  · split
    · exact (kept_returned s n).trans (kept_enterZeroing _ n _)
    · refine (kept_returned s n).trans (Kept.trans ?_ (kept_enterZeroing _ n _))
      exact kept_setBay {}
    · exact kept_returnHolding s n
    · exact .refl s

/-! ## Commands that name a source -/

theorem kept_takeOutIntensifier (s : State) (i : IntensifierId) : Kept E P s (s.takeOutIntensifier i).1 := by
  unfold State.takeOutIntensifier
  dsimp only
  split
  · exact kept_setIntensifier rfl
  · exact kept_setIntensifier rfl
  · split
    · exact .refl s
    · exact kept_setIntensifier rfl
  · split
    · exact .refl s
    · exact kept_setIntensifier rfl
  · exact .refl s

theorem kept_returnIntensifier (s : State) (i : IntensifierId) : Kept E P s (s.returnIntensifier i).1 := by
  unfold State.returnIntensifier
  dsimp only
  split
  · split
    · exact .refl s
    · exact kept_setIntensifier rfl
  · split
    · exact .refl s
    · exact kept_setIntensifier rfl
  · split
    · exact kept_setIntensifier rfl
    · exact .refl s
  · split
    · exact kept_setIntensifier rfl
    · exact .refl s
  · exact .refl s

theorem kept_takeOutResult (s : State) (source : Nat) : Kept E P s (s.takeOutResult source).1 := by
  unfold State.takeOutResult
  split
  · exact kept_takeOutBay s _
  · exact kept_takeOutIntensifier s _
  · exact kept_takeOutStation s _
  · exact .refl s

theorem kept_returnFlow (s : State) (source : Nat) : Kept E P s (s.returnFlow source).1 := by
  unfold State.returnFlow
  split
  · exact kept_returnReader s _
  · split
    · exact kept_returnOutfeed s
    · exact .refl s

theorem kept_returnResult (s : State) (source : Nat) : Kept E P s (s.returnResult source).1 := by
  unfold State.returnResult
  split
  · exact kept_returnBay s _
  · exact kept_returnIntensifier s _
  · exact kept_returnStation s _
  · exact kept_returnFlow s source

/-! ## The tables and the store port -/

theorem Kept.afterTake {s t : State} (h : Kept E False s t) : Kept E P s t.afterTake :=
  ((h.trans (kept_leaveAwaiting t)).trans (kept_forBays (fun n t => kept_leaveStarting t n) _)).evalPermits.trans
    (kept_forBays (fun n t => kept_testProactive t n) _)

theorem kept_setTables (s : State) (settings : Option Settings) (types : Vector (Option TypeEntry) 32) (typeMask : BitVec 32)
    (templates : Vector (Option (List Byte)) 16) (templateMask : BitVec 16) (held : Bool) (firstBad : Option Nat) :
    Kept E False s { s with
      settings := settings
      types := types
      typeMask := typeMask
      templates := templates
      templateMask := templateMask
      tablesHeld := held
      firstBad := firstBad } :=
  UnitsKept.kept { settings := False.elim }

theorem kept_takeAccepted (s : State) (w : Settings) : Kept E False s (s.takeAccepted w) :=
  (kept_setTables s _ _ _ _ _ _ _).trans (kept_headerEdit _)

theorem kept_takeTablesResult (s : State) : Kept E P s s.takeTablesResult.1 := by
  unfold State.takeTablesResult
  cases s.firstBadField s.readSettings with
  | some k =>
    have hbad : Kept E P s { s with firstBad := some k } := UnitsKept.kept {}
    exact hbad.trans (kept_headerEdit _)
  | none =>
    have htake := kept_takeAccepted (E := E) s s.readSettings
    dsimp only
    exact htake.afterTake

theorem kept_setDateResult (s : State) (arg : BitVec 24) : Kept E P s (s.setDateResult arg).1 := by
  unfold State.setDateResult
  split
  · have hdate : Kept E P s { s with date := some ⟨2000 + argMiddle arg, argByte arg⟩ }.headerEdit :=
      UnitsKept.kept { header := .inr rfl }
    exact hdate.trans (kept_leaveAwaiting _)
  · exact .refl s

theorem kept_nmbRead (s : State) : Kept E P s s.nmbRead := by
  unfold State.nmbRead
  split
  · refine Kept.trans ?_ (kept_withNotices _ _)
    exact UnitsKept.kept {}
  · exact UnitsKept.kept {}

theorem kept_cmbWrite (s : State) (word : Word) : Kept E P s (s.cmbWrite word) := by
  unfold State.cmbWrite State.racingWrite State.storeWord
  dsimp only
  split
  · exact UnitsKept.kept {}
  · split
    · split <;> exact UnitsKept.kept {}
    · exact UnitsKept.kept {}

/-! ## What a command does -/

/-- The events that begin or end an eject. -/
def endsEject : Instr → Prop
  | .exitEye _ => True
  | .transferJam t => t = .headToExit ∨ ∃ st, t = .eject st
  | .ejectBegin _ => True
  | _ => False

/-- Every event keeps what every operation keeps; all but three neither begin nor end an eject. -/
theorem kept_effect {c : Instr} {s u : State} (h : effect c s = some u)
    (he : E → SourcesAgree s ∧ ¬endsEject c) : Kept E P s u := by
  have hs : E → SourcesAgree s := fun h => (he h).1
  cases c <;> simp only [effect, Option.some.injEq, reduceCtorEq] at h
  all_goals subst h
  case interruptEnable enable => exact UnitsKept.kept {}
  case nmbRead => exact kept_nmbRead s
  case eStopAsserted => exact kept_assertEStop s
  case eStopReleased => exact kept_releaseEStop s
  case lineSecondsAdvance => exact (kept_advance s).trans (kept_drainTest _)
  case zeroValidityLapse n => exact kept_lapseAtZero s n
  case readerCharacter l value stopGood => exact kept_setReader s l _
  case readerBreak l => exact kept_breakReader s l
  case arrival l => exact (kept_setReader s l _).trans (kept_arrive _ l _)
  case noteWaitExpiry l => exact kept_expireNoteWait s l
  case bayAllocation l => exact (kept_allocate s l).trans (kept_drainTest _)
  case claimGrant => exact (kept_grantClaim s).trans (kept_drainTest _)
  case outfeedHeadDispatch => exact (kept_dispatchHead s).trans (kept_drainTest _)
  case loadingEnd n =>
    have hpresent : Kept E P s (s.updBay n (fun b => { b with present := true })) := kept_setBay {}
    exact (hpresent.trans (kept_endLoading _ n fun h t ht => (hs h).1 n t (by simpa using ht))).trans (kept_drainTest _)
  case trackEye l => exact (kept_endTrack s l hs).trans (kept_drainTest _)
  case outfeedEye => exact (kept_endOutfeed s hs).trans (kept_drainTest _)
  case exitEye e => exact ((kept_endExit s e).trans (kept_drainTest _)).weaken (fun h => (he h).2 trivial) id
  case transferJam t =>
    refine (kept_jam s t fun h => ⟨hs h, fun k => ?_, fun st k => ?_⟩).trans (kept_drainTest _)
    · exact (he h).2 (.inl k)
    · exact (he h).2 (.inr ⟨st, k⟩)
  case bayInputChange n input level => exact (kept_changeInput s n input level fun h => (hs h).1 n).trans (kept_drainTest _)
  case fillLimitExpiry n => exact (kept_expireFill s n).trans (kept_drainTest _)
  case grant => exact kept_grantHead s
  case grantAtBay n => exact (kept_takeGrant s n).trans (kept_drainTest _)
  case intensifierRelease n => exact kept_arbiterRelease s n
  case retuneExpiry i => exact kept_endRetune s i
  case faultInputChange i level => exact (kept_changeFaultInput s i level).trans (kept_drainTest _)
  case samplePair n pressure gauge => exact (kept_samplePair s n _ _).trans (kept_drainTest _)
  case riseLimitExpiry n => exact kept_expireRise s n
  case holdExpiry n => exact kept_expireHold s n
  case releaseLimitExpiry n => exact (kept_expireRelease s n).trans (kept_drainTest _)
  case settleExpiry n => exact (kept_expireSettle s n).trans (kept_drainTest _)
  case pressurisedLimitExpiry n => exact kept_expirePressurised s n
  case checkExpiry n => exact (kept_expireCheck s n).trans (kept_drainTest _)
  case nestEye st => exact (kept_nestEyeOn s st hs).trans (kept_drainTest _)
  case stationNestEyeOff st => exact kept_setStation {}
  case orderOffer st => exact kept_offerOrder s st
  case guardClosedChange level => exact kept_changeGuard s level
  case stationReadyChange st level => exact kept_setStation {}
  case taken st level => exact kept_changeTaken s st level
  case takeLimitExpiry st => exact (kept_expireTake s st).trans (kept_drainTest _)
  case doneStrobe st result change => exact kept_changeDone s st result change
  case workLimitExpiry st => exact kept_expireWork s st
  case ejectBegin st => exact ((kept_beginEject s st).trans (kept_drainTest _)).weaken (fun h => (he h).2 trivial) id

/-- Every owner's answer keeps what every operation keeps. -/
theorem kept_owner {c : Instr} {owner : State → State × ResultCode} (h : ownerOf c = some owner) (s : State) :
    Kept E P s (owner s).1 := by
  cases c <;> simp only [ownerOf, Option.some.injEq, reduceCtorEq] at h
  all_goals subst h
  case takeTables => exact kept_takeTablesResult s
  case setDate arg => exact kept_setDateResult s arg
  case run => exact kept_runResult s
  case stopLine => exact kept_stopLineResult s
  case clearStatus => exact UnitsKept.kept {}
  case postNote arg => exact kept_postNoteResult s arg
  case withdrawNote arg => exact kept_withdrawNoteResult s arg
  case releaseEntry arg => exact kept_releaseEntryResult s arg
  case bayHold arg => exact kept_forBayArg s arg (kept_holdBay s)
  case bayResume arg => exact kept_forBayArg s arg (kept_resumeBay s)
  case bayAbort arg => exact kept_forBayArg s arg (kept_abortBay s)
  case bayZero arg => exact kept_forBayArg s arg (kept_zeroBay s)
  case takeOutOfService arg => exact kept_takeOutResult s _
  case serviceLine arg => exact kept_serviceLineResult s arg
  case returnToService arg => exact kept_returnResult s _
  case laneClear arg => exact kept_laneClearResult s arg

theorem kept_withCommand (s : State) (word : Word) : Kept E P s (s.withCommand word) := UnitsKept.kept {}

theorem kept_completed (s : State) (code : Byte) (result : ResultCode) : Kept E P s (s.completed code result) :=
  UnitsKept.kept {}

/-- A command carried through keeps what its owner's answer keeps. -/
theorem kept_carry (s : State) (word : Word) (exempt : Bool) {owner : State → State × ResultCode}
    (h : ∀ t, Kept E P t (owner t).1) : Kept E P s (s.carry word exempt owner) := by
  refine .ite (fun _ => UnitsKept.kept {}) (fun _ => ?_)
  refine ((kept_withCommand s word).trans ?_).trans (kept_completed _ _ _)
  unfold State.consult
  split
  · exact .refl _
  · exact h _

end Sys2Proof.Machine
end

