-- ==== Sys2Proof/Proofs/NoticeFacts.lean ====
section
/-! What the notice unit holds after a notice is handed over (R169, R170). -/

-- Proofs are checked one after another: the whole text, compiled as one, would otherwise start more threads than fit into the
-- check's memory.
set_option Elab.async false

namespace Sys2Proof.Machine

/-- A notice waits once the list becomes `l` exactly if it stood in NMB or is in `l` (R170). -/
theorem waiting_withNotices (s : State) (l : List Notice) (x : Notice) :
    Waiting x (s.withNotices l) ↔ s.nmb = some x ∨ x ∈ l := by
  unfold Waiting State.withNotices
  cases hn : s.nmb with
  | some y => simp
  | none =>
    cases l with
    | nil => simp
    | cons y rest => simp [eq_comm]

/-- An alert of the source is in the list after it is merged (R169). -/
theorem mem_mergeAlert (source : Nat) (code : AlertCode) (l : List Notice) :
    .alert source code ∈ mergeAlert source code l := by
  unfold mergeAlert
  split
  · rename_i h
    obtain ⟨y, hy, ha⟩ := List.any_eq_true.mp h
    exact List.mem_map.mpr ⟨y, hy, if_pos ha⟩
  · simp

/-- Merging an alert keeps every notice but the alerts of its source. -/
theorem mem_mergeAlert_of_mem {source : Nat} {code : AlertCode} {l : List Notice} {x : Notice} (h : x ∈ l)
    (hx : x.isAlertOf source = false) : x ∈ mergeAlert source code l := by
  unfold mergeAlert
  split
  · exact List.mem_map.mpr ⟨x, h, by simp [hx]⟩
  · exact List.mem_append_left _ h

theorem alerted_raiseAlert (s : State) (source : Nat) (code : AlertCode) :
    Alerted source code (s.raiseAlert source code) :=
  ⟨(waiting_withNotices s _ _).mpr (.inr (mem_mergeAlert source code s.notices)), rfl⟩

/-- A later alert leaves a waiting notice, unless it replaces the code of an alert of its own source. -/
theorem Waiting.raiseAlert {s : State} {x : Notice} (h : Waiting x s) {source : Nat} {code : AlertCode}
    (hx : x.isAlertOf source = false ∨ x = .alert source code) : Waiting x (s.raiseAlert source code) := by
  show Waiting x (s.withNotices _)
  rw [waiting_withNotices]
  rcases hx with hx | rfl
  · exact h.imp_right fun h => mem_mergeAlert_of_mem h hx
  · exact .inr (mem_mergeAlert source code s.notices)

theorem Waiting.raiseOutcome {s : State} {x : Notice} (h : Waiting x s) (i : RosterIndex) (code : OutcomeCode)
    (reason : Reason) : Waiting x (s.raiseOutcome i code reason) :=
  (waiting_withNotices s _ _).mpr (h.imp_right fun h => List.mem_append_left _ h)

theorem waiting_raiseOutcome (s : State) (i : RosterIndex) (code : OutcomeCode) (reason : Reason) :
    Waiting (.outcome i code reason) (s.raiseOutcome i code reason) :=
  (waiting_withNotices s _ _).mpr (.inr (by simp))

/-- Notices that stay where they are still wait. -/
theorem Waiting.of_same {s t : State} {x : Notice} (h : Waiting x s) (k : Same .notices s t) : Waiting x t := by
  obtain ⟨hlist, hnmb⟩ := k
  unfold Waiting
  rw [hlist, hnmb]
  exact h

theorem Waiting.of_frame {L : List Part} {s t : State} {x : Notice} (h : Waiting x s) (k : Frame L s t)
    (hL : Part.notices ∉ L) : Waiting x t := h.of_same (k .notices hL)

theorem Alerted.of_frame {L : List Part} {s t : State} {source : Nat} {code : AlertCode} (h : Alerted source code s)
    (k : Frame L s t) (hn : Part.notices ∉ L) (ha : Part.alertSeen ∉ L) : Alerted source code t :=
  ⟨h.1.of_frame k hn, Eq.trans (k .alertSeen ha) h.2⟩

theorem Alerted.publish {source : Nat} {code : AlertCode} {s t : State} (h : Alerted source code t) :
    Alerted source code (s.publish t) := h

theorem Waiting.publish {x : Notice} {s t : State} (h : Waiting x t) : Waiting x (s.publish t) := h

theorem Alerted.completed {source : Nat} {code : AlertCode} {t : State} (h : Alerted source code t) (c : Byte)
    (r : ResultCode) : Alerted source code (t.completed c r) := h

theorem Waiting.drainTest {x : Notice} {t : State} (h : Waiting x t) : Waiting x t.drainTest :=
  h.of_frame (frame_drainTest t) (by simp)

theorem Alerted.drainTest {source : Nat} {code : AlertCode} {t : State} (h : Alerted source code t) :
    Alerted source code t.drainTest :=
  h.of_frame (frame_drainTest t) (by simp) (by simp)

theorem Alerted.raiseAlert {source : Nat} {code : AlertCode} {s : State} (h : Alerted source code s) {source' : Nat}
    {code' : AlertCode} (hs : source ≠ source') : Alerted source code (s.raiseAlert source' code') :=
  ⟨h.1.raiseAlert (.inl (by simp [Notice.isAlertOf, hs])), rfl⟩

theorem Alerted.raiseOutcome {source : Nat} {code : AlertCode} {s : State} (h : Alerted source code s) (i : RosterIndex)
    (o : OutcomeCode) (reason : Reason) : Alerted source code (s.raiseOutcome i o reason) :=
  ⟨h.1.raiseOutcome i o reason, h.2⟩

/-- The alerts raised one after another, of sources that fix their codes, all wait. -/
theorem alerted_foldl {f : Nat → Nat × AlertCode} (hf : ∀ j k, (f j).1 = (f k).1 → f j = f k) (l : List Nat) (s : State)
    {k : Nat} (hk : k ∈ l ∨ Alerted (f k).1 (f k).2 s) :
    Alerted (f k).1 (f k).2 (l.foldl (fun t j => t.raiseAlert (f j).1 (f j).2) s) := by
  induction l generalizing s with
  | nil => simpa using hk
  | cons j rest ih =>
    refine ih _ ?_
    by_cases hj : (f k).1 = (f j).1
    · rw [hf k j hj]
      exact .inr (alerted_raiseAlert s _ _)
    · rcases hk with hk | hk
      · rcases List.mem_cons.mp hk with rfl | hk
        · exact absurd rfl hj
        · exact .inl hk
      · exact .inr (hk.raiseAlert hj)

end Sys2Proof.Machine
end

