-- ==== Sys2Proof/Proofs/Resets.lean ====
section
/-! What the two resets leave, part by part (R180 and each block's own reset rule). -/

-- Proofs are checked one after another: the whole text, compiled as one, would otherwise start more threads than fit into the
-- check's memory.
set_option Elab.async false

namespace Sys2Proof.Machine

variable {E P : Prop}

/-! ## The alerts at the end of a reset -/

theorem frame_foldl {α : Type} {L : List Part} {g : State → α → State} (h : ∀ t x, Frame L t (g t x)) (l : List α)
    (s : State) : Frame L s (l.foldl g s) := by
  induction l generalizing s with
  | nil => exact .refl _ s
  | cons x rest ih => exact (h s x).trans (ih _)

theorem frame_choices (s : State) (k : Nat) : Frame [.choices] s { s with choices := k } := by
  intro p hp
  cases p
  case choices => simp at hp
  case store => exact .of_mem_eq rfl
  all_goals first | rfl | exact ⟨rfl, rfl⟩ | exact ⟨rfl, rfl, rfl⟩ | exact ⟨rfl, rfl, rfl, rfl⟩

theorem frame_raiseResetAlerts (s : State) (due : List Nat) :
    Frame [.notices, .alertSeen, .choices] s (s.raiseResetAlerts due) :=
  .seq (frame_choices s _) (frame_foldl (fun t k => frame_raiseAlert t _ _) _ _) (by simp) (by simp)

theorem resetAlertOf_inj (j k : Nat) (h : (resetAlertOf j).1 = (resetAlertOf k).1) : resetAlertOf j = resetAlertOf k := by
  unfold resetAlertOf at h ⊢
  split <;> split <;> simp_all [runSource, intensifierSource]

/-- Every due alert is among the ordered ones. -/
theorem mem_orderAlerts (order : Nat → Fin 6) (draw : Nat) (a b c : Bool) {k : Nat} (h : k ∈ dueAlerts a b c) :
    k ∈ orderAlerts order draw (dueAlerts a b c) := by
  have hall : ∀ a b c : Bool, ∀ o : Fin 6, ∀ k ∈ dueAlerts a b c, k ∈ orderAlerts (fun _ => o) 0 (dueAlerts a b c) := by
    decide
  exact hall a b c (order draw) k h

theorem alerted_raiseResetAlerts (s : State) (a b c : Bool) {k : Nat} (h : k ∈ dueAlerts a b c) :
    Alerted (resetAlertOf k).1 (resetAlertOf k).2 (s.raiseResetAlerts (dueAlerts a b c)) :=
  alerted_foldl (f := resetAlertOf) resetAlertOf_inj _ _ (.inl (mem_orderAlerts _ _ a b c h))

theorem raiseResetAlerts_none (s : State) :
    s.raiseResetAlerts (dueAlerts false false false) = { s with choices := s.choices + 1 } := rfl

theorem kept_raiseResetAlerts (s : State) (due : List Nat) : Kept E P s (s.raiseResetAlerts due) := by
  refine Kept.trans ?_ (kept_foldl (fun t k => kept_raiseAlert t _ _) _ _)
  exact UnitsKept.kept {}

/-- A field that no alert changes is as before the alerts. -/
theorem raiseResetAlerts_field {α : Type} (f : State → α) (hc : ∀ s k, f { s with choices := k } = f s)
    (ha : ∀ s source code, f (State.raiseAlert s source code) = f s) (s : State) (due : List Nat) :
    f (s.raiseResetAlerts due) = f s := by
  have hfold (l : List Nat) (t : State) :
      f (l.foldl (fun t k => t.raiseAlert (resetAlertOf k).1 (resetAlertOf k).2) t) = f t := by
    induction l generalizing t with
    | nil => rfl
    | cons k rest ih => exact (ih _).trans (ha _ _ _)
  exact (hfold _ _).trans (hc s _)

/-! ## Doing something at every bay -/

theorem mem_allBays (n : BayId) : n ∈ allBays := by revert n; decide

theorem part_bay_mem (n : BayId) : Part.bay n ∈ bayParts := List.mem_map_of_mem (mem_allBays n)

/-- Operations on the bays one after another, each of which changes its own bay alone: a bay ends as its own operation leaves
it. `P` holds what the operations read and leave as it is. -/
theorem forBays_bay {P : State → Prop} {f : BayId → State → State} {g : BayId → Bay → Bay}
    (hP : ∀ n t, P t → P (f n t)) (hf : ∀ n t m, P t → (f n t).bay m = if n = m then g m (t.bay m) else t.bay m)
    {s : State} (hs : P s) (n : BayId) : (s.forBays f).bay n = g n (s.bay n) := by
  have hfold (l : List BayId) (hl : l.Nodup) (t : State) (ht : P t) :
      (l.foldl (fun t n => f n t) t).bay n = if n ∈ l then g n (t.bay n) else t.bay n := by
    induction l generalizing t with
    | nil => rfl
    | cons m rest ih =>
      obtain ⟨hm, hrest⟩ := List.nodup_cons.mp hl
      rw [List.foldl_cons, ih hrest _ (hP m t ht), hf m t n ht]
      by_cases hmn : m = n
      · subst hmn
        simp [hm]
      · simp [hmn, Ne.symm hmn]
  rw [State.forBays, hfold allBays (by decide) s hs, if_pos (mem_allBays n)]

theorem frame_forBays {L : List Part} {f : BayId → State → State} (h : ∀ n t, Frame L t (f n t)) (s : State) :
    Frame L s (s.forBays f) :=
  frame_foldl (fun t n => h n t) _ s

theorem forBays_invariant {P : State → Prop} {f : BayId → State → State} (h : ∀ n t, P t → P (f n t)) {s : State}
    (hs : P s) : P (s.forBays f) := by
  have hfold (l : List BayId) (t : State) (ht : P t) : P (l.foldl (fun t n => f n t) t) := by
    induction l generalizing t with
    | nil => exact ht
    | cons n rest ih => exact ih _ (h n t ht)
  exact hfold _ s hs

/-! ## The end of a line reset -/

theorem frame_leaveStarting (s : State) (n : BayId) : Frame [.bay n] s (s.leaveStarting n) :=
  .ite (fun _ => frame_enterZeroing s n none) (fun _ => .refl _ s)

theorem frame_forBays_leaveStarting (s : State) : Frame bayParts s (s.forBays (fun n t => t.leaveStarting n)) :=
  frame_forBays (fun n t => (frame_leaveStarting t n).mono (by simpa using part_bay_mem n)) s

/-- A bay after the departure from STARTING (R128). -/
def Bay.leftStarting (b : Bay) (leave : Bool) (expiry : Seconds) : Bay :=
  if b.state = .starting ∧ leave = true then b.checking none expiry else b

theorem leaveStarting_bay (s : State) (n m : BayId) : (s.leaveStarting n).bay m =
    if n = m then (s.bay m).leftStarting (s.tablesHeld && !s.stopped) (s.after 40) else s.bay m := by
  unfold State.leaveStarting Bay.leftStarting
  by_cases hm : n = m
  · subst hm
    by_cases hc : (s.bay n).state = .starting ∧ s.tablesHeld = true ∧ s.stopped = false
    · obtain ⟨hstate, htables, hstop⟩ := hc
      simp [hstate, htables, hstop, enterZeroing_bay n none hstop]
    · rw [if_neg hc, if_pos rfl, if_neg (by simpa using hc)]
  · rw [if_neg hm]
    split
    · exact frame_enterZeroing s n none (.bay m) (by simpa using Ne.symm hm)
    · rfl

theorem forBays_leaveStarting_bay (s : State) (n : BayId) : (s.forBays (fun n t => t.leaveStarting n)).bay n =
    (s.bay n).leftStarting (s.tablesHeld && !s.stopped) (s.after 40) := by
  refine forBays_bay (P := fun t => Frame bayParts s t)
    (g := fun n b => b.leftStarting (s.tablesHeld && !s.stopped) (s.after 40)) (fun n t ht => ?_) (fun n t m ht => ?_)
    (.refl _ s) n
  · exact ht.trans ((frame_leaveStarting t n).mono (by simpa using part_bay_mem n))
  · have hrun : t.runState = s.runState := ht .runState (by decide)
    have htables : t.tablesHeld = s.tablesHeld := (ht .settings (by decide)).2.1
    have htime : t.lineSeconds = s.lineSeconds := ht .lineSeconds (by decide)
    rw [leaveStarting_bay]
    simp only [State.stopped, State.after, hrun, htables, htime]

/-- Writing the note slots leaves every field but the store. -/
theorem resetSlots_eq (s : State) : s.resetSlots =
    { s with slotCounts := Vector.ofFn (fun k : SlotId => s.slotCounts[k] + 2#8), mem := s.resetSlots.mem } := by
  have hfold (l : List SlotId) (t : State) :
      l.foldl (fun t k => t.writePlain (slotBase k) (t.slotCounts[k])) t =
        { t with mem := (l.foldl (fun t k => t.writePlain (slotBase k) (t.slotCounts[k])) t).mem } := by
    induction l generalizing t with
    | nil => rfl
    | cons k rest ih =>
      rw [List.foldl_cons, ih]
      rfl
  exact hfold _ _

theorem resetSlots_field {α : Type} (f : State → α)
    (h : ∀ s v m, f { s with slotCounts := v, mem := m } = f s) (s : State) : f s.resetSlots = f s := by
  rw [resetSlots_eq]
  exact h s _ _

end Sys2Proof.Machine
end

