-- ==== Sys2Proof/Proofs/Invariants.lean ====
section
/-! The invariants every step keeps: the form of the store, the free count, the bounds, the even edit counts, the permits, and
what the line computer reads of the records. -/

-- Proofs are checked one after another: the whole text, compiled as one, would otherwise start more threads than fit into the
-- check's memory.
set_option Elab.async false

namespace Sys2Proof.Machine

/-! ## Ejects -/

/-- A transfer to an exit that is taken out of the list and whose source is then told (R157): an eject that ends is the one
its station had begun. -/
theorem ejectsCounted_told {s u : State} {x : ExitTransfer} {rest : List ExitTransfer} (h : EjectsCounted s)
    (hperm : s.exits.Perm (x :: rest)) (k : Kept True True { s with exits := rest } u) :
    EjectsCounted (u.tellSource x.transit) := by
  have hrest (st : StationId) : ejectsOf u st + (if x.transit.source = .station st then 1 else 0) =
      if (u.station st).ejectBegun then 1 else 0 := by
    obtain ⟨hcount, hbegun⟩ := k.ejects trivial st
    have hs : ejectsOf s st = if (s.station st).ejectBegun then 1 else 0 := h st
    rw [hcount, hbegun, show (State.station { s with exits := rest } st) = s.station st from rfl, ← hs]
    have hlen := (hperm.filter (fun y => decide (y.transit.source = .station st))).length_eq
    simp only [ejectsOf, hlen, List.filter_cons]
    by_cases hx : x.transit.source = .station st <;> simp [hx]
  by_cases hst : ∃ st, x.transit.source = .station st
  · obtain ⟨st, hst⟩ := hst
    intro v
    have hv := hrest v
    unfold State.tellSource
    rw [hst] at hv ⊢
    show ejectsOf u v = if ((u.updStation st Station.ejectOver).station v).ejectBegun then 1 else 0
    rw [updStation_eq, station_setStation]
    by_cases hvst : st = v
    · subst hvst
      simp only [if_true, Station.ejectOver, Bool.false_eq_true, if_false] at hv ⊢
      split at hv <;> omega
    · simp only [TransferSource.station.injEq, hvst, if_false, Nat.add_zero] at hv ⊢
      exact hv
  · have hne : True → ∀ st, x.transit.source ≠ .station st := fun _ st hs => hst ⟨st, hs⟩
    have hu : EjectsCounted u := fun st => by
      have := hrest st
      rwa [if_neg (hne trivial st), Nat.add_zero] at this
    exact hu.of_same ((kept_tellSource (P := True) u hne).ejects trivial)

theorem ejectsCounted_endExit {s : State} (h : EjectsCounted s) (exit : Exit) : EjectsCounted (s.endExit exit) := by
  unfold State.endExit
  cases hx : takeExit (fun x => decide (x.exit = exit)) s.exits with
  | none => exact h
  | some r => exact ejectsCounted_told h (takeExit_some hx).2.2.2 (kept_reachExit _ _ _)

theorem ejectsCounted_jamExit {s : State} (h : EjectsCounted s) (source : TransferSource) :
    EjectsCounted (s.jamExit source) := by
  unfold State.jamExit
  cases hx : takeExit (fun x => s.dueFrom source x.transit) s.exits with
  | none => exact h
  | some r =>
    have htold := ejectsCounted_told h (takeExit_some hx).2.2.2 (kept_closeJammed _ r.1.transit.item)
    exact htold.of_same ((kept_outfeedJam (E := True) (P := True) _).ejects trivial)

theorem ejectsCounted_beginEject {s : State} (h : EjectsCounted s) (st : StationId) :
    EjectsCounted (s.beginEject st) := by
  unfold State.beginEject
  split
  · rename_i hready
    obtain ⟨-, hbegun, -⟩ := hready
    split
    · rename_i i exit _ _
      refine EjectsCounted.of_same (s := { s.updStation st (fun x => { x with ejectBegun := true }) with
          exits := s.exits ++ [ExitTransfer.mk (s.newTransit (.entry i) (.station st)) exit] }) (fun v => ?_)
        ((kept_reportBegin (E := True) (P := True) _ _ _).ejects trivial)
      have hv : ejectsOf s v = if (s.station v).ejectBegun then 1 else 0 := h v
      show ejectsOf { s with exits := s.exits ++ [_] } v =
        if ((s.updStation st (fun x => { x with ejectBegun := true })).station v).ejectBegun then 1 else 0
      rw [ejectsOf_append, hv, updStation_eq, station_setStation]
      by_cases hst : st = v
      · subst hst
        simp [State.newTransit, hbegun]
      · simp [State.newTransit, hst]
    · exact h
  · exact h

theorem ejectsCounted_effect {c : Instr} {s u : State} (h : effect c s = some u) (hs : SourcesAgree s)
    (he : EjectsCounted s) : EjectsCounted u := by
  have hdrain (t : State) : EjectsSame t t.drainTest := (kept_drainTest (E := True) (P := True) t).ejects trivial
  by_cases hc : endsEject c
  · cases c <;> try exact hc.elim
    case exitEye e => cases h; exact (ejectsCounted_endExit he e).of_same (hdrain _)
    case ejectBegin st => cases h; exact (ejectsCounted_beginEject he st).of_same (hdrain _)
    case transferJam t =>
      cases h
      refine EjectsCounted.of_same ?_ (hdrain _)
      rcases hc with rfl | ⟨st, rfl⟩
      · exact ejectsCounted_jamExit he _
      · exact ejectsCounted_jamExit he _
  · exact he.of_same ((kept_effect (E := True) (P := True) h fun _ => ⟨hs, hc⟩).ejects trivial)

/-! ## What a step publishes -/

/-- What an operation that a step publishes keeps. -/
structure StepKept (s u : State) : Prop where
  kept : Kept False True s u
  ejects : SourcesAgree s → EjectsCounted s → EjectsCounted u

theorem StepKept.of_kept {s u : State} (h : Kept True True s u) : StepKept s u :=
  ⟨h.weaken False.elim id, fun _ he => he.of_same (h.ejects trivial)⟩

theorem stepKept_effect {c : Instr} {s u : State} (h : effect c s = some u) : StepKept s u :=
  ⟨kept_effect h False.elim, ejectsCounted_effect h⟩

/-- What a command does, by what it keeps: it publishes an operation, writes the store, has no effect, or resets. -/
inductive Shape (c : Instr) (s : State) : State → Prop
  | published {u : State} {b : Bool} (k : StepKept s u)
      (hb : b = true → (commandOf c).isSome = true ∨ (∃ word, c = .unknownCommand word) ∨
        s.justEmptied = true ∧ ((∃ word, c = .overwrite word) ∨
          ∃ a size value, c = .registerWrite a size value ∧ ¬(a = 0x1000C#32 ∧ size = .word))) :
      Shape c s ((s.publish u).markEmptied b)
  | stored (a : Word) (size : AccessSize) (value : Word) (h : c = .registerWrite a size value) (ha : a.toNat < 0x10000) :
      Shape c s (s.storeWrite a.toNat (accessBytes size value))
  | ignored (a : Word) (size : AccessSize) (value : Word) (h : c = .registerWrite a size value)
      (ha : ¬(a = 0x1000C#32 ∧ size = .word)) : Shape c s s
  | lineReset (b : Bool) (h : c = .lineReset b ∨ ∃ a size value, c = .registerWrite a size value) :
      Shape c s { s with interruptEnable := b }.lineReset
  | powerOn (h : c = .powerOnReset) : Shape c s s.powerOnReset

theorem shape_of_exec {c : Instr} {s t : State} (h : exec c s = .next t) : Shape c s t := by
  cases does_of_exec h with
  | event he => exact .published (b := false) (stepKept_effect he) (fun h => by simp at h)
  | command hc ho => exact .published (.of_kept (kept_carry s _ _ (kept_owner ho))) (fun _ => .inl (by simp [hc]))
  | unknown word hc => exact .published (.of_kept (kept_carry s _ _ (fun t => .refl t))) (fun _ => .inr (.inl ⟨word, hc⟩))
  | cmb word hc =>
    refine .published (.of_kept (kept_cmbWrite s word)) (fun hb => .inr ?_)
    simp only [Bool.and_eq_true] at hb
    rcases hc with hc | hc | ⟨a, size, hc, ha⟩
    · exact .inr ⟨hb.1, .inl ⟨word, hc⟩⟩
    · exact .inl ⟨word, hc⟩
    · exact .inr ⟨hb.1, .inr ⟨a, size, word, hc, fun h => ha (by rw [h.1]; rfl)⟩⟩
  | store a size value hc ha => exact .stored a size value hc ha
  | ignored a size value hc ha => exact .ignored a size value hc ha
  | enable a size value _ b =>
    have hk : Kept True True s { s with interruptEnable := b } := UnitsKept.kept {}
    exact .published (b := false) (.of_kept hk) (fun h => by simp at h)
  | lineReset b hc => exact .lineReset b hc
  | powerOn hc => exact .powerOn hc

/-! ## Publishing keeps the invariants -/

theorem Limits.published {s u : State} (h : Limits u) (b : Bool) : Limits ((s.publish u).markEmptied b) := by
  refine ⟨fun l => ?_, h.outfeed, h.claims, h.requests, fun i => by simpa using h.entries i, fun n => ?_,
    by simpa [NotesDistinct, AwaitsNote] using h.notes, ?_⟩
  · show (State.lane (s.publish u) l).queue.length ≤ _ ∧ (State.lane (s.publish u) l).track.length ≤ _
    rw [publish_lane]
    exact h.lanes l
  · show (State.bay (s.publish u) n).checksOwed ≤ 2 ∧ (State.bay (s.publish u) n).failures ≤ 1 ∧
      (State.bay (s.publish u) n).traceIndex < 64 ∧ (State.bay (s.publish u) n).traceCount ≤ 255
    rw [publish_bay]
    exact h.bays n
  · obtain ⟨hbay, hlane, hout, hstation, hexit⟩ := h.sources
    refine ⟨fun n x hx => ?_, fun l x hx => ?_, by simpa using hout, fun st x hx => ?_,
      by simpa using hexit⟩
    · change (State.bay (s.publish u) n).loading = some x at hx
      rw [publish_bay] at hx
      exact hbay n x hx
    · change _ ∈ (State.lane (s.publish u) l).track at hx
      rw [publish_lane] at hx
      exact hlane l x hx
    · change (State.station (s.publish u) st).loading = some x at hx
      rw [publish_station] at hx
      exact hstation st x hx

theorem EjectsCounted.published {s u : State} (h : EjectsCounted u) (b : Bool) :
    EjectsCounted ((s.publish u).markEmptied b) := fun st => by
  show ejectsOf u st = if (State.station (s.publish u) st).ejectBegun then 1 else 0
  rw [publish_station]
  exact h st

theorem PermitsHeld.published {s u : State} (h : PermitsHeld u) (b : Bool) :
    PermitsHeld ((s.publish u).markEmptied b) := fun l => by
  show (State.lane (s.publish u) l).permit = (s.publish u).permitHolds l
  rw [State.permitHolds, publish_lane]
  exact h l

theorem even_nextCount {before after : List Byte} {count : Byte} (h : count.getLsbD 0 = false) :
    (nextCount before after count).getLsbD 0 = false := by
  unfold nextCount
  split
  · exact h
  · exact even_add_two h

theorem publish_lane_editCount (s u : State) (l : LaneId) : ((s.publish u).lane l).editCount =
    nextCount (s.laneBody l) (u.laneBody l) (u.lane l).editCount := by rw [publish_lane]

theorem publish_bay_editCount (s u : State) (n : BayId) : ((s.publish u).bay n).editCount =
    nextCount ((s.bay n).body ++ (s.bay n).traceBytes) ((u.bay n).body ++ (u.bay n).traceBytes) (u.bay n).editCount := by
  rw [publish_bay]

theorem publish_intensifier_editCount (s u : State) (i : IntensifierId) : ((s.publish u).intensifier i).editCount =
    nextCount (s.intensifierBody i) (u.intensifierBody i) (u.intensifier i).editCount := by rw [publish_intensifier]

theorem publish_station_editCount (s u : State) (st : StationId) : ((s.publish u).station st).editCount =
    nextCount (s.stationBody st) (u.stationBody st) (u.station st).editCount := by rw [publish_station]

theorem EvenCounts.published {s u : State} (h : EvenCounts u) (b : Bool) :
    EvenCounts ((s.publish u).markEmptied b) := by
  obtain ⟨hrecords, hslots⟩ := h
  have hlane (l : LaneId) : (u.lane l).editCount.getLsbD 0 = false := hrecords (.lane l)
  have hintensifier (i : IntensifierId) : (u.intensifier i).editCount.getLsbD 0 = false := hrecords (.intensifier i)
  have hstation (st : StationId) : (u.station st).editCount.getLsbD 0 = false := hrecords (.station st)
  have hbay (n : BayId) : ((s.publish u).bay n).editCount.getLsbD 0 = false := by
    have hcount : (u.bay n).editCount.getLsbD 0 = false := hrecords (.bay n)
    rw [publish_bay_editCount]
    exact even_nextCount hcount
  refine ⟨fun r => ?_, fun k => by simpa using hslots k⟩
  cases r with
  | header =>
    have hheader : u.headerCount.getLsbD 0 = false := hrecords .header
    show (nextCount s.outfeedFields u.outfeedFields u.headerCount).getLsbD 0 = false
    exact even_nextCount hheader
  | lane l =>
    show (State.lane (s.publish u) l).editCount.getLsbD 0 = false
    rw [publish_lane_editCount]
    exact even_nextCount (hlane l)
  | intensifier i =>
    show (State.intensifier (s.publish u) i).editCount.getLsbD 0 = false
    rw [publish_intensifier_editCount]
    exact even_nextCount (hintensifier i)
  | station st =>
    show (State.station (s.publish u) st).editCount.getLsbD 0 = false
    rw [publish_station_editCount]
    exact even_nextCount (hstation st)
  | bay n => exact hbay n
  | trace n => exact hbay n
  | entry i =>
    show ((s.publish u).entry i).editCount.getLsbD 0 = false
    rw [publish_entry]
    exact hrecords (.entry i)

/-! ## The resets -/

/-- The state of a line reset before the note slots are written. -/
def State.resetBase (s : State) : State :=
  { State.reset with
    pending := s.pending
    runState := if s.tablesHeld && s.date.isSome then .ready else .awaitingTables
    eStopInput := s.eStopInput
    lineSeconds := s.lineSeconds
    busReadData := s.busReadData
    interruptPulses := s.interruptPulses
    mem := clearRecords s.mem
    headerCount := s.headerCount + 2#8
    slotCounts := s.slotCounts
    settings := s.settings
    types := s.types
    typeMask := s.typeMask
    templates := s.templates
    templateMask := s.templateMask
    tablesHeld := s.tablesHeld
    firstBad := s.firstBad
    date := s.date
    roster := Vector.ofFn (fun i : RosterIndex => Entry.freeEntry ((s.entry i).editCount + 2#8))
    laneA := Lane.reset (s.laneA.editCount + 2#8)
    laneB := Lane.reset (s.laneB.editCount + 2#8)
    bays := Vector.ofFn (fun n : BayId => (s.bay n).afterLineReset)
    intensifier1 := Intensifier.afterReset (s.intensifier1.editCount + 2#8) s.intensifier1.faultInput
    intensifier2 := Intensifier.afterReset (s.intensifier2.editCount + 2#8) s.intensifier2.faultInput
    stamper := s.stamper.afterReset (s.stamper.editCount + 2#8)
    defacer := s.defacer.afterReset (s.defacer.editCount + 2#8)
    guardClosed := s.guardClosed
    choices := s.choices }

theorem resetBlocks_eq_resetSlots (s : State) : s.resetBlocks = s.resetBase.resetSlots := rfl

/-- The state of a power-on before its alerts. -/
def State.powerOnBase (s : State) : State :=
  { State.reset with
    pending := s.pending
    eStopInput := s.eStopInput
    mem := clearRecords s.mem
    bays := Vector.ofFn (fun n : BayId => (s.bay n).afterPowerOn)
    intensifier1 := Intensifier.afterReset 0#8 s.intensifier1.faultInput
    intensifier2 := Intensifier.afterReset 0#8 s.intensifier2.faultInput
    stamper := s.stamper.afterReset 0#8
    defacer := s.defacer.afterReset 0#8
    guardClosed := s.guardClosed
    busReadData := s.busReadData
    interruptPulses := s.interruptPulses
    choices := s.choices }

theorem powerOnReset_eq (s : State) : s.powerOnReset =
    s.powerOnBase.raiseResetAlerts (dueAlerts false s.intensifier1.faultInput s.intensifier2.faultInput) := rfl

theorem kept_setSlotCounts (s : State) {v : Vector Byte 32}
    (h : EvenCounts s → ∀ k : SlotId, v[k].getLsbD 0 = false) : Kept True True s { s with slotCounts := v } where
  pending := rfl
  board := .of_mem_eq rfl
  counts := ⟨fun _ => rfl, fun _ => rfl, fun _ => rfl, fun _ => rfl⟩
  even k := ⟨k.1, h k⟩
  free := id
  limits h := ⟨h.lanes, h.outfeed, h.claims, h.requests, h.entries, h.bays, h.notes, h.sources⟩
  ejects _ _ := ⟨rfl, rfl⟩
  permits _ := id

theorem kept_resetSlots (s : State) : Kept True True s s.resetSlots :=
  (kept_setSlotCounts s fun h k => by simpa using even_add_two (h.2 k)).trans
    (kept_foldl (fun t k => kept_writePlain t k (o := 0) _ (by omega)) _ _)

theorem kept_endReset (s : State) : Kept True False s s.endReset := by
  unfold State.endReset
  have hreaders : Kept True False s s.readersLeaveOff := UnitsKept.kept {}
  cases s.runState with
  | ready => exact .ite (fun _ => hreaders.trans (kept_setRunState _ _)) (fun _ => hreaders)
  | awaitingTables | running | stopping | eStopped => exact .refl s

/-- A line reset keeps, from its blocks on, what every operation keeps. -/
theorem kept_lineReset (s : State) : Kept True False s.resetBase s.lineReset :=
  ((((kept_resetSlots _).weaken id (fun _ => trivial)).trans (kept_endReset _)).trans (kept_raiseResetAlerts _ _)).trans
    (kept_forBays (fun n t => kept_leaveStarting t n) _)

theorem kept_powerOnReset (s : State) : Kept True True s.powerOnBase s.powerOnReset := kept_raiseResetAlerts _ _

theorem resetBase_bay (s : State) (n : BayId) : s.resetBase.bay n = (s.bay n).afterLineReset := bay_ofFn _ n

theorem resetBase_entry (s : State) (i : RosterIndex) :
    s.resetBase.entry i = Entry.freeEntry ((s.entry i).editCount + 2#8) := entry_ofFn _ i

theorem powerOnBase_bay (s : State) (n : BayId) : s.powerOnBase.bay n = (s.bay n).afterPowerOn := bay_ofFn _ n

theorem powerOnBase_entry (s : State) (i : RosterIndex) : s.powerOnBase.entry i = Entry.freeEntry 0#8 := by
  simp [State.powerOnBase, State.entry, State.reset]

/-- A state as a reset leaves it: empty queues, FREE entries, bays at their reset, no transfer and no note. -/
structure Cleared (s : State) : Prop where
  lanes : ∀ l, (s.lane l).queue = [] ∧ (s.lane l).track = []
  outfeed : s.outfeedQueue = []
  exits : s.exits = []
  claims : s.claims = []
  requests : s.requests = []
  expect : s.expect = []
  entries : ∀ i, ∃ count, s.entry i = Entry.freeEntry count
  freeCount : s.freeCount = 48
  bays : ∀ n, (s.bay n).checksOwed ≤ 2 ∧ (s.bay n).failures = 0 ∧ (s.bay n).traceIndex = 0 ∧ (s.bay n).traceCount = 0 ∧
    (s.bay n).loading = none
  stations : ∀ st, (s.station st).ejectBegun = false ∧ (s.station st).loading = none

theorem Cleared.limits {s : State} (h : Cleared s) : Limits s where
  lanes l := by simp [(h.lanes l).1, (h.lanes l).2]
  outfeed := by simp [h.outfeed]
  claims := by simp [h.claims]
  requests := by simp [h.requests]
  entries i := by
    obtain ⟨count, hi⟩ := h.entries i
    simp [hi, Entry.freeEntry]
  bays n := by
    obtain ⟨howed, hfail, hindex, hcount, -⟩ := h.bays n
    simp [howed, hfail, hindex, hcount]
  notes := by simp [NotesDistinct, h.expect]
  sources := by
    refine ⟨fun n x hx => ?_, fun l x hx => ?_, fun x hx => ?_, fun st x hx => ?_, fun x hx => ?_⟩
    · simp [(h.bays n).2.2.2.2] at hx
    · simp [(h.lanes l).2] at hx
    · simp [h.outfeed] at hx
    · simp [(h.stations st).2] at hx
    · simp [h.exits] at hx

theorem Cleared.ejectsCounted {s : State} (h : Cleared s) : EjectsCounted s := fun st => by
  simp [h.exits, (h.stations st).1]

theorem Cleared.freeCounted {s : State} (h : Cleared s) : FreeCounted s := by
  have hfree (i : RosterIndex) : (s.entry i).state = .free := by
    obtain ⟨count, hi⟩ := h.entries i
    rw [hi]; rfl
  rw [FreeCounted, h.freeCount, State.countFree]
  simp [hfree]

theorem cleared_resetBase (s : State) : Cleared s.resetBase where
  lanes l := by cases l <;> exact ⟨rfl, rfl⟩
  outfeed := rfl
  exits := rfl
  claims := rfl
  requests := rfl
  expect := rfl
  entries i := ⟨_, resetBase_entry s i⟩
  freeCount := rfl
  bays n := by
    rw [resetBase_bay]
    refine ⟨?_, rfl, rfl, rfl, rfl⟩
    simp only [Bay.afterLineReset]
    split <;> decide
  stations st := by cases st <;> exact ⟨rfl, rfl⟩

theorem cleared_powerOnBase (s : State) : Cleared s.powerOnBase where
  lanes l := by cases l <;> exact ⟨rfl, rfl⟩
  outfeed := rfl
  exits := rfl
  claims := rfl
  requests := rfl
  expect := rfl
  entries i := ⟨_, powerOnBase_entry s i⟩
  freeCount := rfl
  bays n := by
    rw [powerOnBase_bay]
    exact ⟨Nat.le_refl 2, rfl, rfl, rfl, rfl⟩
  stations st := by cases st <;> exact ⟨rfl, rfl⟩

theorem even_resetBase {s : State} (h : EvenCounts s) : EvenCounts s.resetBase := by
  refine ⟨fun r => ?_, h.2⟩
  cases r with
  | header => exact even_add_two (h.1 .header)
  | lane l =>
    cases l with
    | a => exact even_add_two (h.1 (.lane .a))
    | b => exact even_add_two (h.1 (.lane .b))
  | intensifier i =>
    cases i with
    | one => exact even_add_two (h.1 (.intensifier .one))
    | two => exact even_add_two (h.1 (.intensifier .two))
  | station st =>
    cases st with
    | stamper => exact even_add_two (h.1 (.station .stamper))
    | defacer => exact even_add_two (h.1 (.station .defacer))
  | bay n =>
    show (s.resetBase.bay n).editCount.getLsbD 0 = false
    rw [resetBase_bay]
    exact even_add_two (h.1 (.bay n))
  | trace n =>
    show (s.resetBase.bay n).editCount.getLsbD 0 = false
    rw [resetBase_bay]
    exact even_add_two (h.1 (.bay n))
  | entry i =>
    show (s.resetBase.entry i).editCount.getLsbD 0 = false
    rw [resetBase_entry]
    exact even_add_two (h.1 (.entry i))

theorem even_zero : (0#8).getLsbD 0 = false := by decide

theorem even_powerOnBase (s : State) : EvenCounts s.powerOnBase := by
  refine ⟨fun r => ?_, fun k => by simp [State.powerOnBase, State.reset]⟩
  cases r with
  | header => exact even_zero
  | lane l => cases l <;> exact even_zero
  | intensifier i => cases i <;> exact even_zero
  | station st => cases st <;> exact even_zero
  | bay n =>
    show (s.powerOnBase.bay n).editCount.getLsbD 0 = false
    rw [powerOnBase_bay]
    exact even_zero
  | trace n =>
    show (s.powerOnBase.bay n).editCount.getLsbD 0 = false
    rw [powerOnBase_bay]
    exact even_zero
  | entry i =>
    show (s.powerOnBase.entry i).editCount.getLsbD 0 = false
    rw [powerOnBase_entry]
    exact even_zero

/-- The permits are off where the run state is not RUNNING. -/
theorem permitsHeld_of_not_running {s : State} (hr : s.runState ≠ .running) (hp : ∀ l, (s.lane l).permit = false) :
    PermitsHeld s := fun l => by
  simp [PermitSet, State.permitHolds, hr, hp l]

theorem endReset_permits {s : State} (hr : s.runState ≠ .running) (hp : ∀ l, (s.lane l).permit = false) :
    PermitsHeld s.endReset := by
  unfold State.endReset
  split
  · split
    · exact permitsHeld_of_not_running (by simp [State.setRunState, State.headerEdit]) hp
    · exact permitsHeld_of_not_running (by simp_all [State.readersLeaveOff]) hp
  all_goals exact permitsHeld_of_not_running hr hp

theorem lineReset_permits (s : State) : PermitsHeld s.lineReset := by
  have hslots (l : LaneId) : s.resetBlocks.lane l = s.resetBase.lane l :=
    resetSlots_field (fun t => t.lane l) (fun _ _ _ => by cases l <;> rfl) s.resetBase
  have hrun : s.resetBlocks.runState = s.resetBase.runState :=
    resetSlots_field State.runState (fun _ _ _ => rfl) s.resetBase
  have hend : PermitsHeld s.resetBlocks.endReset := by
    refine endReset_permits ?_ fun l => ?_
    · rw [hrun]
      simp only [State.resetBase]
      split <;> simp
    · rw [hslots]
      cases l <;> rfl
  have halerts := (kept_raiseResetAlerts (E := True) (P := True) s.resetBlocks.endReset
    (dueAlerts (s.eStopInput && s.tablesHeld && s.date.isSome) s.intensifier1.faultInput
      s.intensifier2.faultInput)).permits trivial hend
  exact (kept_forBays (E := True) (P := True) (fun n t => kept_leaveStarting t n) _).permits trivial halerts

theorem powerOnReset_permits (s : State) : PermitsHeld s.powerOnReset :=
  (kept_powerOnReset s).permits trivial (permitsHeld_of_not_running (by simp [State.powerOnBase, State.reset])
    fun l => by cases l <;> rfl)

/-! ## The store after a reset -/

/-- A cell of the store that is as one outside the records is: nothing the line computer wrote into a record. -/
def PlainCells (mem : List Host.Cell) : Prop := ∀ a, recordAt a ≠ none → Memory.lookup mem a = none

theorem mem_clearRecords {mem : List Host.Cell} {c : Host.Cell} (h : c ∈ clearRecords mem) :
    c ∈ mem ∧ recordAt c.1 = none := by
  simp only [clearRecords, List.mem_filter, Bool.and_eq_true, decide_eq_true_eq] at h
  exact ⟨h.1, h.2.1⟩

theorem plainCells_clearRecords (mem : List Host.Cell) : PlainCells (clearRecords mem) := fun _ ha =>
  lookup_eq_none fun _ hc heq => ha (heq ▸ (mem_clearRecords hc).2)

theorem PlainCells.board {s t : State} (h : PlainCells s.mem) (k : BoardOnly s t) : PlainCells t.mem := fun a ha =>
  (k.2.2 a ha).trans (h a ha)

/-- With nothing of the line computer's in the records, the line computer reads them as the RQ4 holds them. -/
theorem storeByte_of_plainCells {s : State} (h : PlainCells s.mem) {a : Nat} {r : Record} (hr : recordAt a = some r) :
    s.storeByte a = (s.recordBytes r).getD (a - r.base) 0x00#8 := by
  rw [State.storeByte, h a (by simp [hr]), State.unlistedByte, hr]
  rfl

/-- The store of a state made of cleared cells is in its canonical form, and stays so under writes of the note board. -/
theorem memWf_of_cleared {s u t : State} (hs : s.memWf = true) (hu : u.mem = clearRecords s.mem) (k : BoardOnly u t) :
    t.memWf = true := by
  rw [memWf_iff] at hs ⊢
  refine ⟨k.1 (hu ▸ rising_filter (fun c => _) hs.1), fun c hc => ?_⟩
  rcases k.2.1 c hc with hm | ⟨hr, ha, hb⟩
  · rw [hu] at hm
    obtain ⟨hm, hr⟩ := mem_clearRecords hm
    obtain ⟨ha, hb⟩ := hs.2 c hm
    refine ⟨ha, ?_⟩
    simpa [State.unlistedByte, hr] using hb
  · refine ⟨ha, ?_⟩
    simpa [State.unlistedByte, hr] using hb

/-! ## The host's writes of the store -/

/-- A write of bytes into the store changes the list of cells alone. -/
theorem storeWrite_eq (s : State) (a : Nat) (l : List Byte) : s.storeWrite a l =
    { s with mem := (s.storeWrite a l).mem } := by
  induction l generalizing s a with
  | nil => rfl
  | cons b rest ih =>
    rw [State.storeWrite, ih]
    unfold State.pokeByte
    split <;> rfl

theorem memWf_storeWrite {s : State} (h : s.memWf = true) (a : Nat) (l : List Byte) : (s.storeWrite a l).memWf = true := by
  induction l generalizing s a with
  | nil => exact h
  | cons b rest ih => exact ih (memWf_pokeByte a b h) (a + 1)

theorem endReset_justEmptied (s : State) : s.endReset.justEmptied = s.justEmptied := by
  unfold State.endReset
  split
  · split <;> rfl
  all_goals rfl

theorem lineReset_justEmptied (s : State) : s.lineReset.justEmptied = false := by
  have hslots : s.resetBlocks.justEmptied = false :=
    resetSlots_field State.justEmptied (fun _ _ _ => rfl) s.resetBase
  have halerts (due : List Nat) : (s.resetBlocks.endReset.raiseResetAlerts due).justEmptied = false := by
    rw [raiseResetAlerts_field State.justEmptied (fun _ _ => rfl) (fun _ _ _ => rfl), endReset_justEmptied, hslots]
  refine forBays_invariant (P := fun t => t.justEmptied = false) (fun n t ht => ?_) (halerts _)
  unfold State.leaveStarting State.enterZeroing State.beginCheck
  dsimp only
  split
  · split <;> exact ht
  · exact ht

/-! ## The settled statements -/

/-- Settles O3. -/
theorem everyCommandCompletes : Obligations.EveryCommandCompletes := by
  intro c s
  obtain ⟨t, ht, -⟩ := exec_does c s
  refine ⟨t, ht, ?_⟩
  cases shape_of_exec ht with
  | published k hb => exact ⟨k.kept.pending, hb⟩
  | stored a size value hc ha =>
    rw [storeWrite_eq]
    refine ⟨rfl, fun hj => .inr (.inr ⟨hj, .inr ⟨a, size, value, hc, fun h => ?_⟩⟩)⟩
    rw [h.1] at ha
    exact absurd ha (by decide)
  | ignored a size value hc ha => exact ⟨rfl, fun hj => .inr (.inr ⟨hj, .inr ⟨a, size, value, hc, ha⟩⟩)⟩
  | lineReset b _ =>
    exact ⟨(kept_lineReset _).pending, fun hj => by rw [lineReset_justEmptied] at hj; simp at hj⟩
  | powerOn _ =>
    refine ⟨(kept_powerOnReset s).pending, fun hj => ?_⟩
    rw [powerOnReset_eq, raiseResetAlerts_field State.justEmptied (fun _ _ => rfl) (fun _ _ _ => rfl)] at hj
    cases hj

/-- Settles O4. -/
theorem storeFormKept : Obligations.StoreFormKept := by
  intro s t hs h
  obtain rfl | ⟨c, queue, hx⟩ := step_next h
  · exact hs
  have hq : ({ s with pending := queue } : State).memWf = true := hs
  cases shape_of_exec hx with
  | published k _ => exact memWf_publish hq k.kept.board
  | stored a size value _ _ => exact memWf_storeWrite hq _ _
  | ignored => exact hs
  | lineReset b _ => exact memWf_of_cleared hq rfl (kept_lineReset _).board
  | powerOn _ => exact memWf_of_cleared hq rfl (kept_powerOnReset _).board

/-- Settles O5. -/
theorem boundsKept : Obligations.BoundsKept := by
  intro s t hs h
  obtain rfl | ⟨c, queue, hx⟩ := step_next h
  · exact hs
  rw [bounded_iff] at hs ⊢
  obtain ⟨hlimits, hejects⟩ := hs
  have hl : Limits { s with pending := queue } := ⟨hlimits.lanes, hlimits.outfeed, hlimits.claims, hlimits.requests,
    hlimits.entries, hlimits.bays, hlimits.notes, hlimits.sources⟩
  have he : EjectsCounted { s with pending := queue } := hejects
  cases shape_of_exec hx with
  | published k _ => exact ⟨(k.kept.limits hl).published _, (k.ejects hl.sources he).published _⟩
  | stored a size value _ _ =>
    rw [storeWrite_eq]
    exact ⟨⟨hl.lanes, hl.outfeed, hl.claims, hl.requests, hl.entries, hl.bays, hl.notes, hl.sources⟩, he⟩
  | ignored => exact ⟨hl, he⟩
  | lineReset b _ =>
    have hc := cleared_resetBase { s with pending := queue, interruptEnable := b }
    exact ⟨(kept_lineReset _).limits hc.limits, hc.ejectsCounted.of_same ((kept_lineReset _).ejects trivial)⟩
  | powerOn _ =>
    have hc := cleared_powerOnBase { s with pending := queue }
    exact ⟨(kept_powerOnReset _).limits hc.limits, hc.ejectsCounted.of_same ((kept_powerOnReset _).ejects trivial)⟩

/-- Settles O6. -/
theorem freeCountKept : Obligations.FreeCountKept := by
  intro s t hs h
  obtain rfl | ⟨c, queue, hx⟩ := step_next h
  · exact hs
  have hq : FreeCounted { s with pending := queue } := hs
  cases shape_of_exec hx with
  | published k _ => exact k.kept.free hq
  | stored a size value _ _ => rw [storeWrite_eq]; exact hq
  | ignored => exact hq
  | lineReset b _ => exact (kept_lineReset _).free (cleared_resetBase _).freeCounted
  | powerOn _ => exact (kept_powerOnReset _).free (cleared_powerOnBase _).freeCounted

theorem even_step {s t : State} (hs : EvenCounts s) (h : step s = .next t) : EvenCounts t := by
  obtain rfl | ⟨c, queue, hx⟩ := step_next h
  · exact hs
  have hq : EvenCounts { s with pending := queue } := ⟨hs.1, hs.2⟩
  cases shape_of_exec hx with
  | published k _ => exact (k.kept.even hq).published _
  | stored a size value _ _ => rw [storeWrite_eq]; exact ⟨hs.1, hs.2⟩
  | ignored => exact hq
  | lineReset b _ => exact (kept_lineReset _).even (even_resetBase ⟨hs.1, hs.2⟩)
  | powerOn _ => exact (kept_powerOnReset _).even (even_powerOnBase _)

theorem permitsHeld_step {s t : State} (hs : PermitsHeld s) (h : step s = .next t) : PermitsHeld t := by
  obtain rfl | ⟨c, queue, hx⟩ := step_next h
  · exact hs
  have hq : PermitsHeld { s with pending := queue } := hs
  cases shape_of_exec hx with
  | published k _ => exact (k.kept.permits trivial hq).published _
  | stored a size value _ _ => rw [storeWrite_eq]; exact hq
  | ignored => exact hq
  | lineReset b _ => exact lineReset_permits _
  | powerOn _ => exact powerOnReset_permits _

end Sys2Proof.Machine
end

