-- ==== Sys2Proof/Proofs/Whole.lean ====
section
/-! The whole of a step, what it shows the line computer of the records, and the invariants after power-on. -/

-- Proofs are checked one after another: the whole text, compiled as one, would otherwise start more threads than fit into the
-- check's memory.
set_option Elab.async false

namespace Sys2Proof.Machine

/-! ## Command words -/

theorem setWidth_commandWord (code : Byte) (arg : BitVec 24) : (commandWord code arg).setWidth 24 = arg := by
  apply BitVec.eq_of_toNat_eq
  have harg := arg.isLt
  simp only [commandWord, BitVec.toNat_setWidth, BitVec.toNat_append]
  rw [← Nat.shiftLeft_add_eq_or_of_lt harg, Nat.shiftLeft_eq]
  omega

/-- A command is taken from its own command word (R167, R182). -/
theorem commandOfWord_commandWord {c : Instr} {code : Byte} {arg : BitVec 24} (h : commandOf c = some (code, arg)) :
    commandOfWord (commandWord code arg) = c := by
  unfold commandOfWord
  rw [commandCode_commandWord, setWidth_commandWord]
  cases c <;> simp only [commandOf, Option.some.injEq, Prod.mk.injEq, reduceCtorEq] at h
  all_goals obtain ⟨rfl, rfl⟩ := h; rfl

theorem commandOfWord_unlisted {word : Word} (h : commandCode word ∉ listedCodes) :
    commandOfWord word = .unknownCommand word := by
  unfold commandOfWord
  split
  case h_17 => rfl
  all_goals
    rename_i hcode
    rw [hcode] at h
    exact absurd (by decide) h

/-! ## What publishing leaves of a record's content -/

theorem publish_laneBody (s u : State) (l : LaneId) : (s.publish u).laneBody l = u.laneBody l := by
  simp only [State.laneBody, State.laneClaim, publish_lane, publish_reader, publish_claims]

theorem body_of_bare {b c : Bay} (h : b.bare = c.bare) : b.body = c.body :=
  show b.bare.body = c.bare.body from congrArg Bay.body h

theorem traceBytes_of_bare {b c : Bay} (h : b.bare = c.bare) : b.traceBytes = c.traceBytes :=
  show b.bare.traceBytes = c.bare.traceBytes from congrArg Bay.traceBytes h

theorem publish_bay_body (s u : State) (n : BayId) : ((s.publish u).bay n).body = (u.bay n).body :=
  body_of_bare (publish_bay_bare s u n)

theorem publish_bay_traceBytes (s u : State) (n : BayId) : ((s.publish u).bay n).traceBytes = (u.bay n).traceBytes :=
  traceBytes_of_bare (publish_bay_bare s u n)

theorem publish_intensifierBody (s u : State) (i : IntensifierId) :
    (s.publish u).intensifierBody i = u.intensifierBody i := by
  simp only [State.intensifierBody, publish_intensifier, publish_requests]

theorem publish_stationBody (s u : State) (st : StationId) : (s.publish u).stationBody st = u.stationBody st := by
  simp only [State.stationBody, publish_station, publish_guardClosed, Station.shownLimit]

theorem length_bay_body (b : Bay) : b.body.length = 0x3F := by
  unfold Bay.body
  simp only [List.length_append, length_leBytes, length_optBytes, length_optSigned, length_optTime,
    List.length_replicate]

/-- The edit counts of the block records after a step that publishes (R163). -/
theorem counts_publish {s u : State} (h : SameCounts s u) :
    (∀ l, ((s.publish u).lane l).editCount =
      if s.laneBody l = (s.publish u).laneBody l then (s.lane l).editCount else (s.lane l).editCount + 2#8) ∧
    (∀ n, ((s.publish u).bay n).editCount =
      if (s.bay n).body = ((s.publish u).bay n).body ∧ (s.bay n).traceBytes = ((s.publish u).bay n).traceBytes then
        (s.bay n).editCount
      else (s.bay n).editCount + 2#8) ∧
    (∀ i, ((s.publish u).intensifier i).editCount =
      if s.intensifierBody i = (s.publish u).intensifierBody i then (s.intensifier i).editCount
      else (s.intensifier i).editCount + 2#8) ∧
    ∀ st, ((s.publish u).station st).editCount =
      if s.stationBody st = (s.publish u).stationBody st then (s.station st).editCount
      else (s.station st).editCount + 2#8 := by
  obtain ⟨hlane, hbay, hintensifier, hstation⟩ := h
  refine ⟨fun l => ?_, fun n => ?_, fun i => ?_, fun st => ?_⟩
  · rw [publish_lane_editCount, publish_laneBody, hlane, nextCount]
  · have hsplit : (s.bay n).body ++ (s.bay n).traceBytes = (u.bay n).body ++ (u.bay n).traceBytes ↔
        (s.bay n).body = (u.bay n).body ∧ (s.bay n).traceBytes = (u.bay n).traceBytes :=
      ⟨fun h => List.append_inj h (by rw [length_bay_body, length_bay_body]), fun h => by rw [h.1, h.2]⟩
    rw [publish_bay_editCount, publish_bay_body, publish_bay_traceBytes, hbay, nextCount]
    exact if_congr hsplit rfl rfl
  · rw [publish_intensifier_editCount, publish_intensifierBody, hintensifier, nextCount]
  · rw [publish_station_editCount, publish_stationBody, hstation, nextCount]

/-! ## Permits -/

theorem permitHolds_iff (s : State) (l : LaneId) : s.permitHolds l = true ↔
    s.runState = .running ∧ (s.lane l).state = .normal ∧ (s.lane l).queue.length < s.work.almostFull l ∧
      2 < s.freeCount := by
  simp [State.permitHolds, Config.permitReserve, and_assoc]
  exact fun _ _ _ => decide_eq_true_iff

/-! ## The state after power-on -/

theorem cleared_reset : Cleared State.reset where
  lanes l := by cases l <;> exact ⟨rfl, rfl⟩
  outfeed := rfl
  exits := rfl
  claims := rfl
  requests := rfl
  expect := rfl
  entries i := ⟨0#8, by simp [State.entry, State.reset]⟩
  freeCount := rfl
  bays n := by
    have hbay : State.reset.bay n = Bay.powerOn := by simp [State.bay, State.reset]
    rw [hbay]
    exact ⟨Nat.le_refl 2, rfl, rfl, rfl, rfl⟩
  stations st := by cases st <;> exact ⟨rfl, rfl⟩

theorem reset_bay (n : BayId) : State.reset.bay n = Bay.powerOn := by simp [State.bay, State.reset]

theorem reset_entry (i : RosterIndex) : State.reset.entry i = Entry.freeEntry 0#8 := by
  simp [State.entry, State.reset]

theorem reset_editCount (r : Record) : State.reset.editCount r = 0#8 := by
  cases r with
  | header => rfl
  | lane l => cases l <;> rfl
  | intensifier i => cases i <;> rfl
  | station st => cases st <;> rfl
  | bay n => simp only [State.editCount, reset_bay]; rfl
  | trace n => simp only [State.editCount, reset_bay]; rfl
  | entry i => simp only [State.editCount, reset_entry]; rfl

theorem even_reset : EvenCounts State.reset :=
  ⟨fun r => by rw [reset_editCount]; rfl, fun k => by simp [State.reset]⟩

theorem permitsHeld_reset : PermitsHeld State.reset :=
  permitsHeld_of_not_running (by simp [State.reset]) fun l => by cases l <;> rfl

/-! ## The settled statements -/

/-- Settles O1. -/
theorem queueStep : Obligations.QueueStep :=
  ⟨fun _ _ _ h => step_cons h,
    fun s h hf => by rw [step_nil h, idleStep, if_pos hf],
    fun s h hf => by rw [step_nil h, idleStep, hf]; rfl,
    fun _ _ _ h => commandOfWord_commandWord h, fun _ h => commandOfWord_unlisted h⟩

/-- Settles O7. -/
theorem invariantsAtReset : Obligations.InvariantsAtReset :=
  ⟨rfl, (bounded_iff _).2 ⟨cleared_reset.limits, cleared_reset.ejectsCounted⟩, cleared_reset.freeCounted, even_reset⟩

/-- After a reset the line computer reads the records as the RQ4 holds them (R164). -/
theorem storeByte_after_reset {c : Instr} {s t : State} (h : exec c s = .next t)
    (hc : c = .powerOnReset ∨ ∃ enable, c = .lineReset enable) {a : Nat} {r : Record} (hr : recordAt a = some r) :
    t.storeByte a = (t.recordBytes r).getD (a - r.base) 0x00#8 := by
  rcases hc with rfl | ⟨enable, rfl⟩
  · obtain rfl : s.powerOnReset = t := Host.Outcome.next.inj h
    exact storeByte_of_plainCells ((plainCells_clearRecords s.mem).board (kept_powerOnReset s).board) hr
  · obtain rfl : ({ s with interruptEnable := enable } : State).lineReset = t := Host.Outcome.next.inj h
    exact storeByte_of_plainCells ((plainCells_clearRecords s.mem).board (kept_lineReset _).board) hr

/-- Settles O8: what a step publishes is what its operation leaves of the note board and of the edit counts. -/
theorem recordsPublished : Obligations.RecordsPublished := by
  refine ⟨fun c s t h => ?_, fun c s t a r h hr => ?_, fun s t hs h => even_step hs h, fun c s t h => ?_⟩
  · cases shape_of_exec h with
    | published k _ =>
      have hpublished := published_publish k.kept.board
      split
      · trivial
      · trivial
      · trivial
      · exact hpublished
    | stored _ _ _ hc _ => subst hc; trivial
    | ignored _ _ _ hc _ => subst hc; trivial
    | lineReset _ hc => rcases hc with rfl | ⟨_, _, _, rfl⟩ <;> trivial
    | powerOn hc => subst hc; trivial
  · split
    · exact storeByte_after_reset h (.inl rfl) hr
    · exact storeByte_after_reset h (.inr ⟨_, rfl⟩) hr
    · trivial
  · cases shape_of_exec h with
    | published k _ =>
      have hcounts := counts_publish k.kept.counts
      split
      · trivial
      · trivial
      · trivial
      · exact hcounts
    | stored _ _ _ hc _ => subst hc; trivial
    | ignored _ _ _ hc _ => subst hc; trivial
    | lineReset _ hc => rcases hc with rfl | ⟨_, _, _, rfl⟩ <;> trivial
    | powerOn hc => subst hc; trivial

/-- Settles O20. -/
theorem permitConditions : Obligations.PermitConditions := by
  refine ⟨fun s l => ?_, fun s t hs h => permitsHeld_step hs h, permitHolds_iff,
    fun w => ⟨rfl, rfl, rfl, rfl⟩, permitsHeld_reset⟩
  have hpermit : (s.evalPermits.lane l).permit = s.permitHolds l := by cases l <;> rfl
  rw [hpermit, permitHolds_iff]

end Sys2Proof.Machine
end

