-- ==== Sys2Proof/Proofs/Mailbox.lean ====
section
/-! The registers: CTL, CMB and NMB, the notice list, and what the command unit does with a word that has no owner. -/

-- Proofs are checked one after another: the whole text, compiled as one, would otherwise start more threads than fit into the
-- check's memory.
set_option Elab.async false

namespace Sys2Proof.Machine

/-! ## Frames of the registers -/

/-- A frame with fewer parts: those left out are the same. -/
theorem Frame.of_same {L M : List Part} {s t : State} (h : Frame L s t) (k : ∀ p ∈ L, p ∉ M → Same p s t) : Frame M s t :=
  fun p hp => if hL : p ∈ L then k p hL hp else h p hL

/-- The registers the port and the command unit write belong to parts of their own. -/
theorem frame_registers (s : State) (word busReadData : Word) (full overwrite alert enable : Bool)
    (pulses choices : Nat) :
    Frame [.mailbox, .overwriteFlag, .alertSeen, .interruptEnable, .busReadData, .interruptPulses, .choices] s
      { s with
        cmbWord := word
        cmbFull := full
        overwriteFlag := overwrite
        alertSeen := alert
        interruptEnable := enable
        busReadData := busReadData
        interruptPulses := pulses
        choices := choices } := by
  intro p hp
  cases p
  case store => exact .of_mem_eq rfl
  all_goals first
    | rfl
    | exact ⟨rfl, rfl⟩
    | exact ⟨rfl, rfl, rfl⟩
    | exact absurd (by decide) hp

theorem frame_setInterruptEnable (s : State) (enable : Bool) :
    Frame [.interruptEnable] s { s with interruptEnable := enable } :=
  (frame_registers s _ _ _ _ _ enable _ _).of_same (by simp [Same])

theorem frame_setOverwriteFlag (s : State) (overwrite : Bool) :
    Frame [.overwriteFlag] s { s with overwriteFlag := overwrite } :=
  (frame_registers s _ _ _ overwrite _ _ _ _).of_same (by simp [Same])

theorem frame_storeWord (s : State) (word : Word) : Frame [.mailbox] s (s.storeWord word) :=
  (frame_registers s word _ true _ _ _ _ _).of_same (by simp [Same])

theorem frame_setBusReadData (s : State) (word : Word) : Frame [.busReadData] s { s with busReadData := word } :=
  (frame_registers s _ word _ _ _ _ _ _).of_same (by simp [Same])

/-! ## CTL (R171, R172) -/

theorem exec_ctlWrite (value : Word) (s : State) : exec (.registerWrite 0x1000C#32 .word value) s =
    .next (if value.getLsbD 31 then { s with interruptEnable := value.getLsbD 0 }.lineReset
      else s.publish { s with interruptEnable := value.getLsbD 0 }) := rfl

theorem gives_enable {c : Instr} {s : State} {enable : Bool}
    (h : exec c s = .next (s.publish { s with interruptEnable := enable })) :
    Gives c s fun t => t.interruptEnable = enable ∧ t.interruptOutput = (s.nmb.isSome && enable) ∧
      Frame [.interruptEnable] s t :=
  ⟨_, h, by simp, by simp [State.interruptOutput], (frame_setInterruptEnable s enable).publish⟩

/-- Settles O12. -/
theorem controlWrites : Obligations.ControlWrites := by
  refine ⟨fun enable s => gives_enable rfl, fun value s h => gives_enable ?_, fun _ => rfl, fun value s h => ?_⟩
  · rw [exec_ctlWrite, if_neg (by rw [h]; decide)]
  · rw [exec_ctlWrite, if_pos h]
    rfl

/-! ## CMB (R165, R168) -/

/-- Both commands that write CMB. -/
theorem exec_cmbStep {c : Instr} {word : Word} (s : State)
    (h : c = .overwrite word ∨ c = .registerWrite 0x10000#32 .word word) : exec c s = .next (s.cmbStep word) := by
  rcases h with rfl | rfl <;> rfl

theorem hostRead_cmb (s : State) : s.hostRead 0x10000 .word = s.cmbWord := rfl

theorem cmbStep_full {s : State} (word : Word) (h : s.cmbFull = true) :
    s.cmbStep word = (s.publish { s with overwriteFlag := true }).markEmptied false := by
  simp [State.cmbStep, cmbWrite_full word h, h]

theorem cmbStep_empty {s : State} (word : Word) (h : s.cmbFull = false) (hj : s.justEmptied = false) :
    s.cmbStep word = (s.publish (s.storeWord word)).markEmptied false := by
  simp [State.cmbStep, cmbWrite_empty word h hj, hj]

/-- A write right behind a command: discarded, CMB staying empty, or stored. -/
theorem cmbStep_racing {s : State} (word : Word) (h : s.cmbFull = false) (hj : s.justEmptied = true) :
    s.cmbStep word = (s.publish { s with choices := s.choices + 1, overwriteFlag := true }).markEmptied true ∨
      s.cmbStep word = (s.publish ({ s with choices := s.choices + 1 }.storeWord word)).markEmptied false := by
  unfold State.cmbStep
  rcases cmbWrite_racing word h hj with hw | hw
  · left; rw [hw, hj]; simp [h]
  · right; rw [hw, hj]; simp [State.storeWord]

theorem frame_racing_discarded (s : State) :
    Frame [.mailbox, .overwriteFlag, .choices] s { s with choices := s.choices + 1, overwriteFlag := true } :=
  (frame_registers s _ _ _ true _ _ _ _).of_same (by simp [Same])

theorem frame_racing_stored (s : State) (word : Word) :
    Frame [.mailbox, .overwriteFlag, .choices] s ({ s with choices := s.choices + 1 }.storeWord word) :=
  (frame_registers s word _ true _ _ _ _ _).of_same (by simp [Same])

/-- Settles O13. -/
theorem mailboxWrites : Obligations.MailboxWrites := by
  intro word s c hc
  refine ⟨fun h => ?_, fun h hj => ?_, fun h hj => ?_⟩
  · refine ⟨_, exec_cmbStep s hc, ?_⟩
    rw [cmbStep_full word h]
    refine ⟨by simp, by simp [hostRead_cmb], (frame_setOverwriteFlag s true).publish.markEmptied _⟩
  · refine ⟨_, exec_cmbStep s hc, ?_⟩
    rw [cmbStep_empty word h hj]
    refine ⟨by simp [State.storeWord], by simp [State.storeWord], by simp [hostRead_cmb, State.storeWord],
      by simp [State.storeWord], by simp [State.storeWord], rfl, (frame_storeWord s word).publish.markEmptied _⟩
  · refine ⟨_, exec_cmbStep s hc, ?_⟩
    rcases cmbStep_racing word h hj with hw | hw
    · rw [hw]
      exact ⟨by simp, by simp, .inl ⟨by simp, by simp, by simpa using h, rfl⟩,
        (frame_racing_discarded s).publish.markEmptied _⟩
    · rw [hw]
      exact ⟨by simp [State.storeWord], by simp [State.storeWord],
        .inr ⟨by simp [State.storeWord], by simp [State.storeWord], by simp [State.storeWord], rfl⟩,
        (frame_racing_stored s word).publish.markEmptied _⟩

/-! ## NMB (R170, R171) -/

/-- With NMB empty the oldest notice of the list moves in (R170). -/
theorem withNotices_of_empty {s : State} (l : List Notice) (h : s.nmb = none) :
    (s.withNotices l).nmb = l.head? ∧ (s.withNotices l).notices = l.tail := by
  unfold State.withNotices
  rw [h]
  cases l <;> exact ⟨rfl, rfl⟩

/-- With NMB full the notices wait in the list (R169). -/
theorem withNotices_of_full {s : State} (l : List Notice) {x : Notice} (h : s.nmb = some x) :
    (s.withNotices l).nmb = some x ∧ (s.withNotices l).notices = l := by
  unfold State.withNotices
  rw [h]
  exact ⟨rfl, rfl⟩

/-- The state in which a full NMB has been read, before the next notice moves in. -/
def State.taken (s : State) (x : Notice) : State :=
  { s with
    busReadData := x.word
    nmb := none
    interruptPulses := s.interruptPulses + s.pulses.toNat }

theorem nmbRead_full {s : State} {x : Notice} (h : s.nmb = some x) :
    s.nmbRead = (s.taken x).withNotices s.notices := by
  unfold State.nmbRead
  rw [h]
  rfl

theorem nmbRead_empty {s : State} (h : s.nmb = none) : s.nmbRead = { s with busReadData := 0#32 } := by
  unfold State.nmbRead
  rw [h]
  rfl

theorem frame_taken (s : State) (x : Notice) :
    Frame [.busReadData, .notices, .interruptPulses] s (s.taken x) := by
  intro p hp
  cases p
  case store => exact .of_mem_eq rfl
  all_goals first
    | rfl
    | exact ⟨rfl, rfl⟩
    | exact ⟨rfl, rfl, rfl⟩
    | exact ⟨rfl, rfl, rfl, rfl⟩
    | exact absurd (by decide) hp

/-- Settles O15. -/
theorem noticeRead : Obligations.NoticeRead := by
  constructor
  · intro x s h
    have hx : exec .nmbRead s = .next (s.publish s.nmbRead) := rfl
    rw [nmbRead_full h] at hx
    obtain ⟨hnmb, hnotices⟩ := withNotices_of_empty (s := s.taken x) s.notices rfl
    have hpulses : (s.taken x).interruptPulses = s.interruptPulses + s.pulses.toNat := rfl
    refine ⟨_, hx, ?_, ?_, ?_, ?_, ?_, ?_⟩
    · rw [publish_busReadData]; rfl
    · rw [publish_nmb, hnmb]
    · rw [publish_notices, hnotices]
    · simp only [State.interruptOutput, publish_nmb, publish_interruptEnable, hnmb]
      show (s.notices.head?.isSome && s.interruptEnable) = _
      cases s.notices <;> rfl
    · rw [publish_interruptPulses]
      show s.interruptPulses + s.pulses.toNat = _
      unfold State.pulses
      cases s.interruptEnable <;> cases s.notices <;> simp
    · exact ((frame_taken s x).trans ((frame_withNotices _ _).mono (by simp))).publish
  · intro s h
    have hx : exec .nmbRead s = .next (s.publish s.nmbRead) := rfl
    rw [nmbRead_empty h] at hx
    exact ⟨_, hx, by simp, (frame_setBusReadData s 0#32).publish⟩

/-- An alert whose source has none waiting is appended (R169). -/
theorem mergeAlert_of_none {source : Nat} (code : AlertCode) {l : List Notice} (h : ∀ k, .alert source k ∉ l) :
    mergeAlert source code l = l ++ [.alert source code] := by
  refine if_neg fun hany => ?_
  obtain ⟨y, hy, hsource⟩ := List.any_eq_true.mp hany
  cases y with
  | alert src k =>
    simp only [Notice.isAlertOf, decide_eq_true_eq] at hsource
    exact h k (hsource ▸ hy)
  | outcome i c r => simp [Notice.isAlertOf] at hsource

/-- A waiting alert of the source has its code replaced in place (R169). -/
theorem mergeAlert_of_waiting {source : Nat} (code k : AlertCode) {l r : List Notice}
    (h : ∀ j, .alert source j ∉ l ++ r) :
    mergeAlert source code (l ++ .alert source k :: r) = l ++ .alert source code :: r := by
  have hother {y : Notice} (hy : y ∈ l ++ r) : y.isAlertOf source = false := by
    cases y with
    | alert src j =>
      refine decide_eq_false fun hsource => ?_
      exact h j (hsource ▸ hy)
    | outcome i c r => rfl
  have hkeep {m : List Notice} (hm : m ⊆ l ++ r) :
      m.map (fun x => if x.isAlertOf source then Notice.alert source code else x) = m := by
    conv_rhs => rw [← List.map_id m]
    exact List.map_congr_left fun y hy => by simp [hother (hm hy)]
  unfold mergeAlert
  rw [if_pos (by simp [Notice.isAlertOf]), List.map_append, List.map_cons, hkeep (by simp), hkeep (by simp)]
  simp [Notice.isAlertOf]

/-- Settles O16. -/
theorem noticeList : Obligations.NoticeList := by
  refine ⟨fun s x h => ⟨fun i code reason => ?_, fun source code hnone => ?_, fun source code k l r hl hother => ?_⟩,
    fun s h hl => ⟨fun i code reason => ?_, fun source code => ?_⟩⟩
  · obtain ⟨hnmb, hnotices⟩ := withNotices_of_full (s.notices ++ [.outcome i code reason]) h
    exact ⟨hnotices, hnmb⟩
  · obtain ⟨-, hnotices⟩ := withNotices_of_full (mergeAlert source code s.notices) h
    exact ⟨hnotices.trans (mergeAlert_of_none code hnone), rfl⟩
  · obtain ⟨-, hnotices⟩ := withNotices_of_full (mergeAlert source code s.notices) h
    exact ⟨hnotices.trans (hl ▸ mergeAlert_of_waiting code k hother), rfl⟩
  · obtain ⟨hnmb, hnotices⟩ := withNotices_of_empty (s.notices ++ [.outcome i code reason]) h
    rw [hl] at hnmb hnotices
    unfold State.raiseOutcome
    rw [hl]
    exact ⟨hnmb, hnotices⟩
  · obtain ⟨hnmb, hnotices⟩ := withNotices_of_empty (mergeAlert source code s.notices) h
    rw [hl] at hnmb hnotices
    exact ⟨(congrArg (fun l => (s.withNotices (mergeAlert source code l)).nmb) hl).trans hnmb,
      (congrArg (fun l => (s.withNotices (mergeAlert source code l)).notices) hl).trans hnotices, rfl⟩

/-! ## Commands with no owner, and CLEAR STATUS (R166, R168) -/

theorem commandStep_blocked {s : State} {word : Word} (h : s.cmbBlocked word = true) (exempt : Bool)
    (owner : State → State × ResultCode) :
    s.commandStep word exempt owner = (s.publish { s with overwriteFlag := true }).markEmptied false := by
  simp [State.commandStep, State.carry, h]

/-- A command that is taken, with its owner's answer. -/
theorem commandStep_taken {s : State} {word : Word} (h : s.cmbBlocked word = false) {exempt : Bool}
    {owner : State → State × ResultCode} {u : State} {result : ResultCode}
    (hx : (s.withCommand word).consult exempt owner = (u, result)) :
    s.commandStep word exempt owner =
      (s.publish (u.completed (BitVec.ofNat 8 (commandCode word)) result)).markEmptied true := by
  simp [State.commandStep, State.carry, h, hx]

theorem ofNat_commandCode (code : Byte) (arg : BitVec 24) :
    BitVec.ofNat 8 (commandCode (commandWord code arg)) = code := by
  rw [commandCode_commandWord]
  simp

/-- Settles O17. -/
theorem commandsTurnedAway : Obligations.CommandsTurnedAway := by
  constructor
  · intro c code arg s hc hblocked
    obtain ⟨owner, -, hx⟩ := exec_command hc
    refine ⟨_, hx s, ?_⟩
    rw [commandStep_blocked hblocked]
    exact ⟨by simp, (frame_setOverwriteFlag s true).publish.markEmptied _⟩
  · intro c code arg s hc hexempt hblocked hrun
    obtain ⟨owner, -, hx⟩ := exec_command hc
    have hconsult : (s.withCommand (commandWord code arg)).consult (exemptCode code) owner =
        (s.withCommand (commandWord code arg), .notReady) := by
      rw [hexempt]
      exact if_pos ⟨hrun, rfl⟩
    refine ⟨_, hx s, ?_⟩
    rw [commandStep_taken hblocked hconsult, ofNat_commandCode]
    exact answeredOnly_refl s code arg .notReady

theorem frame_clearStatus (s : State) :
    Frame [.overwriteFlag, .alertSeen] s { s with overwriteFlag := false, alertSeen := false } :=
  (frame_registers s _ _ _ false false _ _ _).of_same (by simp [Same])

/-- CLEAR STATUS, taken. -/
theorem exec_clearStatus {arg : BitVec 24} {s : State} (h : s.cmbBlocked (commandWord 0x05#8 arg) = false) :
    exec (.clearStatus arg) s = .next ((s.publish
      ({ s.withCommand (commandWord 0x05#8 arg) with overwriteFlag := false, alertSeen := false }.completed
        0x05#8 .accepted)).markEmptied true) := by
  have hconsult : (s.withCommand (commandWord 0x05#8 arg)).consult true State.clearStatusResult =
      ({ s.withCommand (commandWord 0x05#8 arg) with overwriteFlag := false, alertSeen := false }, .accepted) :=
    if_neg (by simp)
  show execClearStatus arg s = _
  rw [execClearStatus, commandStep_taken h hconsult, ofNat_commandCode]

theorem answered_clearStatus (arg : BitVec 24) (s : State) :
    Answered 0x05#8 arg .accepted ((s.publish
      ({ s.withCommand (commandWord 0x05#8 arg) with overwriteFlag := false, alertSeen := false }.completed
        0x05#8 .accepted)).markEmptied true) :=
  answered_of_frame .accepted (frame_clearStatus _) (by simp)

/-- Settles O18. -/
theorem statusCommands : Obligations.StatusCommands := by
  refine ⟨fun word s hcode hblocked => ?_, fun arg s hblocked => ?_, fun arg word s t hblocked ht => ?_⟩
  · have hconsult : (s.withCommand word).consult true State.unknownResult = (s.withCommand word, .unknownCommand) :=
      if_neg (by simp)
    have hx : exec (.unknownCommand word) s = .next (s.commandStep word true State.unknownResult) := by
      show execUnknownCommand word s = _
      rw [execUnknownCommand, if_neg (by simpa using hcode)]
    have hlt : commandCode word < 0x100 := by
      unfold commandCode
      rw [BitVec.toNat_ushiftRight, Nat.shiftRight_eq_div_pow]
      have := word.isLt
      omega
    refine ⟨_, hx, ?_⟩
    rw [commandStep_taken hblocked hconsult]
    refine ⟨by simp [State.withCommand], rfl, ?_, rfl, rfl, frame_command (.refl [] _) _ _ _⟩
    show (BitVec.ofNat 8 (commandCode word)).toNat = _
    rw [BitVec.toNat_ofNat]
    exact Nat.mod_eq_of_lt hlt
  · exact ⟨_, exec_clearStatus hblocked, answered_clearStatus arg s, by simp, by simp,
      frame_command (frame_clearStatus _) _ _ _⟩
  · obtain rfl := Host.Outcome.next.inj ((exec_clearStatus hblocked).symm.trans ht)
    generalize hu : (s.publish
      ({ s.withCommand (commandWord 0x05#8 arg) with overwriteFlag := false, alertSeen := false }.completed
        0x05#8 .accepted)).markEmptied true = u
    have hanswer : Answered 0x05#8 arg .accepted u := hu ▸ answered_clearStatus arg s
    have hflag : u.overwriteFlag = false := by rw [← hu]; simp
    obtain ⟨hword, hfull, hlast, hresult, hjust⟩ := hanswer
    refine ⟨_, exec_cmbStep u (.inl rfl), ?_⟩
    rcases cmbStep_racing word hfull hjust with hw | hw
    · rw [hw]
      exact .inl ⟨by simp, by simp [hword], by simp [hfull], by simp [hlast], by simp [hresult], rfl⟩
    · rw [hw]
      exact .inr ⟨by simp [State.storeWord, hflag], by simp [State.storeWord], by simp [State.storeWord]⟩

end Sys2Proof.Machine
end

