-- ==== Sys2Proof/Proofs/Owners.lean ====
section
/-! What a command of the command list gives, from its owner's answer; and the permits after an effect. -/

-- Proofs are checked one after another: the whole text, compiled as one, would otherwise start more threads than fit into the
-- check's memory.
set_option Elab.async false

namespace Sys2Proof.Machine

/-! ## A command and its owner's answer (R166) -/

section

variable {c : Instr} {code : Byte} {arg : BitVec 24} {owner : State → State × ResultCode} {s u : State}
  {result : ResultCode} {L : List Part}

/-- A command that is taken ends with its owner's answer. -/
theorem exec_owner (hc : commandOf c = some (code, arg)) (ho : ownerOf c = some owner)
    (hb : s.cmbBlocked (commandWord code arg) = false) (hr : exemptCode code = true ∨ s.runState ≠ .awaitingTables)
    (hu : owner (s.withCommand (commandWord code arg)) = (u, result)) :
    exec c s = .next ((s.publish (u.completed code result)).markEmptied true) := by
  obtain ⟨owner', ho', hx⟩ := exec_command hc
  obtain rfl : owner = owner' := Option.some.inj (ho.symm.trans ho')
  have hconsult : (s.withCommand (commandWord code arg)).consult (exemptCode code) owner = (u, result) := by
    unfold State.consult
    rw [if_neg (fun h => hr.elim (fun he => by simp [he] at h) (fun hne => hne h.1)), hu]
  rw [hx, commandStep_taken hb hconsult, ofNat_commandCode]

/-- A command that is taken: what it answers in STAT, and what it changes. -/
theorem commanded (hc : commandOf c = some (code, arg)) (ho : ownerOf c = some owner)
    (hb : s.cmbBlocked (commandWord code arg) = false) (hr : exemptCode code = true ∨ s.runState ≠ .awaitingTables)
    (hu : owner (s.withCommand (commandWord code arg)) = (u, result))
    (hf : Frame L (s.withCommand (commandWord code arg)) u) (hm : .mailbox ∉ L) :
    exec c s = .next ((s.publish (u.completed code result)).markEmptied true) ∧
      Answered code arg result ((s.publish (u.completed code result)).markEmptied true) ∧
      Frame (.mailbox :: L) s ((s.publish (u.completed code result)).markEmptied true) :=
  ⟨exec_owner hc ho hb hr hu, answered_of_frame result hf hm, frame_command hf code result true⟩

/-- A command that is heard. -/
theorem heard_command (hc : commandOf c = some (code, arg)) (ho : ownerOf c = some owner) (hh : Heard code arg s)
    (hu : owner (s.withCommand (commandWord code arg)) = (u, result))
    (hf : Frame L (s.withCommand (commandWord code arg)) u) (hm : .mailbox ∉ L) :
    exec c s = .next ((s.publish (u.completed code result)).markEmptied true) ∧
      Answered code arg result ((s.publish (u.completed code result)).markEmptied true) ∧
      Frame (.mailbox :: L) s ((s.publish (u.completed code result)).markEmptied true) :=
  commanded hc ho hh.1 (.inr hh.2) hu hf hm

/-- A command that is taken and whose owner does nothing. -/
theorem answered_only (hc : commandOf c = some (code, arg)) (ho : ownerOf c = some owner)
    (hb : s.cmbBlocked (commandWord code arg) = false) (hr : exemptCode code = true ∨ s.runState ≠ .awaitingTables)
    (hu : owner (s.withCommand (commandWord code arg)) = (s.withCommand (commandWord code arg), result)) :
    Gives c s (AnsweredOnly code arg result s) :=
  ⟨_, exec_owner hc ho hb hr hu, answeredOnly_refl s code arg result⟩

/-- A command that is heard and whose owner does nothing. -/
theorem heard_only (hc : commandOf c = some (code, arg)) (ho : ownerOf c = some owner) (hh : Heard code arg s)
    (hu : owner (s.withCommand (commandWord code arg)) = (s.withCommand (commandWord code arg), result)) :
    Gives c s (AnsweredOnly code arg result s) :=
  answered_only hc ho hh.1 (.inr hh.2) hu

end

/-! ## What a frame keeps, read off -/

section

variable {L : List Part} {s t : State}

theorem Frame.runState_eq (h : Frame L s t) (hp : .runState ∉ L) : t.runState = s.runState := h .runState hp

theorem Frame.lineSeconds_eq (h : Frame L s t) (hp : .lineSeconds ∉ L) : t.lineSeconds = s.lineSeconds :=
  h .lineSeconds hp

theorem Frame.after_eq (h : Frame L s t) (hp : .lineSeconds ∉ L) (k : Nat) : t.after k = s.after k := by
  rw [State.after, State.after, h.lineSeconds_eq hp]

theorem Frame.work_eq (h : Frame L s t) (hp : .settings ∉ L) : t.work = s.work :=
  congrArg (fun w : Option Settings => w.getD Settings.unset) (h .settings hp).1

theorem Frame.bay_eq (h : Frame L s t) {n : BayId} (hp : .bay n ∉ L) : t.bay n = s.bay n := h (.bay n) hp

theorem Frame.claims_eq (h : Frame L s t) (hp : .claims ∉ L) : t.claims = s.claims := h .claims hp

theorem Frame.requests_eq (h : Frame L s t) (hp : .requests ∉ L) : t.requests = s.requests := h .requests hp

theorem Frame.releases_eq (h : Frame L s t) (hp : .releases ∉ L) : t.releases = s.releases := h .releases hp

theorem Frame.lane_bare_eq (h : Frame L s t) {l : LaneId} (hp : .lane l ∉ L) : (t.lane l).bare = (s.lane l).bare :=
  h (.lane l) hp

theorem Frame.reader_eq (h : Frame L s t) {l : LaneId} (hp : .reader l ∉ L) : t.reader l = s.reader l :=
  h (.reader l) hp

end

/-! ## The permits after an effect (R71) -/

theorem publish_permitHolds (s u : State) (l : LaneId) : (s.publish u).permitHolds l = u.permitHolds l := by
  unfold State.permitHolds
  rw [publish_runState, publish_lane, publish_work, publish_freeCount]

theorem evalPermits_lane (s : State) (l : LaneId) :
    s.evalPermits.lane l = { s.lane l with permit := s.permitHolds l } := by
  cases l <;> rfl

theorem evalPermits_permitHolds (s : State) (l : LaneId) : s.evalPermits.permitHolds l = s.permitHolds l := by
  cases l <;> rfl

/-- Lanes that agree but for their counts agree with a permit set in both. -/
theorem Lane.bare_setPermit {x y : Lane} (h : x.bare = y.bare) (p : Bool) :
    ({ x with permit := p } : Lane).bare = ({ y with permit := p } : Lane).bare :=
  show ({ x.bare with permit := p } : Lane) = { y.bare with permit := p } by rw [h]

theorem permitOnly_evalPermits {s v : State} {l : LaneId} (h : (v.lane l).bare = (s.lane l).bare) :
    PermitOnly l s v.evalPermits := by
  unfold PermitOnly
  rw [evalPermits_lane, evalPermits_permitHolds]
  exact Lane.bare_setPermit h _

theorem PermitOnly.publish {l : LaneId} {s u : State} (h : PermitOnly l s u) : PermitOnly l s (s.publish u) := by
  unfold PermitOnly at h ⊢
  rw [publish_lane_bare, publish_permitHolds]
  exact h

theorem PermitOnly.of_frame {L : List Part} {l : LaneId} {s t u : State} (h : PermitOnly l s t) (k : Frame L t u)
    (hlane : .lane l ∉ L) (hrun : .runState ∉ L) (hset : .settings ∉ L) (hfree : .freeCount ∉ L) :
    PermitOnly l s u := by
  have hbare : (u.lane l).bare = (t.lane l).bare := k (.lane l) hlane
  have hstate : (u.lane l).bare.state = (t.lane l).bare.state := congrArg Lane.state hbare
  have hqueue : (u.lane l).bare.queue = (t.lane l).bare.queue := congrArg Lane.queue hbare
  have hwork : u.work = t.work := congrArg (fun w : Option Settings => w.getD Settings.unset) (k .settings hset).1
  have hholds : u.permitHolds l = t.permitHolds l := by
    unfold State.permitHolds
    rw [show u.runState = t.runState from k .runState hrun, show (u.lane l).state = (t.lane l).state from hstate,
      show (u.lane l).queue = (t.lane l).queue from hqueue, hwork, show u.freeCount = t.freeCount from k .freeCount hfree]
  unfold PermitOnly at h ⊢
  rw [hbare, hholds]
  exact h

/-- The permits at the end of a command. -/
theorem PermitOnly.command {l : LaneId} {s u : State} (h : PermitOnly l s u) (code : Byte) (result : ResultCode) :
    PermitOnly l s ((s.publish (u.completed code result)).markEmptied true) := by
  have hc : PermitOnly l s (u.completed code result) :=
    h.of_frame (frame_completed u code result) (by simp) (by simp) (by simp) (by simp)
  exact hc.publish

end Sys2Proof.Machine
end

