-- ==== Sys2Proof/Proofs/RosterRules.lean ====
section
/-! The roster's reports and decisions (R13, R14, R18, R21), and RELEASE ENTRY (R23). -/

-- Proofs are checked one after another: the whole text, compiled as one, would otherwise start more threads than fit into the
-- check's memory.
set_option Elab.async false

namespace Sys2Proof.Machine

/-! ## Match and route decision (R13, R14) -/

theorem dueRule_iff (tag now : Date) (interval : Nat) (force : Bool) : dueRule tag now interval force = true ↔
    tag.months + 12 * interval ≤ now.months ∨ now.months < tag.months ∨ force = true := by
  simp [dueRule, or_assoc]

section

variable {s : State} {note : Note} {e : Entry}

/-- What every match writes. -/
theorem matched_fields (s : State) (note : Note) (e : Entry) :
    (s.matched note e).state = .queued ∧ (s.matched note e).noteSlot = some note.slot ∧
      (s.matched note e).typeCode = some note.typeCode ∧ (s.matched note e).visual = some note.visual ∧
      (s.matched note e).forceTest = note.forceTest := by
  unfold State.matched
  cases s.usableType note.typeCode with
  | none => exact ⟨rfl, rfl, rfl, rfl, rfl⟩
  | some t =>
    cases note.visual with
    | condemn => exact ⟨rfl, rfl, rfl, rfl, rfl⟩
    | accept =>
      dsimp only
      split <;> exact ⟨rfl, rfl, rfl, rfl, rfl⟩

theorem matched_of_unknown (h : s.usableType note.typeCode = none) :
    (s.matched note e).route = some .hold ∧ (s.matched note e).holdReason = some .unknownType ∧
      (s.matched note e).params = e.params ∧ (s.matched note e).verdict = e.verdict := by
  unfold State.matched
  rw [h]
  exact ⟨rfl, rfl, rfl, rfl⟩

theorem matched_params {t : TypeEntry} (h : s.usableType note.typeCode = some t) :
    (s.matched note e).params = some t.params := by
  unfold State.matched
  rw [h]
  cases note.visual with
  | condemn => rfl
  | accept =>
    dsimp only
    split <;> rfl

theorem matched_condemned {t : TypeEntry} (h : s.usableType note.typeCode = some t) (hv : note.visual = .condemn) :
    (s.matched note e).route = some .deface ∧ (s.matched note e).verdict = some (.condemn .visual) ∧
      (s.matched note e).verdictTime = some s.lineSeconds := by
  unfold State.matched
  rw [h, hv]
  exact ⟨rfl, rfl, rfl⟩

section

variable {t : TypeEntry} {tag now : Date}

theorem matched_due (h : s.usableType note.typeCode = some t) (hv : note.visual = .accept) (htag : e.tagDate = some tag)
    (hnow : s.date = some now) (hdue : dueRule tag now t.interval note.forceTest = true) :
    (s.matched note e).route = some .test ∧ (s.matched note e).verdict = e.verdict := by
  unfold State.matched
  rw [h, hv, htag, hnow]
  dsimp only [Option.getD_some]
  rw [if_pos hdue]
  exact ⟨rfl, rfl⟩

theorem matched_not_due (h : s.usableType note.typeCode = some t) (hv : note.visual = .accept)
    (htag : e.tagDate = some tag) (hnow : s.date = some now)
    (hdue : ¬dueRule tag now t.interval note.forceTest = true) :
    (s.matched note e).route = some .passThrough ∧ (s.matched note e).verdict = some .notDue ∧
      (s.matched note e).verdictTime = some s.lineSeconds := by
  unfold State.matched
  rw [h, hv, htag, hnow]
  dsimp only [Option.getD_some]
  rw [if_neg hdue]
  exact ⟨rfl, rfl, rfl⟩

end

end

/-- Settles O27. -/
theorem routeDecision : Obligations.RouteDecision := by
  refine ⟨fun s c => ⟨fun h => if_pos h, fun h => if_neg (by rw [h]; decide)⟩, fun _ => rfl,
    fun s note e tag now htag hnow => ⟨matched_fields s note e, fun h => matched_of_unknown h, fun t h => ?_⟩⟩
  exact ⟨matched_params h, fun hv => matched_condemned h hv,
    fun hv hdue => matched_due h hv htag hnow ((dueRule_iff ..).mpr hdue),
    fun hv hdue => matched_not_due h hv htag hnow (fun hd => hdue ((dueRule_iff ..).mp hd))⟩

/-! ## Voids (R18) -/

/-- A void report for a live entry routed TEST is one edit. -/
theorem reportVoid_entry {s : State} {i : RosterIndex} (hlive : (s.entry i).state.live = true)
    (hroute : (s.entry i).route = some .test) (c : VoidCause) (m : Option Measurements) :
    (s.reportVoid i c m).entry i = ((s.entry i).voided s.lineSeconds c m).edited := by
  have hcount : ((s.entry i).voided s.lineSeconds c m).editCount = (s.entry i).editCount := by
    unfold Entry.voided
    cases c.counted with
    | true => dsimp only; rw [if_pos rfl]; split <;> rfl
    | false => rfl
  rw [State.reportVoid, if_pos ⟨hlive, hroute⟩, editEntry_eq, entry_setEntry, if_pos rfl, Entry.edited, hcount]

theorem voided_not_counted {e : Entry} {now : Seconds} {c : VoidCause} {m : Option Measurements} (h : c.counted = false) :
    e.voided now c m = { e with lastVoid := some c, meas := m.getD e.meas } := by
  simp [Entry.voided, h]

theorem voided_counted {e : Entry} {now : Seconds} {c : VoidCause} {m : Option Measurements} (h : c.counted = true)
    (hcount : e.countedVoids < 2) :
    e.voided now c m = { e with lastVoid := some c, meas := m.getD e.meas, countedVoids := e.countedVoids + 1 } := by
  simp [Entry.voided, h, hcount]

theorem voided_exhausted {e : Entry} {now : Seconds} {c : VoidCause} {m : Option Measurements} (h : c.counted = true)
    (hcount : e.countedVoids = 2) :
    e.voided now c m = { e with
      lastVoid := some c
      meas := m.getD e.meas
      verdict := some (.condemn .retestsExhausted)
      verdictTime := some now
      route := some .deface } := by
  simp [Entry.voided, h, hcount]

/-- Every void records its cause and its measurement set. -/
theorem voided_cause (e : Entry) (now : Seconds) (c : VoidCause) (m : Option Measurements) :
    (e.voided now c m).lastVoid = some c ∧ (e.voided now c m).meas = m.getD e.meas ∧
      (e.voided now c m).editCount = e.editCount := by
  unfold Entry.voided
  cases c.counted with
  | true => dsimp only; rw [if_pos rfl]; split <;> exact ⟨rfl, rfl, rfl⟩
  | false => exact ⟨rfl, rfl, rfl⟩

/-- Settles O29. -/
theorem voidReport : Obligations.VoidReport := by
  refine ⟨⟨rfl, rfl⟩, fun s i c m => ⟨fun htesting hroute => ?_, fun hroute => if_neg (fun h => hroute h.2),
    frame_reportVoid s i c m⟩⟩
  have he := reportVoid_entry (s := s) (i := i) (by rw [htesting]; rfl) hroute c m
  obtain ⟨hcause, hmeas, hcount⟩ := voided_cause (s.entry i) s.lineSeconds c m
  dsimp only
  rw [he]
  refine ⟨hcause, hmeas, congrArg (· + 2#8) hcount, fun hc => ?_, fun hc hlt => ?_, fun hc htwo => ?_⟩
  · rw [voided_not_counted hc]
    exact ⟨rfl, hroute, rfl⟩
  · rw [voided_counted hc hlt]
    exact ⟨rfl, hroute, rfl⟩
  · rw [voided_exhausted hc htwo]
    exact ⟨htwo, rfl, rfl, rfl⟩

/-! ## Outcomes (R21) -/

/-- Settles O30. -/
theorem outcomeTable : Obligations.OutcomeTable := by
  intro e
  refine ⟨fun h => ?_, fun h => ?_, fun r h hv => ?_, fun r h hr => ?_⟩
  · simp only [exitOutcome, h]
  · simp only [exitOutcome, h]
  · simp only [exitOutcome, h, hv]
  · simp only [exitOutcome, h, hr, Option.map_some]

/-! ## RELEASE ENTRY (R23, R170) -/

/-- What is left of a filtered list of notices once the oldest may have moved into NMB. -/
theorem withNotices_filter {s : State} {p : Notice → Bool} {l : List Notice} :
    ∀ x ∈ (s.withNotices (l.filter p)).notices, p x = true := by
  intro x hx
  have hmem : x ∈ l.filter p := by
    cases hn : s.nmb with
    | none => exact List.mem_of_mem_tail ((withNotices_of_empty (l.filter p) hn).2 ▸ hx)
    | some y => exact (withNotices_of_full (l.filter p) hn).2 ▸ hx
  exact (List.mem_filter.mp hmem).2

theorem frame_setFreeCount (s : State) (k : Nat) : Frame [.freeCount] s { s with freeCount := k } := by
  intro p hp
  cases p
  case freeCount => simp at hp
  case store => exact .of_mem_eq rfl
  all_goals first | rfl | exact ⟨rfl, rfl⟩ | exact ⟨rfl, rfl, rfl⟩ | exact ⟨rfl, rfl, rfl, rfl⟩

/-- The state in which an entry is FREE again, before its notice is dropped. -/
def State.entryFreed (s : State) (i : RosterIndex) : State :=
  { s.editEntry i (fun _ => Entry.freeEntry 0#8) with freeCount := s.freeCount + 1 }.headerEdit

theorem freeEntry_eq (s : State) (i : RosterIndex) : s.freeEntry i = ((s.entryFreed i).dropOutcome i).evalPermits := rfl

theorem frame_entryFreed (s : State) (i : RosterIndex) : Frame [.entry i, .freeCount] s (s.entryFreed i) :=
  ((frame_editEntry s i _).mono (by simp)).trans
    (((frame_setFreeCount _ _).mono (by simp)).trans ((frame_headerEdit _).mono (by simp)))

theorem frame_freeEntry (s : State) (i : RosterIndex) :
    Frame [.entry i, .freeCount, .notices, .lane .a, .lane .b] s (s.freeEntry i) :=
  ((frame_entryFreed s i).mono (by simp)).trans
    (((frame_withNotices _ _).mono (by simp)).trans ((frame_evalPermits _).mono (by simp)))

theorem freeEntry_entry (s : State) (i : RosterIndex) :
    (s.freeEntry i).entry i = Entry.freeEntry ((s.entry i).editCount + 2#8) := by
  have hbehind : (s.freeEntry i).entry i = (s.editEntry i (fun _ => Entry.freeEntry 0#8)).entry i := by
    rw [freeEntry_eq, evalPermits_entry]
    rfl
  rw [hbehind, editEntry_eq, entry_setEntry, if_pos rfl]
  rfl

theorem indexOfNumber_val {k : Nat} {i : RosterIndex} (h : k = i.val) : indexOfNumber k = some i := by
  subst h
  exact dif_pos i.isLt

/-- Settles O26. -/
theorem releaseEntry : Obligations.ReleaseEntry := by
  intro arg s hh
  refine ⟨fun i hi hdone => ?_, fun i hi hdone => ?_, fun hi => ?_⟩
  · have hu : (s.withCommand (commandWord 0x12#8 arg)).releaseEntryResult arg =
        ((s.withCommand (commandWord 0x12#8 arg)).freeEntry i, .accepted) := by
      unfold State.releaseEntryResult
      rw [indexOfNumber_val hi]
      exact if_pos hdone
    obtain ⟨hx, hanswered, hframe⟩ := heard_command (c := .releaseEntry arg) rfl rfl hh hu (frame_freeEntry _ i) (by simp)
    refine ⟨_, hx, hanswered, ?_, ?_, ?_, ?_, ?_, hframe⟩
    · rw [markEmptied_entry, publish_entry, completed_entry, freeEntry_entry]
      rfl
    · rw [markEmptied_freeCount, publish_freeCount, completed_freeCount]
      rfl
    · intro x hmem
      rw [markEmptied_notices, publish_notices, completed_notices] at hmem
      simpa using withNotices_filter x hmem
    · intro hfull
      obtain ⟨y, hy⟩ := Option.isSome_iff_exists.mp hfull
      obtain ⟨hnmb, hnotices⟩ := withNotices_of_full
        (s := (s.withCommand (commandWord 0x12#8 arg)).entryFreed i) (s.notices.filter (fun x => !x.isOutcomeOf i)) hy
      rw [markEmptied_nmb, publish_nmb, completed_nmb, markEmptied_notices, publish_notices, completed_notices]
      exact ⟨hnmb.trans hy.symm, hnotices⟩
    · intro l
      have hdropped : Frame [.mailbox, .entry i, .freeCount, .notices] s
          (((s.withCommand (commandWord 0x12#8 arg)).entryFreed i).dropOutcome i) :=
        ((frame_withCommand s _).mono (by simp)).trans
          (((frame_entryFreed _ i).mono (by simp)).trans ((frame_withNotices _ _).mono (by simp)))
      exact (permitOnly_evalPermits (hdropped (.lane l) (by simp))).command _ _
  · refine heard_only (c := .releaseEntry arg) rfl rfl hh ?_
    show State.releaseEntryResult _ arg = _
    unfold State.releaseEntryResult
    rw [indexOfNumber_val hi]
    exact if_neg hdone
  · refine heard_only (c := .releaseEntry arg) rfl rfl hh ?_
    show State.releaseEntryResult _ arg = _
    unfold State.releaseEntryResult indexOfNumber
    rw [dif_neg (by omega)]

end Sys2Proof.Machine
end

