-- ==== Sys2Proof/Proofs/ReaderRules.lean ====
section
/-! The receiver in FRAME (R41, R44, R45), its break (R46) and its RETURN (R47). -/

-- Proofs are checked one after another: the whole text, compiled as one, would otherwise start more threads than fit into the
-- check's memory.
set_option Elab.async false

namespace Sys2Proof.Machine

/-! ## The sets of the positions (R41) -/

theorem isDigit_iff (b : Byte) : isDigit b = true ↔ 0x30 ≤ b.toNat ∧ b.toNat ≤ 0x39 := by
  simp only [isDigit, Bool.and_eq_true, decide_eq_true_eq]

theorem isSerialChar_iff (b : Byte) : isSerialChar b = true ↔ SerialChar b := by
  simp only [isSerialChar, Bool.or_eq_true, isDigit_iff, Bool.and_eq_true, decide_eq_true_eq, SerialChar]

section

variable {p : Nat} {taken : List Byte} {b : Byte}

theorem allowedAt_serial (h : p ≤ 13) : allowedAt p taken b = true ↔ SerialChar b := by
  rw [allowedAt, if_pos h, isSerialChar_iff]

theorem allowedAt_year (h : p = 14 ∨ p = 15) : allowedAt p taken b = true ↔ 0x30 ≤ b.toNat ∧ b.toNat ≤ 0x39 := by
  rw [allowedAt, if_neg (by omega), if_pos (by omega), isDigit_iff]

theorem allowedAt_month_tens : allowedAt 16 taken b = true ↔ b = 0x30#8 ∨ b = 0x31#8 := by
  simp [allowedAt]

/-- The units of the month go by its tens, the character taken last. -/
theorem allowedAt_month_units (hlen : taken.length = 15) {tens : Byte} (h : taken.getLast? = some tens) :
    allowedAt 17 taken b = true ↔
      if tens = 0x30#8 then 0x31 ≤ b.toNat ∧ b.toNat ≤ 0x39 else 0x30 ≤ b.toNat ∧ b.toNat ≤ 0x32 := by
  have htens : taken.getD 14 0x00#8 = tens := by
    rw [List.getLast?_eq_getElem?, hlen] at h
    rw [List.getD_eq_getElem?_getD, h]
    rfl
  rw [allowedAt, if_neg (by decide), if_neg (by decide), if_neg (by decide), htens]
  split <;> simp

end

/-- The identity of a good frame (R41). -/
theorem identityOf_append {serial : List Byte} (y1 y0 m1 m0 : Byte) (h : serial.length = 12) :
    identityOf (serial ++ [y1, y0, m1, m0]) =
      ⟨serial, ⟨2000 + (10 * (y1.toNat - 0x30) + (y0.toNat - 0x30)), 10 * (m1.toNat - 0x30) + (m0.toNat - 0x30)⟩⟩ := by
  have hget (k : Nat) (hk : k < 4) : (serial ++ [y1, y0, m1, m0]).getD (12 + k) 0x00#8 = [y1, y0, m1, m0].getD k 0x00#8 := by
    rw [List.getD_append_right _ _ _ _ (by omega), h]
    congr 1
    omega
  unfold identityOf twoDigits
  rw [hget 0 (by omega), hget 1 (by omega), hget 2 (by omega), hget 3 (by omega), List.take_left' h]
  simp only [List.getD_cons_zero, List.getD_cons_succ, Nat.mul_comm 10]

/-! ## A character in FRAME (R44, R45) -/

section

variable {r : Reader} {value : Byte} {stopGood : Bool}

/-- No character is formed in OFF and FAULT (R40, R42). -/
theorem Reader.take_deaf (h : r.state = .off ∨ r.state = .fault) : r.take value stopGood = r := by
  rcases h with h | h <;> simp only [Reader.take, h]

theorem Reader.take_bad_stop (h : r.state = .frame) : r.take value false = r.badFrame := by
  simp only [Reader.take, h, Reader.inFrame, if_true]

theorem Reader.take_allowed (h : r.state = .frame) (hlen : r.frame.length < 16)
    (ha : allowedAt (r.frame.length + 2) r.frame value = true) :
    r.take value true = { r with frame := r.frame ++ [value] } := by
  simp only [Reader.take, h, Reader.inFrame, Bool.true_eq_false, if_false, if_pos hlen, ha, if_true]

/-- A character outside its set breaks the frame, and is then taken in HUNT. -/
theorem Reader.take_not_allowed (h : r.state = .frame) (hlen : r.frame.length < 16)
    (ha : allowedAt (r.frame.length + 2) r.frame value = false) :
    r.take value true = r.badFrame.hunt value true := by
  simp only [Reader.take, h, Reader.inFrame, Bool.true_eq_false, Bool.false_eq_true, if_false, if_pos hlen, ha]

theorem Reader.take_bad_check (h : r.state = .frame) (hlen : 16 ≤ r.frame.length) (hv : value ≠ xorBytes r.frame) :
    r.take value true = r.badFrame := by
  simp only [Reader.take, h, Reader.inFrame, Bool.true_eq_false, if_false, if_neg (Nat.not_lt.mpr hlen), if_neg hv]

end

/-- Settles O32. -/
theorem readerFrame : Obligations.ReaderFrame := by
  refine ⟨⟨fun p taken b _ hp => allowedAt_serial hp, fun p taken b hp => allowedAt_year hp,
    fun taken b => allowedAt_month_tens, fun taken b hlen => ⟨fun h => ?_, fun h => ?_⟩⟩,
    fun serial y1 y0 m1 m0 h => identityOf_append y1 y0 m1 m0 h, fun l value stopGood s => ?_⟩
  · exact allowedAt_month_units hlen h
  · exact allowedAt_month_units hlen h
  · obtain ⟨t, hx, hreader, hframe⟩ :=
      gives_readerCharacter (l := l) (value := value) (stopGood := stopGood) (s := s) rfl
    refine ⟨t, hx, hframe, fun h => hreader.trans (Reader.take_deaf h), fun h => ⟨?_, ?_, ?_, ?_, ?_, ?_⟩⟩
    · rintro rfl
      exact hreader.trans (Reader.take_bad_stop h)
    · rintro rfl hlen ha
      exact hreader.trans (Reader.take_allowed h hlen ha)
    · rintro rfl hlen ha hv
      exact hreader.trans ((Reader.take_not_allowed h hlen ha).trans (if_neg fun hsync => hv hsync.1))
    · rintro rfl hlen ha rfl
      exact hreader.trans (Reader.take_not_allowed h hlen ha)
    · rintro rfl hlen hv
      exact hreader.trans (Reader.take_bad_check h hlen hv)
    · rintro rfl hlen rfl
      exact hreader.trans (Reader.take_good_check h hlen)

/-! ## The break and RETURN (R46, R47) -/

theorem breakReader_listening {s : State} {l : LaneId} (h : (s.reader l).state = .hunt ∨ (s.reader l).state = .frame) :
    s.breakReader l =
      (s.setReader l { s.reader l with state := .fault, frame := [], held := none }).raiseAlert (readerSource l)
        .readerBreak := by
  unfold State.breakReader
  rcases h with h | h <;> rw [h]

theorem breakReader_deaf {s : State} {l : LaneId} (h : (s.reader l).state = .off ∨ (s.reader l).state = .fault) :
    s.breakReader l = s := by
  unfold State.breakReader
  rcases h with h | h <;> rw [h]

/-- The reader's source number leads RETURN to the reader (R167). -/
theorem returnResult_reader (s : State) (l : LaneId) : s.returnResult (readerSource l) = s.returnReader l := by
  cases l <;> rfl

theorem returnReader_faulted {s : State} {l : LaneId} (h : (s.reader l).state = .fault) :
    s.returnReader l = (s.setReader l { s.reader l with state := .hunt }, .accepted) := by
  unfold State.returnReader
  rw [h]

theorem returnReader_other {s : State} {l : LaneId} (h : (s.reader l).state ≠ .fault) :
    s.returnReader l = (s, .wrongState) := by
  unfold State.returnReader
  split
  · exact absurd ‹_› h
  all_goals rfl

/-- Settles O34. -/
theorem readerBreakAndReturn : Obligations.ReaderBreakAndReturn := by
  refine ⟨fun l s => ⟨fun h => ?_, fun h => ?_⟩, fun l arg s hh harg => ⟨fun h => ?_, fun h => ?_⟩⟩
  · have hx : exec (.readerBreak l) s = .next (s.publish (s.breakReader l)) := rfl
    rw [breakReader_listening h] at hx
    refine ⟨_, hx, by simp, (alerted_raiseAlert _ _ _).publish,
      (((frame_setReader s l _).mono (by simp)).trans ((frame_raiseAlert _ _ _).mono (by simp))).publish⟩
  · have hx : exec (.readerBreak l) s = .next (s.publish (s.breakReader l)) := rfl
    rw [breakReader_deaf h] at hx
    exact ⟨_, hx, (Frame.refl [] s).publish⟩
  · have hu : (s.withCommand (commandWord 0x30#8 arg)).returnResult (argByte arg) =
        ((s.withCommand (commandWord 0x30#8 arg)).setReader l { s.reader l with state := .hunt }, .accepted) := by
      rw [harg, returnResult_reader]
      exact returnReader_faulted (s := s.withCommand _) (l := l) (by simpa using h)
    obtain ⟨hx, hanswered, hframe⟩ :=
      heard_command (c := .returnToService arg) rfl rfl hh hu (frame_setReader _ l _) (by simp)
    exact ⟨_, hx, hanswered, by simp, hframe⟩
  · refine heard_only (c := .returnToService arg) rfl rfl hh ?_
    show State.returnResult _ (argByte arg) = _
    rw [harg, returnResult_reader]
    exact returnReader_other (by simpa using h)

end Sys2Proof.Machine
end

