-- ==== Sys2Proof/Proofs/TableRules.lean ====
section
/-! The checks of TAKE TABLES (R26 to R31), and where the tables are read from (R25, R183). -/

-- Proofs are checked one after another: the whole text, compiled as one, would otherwise start more threads than fit into the
-- check's memory.
set_option Elab.async false

namespace Sys2Proof.Machine

/-! ## The first check that fails (R27) -/

/-- The first failure is `j` exactly when the check numbered `j` fails and every check before it passes. -/
theorem firstFailure_eq_some (l : List Bool) (k j : Nat) : firstFailure k l = some j ↔
    ∃ m, j = k + m ∧ l.getD m true = false ∧ ∀ i, i < m → l.getD i true = true := by
  induction l generalizing k with
  | nil => simp [firstFailure]
  | cons c rest ih =>
    cases c with
    | false =>
      constructor
      · rintro ⟨⟩
        exact ⟨0, rfl, rfl, fun i hi => absurd hi (Nat.not_lt_zero i)⟩
      · rintro ⟨m, rfl, -, hbefore⟩
        cases m with
        | zero => rfl
        | succ m => exact absurd (hbefore 0 (Nat.succ_pos m)) (by simp)
    | true =>
      rw [firstFailure, if_pos rfl, ih]
      constructor
      · rintro ⟨m, rfl, hm, hbefore⟩
        refine ⟨m + 1, by omega, hm, fun i hi => ?_⟩
        cases i with
        | zero => rfl
        | succ i => exact hbefore i (by omega)
      · rintro ⟨m, rfl, hm, hbefore⟩
        cases m with
        | zero => simp at hm
        | succ m => exact ⟨m, by omega, hm, fun i hi => hbefore (i + 1) (by omega)⟩

theorem firstFailure_eq_none (l : List Bool) (k : Nat) : firstFailure k l = none ↔ ∀ c ∈ l, c = true := by
  induction l generalizing k with
  | nil => simp [firstFailure]
  | cons c rest ih => cases c <;> simp [firstFailure, ih]

theorem within_iff (low high x : Nat) : within low high x = true ↔ low ≤ x ∧ x ≤ high := by
  simp only [within, Bool.and_eq_true, decide_eq_true_eq]

/-- The roster fit of one entry (R27). -/
theorem fits_iff (w : Settings) (e : Entry) : w.fits e = true ↔
    ∀ p, e.route = some .test → e.params = some p →
      p.holdTime + w.riseLimit + w.settleTime + 120 ≤ w.zeroInterval ∧
        p.holdTime + w.riseLimit + 15 ≤ w.pressurisedLimit := by
  unfold Settings.fits
  split
  · rename_i p hroute hparams
    rw [Bool.and_eq_true, decide_eq_true_eq, decide_eq_true_eq]
    simp [hroute, hparams, Config.allowanceMargin, Config.retuneTime]
  · rename_i hnone
    refine ⟨fun _ p hroute hparams => absurd hparams ?_, fun _ => rfl⟩
    exact fun h => hnone p hroute h

theorem fits_all_iff (s : State) (w : Settings) : (List.finRange 48).all (fun i => w.fits (s.entry i)) = true ↔
    ∀ (i : RosterIndex) (p : Params), (s.entry i).route = some .test → (s.entry i).params = some p →
      p.holdTime + w.riseLimit + w.settleTime + 120 ≤ w.zeroInterval ∧
        p.holdTime + w.riseLimit + 15 ≤ w.pressurisedLimit := by
  simp only [List.all_eq_true, List.mem_finRange, true_imp_iff, fits_iff]

/-- The checks by their numbers (R26, R27). -/
theorem settingOk_iff (s : State) (w : Settings) (m : Nat) :
    SettingOk s w (m + 1) ↔ (s.settingChecks w).getD m true = true := by
  have hempty (low full : Nat) : (within 0 10 low && decide (low < full)) = true ↔ low ≤ 10 ∧ low < full := by
    simp [within]
  match m with
  | 0 => exact Iff.rfl
  | 1 | 2 | 3 | 4 | 5 | 6 | 7 | 8 | 9 => exact (within_iff _ _ _).symm
  | 10 | 11 => exact (hempty _ _).symm
  | 12 => exact (fits_all_iff s w).symm
  | k + 13 => exact ⟨fun _ => rfl, fun _ => trivial⟩

/-! ## Types and templates (R28 to R31) -/

theorem usable_iff (t : TypeEntry) (w : Settings) (usableTemplate : Nat → Bool) : t.usable w usableTemplate = true ↔
    t.defined = true ∧
      ((5 ≤ t.capacity ∧ t.capacity ≤ 800) ∧ (50 ≤ t.testPressure ∧ t.testPressure ≤ 450) ∧
        (10 ≤ t.holdTime ∧ t.holdTime ≤ 300) ∧ (1 ≤ t.elasticLimit ∧ t.elasticLimit ≤ 65000) ∧
        (10 ≤ t.ratioLimit ∧ t.ratioLimit ≤ 300) ∧ (1 ≤ t.dropTolerance ∧ t.dropTolerance ≤ 100) ∧
        (1 ≤ t.interval ∧ t.interval ≤ 15) ∧ t.template ≤ 15 ∧ (1 ≤ t.strikeClass ∧ t.strikeClass ≤ 3)) ∧
      usableTemplate t.template = true ∧ t.holdTime + w.riseLimit + 15 ≤ w.pressurisedLimit ∧
      t.holdTime + w.riseLimit + w.settleTime + 120 ≤ w.zeroInterval := by
  simp only [TypeEntry.usable, TypeEntry.inRange, Bool.and_eq_true, within_iff, decide_eq_true_eq, Nat.zero_le,
    true_and, and_assoc]
  rfl

theorem templateUsable_iff (l : List Byte) : templateUsable l = true ↔
    (∀ b ∈ l, expandedLength b ≠ none) ∧ (1 ≤ templateLength l ∧ templateLength l ≤ 24) ∧ 0x02#8 ∈ l ∧ 0x03#8 ∈ l := by
  simp only [templateUsable, Bool.and_eq_true, within_iff, List.all_eq_true, Option.isSome_iff_ne_none,
    List.contains_iff_mem, and_assoc]

theorem isLiteral_iff (b : Byte) : isLiteral b = true ↔
    b.toNat = 0x20 ∨ (0x2D ≤ b.toNat ∧ b.toNat ≤ 0x2F) ∨ (0x30 ≤ b.toNat ∧ b.toNat ≤ 0x39) ∨
      (0x41 ≤ b.toNat ∧ b.toNat ≤ 0x5A) := by
  simp only [isLiteral, Bool.or_eq_true, Bool.and_eq_true, decide_eq_true_eq]
  omega

/-- A byte that is neither a literal nor a substitution has no expanded length (R30). -/
theorem expandedLength_none {b : Byte} (hl : isLiteral b = false) (hb : b = 0#8 ∨ 6 ≤ b.toNat) :
    expandedLength b = none := by
  have hne (k : Byte) (hk : 0 < k.toNat ∧ k.toNat < 6) : b ≠ k := by
    rintro rfl
    rcases hb with rfl | hb
    · exact absurd hk.1 (by decide)
    · omega
  rw [expandedLength, hl, if_neg (by decide), if_neg (hne _ (by decide)), if_neg (hne _ (by decide)),
    if_neg (hne _ (by decide)), if_neg (hne _ (by decide)), if_neg (hne _ (by decide))]

/-! ## Where the tables stand (R25, R183) -/

/-- The table regions are none of the RQ4's records. -/
theorem recordAt_tables {a : Nat} (h : 0x40 ≤ a ∧ a < 0x100 ∨ 0x380 ≤ a ∧ a < 0x1000) : recordAt a = none := by
  unfold recordAt
  rcases h with h | h
  · rw [if_neg (by omega), if_pos (by omega)]
  · repeat rw [if_neg (by omega)]
    rw [dif_neg (by omega), if_pos (by omega)]

theorem plainByte_tables (s : State) {a : Nat} (h : 0x40 ≤ a ∧ a < 0x100 ∨ 0x380 ≤ a ∧ a < 0x1000) :
    s.plainByte a = s.storeByte a :=
  (storeByte_of_plain s (recordAt_tables h)).symm

theorem plainHalf_tables (s : State) {a : Nat} (h : 0x40 ≤ a ∧ a + 1 < 0x100 ∨ 0x380 ≤ a ∧ a + 1 < 0x1000) :
    s.plainHalf a = (s.storeByte a).toNat + 256 * (s.storeByte (a + 1)).toNat := by
  rw [State.plainHalf, plainByte_tables s (by omega), plainByte_tables s (by omega)]

theorem plainBytes_eq_map (s : State) (a k : Nat) : s.plainBytes a k = (List.range k).map (fun j => s.plainByte (a + j)) := by
  induction k generalizing a with
  | zero => rfl
  | succ k ih =>
    rw [State.plainBytes, ih, List.range_succ_eq_map, List.map_cons, List.map_map]
    refine congrArg (_ :: ·) (List.map_congr_left fun j _ => ?_)
    exact congrArg s.plainByte (show a + 1 + j = a + (j + 1) by omega)

theorem plainBytes_tables (s : State) {a k : Nat} (h : 0x40 ≤ a ∧ a + k ≤ 0x100 ∨ 0x380 ≤ a ∧ a + k ≤ 0x1000) :
    s.plainBytes a k = (List.range k).map (fun j => s.storeByte (a + j)) := by
  rw [plainBytes_eq_map]
  refine List.map_congr_left fun j hj => plainByte_tables s ?_
  have := List.mem_range.mp hj
  omega

theorem readType_eq (s : State) (c : Fin 32) : s.readType (typeAddress c.val) =
    ⟨decide (s.storeByte (0x400 + c.val * 0x20) = 1#8), (s.storeByte (0x400 + c.val * 0x20 + 1)).toNat,
      (s.storeByte (0x400 + c.val * 0x20 + 2)).toNat + 256 * (s.storeByte (0x400 + c.val * 0x20 + 2 + 1)).toNat,
      (s.storeByte (0x400 + c.val * 0x20 + 4)).toNat + 256 * (s.storeByte (0x400 + c.val * 0x20 + 4 + 1)).toNat,
      (s.storeByte (0x400 + c.val * 0x20 + 6)).toNat + 256 * (s.storeByte (0x400 + c.val * 0x20 + 6 + 1)).toNat,
      (s.storeByte (0x400 + c.val * 0x20 + 8)).toNat + 256 * (s.storeByte (0x400 + c.val * 0x20 + 8 + 1)).toNat,
      (s.storeByte (0x400 + c.val * 0x20 + 0xA)).toNat + 256 * (s.storeByte (0x400 + c.val * 0x20 + 0xA + 1)).toNat,
      (s.storeByte (0x400 + c.val * 0x20 + 0xC)).toNat, (s.storeByte (0x400 + c.val * 0x20 + 0xD)).toNat,
      (s.storeByte (0x400 + c.val * 0x20 + 0xE)).toNat⟩ := by
  have hc := c.isLt
  have hbyte (o : Nat) (h : o < 0x20) : s.plainByte (0x400 + c.val * 0x20 + o) = s.storeByte (0x400 + c.val * 0x20 + o) :=
    plainByte_tables s (by omega)
  have hhalf (o : Nat) (h : o + 1 < 0x20) : s.plainHalf (0x400 + c.val * 0x20 + o) =
      (s.storeByte (0x400 + c.val * 0x20 + o)).toNat + 256 * (s.storeByte (0x400 + c.val * 0x20 + o + 1)).toNat :=
    plainHalf_tables s (by omega)
  have hflag : s.plainByte (0x400 + c.val * 0x20) = s.storeByte (0x400 + c.val * 0x20) := hbyte 0 (by omega)
  rw [State.readType, typeAddress, hflag, hbyte 1 (by omega), hhalf 2 (by omega), hhalf 4 (by omega), hhalf 6 (by omega),
    hhalf 8 (by omega), hhalf 0xA (by omega), hbyte 0xC (by omega), hbyte 0xD (by omega), hbyte 0xE (by omega)]

theorem readSettings_eq (s : State) :
    let at1 (a : Nat) : Nat := (s.storeByte a).toNat
    let at2 (a : Nat) : Nat := (s.storeByte a).toNat + 256 * (s.storeByte (a + 1)).toNat
    s.readSettings = ⟨[s.storeByte 0x40, s.storeByte 0x41, s.storeByte 0x42, s.storeByte 0x43], at2 0x44, at2 0x46,
      at2 0x48, at2 0x4A, at2 0x4C, at2 0x4E, at1 0x50, at1 0x51, at1 0x52, at1 0x53, at1 0x54⟩ := by
  have hbyte (a : Nat) (h : 0x40 ≤ a ∧ a < 0x100) : s.plainByte a = s.storeByte a := plainByte_tables s (.inl h)
  have hhalf (a : Nat) (h : 0x40 ≤ a ∧ a + 1 < 0x100) : s.plainHalf a =
      (s.storeByte a).toNat + 256 * (s.storeByte (a + 1)).toNat := plainHalf_tables s (.inl h)
  intro at1 at2
  rw [State.readSettings, plainBytes_tables s (.inl (by omega)), hhalf 0x44 (by omega), hhalf 0x46 (by omega),
    hhalf 0x48 (by omega), hhalf 0x4A (by omega), hhalf 0x4C (by omega), hhalf 0x4E (by omega), hbyte 0x50 (by omega),
    hbyte 0x51 (by omega), hbyte 0x52 (by omega), hbyte 0x53 (by omega), hbyte 0x54 (by omega)]
  rfl

theorem readTemplate_eq (s : State) (k : Fin 16) : s.readTemplate k.val =
    ((List.range 24).map (fun j => s.storeByte (0x800 + k.val * 0x20 + j))).takeWhile (fun b => decide (b ≠ 0#8)) := by
  have hk := k.isLt
  rw [State.readTemplate, plainBytes_tables s (.inr ?_)]
  · rfl
  · unfold templateAddress
    omega

/-! ## The settled statement -/

/-- Settles O23. -/
theorem tableChecks : Obligations.TableChecks := by
  refine ⟨fun s w => ?_, usable_iff, templateUsable_iff, fun s w k => ?_, isLiteral_iff,
    ⟨fun b h => if_pos h, rfl, fun b hl hb => expandedLength_none hl hb, rfl, fun b l => rfl⟩,
    fun s => ⟨readSettings_eq s, readType_eq s, readTemplate_eq s⟩⟩
  · rw [State.firstBadField, firstFailure_eq_none]
    simp only [State.settingChecks, List.forall_mem_cons, within_iff, Bool.and_eq_true, decide_eq_true_eq, fits_all_iff,
      Nat.zero_le, true_and, List.not_mem_nil, false_imp_iff, implies_true, and_true]
  · have hlength : (s.settingChecks w).length = 13 := rfl
    rw [State.firstBadField, firstFailure_eq_some]
    constructor
    · rintro ⟨m, rfl, hm, hbefore⟩
      have hlt : m < 13 := by
        by_contra hge
        rw [List.getD_eq_default _ _ (by omega)] at hm
        exact absurd hm (by decide)
      rw [Nat.add_comm 1 m]
      refine ⟨by omega, by omega, fun hok => ?_, fun j hj hjm => ?_⟩
      · rw [(settingOk_iff s w m).mp hok] at hm
        exact absurd hm (by decide)
      · obtain ⟨i, rfl⟩ : ∃ i, j = i + 1 := ⟨j - 1, by omega⟩
        exact (settingOk_iff s w i).mpr (hbefore i (by omega))
    · rintro ⟨hone, -, hfails, hbefore⟩
      obtain ⟨m, rfl⟩ : ∃ m, k = m + 1 := ⟨k - 1, by omega⟩
      refine ⟨m, by omega, ?_, fun i hi => (settingOk_iff s w i).mp (hbefore (i + 1) (by omega) (by omega))⟩
      exact Bool.eq_false_iff.mpr fun h => hfails ((settingOk_iff s w m).mpr h)

end Sys2Proof.Machine
end

