-- ==== Sys2Proof/Proofs/RunRules.lean ====
section
/-! RUN and STOP LINE (R176), the drain test's conditions (R177), and the departure from AWAITING TABLES (R42, R175) with
SET DATE (R38). -/

-- Proofs are checked one after another: the whole text, compiled as one, would otherwise start more threads than fit into the
-- check's memory.
set_option Elab.async false

namespace Sys2Proof.Machine

/-! ## The hall has drained (R177) -/

theorem lane_empty_iff (x : Lane) : x.empty = true ↔ x.queue = [] ∧ x.track = [] := by
  simp only [Lane.empty, Bool.and_eq_true, List.isEmpty_iff]

theorem isEject_false_iff (x : ExitTransfer) : x.isEject = false ↔ ∀ st, x.transit.source ≠ .station st := by
  unfold ExitTransfer.isEject
  cases x.transit.source <;> simp

theorem outfeedEmpty_iff (s : State) : s.outfeedEmpty = true ↔
    s.outfeedQueue = [] ∧ s.outfeedHeadInFlight = false ∧ ∀ x ∈ s.exits, ∀ st, x.transit.source ≠ .station st := by
  have hejects : s.ejectsInFlight = 0 ↔ ∀ x ∈ s.exits, ∀ st, x.transit.source ≠ .station st := by
    simp only [State.ejectsInFlight, List.length_eq_zero_iff, List.filter_eq_nil_iff, Bool.not_eq_true, isEject_false_iff]
  simp only [State.outfeedEmpty, Bool.and_eq_true, List.isEmpty_iff, Bool.not_eq_true', decide_eq_true_eq, hejects,
    and_assoc]

theorem not_occupied_iff (b : Bay) : b.occupied = false ↔
    b.index = none ∨ b.state = .zeroing ∨ b.state = .offline ∨ b.state = .fault := by
  unfold Bay.occupied
  cases b.index <;> cases b.state <;> simp

theorem not_holdsLine_iff (x : Station) : x.holdsLine = false ↔ x.nest = .empty ∨ x.state = .fault ∨ x.state = .offline := by
  unfold Station.holdsLine
  cases x.nest <;> cases x.state <;> simp

theorem forall_lane {p : LaneId → Prop} : (∀ l, p l) ↔ p .a ∧ p .b :=
  ⟨fun h => ⟨h .a, h .b⟩, fun ⟨ha, hb⟩ l => by cases l <;> assumption⟩

theorem forall_station {p : StationId → Prop} : (∀ st, p st) ↔ p .stamper ∧ p .defacer :=
  ⟨fun h => ⟨h .stamper, h .defacer⟩, fun ⟨ha, hb⟩ st => by cases st <;> assumption⟩

theorem drained_iff (s : State) : s.drained = true ↔
    (∀ l, (s.lane l).queue = [] ∧ (s.lane l).track = []) ∧
      (s.outfeedQueue = [] ∧ s.outfeedHeadInFlight = false ∧ ∀ x ∈ s.exits, ∀ st, x.transit.source ≠ .station st) ∧
      (∀ n, (s.bay n).index = none ∨ (s.bay n).state = .zeroing ∨ (s.bay n).state = .offline ∨
        (s.bay n).state = .fault) ∧
      ∀ st, (s.station st).nest = .empty ∨ (s.station st).state = .fault ∨ (s.station st).state = .offline := by
  have hbays : (allBays.all fun n => !(s.bay n).occupied) = true ↔ ∀ n, (s.bay n).occupied = false := by
    simp only [List.all_eq_true, Bool.not_eq_true']
    exact ⟨fun h n => h n (mem_allBays n), fun h n _ => h n⟩
  simp only [State.drained, Bool.and_eq_true, Bool.not_eq_true', hbays, lane_empty_iff, outfeedEmpty_iff,
    not_occupied_iff, not_holdsLine_iff, forall_lane, forall_station, and_assoc]
  rfl

/-! ## RUN and STOP LINE (R176) -/

theorem runResult_ready {s : State} (h : s.runState = .ready) :
    s.runResult = ((s.setRunState .running).evalPermits, .accepted) := by
  unfold State.runResult
  rw [h]

theorem runResult_other {s : State} (h : s.runState ≠ .ready) : s.runResult = (s, .wrongState) := by
  unfold State.runResult
  split
  · exact absurd ‹_› h
  all_goals rfl

theorem stopLineResult_running {s : State} (h : s.runState = .running) :
    s.stopLineResult = (((s.setRunState .stopping).evalPermits).drainTest, .accepted) := by
  unfold State.stopLineResult
  rw [h]

theorem stopLineResult_other {s : State} (h : s.runState ≠ .running) : s.stopLineResult = (s, .wrongState) := by
  unfold State.stopLineResult
  split
  · exact absurd ‹_› h
  all_goals rfl

theorem frame_setRunState_evalPermits (s : State) (r : RunState) :
    Frame [.runState, .lane .a, .lane .b] s (s.setRunState r).evalPermits :=
  ((frame_setRunState s r).mono (by simp)).trans ((frame_evalPermits _).mono (by simp))

theorem drainTest_lane (s : State) (l : LaneId) : s.drainTest.lane l = s.lane l := by
  unfold State.drainTest
  split <;> rfl

/-- Settles O19. -/
theorem runAndStop : Obligations.RunAndStop := by
  refine ⟨fun arg s hh => ⟨fun hr => ?_, fun hr => ?_⟩, drained_iff, fun arg s hh => ⟨fun hr => ?_, fun hr => ?_⟩⟩
  · have hu := runResult_ready (s := s.withCommand (commandWord 0x03#8 arg)) hr
    obtain ⟨hx, hanswered, hframe⟩ :=
      heard_command (c := .run arg) rfl rfl hh hu (frame_setRunState_evalPermits _ _) (by simp)
    have hpermit (l : LaneId) : PermitOnly l s _ :=
      (permitOnly_evalPermits (s := s) (v := (s.withCommand (commandWord 0x03#8 arg)).setRunState .running) (l := l)
        rfl).command 0x03#8 .accepted
    refine ⟨_, hx, hanswered, ?_, fun l => ⟨congrArg Lane.permit (hpermit l), hpermit l⟩, hframe⟩
    rw [markEmptied_runState, publish_runState, completed_runState]
    rfl
  · exact heard_only (c := .run arg) rfl rfl hh (runResult_other hr)
  · have hu := stopLineResult_running (s := s.withCommand (commandWord 0x04#8 arg)) hr
    have hdrained : ((s.withCommand (commandWord 0x04#8 arg)).setRunState .stopping).evalPermits.drained = s.drained := rfl
    have hf : Frame [.runState, .lane .a, .lane .b] (s.withCommand (commandWord 0x04#8 arg))
        (((s.withCommand (commandWord 0x04#8 arg)).setRunState .stopping).evalPermits).drainTest :=
      (frame_setRunState_evalPermits _ _).trans ((frame_drainTest _).mono (by simp))
    obtain ⟨hx, hanswered, hframe⟩ := heard_command (c := .stopLine arg) rfl rfl hh hu hf (by simp)
    refine ⟨_, hx, hanswered, ?_, fun l => ?_, hframe⟩
    · rw [markEmptied_runState, publish_runState, completed_runState, runState_drainTest, hdrained]
      cases s.drained <;> rfl
    · have hoff : ((s.withCommand (commandWord 0x04#8 arg)).setRunState .stopping).permitHolds l = false := by
        simp [State.permitHolds, State.setRunState, State.headerEdit]
      rw [markEmptied_lane, publish_lane_bare, completed_lane, drainTest_lane, evalPermits_lane, hoff]
      rfl
  · exact heard_only (c := .stopLine arg) rfl rfl hh (stopLineResult_other hr)

end Sys2Proof.Machine
end

