-- ==== Sys2Proof/Proofs/EStopBays.lean ====
section
/-! What one bay does at the entry into E-STOPPED (R119, R132), case by case, and what it leaves of the rest. -/

-- Proofs are checked one after another: the whole text, compiled as one, would otherwise start more threads than fit into the
-- check's memory.
set_option Elab.async false

namespace Sys2Proof.Machine

/-! ## Frames shared by the E-STOP and its release -/

theorem frame_mapTransits (s : State) (f : Transit → Transit) :
    Frame ([.lane .a, .lane .b, .outfeed, .exits, .station .stamper, .station .defacer] ++ bayParts) s
      (s.mapTransits f) := by
  intro p hp
  cases p
  case bay n => exact absurd (List.mem_append_right _ (part_bay_mem n)) hp
  case lane l => exact absurd (by cases l <;> decide) hp
  case station st => exact absurd (by cases st <;> decide) hp
  case store => exact .of_mem_eq rfl
  all_goals first
    | rfl
    | exact ⟨rfl, rfl⟩
    | exact ⟨rfl, rfl, rfl⟩
    | exact ⟨rfl, rfl, rfl, rfl⟩
    | exact absurd (by decide) hp

/-! ## An attempt with no pressure on it (R119) -/

/-- The bay as an unpressurised attempt enters SETTLING for its void. -/
def Bay.eStopSettling (b : Bay) : Bay :=
  { b with
    requested := false
    releaseCause := some (.void .eStop)
    suspendedFrom := none
    risePaused := none
    state := .settling
    outputs := ventAndDoor
    stepTimer := none
    kept := none }

/-- The state in which an unpressurised attempt has entered SETTLING, before its void is reported. -/
def State.eStopSettled (s : State) (n : BayId) : State := (s.removeRequest n).setBay n (s.bay n).eStopSettling

/-- Two writes of a bay are the second. -/
theorem setBay_setBay (s : State) (n : BayId) (b c : Bay) : (s.setBay n b).setBay n c = s.setBay n c := by
  simp [State.setBay]

theorem eStopUnpressurised_eq (s : State) (n : BayId) : s.eStopUnpressurised n =
    if (s.bay n).aborted = true then (s.eStopSettled n).abortAndUnload n
    else (s.eStopSettled n).voidAndAct n .eStop none false := by
  have hsettled (t : State) (h : t = (s.withdrawRequest n).updBay n (fun b =>
      { b with releaseCause := some (.void .eStop), suspendedFrom := none, risePaused := none })) :
      t.updBay n (fun b => b.enter .settling) = s.eStopSettled n ∧ (t.bay n).aborted = (s.bay n).aborted ∧
        (t.bay n).releaseCause = some (.void .eStop) := by
    subst h
    refine ⟨?_, by simp, by simp⟩
    simp only [updBay_eq, bay_setBay, if_true, setBay_setBay, withdrawRequest_eq]
    rfl
  obtain ⟨heq, haborted, hcause⟩ := hsettled _ rfl
  unfold State.eStopUnpressurised State.enterSettling
  dsimp only
  rw [heq, haborted, hcause]

theorem eStopSettled_bay (s : State) (n m : BayId) :
    (s.eStopSettled n).bay m = if n = m then (s.bay n).eStopSettling else s.bay m := by
  rw [State.eStopSettled, bay_setBay]
  rfl

theorem frame_eStopSettled (s : State) (n : BayId) : Frame [.bay n, .requests] s (s.eStopSettled n) :=
  ((frame_removeRequest s n).mono (by simp)).trans ((frame_setBay _ n _).mono (by simp))

/-! ## A void E-STOP (R108, R119) -/

/-- The void E-STOP records its cause, and keeps the route and the counts. -/
theorem voided_eStop (e : Entry) (now : Seconds) : e.voided now .eStop none = { e with lastVoid := some .eStop } := rfl

theorem reportVoid_eStop_entry {s : State} {i : RosterIndex} (hlive : (s.entry i).state.live = true)
    (hroute : (s.entry i).route = some .test) :
    (s.reportVoid i .eStop none).entry i = { s.entry i with lastVoid := some .eStop }.edited := by
  rw [reportVoid_entry hlive hroute, voided_eStop]

theorem reportVoid_dropped {s : State} {i : RosterIndex} (h : (s.entry i).route ≠ some .test) (c : VoidCause)
    (m : Option Measurements) : s.reportVoid i c m = s :=
  if_neg fun k => h k.2

/-- The void E-STOP changes no route. -/
theorem reportVoid_eStop_route (s : State) (i j : RosterIndex) :
    ((s.reportVoid i .eStop none).entry j).route = (s.entry j).route := by
  unfold State.reportVoid
  split
  · rw [editEntry_eq, entry_setEntry]
    split
    · rename_i hij
      subst hij
      rfl
    · rfl
  · rfl

/-- The bay has reported its void and waits for the release of the E-STOP (R108). -/
def Bay.eStopKept (b : Bay) : Bay :=
  { b with
    releaseCause := none
    kept := some .fillStep
    stepTimer := none
    outputs := { b.outputs with vent := true, fill := false } }

theorem voidAndAct_eStop_test {s : State} {n : BayId} {i : RosterIndex} (hindex : (s.bay n).index = some i)
    (hroute : (s.entry i).route = some .test) (hstop : s.runState = .eStopped) :
    s.voidAndAct n .eStop none false = (s.reportVoid i .eStop none).setBay n (s.bay n).eStopKept := by
  have hbay : (s.reportVoid i .eStop none).bay n = s.bay n := reportVoid_bay s i _ _ n
  have hstopped : (s.reportVoid i .eStop none).stopped = true :=
    stopped_eq_true (((frame_reportVoid s i .eStop none).runState_eq (by simp)).trans hstop)
  have hanswer : ((s.reportVoid i .eStop none).updBay n (fun b => { b with releaseCause := none })).answer i =
      some .test := by
    rw [State.answer, updBay_eq, setBay_entry, reportVoid_eStop_route, hroute]
  unfold State.voidAndAct
  rw [hindex]
  dsimp only
  rw [if_pos hanswer]
  unfold State.fillStep
  rw [if_pos (by simpa using hstopped), State.keepStep]
  simp only [updBay_eq, bay_setBay, if_true, setBay_setBay, hbay]
  rfl

theorem voidAndAct_other_route {s : State} {n : BayId} {i : RosterIndex} (hindex : (s.bay n).index = some i)
    (hroute : (s.entry i).route ≠ some .test) (c : VoidCause) (m : Option Measurements) (settled : Bool) :
    s.voidAndAct n c m settled = (s.setBay n { s.bay n with releaseCause := none }).unloadToOutfeed n := by
  unfold State.voidAndAct
  rw [hindex]
  dsimp only
  rw [reportVoid_dropped hroute, if_neg (by simpa [State.answer] using hroute)]
  rfl

/-! ## What an unpressurised attempt leaves of the rest -/

/-- The claims, and the routes of the entries, after a bay has acted on an unpressurised attempt. -/
structure EStopActed (s t : State) (n : BayId) : Prop where
  claims : t.claims = s.claims ∨ t.claims = (s.placeClaim (.bay n)).claims
  /-- for an attempt that is not aborted and whose entry is routed TEST no claim is placed and no route changes -/
  kept : (s.bay n).aborted = false → (∀ i, (s.bay n).index = some i → (s.entry i).route = some .test) →
    t.claims = s.claims ∧ ∀ j, (t.entry j).route = (s.entry j).route

theorem placeClaim_claims_congr {s t : State} (h : t.claims = s.claims) (c : Claimant) :
    (t.placeClaim c).claims = (s.placeClaim c).claims := by
  unfold State.placeClaim
  rw [h]

theorem unloadToOutfeed_claims (s : State) (n : BayId) :
    (s.unloadToOutfeed n).claims = (s.placeClaim (.bay n)).claims := rfl

/-- The parts an unpressurised attempt can change at the E-STOP. -/
def eStopBayParts (s : State) (n : BayId) : List Part := .bay n :: .requests :: .releases :: .claims :: heldParts s n

theorem frame_abandonCheck (s : State) (n : BayId) : Frame (.bay n :: heldParts s n) s (s.abandonCheck n) := by
  have htimer (g : Bay → Bay) : Frame (.bay n :: heldParts s n) s (s.updBay n g) :=
    (frame_setBay s n _).mono (by simp)
  have hvoid (i : RosterIndex) (hi : (s.bay n).index = some i) (t : State) :
      Frame (.bay n :: heldParts s n) t ((t.reportVoid i .eStop none).updBay n (fun b => { b with resume := some .fill })) :=
    ((frame_reportVoid t i _ _).mono (by simp [heldParts, hi])).trans ((frame_setBay _ n _).mono (by simp))
  unfold State.abandonCheck
  dsimp only
  split
  · exact (htimer _).trans (hvoid _ ‹_› _)
  · exact (htimer _).trans (hvoid _ ‹_› _)
  · exact htimer _

section

variable {s : State} {n : BayId} {i : RosterIndex}

theorem eStopSettled_index : ((s.eStopSettled n).bay n).index = (s.bay n).index := by
  rw [eStopSettled_bay, if_pos rfl]
  rfl

theorem eStopSettled_entry (j : RosterIndex) : (s.eStopSettled n).entry j = s.entry j :=
  (frame_eStopSettled s n).entry_eq (by simp)

theorem eStopSettled_claims : (s.eStopSettled n).claims = s.claims := rfl

theorem eStopSettled_runState : (s.eStopSettled n).runState = s.runState := rfl

/-- An unpressurised attempt that is not aborted and whose entry is routed TEST waits in SETTLING for the release. -/
theorem eStopUnpressurised_test (hindex : (s.bay n).index = some i) (hroute : (s.entry i).route = some .test)
    (haborted : (s.bay n).aborted = false) (hstop : s.runState = .eStopped) : s.eStopUnpressurised n =
      ((s.eStopSettled n).reportVoid i .eStop none).setBay n (s.bay n).eStopSettling.eStopKept := by
  rw [eStopUnpressurised_eq, if_neg (by simp [haborted]),
    voidAndAct_eStop_test (eStopSettled_index.trans hindex) (by rw [eStopSettled_entry, hroute]) hstop, eStopSettled_bay,
    if_pos rfl]

/-- An unpressurised attempt whose entry's route is no longer TEST unloads with a claim. -/
theorem eStopUnpressurised_other (hindex : (s.bay n).index = some i) (hroute : (s.entry i).route ≠ some .test)
    (haborted : (s.bay n).aborted = false) : s.eStopUnpressurised n =
      ((s.eStopSettled n).setBay n { (s.bay n).eStopSettling with releaseCause := none }).unloadToOutfeed n := by
  rw [eStopUnpressurised_eq, if_neg (by simp [haborted]),
    voidAndAct_other_route (eStopSettled_index.trans hindex) (by rwa [eStopSettled_entry]), eStopSettled_bay, if_pos rfl]

/-- An aborted attempt reports its abort and unloads with a claim. -/
theorem eStopUnpressurised_aborted (haborted : (s.bay n).aborted = true) :
    s.eStopUnpressurised n = (s.eStopSettled n).abortAndUnload n := by
  rw [eStopUnpressurised_eq, if_pos haborted]

theorem abortAndUnload_of_index (h : (s.bay n).index = some i) :
    s.abortAndUnload n = (s.reportAborted i).unloadToOutfeed n := by
  unfold State.abortAndUnload
  rw [h]

theorem abortAndUnload_empty (h : (s.bay n).index = none) : s.abortAndUnload n = s := by
  unfold State.abortAndUnload
  rw [h]

theorem voidAndAct_empty (h : (s.bay n).index = none) (c : VoidCause) (m : Option Measurements) (settled : Bool) :
    s.voidAndAct n c m settled = s := by
  unfold State.voidAndAct
  rw [h]

theorem eStopUnpressurised_empty (h : (s.bay n).index = none) : s.eStopUnpressurised n = s.eStopSettled n := by
  rw [eStopUnpressurised_eq]
  split
  · exact abortAndUnload_empty (eStopSettled_index.trans h)
  · exact voidAndAct_empty (eStopSettled_index.trans h) _ _ _

end

theorem frame_eStopUnpressurised {s : State} (hstop : s.runState = .eStopped) (n : BayId) :
    Frame (eStopBayParts s n) s (s.eStopUnpressurised n) := by
  have hsettled : Frame (eStopBayParts s n) s (s.eStopSettled n) := (frame_eStopSettled s n).mono (by simp [eStopBayParts])
  have hbay (t : State) (b : Bay) : Frame (eStopBayParts s n) t (t.setBay n b) :=
    (frame_setBay t n b).mono (by simp [eStopBayParts])
  have hunload (t : State) : Frame (eStopBayParts s n) t (t.unloadToOutfeed n) :=
    (frame_unloadToOutfeed t n).mono (by simp [eStopBayParts])
  cases hindex : (s.bay n).index with
  | none =>
    rw [eStopUnpressurised_empty hindex]
    exact hsettled
  | some i =>
    have hentry {t u : State} (h : Frame [.entry i] t u) : Frame (eStopBayParts s n) t u :=
      h.mono (by simp [eStopBayParts, heldParts, hindex])
    cases haborted : (s.bay n).aborted with
    | true =>
      rw [eStopUnpressurised_aborted haborted, abortAndUnload_of_index (eStopSettled_index.trans hindex)]
      exact (hsettled.trans (hentry (frame_reportAborted _ i))).trans (hunload _)
    | false =>
      by_cases hroute : (s.entry i).route = some .test
      · rw [eStopUnpressurised_test hindex hroute haborted hstop]
        exact (hsettled.trans (hentry (frame_reportVoid _ i _ _))).trans (hbay _ _)
      · rw [eStopUnpressurised_other hindex hroute haborted]
        exact (hsettled.trans (hbay _ _)).trans (hunload _)

theorem eStopActed_unpressurised {s : State} (hstop : s.runState = .eStopped) (n : BayId) :
    EStopActed s (s.eStopUnpressurised n) n := by
  cases hindex : (s.bay n).index with
  | none =>
    rw [eStopUnpressurised_empty hindex]
    exact ⟨.inl rfl, fun _ _ => ⟨rfl, fun j => by rw [eStopSettled_entry]⟩⟩
  | some i =>
    cases haborted : (s.bay n).aborted with
    | true =>
      rw [eStopUnpressurised_aborted haborted, abortAndUnload_of_index (eStopSettled_index.trans hindex)]
      refine ⟨.inr ?_, fun h => by simp [haborted] at h⟩
      have hclaims : ((s.eStopSettled n).reportAborted i).claims = s.claims :=
        (frame_reportAborted _ i).claims_eq (by simp)
      exact placeClaim_claims_congr hclaims _
    | false =>
      by_cases hroute : (s.entry i).route = some .test
      · rw [eStopUnpressurised_test hindex hroute haborted hstop]
        have hclaims : ((s.eStopSettled n).reportVoid i .eStop none).claims = s.claims :=
          (frame_reportVoid _ i _ _).claims_eq (by simp)
        refine ⟨.inl (by simpa using hclaims), fun _ _ => ⟨by simpa using hclaims, fun j => ?_⟩⟩
        rw [setBay_entry, reportVoid_eStop_route, eStopSettled_entry]
      · rw [eStopUnpressurised_other hindex hroute haborted]
        refine ⟨.inr ?_, fun _ h => absurd (h i hindex) hroute⟩
        exact placeClaim_claims_congr (by simp [eStopSettled_claims]) _

/-! ## A bay at the entry into E-STOPPED (R119) -/

section

variable {s : State} {n : BayId}

/-- An attempt under pressure vents. -/
theorem eStopBay_pressurised (h : (s.bay n).state = .pressurising ∨ (s.bay n).state = .holding ∨
    ((s.bay n).state = .awaitIntensifier ∨ (s.bay n).state = .suspended) ∧ (s.bay n).pressurised = true) :
    s.eStopBay n = s.enterReleasing n (.void .eStop) := by
  unfold State.eStopBay
  rcases h with h | h | ⟨h | h, hp⟩ <;> rw [h]
  · exact if_pos hp
  · exact if_pos hp

theorem eStopBay_unpressurised (h : (s.bay n).unpressurisedAttempt) : s.eStopBay n = s.eStopUnpressurised n := by
  unfold State.eStopBay
  rcases h with h | ⟨h | h, hp⟩ <;> rw [h]
  · exact if_neg (by simp [hp])
  · exact if_neg (by simp [hp])

theorem eStopBay_zeroing (h : (s.bay n).state = .zeroing) : s.eStopBay n = s.abandonCheck n := by
  unfold State.eStopBay
  rw [h]

theorem eStopBay_offline (h : (s.bay n).state = .offline) :
    s.eStopBay n = s.updBay n (fun b => { b with outputs := BayOutputs.rest }) := by
  unfold State.eStopBay
  rw [h]

theorem eStopBay_other (h : (s.bay n).state = .starting ∨ (s.bay n).state = .idle ∨ (s.bay n).state = .loading ∨
    (s.bay n).state = .releasing ∨ (s.bay n).state = .settling ∨ (s.bay n).state = .unloading ∨
    (s.bay n).state = .fault) : s.eStopBay n = s := by
  unfold State.eStopBay
  rcases h with h | h | h | h | h | h | h <;> rw [h]

/-- What a bay does at the entry into E-STOPPED, by its state. -/
theorem eStopBay_cases (s : State) (n : BayId) : (s.bay n).unpressurisedAttempt ∨ (s.bay n).state = .zeroing ∨
    s.eStopBay n = s.enterReleasing n (.void .eStop) ∨
    s.eStopBay n = s.updBay n (fun b => { b with outputs := BayOutputs.rest }) ∨ s.eStopBay n = s := by
  unfold State.eStopBay Bay.unpressurisedAttempt
  cases hs : (s.bay n).state <;> cases hp : (s.bay n).pressurised <;> simp

theorem frame_eStopBay (hstop : s.runState = .eStopped) (n : BayId) : Frame (eStopBayParts s n) s (s.eStopBay n) := by
  rcases eStopBay_cases s n with h | h | h | h | h
  · rw [eStopBay_unpressurised h]
    exact frame_eStopUnpressurised hstop n
  · rw [eStopBay_zeroing h]
    exact (frame_abandonCheck s n).mono (by simp [eStopBayParts, List.subset_def]; tauto)
  · rw [h]
    exact (frame_enterReleasing s n _).mono (by simp [eStopBayParts])
  · rw [h]
    exact (frame_setBay s n _).mono (by simp [eStopBayParts])
  · rw [h]
    exact .refl _ s

/-- A check that holds no attempt open is abandoned without a report. -/
theorem abandonCheck_closed (h : (s.bay n).resume ≠ some .request ∧ (s.bay n).resume ≠ some .suspend) :
    s.abandonCheck n = s.updBay n (fun b =>
      { b with stepTimer := none, outputs := { b.outputs with buretteDrain := false } }) := by
  unfold State.abandonCheck
  dsimp only
  split
  · exact absurd ‹_› h.1
  · exact absurd ‹_› h.2
  · rfl

/-- A check that holds an attempt open ends it with a void E-STOP, and resumes at FILL (R132). -/
theorem abandonCheck_open {i : RosterIndex} (h : (s.bay n).resume = some .request ∨ (s.bay n).resume = some .suspend)
    (hindex : (s.bay n).index = some i) :
    s.abandonCheck n = ((s.updBay n (fun b =>
      { b with stepTimer := none, outputs := { b.outputs with buretteDrain := false } })).reportVoid i .eStop none).updBay n
        (fun b => { b with resume := some .fill }) := by
  unfold State.abandonCheck
  rcases h with h | h <;> rw [h, hindex]

theorem abandonCheck_empty (hindex : (s.bay n).index = none) :
    s.abandonCheck n = s.updBay n (fun b =>
      { b with stepTimer := none, outputs := { b.outputs with buretteDrain := false } }) := by
  unfold State.abandonCheck
  rw [hindex]
  cases (s.bay n).resume with
  | none => rfl
  | some rp => cases rp <;> rfl

theorem abandonCheck_bay (s : State) (n : BayId) : (s.abandonCheck n).bay n = { s.bay n with
    stepTimer := none
    outputs := { (s.bay n).outputs with buretteDrain := false }
    resume :=
      if ((s.bay n).resume = some .request ∨ (s.bay n).resume = some .suspend) ∧ (s.bay n).index.isSome = true then some .fill
      else (s.bay n).resume } := by
  cases hindex : (s.bay n).index with
  | none =>
    rw [abandonCheck_empty hindex]
    simp [hindex]
  | some i =>
    by_cases h : (s.bay n).resume = some .request ∨ (s.bay n).resume = some .suspend
    · rw [abandonCheck_open h hindex]
      simp [h, hindex, reportVoid_bay]
    · rw [abandonCheck_closed (not_or.mp h)]
      simp [h, hindex]

/-- The roster entries a bay leaves alone at the E-STOP: those it does not hold, and its own where no attempt is open
without pressure. -/
theorem eStopBay_entry (hstop : s.runState = .eStopped) {i : RosterIndex}
    (h : (s.bay n).index = some i → ¬(s.bay n).unpressurisedAttempt ∧ ¬(s.bay n).openCheck) :
    (s.eStopBay n).entry i = s.entry i := by
  by_cases hi : (s.bay n).index = some i
  · obtain ⟨hattempt, hcheck⟩ := h hi
    rcases eStopBay_cases s n with h | h | h | h | h
    · exact absurd h hattempt
    · rw [eStopBay_zeroing h, abandonCheck_closed (not_or.mp fun hr => hcheck ⟨h, hr⟩)]
      simp
    · rw [h]
      exact (frame_enterReleasing s n _).entry_eq (by simp)
    · rw [h]
      simp
    · rw [h]
  · exact (frame_eStopBay hstop n).entry_eq (by simpa [eStopBayParts, heldParts] using hi)

theorem eStopActed_eStopBay (hstop : s.runState = .eStopped) (h : (s.bay n).unpressurisedAttempt) :
    EStopActed s (s.eStopBay n) n := by
  rw [eStopBay_unpressurised h]
  exact eStopActed_unpressurised hstop n

/-- A bay without such an attempt places no claim and changes no route. -/
theorem eStopBay_quiet (h : ¬(s.bay n).unpressurisedAttempt) :
    (s.eStopBay n).claims = s.claims ∧ ∀ j, ((s.eStopBay n).entry j).route = (s.entry j).route := by
  rcases eStopBay_cases s n with hc | hc | hc | hc | hc
  · exact absurd hc h
  · rw [eStopBay_zeroing hc]
    refine ⟨frame_abandonCheck s n .claims (by simp [heldParts]), fun j => ?_⟩
    cases hindex : (s.bay n).index with
    | none =>
      rw [abandonCheck_empty hindex]
      rfl
    | some i =>
      by_cases hr : (s.bay n).resume = some .request ∨ (s.bay n).resume = some .suspend
      · rw [abandonCheck_open hr hindex, updBay_eq, setBay_entry, reportVoid_eStop_route]
        rfl
      · rw [abandonCheck_closed (not_or.mp hr)]
        rfl
  · rw [hc]
    exact ⟨frame_enterReleasing s n _ .claims (by simp),
      fun j => by rw [(frame_enterReleasing s n _).entry_eq (i := j) (by simp)]⟩
  · rw [hc]
    exact ⟨rfl, fun j => rfl⟩
  · rw [hc]
    exact ⟨rfl, fun j => rfl⟩

end

end Sys2Proof.Machine
end

