-- ==== Sys2Proof/Proofs/EStop.lean ====
section
/-! The entry into E-STOPPED as a whole (R77, R91, R119, R144, R161, R178): the bays act one after another, each on its own
cylinder, and the arbiter and the stations break off. -/

-- Proofs are checked one after another: the whole text, compiled as one, would otherwise start more threads than fit into the
-- check's memory.
set_option Elab.async false

namespace Sys2Proof.Machine

/-! ## The bays, one after another -/

/-- Doing something at every bay, seen from one bay: the bays before it, the bay itself, and the bays behind it. -/
theorem forBays_split (f : BayId → State → State) (n : BayId) : ∃ before behind : List BayId,
    before.Nodup ∧ behind.Nodup ∧ n ∉ before ∧ n ∉ behind ∧ (∀ m ∈ behind, m ∉ before) ∧
      ∀ s : State, s.forBays f = behind.foldl (fun t m => f m t) (f n (before.foldl (fun t m => f m t) s)) := by
  obtain ⟨before, behind, h⟩ := List.append_of_mem (mem_allBays n)
  have hnodup : (before ++ n :: behind).Nodup := h ▸ (by decide : allBays.Nodup)
  obtain ⟨hbefore, hrest, hdisjoint⟩ := List.nodup_append.mp hnodup
  obtain ⟨hn, hbehind⟩ := List.nodup_cons.mp hrest
  refine ⟨before, behind, hbefore, hbehind, fun hm => hdisjoint n hm n List.mem_cons_self rfl, hn,
    fun m hm hmb => hdisjoint m hmb m (List.mem_cons_of_mem _ hm) rfl, fun s => ?_⟩
  rw [State.forBays, h, List.foldl_append, List.foldl_cons]

/-- The bays of a list at the entry into E-STOPPED. -/
def State.eStopBays (s : State) (l : List BayId) : State := l.foldl (fun t m => t.eStopBay m) s

theorem eStopBays_cons (s : State) (m : BayId) (rest : List BayId) :
    s.eStopBays (m :: rest) = (s.eStopBay m).eStopBays rest := rfl

/-- The bay holds an attempt or a check that the E-STOP ends with a report. -/
def Bay.eStopReports (b : Bay) : Prop := b.unpressurisedAttempt ∨ b.openCheck

section

variable {s : State}

theorem eStopBay_runState (h : s.runState = .eStopped) (n : BayId) : (s.eStopBay n).runState = .eStopped :=
  ((frame_eStopBay h n).runState_eq (by simp [eStopBayParts, heldParts])).trans h

theorem eStopBay_bay_of_ne (h : s.runState = .eStopped) {n m : BayId} (hm : m ≠ n) : (s.eStopBay n).bay m = s.bay m :=
  (frame_eStopBay h n).bay_eq (by simpa [eStopBayParts, heldParts] using hm)

/-- What the bays of a list leave alone: but for the requests, the releases and the claims, every part that is no bay of the
list and no entry that such a bay reports on. -/
theorem eStopBays_same {l : List BayId} (hl : l.Nodup) (h : s.runState = .eStopped) {p : Part}
    (hp : p ∉ [Part.requests, .releases, .claims]) (hbay : ∀ m ∈ l, p ≠ .bay m)
    (hentry : ∀ i, p = .entry i → ∀ m ∈ l, (s.bay m).index = some i → ¬(s.bay m).eStopReports) :
    Same p s (s.eStopBays l) := by
  induction l generalizing s with
  | nil => exact .refl p s
  | cons m rest ih =>
    obtain ⟨hm, hrest⟩ := List.nodup_cons.mp hl
    have hfirst : Same p s (s.eStopBay m) := by
      by_cases hheld : ∃ i, p = .entry i
      · obtain ⟨i, rfl⟩ := hheld
        exact eStopBay_entry h fun hi => not_or.mp (hentry i rfl m List.mem_cons_self hi)
      · refine frame_eStopBay h m p fun hmem => ?_
        simp only [eStopBayParts, heldParts, List.mem_cons, Option.mem_toList, Option.map_eq_some_iff] at hmem
        rcases hmem with hmem | hmem | hmem | hmem | ⟨i, -, hmem⟩
        · exact hbay m List.mem_cons_self hmem
        · exact hp (by simp [hmem])
        · exact hp (by simp [hmem])
        · exact hp (by simp [hmem])
        · exact hheld ⟨i, hmem.symm⟩
    refine hfirst.trans (ih hrest (eStopBay_runState h m) (fun k hk => hbay k (List.mem_cons_of_mem _ hk)) ?_)
    intro i hi k hk hindex
    have hkm : k ≠ m := fun heq => hm (heq ▸ hk)
    rw [eStopBay_bay_of_ne h hkm] at hindex ⊢
    exact hentry i hi k (List.mem_cons_of_mem _ hk) hindex

/-- The claims the bays of a list place join the list at its end, each for a bay with an attempt under no pressure. -/
theorem eStopBays_claims {l : List BayId} (hl : l.Nodup) (h : s.runState = .eStopped) :
    s.claims <+: (s.eStopBays l).claims ∧ ∀ c ∈ (s.eStopBays l).claims, c ∉ s.claims →
      ∃ m ∈ l, c = .bay m ∧ (s.bay m).unpressurisedAttempt := by
  induction l generalizing s with
  | nil => exact ⟨List.prefix_refl _, fun c hc hn => absurd hc hn⟩
  | cons m rest ih =>
    obtain ⟨hm, hrest⟩ := List.nodup_cons.mp hl
    obtain ⟨hprefix, hnew⟩ := ih hrest (eStopBay_runState h m)
    have hfirst : s.claims <+: (s.eStopBay m).claims ∧ ∀ c ∈ (s.eStopBay m).claims, c ∉ s.claims →
        c = .bay m ∧ (s.bay m).unpressurisedAttempt := by
      by_cases hattempt : (s.bay m).unpressurisedAttempt
      · rcases (eStopActed_eStopBay h hattempt).claims with hc | hc
        · rw [hc]
          exact ⟨List.prefix_refl _, fun c hc hn => absurd hc hn⟩
        · rw [hc]
          unfold State.placeClaim
          dsimp only
          split
          · exact ⟨List.prefix_refl _, fun c hc hn => absurd hc hn⟩
          · refine ⟨List.prefix_append _ _, fun c hc hn => ⟨?_, hattempt⟩⟩
            simpa [hn] using hc
      · rw [(eStopBay_quiet hattempt).1]
        exact ⟨List.prefix_refl _, fun c hc hn => absurd hc hn⟩
    refine ⟨hfirst.1.trans hprefix, fun c hc hn => ?_⟩
    by_cases hc1 : c ∈ (s.eStopBay m).claims
    · obtain ⟨rfl, hattempt⟩ := hfirst.2 c hc1 hn
      exact ⟨m, List.mem_cons_self, rfl, hattempt⟩
    · obtain ⟨k, hk, rfl, hattempt⟩ := hnew c hc hc1
      have hkm : k ≠ m := fun heq => hm (heq ▸ hk)
      rw [eStopBay_bay_of_ne h hkm] at hattempt
      exact ⟨k, List.mem_cons_of_mem _ hk, rfl, hattempt⟩

/-- Where every such attempt is not aborted and its entry routed TEST, no claim is placed. -/
theorem eStopBays_no_claims {l : List BayId} (hl : l.Nodup) (h : s.runState = .eStopped)
    (hall : ∀ m ∈ l, (s.bay m).unpressurisedAttempt → (s.bay m).aborted = false ∧
      ∀ i, (s.bay m).index = some i → (s.entry i).route = some .test) :
    (s.eStopBays l).claims = s.claims := by
  induction l generalizing s with
  | nil => rfl
  | cons m rest ih =>
    obtain ⟨hm, hrest⟩ := List.nodup_cons.mp hl
    have hfirst : (s.eStopBay m).claims = s.claims ∧ ∀ j, ((s.eStopBay m).entry j).route = (s.entry j).route := by
      by_cases hattempt : (s.bay m).unpressurisedAttempt
      · obtain ⟨haborted, hroute⟩ := hall m List.mem_cons_self hattempt
        exact (eStopActed_eStopBay h hattempt).kept haborted hroute
      · exact eStopBay_quiet hattempt
    obtain ⟨hclaims, hroutes⟩ := hfirst
    rw [eStopBays_cons, ih hrest (eStopBay_runState h m) (fun k hk hattempt => ?_), hclaims]
    have hkm : k ≠ m := fun heq => hm (heq ▸ hk)
    rw [eStopBay_bay_of_ne h hkm] at hattempt ⊢
    obtain ⟨haborted, hroute⟩ := hall k (List.mem_cons_of_mem _ hk) hattempt
    exact ⟨haborted, fun i hi => (hroutes i).trans (hroute i hi)⟩

/-- One bay among the six: when its turn comes it and its cylinder stand as at the start, and no later bay touches them. -/
theorem eStopBays_turn (h : s.runState = .eStopped) (n : BayId) : ∃ t : State,
    t.bay n = s.bay n ∧ t.runState = .eStopped ∧ t.lineSeconds = s.lineSeconds ∧
      s.claims <+: t.claims ∧ (t.eStopBay n).claims <+: (s.eStopBays allBays).claims ∧
      (s.eStopBays allBays).bay n = (t.eStopBay n).bay n ∧
      ∀ i, (∀ m, m ≠ n → (s.bay m).index ≠ some i) →
        t.entry i = s.entry i ∧ (s.eStopBays allBays).entry i = (t.eStopBay n).entry i := by
  obtain ⟨before, behind, hbefore, hbehind, hnbefore, hnbehind, hdisjoint, hsplit⟩ := forBays_split (fun n t => t.eStopBay n) n
  have hwhole : s.eStopBays allBays = ((s.eStopBays before).eStopBay n).eStopBays behind := hsplit s
  have hother {p : Part} (hp : p ∉ [Part.requests, .releases, .claims]) (hbay : ∀ m ∈ before, p ≠ .bay m)
      (hentry : ∀ i, p = .entry i → ∀ m ∈ before, (s.bay m).index ≠ some i) : Same p s (s.eStopBays before) :=
    eStopBays_same hbefore h hp hbay fun i hi m hm hindex => absurd hindex (hentry i hi m hm)
  have hturn : (s.eStopBays before).runState = .eStopped :=
    Eq.trans (hother (p := .runState) (by simp) (by simp) (by simp)) h
  have hbays (m : BayId) (hm : m ∉ before) : (s.eStopBays before).bay m = s.bay m :=
    hother (p := .bay m) (by simp) (fun k hk heq => hm (by cases heq; exact hk)) (by simp)
  refine ⟨s.eStopBays before, hbays n hnbefore, hturn, hother (p := .lineSeconds) (by simp) (by simp) (by simp),
    (eStopBays_claims hbefore h).1, ?_, ?_, fun i hi => ⟨?_, ?_⟩⟩
  · rw [hwhole]
    exact (eStopBays_claims hbehind (eStopBay_runState hturn n)).1
  · rw [hwhole]
    exact eStopBays_same hbehind (eStopBay_runState hturn n) (p := .bay n) (by simp)
      (fun k hk heq => hnbehind (by cases heq; exact hk)) (by simp)
  · refine hother (p := .entry i) (by simp) (by simp) fun j hj m hm => ?_
    cases hj
    exact hi m fun heq => hnbefore (heq ▸ hm)
  · rw [hwhole]
    refine eStopBays_same hbehind (eStopBay_runState hturn n) (p := .entry i) (by simp) (by simp) fun j hj m hm hindex => ?_
    cases hj
    have hmn : m ≠ n := fun heq => hnbehind (heq ▸ hm)
    rw [eStopBay_bay_of_ne hturn hmn] at hindex
    rw [hbays m (hdisjoint m hm)] at hindex
    exact absurd hindex (hi m hmn)

end

/-! ## The state before the bays act -/

/-- The run state is E-STOPPED, the permits are off, and the limits of the transfers in flight have stopped (R77, R178). -/
def State.eStopBase (s : State) : State := ((s.setRunState .eStopped).evalPermits).mapTransits Transit.stopped

theorem eStopBase_runState (s : State) : s.eStopBase.runState = .eStopped := rfl

theorem eStopBase_lineSeconds (s : State) : s.eStopBase.lineSeconds = s.lineSeconds := rfl

theorem eStopBase_entry (s : State) (i : RosterIndex) : s.eStopBase.entry i = s.entry i := rfl

theorem eStopBase_claims (s : State) : s.eStopBase.claims = s.claims := rfl

theorem eStopBase_bay (s : State) (n : BayId) :
    s.eStopBase.bay n = { s.bay n with loading := (s.bay n).loading.map Transit.stopped } :=
  mapTransits_bay _ _ n

theorem eStopBase_station (s : State) (st : StationId) :
    s.eStopBase.station st = { s.station st with loading := (s.station st).loading.map Transit.stopped } :=
  mapTransits_station _ _ st

theorem eStopBase_lane (s : State) (l : LaneId) : s.eStopBase.lane l = { s.lane l with
    permit := false
    track := (s.lane l).track.map (Position.mapTransit Transit.stopped) } := by
  have hoff : (s.setRunState .eStopped).permitHolds l = false := by
    simp [State.permitHolds, State.setRunState, State.headerEdit]
  rw [State.eStopBase, mapTransits_lane, evalPermits_lane, hoff]
  rfl

theorem subset_bays {L M : List Part} (h : L ⊆ M) : L ++ bayParts ⊆ M ++ bayParts :=
  List.append_subset.mpr ⟨List.subset_append_of_subset_left _ h, List.subset_append_right _ _⟩

theorem subset_units {L M : List Part} (h : L ⊆ M) : L ++ bayParts ++ entryParts ⊆ M ++ bayParts ++ entryParts :=
  List.append_subset.mpr ⟨List.subset_append_of_subset_left _ (subset_bays h), List.subset_append_right _ _⟩

theorem subset_bays_units {L M : List Part} (h : L ⊆ M) : L ++ bayParts ⊆ M ++ bayParts ++ entryParts :=
  List.subset_append_of_subset_left _ (subset_bays h)

/-- The parts the entry into E-STOPPED can change. -/
def eStopParts : List Part :=
  [.runState, .lane .a, .lane .b, .outfeed, .exits, .claims, .requests, .releases, .intensifier .one, .intensifier .two,
    .station .stamper, .station .defacer] ++ bayParts ++ entryParts

theorem part_entry_mem (i : RosterIndex) : Part.entry i ∈ entryParts := List.mem_map_of_mem (List.mem_finRange i)

theorem frame_eStopBase (s : State) : Frame
    ([.runState, .lane .a, .lane .b, .outfeed, .exits, .station .stamper, .station .defacer] ++ bayParts) s
    s.eStopBase :=
  ((frame_setRunState_evalPermits s _).mono (by simp)).trans ((frame_mapTransits _ _).mono (subset_bays (by decide)))

/-! ## The arbiter (R144) -/

theorem frame_eStopArbiter (s : State) :
    Frame ([.requests, .releases, .intensifier .one, .intensifier .two] ++ bayParts) s s.eStopArbiter := by
  have hqueues : Frame [.requests, .releases, .intensifier .one, .intensifier .two] s { s with
      requests := []
      releases := []
      intensifier1 := s.intensifier1.eStopped
      intensifier2 := s.intensifier2.eStopped } := by
    intro p hp
    cases p
    case intensifier i => cases i <;> exact absurd (by decide) hp
    case store => exact .of_mem_eq rfl
    all_goals first
      | rfl
      | exact ⟨rfl, rfl⟩
      | exact ⟨rfl, rfl, rfl⟩
      | exact ⟨rfl, rfl, rfl, rfl⟩
      | exact absurd (by decide) hp
  exact (hqueues.mono (by simp)).trans ((frame_forBays (fun n t => (frame_setBay t n _).mono
    (by simpa using part_bay_mem n)) _).mono (L := bayParts) (List.subset_append_right _ _))

theorem eStopArbiter_bay (s : State) (n : BayId) : s.eStopArbiter.bay n = { s.bay n with grants := [] } :=
  forBays_bay (P := fun _ => True) (g := fun _ b => { b with grants := [] }) (fun _ _ _ => trivial)
    (fun n t m _ => by rw [updBay_eq, bay_setBay]; split <;> simp_all) trivial n

/-- Putting the bays' grants away changes the bays alone. -/
theorem forBays_grants_field {α : Type} (f : State → α) (h : ∀ t n b, f (State.setBay t n b) = f t) (s : State) :
    f (s.forBays (fun n t => t.updBay n (fun b => { b with grants := [] }))) = f s :=
  forBays_invariant (P := fun t => f t = f s) (fun n t ht => (h t n _).trans ht) rfl

theorem eStopArbiter_queues (s : State) : s.eStopArbiter.requests = [] ∧ s.eStopArbiter.releases = [] :=
  ⟨forBays_grants_field State.requests (fun _ _ _ => rfl) _, forBays_grants_field State.releases (fun _ _ _ => rfl) _⟩

theorem eStopArbiter_intensifier (s : State) (i : IntensifierId) :
    s.eStopArbiter.intensifier i = (s.intensifier i).eStopped := by
  cases i with
  | one => exact forBays_grants_field State.intensifier1 (fun _ _ _ => rfl) _
  | two => exact forBays_grants_field State.intensifier2 (fun _ _ _ => rfl) _

theorem eStopped_coupled {x : Intensifier} (h : x.state = .retuning ∨ x.state = .driving) : x.eStopped = { x with
    state := if x.pendingOffline then .offline else .free
    coupledBay := none
    requested := none
    retuneExpiry := none
    pendingOffline := false } := by
  unfold Intensifier.eStopped
  rcases h with h | h <;> rw [h] <;> rfl

theorem eStopped_uncoupled {x : Intensifier} (h : x.state = .free ∨ x.state = .fault ∨ x.state = .offline) :
    x.eStopped = x := by
  unfold Intensifier.eStopped
  rcases h with h | h | h <;> rw [h]

/-- Whether two intensifiers agree but for their counts, the end of their couplings does not tell. -/
theorem eStopped_bare (x : Intensifier) : x.eStopped.bare = x.bare.eStopped := by
  by_cases h : x.state = .retuning ∨ x.state = .driving
  · rw [eStopped_coupled h, eStopped_coupled (x := x.bare) h]
    rfl
  · have hother : x.state = .free ∨ x.state = .fault ∨ x.state = .offline := by
      cases hx : x.state <;> simp_all
    rw [eStopped_uncoupled hother, eStopped_uncoupled (x := x.bare) hother]

/-! ## The stations (R161) -/

/-- Both stations break off their offerings. -/
def State.stationsBreakOff (s : State) : State :=
  (s.updStation .stamper Station.breakOffering).updStation .defacer Station.breakOffering

theorem stationsBreakOff_bay (s : State) (n : BayId) : s.stationsBreakOff.bay n = s.bay n := rfl

theorem stationsBreakOff_entry (s : State) (i : RosterIndex) : s.stationsBreakOff.entry i = s.entry i := rfl

theorem stationsBreakOff_claims (s : State) : s.stationsBreakOff.claims = s.claims := rfl

theorem stationsBreakOff_intensifier (s : State) (i : IntensifierId) :
    s.stationsBreakOff.intensifier i = s.intensifier i := by cases i <;> rfl

theorem stationsBreakOff_station (s : State) (st : StationId) :
    s.stationsBreakOff.station st = (s.station st).breakOffering := by
  cases st <;> rfl

theorem breakOffering_offering {x : Station} (h : x.state = .offering) : x.breakOffering =
    { x with state := .nestLoaded, orderReady := false, limit := none, bytePos := none } := by
  unfold Station.breakOffering
  rw [h]
  rfl

theorem breakOffering_other {x : Station} (h : x.state ≠ .offering) : x.breakOffering = x := by
  unfold Station.breakOffering
  split
  · exact absurd ‹_› h
  · rfl

theorem breakOffering_bare (x : Station) : x.breakOffering.bare = x.bare.breakOffering := by
  by_cases h : x.state = .offering
  · rw [breakOffering_offering h, breakOffering_offering (x := x.bare) h]
    rfl
  · rw [breakOffering_other h, breakOffering_other (x := x.bare) h]

/-! ## The entry as a whole (R178) -/

/-- The state in which the bays and the arbiter have acted. -/
def State.eStopActed (s : State) : State := (s.eStopBase.eStopBays allBays).eStopArbiter

theorem enterEStop_eq (s : State) : s.enterEStop = s.eStopActed.stationsBreakOff := rfl

theorem frame_eStopBays (s : State) :
    Frame ([.requests, .releases, .claims] ++ bayParts ++ entryParts) s.eStopBase (s.eStopBase.eStopBays allBays) := by
  intro p hp
  simp only [List.mem_append, not_or] at hp
  obtain ⟨⟨hqueues, hbays⟩, hentries⟩ := hp
  exact eStopBays_same (by decide) (eStopBase_runState s) hqueues
    (fun m _ heq => hbays (heq ▸ part_bay_mem m)) (fun i hi => absurd (hi ▸ part_entry_mem i) hentries)

theorem frame_stationsBreakOff (s : State) : Frame [.station .stamper, .station .defacer] s s.stationsBreakOff :=
  ((frame_setStation s .stamper _).mono (by simp)).trans ((frame_setStation _ .defacer _).mono (by simp))

/-- From the acting of the bays on, lanes, outfeed and exits stay. -/
theorem frame_enterEStop_behind (s : State) : Frame
    ([.requests, .releases, .claims, .intensifier .one, .intensifier .two, .station .stamper, .station .defacer] ++
      bayParts ++ entryParts) s.eStopBase s.enterEStop := by
  rw [enterEStop_eq]
  exact ((frame_eStopBays s).mono (subset_units (by decide))).trans
    (((frame_eStopArbiter _).mono (subset_bays_units (by decide))).trans ((frame_stationsBreakOff _).mono (by simp)))

theorem frame_enterEStop (s : State) : Frame eStopParts s s.enterEStop :=
  ((frame_eStopBase s).mono (subset_bays_units (by decide))).trans
    ((frame_enterEStop_behind s).mono (subset_units (by decide)))

theorem enterEStop_runState (s : State) : s.enterEStop.runState = .eStopped :=
  (frame_enterEStop_behind s).runState_eq (by simp [bayParts, entryParts])

theorem enterEStop_bay (s : State) (n : BayId) :
    s.enterEStop.bay n = { (s.eStopBase.eStopBays allBays).bay n with grants := [] } := by
  rw [enterEStop_eq, stationsBreakOff_bay, State.eStopActed, eStopArbiter_bay]

theorem enterEStop_entry (s : State) (i : RosterIndex) :
    s.enterEStop.entry i = (s.eStopBase.eStopBays allBays).entry i := by
  rw [enterEStop_eq, stationsBreakOff_entry]
  exact (frame_eStopArbiter _).entry_eq (by simp [bayParts])

theorem enterEStop_claims (s : State) : s.enterEStop.claims = (s.eStopBase.eStopBays allBays).claims := by
  rw [enterEStop_eq, stationsBreakOff_claims]
  exact (frame_eStopArbiter _).claims_eq (by simp [bayParts])

theorem enterEStop_queues (s : State) : s.enterEStop.requests = [] ∧ s.enterEStop.releases = [] := by
  have h := frame_stationsBreakOff s.eStopActed
  rw [enterEStop_eq, h.requests_eq (by simp), h.releases_eq (by simp)]
  exact eStopArbiter_queues _

theorem enterEStop_intensifier (s : State) (i : IntensifierId) :
    (s.enterEStop.intensifier i).bare = (s.intensifier i).eStopped.bare := by
  have hbase : Same (.intensifier i) s s.eStopBase := frame_eStopBase s _ (by simp [bayParts])
  have hbays : Same (.intensifier i) s.eStopBase (s.eStopBase.eStopBays allBays) :=
    frame_eStopBays s _ (by simp [bayParts, entryParts])
  have hbefore : ((s.eStopBase.eStopBays allBays).intensifier i).bare = (s.intensifier i).bare := hbase.trans hbays
  rw [enterEStop_eq, stationsBreakOff_intensifier, State.eStopActed, eStopArbiter_intensifier, eStopped_bare, hbefore,
    eStopped_bare]

theorem enterEStop_station (s : State) (st : StationId) : (s.enterEStop.station st).bare =
    ({ s.station st with loading := (s.station st).loading.map Transit.stopped } : Station).breakOffering.bare := by
  have hbays : Same (.station st) s.eStopBase (s.eStopBase.eStopBays allBays) :=
    frame_eStopBays s _ (by simp [bayParts, entryParts])
  have harbiter : Same (.station st) (s.eStopBase.eStopBays allBays) s.eStopActed :=
    frame_eStopArbiter _ _ (by simp [bayParts])
  have hacted : (s.eStopActed.station st).bare = (s.eStopBase.station st).bare := hbays.trans harbiter
  rw [enterEStop_eq, stationsBreakOff_station, breakOffering_bare, hacted, ← breakOffering_bare, eStopBase_station]

end Sys2Proof.Machine
end

