-- ==== Sys2Proof/Proofs/EStopRules.lean ====
section
/-! E_STOP_ASSERTED (R178): what each unit ends as. -/

-- Proofs are checked one after another: the whole text, compiled as one, would otherwise start more threads than fit into the
-- check's memory.
set_option Elab.async false

namespace Sys2Proof.Machine

/-! ## A bay after the entry into E-STOPPED -/

/-- A bay at the entry into E-STOPPED, but for what its state calls for: the limit of its loading transfer has stopped, and no
grant is on its way to it any more. -/
def Bay.eStopBay (b : Bay) : Bay := { b with loading := b.loading.map Transit.stopped, grants := [] }

/-- One bay in the entry as a whole: its turn comes with it and its cylinder as they stood. -/
theorem enterEStop_turn (s : State) (n : BayId) : ∃ t : State,
    t.bay n = s.eStopBase.bay n ∧ t.runState = .eStopped ∧ t.after 60 = s.after 60 ∧
      (t.eStopBay n).claims <+: s.enterEStop.claims ∧
      s.enterEStop.bay n = { (t.eStopBay n).bay n with grants := [] } ∧
      ∀ i, (∀ m, m ≠ n → (s.bay m).index ≠ some i) →
        t.entry i = s.entry i ∧ s.enterEStop.entry i = (t.eStopBay n).entry i := by
  obtain ⟨t, hbay, hstop, htime, -, hclaims, hfinal, hentry⟩ := eStopBays_turn (eStopBase_runState s) n
  refine ⟨t, hbay, hstop, ?_, ?_, ?_, fun i hi => ?_⟩
  · rw [State.after, htime, eStopBase_lineSeconds]
    rfl
  · rw [enterEStop_claims]
    exact hclaims
  · rw [enterEStop_bay, hfinal]
  · obtain ⟨hbefore, hafter⟩ := hentry i fun m hm => by
      rw [eStopBase_bay]
      exact hi m hm
    exact ⟨hbefore.trans (eStopBase_entry s i), (enterEStop_entry s i).trans hafter⟩

section

variable {s : State} {n : BayId} {i : RosterIndex}

theorem enterEStop_pressurised (h : (s.bay n).state = .pressurising ∨ (s.bay n).state = .holding ∨
    ((s.bay n).state = .awaitIntensifier ∨ (s.bay n).state = .suspended) ∧ (s.bay n).pressurised = true) :
    s.enterEStop.bay n = (s.bay n).eStopBay.releasing (.void .eStop) (s.after 60) := by
  obtain ⟨t, hbay, -, htime, -, hfinal, -⟩ := enterEStop_turn s n
  rw [eStopBase_bay] at hbay
  have hstate : (t.bay n).state = (s.bay n).state := by rw [hbay]
  have hp : (t.bay n).pressurised = (s.bay n).pressurised := by rw [hbay]
  rw [hfinal, eStopBay_pressurised (by rw [hstate, hp]; exact h), enterReleasing_bay, htime, hbay]
  rfl

/-- An attempt under no pressure, its entry routed TEST: the void is reported, and the bay waits for the release. -/
theorem enterEStop_voided (hindex : (s.bay n).index = some i) (hothers : ∀ m, m ≠ n → (s.bay m).index ≠ some i)
    (hlive : (s.entry i).state.live = true) (hroute : (s.entry i).route = some .test)
    (haborted : (s.bay n).aborted = false) (h : (s.bay n).unpressurisedAttempt) :
    s.enterEStop.bay n = { (s.bay n).eStopBay with
      state := .settling
      outputs := ventAndDoor
      releaseCause := none
      suspendedFrom := none
      stepTimer := none
      risePaused := none
      requested := false
      kept := some .fillStep } ∧
      s.enterEStop.entry i = { s.entry i with lastVoid := some .eStop }.edited := by
  obtain ⟨t, hbay, hstop, -, -, hfinal, hentry⟩ := enterEStop_turn s n
  obtain ⟨hbefore, hafter⟩ := hentry i hothers
  rw [eStopBase_bay] at hbay
  have hattempt : (t.bay n).unpressurisedAttempt := by rw [hbay]; exact h
  have hindexT : (t.bay n).index = some i := by rw [hbay]; exact hindex
  have habortedT : (t.bay n).aborted = false := by rw [hbay]; exact haborted
  have hrouteT : (t.entry i).route = some .test := by rw [hbefore]; exact hroute
  have hact := (eStopBay_unpressurised hattempt).trans (eStopUnpressurised_test hindexT hrouteT habortedT hstop)
  constructor
  · rw [hfinal, hact, bay_setBay, if_pos rfl, hbay]
    rfl
  · have hsettled : (t.eStopSettled n).entry i = s.entry i := (eStopSettled_entry i).trans hbefore
    rw [hafter, hact, setBay_entry, reportVoid_eStop_entry (by rw [hsettled]; exact hlive) (by rw [hsettled]; exact hroute),
      hsettled]

theorem mem_placeClaim (s : State) (c : Claimant) : c ∈ (s.placeClaim c).claims := by
  unfold State.placeClaim
  dsimp only
  split
  · rename_i h
    exact List.contains_iff_mem.mp h
  · simp

/-- An attempt under no pressure whose entry's route is no longer TEST unloads with a claim. -/
theorem enterEStop_rerouted (hindex : (s.bay n).index = some i) (hothers : ∀ m, m ≠ n → (s.bay m).index ≠ some i)
    (hroute : (s.entry i).route ≠ some .test) (haborted : (s.bay n).aborted = false)
    (h : (s.bay n).unpressurisedAttempt) :
    s.enterEStop.bay n = { (s.bay n).eStopBay with requested := false }.unloading ∧
      Claimant.bay n ∈ s.enterEStop.claims ∧ s.enterEStop.entry i = s.entry i := by
  obtain ⟨t, hbay, hstop, -, hclaims, hfinal, hentry⟩ := enterEStop_turn s n
  obtain ⟨hbefore, hafter⟩ := hentry i hothers
  rw [eStopBase_bay] at hbay
  have hattempt : (t.bay n).unpressurisedAttempt := by rw [hbay]; exact h
  have hindexT : (t.bay n).index = some i := by rw [hbay]; exact hindex
  have habortedT : (t.bay n).aborted = false := by rw [hbay]; exact haborted
  have hrouteT : (t.entry i).route ≠ some .test := by rw [hbefore]; exact hroute
  have hact := (eStopBay_unpressurised hattempt).trans (eStopUnpressurised_other hindexT hrouteT habortedT)
  rw [hact] at hfinal hclaims hafter
  refine ⟨?_, hclaims.subset ?_, ?_⟩
  · rw [hfinal, unloadToOutfeed_bay, bay_setBay, if_pos rfl, hbay]
    rfl
  · rw [unloadToOutfeed_claims]
    exact mem_placeClaim _ _
  · rw [hafter, unloadToOutfeed_entry, setBay_entry, eStopSettled_entry, hbefore]

/-- A check that holds an attempt open ends it with a void E-STOP. -/
theorem enterEStop_openCheck (hindex : (s.bay n).index = some i) (hothers : ∀ m, m ≠ n → (s.bay m).index ≠ some i)
    (hlive : (s.entry i).state.live = true) (hroute : (s.entry i).route = some .test) (h : (s.bay n).openCheck) :
    s.enterEStop.entry i = { s.entry i with lastVoid := some .eStop }.edited := by
  obtain ⟨t, hbay, -, -, -, -, hentry⟩ := enterEStop_turn s n
  obtain ⟨hbefore, hafter⟩ := hentry i hothers
  rw [eStopBase_bay] at hbay
  have hstate : (t.bay n).state = .zeroing := by rw [hbay]; exact h.1
  have hresume : (t.bay n).resume = (s.bay n).resume := by rw [hbay]
  have hindexT : (t.bay n).index = some i := by rw [hbay]; exact hindex
  rw [hafter, eStopBay_zeroing hstate, abandonCheck_open (by rw [hresume]; exact h.2) hindexT, updBay_eq, setBay_entry,
    reportVoid_eStop_entry (by simpa [hbefore] using hlive) (by simpa [hbefore] using hroute), updBay_eq, setBay_entry,
    hbefore]

theorem enterEStop_zeroing (h : (s.bay n).state = .zeroing) : s.enterEStop.bay n = { (s.bay n).eStopBay with
    stepTimer := none
    outputs := { (s.bay n).outputs with buretteDrain := false }
    resume :=
      if ((s.bay n).resume = some .request ∨ (s.bay n).resume = some .suspend) ∧ (s.bay n).index.isSome = true then some .fill
      else (s.bay n).resume } := by
  obtain ⟨t, hbay, -, -, -, hfinal, -⟩ := enterEStop_turn s n
  rw [eStopBase_bay] at hbay
  rw [hfinal, eStopBay_zeroing (by rw [hbay]; exact h), abandonCheck_bay, hbay]
  rfl

theorem enterEStop_offline (h : (s.bay n).state = .offline) :
    s.enterEStop.bay n = { (s.bay n).eStopBay with outputs := BayOutputs.rest } := by
  obtain ⟨t, hbay, -, -, -, hfinal, -⟩ := enterEStop_turn s n
  rw [eStopBase_bay] at hbay
  rw [hfinal, eStopBay_offline (by rw [hbay]; exact h), updBay_eq, bay_setBay, if_pos rfl, hbay]
  rfl

theorem enterEStop_other (h : (s.bay n).state = .starting ∨ (s.bay n).state = .idle ∨ (s.bay n).state = .loading ∨
    (s.bay n).state = .releasing ∨ (s.bay n).state = .settling ∨ (s.bay n).state = .unloading ∨
    (s.bay n).state = .fault) : s.enterEStop.bay n = (s.bay n).eStopBay := by
  obtain ⟨t, hbay, -, -, -, hfinal, -⟩ := enterEStop_turn s n
  rw [eStopBase_bay] at hbay
  have hstate : (t.bay n).state = (s.bay n).state := by rw [hbay]
  rw [hfinal, eStopBay_other (by rw [hstate]; exact h), hbay]
  rfl

/-- An entry that no bay reports on. -/
theorem enterEStop_entry_kept
    (h : ∀ n, (s.bay n).index = some i → ¬(s.bay n).unpressurisedAttempt ∧ ¬(s.bay n).openCheck) :
    s.enterEStop.entry i = s.entry i := by
  rw [enterEStop_entry, ← eStopBase_entry s i]
  refine eStopBays_same (by decide) (eStopBase_runState s) (p := .entry i) (by simp) (by simp) fun j hj m _ hindex => ?_
  cases hj
  rw [eStopBase_bay] at hindex ⊢
  exact not_or.mpr (h m hindex)

end

/-! ## The claims -/

theorem enterEStop_new_claims (s : State) : s.claims <+: s.enterEStop.claims ∧
    (∀ c ∈ s.enterEStop.claims, c ∉ s.claims → ∃ n, c = .bay n ∧ (s.bay n).unpressurisedAttempt) ∧
    ((∀ n, (s.bay n).unpressurisedAttempt → (s.bay n).aborted = false ∧
      ∀ i, (s.bay n).index = some i → (s.entry i).route = some .test) → s.enterEStop.claims = s.claims) := by
  obtain ⟨hprefix, hnew⟩ := eStopBays_claims (l := allBays) (by decide) (eStopBase_runState s)
  rw [enterEStop_claims]
  refine ⟨hprefix, fun c hc hn => ?_, fun hall => ?_⟩
  · obtain ⟨m, -, rfl, hattempt⟩ := hnew c hc hn
    rw [eStopBase_bay] at hattempt
    exact ⟨m, rfl, hattempt⟩
  · refine eStopBays_no_claims (by decide) (eStopBase_runState s) fun m _ hattempt => ?_
    rw [eStopBase_bay] at hattempt ⊢
    exact hall m hattempt

/-! ## E_STOP_ASSERTED -/

theorem frame_setEStopInput (s : State) (level : Bool) : Frame [.eStopInput] s { s with eStopInput := level } := by
  intro p hp
  cases p
  case eStopInput => simp at hp
  case store => exact .of_mem_eq rfl
  all_goals first | rfl | exact ⟨rfl, rfl⟩ | exact ⟨rfl, rfl, rfl⟩ | exact ⟨rfl, rfl, rfl, rfl⟩

theorem assertEStop_on {s : State} (h : s.eStopInput = true) : s.assertEStop = s := if_pos h

theorem assertEStop_idle {s : State} (h : s.eStopInput = false) (hr : s.runState = .awaitingTables ∨ s.runState = .eStopped) :
    s.assertEStop = { s with eStopInput := true } := by
  rw [State.assertEStop, if_neg (by simp [h])]
  rcases hr with hr | hr <;> rw [hr]

theorem assertEStop_entry {s : State} (h : s.eStopInput = false)
    (hr : s.runState = .ready ∨ s.runState = .running ∨ s.runState = .stopping) :
    s.assertEStop = ({ s with eStopInput := true } : State).enterEStop.raiseAlert runSource .eStopAsserted := by
  rw [State.assertEStop, if_neg (by simp [h])]
  rcases hr with hr | hr | hr <;> rw [hr]

/-! ## The lanes, the outfeed and the exits (R77) -/

theorem enterEStop_lane (s : State) (l : LaneId) : (s.enterEStop.lane l).bare = { s.lane l with
    permit := false
    track := (s.lane l).track.map (Position.mapTransit Transit.stopped) }.bare := by
  rw [(frame_enterEStop_behind s).lane_bare_eq (by simp [bayParts, entryParts]), eStopBase_lane]

theorem enterEStop_outfeed (s : State) :
    s.enterEStop.outfeedState = s.outfeedState ∧ s.enterEStop.outfeedHeadInFlight = s.outfeedHeadInFlight ∧
      s.enterEStop.outfeedQueue = s.outfeedQueue.map (Position.mapTransit Transit.stopped) ∧
      s.enterEStop.exits = s.exits.map (fun x => { x with transit := x.transit.stopped }) := by
  obtain ⟨hstate, hqueue, hhead⟩ := frame_enterEStop_behind s .outfeed (by simp [bayParts, entryParts])
  have hexits : s.enterEStop.exits = s.eStopBase.exits :=
    frame_enterEStop_behind s .exits (by simp [bayParts, entryParts])
  exact ⟨hstate, hhead, hqueue, hexits⟩

/-- Settles O41. -/
theorem eStopAsserted : Obligations.EStopAsserted := by
  intro s
  have hx : exec .eStopAsserted s = .next (s.publish s.assertEStop) := rfl
  refine ⟨fun h => ?_, fun h hr => ?_, fun h hr => ?_⟩
  · rw [assertEStop_on h] at hx
    exact ⟨_, hx, (Frame.refl [] s).publish⟩
  · rw [assertEStop_idle h hr] at hx
    exact ⟨_, hx, by simp, (frame_setEStopInput s true).publish⟩
  · rw [assertEStop_entry h hr] at hx
    refine ⟨_, hx, ?_⟩
    have hbefore : Frame [.eStopInput] s { s with eStopInput := true } := frame_setEStopInput s true
    generalize hv : ({ s with eStopInput := true } : State) = v at hx hbefore
    have hinput : v.eStopInput = true := hv ▸ rfl
    have hbay (n : BayId) : v.bay n = s.bay n := hv ▸ rfl
    have hentry (i : RosterIndex) : v.entry i = s.entry i := hv ▸ rfl
    have htime (k : Nat) : v.after k = s.after k := hv ▸ rfl
    have hlane (l : LaneId) : v.lane l = s.lane l := hv ▸ rfl
    have hclaims : v.claims = s.claims := hv ▸ rfl
    have hoff : v.enterEStop.eStopInput = true :=
      Eq.trans (frame_enterEStop v .eStopInput (by simp [eStopParts, bayParts, entryParts])) hinput
    obtain ⟨hstate0, hqueue0, hhead0⟩ := hbefore .outfeed (by simp)
    have hexits0 : v.exits = s.exits := hbefore .exits (by simp)
    have hintensifier (i : IntensifierId) : v.intensifier i = s.intensifier i := hv ▸ rfl
    have hstation (st : StationId) : v.station st = s.station st := hv ▸ rfl
    have hframe : Frame ([.eStopInput, .runState, .notices, .alertSeen, .lane .a, .lane .b, .outfeed, .exits, .claims,
        .requests, .releases, .intensifier .one, .intensifier .two, .station .stamper, .station .defacer] ++
          bayParts ++ entryParts) s (v.enterEStop.raiseAlert runSource .eStopAsserted) :=
      (hbefore.mono (by simp)).trans (((frame_enterEStop v).mono
        (subset_units (by decide))).trans
        ((frame_raiseAlert _ _ _).mono (by simp)))
    have hothers {n : BayId} {i : RosterIndex} (h : ∀ m, m ≠ n → (s.bay m).index ≠ some i) :
        ∀ m, m ≠ n → (v.bay m).index ≠ some i := fun m hm => by rw [hbay]; exact h m hm
    refine ⟨⟨?_, ?_, (alerted_raiseAlert _ _ _).publish⟩, fun l => ?_, ?_, ?_, fun i => ?_, fun st => ?_, fun n => ?_,
      fun i h => ?_, ?_, hframe.publish⟩
    · rw [publish_eStopInput, raiseAlert_eStopInput, hoff]
    · rw [publish_runState, raiseAlert_runState, enterEStop_runState]
    · rw [publish_lane_bare, raiseAlert_lane, enterEStop_lane, hlane]
    · obtain ⟨hstate, hhead, hqueue, hexits⟩ := enterEStop_outfeed v
      rw [publish_outfeedState, publish_outfeedHeadInFlight, publish_outfeedQueue, publish_exits,
        raiseAlert_outfeedState, raiseAlert_outfeedHeadInFlight, raiseAlert_outfeedQueue, raiseAlert_exits, hstate, hhead,
        hqueue, hexits, hstate0, hhead0, hqueue0, hexits0]
      exact ⟨rfl, rfl, rfl, rfl⟩
    · obtain ⟨hrequests, hreleases⟩ := enterEStop_queues v
      rw [publish_requests, publish_releases, raiseAlert_requests, raiseAlert_releases]
      exact ⟨hrequests, hreleases⟩
    · have hi : ((s.publish (v.enterEStop.raiseAlert runSource .eStopAsserted)).intensifier i).bare =
          (s.intensifier i).eStopped.bare := by
        rw [publish_intensifier_bare, raiseAlert_intensifier, enterEStop_intensifier, hintensifier]
      exact ⟨fun h => hi.trans (by rw [eStopped_coupled h]), fun h => hi.trans (by rw [eStopped_uncoupled h])⟩
    · have hst : ((s.publish (v.enterEStop.raiseAlert runSource .eStopAsserted)).station st).bare =
          ({ s.station st with loading := (s.station st).loading.map Transit.stopped } : Station).breakOffering.bare := by
        rw [publish_station_bare, raiseAlert_station, enterEStop_station, hstation]
      exact ⟨fun h => hst.trans (by rw [breakOffering_offering h]), fun h => hst.trans (by rw [breakOffering_other h])⟩
    · have hb : ((s.publish (v.enterEStop.raiseAlert runSource .eStopAsserted)).bay n).bare = (v.enterEStop.bay n).bare := by
        rw [publish_bay_bare, raiseAlert_bay]
      have he (i : RosterIndex) : (s.publish (v.enterEStop.raiseAlert runSource .eStopAsserted)).entry i =
          v.enterEStop.entry i := by
        rw [publish_entry, raiseAlert_entry]
      have hc : (s.publish (v.enterEStop.raiseAlert runSource .eStopAsserted)).claims = v.enterEStop.claims := by
        rw [publish_claims, raiseAlert_claims]
      have hlive {i : RosterIndex} (h : (s.entry i).state = .testing) : (v.entry i).state.live = true := by
        rw [hentry, h]
        rfl
      intro b
      refine ⟨fun h => ?_, fun i hindex ho htesting hroute haborted h => ?_, fun i hindex ho hroute haborted h => ?_,
        fun i hindex ho htesting hroute h => ?_, fun h => ?_, fun h => ?_, fun h => ?_⟩
      · rw [hb, enterEStop_pressurised (by rw [hbay]; exact h), hbay, htime]
        rfl
      · obtain ⟨hvalue, hvoid⟩ := enterEStop_voided (s := v) (n := n) (i := i) (by rw [hbay]; exact hindex) (hothers ho)
          (hlive htesting) (by rw [hentry]; exact hroute) (by rw [hbay]; exact haborted) (by rw [hbay]; exact h)
        rw [hb, he, hvalue, hvoid, hbay, hentry]
        exact ⟨rfl, rfl⟩
      · obtain ⟨hvalue, hclaim, hkept⟩ := enterEStop_rerouted (s := v) (n := n) (i := i) (by rw [hbay]; exact hindex)
          (hothers ho) (by rw [hentry]; exact hroute) (by rw [hbay]; exact haborted) (by rw [hbay]; exact h)
        rw [hb, he, hc, hvalue, hkept, hbay, hentry]
        exact ⟨rfl, hclaim, rfl⟩
      · rw [he, enterEStop_openCheck (s := v) (n := n) (by rw [hbay]; exact hindex) (hothers ho) (hlive htesting)
          (by rw [hentry]; exact hroute) (by rw [hbay]; exact h), hentry]
      · rw [hb, enterEStop_zeroing (by rw [hbay]; exact h), hbay]
        rfl
      · rw [hb, enterEStop_offline (by rw [hbay]; exact h), hbay]
        rfl
      · rw [hb, enterEStop_other (by rw [hbay]; exact h), hbay]
        rfl
    · rw [publish_entry, raiseAlert_entry, enterEStop_entry_kept (by simpa only [hbay] using h), hentry]
    · obtain ⟨hprefix, hnew, hnone⟩ := enterEStop_new_claims v
      rw [publish_claims, raiseAlert_claims]
      rw [hclaims] at hprefix hnew hnone
      simp only [hbay, hentry] at hnew hnone
      exact ⟨hprefix, hnew, hnone⟩

end Sys2Proof.Machine
end

