-- ==== Sys2Proof/Proofs/EStopRelease.lean ====
section
/-! E_STOP_RELEASED (R120, R122, R132, R178): every bay owes a check and takes the step it was kept from. -/

-- Proofs are checked one after another: the whole text, compiled as one, would otherwise start more threads than fit into the
-- check's memory.
set_option Elab.async false

namespace Sys2Proof.Machine

/-! ## The step a bay takes at the release (R120, R128, R132) -/

/-- A bay that owes a check, after its step at the release. -/
def Bay.eStopReleased (b : Bay) (tables : Bool) (expiry : Seconds) : Bay :=
  match b.state with
  | .loading => if b.loading = none ∧ b.index.isSome = true then b.checking (some .fill) expiry else b
  | .zeroing =>
    if b.stepTimer = none then
      { b with
        outputs := { b.outputs with buretteDrain := true }
        stepTimer := some expiry
        sampleSeen := false }
    else b
  | .idle => b.checking none expiry
  | .starting => if tables then b.checking none expiry else b
  | _ =>
    match b.kept with
    | some .fillStep => b.checking (some .fill) expiry
    | some (.zeroing rp) => b.checking (some rp) expiry
    | none => b

section

variable {s : State} {n : BayId}

/-- The fill step of a bay that owes a check, outside E-STOPPED (R96). -/
theorem fillStep_owing (hrun : s.runState ≠ .eStopped) (howed : 0 < (s.bay n).checksOwed) :
    s.fillStep n = s.enterZeroing n (some .fill) := by
  rw [State.fillStep, if_neg (by simp [stopped_eq_false hrun]), if_pos (.inl howed)]

theorem enterZeroing_bay_all (hrun : s.runState ≠ .eStopped) (rp : Option ResumePoint) (m : BayId) :
    (s.enterZeroing n rp).bay m = if n = m then (s.bay m).checking rp (s.after 40) else s.bay m := by
  by_cases hm : n = m
  · subst hm
    rw [if_pos rfl, enterZeroing_bay n rp (stopped_eq_false hrun)]
  · rw [if_neg hm]
    exact (frame_enterZeroing s n rp).bay_eq (by simpa using Ne.symm hm)

theorem takeKept_eq (hrun : s.runState ≠ .eStopped) (howed : 0 < (s.bay n).checksOwed) : s.takeKept n =
    match (s.bay n).kept with
    | some .fillStep => s.enterZeroing n (some .fill)
    | some (.zeroing rp) => s.enterZeroing n (some rp)
    | none => s := by
  unfold State.takeKept
  rw [fillStep_owing hrun howed] <;> rfl

theorem takeKept_bay (hrun : s.runState ≠ .eStopped) (howed : 0 < (s.bay n).checksOwed) (m : BayId) :
    (s.takeKept n).bay m = if n = m then
      (match (s.bay m).kept with
       | some .fillStep => (s.bay m).checking (some .fill) (s.after 40)
       | some (.zeroing rp) => (s.bay m).checking (some rp) (s.after 40)
       | none => s.bay m)
    else s.bay m := by
  rw [takeKept_eq hrun howed]
  by_cases hm : n = m
  · subst hm
    cases (s.bay n).kept with
    | none => simp
    | some k => cases k <;> simp [enterZeroing_bay_all hrun]
  · cases (s.bay n).kept with
    | none => simp [hm]
    | some k => cases k <;> simp [enterZeroing_bay_all hrun, hm]

theorem frame_takeKept (hrun : s.runState ≠ .eStopped) (howed : 0 < (s.bay n).checksOwed) :
    Frame [.bay n] s (s.takeKept n) := by
  rw [takeKept_eq hrun howed]
  split
  · exact frame_enterZeroing s n _
  · exact frame_enterZeroing s n _
  · exact .refl _ s

theorem releaseStep_loading (hstate : (s.bay n).state = .loading) (hrun : s.runState ≠ .eStopped)
    (howed : 0 < (s.bay n).checksOwed) : s.releaseStep n =
      if (s.bay n).loading = none ∧ (s.bay n).index.isSome = true then
        (s.updBay n (fun b => { b with outputs := { b.outputs with door := true } })).enterZeroing n (some .fill)
      else s := by
  unfold State.releaseStep
  rw [hstate]
  dsimp only
  rw [fillStep_owing (s := s.updBay n _) hrun (by simpa using howed)]

theorem releaseStep_zeroing (hstate : (s.bay n).state = .zeroing) : s.releaseStep n =
    if (s.bay n).stepTimer = none then
      (s.updBay n (fun b => { b with outputs := { b.outputs with buretteDrain := true } })).beginCheck n
    else s := by
  unfold State.releaseStep
  rw [hstate]

theorem releaseStep_idle (hstate : (s.bay n).state = .idle) (hrun : s.runState ≠ .eStopped)
    (howed : 0 < (s.bay n).checksOwed) : s.releaseStep n = s.enterZeroing n none := by
  unfold State.releaseStep
  rw [hstate]
  exact if_pos ⟨hstate, stopped_eq_false hrun, .inl howed⟩

theorem releaseStep_starting (hstate : (s.bay n).state = .starting) : s.releaseStep n = s.leaveStarting n := by
  unfold State.releaseStep
  rw [hstate]

theorem releaseStep_other (hloading : (s.bay n).state ≠ .loading) (hzeroing : (s.bay n).state ≠ .zeroing)
    (hidle : (s.bay n).state ≠ .idle) (hstarting : (s.bay n).state ≠ .starting) :
    s.releaseStep n = s.takeKept n := by
  unfold State.releaseStep
  split
  · exact absurd ‹_› hloading
  · exact absurd ‹_› hzeroing
  · exact absurd ‹_› hidle
  · exact absurd ‹_› hstarting
  · rfl

theorem eStopReleased_other {b : Bay} {tables : Bool} {expiry : Seconds} (hloading : b.state ≠ .loading)
    (hzeroing : b.state ≠ .zeroing) (hidle : b.state ≠ .idle) (hstarting : b.state ≠ .starting) :
    b.eStopReleased tables expiry =
      match b.kept with
      | some .fillStep => b.checking (some .fill) expiry
      | some (.zeroing rp) => b.checking (some rp) expiry
      | none => b := by
  unfold Bay.eStopReleased
  split
  · exact absurd ‹_› hloading
  · exact absurd ‹_› hzeroing
  · exact absurd ‹_› hidle
  · exact absurd ‹_› hstarting
  · rfl

theorem releaseStep_bay (hrun : s.runState ≠ .eStopped) (howed : 0 < (s.bay n).checksOwed) (m : BayId) :
    (s.releaseStep n).bay m =
      if n = m then (s.bay m).eStopReleased s.tablesHeld (s.after 40) else s.bay m := by
  by_cases hloading : (s.bay n).state = .loading
  · rw [releaseStep_loading hloading hrun howed]
    by_cases hm : n = m
    · subst hm
      rw [if_pos rfl, Bay.eStopReleased, hloading]
      dsimp only
      by_cases hc : (s.bay n).loading = none ∧ (s.bay n).index.isSome = true
      · rw [if_pos hc, if_pos hc, enterZeroing_bay_all (s := s.updBay n _) hrun, if_pos rfl, updBay_eq, bay_setBay, if_pos rfl, setBay_after]
        rfl
      · rw [if_neg hc, if_neg hc]
    · rw [if_neg hm]
      split
      · rw [enterZeroing_bay_all (s := s.updBay n _) hrun, if_neg hm, updBay_eq, bay_setBay, if_neg hm]
      · rfl
  by_cases hzeroing : (s.bay n).state = .zeroing
  · rw [releaseStep_zeroing hzeroing]
    by_cases hm : n = m
    · subst hm
      rw [if_pos rfl, Bay.eStopReleased, hzeroing]
      dsimp only
      split
      · simp [State.beginCheck, Config.checkTime, hzeroing]
      · rfl
    · rw [if_neg hm]
      split
      · simp [State.beginCheck, hm]
      · rfl
  by_cases hidle : (s.bay n).state = .idle
  · rw [releaseStep_idle hidle hrun howed, enterZeroing_bay_all hrun]
    by_cases hm : n = m
    · subst hm
      rw [if_pos rfl, if_pos rfl, Bay.eStopReleased, hidle]
    · rw [if_neg hm, if_neg hm]
  by_cases hstarting : (s.bay n).state = .starting
  · rw [releaseStep_starting hstarting, leaveStarting_bay]
    by_cases hm : n = m
    · subst hm
      rw [if_pos rfl, if_pos rfl, Bay.eStopReleased, hstarting, Bay.leftStarting, stopped_eq_false hrun]
      simp [hstarting]
    · rw [if_neg hm, if_neg hm]
  · rw [releaseStep_other hloading hzeroing hidle hstarting, takeKept_bay hrun howed]
    by_cases hm : n = m
    · subst hm
      rw [if_pos rfl, if_pos rfl, eStopReleased_other hloading hzeroing hidle hstarting]
    · rw [if_neg hm, if_neg hm]

theorem frame_releaseStep (hrun : s.runState ≠ .eStopped) (howed : 0 < (s.bay n).checksOwed) :
    Frame [.bay n] s (s.releaseStep n) := by
  by_cases hloading : (s.bay n).state = .loading
  · rw [releaseStep_loading hloading hrun howed]
    exact .ite (fun _ => (frame_setBay s n _).trans (frame_enterZeroing _ n _)) (fun _ => .refl _ s)
  by_cases hzeroing : (s.bay n).state = .zeroing
  · rw [releaseStep_zeroing hzeroing]
    exact .ite (fun _ => (frame_setBay s n _).trans (frame_beginCheck _ n)) (fun _ => .refl _ s)
  by_cases hidle : (s.bay n).state = .idle
  · rw [releaseStep_idle hidle hrun howed]
    exact frame_enterZeroing s n _
  by_cases hstarting : (s.bay n).state = .starting
  · rw [releaseStep_starting hstarting]
    exact frame_leaveStarting s n
  · rw [releaseStep_other hloading hzeroing hidle hstarting]
    exact frame_takeKept hrun howed

/-- The step keeps the checks a bay owes. -/
theorem eStopReleased_checksOwed (b : Bay) (tables : Bool) (expiry : Seconds) :
    (b.eStopReleased tables expiry).checksOwed = b.checksOwed := by
  unfold Bay.eStopReleased
  split
  · split <;> rfl
  · split <;> rfl
  · rfl
  · split <;> rfl
  · split <;> rfl

end

/-! ## The six bays in turn -/

/-- The steps of the six bays at the release, each on its own. -/
theorem forBays_releaseStep (s : State) (hrun : s.runState ≠ .eStopped) (howed : ∀ n, 0 < (s.bay n).checksOwed) :
    (∀ n, (s.forBays (fun n t => t.releaseStep n)).bay n = (s.bay n).eStopReleased s.tablesHeld (s.after 40)) ∧
      Frame bayParts s (s.forBays (fun n t => t.releaseStep n)) := by
  have hkeep (n : BayId) (t : State) (h : Frame bayParts s t ∧ ∀ m, 0 < (t.bay m).checksOwed) :
      Frame bayParts s (t.releaseStep n) ∧ ∀ m, 0 < ((t.releaseStep n).bay m).checksOwed := by
    obtain ⟨hframe, howedT⟩ := h
    have hrunT : t.runState ≠ .eStopped := by rwa [hframe.runState_eq (by decide)]
    refine ⟨hframe.trans ((frame_releaseStep hrunT (howedT n)).mono (by simpa using part_bay_mem n)), fun m => ?_⟩
    rw [releaseStep_bay hrunT (howedT n)]
    split
    · rw [eStopReleased_checksOwed]
      exact howedT m
    · exact howedT m
  refine ⟨fun n => ?_, (forBays_invariant (P := fun t => Frame bayParts s t ∧ ∀ m, 0 < (t.bay m).checksOwed) hkeep
    ⟨.refl _ s, howed⟩).1⟩
  refine forBays_bay (P := fun t => Frame bayParts s t ∧ ∀ m, 0 < (t.bay m).checksOwed)
    (g := fun _ b => b.eStopReleased s.tablesHeld (s.after 40)) hkeep (fun n t m h => ?_) ⟨.refl _ s, howed⟩ n
  obtain ⟨hframe, howedT⟩ := h
  have hrunT : t.runState ≠ .eStopped := by rwa [hframe.runState_eq (by decide)]
  have htables : t.tablesHeld = s.tablesHeld := (hframe .settings (by decide)).2.1
  rw [releaseStep_bay hrunT (howedT n), htables, hframe.after_eq (by decide)]

/-! ## E_STOP_RELEASED (R178) -/

/-- The state before the bays take their steps: READY with its alert, every bay owing a check, the limits of the transfers in
flight running again. -/
def State.eStopReleasing (s : State) : State :=
  ((((s.setRunState .ready).raiseAlert runSource .eStopReleased).evalPermits).forBays (fun n t =>
    t.updBay n Bay.oweCheck)).mapTransits (Transit.restarted s.lineSeconds)

theorem releaseEStop_off {s : State} (h : s.eStopInput = false) : s.releaseEStop = s := if_neg (by simp [h])

theorem releaseEStop_other {s : State} (h : s.eStopInput = true) (hr : s.runState ≠ .eStopped) :
    s.releaseEStop = { s with eStopInput := false } := by
  rw [State.releaseEStop, if_pos h]
  dsimp only
  split
  · exact absurd ‹_› hr
  all_goals rfl

theorem releaseEStop_stopped {s : State} (h : s.eStopInput = true) (hr : s.runState = .eStopped) : s.releaseEStop =
    ({ s with eStopInput := false } : State).eStopReleasing.forBays (fun n t => t.releaseStep n) := by
  rw [State.releaseEStop, if_pos h]
  dsimp only
  rw [hr]
  rfl

theorem forBays_oweCheck_bay (s : State) (n : BayId) :
    (s.forBays (fun n t => t.updBay n Bay.oweCheck)).bay n = (s.bay n).oweCheck :=
  forBays_bay (P := fun _ => True) (g := fun _ b => b.oweCheck) (fun _ _ _ => trivial)
    (fun n t m _ => by rw [updBay_eq, bay_setBay]; split <;> simp_all) trivial n

theorem frame_forBays_oweCheck (s : State) : Frame bayParts s (s.forBays (fun n t => t.updBay n Bay.oweCheck)) :=
  frame_forBays (fun n t => (frame_setBay t n _).mono (by simpa using part_bay_mem n)) s

section

variable (s : State)

/-- The state in which the alert is raised and the permits are set. -/
def State.eStopReady (s : State) : State := ((s.setRunState .ready).raiseAlert runSource .eStopReleased).evalPermits

theorem frame_eStopReady : Frame [.runState, .notices, .alertSeen, .lane .a, .lane .b] s s.eStopReady :=
  ((frame_setRunState s _).mono (by simp)).trans
    (((frame_raiseAlert _ _ _).mono (by simp)).trans ((frame_evalPermits _).mono (by simp)))

theorem alerted_eStopReady : Alerted runSource .eStopReleased s.eStopReady :=
  (alerted_raiseAlert (s.setRunState .ready) runSource .eStopReleased).of_frame (frame_evalPermits _) (by simp) (by simp)

theorem eStopReady_bay (n : BayId) : s.eStopReady.bay n = s.bay n :=
  (frame_eStopReady s).bay_eq (by simp)

theorem eStopReady_lane (l : LaneId) : s.eStopReady.lane l = { s.lane l with permit := false } := by
  have hoff : ((s.setRunState .ready).raiseAlert runSource .eStopReleased).permitHolds l = false := by
    rw [State.permitHolds, raiseAlert_runState]
    rfl
  rw [State.eStopReady, evalPermits_lane, hoff, raiseAlert_lane]
  rfl

theorem eStopReleasing_eq : s.eStopReleasing =
    (s.eStopReady.forBays (fun n t => t.updBay n Bay.oweCheck)).mapTransits (Transit.restarted s.lineSeconds) := rfl

theorem eStopReleasing_bay (n : BayId) : s.eStopReleasing.bay n = { s.bay n with
    checksOwed := max 1 (s.bay n).checksOwed
    loading := (s.bay n).loading.map (Transit.restarted s.lineSeconds) } := by
  rw [eStopReleasing_eq, mapTransits_bay, forBays_oweCheck_bay, eStopReady_bay]
  rfl

theorem eStopReleasing_lane (l : LaneId) : (s.eStopReleasing.lane l).bare = { s.lane l with
    permit := false
    track := (s.lane l).track.map (Position.mapTransit (Transit.restarted s.lineSeconds)) }.bare := by
  have hbare := (frame_forBays_oweCheck s.eStopReady).lane_bare_eq (l := l) (by cases l <;> decide)
  have htrack := congrArg (fun x : Lane => { x with track := x.track.map (Position.mapTransit (Transit.restarted s.lineSeconds)) }) hbare
  rw [eStopReleasing_eq, mapTransits_lane]
  refine Eq.trans htrack ?_
  rw [eStopReady_lane]
  rfl

theorem eStopReleasing_station (st : StationId) : (s.eStopReleasing.station st).bare =
    { s.station st with loading := (s.station st).loading.map (Transit.restarted s.lineSeconds) }.bare := by
  have hstart : Same (.station st) s s.eStopReady := frame_eStopReady s _ (by simp)
  have howe : Same (.station st) s.eStopReady (s.eStopReady.forBays (fun n t => t.updBay n Bay.oweCheck)) :=
    frame_forBays_oweCheck _ _ (by cases st <;> decide)
  have hbare : ((s.eStopReady.forBays (fun n t => t.updBay n Bay.oweCheck)).station st).bare = (s.station st).bare :=
    hstart.trans howe
  rw [eStopReleasing_eq, mapTransits_station]
  exact congrArg (fun x : Station => { x with loading := x.loading.map (Transit.restarted s.lineSeconds) }) hbare

theorem frame_eStopReleasing : Frame ([.runState, .notices, .alertSeen, .lane .a, .lane .b, .outfeed, .exits,
    .station .stamper, .station .defacer] ++ bayParts) s s.eStopReleasing :=
  ((frame_eStopReady s).mono (List.subset_append_of_subset_left _ (by decide))).trans
    (((frame_forBays_oweCheck _).mono (List.subset_append_right _ _)).trans
      ((frame_mapTransits _ _).mono (subset_bays (by decide))))

theorem eStopReleasing_runState : s.eStopReleasing.runState = .ready := by
  rw [eStopReleasing_eq, mapTransits_runState, (frame_forBays_oweCheck _).runState_eq (by decide)]
  rfl

theorem eStopReleasing_outfeed :
    s.eStopReleasing.outfeedState = s.outfeedState ∧ s.eStopReleasing.outfeedHeadInFlight = s.outfeedHeadInFlight ∧
      s.eStopReleasing.outfeedQueue = s.outfeedQueue.map (Position.mapTransit (Transit.restarted s.lineSeconds)) ∧
      s.eStopReleasing.exits = s.exits.map (fun x => { x with transit := x.transit.restarted s.lineSeconds }) := by
  have hframe : Frame ([.runState, .notices, .alertSeen, .lane .a, .lane .b] ++ bayParts) s
      (s.eStopReady.forBays (fun n t => t.updBay n Bay.oweCheck)) :=
    ((frame_eStopReady s).mono (List.subset_append_left _ _)).trans
      ((frame_forBays_oweCheck _).mono (List.subset_append_right _ _))
  obtain ⟨hstate, hqueue, hhead⟩ := hframe .outfeed (by decide)
  have hexits : (s.eStopReady.forBays (fun n t => t.updBay n Bay.oweCheck)).exits = s.exits := hframe .exits (by decide)
  rw [eStopReleasing_eq]
  exact ⟨hstate, hhead, congrArg (List.map _) hqueue, congrArg (List.map _) hexits⟩

theorem alerted_eStopReleasing : Alerted runSource .eStopReleased s.eStopReleasing := by
  rw [eStopReleasing_eq]
  exact ((alerted_eStopReady s).of_frame (frame_forBays_oweCheck _) (by decide) (by decide)).of_frame
    (frame_mapTransits _ _) (by decide) (by decide)

end

/-- Settles O42. -/
theorem eStopReleased : Obligations.EStopReleased := by
  intro s
  have hx : exec .eStopReleased s = .next (s.publish s.releaseEStop) := rfl
  refine ⟨fun h => ?_, fun h hr => ?_, fun h hr => ?_⟩
  · rw [releaseEStop_off h] at hx
    exact ⟨_, hx, (Frame.refl [] s).publish⟩
  · rw [releaseEStop_other h hr] at hx
    exact ⟨_, hx, by simp, (frame_setEStopInput s false).publish⟩
  · rw [releaseEStop_stopped h hr] at hx
    have hbefore : Frame [.eStopInput] s { s with eStopInput := false } := frame_setEStopInput s false
    generalize hv : ({ s with eStopInput := false } : State) = v at hx hbefore
    have hinput : v.eStopInput = false := hv ▸ rfl
    have htime : v.lineSeconds = s.lineSeconds := hv ▸ rfl
    have hbay (n : BayId) : v.bay n = s.bay n := hv ▸ rfl
    have hlane (l : LaneId) : v.lane l = s.lane l := hv ▸ rfl
    have hstation (st : StationId) : v.station st = s.station st := hv ▸ rfl
    have htables : v.tablesHeld = s.tablesHeld := hv ▸ rfl
    obtain ⟨hstate0, hqueue0, hhead0⟩ := hbefore .outfeed (by simp)
    have hexits0 : v.exits = s.exits := hbefore .exits (by simp)
    have hrun : v.eStopReleasing.runState = .ready := eStopReleasing_runState v
    have howed (n : BayId) : 0 < (v.eStopReleasing.bay n).checksOwed := by
      rw [eStopReleasing_bay]
      exact Nat.lt_of_lt_of_le Nat.zero_lt_one (Nat.le_max_left _ _)
    obtain ⟨hbays, hsteps⟩ := forBays_releaseStep v.eStopReleasing (by rw [hrun]; decide) howed
    generalize hu : v.eStopReleasing.forBays (fun n t => t.releaseStep n) = u at hx hbays hsteps
    refine ⟨_, hx, ⟨?_, ?_, ?_⟩, fun l => ?_, ?_, fun st => ?_, fun n => ?_, ?_⟩
    · rw [publish_eStopInput]
      exact (Eq.trans (hsteps .eStopInput (by decide)) (frame_eStopReleasing v .eStopInput (by decide))).trans hinput
    · rw [publish_runState, hsteps.runState_eq (by decide), hrun]
    · exact ((alerted_eStopReleasing v).of_frame hsteps (by decide) (by decide)).publish
    · rw [publish_lane_bare, hsteps.lane_bare_eq (by cases l <;> decide), eStopReleasing_lane, hlane, htime]
    · obtain ⟨hstate1, hqueue1, hhead1⟩ := hsteps .outfeed (by decide)
      have hexits1 : u.exits = v.eStopReleasing.exits := hsteps .exits (by decide)
      obtain ⟨hstate, hhead, hqueue, hexits⟩ := eStopReleasing_outfeed v
      rw [publish_outfeedState, publish_outfeedHeadInFlight, publish_outfeedQueue, publish_exits, hstate1, hqueue1, hhead1,
        hexits1, hstate, hhead, hqueue, hexits, hstate0, hhead0, hqueue0, hexits0, htime]
      exact ⟨rfl, rfl, rfl, rfl⟩
    · have hsame : (u.station st).bare = (v.eStopReleasing.station st).bare := hsteps (.station st) (by cases st <;> decide)
      rw [publish_station_bare, hsame, eStopReleasing_station, hstation, htime]
    · have hheld : v.eStopReleasing.tablesHeld = s.tablesHeld :=
        (frame_eStopReleasing v .settings (by decide)).2.1.trans htables
      have hafter : v.eStopReleasing.after 40 = s.after 40 := by
        rw [(frame_eStopReleasing v).after_eq (by decide), State.after, htime]
        rfl
      rw [publish_bay_bare, hbays, hheld, hafter, eStopReleasing_bay, hbay, htime]
      rfl
    · exact (((hbefore.mono (List.subset_append_of_subset_left _ (by decide))).trans
        ((frame_eStopReleasing v).mono (subset_bays (by decide)))).trans
          (hsteps.mono (List.subset_append_right _ _))).publish

end Sys2Proof.Machine
end

