-- ==== Sys2Proof/Proofs/SetDate.lean ====
section
/-! The departure from AWAITING TABLES (R42, R175) and SET DATE (R38). -/

-- Proofs are checked one after another: the whole text, compiled as one, would otherwise start more threads than fit into the
-- check's memory.
set_option Elab.async false

namespace Sys2Proof.Machine

/-! ## Notices at the end of a command -/

theorem Waiting.command {x : Notice} {s u : State} (h : Waiting x u) (c : Byte) (r : ResultCode) :
    Waiting x ((s.publish (u.completed c r)).markEmptied true) := h

theorem Alerted.command {source : Nat} {code : AlertCode} {s u : State} (h : Alerted source code u) (c : Byte)
    (r : ResultCode) : Alerted source code ((s.publish (u.completed c r)).markEmptied true) := h

/-! ## The departure from AWAITING TABLES (R42, R175) -/

/-- READY, both receivers out of OFF, and the permits set. -/
def State.departed (s : State) : State := ((s.setRunState .ready).readersLeaveOff).evalPermits

section

variable (s : State)

theorem departed_runState : s.departed.runState = .ready := rfl

theorem departed_date : s.departed.date = s.date := rfl

theorem departed_reader (l : LaneId) : s.departed.reader l = (s.reader l).leaveOff := by cases l <;> rfl

theorem departed_bay (n : BayId) : s.departed.bay n = s.bay n := rfl

theorem leaveOff_state (r : Reader) : r.leaveOff.state = if r.state = .off then .hunt else r.state := by
  unfold Reader.leaveOff
  cases h : r.state <;> simp [h]

theorem frame_readersLeaveOff : Frame [.reader .a, .reader .b] s s.readersLeaveOff := by
  intro p hp
  cases p
  case reader l => cases l <;> simp at hp
  case store => exact .of_mem_eq rfl
  all_goals first | rfl | exact ⟨rfl, rfl⟩ | exact ⟨rfl, rfl, rfl⟩ | exact ⟨rfl, rfl, rfl, rfl⟩

theorem frame_departed : Frame [.runState, .reader .a, .reader .b, .lane .a, .lane .b] s s.departed :=
  ((frame_setRunState s _).mono (by simp)).trans
    (((frame_readersLeaveOff _).mono (by simp)).trans ((frame_evalPermits _).mono (by simp)))

theorem departed_permitOnly {r : State} {l : LaneId} (h : s.lane l = r.lane l) : PermitOnly l r s.departed :=
  permitOnly_evalPermits (s := r) (v := (s.setRunState .ready).readersLeaveOff) (congrArg Lane.bare h)

/-- The departure with the E-STOP input on, which ends in E-STOPPED with its alert. -/
def State.departedStopped (s : State) : State := s.departed.enterEStop.raiseAlert runSource .eStopAsserted

theorem departedStopped_runState : s.departedStopped.runState = .eStopped := by
  rw [State.departedStopped, raiseAlert_runState]
  exact enterEStop_runState _

theorem alerted_departedStopped : Alerted runSource .eStopAsserted s.departedStopped := alerted_raiseAlert _ _ _

/-- What the departure with the E-STOP input on can change. -/
def departedStoppedParts : List Part :=
  [.runState, .reader .a, .reader .b, .lane .a, .lane .b] ++ (eStopParts ++ [.notices, .alertSeen])

theorem frame_departedStopped : Frame departedStoppedParts s s.departedStopped :=
  ((frame_departed s).mono (List.subset_append_left _ _)).trans
    (((frame_enterEStop _).mono (List.subset_append_of_subset_right _ (List.subset_append_left _ _))).trans
      ((frame_raiseAlert _ _ _).mono
        (List.subset_append_of_subset_right _ (List.subset_append_right _ _))))

theorem departedStopped_date : s.departedStopped.date = s.date := frame_departedStopped s .date (by decide)

theorem departedStopped_reader (l : LaneId) : s.departedStopped.reader l = (s.reader l).leaveOff := by
  have hstop : Frame eStopParts s.departed s.departed.enterEStop := frame_enterEStop _
  have hraise : Frame [.notices, .alertSeen] s.departed.enterEStop s.departedStopped := frame_raiseAlert _ _ _
  rw [hraise.reader_eq (by simp), hstop.reader_eq (by cases l <;> decide), departed_reader]

end

section

variable {s : State}

theorem leaveAwaiting_stays (h : ¬(s.runState = .awaitingTables ∧ s.tablesHeld = true ∧ s.date.isSome = true)) :
    s.leaveAwaiting = s := if_neg h

theorem leaveAwaiting_departs (h : s.runState = .awaitingTables ∧ s.tablesHeld = true ∧ s.date.isSome = true)
    (hoff : s.eStopInput = false) : s.leaveAwaiting = s.departed := by
  rw [State.leaveAwaiting, if_pos h]
  exact if_neg (by simp [hoff])

theorem leaveAwaiting_stops (h : s.runState = .awaitingTables ∧ s.tablesHeld = true ∧ s.date.isSome = true)
    (hon : s.eStopInput = true) : s.leaveAwaiting = s.departedStopped := by
  rw [State.leaveAwaiting, if_pos h]
  exact if_pos hon

end

/-! ## SET DATE (R38) -/

/-- The date is taken into the header. -/
def State.withDate (s : State) (d : Date) : State := { s with date := some d }.headerEdit

theorem frame_withDate (s : State) (d : Date) : Frame [.date] s (s.withDate d) := by
  intro p hp
  cases p
  case date => simp at hp
  case store => exact .of_mem_eq rfl
  all_goals first | rfl | exact ⟨rfl, rfl⟩ | exact ⟨rfl, rfl, rfl⟩ | exact ⟨rfl, rfl, rfl, rfl⟩

section

variable {s : State} {arg : BitVec 24} (h : argMiddle arg ≤ 99 ∧ 1 ≤ argByte arg ∧ argByte arg ≤ 12)

include h

theorem setDateResult_stays (hstay : ¬(s.runState = .awaitingTables ∧ s.tablesHeld = true)) :
    s.setDateResult arg = (s.withDate ⟨2000 + argMiddle arg, argByte arg⟩, .accepted) := by
  rw [State.setDateResult, if_pos h]
  exact congrArg (·, ResultCode.accepted) (leaveAwaiting_stays fun k => hstay ⟨k.1, k.2.1⟩)

theorem setDateResult_departs (hr : s.runState = .awaitingTables) (ht : s.tablesHeld = true) (hoff : s.eStopInput = false) :
    s.setDateResult arg = ((s.withDate ⟨2000 + argMiddle arg, argByte arg⟩).departed, .accepted) := by
  rw [State.setDateResult, if_pos h]
  exact congrArg (·, ResultCode.accepted) (leaveAwaiting_departs ⟨hr, ht, rfl⟩ hoff)

theorem setDateResult_stops (hr : s.runState = .awaitingTables) (ht : s.tablesHeld = true) (hon : s.eStopInput = true) :
    s.setDateResult arg = ((s.withDate ⟨2000 + argMiddle arg, argByte arg⟩).departedStopped, .accepted) := by
  rw [State.setDateResult, if_pos h]
  exact congrArg (·, ResultCode.accepted) (leaveAwaiting_stops ⟨hr, ht, rfl⟩ hon)

end

theorem setDateResult_bad {s : State} {arg : BitVec 24}
    (h : ¬(argMiddle arg ≤ 99 ∧ 1 ≤ argByte arg ∧ argByte arg ≤ 12)) : s.setDateResult arg = (s, .badArgument) :=
  if_neg h

/-- Settles O21. -/
theorem setDate : Obligations.SetDate := by
  intro arg s hb
  refine ⟨fun hy h1 h12 hstay => ?_, fun hy h1 h12 hr ht hoff => ?_, fun hy h1 h12 hr ht hon => ?_, fun hbad => ?_⟩
  · have hu := setDateResult_stays (s := s.withCommand (commandWord 0x02#8 arg)) ⟨hy, h1, h12⟩ hstay
    obtain ⟨hx, hanswered, hframe⟩ := commanded (c := .setDate arg) rfl rfl hb (.inl rfl) hu (frame_withDate _ _) (by simp)
    exact ⟨_, hx, hanswered, rfl, hframe⟩
  · have hu := setDateResult_departs (s := s.withCommand (commandWord 0x02#8 arg)) ⟨hy, h1, h12⟩ hr ht hoff
    obtain ⟨hx, hanswered, hframe⟩ := commanded (c := .setDate arg) rfl rfl hb (.inl rfl) hu
      (((frame_withDate _ _).mono (M := [.date, .runState, .reader .a, .reader .b, .lane .a, .lane .b]) (by simp)).trans
        ((frame_departed _).mono (by simp))) (by simp)
    refine ⟨_, hx, hanswered, rfl, rfl, fun l => ?_, fun l => ?_, hframe⟩
    · rw [markEmptied_reader, publish_reader, completed_reader, departed_reader, leaveOff_state]
      rfl
    · exact (departed_permitOnly (State.withDate _ _) rfl).command 0x02#8 .accepted
  · have hu := setDateResult_stops (s := s.withCommand (commandWord 0x02#8 arg)) ⟨hy, h1, h12⟩ hr ht hon
    have hstopped := frame_departedStopped
      ((s.withCommand (commandWord 0x02#8 arg)).withDate ⟨2000 + argMiddle arg, argByte arg⟩)
    have hf : Frame (.date :: departedStoppedParts) (s.withCommand (commandWord 0x02#8 arg)) _ :=
      ((frame_withDate _ _).mono (by simp)).trans (hstopped.mono (List.subset_cons_self _ _))
    obtain ⟨hx, hanswered, -⟩ := commanded (c := .setDate arg) rfl rfl hb (.inl rfl) hu hf (by decide)
    refine ⟨_, hx, hanswered, ?_, ?_, ?_, fun l => ?_⟩
    · rw [markEmptied_date, publish_date, completed_date, departedStopped_date]
      rfl
    · rw [markEmptied_runState, publish_runState, completed_runState, departedStopped_runState]
    · exact (alerted_departedStopped _).command 0x02#8 .accepted
    · rw [markEmptied_reader, publish_reader, completed_reader, departedStopped_reader, leaveOff_state]
      rfl
  · exact answered_only (c := .setDate arg) rfl rfl hb (.inl rfl) (setDateResult_bad hbad)

end Sys2Proof.Machine
end

