-- ==== Sys2Proof/Proofs/TakeTables.lean ====
section
/-! TAKE TABLES (R33 to R37): what the take replaces, and what the run controller, the bays and the permits make of it. -/

-- Proofs are checked one after another: the whole text, compiled as one, would otherwise start more threads than fit into the
-- check's memory.
set_option Elab.async false

namespace Sys2Proof.Machine

/-! ## Masks (R35) -/

theorem testBit_flagBits (l : List Bool) (k : Nat) : (flagBits l).testBit k = l.getD k false := by
  induction l generalizing k with
  | nil => simp [flagBits]
  | cons b rest ih =>
    have hcons : flagBits (b :: rest) = (if b then 1 else 0) + 2 * flagBits rest := rfl
    cases k with
    | zero => cases b <;> simp [hcons, Nat.testBit_zero]
    | succ k =>
      have hhalf : flagBits (b :: rest) / 2 = flagBits rest := by
        rw [hcons]
        split <;> omega
      rw [Nat.testBit_succ, hhalf, ih, List.getD_cons_succ]

/-- A mask of flags, bit by bit. -/
theorem getLsbD_flagBits_range {w : Nat} (f : Nat → Bool) {k : Nat} (h : k < w) :
    (BitVec.ofNat w (flagBits ((List.range w).map f))).getLsbD k = f k := by
  rw [BitVec.getLsbD_ofNat, testBit_flagBits, List.getD_eq_getElem _ _ (by simpa using h)]
  simp [h]

/-! ## What the take replaces (R33, R34) -/

section

variable (s : State) (w : Settings)

theorem takeAccepted_type (c : Fin 32) : (s.takeAccepted w).types[c] = some (s.readType (typeAddress c.val)) := by
  show (Vector.ofFn fun c : Fin 32 => some (s.readType (typeAddress c.val)))[c.val] = _
  rw [Vector.getElem_ofFn]

theorem takeAccepted_typeMask (c : Fin 32) : (s.takeAccepted w).typeMask.getLsbD c.val =
    (s.readType (typeAddress c.val)).usable w (fun k => templateUsable (s.readTemplate k)) :=
  getLsbD_flagBits_range _ c.isLt

theorem takeAccepted_templateMask (k : Fin 16) :
    (s.takeAccepted w).templateMask.getLsbD k.val = templateUsable (s.readTemplate k.val) :=
  getLsbD_flagBits_range (fun k => templateUsable (s.readTemplate k)) k.isLt

theorem takeAccepted_template (k : Fin 16) : (s.takeAccepted w).templates[k] =
    if templateUsable (s.readTemplate k.val) then some (s.readTemplate k.val) else s.templates[k] := by
  show (Vector.ofFn fun k : Fin 16 => if templateUsable (s.readTemplate k.val) = true then
    some (s.readTemplate k.val) else s.templates[k])[k.val] = _
  rw [Vector.getElem_ofFn]

theorem frame_takeAccepted : Frame [.settings, .types, .templates] s (s.takeAccepted w) := by
  intro p hp
  cases p
  case settings => simp at hp
  case types => simp at hp
  case templates => simp at hp
  case store => exact .of_mem_eq rfl
  all_goals first | rfl | exact ⟨rfl, rfl⟩ | exact ⟨rfl, rfl, rfl⟩ | exact ⟨rfl, rfl, rfl, rfl⟩

theorem takeAccepted_bay (n : BayId) : (s.takeAccepted w).bay n = s.bay n := rfl

end

/-! ## What follows the take (R36, R128, R129, R175) -/

theorem frame_leaveAwaiting (s : State) : Frame departedStoppedParts s s.leaveAwaiting := by
  by_cases h : s.runState = .awaitingTables ∧ s.tablesHeld = true ∧ s.date.isSome = true
  · cases hin : s.eStopInput with
    | false =>
      rw [leaveAwaiting_departs h hin]
      exact (frame_departed s).mono (List.subset_append_left _ _)
    | true =>
      rw [leaveAwaiting_stops h hin]
      exact frame_departedStopped s
  · rw [leaveAwaiting_stays h]
    exact .refl _ s

/-- The condition of the proactive trigger reads the lane's queue and the settings alone. -/
theorem oldValidity_congr {s t : State} {n : BayId} {v : Nat} (hq : (t.lane (laneOf n)).queue = (s.lane (laneOf n)).queue)
    (hw : t.work = s.work) : OldValidity n v t ↔ OldValidity n v s := by
  rw [OldValidity, OldValidity, hq, hw]

theorem proactive_iff (s : State) (n : BayId) : s.proactive n = true ↔ OldValidity n (s.bay n).validity s := by
  simp only [State.proactive, Bool.and_eq_true, decide_eq_true_eq, OldValidity]

/-- The bays leave STARTING, the permits are set, and the proactive trigger is tested. -/
def State.takeTests (s : State) : State :=
  ((s.forBays (fun n t => t.leaveStarting n)).evalPermits).forBays (fun n t => t.testProactive n)

theorem afterTake_eq (s : State) : s.afterTake = s.leaveAwaiting.takeTests := rfl

/-- The occupancy of a bay's lane is at or below almost-empty. -/
def State.lowLane (s : State) (n : BayId) : Bool :=
  decide ((s.lane (laneOf n)).queue.length ≤ s.work.almostEmpty (laneOf n))

theorem lowLane_iff (s : State) (n : BayId) : s.lowLane n = true ↔
    (s.lane (laneOf n)).queue.length ≤ s.work.almostEmpty (laneOf n) := by
  rw [State.lowLane, decide_eq_true_eq]

theorem Frame.lowLane_eq {L : List Part} {s t : State} (h : Frame L s t) {n : BayId} (hlane : .lane (laneOf n) ∉ L)
    (hset : .settings ∉ L) : t.lowLane n = s.lowLane n := by
  have hqueue : (t.lane (laneOf n)).bare.queue = (s.lane (laneOf n)).bare.queue := by rw [h.lane_bare_eq hlane]
  have hq : (t.lane (laneOf n)).queue = (s.lane (laneOf n)).queue := hqueue
  rw [State.lowLane, State.lowLane, hq, h.work_eq hset]

/-- A bay after the test of the proactive trigger (R129). -/
def Bay.proactively (b : Bay) (low : Bool) (interval : Nat) (expiry : Seconds) : Bay :=
  if b.state = .idle ∧ low = true ∧ b.validity * 2 < interval then b.checking none expiry else b

theorem frame_forBays_testProactive (s : State) : Frame bayParts s (s.forBays (fun n t => t.testProactive n)) :=
  frame_forBays (fun n t => (frame_testProactive t n).mono (by simpa using part_bay_mem n)) s

section

variable {s : State}

theorem testProactive_bay (hrun : s.runState ≠ .eStopped) (n m : BayId) : (s.testProactive n).bay m =
    if n = m then (s.bay m).proactively (s.lowLane n) s.work.zeroInterval (s.after 40) else s.bay m := by
  unfold State.testProactive Bay.proactively
  by_cases hm : n = m
  · subst hm
    rw [if_pos rfl]
    have hcond : (s.bay n).state = .idle ∧ s.stopped = false ∧ s.proactive n = true ↔
        (s.bay n).state = .idle ∧ s.lowLane n = true ∧ (s.bay n).validity * 2 < s.work.zeroInterval := by
      rw [stopped_eq_false hrun, proactive_iff, lowLane_iff]
      exact and_congr_right fun _ => by simp [OldValidity]
    by_cases hc : (s.bay n).state = .idle ∧ s.stopped = false ∧ s.proactive n = true
    · rw [if_pos hc, if_pos (hcond.mp hc), enterZeroing_bay_all hrun, if_pos rfl]
    · rw [if_neg hc, if_neg (mt hcond.mpr hc)]
  · rw [if_neg hm]
    exact (frame_testProactive s n).bay_eq (by simpa using Ne.symm hm)

theorem testProactive_stopped (hrun : s.runState = .eStopped) (n : BayId) : s.testProactive n = s :=
  if_neg fun h => by simp [State.stopped, hrun] at h

theorem forBays_testProactive_bay (hrun : s.runState ≠ .eStopped) (n : BayId) :
    (s.forBays (fun n t => t.testProactive n)).bay n =
      (s.bay n).proactively (s.lowLane n) s.work.zeroInterval (s.after 40) := by
  refine forBays_bay (P := fun t => Frame bayParts s t)
    (g := fun n b => b.proactively (s.lowLane n) s.work.zeroInterval (s.after 40)) (fun n t ht => ?_) (fun n t m ht => ?_)
    (.refl _ s) n
  · exact ht.trans ((frame_testProactive t n).mono (by simpa using part_bay_mem n))
  · have hrunT : t.runState ≠ .eStopped := by rwa [ht.runState_eq (by decide)]
    rw [testProactive_bay hrunT, ht.work_eq (by decide), ht.after_eq (by decide),
      ht.lowLane_eq (by cases laneOf n <;> decide) (by decide)]
    split
    · subst n
      rfl
    · rfl

theorem forBays_testProactive_stopped (hrun : s.runState = .eStopped) (n : BayId) :
    (s.forBays (fun n t => t.testProactive n)).bay n = s.bay n := by
  refine forBays_bay (P := fun t => t.runState = .eStopped) (g := fun _ b => b) (fun n t ht => ?_) (fun n t m ht => ?_) hrun n
  · rwa [testProactive_stopped ht]
  · rw [testProactive_stopped ht, ite_self]

/-! ## The three steps after the take, together -/

theorem frame_takeTests (s : State) : Frame ([.lane .a, .lane .b] ++ bayParts) s s.takeTests :=
  ((frame_forBays_leaveStarting s).mono (List.subset_append_right _ _)).trans
    (((frame_evalPermits _).mono (List.subset_append_left _ _)).trans
      ((frame_forBays_testProactive _).mono (List.subset_append_right _ _)))

/-- The permits after the tests, for a lane that agrees with an earlier one but for its permit. -/
theorem takeTests_permitOnly {r : State} {l : LaneId} {p : Bool}
    (h : (s.lane l).bare = ({ r.lane l with permit := p } : Lane).bare) : PermitOnly l r s.takeTests := by
  have hbare : ((s.forBays (fun n t => t.leaveStarting n)).lane l).bare = ({ r.lane l with permit := p } : Lane).bare := by
    rw [(frame_forBays_leaveStarting s).lane_bare_eq (by cases l <;> decide), h]
  have hset : PermitOnly l r (s.forBays (fun n t => t.leaveStarting n)).evalPermits := by
    unfold PermitOnly
    rw [evalPermits_lane, evalPermits_permitHolds]
    exact Lane.bare_setPermit (y := { r.lane l with permit := p }) hbare _
  exact hset.of_frame (frame_forBays_testProactive _) (by cases l <;> decide) (by decide) (by decide) (by decide)

/-- A bay after the tests, outside E-STOPPED and with working tables. -/
theorem takeTests_bay (hrun : s.runState ≠ .eStopped) (htables : s.tablesHeld = true) (n : BayId) : s.takeTests.bay n =
    ((s.bay n).leftStarting true (s.after 40)).proactively (s.lowLane n) s.work.zeroInterval (s.after 40) := by
  have hframe : Frame bayParts s (s.forBays (fun n t => t.leaveStarting n)) := frame_forBays_leaveStarting s
  have hpermit := frame_evalPermits (s.forBays (fun n t => t.leaveStarting n))
  have hrunP : (s.forBays (fun n t => t.leaveStarting n)).evalPermits.runState ≠ .eStopped := by
    rwa [hpermit.runState_eq (by simp), hframe.runState_eq (by decide)]
  have hlow : (s.forBays (fun n t => t.leaveStarting n)).evalPermits.lowLane n = s.lowLane n := by
    rw [← hframe.lowLane_eq (n := n) (by cases laneOf n <;> decide) (by decide), State.lowLane, State.lowLane,
      evalPermits_lane, hpermit.work_eq (by simp)]
  rw [State.takeTests, forBays_testProactive_bay hrunP, hlow, hpermit.work_eq (by simp), hframe.work_eq (by decide),
    hpermit.after_eq (by simp), hframe.after_eq (by decide), hpermit.bay_eq (by simp), forBays_leaveStarting_bay,
    htables, stopped_eq_false hrun]
  rfl

theorem takeTests_bay_stopped (hrun : s.runState = .eStopped) (n : BayId) : s.takeTests.bay n = s.bay n := by
  have hframe : Frame bayParts s (s.forBays (fun n t => t.leaveStarting n)) := frame_forBays_leaveStarting s
  have hpermit := frame_evalPermits (s.forBays (fun n t => t.leaveStarting n))
  have hrunP : (s.forBays (fun n t => t.leaveStarting n)).evalPermits.runState = .eStopped := by
    rwa [hpermit.runState_eq (by simp), hframe.runState_eq (by decide)]
  rw [State.takeTests, forBays_testProactive_stopped hrunP, hpermit.bay_eq (by simp), forBays_leaveStarting_bay,
    stopped_eq_true hrun, Bay.leftStarting]
  simp

theorem takeTests_lowLane (n : BayId) : s.takeTests.lowLane n = s.lowLane n := by
  have hframe : Frame bayParts s (s.forBays (fun n t => t.leaveStarting n)) := frame_forBays_leaveStarting s
  have hpermit := frame_evalPermits (s.forBays (fun n t => t.leaveStarting n))
  rw [State.takeTests, (frame_forBays_testProactive _).lowLane_eq (n := n) (by cases laneOf n <;> decide) (by decide),
    ← hframe.lowLane_eq (n := n) (by cases laneOf n <;> decide) (by decide), State.lowLane, State.lowLane,
    evalPermits_lane, hpermit.work_eq (by simp)]

end
section

variable {s b : State} {n : BayId}

/-- What the tests make of a bay, read against the state before the take. -/
theorem takeTests_triggers (hs : s.runState ≠ .eStopped) (hbay : b.bay n = s.bay n) (hrun : b.runState ≠ .eStopped)
    (htables : b.tablesHeld = true) (htime : b.after 40 = s.after 40) :
    ((s.bay n).state = .starting → Checks n none s b.takeTests) ∧
      ((s.bay n).state ≠ .starting → Proactive n s b.takeTests) := by
  have hend := takeTests_bay hrun htables n
  rw [hbay, htime] at hend
  have hold : OldValidity n (s.bay n).validity b.takeTests ↔
      b.lowLane n = true ∧ (s.bay n).validity * 2 < b.work.zeroInterval := by
    rw [OldValidity, ← lowLane_iff, takeTests_lowLane, (frame_takeTests b).work_eq (by decide)]
  constructor
  · intro hstarting
    have hleft : (s.bay n).leftStarting true (s.after 40) = (s.bay n).checking none (s.after 40) := if_pos ⟨hstarting, rfl⟩
    rw [Checks, hend, hleft, Bay.proactively, if_neg fun h => absurd h.1 (by decide : BayState.zeroing ≠ .idle)]
  · intro hstarting
    have hleft : (s.bay n).leftStarting true (s.after 40) = s.bay n := if_neg fun h => hstarting h.1
    rw [hleft] at hend
    refine ⟨fun hidle _ h => ?_, fun h => ?_⟩
    · rw [Checks, hend, Bay.proactively, if_pos ⟨hidle, hold.mp h⟩]
    · rw [hend, Bay.proactively, if_neg]
      rintro ⟨hidle, hlow⟩
      rcases h with h | h | h
      · exact h hidle
      · exact hs h
      · exact h (hold.mpr hlow)

theorem Checks.command {rp : Option ResumePoint} (h : Checks n rp s b) (code : Byte) (result : ResultCode) :
    Checks n rp s ((s.publish (b.completed code result)).markEmptied true) := by
  rw [Checks, markEmptied_bay, publish_bay_bare, completed_bay]
  exact h

theorem command_bay_of_eq (h : b.bay n = s.bay n) (code : Byte) (result : ResultCode) :
    ((s.publish (b.completed code result)).markEmptied true).bay n = s.bay n := by
  rw [markEmptied_bay, publish_bay_of_eq]
  rwa [completed_bay]

theorem oldValidity_command (v : Nat) (code : Byte) (result : ResultCode) :
    OldValidity n v ((s.publish (b.completed code result)).markEmptied true) ↔ OldValidity n v b := by
  refine oldValidity_congr ?_ ?_
  · rw [markEmptied_lane, publish_lane, completed_lane]
  · rw [markEmptied_work, publish_work, completed_work]

theorem Proactive.command (h : Proactive n s b) (code : Byte) (result : ResultCode) :
    Proactive n s ((s.publish (b.completed code result)).markEmptied true) := by
  obtain ⟨hchecks, hstays⟩ := h
  refine ⟨fun hidle hrun hold => ?_, fun hno => ?_⟩
  · exact (hchecks hidle hrun ((oldValidity_command _ code result).mp hold)).command code result
  · rw [oldValidity_command] at hno
    exact command_bay_of_eq (hstays hno) code result

end

/-! ## The settled statement -/

section

variable {s : State}

theorem takeTablesResult_bad {k : Nat} (h : s.firstBadField s.readSettings = some k) :
    s.takeTablesResult = ({ s with firstBad := some k }.headerEdit, .tableError) := by
  rw [State.takeTablesResult, h]

theorem takeTablesResult_good (h : s.firstBadField s.readSettings = none) :
    s.takeTablesResult = ((s.takeAccepted s.readSettings).leaveAwaiting.takeTests, .accepted) := by
  rw [State.takeTablesResult, h]
  rfl

theorem frame_setFirstBad (k : Nat) : Frame [.settings] s { s with firstBad := some k }.headerEdit := by
  intro p hp
  cases p
  case settings => simp at hp
  case store => exact .of_mem_eq rfl
  all_goals first | rfl | exact ⟨rfl, rfl⟩ | exact ⟨rfl, rfl, rfl⟩ | exact ⟨rfl, rfl, rfl, rfl⟩

theorem firstBadField_withCommand (word : Word) :
    (s.withCommand word).firstBadField (s.withCommand word).readSettings = s.firstBadField s.readSettings := rfl

end

/-- What the accepted take can change. -/
def takeParts : List Part := [.settings, .types, .templates] ++ departedStoppedParts

theorem lanes_bays_subset : [.lane .a, .lane .b] ++ bayParts ⊆ departedStoppedParts :=
  List.append_subset.mpr ⟨by decide, fun p hp => List.mem_append_right _ (List.mem_append_left _
    (List.mem_append_left _ (List.mem_append_right _ hp)))⟩

theorem frame_afterTake (a : State) : Frame departedStoppedParts a a.leaveAwaiting.takeTests :=
  (frame_leaveAwaiting a).trans ((frame_takeTests _).mono lanes_bays_subset)

/-- What the steps after the take leave of the tables. -/
theorem afterTake_tables (a : State) :
    (a.leaveAwaiting.takeTests.settings = a.settings ∧ a.leaveAwaiting.takeTests.tablesHeld = a.tablesHeld ∧
      a.leaveAwaiting.takeTests.firstBad = a.firstBad) ∧
    (a.leaveAwaiting.takeTests.types = a.types ∧ a.leaveAwaiting.takeTests.typeMask = a.typeMask) ∧
    (a.leaveAwaiting.takeTests.templates = a.templates ∧ a.leaveAwaiting.takeTests.templateMask = a.templateMask) :=
  have hframe := frame_afterTake a
  ⟨hframe .settings (by decide), hframe .types (by decide), hframe .templates (by decide)⟩

/-- What the accepted take finds and leaves in the state it begins in. -/
structure Took (s a : State) : Prop where
  runState : a.runState = s.runState
  tablesHeld : a.tablesHeld = true
  date : a.date = s.date
  eStopInput : a.eStopInput = s.eStopInput
  after : a.after 40 = s.after 40
  bay : ∀ n, a.bay n = s.bay n
  lane : ∀ l, a.lane l = s.lane l
  reader : ∀ l, a.reader l = s.reader l

theorem took_takeAccepted (s : State) (word : Word) (w : Settings) : Took s ((s.withCommand word).takeAccepted w) where
  runState := rfl
  tablesHeld := rfl
  date := rfl
  eStopInput := rfl
  after := rfl
  bay _ := rfl
  lane l := by cases l <;> rfl
  reader l := by cases l <;> rfl

section

variable {s a : State} (h : Took s a)

include h

theorem Took.stays (hs : ¬(s.runState = .awaitingTables ∧ s.date.isSome = true)) : a.leaveAwaiting = a :=
  leaveAwaiting_stays fun hc => hs ⟨h.runState ▸ hc.1, h.date ▸ hc.2.2⟩

theorem Took.departs (hs : s.runState = .awaitingTables ∧ s.date.isSome = true) (hoff : s.eStopInput = false) :
    a.leaveAwaiting = a.departed :=
  leaveAwaiting_departs ⟨h.runState.trans hs.1, h.tablesHeld, h.date.symm ▸ hs.2⟩ (h.eStopInput.trans hoff)

theorem Took.stops (hs : s.runState = .awaitingTables ∧ s.date.isSome = true) (hon : s.eStopInput = true) :
    a.leaveAwaiting = a.departedStopped :=
  leaveAwaiting_stops ⟨h.runState.trans hs.1, h.tablesHeld, h.date.symm ▸ hs.2⟩ (h.eStopInput.trans hon)

theorem Took.bays (hs : s.runState ≠ .eStopped)
    (hno : ¬(s.runState = .awaitingTables ∧ s.date.isSome = true ∧ s.eStopInput = true)) (n : BayId) :
    ((s.bay n).state = .starting → Checks n none s a.leaveAwaiting.takeTests) ∧
      ((s.bay n).state ≠ .starting → Proactive n s a.leaveAwaiting.takeTests) := by
  by_cases hd : s.runState = .awaitingTables ∧ s.date.isSome = true
  · have hoff : s.eStopInput = false := Bool.eq_false_iff.mpr fun hon => hno ⟨hd.1, hd.2, hon⟩
    rw [h.departs hd hoff]
    exact takeTests_triggers hs ((departed_bay a n).trans (h.bay n)) (by rw [departed_runState]; decide)
      h.tablesHeld h.after
  · rw [h.stays hd]
    exact takeTests_triggers hs (h.bay n) (by rwa [h.runState]) h.tablesHeld h.after

theorem Took.bay_stopped (hs : s.runState = .eStopped) (n : BayId) : a.leaveAwaiting.takeTests.bay n = s.bay n := by
  rw [h.stays (by simp [hs]), takeTests_bay_stopped (h.runState.trans hs), h.bay]

theorem Took.permitOnly (hno : ¬(s.runState = .awaitingTables ∧ s.date.isSome = true ∧ s.eStopInput = true))
    (l : LaneId) : PermitOnly l s a.leaveAwaiting.takeTests := by
  by_cases hd : s.runState = .awaitingTables ∧ s.date.isSome = true
  · have hoff : s.eStopInput = false := Bool.eq_false_iff.mpr fun hon => hno ⟨hd.1, hd.2, hon⟩
    rw [h.departs hd hoff]
    exact takeTests_permitOnly (p := a.departed.permitHolds l) (by rw [← h.lane l]; exact departed_permitOnly a rfl)
  · rw [h.stays hd]
    exact takeTests_permitOnly (p := (s.lane l).permit) (congrArg Lane.bare (h.lane l))

theorem Took.stopped (hs : s.runState = .awaitingTables ∧ s.date.isSome = true) (hon : s.eStopInput = true) :
    a.leaveAwaiting.takeTests.runState = .eStopped ∧ Alerted runSource .eStopAsserted a.leaveAwaiting.takeTests := by
  rw [h.stops hs hon]
  exact ⟨((frame_takeTests _).runState_eq (by decide)).trans (departedStopped_runState a),
    (alerted_departedStopped a).of_frame (frame_takeTests _) (by decide) (by decide)⟩

theorem Took.departed_run (hs : s.runState = .awaitingTables) (hno : ¬(s.date.isSome = true ∧ s.eStopInput = true)) :
    a.leaveAwaiting.takeTests.runState = (if s.date.isSome then .ready else .awaitingTables) ∧
      ∀ l, (a.leaveAwaiting.takeTests.reader l).state =
        (if s.date.isSome = true ∧ (s.reader l).state = .off then .hunt else (s.reader l).state) := by
  cases hd : s.date.isSome with
  | true =>
    have hoff : s.eStopInput = false := Bool.eq_false_iff.mpr fun hon => hno ⟨hd, hon⟩
    rw [h.departs ⟨hs, hd⟩ hoff]
    refine ⟨(frame_takeTests _).runState_eq (by decide), fun l => ?_⟩
    rw [(frame_takeTests _).reader_eq (by cases l <;> decide), departed_reader, leaveOff_state, h.reader]
    simp
  | false =>
    rw [h.stays (by simp [hd])]
    refine ⟨((frame_takeTests _).runState_eq (by decide)).trans (h.runState.trans hs), fun l => ?_⟩
    rw [(frame_takeTests _).reader_eq (by cases l <;> decide), h.reader]
    simp

theorem Took.frame_running (hs : s.runState ≠ .awaitingTables) :
    Frame ([.lane .a, .lane .b] ++ bayParts) a a.leaveAwaiting.takeTests := by
  rw [h.stays fun hc => hs hc.1]
  exact frame_takeTests a

theorem Took.frame_departing (hno : ¬(s.date.isSome = true ∧ s.eStopInput = true)) :
    Frame ([.runState, .reader .a, .reader .b, .lane .a, .lane .b] ++ bayParts) a a.leaveAwaiting.takeTests := by
  have htests (b : State) : Frame ([.runState, .reader .a, .reader .b, .lane .a, .lane .b] ++ bayParts) b b.takeTests :=
    (frame_takeTests b).mono (subset_bays (by decide))
  by_cases hd : s.runState = .awaitingTables ∧ s.date.isSome = true
  · have hoff : s.eStopInput = false := Bool.eq_false_iff.mpr fun hon => hno ⟨hd.2, hon⟩
    rw [h.departs hd hoff]
    exact ((frame_departed a).mono (List.subset_append_left _ _)).trans (htests _)
  · rw [h.stays hd]
    exact htests a

end

/-- Settles O22. -/
theorem takeTables : Obligations.TakeTables := by
  intro arg s hb
  refine ⟨fun k hbad => ?_, fun hgood => ?_⟩
  · have hu := takeTablesResult_bad (s := s.withCommand (commandWord 0x01#8 arg)) hbad
    obtain ⟨hx, hanswered, hframe⟩ :=
      commanded (c := .takeTables arg) rfl rfl hb (.inl rfl) hu (frame_setFirstBad k) (by simp)
    exact ⟨_, hx, hanswered, rfl, rfl, rfl, hframe⟩
  have hu := takeTablesResult_good (s := s.withCommand (commandWord 0x01#8 arg)) hgood
  generalize ha : (s.withCommand (commandWord 0x01#8 arg)).takeAccepted
    (s.withCommand (commandWord 0x01#8 arg)).readSettings = a at hu
  have htaken : Frame [.settings, .types, .templates] (s.withCommand (commandWord 0x01#8 arg)) a :=
    ha ▸ frame_takeAccepted _ _
  have htook : Took s a := ha ▸ took_takeAccepted s _ _
  obtain ⟨hx, hanswered, -⟩ := commanded (c := .takeTables arg) rfl rfl hb (.inl rfl) hu
    ((htaken.mono (List.subset_append_left _ _)).trans ((frame_afterTake a).mono (List.subset_append_right _ _))) (by decide)
  obtain ⟨⟨hsettings, hheld, hfirst⟩, ⟨htypes, htypeMask⟩, htemplates, htemplateMask⟩ := afterTake_tables a
  refine ⟨_, hx, hanswered, ?_, ?_, ?_, fun c => ⟨?_, ?_⟩, fun k => ⟨?_, ?_⟩, fun hs hno n => ?_, fun hs n => ?_,
    fun hs => ⟨fun l => ?_, ?_⟩, fun hs hd hon => ?_, fun hs hno => ⟨?_, fun l => ⟨?_, ?_⟩, ?_⟩⟩
  · rw [markEmptied_settings, publish_settings, completed_settings, hsettings, ← ha]
    rfl
  · rw [markEmptied_tablesHeld, publish_tablesHeld, completed_tablesHeld, hheld, htook.tablesHeld]
  · rw [markEmptied_firstBad, publish_firstBad, completed_firstBad, hfirst, ← ha]
    rfl
  · rw [markEmptied_types, publish_types, completed_types, htypes, ← ha]
    exact takeAccepted_type _ _ c
  · rw [markEmptied_typeMask, publish_typeMask, completed_typeMask, htypeMask, ← ha]
    exact takeAccepted_typeMask _ _ c
  · rw [markEmptied_templateMask, publish_templateMask, completed_templateMask, htemplateMask, ← ha]
    exact takeAccepted_templateMask _ _ k
  · rw [markEmptied_templates, publish_templates, completed_templates, htemplates, ← ha]
    exact takeAccepted_template _ _ k
  · obtain ⟨hstarting, hother⟩ := htook.bays hs hno n
    exact ⟨fun h => (hstarting h).command _ _, fun h => (hother h).command _ _⟩
  · exact command_bay_of_eq (htook.bay_stopped hs n) _ _
  · exact (htook.permitOnly (fun h => hs h.1) l).command _ _
  · exact frame_command ((htaken.mono (by simp)).trans ((htook.frame_running hs).mono
      (subset_bays (M := [.settings, .types, .templates, .lane .a, .lane .b]) (by decide)))) _ _ true
  · obtain ⟨hrun, halert⟩ := htook.stopped ⟨hs, hd⟩ hon
    refine ⟨?_, halert.command _ _⟩
    rw [markEmptied_runState, publish_runState, completed_runState, hrun]
  · rw [markEmptied_runState, publish_runState, completed_runState, (htook.departed_run hs hno).1]
  · exact (htook.permitOnly (fun h => hno h.2) l).command _ _
  · rw [markEmptied_reader, publish_reader, completed_reader, (htook.departed_run hs hno).2]
  · exact frame_command ((htaken.mono (by simp)).trans ((htook.frame_departing hno).mono
      (subset_bays (M := [.settings, .types, .templates, .runState, .reader .a, .reader .b, .lane .a, .lane .b])
        (by decide)))) _ _ true

end Sys2Proof.Machine
end

