-- ==== Sys2Proof/Proofs/ResetRules.lean ====
section
/-! The values of every unit after POWER_ON_RESET and LINE_RESET (R24, R39, R51, R66, R90, R121, R122, R144, R160, R173, R174,
R180). -/

-- Proofs are checked one after another: the whole text, compiled as one, would otherwise start more threads than fit into the
-- check's memory.
set_option Elab.async false

namespace Sys2Proof.Machine

/-! ## The note board after a reset (R66) -/

theorem slot_offset_lt {k : SlotId} {o : Nat} (ho : o < 0x20) : 0x380 ≤ slotBase k + o ∧ slotBase k + o < 0x1000 := by
  have := k.isLt
  unfold slotBase
  omega

theorem storeByte_slot (t : State) {k : SlotId} {o : Nat} (ho : o < 0x20) :
    t.storeByte (slotBase k + o) = t.plainByte (slotBase k + o) :=
  storeByte_of_plain t (recordAt_tables (.inr (slot_offset_lt ho)))

theorem plainDefault_slot (k : SlotId) {o : Nat} (ho : o < 0x20) : plainDefault (slotBase k + o) = slotPowerOnByte o := by
  have hk := k.isLt
  unfold plainDefault slotBase
  rw [if_pos (by omega)]
  exact congrArg slotPowerOnByte (by omega)

/-- A slot of which the store lists no byte but its count. -/
theorem slotReset_of_unlisted {t : State} {k : SlotId} {count : Byte} (hcount : t.plainByte (slotBase k) = count)
    (hrest : ∀ o, 0 < o → o < 0x20 → Memory.lookup t.mem (slotBase k + o) = none) : SlotReset k count t := by
  have hbyte (o : Nat) (h0 : 0 < o) (ho : o < 0x20) : t.storeByte (slotBase k + o) = slotPowerOnByte o := by
    rw [storeByte_slot t ho, State.plainByte, hrest o h0 ho, Option.getD_none, plainDefault_slot k ho]
  refine ⟨(storeByte_slot t (o := 0) (by omega)).trans hcount, hbyte 1 (by omega) (by omega), fun o h1 h2 => ?_, fun o h1 h2 => ?_⟩
  · rw [hbyte o (by omega) (by omega), slotPowerOnByte, if_pos ⟨h1, h2⟩]
  · rw [hbyte o (by omega) h2, slotPowerOnByte, if_neg (by omega)]

/-- A slot of which the store lists no byte. -/
theorem slotReset_zero {t : State} {k : SlotId} (h : ∀ o, o < 0x20 → Memory.lookup t.mem (slotBase k + o) = none) :
    SlotReset k 0#8 t := by
  refine slotReset_of_unlisted ?_ fun o _ ho => h o ho
  rw [State.plainByte, show Memory.lookup t.mem (slotBase k) = none from h 0 (by omega), Option.getD_none]
  exact plainDefault_slot k (o := 0) (by omega)

theorem lookup_clearRecords (mem : List Host.Cell) (a : Nat) : Memory.lookup (clearRecords mem) a =
    if recordAt a = none ∧ ¬(0xA00 ≤ a ∧ a < 0xE00) then Memory.lookup mem a else none := by
  have hq := lookup_filter (fun a => decide (recordAt a = none) && !(decide (0xA00 ≤ a) && decide (a < 0xE00))) mem a
  rw [clearRecords, hq]
  refine if_congr ?_ rfl rfl
  simp only [Bool.and_eq_true, Bool.not_eq_true', Bool.and_eq_false_imp, decide_eq_true_eq, decide_eq_false_iff_not, not_and]

theorem lookup_clearRecords_slot (mem : List Host.Cell) (k : SlotId) {o : Nat} (ho : o < 0x20) :
    Memory.lookup (clearRecords mem) (slotBase k + o) = none := by
  rw [lookup_clearRecords, if_neg]
  have hk := k.isLt
  unfold slotBase
  omega

/-- A byte written where the store lists none is read back. -/
theorem lookup_write_unlisted {dflt : Byte} {a : Nat} (b : Byte) {m : List Host.Cell} (h : Memory.lookup m a = none) :
    (Memory.lookup (Memory.write dflt a b m) a).getD dflt = b := by
  induction m with
  | nil =>
    unfold Memory.write
    split
    · exact Eq.symm ‹b = dflt›
    · simp [Memory.lookup]
  | cons c rest ih =>
    have hne : c.1 ≠ a := fun hc => by simp [Memory.lookup, hc] at h
    have hrest : Memory.lookup rest a = none := by simpa [Memory.lookup, hne] using h
    unfold Memory.write
    split
    · split
      · rw [h]
        exact Eq.symm ‹b = dflt›
      · simp [Memory.lookup]
    · rw [if_neg (Ne.symm hne)]
      simp only [Memory.lookup, if_neg hne]
      exact ih hrest

theorem slotBase_injective {j k : SlotId} (h : slotBase k = slotBase j) : j = k := by
  unfold slotBase at h
  exact Fin.ext (by omega)

theorem slot_offset_ne (j k : SlotId) {o : Nat} (h0 : 0 < o) (ho : o < 0x20) : slotBase k + o ≠ slotBase j := by
  unfold slotBase
  omega

/-- The writes of the counts of a list of slots, seen at an address that is the base of none of them. -/
theorem writeCounts_lookup_other {l : List SlotId} {a : Nat} (ha : ∀ k ∈ l, a ≠ slotBase k) (t : State) :
    Memory.lookup (l.foldl (fun t k => t.writePlain (slotBase k) (t.slotCounts[k])) t).mem a = Memory.lookup t.mem a := by
  induction l generalizing t with
  | nil => rfl
  | cons k rest ih =>
    rw [List.foldl_cons, ih (fun j hj => ha j (List.mem_cons_of_mem _ hj))]
    exact lookup_write_of_ne _ _ (ha k List.mem_cons_self)

theorem writeCounts_plainByte {l : List SlotId} (hl : l.Nodup) {k : SlotId} (hk : k ∈ l) {t : State}
    (h : Memory.lookup t.mem (slotBase k) = none) :
    (l.foldl (fun t k => t.writePlain (slotBase k) (t.slotCounts[k])) t).plainByte (slotBase k) = t.slotCounts[k] := by
  induction l generalizing t with
  | nil => exact absurd hk List.not_mem_nil
  | cons j rest ih =>
    obtain ⟨hj, hrest⟩ := List.nodup_cons.mp hl
    rw [List.foldl_cons]
    by_cases hjk : k = j
    · subst hjk
      rw [State.plainByte, writeCounts_lookup_other fun i hi heq => hj (by rwa [slotBase_injective heq] at hi)]
      exact lookup_write_unlisted _ h
    · refine ih hrest ((List.mem_cons.mp hk).resolve_left hjk) ?_
      exact (lookup_write_of_ne _ _ fun heq => hjk (slotBase_injective heq).symm).trans h

/-! ## What the steps of a reset leave alone -/

/-- The line reset before its alerts. -/
def State.resetEnded (s : State) : State := s.resetBlocks.endReset

/-- A field that the readers' departure from OFF and a run state leave alone. -/
structure EndKept {α : Type} (f : State → α) : Prop where
  readers : ∀ s : State, f s.readersLeaveOff = f s := by intros; rfl
  runState : ∀ (s : State) (r : RunState), f (s.setRunState r) = f s := by intros; rfl

/-- A field that the last steps of a reset leave alone: the readers' departure from OFF, the run state, the alerts and the
bays' departure from STARTING. -/
structure LateKept {α : Type} (f : State → α) : Prop extends EndKept f where
  choices : ∀ (s : State) (k : Nat), f { s with choices := k } = f s := by intros; rfl
  alert : ∀ (s : State) (source : Nat) (code : AlertCode), f (s.raiseAlert source code) = f s := by intros; rfl
  bay : ∀ (s : State) (n : BayId) (b : Bay), f (s.setBay n b) = f s := by intros; rfl

section

variable {α : Type} {f : State → α}

theorem EndKept.endReset (h : EndKept f) (s : State) : f s.endReset = f s := by
  unfold State.endReset
  split
  · split
    · exact (h.runState _ _).trans (h.readers s)
    · exact h.readers s
  all_goals rfl

theorem EndKept.resetEnded (h : EndKept f) (s : State)
    (hslots : ∀ s v m, f { s with slotCounts := v, mem := m } = f s := by intros; rfl) :
    f s.resetEnded = f s.resetBase :=
  (h.endReset _).trans (resetSlots_field f hslots s.resetBase)

theorem LateKept.enterZeroing (h : LateKept f) (s : State) (n : BayId) (rp : Option ResumePoint) :
    f (s.enterZeroing n rp) = f s := by
  unfold State.enterZeroing State.beginCheck
  dsimp only
  split
  · exact (h.bay _ _ _).trans (h.bay _ _ _)
  · exact (h.bay _ _ _).trans (h.bay _ _ _)

theorem LateKept.leaveStarting (h : LateKept f) (s : State) : f (s.forBays (fun n t => t.leaveStarting n)) = f s := by
  refine forBays_invariant (P := fun t => f t = f s) (fun n t ht => ?_) rfl
  unfold State.leaveStarting
  split
  · exact (h.enterZeroing t n none).trans ht
  · exact ht

theorem LateKept.alerts (h : LateKept f) (s : State) (due : List Nat) : f (s.raiseResetAlerts due) = f s :=
  raiseResetAlerts_field f h.choices h.alert s due

theorem LateKept.lineReset (h : LateKept f) (s : State) : f s.lineReset = f s.resetBlocks :=
  (h.leaveStarting _).trans ((h.alerts _ _).trans (h.endReset _))

theorem LateKept.powerOn (h : LateKept f) (s : State) : f s.powerOnReset = f s.powerOnBase := h.alerts _ _

/-- A field that no step of a line reset but the first changes. -/
theorem LateKept.lineReset_base (h : LateKept f) (s : State)
    (hslots : ∀ s v m, f { s with slotCounts := v, mem := m } = f s := by intros; rfl) : f s.lineReset = f s.resetBase :=
  (h.lineReset s).trans (resetSlots_field f hslots s.resetBase)

end

/-! ## The line reset (R180) -/

section

variable (s : State)

theorem resetBase_tablesHeld : s.resetBase.tablesHeld = s.tablesHeld := rfl

theorem lineReset_mem : s.lineReset.mem = s.resetBase.resetSlots.mem := LateKept.lineReset (f := State.mem) {} s

theorem lineReset_slotCounts (k : SlotId) : s.lineReset.slotCounts[k] = s.slotCounts[k] + 2#8 := by
  rw [LateKept.lineReset (f := State.slotCounts) {} s, resetBlocks_eq_resetSlots, resetSlots_eq]
  show (Vector.ofFn fun k : SlotId => s.slotCounts[k] + 2#8)[k.val] = _
  rw [Vector.getElem_ofFn]

theorem lineReset_lookup {a : Nat} (ha : ∀ k, a ≠ slotBase k) :
    Memory.lookup s.lineReset.mem a = Memory.lookup (clearRecords s.mem) a := by
  rw [lineReset_mem]
  exact writeCounts_lookup_other (fun k _ => ha k) _

theorem lineReset_slot (k : SlotId) : SlotReset k (s.slotCounts[k] + 2#8) s.lineReset := by
  refine slotReset_of_unlisted ?_ fun o h0 ho => ?_
  · have hwritten := writeCounts_plainByte (l := List.finRange 32) (List.nodup_finRange 32) (List.mem_finRange k)
      (t := { s.resetBase with slotCounts := Vector.ofFn (fun k : SlotId => s.slotCounts[k] + 2#8) })
      (lookup_clearRecords_slot s.mem k (o := 0) (by omega))
    have hcount : (Vector.ofFn fun k : SlotId => s.slotCounts[k] + 2#8)[k.val] = s.slotCounts[k] + 2#8 := by
      rw [Vector.getElem_ofFn]
    rw [State.plainByte, lineReset_mem]
    exact Eq.trans hwritten hcount
  · rw [lineReset_lookup s fun j => slot_offset_ne j k h0 ho]
    exact lookup_clearRecords_slot s.mem k ho

theorem lineReset_storeByte {a : Nat} (hr : recordAt a = none) (ha : a < 0xA00 ∨ 0xE00 ≤ a) :
    s.lineReset.storeByte a = s.storeByte a := by
  have hslot (k : SlotId) : a ≠ slotBase k := by
    have := k.isLt
    unfold slotBase
    omega
  rw [storeByte_of_plain _ hr, storeByte_of_plain _ hr, State.plainByte, State.plainByte, lineReset_lookup s hslot,
    lookup_clearRecords, if_pos ⟨hr, by omega⟩]

theorem lineReset_entry (i : RosterIndex) : s.lineReset.entry i = Entry.freeEntry ((s.entry i).editCount + 2#8) :=
  (LateKept.lineReset_base (f := fun t => t.entry i) {} s).trans (resetBase_entry s i)

theorem lineReset_lane (l : LaneId) : s.lineReset.lane l = Lane.reset ((s.lane l).editCount + 2#8) := by
  cases l
  · exact LateKept.lineReset_base (f := State.laneA) {} s
  · exact LateKept.lineReset_base (f := State.laneB) {} s

theorem lineReset_intensifier (i : IntensifierId) : s.lineReset.intensifier i =
    Intensifier.afterReset ((s.intensifier i).editCount + 2#8) (s.intensifier i).faultInput := by
  cases i
  · exact LateKept.lineReset_base (f := State.intensifier1) {} s
  · exact LateKept.lineReset_base (f := State.intensifier2) {} s

theorem lineReset_station (st : StationId) :
    s.lineReset.station st = (s.station st).afterReset ((s.station st).editCount + 2#8) := by
  cases st
  · exact LateKept.lineReset_base (f := State.stamper) {} s
  · exact LateKept.lineReset_base (f := State.defacer) {} s

/-- The line reset before the bays leave STARTING. -/
def State.resetAlerted : State :=
  s.resetEnded.raiseResetAlerts
    (dueAlerts (s.eStopInput && s.tablesHeld && s.date.isSome) s.intensifier1.faultInput s.intensifier2.faultInput)

theorem lineReset_eq : s.lineReset = s.resetAlerted.forBays (fun n t => t.leaveStarting n) := rfl

theorem frame_resetAlerted : Frame [.notices, .alertSeen, .choices] s.resetEnded s.resetAlerted :=
  frame_raiseResetAlerts _ _

theorem frame_lineReset_bays : Frame bayParts s.resetAlerted s.lineReset := frame_forBays_leaveStarting _

end

/-- Tables and a date are held (R180). -/
def State.tabled (s : State) : Prop := s.tablesHeld = true ∧ s.date.isSome = true

section

variable {s : State}

theorem resetBlocks_runState (s : State) :
    s.resetBlocks.runState = if s.tablesHeld && s.date.isSome then .ready else .awaitingTables :=
  resetSlots_field State.runState (fun _ _ _ => rfl) s.resetBase

theorem resetBlocks_reader (s : State) (l : LaneId) : s.resetBlocks.reader l = Reader.reset := by
  cases l
  · exact resetSlots_field State.readerA (fun _ _ _ => rfl) s.resetBase
  · exact resetSlots_field State.readerB (fun _ _ _ => rfl) s.resetBase

theorem resetBlocks_eStopInput (s : State) : s.resetBlocks.eStopInput = s.eStopInput :=
  resetSlots_field State.eStopInput (fun _ _ _ => rfl) s.resetBase

theorem endReset_ready (h : s.runState = .ready) :
    s.endReset = if s.eStopInput then s.readersLeaveOff.setRunState .eStopped else s.readersLeaveOff := by
  unfold State.endReset
  rw [h]

theorem endReset_awaiting (h : s.runState = .awaitingTables) : s.endReset = s := by
  unfold State.endReset
  rw [h]

theorem readersLeaveOff_runState (s : State) : s.readersLeaveOff.runState = s.runState := rfl

theorem readersLeaveOff_reader (s : State) (l : LaneId) : s.readersLeaveOff.reader l = (s.reader l).leaveOff := by
  cases l <;> rfl

theorem resetEnded_tabled (h : s.tabled) : s.resetEnded.runState = (if s.eStopInput then .eStopped else .ready) ∧
    ∀ l, s.resetEnded.reader l = Reader.reset.leaveOff := by
  have hready : s.resetBlocks.runState = .ready := by rw [resetBlocks_runState, h.1, h.2]; rfl
  have hreader (l : LaneId) : s.resetBlocks.readersLeaveOff.reader l = Reader.reset.leaveOff := by
    rw [readersLeaveOff_reader, resetBlocks_reader]
  rw [← readersLeaveOff_runState] at hready
  rw [State.resetEnded, endReset_ready (by rwa [readersLeaveOff_runState] at hready), resetBlocks_eStopInput]
  generalize s.resetBlocks.readersLeaveOff = v at hready hreader
  cases s.eStopInput with
  | true => exact ⟨rfl, hreader⟩
  | false => exact ⟨hready, hreader⟩

theorem resetEnded_untabled (h : ¬s.tabled) : s.resetEnded.runState = .awaitingTables ∧
    ∀ l, s.resetEnded.reader l = Reader.reset := by
  have hawaiting : s.resetBlocks.runState = .awaitingTables := by
    rw [resetBlocks_runState, if_neg]
    simpa [State.tabled] using h
  rw [State.resetEnded, endReset_awaiting hawaiting]
  exact ⟨hawaiting, resetBlocks_reader s⟩

theorem lineReset_runState_eq (s : State) : s.lineReset.runState = s.resetEnded.runState :=
  ((frame_lineReset_bays s).runState_eq (by decide)).trans ((frame_resetAlerted s).runState_eq (by decide))

theorem lineReset_reader_eq (s : State) (l : LaneId) : s.lineReset.reader l = s.resetEnded.reader l :=
  ((frame_lineReset_bays s).reader_eq (by cases l <;> decide)).trans
    ((frame_resetAlerted s).reader_eq (by cases l <;> decide))

/-! ## The bays after a line reset (R121, R122, R128) -/

/-- Whether the bays leave STARTING at the end of a line reset (R128, R180). -/
def State.resetChecks (s : State) : Bool := s.tablesHeld && !(s.date.isSome && s.eStopInput)

theorem resetAlerted_bay (s : State) (n : BayId) : s.resetAlerted.bay n = (s.bay n).afterLineReset := by
  rw [(frame_resetAlerted s).bay_eq (by simp), EndKept.resetEnded (f := fun t => t.bay n) {} s, resetBase_bay]

theorem lineReset_bay (s : State) (n : BayId) :
    s.lineReset.bay n = (s.bay n).afterLineReset.leftStarting s.resetChecks (s.after 40) := by
  have hended {α : Type} {f : State → α} (h : LateKept f) : f s.resetAlerted = f s.resetBlocks :=
    (h.alerts _ _).trans (h.endReset _)
  have htables : s.resetAlerted.tablesHeld = s.tablesHeld :=
    (hended (f := State.tablesHeld) {}).trans (resetSlots_field State.tablesHeld (fun _ _ _ => rfl) s.resetBase)
  have htime : s.resetAlerted.lineSeconds = s.lineSeconds :=
    (hended (f := State.lineSeconds) {}).trans (resetSlots_field State.lineSeconds (fun _ _ _ => rfl) s.resetBase)
  have hrun : s.resetAlerted.runState = s.resetEnded.runState := (frame_resetAlerted s).runState_eq (by decide)
  have hleave : (s.resetAlerted.tablesHeld && !s.resetAlerted.stopped) = s.resetChecks := by
    rw [htables, State.stopped, hrun, State.resetChecks]
    by_cases h : s.tabled
    · obtain ⟨hheld, hdate⟩ := id h
      rw [(resetEnded_tabled h).1, hheld, hdate]
      cases s.eStopInput <;> rfl
    · rw [(resetEnded_untabled h).1]
      cases hheld : s.tablesHeld with
      | false => rfl
      | true =>
        have hdate : s.date.isSome = false := Bool.eq_false_iff.mpr fun hd => h ⟨hheld, hd⟩
        rw [hdate]
        rfl
  rw [lineReset_eq, forBays_leaveStarting_bay, hleave, resetAlerted_bay, State.after, htime]
  rfl

theorem afterLineReset_input (b : Bay) (input : BayInput) : b.afterLineReset.input input = b.input input := by
  cases input <;> rfl

theorem resetBay_afterLineReset (b : Bay) : ResetBay b.afterLineReset :=
  ⟨rfl, ⟨rfl, rfl, rfl, rfl⟩, ⟨rfl, rfl, rfl, rfl, rfl⟩, ⟨rfl, rfl, rfl, rfl, rfl, rfl⟩, ⟨rfl, rfl⟩, ⟨rfl, rfl, rfl⟩,
    ⟨rfl, rfl, rfl, rfl⟩, rfl, rfl, rfl, rfl, rfl, rfl⟩

theorem resetBay_checking {b : Bay} (h : ResetBay b) (expiry : Seconds) : ResetBay (b.checking none expiry) := by
  obtain ⟨hindex, hflags, ⟨-, -, -, hcoupled, hfault⟩, hmeas, hsample, ⟨-, -, hloading⟩, htrace, hvalidity, -, hrequested,
    hgrants, -, -⟩ := h
  exact ⟨hindex, hflags, ⟨rfl, rfl, rfl, hcoupled, hfault⟩, hmeas, hsample, ⟨rfl, rfl, hloading⟩, htrace, hvalidity, rfl,
    hrequested, hgrants, rfl, rfl⟩

theorem resetIntensifier_afterReset (count : Byte) (fault : Bool) :
    ResetIntensifier fault (Intensifier.afterReset count fault) :=
  ⟨rfl, rfl, rfl, rfl, rfl, rfl, rfl⟩

theorem resetStation_afterReset (x : Station) (count : Byte) : ResetStation (x.afterReset count) :=
  ⟨rfl, rfl, rfl, rfl, rfl, rfl, rfl, rfl, rfl, rfl, rfl, rfl, rfl, rfl, rfl⟩

theorem resetEntry_freeEntry (count : Byte) : ResetEntry count (Entry.freeEntry count) :=
  ⟨rfl, rfl, rfl, rfl, rfl, rfl, rfl, rfl⟩

theorem resetLane_reset (count : Byte) : ResetLane (Lane.reset count) := ⟨rfl, rfl, rfl, rfl, rfl, rfl, rfl⟩

/-! ## The notices at the end of a reset -/

/-- The alert of an intensifier's FAULT input is due. -/
theorem dueAlerts_fault (eStop : Bool) {s : State} {i : IntensifierId} (h : (s.intensifier i).faultInput = true) :
    ∃ k ∈ dueAlerts eStop s.intensifier1.faultInput s.intensifier2.faultInput,
      resetAlertOf k = (intensifierSource i, .intensifierFault) := by
  cases i with
  | one =>
    have h1 : s.intensifier1.faultInput = true := h
    exact ⟨1, by simp [dueAlerts, h1], rfl⟩
  | two =>
    have h2 : s.intensifier2.faultInput = true := h
    exact ⟨2, by simp [dueAlerts, h2], rfl⟩

theorem resetAlerted_alert (s : State) {k : Nat}
    (h : k ∈ dueAlerts (s.eStopInput && s.tablesHeld && s.date.isSome) s.intensifier1.faultInput s.intensifier2.faultInput) :
    Alerted (resetAlertOf k).1 (resetAlertOf k).2 s.lineReset := by
  have halert : Alerted (resetAlertOf k).1 (resetAlertOf k).2 s.resetAlerted := alerted_raiseResetAlerts s.resetEnded _ _ _ h
  exact halert.of_frame (frame_lineReset_bays s) (by decide) (by decide)

theorem lineReset_fault (s : State) {i : IntensifierId} (h : (s.intensifier i).faultInput = true) :
    Alerted (intensifierSource i) .intensifierFault s.lineReset := by
  obtain ⟨k, hk, heq⟩ := dueAlerts_fault (s.eStopInput && s.tablesHeld && s.date.isSome) h
  simpa only [heq] using resetAlerted_alert s hk

theorem lineReset_eStop (s : State) (h : s.tabled) (hon : s.eStopInput = true) :
    Alerted runSource .eStopAsserted s.lineReset :=
  resetAlerted_alert s (k := 0) (by simp [dueAlerts, h.1, h.2, hon])

theorem resetEnded_notices (s : State) :
    s.resetEnded.notices = [] ∧ s.resetEnded.nmb = none ∧ s.resetEnded.alertSeen = false := by
  rw [EndKept.resetEnded (f := State.notices) {}, EndKept.resetEnded (f := State.nmb) {},
    EndKept.resetEnded (f := State.alertSeen) {}]
  exact ⟨rfl, rfl, rfl⟩

theorem lineReset_quiet {s : State} (h : ∀ i, (s.intensifier i).faultInput = false) (hoff : s.eStopInput = false) :
    s.lineReset.notices = [] ∧ s.lineReset.nmb = none ∧ s.lineReset.alertSeen = false := by
  have h1 : s.intensifier1.faultInput = false := h .one
  have h2 : s.intensifier2.faultInput = false := h .two
  have halerted : s.resetAlerted = { s.resetEnded with choices := s.resetEnded.choices + 1 } := by
    rw [State.resetAlerted, hoff, h1, h2]
    rfl
  obtain ⟨hnotices, hnmb⟩ := frame_lineReset_bays s .notices (by decide)
  have hseen : s.lineReset.alertSeen = s.resetAlerted.alertSeen := frame_lineReset_bays s .alertSeen (by decide)
  rw [hnotices, hnmb, hseen, halerted]
  exact resetEnded_notices s

end

/-! ## LINE_RESET (R180) -/

theorem input_leftStarting (b : Bay) (leave : Bool) (expiry : Seconds) (input : BayInput) :
    (b.leftStarting leave expiry).input input = b.input input := by
  unfold Bay.leftStarting
  split
  · cases input <;> rfl
  · rfl

/-- What the departure from STARTING leaves of a bay's values. -/
theorem leftStarting_kept (b : Bay) (leave : Bool) (expiry : Seconds) :
    (b.leftStarting leave expiry).zeroReference = b.zeroReference ∧
      (b.leftStarting leave expiry).checksOwed = b.checksOwed ∧
      (b.leftStarting leave expiry).lastZeroReading = b.lastZeroReading ∧
      (b.leftStarting leave expiry).lastDrift = b.lastDrift ∧ (b.leftStarting leave expiry).editCount = b.editCount := by
  unfold Bay.leftStarting
  split <;> exact ⟨rfl, rfl, rfl, rfl, rfl⟩

theorem resetBay_leftStarting {b : Bay} (h : ResetBay b) (leave : Bool) (expiry : Seconds) :
    ResetBay (b.leftStarting leave expiry) := by
  unfold Bay.leftStarting
  split
  · exact resetBay_checking h expiry
  · exact h

theorem resetChecks_iff (s : State) :
    s.resetChecks = true ↔ s.tablesHeld = true ∧ ¬(s.date.isSome = true ∧ s.eStopInput = true) := by
  rw [State.resetChecks, Bool.and_eq_true, Bool.not_eq_true', Bool.eq_false_iff, Ne, Bool.and_eq_true]

theorem lineReset_bay_rule (s : State) (n : BayId) :
    let t := s.lineReset
    (t.bay n).index = none ∧ (t.bay n).validity = 0 ∧ (t.bay n).zeroReference = (s.bay n).zeroReference ∧
      (t.bay n).checksOwed = (if (s.bay n).zeroReference.isSome then 1 else 2) ∧
      (t.bay n).lastZeroReading = (s.bay n).lastZeroReading ∧ (t.bay n).lastDrift = (s.bay n).lastDrift ∧
      ResetBay (t.bay n) ∧ (t.bay n).editCount = (s.bay n).editCount + 2#8 ∧
      (∀ input, (t.bay n).input input = (s.bay n).input input) ∧
      (s.tablesHeld = true ∧ ¬(s.date.isSome = true ∧ s.eStopInput = true) →
        (t.bay n).state = .zeroing ∧ (t.bay n).outputs = checkOutputs false ∧
          (t.bay n).stepTimer = some (s.after 40)) ∧
      (¬(s.tablesHeld = true ∧ ¬(s.date.isSome = true ∧ s.eStopInput = true)) →
        (t.bay n).state = .starting ∧ (t.bay n).outputs = BayOutputs.rest ∧ (t.bay n).stepTimer = none) := by
  intro t
  have hbay : t.bay n = (s.bay n).afterLineReset.leftStarting s.resetChecks (s.after 40) := lineReset_bay s n
  have hreset : ResetBay (t.bay n) := hbay ▸ resetBay_leftStarting (resetBay_afterLineReset _) _ _
  obtain ⟨hzero, howed, hreading, hdrift, hcount⟩ := leftStarting_kept (s.bay n).afterLineReset s.resetChecks (s.after 40)
  have hvalidity : (t.bay n).validity = 0 := by
    obtain ⟨-, -, -, -, -, -, -, h, -⟩ := hreset
    exact h
  rw [← hbay] at hzero howed hreading hdrift hcount
  refine ⟨hreset.1, hvalidity, hzero, howed, hreading, hdrift, hreset, hcount, fun input => ?_, fun h => ?_, fun h => ?_⟩
  · rw [hbay, input_leftStarting, afterLineReset_input]
  · rw [hbay, Bay.leftStarting, if_pos ⟨rfl, (resetChecks_iff s).mpr h⟩]
    exact ⟨rfl, rfl, rfl⟩
  · rw [hbay, Bay.leftStarting, if_neg fun hc => h ((resetChecks_iff s).mp hc.2)]
    exact ⟨rfl, rfl, rfl⟩

/-- The registers, the tables and the queues after a line reset: what each step of the reset leaves alone. -/
theorem lineReset_same (s : State) : Same .lineSeconds s s.lineReset ∧ Same .settings s s.lineReset ∧
    Same .types s s.lineReset ∧ Same .templates s s.lineReset ∧ Same .date s s.lineReset ∧
      Same .eStopInput s s.lineReset ∧ Same .guardClosed s s.lineReset :=
  ⟨LateKept.lineReset_base (f := State.lineSeconds) {} s,
    ⟨LateKept.lineReset_base (f := State.settings) {} s, LateKept.lineReset_base (f := State.tablesHeld) {} s,
      LateKept.lineReset_base (f := State.firstBad) {} s⟩,
    ⟨LateKept.lineReset_base (f := State.types) {} s, LateKept.lineReset_base (f := State.typeMask) {} s⟩,
    ⟨LateKept.lineReset_base (f := State.templates) {} s, LateKept.lineReset_base (f := State.templateMask) {} s⟩,
    LateKept.lineReset_base (f := State.date) {} s, LateKept.lineReset_base (f := State.eStopInput) {} s,
    LateKept.lineReset_base (f := State.guardClosed) {} s⟩

theorem lineReset_registers (s : State) :
    let t := s.lineReset
    t.cmbWord = 0#32 ∧ t.cmbFull = false ∧ t.lastCommand = 0#8 ∧ t.lastResult = .accepted ∧
      t.overwriteFlag = false ∧ t.interruptEnable = false ∧ t.expect = [] ∧ t.freeCount = 48 :=
  ⟨LateKept.lineReset_base (f := State.cmbWord) {} s, LateKept.lineReset_base (f := State.cmbFull) {} s,
    LateKept.lineReset_base (f := State.lastCommand) {} s, LateKept.lineReset_base (f := State.lastResult) {} s,
    LateKept.lineReset_base (f := State.overwriteFlag) {} s, LateKept.lineReset_base (f := State.interruptEnable) {} s,
    LateKept.lineReset_base (f := State.expect) {} s, LateKept.lineReset_base (f := State.freeCount) {} s⟩

theorem lineReset_queues (s : State) :
    let t := s.lineReset
    t.outfeedState = .normal ∧ t.outfeedQueue = [] ∧ t.outfeedHeadInFlight = false ∧ t.exits = [] ∧ t.claims = [] ∧
      t.requests = [] ∧ t.releases = [] :=
  ⟨LateKept.lineReset_base (f := State.outfeedState) {} s, LateKept.lineReset_base (f := State.outfeedQueue) {} s,
    LateKept.lineReset_base (f := State.outfeedHeadInFlight) {} s, LateKept.lineReset_base (f := State.exits) {} s,
    LateKept.lineReset_base (f := State.claims) {} s, LateKept.lineReset_base (f := State.requests) {} s,
    LateKept.lineReset_base (f := State.releases) {} s⟩

theorem lineReset_runState (s : State) : s.lineReset.runState =
    if s.tablesHeld = true ∧ s.date.isSome = true then (if s.eStopInput then .eStopped else .ready) else .awaitingTables := by
  rw [lineReset_runState_eq]
  by_cases h : s.tablesHeld = true ∧ s.date.isSome = true
  · rw [if_pos h, (resetEnded_tabled h).1]
  · rw [if_neg h, (resetEnded_untabled h).1]

theorem lineReset_reader (s : State) (l : LaneId) : (s.lineReset.reader l).held = none ∧
    ResetReader (if s.tablesHeld = true ∧ s.date.isSome = true then .hunt else .off) (s.lineReset.reader l) := by
  rw [lineReset_reader_eq]
  by_cases h : s.tablesHeld = true ∧ s.date.isSome = true
  · rw [if_pos h, (resetEnded_tabled h).2]
    exact ⟨rfl, rfl, rfl, rfl, rfl, rfl, rfl⟩
  · rw [if_neg h, (resetEnded_untabled h).2]
    exact ⟨rfl, rfl, rfl, rfl, rfl, rfl, rfl⟩

/-- Settles O11. -/
theorem lineReset : Obligations.LineReset := by
  intro enable s₀
  refine ⟨_, rfl, ?_⟩
  refine ⟨lineReset_runState _, lineReset_same _, lineReset_registers _, fun i => ⟨lineReset_entry _ i, ?_⟩,
    fun l => ⟨?_, ?_, ?_, lineReset_reader _ l⟩, lineReset_queues _, fun n => lineReset_bay_rule _ n,
    fun i => ?_, fun st => ?_, fun hfault hoff => lineReset_quiet hfault hoff, fun i h => lineReset_fault _ h,
    fun h hon => lineReset_eStop _ h hon, fun k => ⟨lineReset_slot _ k, lineReset_slotCounts _ k⟩,
    fun a hr ha => lineReset_storeByte _ hr ha⟩
  · rw [lineReset_entry]
    exact resetEntry_freeEntry _
  · rw [lineReset_lane]
    rfl
  · rw [lineReset_lane]
    exact resetLane_reset _
  · rw [lineReset_lane]
    rfl
  · rw [lineReset_intensifier]
    exact ⟨rfl, rfl, rfl, resetIntensifier_afterReset _ _, rfl⟩
  · rw [lineReset_station]
    exact ⟨rfl, rfl, rfl, resetStation_afterReset _ _, rfl⟩

/-! ## POWER_ON_RESET (R24, R39, R51, R66, R90, R121, R144, R160, R173, R174, R179) -/

section

variable (s : State)

theorem frame_powerOnReset : Frame [.notices, .alertSeen, .choices] s.powerOnBase s.powerOnReset := frame_raiseResetAlerts _ _

theorem powerOn_bay (n : BayId) : s.powerOnReset.bay n = (s.bay n).afterPowerOn :=
  ((frame_powerOnReset s).bay_eq (by simp)).trans (powerOnBase_bay s n)

theorem powerOn_entry (i : RosterIndex) : s.powerOnReset.entry i = Entry.freeEntry 0#8 :=
  (LateKept.powerOn (f := fun t => t.entry i) {} s).trans (powerOnBase_entry s i)

theorem powerOn_lane (l : LaneId) : s.powerOnReset.lane l = Lane.reset 0#8 := by
  cases l
  · exact LateKept.powerOn (f := State.laneA) {} s
  · exact LateKept.powerOn (f := State.laneB) {} s

theorem powerOn_reader (l : LaneId) : s.powerOnReset.reader l = Reader.reset := by
  rw [(frame_powerOnReset s).reader_eq (by simp)]
  cases l <;> rfl

theorem powerOn_intensifier (i : IntensifierId) :
    s.powerOnReset.intensifier i = Intensifier.afterReset 0#8 (s.intensifier i).faultInput := by
  cases i
  · exact LateKept.powerOn (f := State.intensifier1) {} s
  · exact LateKept.powerOn (f := State.intensifier2) {} s

theorem powerOn_station (st : StationId) : s.powerOnReset.station st = (s.station st).afterReset 0#8 := by
  cases st
  · exact LateKept.powerOn (f := State.stamper) {} s
  · exact LateKept.powerOn (f := State.defacer) {} s

theorem powerOn_mem : s.powerOnReset.mem = clearRecords s.mem := LateKept.powerOn (f := State.mem) {} s

theorem powerOn_slot (k : SlotId) : SlotReset k 0#8 s.powerOnReset :=
  slotReset_zero fun o ho => by rw [powerOn_mem, lookup_clearRecords_slot s.mem k ho]

theorem powerOn_registers :
    let t := s.powerOnReset
    t.runState = .awaitingTables ∧ t.lineSeconds = 0#32 ∧ t.cmbWord = 0#32 ∧ t.cmbFull = false ∧
      t.lastCommand = 0#8 ∧ t.lastResult = .accepted ∧ t.overwriteFlag = false ∧ t.interruptEnable = false :=
  ⟨(frame_powerOnReset s).runState_eq (by simp), LateKept.powerOn (f := State.lineSeconds) {} s,
    LateKept.powerOn (f := State.cmbWord) {} s, LateKept.powerOn (f := State.cmbFull) {} s,
    LateKept.powerOn (f := State.lastCommand) {} s, LateKept.powerOn (f := State.lastResult) {} s,
    LateKept.powerOn (f := State.overwriteFlag) {} s, LateKept.powerOn (f := State.interruptEnable) {} s⟩

theorem powerOn_tables :
    let t := s.powerOnReset
    t.settings = none ∧ t.tablesHeld = false ∧ t.firstBad = none ∧ t.date = none ∧ t.typeMask = 0#32 ∧
      t.templateMask = 0#16 ∧ t.expect = [] ∧ t.freeCount = 48 :=
  ⟨LateKept.powerOn (f := State.settings) {} s, LateKept.powerOn (f := State.tablesHeld) {} s,
    LateKept.powerOn (f := State.firstBad) {} s, LateKept.powerOn (f := State.date) {} s,
    LateKept.powerOn (f := State.typeMask) {} s, LateKept.powerOn (f := State.templateMask) {} s,
    LateKept.powerOn (f := State.expect) {} s, LateKept.powerOn (f := State.freeCount) {} s⟩

theorem powerOn_queues :
    let t := s.powerOnReset
    t.outfeedState = .normal ∧ t.outfeedQueue = [] ∧ t.outfeedHeadInFlight = false ∧ t.exits = [] ∧ t.claims = [] ∧
      t.requests = [] ∧ t.releases = [] :=
  ⟨LateKept.powerOn (f := State.outfeedState) {} s, LateKept.powerOn (f := State.outfeedQueue) {} s,
    LateKept.powerOn (f := State.outfeedHeadInFlight) {} s, LateKept.powerOn (f := State.exits) {} s,
    LateKept.powerOn (f := State.claims) {} s, LateKept.powerOn (f := State.requests) {} s,
    LateKept.powerOn (f := State.releases) {} s⟩

theorem powerOn_type (c : Fin 32) : s.powerOnReset.types[c] = none := by
  rw [LateKept.powerOn (f := State.types) {} s]
  exact Vector.getElem_replicate c.isLt

theorem powerOn_template (k : Fin 16) : s.powerOnReset.templates[k] = none := by
  rw [LateKept.powerOn (f := State.templates) {} s]
  exact Vector.getElem_replicate k.isLt

theorem powerOn_fault {i : IntensifierId} (h : (s.intensifier i).faultInput = true) :
    Alerted (intensifierSource i) .intensifierFault s.powerOnReset := by
  obtain ⟨k, hk, heq⟩ := dueAlerts_fault false h
  have halert : Alerted (resetAlertOf k).1 (resetAlertOf k).2 s.powerOnReset :=
    alerted_raiseResetAlerts s.powerOnBase _ _ _ hk
  simpa only [heq] using halert

theorem powerOn_no_fault (h : ∀ i, (s.intensifier i).faultInput = false) :
    s.powerOnReset = { s.powerOnBase with choices := s.powerOnBase.choices + 1 } := by
  have h1 : s.intensifier1.faultInput = false := h .one
  have h2 : s.intensifier2.faultInput = false := h .two
  rw [powerOnReset_eq, h1, h2, raiseResetAlerts_none]

theorem powerOn_editCount {r : Record} (hr : r ≠ .header) : s.powerOnReset.editCount r = 0#8 := by
  cases r with
  | header => exact absurd rfl hr
  | lane l => exact congrArg Lane.editCount (powerOn_lane s l)
  | intensifier i => exact congrArg Intensifier.editCount (powerOn_intensifier s i)
  | station st => exact congrArg Station.editCount (powerOn_station s st)
  | bay n => exact congrArg Bay.editCount (powerOn_bay s n)
  | trace n => exact congrArg Bay.editCount (powerOn_bay s n)
  | entry i => exact congrArg Entry.editCount (powerOn_entry s i)

end

theorem resetBay_afterPowerOn (b : Bay) : ResetBay b.afterPowerOn :=
  ⟨rfl, ⟨rfl, rfl, rfl, rfl⟩, ⟨rfl, rfl, rfl, rfl, rfl⟩, ⟨rfl, rfl, rfl, rfl, rfl, rfl⟩, ⟨rfl, rfl⟩, ⟨rfl, rfl, rfl⟩,
    ⟨rfl, rfl, rfl, rfl⟩, rfl, rfl, rfl, rfl, rfl, rfl⟩

/-- Settles O10. -/
theorem powerOnReset : Obligations.PowerOnReset := by
  intro s
  refine ⟨_, rfl, powerOn_registers s, powerOn_tables s, ⟨powerOn_type s, powerOn_template s⟩,
    fun i => ⟨powerOn_entry s i, ?_⟩, fun l => ⟨powerOn_lane s l, ?_, powerOn_reader s l, ?_⟩, powerOn_queues s, fun n => ?_,
    fun i => ?_, fun st => ?_, fun h => ?_, fun i h => powerOn_fault s h, powerOn_slot s, fun r hr => powerOn_editCount s hr, ?_,
    LateKept.powerOn (f := State.eStopInput) {} s, LateKept.powerOn (f := State.guardClosed) {} s⟩
  · rw [powerOn_entry]
    exact resetEntry_freeEntry _
  · rw [powerOn_lane]
    exact resetLane_reset _
  · rw [powerOn_reader]
    exact ⟨rfl, rfl, rfl, rfl, rfl, rfl⟩
  · rw [powerOn_bay]
    exact ⟨rfl, rfl, rfl, rfl, rfl, rfl, rfl, rfl, rfl, rfl, resetBay_afterPowerOn _, fun input => by cases input <;> rfl⟩
  · rw [powerOn_intensifier]
    exact ⟨rfl, rfl, rfl, resetIntensifier_afterReset _ _⟩
  · rw [powerOn_station]
    exact ⟨rfl, rfl, rfl, rfl, resetStation_afterReset _ _⟩
  · rw [powerOn_no_fault s h]
    exact ⟨rfl, rfl, rfl⟩
  · by_cases h : ∀ i, (s.intensifier i).faultInput = false
    · rw [powerOn_no_fault s h]
      exact .inl rfl
    · rw [not_forall] at h
      obtain ⟨i, hi⟩ := h
      exact .inr ⟨i, by simpa using hi⟩

/-! ## The state after power-on (R181) -/

/-- Settles O9. -/
theorem powerOnValues : Obligations.PowerOnValues := by
  refine ⟨⟨rfl, rfl, rfl, rfl, rfl, rfl, rfl, rfl⟩, ⟨rfl, rfl, rfl, rfl, rfl, rfl, rfl, rfl⟩,
    ⟨fun c => Vector.getElem_replicate c.isLt, fun k => Vector.getElem_replicate k.isLt⟩,
    fun i => ⟨reset_entry i, ?_⟩, fun l => ?_, ⟨rfl, rfl, rfl, rfl, rfl, rfl, rfl⟩, fun n => ?_, fun i => ?_, fun st => ?_,
    fun k => slotReset_zero fun o _ => rfl, reset_editCount⟩
  · rw [reset_entry]
    exact resetEntry_freeEntry _
  · cases l <;> exact ⟨rfl, resetLane_reset _, rfl, rfl, rfl, rfl, rfl, rfl, rfl⟩
  · rw [reset_bay]
    exact ⟨rfl, rfl, rfl, rfl, rfl, rfl, rfl, rfl, resetBay_afterPowerOn Bay.powerOn⟩
  · cases i <;> exact ⟨rfl, rfl, resetIntensifier_afterReset _ _⟩
  · cases st <;> exact ⟨rfl, rfl, rfl, resetStation_afterReset Station.powerOn _⟩

end Sys2Proof.Machine
end

