-- ==== Sys2Proof/Proofs/Encodings.lean ====
section
/-! The encodings (R181), the register words (R182) and where the records lie (R162): byte by byte and bit by bit. -/

-- Proofs are checked one after another: the whole text, compiled as one, would otherwise start more threads than fit into the
-- check's memory.
set_option Elab.async false

namespace Sys2Proof.Machine

/-! ## Encodings -/

theorem getD_leBytes (k n : Nat) {j : Nat} (h : j < k) : (leBytes k n).getD j 0#8 = BitVec.ofNat 8 (n / 256 ^ j) := by
  induction k generalizing n j with
  | zero => exact absurd h (Nat.not_lt_zero j)
  | succ k ih =>
    cases j with
    | zero => simp [leBytes]
    | succ j =>
      rw [leBytes, List.getD_cons_succ, ih (n / 256) (by omega), Nat.div_div_eq_div_mul, ← Nat.pow_succ']

theorem getD_padBytes (k : Nat) (fill : Byte) (l : List Byte) {j : Nat} (h : j < k) :
    (padBytes k fill l).getD j 0#8 = l.getD j fill := by
  rw [padBytes, List.getD_eq_getElem?_getD, List.getElem?_take_of_lt h, List.getElem?_append]
  split
  · rw [List.getD_eq_getElem?_getD, List.getElem?_eq_getElem ‹_›]
    rfl
  · rw [List.getElem?_replicate, if_pos (by omega), List.getD_eq_default _ _ (by omega)]
    rfl

theorem optTime_some (e : Seconds) : optTime (some e) = leBytes 4 e.toNat := rfl

/-! ## The register words (R182) -/

theorem flagBits_pair (a b : Bool) : flagBits [a, b] = a.toNat + 2 * b.toNat := by cases a <;> cases b <;> rfl

theorem runState_code_le (r : RunState) : r.code ≤ 4 := by cases r <;> decide

theorem resultCode_code_le (r : ResultCode) : r.code ≤ 7 := by cases r <;> decide

theorem outcomeCode_code_le (c : OutcomeCode) : c.code ≤ 6 := by cases c <;> decide

theorem reason_code_le (r : Reason) : r.code ≤ 15 := by cases r <;> decide

theorem alertCode_code_le (c : AlertCode) : c.code ≤ 15 := by cases c <;> decide

theorem toNat_statWord (s : State) : s.statWord.toNat = s.cmbFull.toNat + 2 * s.nmb.isSome.toNat + s.runState.code * 0x10 +
    (s.overwriteFlag.toNat + 2 * s.alertSeen.toNat) * 0x100 + s.lastResult.code * 0x10000 +
      s.lastCommand.toNat * 0x1000000 := by
  have hrun := runState_code_le s.runState
  have hresult := resultCode_code_le s.lastResult
  have hcommand := s.lastCommand.isLt
  have hfull := Bool.toNat_le s.cmbFull
  have hnmb := Bool.toNat_le s.nmb.isSome
  have hover := Bool.toNat_le s.overwriteFlag
  have hseen := Bool.toNat_le s.alertSeen
  rw [State.statWord, BitVec.toNat_ofNat, flagBits_pair, flagBits_pair, Nat.mod_eq_of_lt]
  omega

theorem getLsbD_eq_div_mod (w : Word) (k : Nat) : w.getLsbD k = decide (w.toNat / 2 ^ k % 2 = 1) := by
  rw [← BitVec.testBit_toNat, Nat.testBit_eq_decide_div_mod_eq]

theorem decide_toNat (b : Bool) : decide (b.toNat = 1) = b := by cases b <;> rfl

/-- The fields of STAT (R172, R182). -/
theorem statWord_fields (s : State) :
    let w := s.statWord
    w.getLsbD 0 = s.cmbFull ∧ w.getLsbD 1 = s.nmb.isSome ∧ w.toNat / 0x10 % 8 = s.runState.code ∧
      w.getLsbD 8 = s.overwriteFlag ∧ w.getLsbD 9 = s.alertSeen ∧ w.toNat / 0x10000 % 16 = s.lastResult.code ∧
      w.toNat / 0x1000000 = s.lastCommand.toNat ∧
      ∀ k ∈ [2, 3, 7, 10, 11, 12, 13, 14, 15, 20, 21, 22, 23], w.getLsbD k = false := by
  have hword := toNat_statWord s
  have hrun := runState_code_le s.runState
  have hresult := resultCode_code_le s.lastResult
  have hcommand := s.lastCommand.isLt
  have hfull := Bool.toNat_le s.cmbFull
  have hnmb := Bool.toNat_le s.nmb.isSome
  have hover := Bool.toNat_le s.overwriteFlag
  have hseen := Bool.toNat_le s.alertSeen
  have hbit {k : Nat} {b : Bool} (h : s.statWord.toNat / 2 ^ k % 2 = b.toNat) : s.statWord.getLsbD k = b := by
    rw [getLsbD_eq_div_mod, h, decide_toNat]
  refine ⟨hbit (by omega), hbit (by omega), by omega, hbit (by omega), hbit (by omega), by omega, by omega, fun k hk => ?_⟩
  refine hbit (b := false) ?_
  simp only [List.mem_cons, List.not_mem_nil, or_false] at hk
  rw [Bool.toNat_false]
  rcases hk with rfl | rfl | rfl | rfl | rfl | rfl | rfl | rfl | rfl | rfl | rfl | rfl | rfl <;> omega

theorem toNat_outcome_word (i : RosterIndex) (code : OutcomeCode) (reason : Reason) :
    (Notice.outcome i code reason).word.toNat = ((1 * 0x100 + i.val) * 0x100 + code.code) * 0x100 + reason.code := by
  have hi := i.isLt
  have hcode := outcomeCode_code_le code
  have hreason := reason_code_le reason
  rw [Notice.word, BitVec.toNat_ofNat, Nat.mod_eq_of_lt] <;> omega

theorem toNat_alert_word {source : Nat} (code : AlertCode) (h : source < 16) :
    (Notice.alert source code).word.toNat = (2 * 0x100 + source) * 0x10000 + code.code := by
  have hcode := alertCode_code_le code
  rw [Notice.word, BitVec.toNat_ofNat, Nat.mod_eq_of_lt] <;> omega

/-! ## A record as a list of fields

A record is laid out as a list of fields, each with its width; a field stands at the sum of the widths before it. -/

/-- The bytes of a list of fields. -/
def fieldBytes (l : List (Nat × List Byte)) : List Byte := (l.map Prod.snd).flatten

/-- Every field is as long as its width. -/
def Laid (l : List (Nat × List Byte)) : Prop := ∀ p ∈ l, p.2.length = p.1

/-- The fields stand one after another from an offset on. -/
def FieldsAt (f : Nat → Nat → List Byte) : (offset : Nat) → List (Nat × List Byte) → Prop
  | _, [] => True
  | offset, p :: rest => f offset p.1 = p.2 ∧ FieldsAt f (offset + p.1) rest

theorem length_fieldBytes {l : List (Nat × List Byte)} (h : Laid l) : (fieldBytes l).length = (l.map Prod.fst).sum := by
  induction l with
  | nil => rfl
  | cons p rest ih =>
    have hrest : Laid rest := fun q hq => h q (List.mem_cons_of_mem _ hq)
    have hp : p.2.length = p.1 := h p List.mem_cons_self
    have hih := ih hrest
    simp only [fieldBytes, List.map_cons, List.flatten_cons, List.length_append, List.sum_cons] at hih ⊢
    rw [hp, hih]

theorem fieldsAt_append {l : List (Nat × List Byte)} (h : Laid l) (before : List Byte) :
    FieldsAt (fieldAt (before ++ fieldBytes l)) before.length l := by
  induction l generalizing before with
  | nil => trivial
  | cons p rest ih =>
    have hrest : Laid rest := fun q hq => h q (List.mem_cons_of_mem _ hq)
    have hp : p.2.length = p.1 := h p List.mem_cons_self
    have hbytes : fieldBytes (p :: rest) = p.2 ++ fieldBytes rest := rfl
    refine ⟨?_, ?_⟩
    · rw [fieldAt_append_of_le _ _ (Nat.le_refl _), Nat.sub_self]
      exact fieldAt_append_self _ hp
    · have hnext := ih hrest (before ++ p.2)
      rwa [List.length_append, hp, List.append_assoc, ← hbytes] at hnext

/-- The fields of a record that is laid out as a list of fields. -/
theorem fieldsAt_fieldBytes {l : List (Nat × List Byte)} (h : Laid l) : FieldsAt (fieldAt (fieldBytes l)) 0 l :=
  fieldsAt_append h []

/-! ## Where the records lie (R162) -/

/-- How many bytes a record has. -/
def Record.size : Record → Nat
  | .header | .lane _ | .bay _ => 0x40
  | .intensifier _ | .station _ => 0x20
  | .trace _ => 0x100
  | .entry _ => 0x80

theorem recordAt_of_mem {a : Nat} {r : Record} (h : r.base ≤ a) (hlt : a < r.base + r.size) : recordAt a = some r := by
  unfold recordAt
  cases r with
  | header => exact if_pos (by simpa [Record.base, Record.size] using hlt)
  | lane l => cases l <;> simp only [Record.base, Record.size] at h hlt <;> grind
  | intensifier i => cases i <;> simp only [Record.base, Record.size] at h hlt <;> grind
  | station st => cases st <;> simp only [Record.base, Record.size] at h hlt <;> grind
  | bay n =>
    have hn := n.isLt
    simp only [Record.base, Record.size] at h hlt
    repeat rw [if_neg (by omega)]
    rw [dif_pos (by omega)]
    exact congrArg (fun n => some (Record.bay n)) (Fin.ext (by simp only; omega))
  | trace n =>
    have hn := n.isLt
    simp only [Record.base, Record.size] at h hlt
    repeat rw [if_neg (by omega)]
    rw [dif_neg (by omega), if_neg (by omega), dif_neg (by omega), dif_pos (by omega)]
    exact congrArg (fun n => some (Record.trace n)) (Fin.ext (by simp only; omega))
  | entry i =>
    have hi := i.isLt
    simp only [Record.base, Record.size] at h hlt
    repeat rw [if_neg (by omega)]
    rw [dif_neg (by omega), if_neg (by omega), dif_pos (by omega)]
    exact congrArg (fun i => some (Record.entry i)) (Fin.ext (by simp only; omega))

theorem mem_of_recordAt {a : Nat} {r : Record} (h : recordAt a = some r) : r.base ≤ a ∧ a < r.base + r.size := by
  simp only [recordAt, ite_eq_iff, dite_eq_iff, Option.some.injEq, reduceCtorEq, and_false, or_false, false_or,
    exists_prop] at h
  rcases h with ⟨h, rfl⟩ | ⟨h, h1, ⟨h2, rfl⟩ | ⟨h2, ⟨h3, rfl⟩ | ⟨h3, ⟨h4, rfl⟩ | ⟨h4, ⟨h5, rfl⟩ | ⟨h5, ⟨h6, rfl⟩ |
    ⟨h6, ⟨h7, rfl⟩ | ⟨h7, ⟨h8, rfl⟩ | ⟨h8, h9, ⟨h10, rfl⟩ | ⟨h10, h11, rfl⟩⟩⟩⟩⟩⟩⟩⟩⟩ <;>
  simp only [Record.base, Record.size] <;> omega

theorem record_end (r : Record) : r.base + r.size ≤ 0x2E00 := by
  cases r with
  | header => decide
  | lane l => cases l <;> decide
  | intensifier i => cases i <;> decide
  | station st => cases st <;> decide
  | bay n | trace n | entry n =>
    have := n.isLt
    simp only [Record.base, Record.size]
    omega

end Sys2Proof.Machine
end

