-- ==== Sys2Proof/Proofs/Words.lean ====
section
/-! The fields of the records (R181 to R185): each record as the list of its fields. -/

-- Proofs are checked one after another: the whole text, compiled as one, would otherwise start more threads than fit into the
-- check's memory.
set_option Elab.async false

namespace Sys2Proof.Machine

/-! ## The header (R183) -/

def headerFields (s : State) : List (Nat × List Byte) :=
  [(1, [s.headerCount]), (1, [1#8]), (1, leBytes 1 s.runState.code), (1, optBytes 1 s.firstBad),
    (2, optBytes 2 (s.date.map Date.year)), (1, optBytes 1 (s.date.map Date.month)), (1, [0#8]),
    (4, leBytes 4 s.lineSeconds.toNat), (4, leBytes 4 s.typeMask.toNat), (2, leBytes 2 s.templateMask.toNat),
    (1, leBytes 1 s.freeCount), (1, leBytes 1 s.notices.length), (1, leBytes 1 s.outfeedState.code),
    (1, leBytes 1 (flagBits [s.outfeedHeadInFlight])), (1, leBytes 1 s.ejectsInFlight),
    (1, leBytes 1 s.outfeedQueue.length), (8, padBytes 8 0xFF#8 (s.outfeedQueue.map (fun p => BitVec.ofNat 8 p.code))),
    (1, leBytes 1 s.claims.length), (8, padBytes 8 0xFF#8 (s.claims.map (fun c => BitVec.ofNat 8 c.code))),
    (0x17, List.replicate 0x17 0#8)]

/-- A record that is laid out as a list of fields. -/
theorem record_layout {s : State} {r : Record} {l : List (Nat × List Byte)} (h : s.recordBytes r = fieldBytes l)
    (hl : Laid l) {n : Nat} (hn : (l.map Prod.fst).sum = n) :
    (s.recordBytes r).length = n ∧ FieldsAt (fieldAt (s.recordBytes r)) 0 l := by
  rw [h, length_fieldBytes hl, hn]
  exact ⟨rfl, fieldsAt_fieldBytes hl⟩

theorem header_layout (s : State) : (s.recordBytes .header).length = 0x40 ∧
    FieldsAt (fieldAt (s.recordBytes .header)) 0 (headerFields s) :=
  record_layout (by simp [State.recordBytes, State.headerBody, State.outfeedFields, fieldBytes, headerFields, Config.layoutVersion])
    (by simp [Laid, headerFields]) (by simp [headerFields])

/-! ## A lane record, with the reader fields (R185, R50) -/

def laneFields (s : State) (l : LaneId) : List (Nat × List Byte) :=
  let x := s.lane l
  let r := s.reader l
  [(1, [x.editCount]), (1, leBytes 1 x.state.code),
    (1, leBytes 1 (flagBits [x.permit, x.headInFlight, decide (Claimant.lane l ∈ s.claims), x.trackOut,
      x.noteWait.isSome])), (1, leBytes 1 x.queue.length),
    (12, padBytes 12 0xFF#8 (x.queue.map (fun i => BitVec.ofNat 8 i.code))),
    (4, optTime (x.noteWait.map NoteWait.expiry)), (1, leBytes 1 x.track.length),
    (3, padBytes 3 0xFF#8 (x.track.map (fun p => BitVec.ofNat 8 p.code))), (1, leBytes 1 r.state.code),
    (1, leBytes 1 r.badFrames), (1, leBytes 1 r.duplicateReads), (1, leBytes 1 r.overruns),
    (12, optText 12 (r.held.map Identity.serial)), (2, optBytes 2 (r.held.map (fun h => h.date.year))),
    (1, optBytes 1 (r.held.map (fun h => h.date.month))), (0x15, List.replicate 0x15 0#8)]

theorem lane_layout (s : State) (l : LaneId) : (s.recordBytes (.lane l)).length = 0x40 ∧
    FieldsAt (fieldAt (s.recordBytes (.lane l))) 0 (laneFields s l) :=
  record_layout (by simp [State.recordBytes, State.laneBody, State.laneClaim, fieldBytes, laneFields])
    (by simp [Laid, laneFields]) (by simp [laneFields])

/-! ## A bay record (R185) -/

theorem shownTimer_eq (b : Bay) :
    b.shownTimer = if b.state = BayState.loading then b.loading.bind Transit.expiry else b.stepTimer := by
  unfold Bay.shownTimer
  split <;> simp_all

def bayFields (s : State) (n : BayId) : List (Nat × List Byte) :=
  let b := s.bay n
  let timer := if b.state = BayState.loading then b.loading.bind Transit.expiry else b.stepTimer
  [(1, [b.editCount]), (1, leBytes 1 b.state.code), (1, optBytes 1 (b.index.map Fin.val)),
    (1, leBytes 1 (flagBits [b.pressurised, b.lapsed, b.aborted, b.ruptured])),
    (1, optBytes 1 (b.releaseCause.map ReleaseCause.code)), (1, optBytes 1 (b.suspendedFrom.map SuspendedFrom.code)),
    (1, optBytes 1 (b.resume.map ResumePoint.code)), (1, optBytes 1 (b.coupled.map IntensifierId.number)),
    (1, optBytes 1 (b.faultCause.map AlertCode.code)), (1, leBytes 1 b.checksOwed), (1, leBytes 1 b.failures),
    (1, leBytes 1 b.traceIndex), (1, leBytes 1 b.traceCount),
    (1, leBytes 1 (flagBits [b.outputs.fill, b.outputs.isolate, b.outputs.vent, b.outputs.couple1, b.outputs.couple2,
      b.outputs.door, b.outputs.buretteDrain])), (1, leBytes 1 (flagBits [b.present, b.full, b.doorClosed])),
    (1, leBytes 1 (flagBits [timer.isSome, b.risePaused.isSome, b.pressTimer.isSome])),
    (2, leBytes 2 (flagBits [b.baseline.isSome, b.holdStart.isSome, b.peak.isSome, b.et.isSome, b.drop.isSome,
      b.ep.isSome, b.zeroReference.isSome, b.lastZeroReading.isSome, b.lastDrift.isSome])), (2, optBytes 2 b.baseline),
    (2, optBytes 2 b.holdStart), (2, optBytes 2 b.peak), (4, optSigned b.et), (4, optSigned b.drop),
    (2, optBytes 2 b.ep), (2, leBytes 2 b.latestPressure), (2, leBytes 2 b.latestGauge), (2, optBytes 2 b.zeroReference),
    (2, leBytes 2 b.validity), (2, optBytes 2 b.lastZeroReading), (2, optBytes 2 b.lastDrift),
    (2, optBytes 2 b.risePaused), (4, optTime timer), (4, optTime b.pressTimer), (8, List.replicate 8 0#8)]

theorem bay_layout (s : State) (n : BayId) : (s.recordBytes (.bay n)).length = 0x40 ∧
    FieldsAt (fieldAt (s.recordBytes (.bay n))) 0 (bayFields s n) :=
  record_layout (by
    unfold State.recordBytes Bay.body BayOutputs.bits
    simp only [shownTimer_eq, fieldBytes, bayFields, List.map_cons, List.map_nil, List.flatten_cons, List.flatten_nil,
      List.append_nil, List.append_assoc, List.cons_append, List.nil_append])
    (by simp [Laid, bayFields]) (by simp [bayFields])

/-! ## An intensifier record (R185) -/

def intensifierFields (s : State) (i : IntensifierId) : List (Nat × List Byte) :=
  let x := s.intensifier i
  let q := if i = .one then s.requests else []
  [(1, [x.editCount]), (1, leBytes 1 x.state.code), (2, optBytes 2 x.setpoint),
    (1, optBytes 1 (x.coupledBay.map (fun n => n.val + 1))), (2, optBytes 2 x.requested),
    (1, leBytes 1 (flagBits [x.pendingOffline, x.faultInput])), (4, optTime x.retuneExpiry), (1, leBytes 1 q.length),
    (18, padBytes 18 0xFF#8 (q.flatMap (fun r => leBytes 1 (r.bay.val + 1) ++ leBytes 2 r.pressure))), (1, [0#8])]

theorem intensifier_layout (s : State) (i : IntensifierId) : (s.recordBytes (.intensifier i)).length = 0x20 ∧
    FieldsAt (fieldAt (s.recordBytes (.intensifier i))) 0 (intensifierFields s i) :=
  record_layout (by cases i <;> simp [State.recordBytes, State.intensifierBody, fieldBytes, intensifierFields])
    (by simp [Laid, intensifierFields]) (by simp [intensifierFields])

/-! ## A station record (R185) -/

theorem shownLimit_eq (x : Station) : x.shownLimit =
    if x.state = StationState.nestLoading then x.loading.bind Transit.expiry
    else if x.state = StationState.offering ∨ x.state = StationState.working then x.limit
    else none := by
  unfold Station.shownLimit
  split <;> simp_all

def stationFields (s : State) (st : StationId) : List (Nat × List Byte) :=
  let x := s.station st
  let limit := if x.state = StationState.nestLoading then x.loading.bind Transit.expiry else if x.state = StationState.offering ∨ x.state = StationState.working then x.limit else none
  [(1, [x.editCount]), (1, leBytes 1 x.state.code), (1, leBytes 1 x.nest.code), (1, optBytes 1 (x.index.map Fin.val)),
    (1, optBytes 1 (x.order.map List.length)),
    (1, (if st = .stamper then optBytes 1 (x.mark.map List.length) else [0xFF#8])), (1, optBytes 1 x.bytePos),
    (1, leBytes 1 x.reoffer), (1, leBytes 1 x.resultLatch.toNat), (1, optBytes 1 (x.ejectExit.map Exit.code)),
    (1, leBytes 1 (flagBits [x.ejectBegun, limit.isSome])), (1, optBytes 1 (x.faultCause.map AlertCode.code)),
    (1, [x.orderBus]), (1, leBytes 1 (flagBits [x.orderReady, x.taken, x.done, x.ready, x.nestEye, s.guardClosed])),
    (4, optTime limit), (0xE, List.replicate 0xE 0#8)]

theorem station_layout (s : State) (st : StationId) : (s.recordBytes (.station st)).length = 0x20 ∧
    FieldsAt (fieldAt (s.recordBytes (.station st))) 0 (stationFields s st) :=
  record_layout (by cases st <;> simp [State.recordBytes, State.stationBody, shownLimit_eq, fieldBytes, stationFields])
    (by cases st <;> simp [Laid, stationFields]) (by simp [stationFields])

/-! ## A roster entry (R184) -/

def entryFields (s : State) (i : RosterIndex) : List (Nat × List Byte) :=
  let e := s.entry i
  [(1, [e.editCount]), (1, leBytes 1 e.state.code), (1, leBytes 1 e.place.code),
    (1, optBytes 1 (e.route.map Route.code)), (12, optText 12 e.serial), (2, optBytes 2 (e.tagDate.map Date.year)),
    (1, optBytes 1 (e.tagDate.map Date.month)), (1, optBytes 1 (e.noteSlot.map Fin.val)),
    (1, optBytes 1 (e.typeCode.map Fin.val)), (1, optBytes 1 (e.visual.map Visual.code)),
    (1, leBytes 1 (flagBits [e.forceTest])), (1, optBytes 1 (e.params.map Params.strikeClass)),
    (2, optBytes 2 (e.params.map Params.testPressure)), (2, optBytes 2 (e.params.map Params.holdTime)),
    (2, optBytes 2 (e.params.map Params.ratioLimit)), (2, optBytes 2 (e.params.map Params.elasticLimit)),
    (2, optBytes 2 (e.params.map Params.capacity)), (1, optBytes 1 (e.params.map Params.dropTolerance)),
    (1, optBytes 1 (e.params.map Params.template)), (1, leBytes 1 e.countedVoids), (1, leBytes 1 e.testsStarted),
    (1, optBytes 1 (e.lastVoid.map VoidCause.code)), (1, optBytes 1 (e.lastBay.map (fun n => n.val + 1))),
    (1, leBytes 1 (flagBits [e.meas.baseline.isSome, e.meas.peak.isSome, e.meas.et.isSome, e.meas.drop.isSome,
      e.meas.ep.isSome, e.meas.ratio.isSome])), (1, optBytes 1 (e.verdict.map Verdict.code)),
    (1, optBytes 1 (e.verdict.map (fun v => v.reason.code))), (1, optBytes 1 (e.holdReason.map Reason.code)),
    (2, optBytes 2 e.meas.baseline), (2, optBytes 2 e.meas.peak), (4, optSigned e.meas.et), (4, optSigned e.meas.drop),
    (2, optBytes 2 e.meas.ep), (2, optBytes 2 e.meas.ratio), (1, optBytes 1 (e.mark.map List.length)),
    (24, optText 24 e.mark), (3, List.replicate 3 0#8), (4, leBytes 4 e.arrivalTime.toNat), (4, optTime e.verdictTime),
    (4, optTime e.doneTime), (1, optBytes 1 (e.outcome.map (fun o => o.1.code))),
    (1, optBytes 1 (e.outcome.map (fun o => o.2.code))), (0x1A, List.replicate 0x1A 0#8)]

theorem entry_layout (s : State) (i : RosterIndex) : (s.recordBytes (.entry i)).length = 0x80 ∧
    FieldsAt (fieldAt (s.recordBytes (.entry i))) 0 (entryFields s i) :=
  record_layout (by
    unfold State.recordBytes Entry.body
    simp only [fieldBytes, entryFields, List.map_cons, List.map_nil, List.flatten_cons, List.flatten_nil,
      List.append_nil, List.append_assoc, List.cons_append, List.nil_append])
    (by simp [Laid, entryFields]) (by simp [entryFields])

end Sys2Proof.Machine
end

