-- ==== Sys2Proof/Proofs/RegisterWords.lean ====
section
/-! The words of the registers, the codes, the encodings and the record layouts together (R181 to R185). -/

-- Proofs are checked one after another: the whole text, compiled as one, would otherwise start more threads than fit into the
-- check's memory.
set_option Elab.async false

namespace Sys2Proof.Machine

/-! ## The trace ring (R102, R185) -/

theorem length_flatMap_of_width {α : Type} {g : α → List Byte} {w : Nat} (hg : ∀ x, (g x).length = w) (l : List α) :
    (l.flatMap g).length = w * l.length := by
  induction l with
  | nil => rfl
  | cons x rest ih =>
    rw [List.flatMap_cons, List.length_append, ih, hg, List.length_cons, Nat.mul_succ, Nat.add_comm]

theorem fieldAt_flatMap {α : Type} {g : α → List Byte} {w : Nat} (hg : ∀ x, (g x).length = w) (l : List α) {k : Nat}
    (hk : k < l.length) : fieldAt (l.flatMap g) (w * k) w = g l[k] := by
  induction l generalizing k with
  | nil => exact absurd hk (Nat.not_lt_zero k)
  | cons x rest ih =>
    rw [List.flatMap_cons]
    cases k with
    | zero => exact fieldAt_append_self _ (hg x)
    | succ k =>
      rw [Nat.mul_succ, fieldAt_append_of_le _ _ (by rw [hg]; exact Nat.le_add_left w _), hg, Nat.add_sub_cancel]
      exact ih (by simpa using hk)

theorem length_traceEntry (e : TraceEntry) : (leBytes 2 e.pressure ++ leBytes 2 e.gauge).length = 4 := by simp

theorem trace_layout (s : State) (n : BayId) : (s.recordBytes (.trace n)).length = 256 ∧
    ∀ k : Fin 64, fieldAt (s.recordBytes (.trace n)) (4 * k.val) 4 =
      leBytes 2 (s.bay n).trace[k].pressure ++ leBytes 2 (s.bay n).trace[k].gauge := by
  have hlength : (s.bay n).trace.toList.length = 64 := (s.bay n).trace.length_toList
  refine ⟨?_, fun k => ?_⟩
  · show (List.flatMap _ _).length = 256
    rw [length_flatMap_of_width length_traceEntry, hlength]
  · have hfield := fieldAt_flatMap length_traceEntry (s.bay n).trace.toList (k := k.val) (by rw [hlength]; exact k.isLt)
    rw [Vector.getElem_toList] at hfield
    exact hfield

/-! ## The length of every record -/

theorem length_recordBytes (s : State) (r : Record) : (s.recordBytes r).length = r.size := by
  cases r with
  | header => exact (header_layout s).1
  | lane l => exact (lane_layout s l).1
  | intensifier i => exact (intensifier_layout s i).1
  | station st => exact (station_layout s st).1
  | bay n => exact (bay_layout s n).1
  | trace n => exact (trace_layout s n).1
  | entry i => exact (entry_layout s i).1

/-! ## The settled statement -/

/-- Settles O2. -/
theorem registerWords : Obligations.RegisterWords := by
  refine ⟨fun s => ⟨rfl, statWord_fields s⟩, toNat_outcome_word, fun source code h => toNat_alert_word code h, rfl, rfl,
    ?_, ?_, fun s => ?_, fun l s => ?_, fun n s => ?_, fun i s => ?_, fun st s => ?_, fun i s => ?_, ?_⟩
  · exact ⟨rfl, rfl, fun _ => rfl, rfl, ⟨rfl, rfl, fun _ => rfl⟩, ⟨rfl, rfl, fun _ => rfl⟩, rfl, rfl, rfl, rfl, rfl,
      ⟨rfl, fun _ => rfl⟩, rfl, rfl, rfl, rfl, rfl, rfl, rfl, rfl, rfl, rfl, ⟨rfl, fun _ => rfl, fun _ _ => ⟨rfl, rfl⟩⟩,
      fun _ => rfl, rfl, rfl⟩
  · exact ⟨fun k n => ⟨length_leBytes k n, fun j h => getD_leBytes k n h⟩, fun k => ⟨rfl, fun n => rfl⟩, ⟨rfl, fun z => rfl⟩,
      ⟨rfl, fun e => rfl⟩, fun k fill l => ⟨length_padBytes k fill l, fun j h => getD_padBytes k fill l h⟩,
      fun k l => ⟨rfl, rfl⟩, testBit_flagBits⟩
  · obtain ⟨hlength, h⟩ := header_layout s
    simp only [FieldsAt, headerFields, Nat.reduceAdd, and_true] at h
    exact ⟨hlength, h⟩
  · obtain ⟨hlength, h⟩ := lane_layout s l
    simp only [FieldsAt, laneFields, Nat.reduceAdd, and_true] at h
    exact ⟨hlength, h⟩
  · obtain ⟨hlength, h⟩ := bay_layout s n
    simp only [FieldsAt, bayFields, Nat.reduceAdd, and_true] at h
    have hall := And.intro (And.intro hlength h) (trace_layout s n)
    simp only [and_assoc] at hall ⊢
    exact hall
  · obtain ⟨hlength, h⟩ := intensifier_layout s i
    simp only [FieldsAt, intensifierFields, Nat.reduceAdd, and_true] at h
    exact ⟨hlength, h⟩
  · obtain ⟨hlength, h⟩ := station_layout s st
    simp only [FieldsAt, stationFields, Nat.reduceAdd, and_true] at h
    exact ⟨hlength, h⟩
  · obtain ⟨hlength, h⟩ := entry_layout s i
    simp only [FieldsAt, entryFields, Nat.reduceAdd, and_true] at h
    simp only [and_assoc]
    exact ⟨hlength, h⟩
  · refine ⟨rfl, rfl, rfl, rfl, fun n => ⟨rfl, rfl⟩, fun i => rfl, fun s r j hj => ?_, fun k => rfl,
      ⟨rfl, rfl, fun n => rfl, rfl, rfl, rfl, rfl⟩, fun a r hr => ?_⟩
    · rw [length_recordBytes] at hj
      exact recordAt_of_mem (Nat.le_add_right _ _) (Nat.add_lt_add_left hj _)
    · obtain ⟨hbase, hlt⟩ := mem_of_recordAt hr
      exact ⟨hbase, Nat.lt_of_lt_of_le hlt (record_end r), fun s => by rwa [length_recordBytes]⟩

end Sys2Proof.Machine
end

