-- ==== Sys2Proof/Proofs/StoreRules.lean ====
section
/-! The host's reads and writes of the store (R162): little-endian, byte by byte. -/

-- Proofs are checked one after another: the whole text, compiled as one, would otherwise start more threads than fit into the
-- check's memory.
set_option Elab.async false

namespace Sys2Proof.Machine

/-! ## Reads -/

theorem toNat_append_byte {m : Nat} (x : BitVec m) (y : Byte) : (x ++ y).toNat = x.toNat * 256 + y.toNat := by
  show (x ++ y).toNat = x.toNat * 2 ^ 8 + y.toNat
  rw [BitVec.toNat_append, ← Nat.shiftLeft_add_eq_or_of_lt y.isLt, Nat.shiftLeft_eq]

theorem ofNat_toNat_mod (b : Byte) {n : Nat} (h : n % 256 = b.toNat) : b = BitVec.ofNat 8 n := by
  apply BitVec.eq_of_toNat_eq
  rw [BitVec.toNat_ofNat]
  exact h.symm

/-- A read of the store gives its bytes, little-endian. -/
theorem storeRead_bytes (s : State) (a : Nat) (size : AccessSize) :
    (s.storeRead a size).toNat < 256 ^ widthOf size ∧
      ∀ k, k < widthOf size → s.storeByte (a + k) = BitVec.ofNat 8 ((s.storeRead a size).toNat / 256 ^ k) := by
  have h0 := (s.storeByte a).isLt
  have h1 := (s.storeByte (a + 1)).isLt
  have h2 := (s.storeByte (a + 2)).isLt
  have h3 := (s.storeByte (a + 3)).isLt
  cases size with
  | byte =>
    have hread : (s.storeRead a .byte).toNat = (s.storeByte a).toNat := by
      rw [State.storeRead, BitVec.toNat_setWidth, Nat.mod_eq_of_lt (by omega)]
    simp only [widthOf, hread]
    refine ⟨by omega, fun k hk => ofNat_toNat_mod _ ?_⟩
    obtain rfl : k = 0 := by omega
    simp only [Nat.add_zero, Nat.pow_zero]
    omega
  | halfword =>
    have hread : (s.storeRead a .halfword).toNat = (s.storeByte (a + 1)).toNat * 256 + (s.storeByte a).toNat := by
      rw [State.storeRead, BitVec.toNat_setWidth, toNat_append_byte, Nat.mod_eq_of_lt (by omega)]
    simp only [widthOf, hread]
    refine ⟨by omega, fun k hk => ofNat_toNat_mod _ ?_⟩
    obtain rfl | rfl : k = 0 ∨ k = 1 := by omega
    · simp only [Nat.add_zero, Nat.pow_zero]
      omega
    · simp only [Nat.pow_one]
      omega
  | word =>
    have hread : (s.storeRead a .word).toNat = (((s.storeByte (a + 3)).toNat * 256 + (s.storeByte (a + 2)).toNat) * 256 +
        (s.storeByte (a + 1)).toNat) * 256 + (s.storeByte a).toNat := by
      rw [State.storeRead, toNat_append_byte, toNat_append_byte, toNat_append_byte]
    simp only [widthOf, hread]
    refine ⟨by omega, fun k hk => ofNat_toNat_mod _ ?_⟩
    obtain rfl | rfl | rfl | rfl : k = 0 ∨ k = 1 ∨ k = 2 ∨ k = 3 := by omega
    · simp only [Nat.add_zero, Nat.pow_zero]
      omega
    · simp only [Nat.pow_one]
      omega
    · simp only [Nat.reducePow]
      omega
    · simp only [Nat.reducePow]
      omega

/-! ## Writes -/

theorem accessBytes_eq (size : AccessSize) (value : Word) : accessBytes size value = leBytes (widthOf size) value.toNat := by
  cases size <;> rfl

theorem storeByte_storeWrite_outside (s : State) {a b : Nat} {l : List Byte} (h : b < a ∨ a + l.length ≤ b) :
    (s.storeWrite a l).storeByte b = s.storeByte b := by
  induction l generalizing s a with
  | nil => rfl
  | cons x rest ih =>
    rw [List.length_cons] at h
    rw [State.storeWrite, ih _ (by omega), storeByte_pokeByte_of_ne _ _ (by omega)]

theorem storeByte_storeWrite_inside {s : State} (hs : s.memWf = true) {a k : Nat} {l : List Byte} (hk : k < l.length)
    (ha : a + k < 0x10000) : (s.storeWrite a l).storeByte (a + k) = l.getD k 0#8 := by
  induction l generalizing s a k with
  | nil => exact absurd hk (Nat.not_lt_zero k)
  | cons x rest ih =>
    rw [State.storeWrite]
    cases k with
    | zero =>
      show ((s.pokeByte a x).storeWrite (a + 1) rest).storeByte a = x
      rw [storeByte_storeWrite_outside _ (.inl (Nat.lt_succ_self a)), storeByte_pokeByte_self x (by simpa using ha) hs]
    | succ k =>
      have hnext := ih (memWf_pokeByte a x hs) (a := a + 1) (k := k) (by simpa using hk) (by omega)
      rwa [Nat.add_right_comm] at hnext

theorem frame_storeWrite (s : State) (a : Nat) (l : List Byte) : Frame [.store] s (s.storeWrite a l) := by
  rw [storeWrite_eq]
  intro p hp
  cases p
  case store => simp at hp
  all_goals first | rfl | exact ⟨rfl, rfl⟩ | exact ⟨rfl, rfl, rfl⟩ | exact ⟨rfl, rfl, rfl, rfl⟩

theorem exec_registerWrite (a : Word) (size : AccessSize) (value : Word) (s : State) :
    exec (.registerWrite a size value) s = .next (s.hostWrite a.toNat size value) := rfl

theorem hostWrite_store (s : State) {a : Nat} (size : AccessSize) (value : Word) (h : a < 0x10000) :
    s.hostWrite a size value = s.storeWrite a (accessBytes size value) := if_pos h

/-- Settles O14. -/
theorem storeWrites : Obligations.StoreWrites := by
  refine ⟨fun s a size h => ?_, fun a size value s hs ha => ?_, fun a size value s ha hreg => ?_⟩
  · have hwidth : 0 < widthOf size := by cases size <;> decide
    have hread : s.hostRead a size = s.storeRead a size := if_pos (by omega)
    rw [hread]
    exact storeRead_bytes s a size
  · rw [Gives, exec_registerWrite, hostWrite_store s size value ha, accessBytes_eq]
    have hlength : (leBytes (widthOf size) value.toNat).length = widthOf size := length_leBytes _ _
    refine ⟨_, rfl, fun k hk hlt => ?_, fun b hb => ?_, frame_storeWrite s _ _⟩
    · rw [storeByte_storeWrite_inside hs (by rwa [hlength]) hlt, getD_leBytes _ _ hk]
    · exact storeByte_storeWrite_outside s (by rwa [hlength])
  · rw [exec_registerWrite]
    have hlt : ¬a.toNat < 0x10000 := by omega
    cases size with
    | byte | halfword => exact congrArg Host.Outcome.next (if_neg hlt)
    | word =>
      have hwrite : s.hostWrite a.toNat .word value = s.registerWrite a.toNat value := if_neg hlt
      have hne (r : Word) (h : a ≠ r) : a.toNat ≠ r.toNat := fun heq => h (BitVec.eq_of_toNat_eq heq)
      have hcmb : a.toNat ≠ 0x10000 := hne 0x10000#32 fun h => hreg ⟨rfl, .inl h⟩
      have hctl : a.toNat ≠ 0x1000C := hne 0x1000C#32 fun h => hreg ⟨rfl, .inr h⟩
      rw [hwrite, State.registerWrite, if_neg hcmb, if_neg hctl]

end Sys2Proof.Machine
end

