-- ==== Sys2Proof/Proofs/NoteRules.lean ====
section
/-! WITHDRAW NOTE (R64) and POST NOTE (R57 to R60): the slot's edit carried through to the end of the command, the checks of
a slot's content, and the match. -/

-- Proofs are checked one after another: the whole text, compiled as one, would otherwise start more threads than fit into the
-- check's memory.
set_option Elab.async false

namespace Sys2Proof.Machine

/-! ## An edit of a slot, between other steps -/

theorem frame_writePlain (s : State) (a : Nat) (b : Byte) : Frame [.store] s (s.writePlain a b) := by
  intro p hp
  cases p
  case store => simp at hp
  all_goals first | rfl | exact ⟨rfl, rfl⟩ | exact ⟨rfl, rfl, rfl⟩ | exact ⟨rfl, rfl, rfl, rfl⟩

theorem frame_setSlotCount (s : State) (k : SlotId) (count : Byte) :
    Frame [.slotCount k] s { s with slotCounts := s.slotCounts.set k.val count k.isLt } := by
  intro p hp
  cases p
  case slotCount j =>
    have hne : k.val ≠ j.val := fun h => hp (by simp [Fin.ext h])
    exact Vector.getElem_set_ne k.isLt j.isLt hne
  case store => exact .of_mem_eq rfl
  all_goals first | rfl | exact ⟨rfl, rfl⟩ | exact ⟨rfl, rfl, rfl⟩ | exact ⟨rfl, rfl, rfl, rfl⟩

theorem frame_editSlot (s : State) (k : SlotId) (state reason index : Byte) :
    Frame [.store, .slotCount k] s (s.editSlot k state reason index) := by
  have hwrite (t : State) (a : Nat) (b : Byte) : Frame [.store, .slotCount k] t (t.writePlain a b) :=
    (frame_writePlain t a b).mono (by simp)
  exact ((frame_setSlotCount s k _).mono (by simp)).trans
    ((hwrite _ _ _).trans ((hwrite _ _ _).trans ((hwrite _ _ _).trans (hwrite _ _ _))))

/-- The edit of a slot in a state whose store is in order, whatever its records hold. -/
theorem slotEdited_of_rising {s : State} (hs : Memory.rising s.mem = true) (k : SlotId) (state reason index : Byte) :
    SlotEdited k state reason index s (s.editSlot k state reason index) := by
  obtain ⟨hstate, hreason, hindex, hcount, hother⟩ := storeByte_slotWrites
    (u := { s with slotCounts := s.slotCounts.set k.val (s.slotCounts[k] + 2#8) k.isLt }) hs k (s.slotCounts[k] + 2#8)
    state reason index
  have hcounts : (s.editSlot k state reason index).slotCounts[k] = s.slotCounts[k] + 2#8 := Vector.getElem_set_self k.isLt
  exact ⟨hstate, hreason, hindex, hcount, hcounts, hother⟩

/-- An edit of a slot, with steps before and behind it that leave the note board alone. -/
theorem SlotEdited.of_frames {k : SlotId} {state reason index : Byte} {s u v t : State} {L M : List Part}
    (h : SlotEdited k state reason index u v) (hb : Frame L s u) (ha : Frame M v t) (hL : .store ∉ L ∧ .slotCount k ∉ L)
    (hM : .store ∉ M ∧ .slotCount k ∉ M) : SlotEdited k state reason index s t := by
  obtain ⟨hstate, hreason, hindex, hcount, hcounts, hother⟩ := h
  have hbefore : SameStore s u := hb .store hL.1
  have hbehind : SameStore v t := ha .store hM.1
  have hcountB : u.slotCounts[k] = s.slotCounts[k] := hb (.slotCount k) hL.2
  have hcountA : t.slotCounts[k] = v.slotCounts[k] := ha (.slotCount k) hM.2
  have hbyte (o : Nat) (ho : o < 0x20) : t.storeByte (slotBase k + o) = v.storeByte (slotBase k + o) :=
    hbehind _ (recordAt_slot k ho)
  rw [hcountB] at hcount hcounts
  refine ⟨(hbyte 1 (by omega)).trans hstate, (hbyte 0x11 (by omega)).trans hreason, (hbyte 0x12 (by omega)).trans hindex,
    (hbyte 0 (by omega)).trans hcount, hcountA.trans hcounts, fun a hr h0 h1 h11 h12 => ?_⟩
  rw [hbehind a hr, hother a hr h0 h1 h11 h12, hbefore a hr]

theorem SlotEdited.markEmptied {k : SlotId} {state reason index : Byte} {s t : State}
    (h : SlotEdited k state reason index s t) (b : Bool) : SlotEdited k state reason index s (t.markEmptied b) := h

/-- The edit of a slot at the end of a command's work, seen from the command's beginning to its end. -/
theorem slotEdited_command {s u : State} {L : List Part} {word : Word} (hf : Frame L (s.withCommand word) u)
    (hu : Memory.rising u.mem = true) (k : SlotId) (hL : .store ∉ L ∧ .slotCount k ∉ L) (state reason index code : Byte)
    (result : ResultCode) : SlotEdited k state reason index s
      ((s.publish ((u.editSlot k state reason index).completed code result)).markEmptied true) := by
  have hb : Frame (.mailbox :: L) s u :=
    ((frame_withCommand s word).mono (by simp)).trans (hf.mono (List.subset_cons_self _ _))
  have hedit : SlotEdited k state reason index s ((u.editSlot k state reason index).completed code result) :=
    (slotEdited_of_rising hu k state reason index).of_frames hb (frame_completed _ code result) (by simpa using hL) (by simp)
  exact hedit.publish.markEmptied true

/-! ## Reading a slot (R53, R58, R181) -/

section

variable (s : State) (k : SlotId)

theorem plainByte_slot {o : Nat} (ho : o < 0x20) : s.plainByte (slotBase k + o) = s.storeByte (slotBase k + o) :=
  (storeByte_of_plain s (recordAt_slot k ho)).symm

theorem slotState_eq : s.slotState k = s.storeByte (slotBase k + 1) := plainByte_slot s k (by omega)

theorem slotSerial_eq : s.slotSerial k = slotText s k := by
  rw [State.slotSerial, plainBytes_eq_map, slotText]
  refine List.map_congr_left fun j hj => ?_
  have := List.mem_range.mp hj
  rw [Nat.add_assoc, plainByte_slot s k (by omega)]

theorem expectsSlot_iff : s.expectsSlot k = true ↔ Expected k s := by
  simp only [State.expectsSlot, List.any_eq_true, decide_eq_true_eq, Expected]

theorem visualOf_iff (b : Byte) : (visualOf b).isSome = true ↔ b = 1#8 ∨ b = 2#8 := by
  unfold visualOf
  split
  · simp_all
  · split <;> simp_all

theorem forceOf_iff (b : Byte) : (forceOf b).isSome = true ↔ b = 0#8 ∨ b = 1#8 := by
  unfold forceOf
  split
  · simp_all
  · split <;> simp_all

/-- The content of a slot has every field in range (R58, checks 1 to 3). -/
def FieldsRead : Prop :=
  (∀ b ∈ slotText s k, SerialChar b) ∧
    (s.storeByte (slotBase k + 0x0F) = 1#8 ∨ s.storeByte (slotBase k + 0x0F) = 2#8) ∧
    (s.storeByte (slotBase k + 0x10) = 0#8 ∨ s.storeByte (slotBase k + 0x10) = 1#8)

theorem serial_iff : (s.slotSerial k).all isSerialChar = true ↔ ∀ b ∈ slotText s k, SerialChar b := by
  rw [slotSerial_eq, List.all_eq_true]
  exact forall₂_congr fun b _ => isSerialChar_iff b

end

section

variable {s : State} {k : SlotId}

theorem checkedNote_bad (h : ¬FieldsRead s k) : s.checkedNote k = .inl 4#8 := by
  unfold State.checkedNote
  by_cases hserial : (s.slotSerial k).all isSerialChar = true
  · rw [if_pos hserial]
    split
    next visual force hv hf =>
      refine absurd ⟨(serial_iff s k).mp hserial, ?_, ?_⟩ h
      · rw [← visualOf_iff, ← plainByte_slot s k (by omega), hv]
        rfl
      · rw [← forceOf_iff, ← plainByte_slot s k (by omega), hf]
        rfl
    next => rfl
  · rw [if_neg hserial]
    rfl

theorem visualOf_slot (h : FieldsRead s k) : visualOf (s.plainByte (slotBase k + 0x0F)) =
    some (if s.storeByte (slotBase k + 0x0F) = 1#8 then .accept else .condemn) := by
  obtain ⟨-, hverdict, -⟩ := h
  rw [plainByte_slot s k (by omega), visualOf]
  rcases hverdict with hb | hb <;> rw [hb] <;> rfl

theorem forceOf_slot (h : FieldsRead s k) :
    forceOf (s.plainByte (slotBase k + 0x10)) = some (decide (s.storeByte (slotBase k + 0x10) = 1#8)) := by
  obtain ⟨-, -, hforce⟩ := h
  rw [plainByte_slot s k (by omega), forceOf]
  rcases hforce with hb | hb <;> rw [hb] <;> rfl

theorem checkedNote_good (h : FieldsRead s k) {code : Fin 32}
    (hcode : s.usableCode (s.storeByte (slotBase k + 0x0E)) = some code) : s.checkedNote k =
      .inr ⟨slotText s k, code, if s.storeByte (slotBase k + 0x0F) = 1#8 then .accept else .condemn,
        decide (s.storeByte (slotBase k + 0x10) = 1#8), k⟩ := by
  rw [State.checkedNote, if_pos ((serial_iff s k).mpr h.1), visualOf_slot h, forceOf_slot h, plainByte_slot s k (by omega),
    hcode, slotSerial_eq]

theorem checkedNote_unusable (h : FieldsRead s k) (hcode : s.usableCode (s.storeByte (slotBase k + 0x0E)) = none) :
    s.checkedNote k = .inl 1#8 := by
  rw [State.checkedNote, if_pos ((serial_iff s k).mpr h.1), visualOf_slot h, forceOf_slot h, plainByte_slot s k (by omega),
    hcode]
  rfl

theorem usableCode_some {b : Byte} {c : Fin 32} (hb : b.toNat = c.val) (hmask : s.typeMask.getLsbD c.val = true) :
    s.usableCode b = some c := by
  have hlt : b.toNat < 32 := hb ▸ c.isLt
  rw [State.usableCode, dif_pos hlt, if_pos (hb ▸ hmask)]
  exact congrArg some (Fin.ext hb)

theorem usableCode_none {b : Byte} (h : ¬(b.toNat < 32 ∧ s.typeMask.getLsbD b.toNat = true)) : s.usableCode b = none := by
  unfold State.usableCode
  split
  · exact if_neg fun hm => h ⟨‹_›, hm⟩
  · rfl

end

/-! ## WITHDRAW NOTE (R64) -/

theorem slotOfNumber_val {j : Nat} {k : SlotId} (h : j = k.val) : slotOfNumber j = some k := by
  subst h
  exact dif_pos k.isLt

theorem slotOfNumber_none {j : Nat} (h : 32 ≤ j) : slotOfNumber j = none := dif_neg (by omega)

section

variable {s : State} {arg : BitVec 24} {k : SlotId}

theorem frame_removeNote (s : State) (k : SlotId) : Frame [.expect] s (s.removeNote k) := by
  intro p hp
  cases p
  case expect => simp at hp
  case store => exact .of_mem_eq rfl
  all_goals first | rfl | exact ⟨rfl, rfl⟩ | exact ⟨rfl, rfl, rfl⟩ | exact ⟨rfl, rfl, rfl, rfl⟩

theorem withdrawNoteResult_out (h : 32 ≤ argByte arg) : s.withdrawNoteResult arg = (s, .badArgument) := by
  rw [State.withdrawNoteResult, slotOfNumber_none h]

theorem withdrawNoteResult_expected (h : argByte arg = k.val) (he : Expected k s) :
    s.withdrawNoteResult arg = ((s.removeNote k).plainSlot k slotWithdrawn, .accepted) := by
  rw [State.withdrawNoteResult, slotOfNumber_val h]
  exact if_pos ((expectsSlot_iff s k).mpr he)

theorem withdrawNoteResult_taken (h : argByte arg = k.val) (he : ¬Expected k s) (h3 : s.storeByte (slotBase k + 1) = 3#8) :
    s.withdrawNoteResult arg = (s, .tooLate) := by
  rw [State.withdrawNoteResult, slotOfNumber_val h]
  dsimp only
  rw [if_neg fun hx => he ((expectsSlot_iff s k).mp hx), slotState_eq]
  exact if_pos h3

theorem withdrawNoteResult_wrong (h : argByte arg = k.val) (he : ¬Expected k s) (h3 : s.storeByte (slotBase k + 1) ≠ 3#8) :
    s.withdrawNoteResult arg = (s, .wrongState) := by
  rw [State.withdrawNoteResult, slotOfNumber_val h]
  dsimp only
  rw [if_neg fun hx => he ((expectsSlot_iff s k).mp hx), slotState_eq]
  exact if_neg h3

end

/-- Settles O25. -/
theorem withdrawNote : Obligations.WithdrawNote := by
  refine ⟨fun arg s h hh => heard_only (c := .withdrawNote arg) rfl rfl hh (withdrawNoteResult_out h),
    fun arg k s hh hk => ⟨fun he hs => ?_, fun he h3 => ?_, fun he h3 => ?_⟩⟩
  · have hu := withdrawNoteResult_expected (s := s.withCommand (commandWord 0x11#8 arg)) hk he
    have hremove : Frame [.expect] (s.withCommand (commandWord 0x11#8 arg))
        ((s.withCommand (commandWord 0x11#8 arg)).removeNote k) := frame_removeNote _ k
    obtain ⟨hx, hanswered, hframe⟩ := heard_command (c := .withdrawNote arg) rfl rfl hh hu
      ((hremove.mono (M := [.store, .slotCount k, .expect]) (by simp)).trans ((frame_editSlot _ k _ _ _).mono (by simp)))
      (by simp)
    exact ⟨_, hx, hanswered, rfl, slotEdited_command hremove ((memWf_iff s).1 hs).1 k (by simp) _ _ _ _ _, hframe⟩
  · exact heard_only (c := .withdrawNote arg) rfl rfl hh (withdrawNoteResult_taken hk he h3)
  · exact heard_only (c := .withdrawNote arg) rfl rfl hh (withdrawNoteResult_wrong hk he h3)

end Sys2Proof.Machine
end

