-- ==== Sys2Proof/Proofs/PostNote.lean ====
section
/-! POST NOTE (R57 to R60): the lane's action on a match, and the settled statement. -/

-- Proofs are checked one after another: the whole text, compiled as one, would otherwise start more threads than fit into the
-- check's memory.
set_option Elab.async false

namespace Sys2Proof.Machine

/-! ## The first entry that waits for a note (R59) -/

theorem awaitingWith_first {s : State} {serial : List Byte} {i : RosterIndex} (h : AwaitsNote i serial s)
    (hfirst : ∀ j, j < i → ¬AwaitsNote j serial s) : s.awaitingWith serial = some i := by
  cases hj : s.awaitingWith serial with
  | none => exact absurd h (awaitingWith_none hj i)
  | some j =>
    have hwaits : AwaitsNote j serial s := awaitingWith_some hj
    obtain ⟨-, m, hm, heq, hbefore⟩ := List.find?_eq_some_iff_getElem.mp hj
    rw [List.getElem_finRange] at heq
    rcases Nat.lt_trichotomy j.val i.val with hlt | heq' | hgt
    · exact absurd hwaits (hfirst j hlt)
    · exact congrArg some (Fin.ext heq')
    · have hmj : m = j.val := congrArg Fin.val heq
      have hskip := hbefore i.val (by omega)
      rw [List.getElem_finRange] at hskip
      exact absurd h (by simpa [AwaitsNote, ← imp_iff_not_or] using hskip)

theorem awaitingWith_eq_none {s : State} {serial : List Byte} (h : ∀ i, ¬AwaitsNote i serial s) :
    s.awaitingWith serial = none :=
  List.find?_eq_none.mpr fun i _ => by simpa [AwaitsNote] using h i

theorem expectedNote_some {s : State} {serial : List Byte} (h : ∃ old ∈ s.expect, old.serial = serial) :
    ∃ old, s.expectedNote serial = some old := by
  obtain ⟨old, hmem, heq⟩ := h
  cases hn : s.expectedNote serial with
  | none => exact absurd heq (expectedNote_none hn old hmem)
  | some found => exact ⟨found, rfl⟩

theorem expectedNote_eq_none {s : State} {serial : List Byte} (h : ∀ old ∈ s.expect, old.serial ≠ serial) :
    s.expectedNote serial = none :=
  List.find?_eq_none.mpr fun old hold => by simpa using h old hold

/-! ## The lane's action on a match (R59, R72) -/

theorem claimed_placeClaim (s : State) (c : Claimant) : Claimed c s (s.placeClaim c) := by
  simp [Claimed, State.placeClaim]

section

variable {s : State} {l : LaneId} {i : RosterIndex}

theorem claimForLane_normal (h : (s.lane l).state = .normal) : s.claimForLane l = s.placeClaim (.lane l) := by
  unfold State.claimForLane
  rw [h]

theorem claimForLane_fault (h : (s.lane l).state = .fault) : s.claimForLane l = s := by
  unfold State.claimForLane
  rw [h]

theorem headAction_queued (hhead : (s.lane l).queue.head? = some (.entry i)) (hq : (s.entry i).state = .queued) :
    s.headAction l =
      if (s.entry i).route = some .hold ∨ (s.entry i).route = some .passThrough ∨ (s.entry i).route = some .deface then
        (s.stopNoteWait l).claimForLane l
      else s.stopNoteWait l := by
  obtain ⟨rest, hqueue⟩ := List.head?_eq_some_iff.mp hhead
  unfold State.headAction
  rw [hqueue]
  dsimp only
  rw [hq]
  dsimp only
  cases (s.entry i).route with
  | none => simp
  | some route => cases route <;> simp

/-- The routes a match gives. -/
theorem matched_route (s : State) (note : Note) (e : Entry) :
    (s.matched note e).route = some .test ∨ (s.matched note e).route = some .hold ∨
      (s.matched note e).route = some .passThrough ∨ (s.matched note e).route = some .deface := by
  unfold State.matched
  cases s.usableType note.typeCode with
  | none => exact .inr (.inl rfl)
  | some t =>
    cases note.visual with
    | condemn => exact .inr (.inr (.inr rfl))
    | accept =>
      dsimp only
      split
      · exact .inl rfl
      · exact .inr (.inr (.inl rfl))

theorem stopNoteWait_lane (s : State) (l : LaneId) :
    (s.stopNoteWait l).lane l = { s.lane l with noteWait := none } := by cases l <;> rfl

theorem headAction_queued_lane (hhead : (s.lane l).queue.head? = some (.entry i)) (hq : (s.entry i).state = .queued) :
    (s.headAction l).lane l = { s.lane l with noteWait := none } := by
  rw [headAction_queued hhead hq]
  have hclaim (t : State) : (t.claimForLane l).lane l = t.lane l := by
    unfold State.claimForLane
    split <;> rfl
  split
  · rw [hclaim, stopNoteWait_lane]
  · rw [stopNoteWait_lane]

/-- A head that is matched claims for its lane unless it is to be tested or the lane is in FAULT. -/
theorem headAction_queued_claims (hhead : (s.lane l).queue.head? = some (.entry i)) (hq : (s.entry i).state = .queued)
    (hroute : (s.entry i).route = some .test ∨ (s.entry i).route = some .hold ∨ (s.entry i).route = some .passThrough ∨
      (s.entry i).route = some .deface) :
    ((s.entry i).route = some .test ∨ (s.lane l).state = .fault → (s.headAction l).claims = s.claims) ∧
      ((s.entry i).route ≠ some .test → (s.lane l).state = .normal → Claimed (.lane l) s (s.headAction l)) := by
  have hlane : ((s.stopNoteWait l).lane l).state = (s.lane l).state := by rw [stopNoteWait_lane]
  have hclaims : (s.stopNoteWait l).claims = s.claims := by cases l <;> rfl
  rw [headAction_queued hhead hq]
  constructor
  · rintro (htest | hfault)
    · rw [if_neg (by simp [htest]), hclaims]
    · split
      · rw [claimForLane_fault (hlane.trans hfault), hclaims]
      · exact hclaims
  · intro htest hnormal
    rw [if_pos (hroute.resolve_left htest), claimForLane_normal (hlane.trans hnormal)]
    have hclaimed := claimed_placeClaim (s.stopNoteWait l) (.lane l)
    rwa [Claimed, hclaims] at hclaimed

theorem headIs_iff (s : State) (l : LaneId) (i : RosterIndex) :
    s.headIs l i = true ↔ (s.lane l).queue.head? = some (.entry i) := by
  rw [State.headIs, decide_eq_true_eq]

theorem actOnMatch_head (h : (s.lane l).queue.head? = some (.entry i))
    (hother : (s.lane (otherLane l)).queue.head? ≠ some (.entry i)) : s.actOnMatch i = s.headAction l := by
  unfold State.actOnMatch
  cases l with
  | a => rw [if_pos ((headIs_iff s .a i).mpr h)]
  | b => rw [if_neg fun hx => hother ((headIs_iff s .a i).mp hx), if_pos ((headIs_iff s .b i).mpr h)]

theorem actOnMatch_none (h : ∀ l, (s.lane l).queue.head? ≠ some (.entry i)) : s.actOnMatch i = s := by
  unfold State.actOnMatch
  rw [if_neg fun hx => h .a ((headIs_iff s .a i).mp hx), if_neg fun hx => h .b ((headIs_iff s .b i).mp hx)]

theorem actOnMatch_same_lane (h : (s.lane l).queue.head? ≠ some (.entry i)) : Same (.lane l) s (s.actOnMatch i) := by
  unfold State.actOnMatch
  split
  next ha =>
    have hne : l ≠ .a := fun hl => h (hl ▸ (headIs_iff s .a i).mp ha)
    exact frame_headAction s .a (.lane l) (by simpa using hne)
  next =>
    split
    next hb =>
      have hne : l ≠ .b := fun hl => h (hl ▸ (headIs_iff s .b i).mp hb)
      exact frame_headAction s .b (.lane l) (by simpa using hne)
    next => exact .refl _ s

theorem frame_actOnMatch (s : State) (i : RosterIndex) : Frame [.lane .a, .lane .b, .claims] s (s.actOnMatch i) :=
  .ite (fun _ => (frame_headAction s .a).mono (by simp))
    (fun _ => .ite (fun _ => (frame_headAction s .b).mono (by simp)) (fun _ => .refl _ s))

end

/-! ## The result of POST NOTE -/

section

variable {s : State} {arg : BitVec 24} {k : SlotId}

theorem postNoteResult_out (h : 32 ≤ argByte arg) : s.postNoteResult arg = (s, .badArgument) := by
  rw [State.postNoteResult, slotOfNumber_none h]

theorem postNoteResult_wrong (h : argByte arg = k.val) (hw : Expected k s ∨ s.storeByte (slotBase k + 1) ≠ 1#8) :
    s.postNoteResult arg = (s, .wrongState) := by
  rw [State.postNoteResult, slotOfNumber_val h]
  refine if_pos ?_
  rwa [expectsSlot_iff, slotState_eq]

/-- A slot that is FILLED and has no note in the expect table. -/
def Postable (s : State) (k : SlotId) : Prop := s.storeByte (slotBase k + 1) = 1#8 ∧ ¬Expected k s

theorem postSlot_postable (h : Postable s k) : ¬(s.expectsSlot k = true ∨ s.slotState k ≠ slotFilled) := by
  rw [expectsSlot_iff, slotState_eq]
  rintro (he | hs)
  · exact h.2 he
  · exact hs h.1

theorem postNoteResult_refused (h : argByte arg = k.val) (hp : Postable s k) {reason : Byte}
    (hc : s.checkedNote k = .inl reason) : s.postNoteResult arg = (s.refuseSlot k reason, .badArgument) := by
  rw [State.postNoteResult, slotOfNumber_val h]
  dsimp only
  rw [State.postSlot, if_neg (postSlot_postable hp), hc]

theorem postNoteResult_offered (h : argByte arg = k.val) (hp : Postable s k) {note : Note}
    (hc : s.checkedNote k = .inr note) : s.postNoteResult arg = s.offerNote note := by
  rw [State.postNoteResult, slotOfNumber_val h]
  dsimp only
  rw [State.postSlot, if_neg (postSlot_postable hp), hc]

end

/-! ## A note matched to an entry (R59) -/

section

variable {s : State} {note : Note} {i : RosterIndex}

/-- The match and the lane's action on it. -/
def State.noteMatched (s : State) (note : Note) (i : RosterIndex) : State := (s.matchEntry i note).actOnMatch i

theorem offerNote_matched (h : s.awaitingWith note.serial = some i) :
    s.offerNote note = ((s.noteMatched note i).editSlot note.slot slotTaken 0xFF#8 (BitVec.ofNat 8 i.val), .accepted) := by
  rw [State.offerNote, h]
  rfl

theorem offerNote_duplicate (h : s.awaitingWith note.serial = none) {old : Note}
    (hold : s.expectedNote note.serial = some old) : s.offerNote note = (s.refuseSlot note.slot refusedDuplicate, .duplicate) := by
  rw [State.offerNote, h]
  dsimp only
  rw [hold]

/-- A note joins the expect table. -/
def State.withNote (s : State) (note : Note) : State := { s with expect := s.expect ++ [note] }

theorem frame_withNote (s : State) (note : Note) : Frame [.expect] s (s.withNote note) := by
  intro p hp
  cases p
  case expect => simp at hp
  case store => exact .of_mem_eq rfl
  all_goals first | rfl | exact ⟨rfl, rfl⟩ | exact ⟨rfl, rfl, rfl⟩ | exact ⟨rfl, rfl, rfl, rfl⟩

theorem offerNote_posted (h : s.awaitingWith note.serial = none) (hnone : s.expectedNote note.serial = none) :
    s.offerNote note = ((s.withNote note).plainSlot note.slot slotPosted, .accepted) := by
  rw [State.offerNote, h]
  dsimp only
  rw [hnone]
  rfl

theorem frame_matchEntry (s : State) (i : RosterIndex) (note : Note) : Frame [.entry i] s (s.matchEntry i note) :=
  frame_editEntry s i _

theorem frame_noteMatched (s : State) (note : Note) (i : RosterIndex) :
    Frame [.entry i, .lane .a, .lane .b, .claims] s (s.noteMatched note i) :=
  ((frame_matchEntry s i note).mono (by simp)).trans ((frame_actOnMatch _ i).mono (by simp))

theorem matchEntry_entry (s : State) (i : RosterIndex) (note : Note) : (s.matchEntry i note).entry i =
    { s.matched note (s.entry i) with editCount := (s.entry i).editCount + 2#8 } := by
  rw [State.matchEntry, editEntry_eq, entry_setEntry, if_pos rfl]

theorem noteMatched_entry (s : State) (note : Note) (i : RosterIndex) : (s.noteMatched note i).entry i =
    { s.matched note (s.entry i) with editCount := (s.entry i).editCount + 2#8 } := by
  rw [State.noteMatched, (frame_actOnMatch _ i).entry_eq (by simp), matchEntry_entry]

theorem noteMatched_lane {l : LaneId} (h : (s.lane l).queue.head? = some (.entry i))
    (hother : (s.lane (otherLane l)).queue.head? ≠ some (.entry i)) :
    (s.noteMatched note i).lane l = { s.lane l with noteWait := none } := by
  have hqueued : ((s.matchEntry i note).entry i).state = .queued := by
    rw [matchEntry_entry]
    exact (matched_fields s note _).1
  have hlane (m : LaneId) : (s.matchEntry i note).lane m = s.lane m := by cases m <;> rfl
  rw [State.noteMatched, actOnMatch_head (by rwa [hlane]) (by rwa [hlane]), headAction_queued_lane (by rwa [hlane]) hqueued,
    hlane]

theorem noteMatched_claims {l : LaneId} (h : (s.lane l).queue.head? = some (.entry i))
    (hother : (s.lane (otherLane l)).queue.head? ≠ some (.entry i)) :
    ((s.matched note (s.entry i)).route = some .test ∨ (s.lane l).state = .fault →
      (s.noteMatched note i).claims = s.claims) ∧
    ((s.matched note (s.entry i)).route ≠ some .test → (s.lane l).state = .normal →
      Claimed (.lane l) s (s.noteMatched note i)) := by
  have hentry := matchEntry_entry s i note
  have hqueued : ((s.matchEntry i note).entry i).state = .queued := by
    rw [hentry]
    exact (matched_fields s note _).1
  have hroute : ((s.matchEntry i note).entry i).route = (s.matched note (s.entry i)).route := by rw [hentry]
  have hlane (m : LaneId) : (s.matchEntry i note).lane m = s.lane m := by cases m <;> rfl
  have hclaims := headAction_queued_claims (s := s.matchEntry i note) (l := l) (by rwa [hlane]) hqueued
    (hroute.symm ▸ matched_route s note _)
  rw [hroute, hlane] at hclaims
  rw [State.noteMatched, actOnMatch_head (by rwa [hlane]) (by rwa [hlane])]
  exact hclaims

theorem noteMatched_same_lane {l : LaneId} (h : (s.lane l).queue.head? ≠ some (.entry i)) :
    Same (.lane l) s (s.noteMatched note i) := by
  have hlane (m : LaneId) : (s.matchEntry i note).lane m = s.lane m := by cases m <;> rfl
  have hact : Same (.lane l) (s.matchEntry i note) (s.noteMatched note i) := actOnMatch_same_lane (by rwa [hlane])
  exact Eq.trans hact (congrArg Lane.bare (hlane l))

theorem noteMatched_same_claims (h : ∀ l, (s.lane l).queue.head? ≠ some (.entry i)) :
    (s.noteMatched note i).claims = s.claims := by
  have hlane (m : LaneId) : (s.matchEntry i note).lane m = s.lane m := by cases m <;> rfl
  rw [State.noteMatched, actOnMatch_none (fun l => by rw [hlane]; exact h l)]
  rfl

theorem noteMatched_rising (h : AwaitsNote i note.serial s) (hs : Memory.rising s.mem = true) :
    Memory.rising (s.noteMatched note i).mem = true := by
  have hkept : Kept True True s (s.noteMatched note i) := (kept_matchEntry note h.1).trans (kept_actOnMatch _ i)
  exact hkept.board.1 hs

/-- What a match leaves of the entry, the lanes and the claims (R13, R59, R72). -/
structure NoteTaken (note : Note) (i : RosterIndex) (s t : State) : Prop where
  entry : t.entry i = { s.matched note (s.entry i) with editCount := (s.entry i).editCount + 2#8 }
  lane : ∀ l, (s.lane l).queue.head? = some (.entry i) → (s.lane (otherLane l)).queue.head? ≠ some (.entry i) →
    (t.lane l).bare = { s.lane l with noteWait := none }.bare
  claims_kept : ∀ l, (s.lane l).queue.head? = some (.entry i) →
    (s.lane (otherLane l)).queue.head? ≠ some (.entry i) →
    (t.entry i).route = some .test ∨ (s.lane l).state = .fault → t.claims = s.claims
  claimed : ∀ l, (s.lane l).queue.head? = some (.entry i) → (s.lane (otherLane l)).queue.head? ≠ some (.entry i) →
    (t.entry i).route ≠ some .test → (s.lane l).state = .normal → Claimed (.lane l) s t
  lane_same : ∀ l, (s.lane l).queue.head? ≠ some (.entry i) → (t.lane l).bare = (s.lane l).bare
  claims_same : (∀ l, (s.lane l).queue.head? ≠ some (.entry i)) → t.claims = s.claims

theorem noteTaken_noteMatched (s : State) (note : Note) (i : RosterIndex) : NoteTaken note i s (s.noteMatched note i) where
  entry := noteMatched_entry s note i
  lane l h ho := congrArg Lane.bare (noteMatched_lane h ho)
  claims_kept l h ho hr := (noteMatched_claims h ho).1 (by rwa [noteMatched_entry] at hr)
  claimed l h ho hr := (noteMatched_claims h ho).2 (by rwa [noteMatched_entry] at hr)
  lane_same l h := noteMatched_same_lane h
  claims_same h := noteMatched_same_claims h

/-- Steps behind a match that leave the entry, the lanes and the claims alone. -/
theorem NoteTaken.of_same {u t : State} (h : NoteTaken note i s u) (hentry : t.entry i = u.entry i)
    (hlane : ∀ l, (t.lane l).bare = (u.lane l).bare) (hclaims : t.claims = u.claims) : NoteTaken note i s t where
  entry := hentry.trans h.entry
  lane l hh ho := (hlane l).trans (h.lane l hh ho)
  claims_kept l hh ho hr := hclaims.trans (h.claims_kept l hh ho (by rwa [hentry] at hr))
  claimed l hh ho hr hn := hclaims.trans (h.claimed l hh ho (by rwa [hentry] at hr) hn)
  lane_same l hh := (hlane l).trans (h.lane_same l hh)
  claims_same hh := hclaims.trans (h.claims_same hh)

theorem NoteTaken.command {u : State} (h : NoteTaken note i s u) (code : Byte) (result : ResultCode) :
    NoteTaken note i s ((s.publish (u.completed code result)).markEmptied true) :=
  h.of_same (by rw [markEmptied_entry, publish_entry, completed_entry])
    (fun l => by rw [markEmptied_lane, publish_lane_bare, completed_lane])
    (by rw [markEmptied_claims, publish_claims, completed_claims])

theorem NoteTaken.editSlot {u : State} (h : NoteTaken note i s u) (k : SlotId) (state reason index : Byte) :
    NoteTaken note i s (u.editSlot k state reason index) :=
  have hedit := frame_editSlot u k state reason index
  h.of_same (hedit.entry_eq (by simp)) (fun _ => hedit.lane_bare_eq (by simp)) (hedit.claims_eq (by simp))

/-- The word of the command in CMB is no part of a match. -/
theorem NoteTaken.of_withCommand {u : State} {word : Word} (h : NoteTaken note i (s.withCommand word) u) :
    NoteTaken note i s u := by
  have hlane (l : LaneId) : (s.withCommand word).lane l = s.lane l := by cases l <;> rfl
  obtain ⟨hentry, hact, hkept, hclaimed, hsame, hquiet⟩ := h
  simp only [hlane] at hact hkept hclaimed hsame hquiet
  exact ⟨hentry, hact, hkept, hclaimed, hsame, hquiet⟩

end

/-- Settles O24. -/
theorem postNote : Obligations.PostNote := by
  refine ⟨fun arg s h hh => heard_only (c := .postNote arg) rfl rfl hh (postNoteResult_out h),
    fun arg k s hh hk hw => heard_only (c := .postNote arg) rfl rfl hh (postNoteResult_wrong hk hw),
    fun k s => ⟨checkedNote_bad, fun hf hc => checkedNote_unusable hf (usableCode_none hc),
      fun hf c hc hm => checkedNote_good hf (usableCode_some hc hm)⟩, fun arg k s hs hh hk h1 hne => ?_⟩
  have hp : Postable (s.withCommand (commandWord 0x10#8 arg)) k := ⟨h1, hne⟩
  have hrising : Memory.rising s.mem = true := ((memWf_iff s).1 hs).1
  refine ⟨fun reason hc => ?_, fun note i hc hwaits hfirst => ?_, fun note hc hnone hold => ?_,
    fun note hc hnone hnew => ?_⟩
  · have hu := postNoteResult_refused hk hp hc
    obtain ⟨hx, hanswered, hframe⟩ := heard_command (c := .postNote arg) rfl rfl hh hu (frame_editSlot _ k _ _ _) (by simp)
    exact ⟨_, hx, hanswered, slotEdited_command (.refl [] _) hrising k (by simp) _ _ _ _ _, hframe⟩
  · obtain rfl : note.slot = k := checkedNote_slot hc
    have hu := (postNoteResult_offered hk hp hc).trans
      (offerNote_matched (awaitingWith_first (s := s.withCommand (commandWord 0x10#8 arg)) hwaits hfirst))
    have hmatch := frame_noteMatched (s.withCommand (commandWord 0x10#8 arg)) note i
    obtain ⟨hx, hanswered, hframe⟩ := heard_command (c := .postNote arg) rfl rfl hh hu
      ((hmatch.mono (M := [.store, .slotCount note.slot, .entry i, .lane .a, .lane .b, .claims]) (by simp)).trans
        ((frame_editSlot _ note.slot _ _ _).mono (by simp))) (by simp)
    have hedited := slotEdited_command hmatch (noteMatched_rising hwaits hrising) note.slot (by simp) slotTaken 0xFF#8
      (BitVec.ofNat 8 i.val) 0x10#8 .accepted
    obtain ⟨hentry, hlane, hkept, hclaimed, hsame, hquiet⟩ :=
      ((noteTaken_noteMatched (s.withCommand (commandWord 0x10#8 arg)) note i).of_withCommand.editSlot note.slot slotTaken
        0xFF#8 (BitVec.ofNat 8 i.val)).command 0x10#8 .accepted
    exact ⟨_, hx, hanswered, hedited, hentry, fun l h ho => ⟨hlane l h ho, hkept l h ho, hclaimed l h ho⟩, hsame, hquiet,
      hframe⟩
  · obtain rfl : note.slot = k := checkedNote_slot hc
    have hwait := awaitingWith_eq_none (s := s.withCommand (commandWord 0x10#8 arg)) hnone
    obtain ⟨old, hexpected⟩ := expectedNote_some (s := s.withCommand (commandWord 0x10#8 arg)) hold
    have hu := (postNoteResult_offered hk hp hc).trans (offerNote_duplicate hwait hexpected)
    obtain ⟨hx, hanswered, hframe⟩ := heard_command (c := .postNote arg) rfl rfl hh hu (frame_editSlot _ note.slot _ _ _)
      (by simp)
    exact ⟨_, hx, hanswered, slotEdited_command (.refl [] _) hrising note.slot (by simp) _ _ _ _ _, hframe⟩
  · obtain rfl : note.slot = k := checkedNote_slot hc
    have hwait := awaitingWith_eq_none (s := s.withCommand (commandWord 0x10#8 arg)) hnone
    have hu := (postNoteResult_offered hk hp hc).trans
      (offerNote_posted hwait (expectedNote_eq_none (s := s.withCommand (commandWord 0x10#8 arg)) hnew))
    have hadded := frame_withNote (s.withCommand (commandWord 0x10#8 arg)) note
    obtain ⟨hx, hanswered, hframe⟩ := heard_command (c := .postNote arg) rfl rfl hh hu
      ((hadded.mono (M := [.store, .slotCount note.slot, .expect]) (by simp)).trans
        ((frame_editSlot _ note.slot _ _ _).mono (by simp))) (by simp)
    exact ⟨_, hx, hanswered, rfl, slotEdited_command hadded hrising note.slot (by simp) _ _ _ _ _, hframe⟩

end Sys2Proof.Machine
end

