-- ==== Sys2Proof/Proofs/Ends.lean ====
section
/-! The end of a step: the state a step is left in reads as the state its effect gave, but for the edit counts and the
mailbox. -/

-- Proofs are checked one after another: the whole text, compiled as one, would otherwise start more threads than fit into the
-- check's memory.
set_option Elab.async false

namespace Sys2Proof.Machine

/-- What the end of a step from `s` keeps of the state `u` its effect gave. -/
structure Ends (s u t : State) : Prop where
  bay : ∀ n, (t.bay n).bare = (u.bay n).bare
  /-- a bay that the effect left as it was keeps its edit count as well -/
  kept : ∀ n, u.bay n = s.bay n → t.bay n = s.bay n
  lane : ∀ l, (t.lane l).bare = (u.lane l).bare
  intensifier : ∀ i, (t.intensifier i).bare = (u.intensifier i).bare
  station : ∀ st, (t.station st).bare = (u.station st).bare
  entry : ∀ i, t.entry i = u.entry i
  requests : t.requests = u.requests
  releases : t.releases = u.releases
  claims : t.claims = u.claims
  exits : t.exits = u.exits
  outfeed : t.outfeedState = u.outfeedState ∧ t.outfeedQueue = u.outfeedQueue ∧
    t.outfeedHeadInFlight = u.outfeedHeadInFlight
  run : t.runState = u.runState
  drained : t.drained = u.drained
  settings : t.settings = u.settings
  seconds : t.lineSeconds = u.lineSeconds
  free : t.freeCount = u.freeCount
  reader : ∀ l, t.reader l = u.reader l
  expect : t.expect = u.expect
  slots : t.slotCounts = u.slotCounts
  store : SameStore u t
  notices : t.nmb = u.nmb ∧ t.notices = u.notices ∧ t.alertSeen = u.alertSeen

theorem ends_publish (s u : State) : Ends s u (s.publish u) where
  bay n := publish_bay_bare s u n
  kept _ h := publish_bay_of_eq h
  lane l := publish_lane_bare s u l
  intensifier i := publish_intensifier_bare s u i
  station st := publish_station_bare s u st
  entry i := publish_entry s u i
  requests := publish_requests s u
  releases := publish_releases s u
  claims := publish_claims s u
  exits := publish_exits s u
  outfeed := ⟨publish_outfeedState s u, publish_outfeedQueue s u, publish_outfeedHeadInFlight s u⟩
  run := publish_runState s u
  drained := drained_publish s u
  settings := publish_settings s u
  seconds := publish_lineSeconds s u
  free := publish_freeCount s u
  reader l := publish_reader s u l
  expect := publish_expect s u
  slots := publish_slotCounts s u
  store _ ha := publish_storeByte_of_plain s u ha
  notices := ⟨publish_nmb s u, publish_notices s u, publish_alertSeen s u⟩

theorem ends_command (s u : State) (code : Byte) (result : ResultCode) :
    Ends s u ((s.publish (u.completed code result)).markEmptied true) :=
  have h := ends_publish s (u.completed code result)
  { bay := h.bay, kept := h.kept, lane := h.lane, intensifier := h.intensifier, station := h.station, entry := h.entry
    requests := h.requests, releases := h.releases, claims := h.claims, exits := h.exits, outfeed := h.outfeed
    run := h.run, drained := h.drained, settings := h.settings, seconds := h.seconds, free := h.free
    reader := h.reader, expect := h.expect, slots := h.slots, store := h.store, notices := h.notices }

/-! ## Reading the end of a step -/

section

variable {r s u t : State}

theorem Ends.bay_of_eq {n : BayId} {b : Bay} (h : Ends s u t) (hb : u.bay n = b) : (t.bay n).bare = b.bare :=
  hb ▸ h.bay n

theorem Ends.drainTested (h : Ends s u.drainTest t) (hrun : u.runState = s.runState) : DrainTested s t := by
  rw [DrainTested, h.run, h.drained, drained_drainTest, runState_drainTest, hrun]

theorem Ends.abortReported {i : RosterIndex} (h : Ends s u t) (k : AbortReported i r u) : AbortReported i r t := by
  rw [AbortReported] at k ⊢
  rw [h.entry, k]

theorem Ends.claimed {c : Claimant} (h : Ends s u t) (k : Claimed c r u) : Claimed c r t := h.claims.trans k

theorem Ends.releasing {n : BayId} {cause : ReleaseCause} (h : Ends s u t) (k : Releases n cause r u) :
    Releases n cause r t := by
  obtain ⟨hbay, hreq, hrel⟩ := k
  exact ⟨(h.bay n).trans hbay, h.requests.trans hreq, h.releases.trans hrel⟩

theorem Ends.checking {n : BayId} {rp : Option ResumePoint} (h : Ends s u t) (k : Checks n rp r u) : Checks n rp r t :=
  (h.bay n).trans k

theorem Ends.waiting {x : Notice} (h : Ends s u t) (k : Waiting x u) : Waiting x t := by
  obtain ⟨hnmb, hnotices, -⟩ := h.notices
  unfold Waiting at k ⊢
  rwa [hnmb, hnotices]

theorem Ends.alerted {source : Nat} {code : AlertCode} (h : Ends s u t) (k : Alerted source code u) :
    Alerted source code t :=
  ⟨h.waiting k.1, h.notices.2.2.trans k.2⟩

theorem Ends.closed {i : RosterIndex} {code : OutcomeCode} {reason : Reason} (h : Ends s u t)
    (k : Closed i code reason r u) : Closed i code reason r t :=
  ⟨(h.entry i).trans k.1, h.waiting k.2⟩

theorem Ends.work (h : Ends s u t) : t.work = u.work :=
  congrArg (fun w : Option Settings => w.getD Settings.unset) h.settings

theorem Ends.after (h : Ends s u t) (k : Nat) : t.after k = u.after k := by
  rw [State.after, State.after, h.seconds]

theorem Ends.permitHolds (h : Ends s u t) (l : LaneId) : t.permitHolds l = u.permitHolds l := by
  have hstate : (t.lane l).bare.state = (u.lane l).bare.state := congrArg Lane.state (h.lane l)
  have hqueue : (t.lane l).bare.queue = (u.lane l).bare.queue := congrArg Lane.queue (h.lane l)
  exact permitHolds_congr h.run hstate (congrArg List.length hqueue) h.settings h.free

theorem Ends.permitOnly {l : LaneId} (h : Ends s u t) (k : PermitOnly l r u) : PermitOnly l r t := by
  unfold PermitOnly at k ⊢
  rw [h.lane, h.permitHolds, k]

end

theorem Ends.slotEdited {k : SlotId} {state reason index : Byte} {s u t : State} (h : Ends s u t)
    {r : State} (hedit : SlotEdited k state reason index r u) : SlotEdited k state reason index r t := by
  obtain ⟨hstate, hreason, hindex, hcount, hcounts, hother⟩ := hedit
  have hbyte (o : Nat) (ho : o < 0x20) : t.storeByte (slotBase k + o) = u.storeByte (slotBase k + o) :=
    h.store _ (recordAt_slot k ho)
  refine ⟨(hbyte 1 (by omega)).trans hstate, (hbyte 0x11 (by omega)).trans hreason, (hbyte 0x12 (by omega)).trans hindex,
    (hbyte 0 (by omega)).trans hcount, ?_, fun a hr h0 h1 h11 h12 => ?_⟩
  · rw [h.slots, hcounts]
  · rw [h.store a hr, hother a hr h0 h1 h11 h12]

/-! ## A step and its end -/

/-- An event: its effect's frame and values at its end. -/
theorem event_ends {c : Instr} {s u : State} {L : List Part} (hx : exec c s = .next (s.publish u)) (hf : Frame L s u) :
    ∃ t, exec c s = .next t ∧ Frame L s t ∧ Ends s u t :=
  ⟨_, hx, hf.publish, ends_publish s u⟩

/-- A command that is heard: its answer, and its owner's frame and values at its end. -/
theorem heard_ends {c : Instr} {code : Byte} {arg : BitVec 24} {owner : State → State × ResultCode} {s u : State}
    {result : ResultCode} {L : List Part} (hc : commandOf c = some (code, arg)) (ho : ownerOf c = some owner)
    (hh : Heard code arg s) (hu : owner (s.withCommand (commandWord code arg)) = (u, result))
    (hf : Frame L (s.withCommand (commandWord code arg)) u) (hm : .mailbox ∉ L) :
    ∃ t, exec c s = .next t ∧ Answered code arg result t ∧ Frame (.mailbox :: L) s t ∧ Ends s u t := by
  obtain ⟨hx, hanswered, hframe⟩ := heard_command hc ho hh hu hf hm
  exact ⟨_, hx, hanswered, hframe, ends_command s u code result⟩

end Sys2Proof.Machine
end

