-- ==== Sys2Proof/Proofs/BayFacts.lean ====
section
/-! What the bays' shared operations give, read off: the comparison with the test allowance (R98), the request (R134), the
bay at the end of a command, and which bay a command names (R182). -/

-- Proofs are checked one after another: the whole text, compiled as one, would otherwise start more threads than fit into the
-- check's memory.
set_option Elab.async false

namespace Sys2Proof.Machine

/-! ## The bay a command names (R182) -/

theorem bayOfNumber_val {k : Nat} {n : BayId} (h : k = n.val + 1) : bayOfNumber k = some n := by
  have hlt := n.isLt
  rw [h, bayOfNumber, dif_pos ⟨by omega, by omega⟩]
  rfl

theorem bayOfNumber_none {k : Nat} (h : k = 0 ∨ 7 ≤ k) : bayOfNumber k = none :=
  dif_neg fun ⟨h1, h2⟩ => by omega

theorem forBayArg_bay (s : State) {arg : BitVec 24} {n : BayId} (h : argByte arg = n.val + 1)
    (f : State → BayId → State × ResultCode) : s.forBayArg arg f = f s n := by
  unfold State.forBayArg
  rw [bayOfNumber_val h]

theorem forBayArg_none (s : State) {arg : BitVec 24} (h : argByte arg = 0 ∨ 7 ≤ argByte arg)
    (f : State → BayId → State × ResultCode) : s.forBayArg arg f = (s, .badArgument) := by
  unfold State.forBayArg
  rw [bayOfNumber_none h]

/-- A command that names a bay and is heard. -/
theorem heard_bay {c : Instr} {code : Byte} {arg : BitVec 24} {f : State → BayId → State × ResultCode} {n : BayId}
    {s u : State} {result : ResultCode} {L : List Part} (hc : commandOf c = some (code, arg))
    (ho : ownerOf c = some fun t => t.forBayArg arg f) (hh : Heard code arg s) (harg : argByte arg = n.val + 1)
    (hu : f (s.withCommand (commandWord code arg)) n = (u, result))
    (hf : Frame L (s.withCommand (commandWord code arg)) u) (hm : .mailbox ∉ L) :
    ∃ t, exec c s = .next t ∧ Answered code arg result t ∧ Frame (.mailbox :: L) s t ∧ Ends s u t :=
  heard_ends hc ho hh ((forBayArg_bay _ harg f).trans hu) hf hm

/-- A command that names a bay which does nothing. -/
theorem heard_bay_only {c : Instr} {code : Byte} {arg : BitVec 24} {f : State → BayId → State × ResultCode} {n : BayId}
    {s : State} {result : ResultCode} (hc : commandOf c = some (code, arg))
    (ho : ownerOf c = some fun t => t.forBayArg arg f) (hh : Heard code arg s) (harg : argByte arg = n.val + 1)
    (hu : f (s.withCommand (commandWord code arg)) n = (s.withCommand (commandWord code arg), result)) :
    Gives c s (AnsweredOnly code arg result s) :=
  heard_only hc ho hh ((forBayArg_bay _ harg f).trans hu)

theorem bay_setBay_self (s : State) (n : BayId) (b : Bay) : (s.setBay n b).bay n = b := by
  rw [bay_setBay, if_pos rfl]

/-! ## The test allowance (R98) -/

section

variable {s t : State} {n : BayId}

theorem bayParams_congr (hindex : (t.bay n).index = (s.bay n).index) (hentry : ∀ i, t.entry i = s.entry i) :
    t.bayParams n = s.bayParams n := by
  unfold State.bayParams
  rw [hindex]
  cases (s.bay n).index with
  | none => rfl
  | some i => exact congrArg Entry.params (hentry i)

theorem testPressure_congr (hindex : (t.bay n).index = (s.bay n).index) (hentry : ∀ i, t.entry i = s.entry i) :
    t.testPressure n = s.testPressure n := by
  unfold State.testPressure
  rw [bayParams_congr hindex hentry]

theorem short_congr (hindex : (t.bay n).index = (s.bay n).index) (hvalidity : (t.bay n).validity = (s.bay n).validity)
    (hentry : ∀ i, t.entry i = s.entry i) (hwork : t.work = s.work) : t.short n = s.short n := by
  have hparams := bayParams_congr hindex hentry
  cases hp : s.bayParams n with
  | none =>
    have hp' : t.bayParams n = none := hparams.trans hp
    simp [State.short, hp, hp']
  | some p =>
    have hp' : t.bayParams n = some p := hparams.trans hp
    unfold State.short
    rw [hp, hp', hvalidity]
    exact decide_eq_decide.mpr (by rw [State.allowance, State.allowance, hwork])

/-- A suspended bay with the pressurised flag set, and one with enough validity, is not taken out by the comparison. -/
theorem testShortfall_suspended_kept (hstate : (s.bay n).state = .suspended)
    (h : s.short n = false ∨ (s.bay n).pressurised = true) : s.testShortfall n = s := by
  rcases h with h | h
  · exact testShortfall_of_enough h
  · simp [State.testShortfall, hstate, h]

theorem testShortfall_suspended_short (hstate : (s.bay n).state = .suspended) (h : s.short n = true)
    (hpress : (s.bay n).pressurised = false) : s.testShortfall n = s.zeroingStep n .suspend := by
  simp [State.testShortfall, hstate, h, hpress]

theorem testShortfall_await_pressurised (hstate : (s.bay n).state = .awaitIntensifier) (h : s.short n = true)
    (hpress : (s.bay n).pressurised = true) : s.testShortfall n = s.enterReleasing n (.void .zeroLapsed) := by
  simp [State.testShortfall, hstate, h, hpress]

theorem testShortfall_await_short (hstate : (s.bay n).state = .awaitIntensifier) (h : s.short n = true)
    (hpress : (s.bay n).pressurised = false) : s.testShortfall n = (s.withdrawRequest n).zeroingStep n .request := by
  simp [State.testShortfall, hstate, h, hpress]

/-- A step into ZEROING, outside E-STOPPED. -/
theorem zeroingStep_running (hrun : s.runState ≠ .eStopped) (rp : ResumePoint) :
    s.zeroingStep n rp = s.enterZeroing n (some rp) :=
  if_neg (by simp [stopped_eq_false hrun])

end

/-! ## A bay's request (R98, R134) -/

theorem takeReleasesOf_unqueued {s : State} {n : BayId} (h : ∀ r ∈ s.releases, r.bay ≠ n) : s.takeReleasesOf n = s := by
  have hnone : s.releases.filter (fun r => decide (r.bay = n)) = [] :=
    List.filter_eq_nil_iff.mpr fun r hr => by simpa using h r hr
  have hall : s.releases.filter (fun r => decide (r.bay ≠ n)) = s.releases :=
    List.filter_eq_self.mpr fun r hr => by simpa using h r hr
  rw [State.takeReleasesOf, hnone, hall]
  rfl

theorem mem_appendRequest (s : State) (n : BayId) : ∃ r ∈ (s.appendRequest n).requests, r.bay = n := by
  unfold State.appendRequest
  dsimp only
  split
  · obtain ⟨r, hr, hbay⟩ := List.any_eq_true.mp ‹_›
    exact ⟨r, hr, of_decide_eq_true hbay⟩
  · exact ⟨_, List.mem_append_right _ (List.mem_singleton_self _), rfl⟩

theorem appendRequest_unqueued {s : State} {n : BayId} (h : ∀ r ∈ s.requests, r.bay ≠ n) :
    s.appendRequest n = { s with requests := s.requests ++ [⟨n, s.testPressure n⟩] } := by
  unfold State.appendRequest
  rw [if_neg (by simpa using h)]

theorem mem_placeRequest (s : State) (n : BayId) : ∃ r ∈ (s.placeRequest n).requests, r.bay = n :=
  mem_appendRequest (s.takeReleasesOf n) n

theorem placeRequest_unqueued {s : State} {n : BayId} (h : Unqueued n s) : s.placeRequest n =
    ({ s with requests := s.requests ++ [⟨n, s.testPressure n⟩] } : State).setBay n { s.bay n with requested := true } := by
  unfold State.placeRequest
  rw [takeReleasesOf_unqueued h.1, appendRequest_unqueued h.2]
  rfl

theorem withdrawRequest_gone (s : State) (n : BayId) : ∀ r ∈ (s.withdrawRequest n).requests, r.bay ≠ n := by
  rw [withdrawRequest_requests]
  intro r hr
  simpa using (List.mem_filter.mp hr).2

theorem enterReleasing_requests (s : State) (n : BayId) (cause : ReleaseCause) :
    (s.enterReleasing n cause).requests = s.requests.filter (fun r => decide (r.bay ≠ n)) :=
  (releases_enterReleasing s n cause).2.1

/-! ## AWAIT INTENSIFIER entry (R98) -/

/-- The state in which a bay has entered AWAIT INTENSIFIER and placed its request, before the comparison of R98. -/
def State.awaited (s : State) (n : BayId) : State := (s.updBay n Bay.awaiting).placeRequest n

theorem enterAwait_eq (s : State) (n : BayId) : s.enterAwait n = (s.awaited n).testShortfall n := rfl

theorem frame_awaited (s : State) (n : BayId) : Frame (requestParts n) s (s.awaited n) :=
  ((frame_setBay s n _).mono (by simp [requestParts])).trans (frame_placeRequest _ n)

theorem awaited_bay (s : State) (n : BayId) : (s.awaited n).bay n = (s.bay n).waiting := by
  rw [State.awaited, placeRequest_bay, updBay_eq, bay_setBay, if_pos rfl]
  rfl

theorem awaited_short (s : State) (n : BayId) : (s.awaited n).short n = s.short n :=
  short_congr (by rw [awaited_bay]; rfl) (by rw [awaited_bay]; rfl)
    (fun _ => (frame_awaited s n).entry_eq (by simp [requestParts])) ((frame_awaited s n).work_eq (by simp [requestParts]))

theorem mem_awaited (s : State) (n : BayId) : ∃ r ∈ (s.awaited n).requests, r.bay = n := mem_placeRequest _ n

theorem awaited_unqueued {s : State} {n : BayId} (h : Unqueued n s) :
    (s.awaited n).requests = s.requests ++ [⟨n, s.testPressure n⟩] ∧ (s.awaited n).releases = s.releases ∧
      ∀ i, (s.awaited n).intensifier i = s.intensifier i := by
  have hunqueued : Unqueued n (s.updBay n Bay.awaiting) := h
  have hpressure : (s.updBay n Bay.awaiting).testPressure n = s.testPressure n :=
    testPressure_congr (by simp [Bay.awaiting, Bay.enter]) (fun _ => rfl)
  rw [State.awaited, placeRequest_unqueued hunqueued, hpressure]
  exact ⟨rfl, rfl, fun i => by cases i <;> rfl⟩

theorem enterAwait_enough {s : State} {n : BayId} (h : s.short n = false) : s.enterAwait n = s.awaited n := by
  rw [enterAwait_eq, testShortfall_of_enough ((awaited_short s n).trans h)]

theorem awaited_state (s : State) (n : BayId) : ((s.awaited n).bay n).state = .awaitIntensifier := by
  rw [awaited_bay]
  rfl

theorem awaited_pressurised (s : State) (n : BayId) : ((s.awaited n).bay n).pressurised = (s.bay n).pressurised := by
  rw [awaited_bay]
  rfl

theorem enterAwait_pressurised {s : State} {n : BayId} (h : s.short n = true) (hpress : (s.bay n).pressurised = true) :
    s.enterAwait n = (s.awaited n).enterReleasing n (.void .zeroLapsed) := by
  rw [enterAwait_eq, testShortfall_await_pressurised (awaited_state s n) ((awaited_short s n).trans h)
    ((awaited_pressurised s n).trans hpress)]

theorem enterAwait_short {s : State} {n : BayId} (h : s.short n = true) (hpress : (s.bay n).pressurised = false)
    (hrun : s.runState ≠ .eStopped) :
    s.enterAwait n = ((s.awaited n).withdrawRequest n).enterZeroing n (some .request) := by
  have hframe : Frame (requestParts n) s ((s.awaited n).withdrawRequest n) :=
    (frame_awaited s n).trans ((frame_withdrawRequest _ n).mono (by simp [requestParts]))
  have hkept : ((s.awaited n).withdrawRequest n).runState = s.runState := hframe.runState_eq (by simp [requestParts])
  rw [enterAwait_eq, testShortfall_await_short (awaited_state s n) ((awaited_short s n).trans h)
    ((awaited_pressurised s n).trans hpress), zeroingStep_running (hkept ▸ hrun)]

end Sys2Proof.Machine
end

