-- ==== Sys2Proof/Proofs/HoldResume.lean ====
section
/-! BAY HOLD and BAY RESUME (R111, R112). -/

-- Proofs are checked one after another: the whole text, compiled as one, would otherwise start more threads than fit into the
-- check's memory.
set_option Elab.async false

namespace Sys2Proof.Machine

/-! ## BAY HOLD (R111) -/

/-- The state in which a waiting bay has withdrawn its request and is suspended, before the comparison of R98. -/
def State.heldWaiting (s : State) (n : BayId) : State :=
  (s.withdrawRequest n).updBay n (fun b => b.suspend .awaitIntensifier)

section

variable {s : State} {n : BayId}

theorem suspend_eq (b : Bay) (origin : SuspendedFrom) : b.suspend origin = b.held origin := rfl

theorem heldWaiting_bay (s : State) (n : BayId) :
    (s.heldWaiting n).bay n = { (s.bay n).held .awaitIntensifier with requested := false } := by
  rw [State.heldWaiting, updBay_eq, bay_setBay, if_pos rfl, withdrawRequest_bay, if_pos rfl]
  rfl

theorem heldWaiting_requests (s : State) (n : BayId) :
    (s.heldWaiting n).requests = s.requests.filter (fun r => decide (r.bay ≠ n)) := rfl

theorem frame_heldWaiting (s : State) (n : BayId) : Frame [.bay n, .requests] s (s.heldWaiting n) :=
  ((frame_withdrawRequest s n).mono (by simp)).trans ((frame_setBay _ n _).mono (by simp))

theorem heldWaiting_short (s : State) (n : BayId) : (s.heldWaiting n).short n = s.short n :=
  short_congr (by rw [heldWaiting_bay]; rfl) (by rw [heldWaiting_bay]; rfl)
    (fun _ => (frame_heldWaiting s n).entry_eq (by simp)) ((frame_heldWaiting s n).work_eq (by simp))

theorem heldWaiting_state (s : State) (n : BayId) : ((s.heldWaiting n).bay n).state = .suspended := by
  rw [heldWaiting_bay]
  rfl

theorem heldWaiting_pressurised (s : State) (n : BayId) :
    ((s.heldWaiting n).bay n).pressurised = (s.bay n).pressurised := by
  rw [heldWaiting_bay]
  rfl

theorem holdBay_await (h : (s.bay n).state = .awaitIntensifier) :
    s.holdBay n = (((s.heldWaiting n).testShortfall n).drainTest, .accepted) := by
  unfold State.holdBay
  rw [h]
  rfl

theorem holdBay_await_kept (h : (s.bay n).state = .awaitIntensifier)
    (hkept : s.short n = false ∨ (s.bay n).pressurised = true) :
    s.holdBay n = ((s.heldWaiting n).drainTest, .accepted) := by
  rw [holdBay_await h, testShortfall_suspended_kept (heldWaiting_state s n)]
  rwa [heldWaiting_short, heldWaiting_pressurised]

theorem holdBay_await_short (h : (s.bay n).state = .awaitIntensifier) (hshort : s.short n = true)
    (hpress : (s.bay n).pressurised = false) (hrun : s.runState ≠ .eStopped) :
    s.holdBay n = (((s.heldWaiting n).enterZeroing n (some .suspend)).drainTest, .accepted) := by
  have hkept : (s.heldWaiting n).runState = s.runState := (frame_heldWaiting s n).runState_eq (by simp)
  rw [holdBay_await h, testShortfall_suspended_short (heldWaiting_state s n) ((heldWaiting_short s n).trans hshort)
    ((heldWaiting_pressurised s n).trans hpress), zeroingStep_running (hkept ▸ hrun)]

theorem holdBay_pressurising (h : (s.bay n).state = .pressurising) :
    s.holdBay n = ((s.releaseCoupled n).setBay n { (s.bay n).held .pressurising with coupled := none }, .accepted) := by
  have hbay : (s.releaseCoupled n).bay n = { s.bay n with coupled := none } := by rw [releaseCoupled_bay, if_pos rfl]
  unfold State.holdBay
  rw [h]
  dsimp only
  rw [updBay_eq, hbay]
  rfl

theorem holdBay_holding (h : (s.bay n).state = .holding) :
    s.holdBay n = (s.setBay n ((s.bay n).held .holding), .accepted) := by
  unfold State.holdBay
  rw [h]
  rfl

theorem holdBay_other (hawait : (s.bay n).state ≠ .awaitIntensifier) (hpress : (s.bay n).state ≠ .pressurising)
    (hhold : (s.bay n).state ≠ .holding) : s.holdBay n = (s, .wrongState) := by
  unfold State.holdBay
  split
  · exact absurd ‹_› hawait
  · exact absurd ‹_› hpress
  · exact absurd ‹_› hhold
  · rfl

end

/-! ## BAY RESUME (R112) -/

section

variable {s : State} {n : BayId}

theorem resumeBay_suspended (h : (s.bay n).state = .suspended) :
    s.resumeBay n = ((s.enterAwait n).drainTest, .accepted) := by
  unfold State.resumeBay
  rw [h]

theorem resumeBay_other (h : (s.bay n).state ≠ .suspended) : s.resumeBay n = (s, .wrongState) := by
  unfold State.resumeBay
  split
  · exact absurd ‹_› h
  · rfl

end

theorem drainTest_requests (s : State) : s.drainTest.requests = s.requests := (frame_drainTest s).requests_eq (by simp)

theorem drainTest_releases (s : State) : s.drainTest.releases = s.releases := (frame_drainTest s).releases_eq (by simp)

theorem drainTest_intensifier (s : State) (i : IntensifierId) : s.drainTest.intensifier i = s.intensifier i := by
  unfold State.drainTest
  split <;> rfl

/-- A bay command that ends with the drain test (R177). -/
theorem heard_bay_drained {c : Instr} {code : Byte} {arg : BitVec 24} {f : State → BayId → State × ResultCode} {n : BayId}
    {s v : State} {result : ResultCode} {L : List Part} (hc : commandOf c = some (code, arg))
    (ho : ownerOf c = some fun t => t.forBayArg arg f) (hh : Heard code arg s) (harg : argByte arg = n.val + 1)
    (hu : f (s.withCommand (commandWord code arg)) n = (v.drainTest, result))
    (hf : Frame L (s.withCommand (commandWord code arg)) v) (hm : .mailbox ∉ L) (hr : .runState ∉ L) :
    ∃ t, exec c s = .next t ∧ Answered code arg result t ∧ DrainTested s t ∧ Frame (.mailbox :: .runState :: L) s t ∧
      (t.bay n).bare = (v.bay n).bare ∧ t.requests = v.requests ∧ t.releases = v.releases ∧
      ∀ i, (t.intensifier i).bare = (v.intensifier i).bare := by
  have hframe' : Frame (.runState :: L) (s.withCommand (commandWord code arg)) v.drainTest :=
    (hf.mono (by simp)).trans ((frame_drainTest v).mono (by simp))
  have hrun : v.runState = s.runState := hf.runState_eq hr
  obtain ⟨t, hx, hanswered, hframe, hends⟩ := heard_bay hc ho hh harg hu hframe' (by simp [hm])
  exact ⟨t, hx, hanswered, hends.drainTested hrun, hframe, hends.bay_of_eq (drainTest_bay v n),
    hends.requests.trans (drainTest_requests v), hends.releases.trans (drainTest_releases v),
    fun i => (hends.intensifier i).trans (congrArg Intensifier.bare (drainTest_intensifier v i))⟩

/-! ## The cases of BAY HOLD -/

section

variable {arg : BitVec 24} {n : BayId} {s : State}

theorem hold_holding (hh : Heard 0x20#8 arg s) (harg : argByte arg = n.val + 1) (h : (s.bay n).state = .holding) :
    Gives (.bayHold arg) s fun t => Answered 0x20#8 arg .accepted t ∧
      (t.bay n).bare = ((s.bay n).held .holding).bare ∧ Frame [.mailbox, .bay n] s t := by
  obtain ⟨t, hx, hanswered, hframe, hends⟩ := heard_bay (c := .bayHold arg) rfl rfl hh harg
    (holdBay_holding (s := s.withCommand (commandWord 0x20#8 arg)) h) (frame_setBay _ n _) (by simp)
  exact ⟨t, hx, hanswered, hends.bay_of_eq (bay_setBay_self _ n _), hframe⟩

theorem frame_hold_pressurising (s : State) (n : BayId) : Frame [.bay n, .releases] s
    ((s.releaseCoupled n).setBay n { (s.bay n).held .pressurising with coupled := none }) :=
  ((frame_releaseCoupled s n).mono (by simp)).trans ((frame_setBay _ n _).mono (by simp))

theorem hold_pressurising (hh : Heard 0x20#8 arg s) (harg : argByte arg = n.val + 1)
    (h : (s.bay n).state = .pressurising) :
    Gives (.bayHold arg) s fun t => Answered 0x20#8 arg .accepted t ∧
      (t.bay n).bare = { (s.bay n).held .pressurising with coupled := none }.bare ∧
      t.releases = s.releases ++ ((s.bay n).coupled.map (fun i => Release.mk n i)).toList ∧
      Frame [.mailbox, .bay n, .releases] s t := by
  obtain ⟨t, hx, hanswered, hframe, hends⟩ := heard_bay (c := .bayHold arg) rfl rfl hh harg
    (holdBay_pressurising (s := s.withCommand (commandWord 0x20#8 arg)) h) (frame_hold_pressurising _ n) (by simp)
  exact ⟨t, hx, hanswered, hends.bay_of_eq (bay_setBay_self _ n _),
    hends.releases.trans (releaseCoupled_releases (s.withCommand (commandWord 0x20#8 arg)) n), hframe⟩

theorem hold_await_kept (hh : Heard 0x20#8 arg s) (harg : argByte arg = n.val + 1)
    (h : (s.bay n).state = .awaitIntensifier) (hkept : s.short n = false ∨ (s.bay n).pressurised = true) :
    Gives (.bayHold arg) s fun t => Answered 0x20#8 arg .accepted t ∧
      (t.bay n).bare = { (s.bay n).held .awaitIntensifier with requested := false }.bare ∧
      t.requests = s.requests.filter (fun r => decide (r.bay ≠ n)) ∧ DrainTested s t ∧
      Frame [.mailbox, .bay n, .requests, .runState] s t := by
  obtain ⟨t, hx, hanswered, hdrain, hframe, hbay, hreq, -, -⟩ := heard_bay_drained (c := .bayHold arg) rfl rfl hh harg
    (holdBay_await_kept (s := s.withCommand (commandWord 0x20#8 arg)) h hkept) (frame_heldWaiting _ n) (by simp) (by simp)
  exact ⟨t, hx, hanswered, hbay.trans (congrArg Bay.bare (heldWaiting_bay _ n)), hreq.trans (heldWaiting_requests _ n),
    hdrain, hframe.mono (by simp)⟩

/-- The state in which a suspended bay has found too little validity and has entered ZEROING. -/
def State.heldShort (s : State) (n : BayId) : State := (s.heldWaiting n).enterZeroing n (some .suspend)

theorem frame_heldShort (s : State) (n : BayId) : Frame [.bay n, .requests] s (s.heldShort n) :=
  (frame_heldWaiting s n).trans ((frame_enterZeroing _ n _).mono (by simp))

theorem heldShort_bay (hrun : s.runState ≠ .eStopped) : (s.heldShort n).bay n =
    { (s.bay n).checking (some .suspend) (s.after 40) with requested := false } := by
  have hkept : (s.heldWaiting n).runState = s.runState := (frame_heldWaiting s n).runState_eq (by simp)
  rw [State.heldShort, enterZeroing_bay n _ (stopped_eq_false (hkept ▸ hrun)), heldWaiting_bay]
  rfl

theorem heldShort_requests (s : State) (n : BayId) :
    (s.heldShort n).requests = s.requests.filter (fun r => decide (r.bay ≠ n)) := by
  rw [State.heldShort, (frame_enterZeroing _ n _).requests_eq (by simp), heldWaiting_requests]

theorem hold_await_short (hh : Heard 0x20#8 arg s) (harg : argByte arg = n.val + 1)
    (h : (s.bay n).state = .awaitIntensifier) (hshort : s.short n = true) (hpress : (s.bay n).pressurised = false)
    (hrun : s.runState ≠ .eStopped) :
    Gives (.bayHold arg) s fun t => Answered 0x20#8 arg .accepted t ∧
      (t.bay n).bare = { (s.bay n).checking (some .suspend) (s.after 40) with requested := false }.bare ∧
      t.requests = s.requests.filter (fun r => decide (r.bay ≠ n)) ∧ DrainTested s t ∧
      Frame [.mailbox, .bay n, .requests, .runState] s t := by
  obtain ⟨t, hx, hanswered, hdrain, hframe, hbay, hreq, -, -⟩ := heard_bay_drained (c := .bayHold arg) rfl rfl hh harg
    (holdBay_await_short (s := s.withCommand (commandWord 0x20#8 arg)) h hshort hpress hrun) (frame_heldShort _ n)
    (by simp) (by simp)
  exact ⟨t, hx, hanswered, hbay.trans (congrArg Bay.bare (heldShort_bay (s := s.withCommand _) hrun)),
    hreq.trans (heldShort_requests _ n), hdrain, hframe.mono (by simp)⟩

end

/-! ## The cases of BAY RESUME -/

section

variable {arg : BitVec 24} {n : BayId} {s : State}

/-- BAY RESUME of a suspended bay: what it answers and changes, from the state after AWAIT INTENSIFIER entry. -/
theorem resume_suspended {u : State} (hh : Heard 0x21#8 arg s) (harg : argByte arg = n.val + 1)
    (h : (s.bay n).state = .suspended) (hu : (s.withCommand (commandWord 0x21#8 arg)).enterAwait n = u) :
    ∃ t, exec (.bayResume arg) s = .next t ∧ Answered 0x21#8 arg .accepted t ∧ DrainTested s t ∧
      Frame [.mailbox, .bay n, .requests, .releases, .intensifier .one, .intensifier .two, .runState] s t ∧
      (t.bay n).bare = (u.bay n).bare ∧ t.requests = u.requests ∧ t.releases = u.releases ∧
      ∀ i, (t.intensifier i).bare = (u.intensifier i).bare := by
  subst hu
  obtain ⟨t, hx, hanswered, hdrain, hframe, hvalues⟩ := heard_bay_drained (c := .bayResume arg) rfl rfl hh harg
    (resumeBay_suspended (s := s.withCommand (commandWord 0x21#8 arg)) h) (frame_enterAwait _ n)
    (by simp [requestParts]) (by simp [requestParts])
  exact ⟨t, hx, hanswered, hdrain, hframe.mono (by simp [requestParts]), hvalues⟩

theorem resume_enough (hh : Heard 0x21#8 arg s) (harg : argByte arg = n.val + 1) (h : (s.bay n).state = .suspended)
    (henough : s.short n = false) : Gives (.bayResume arg) s fun t =>
      Answered 0x21#8 arg .accepted t ∧ (t.bay n).bare = (s.bay n).waiting.bare ∧ (∃ r ∈ t.requests, r.bay = n) ∧
        (Unqueued n s → t.requests = s.requests ++ [⟨n, s.testPressure n⟩] ∧ Same .releases s t ∧
          Same (.intensifier .one) s t ∧ Same (.intensifier .two) s t) ∧
        DrainTested s t ∧
        Frame [.mailbox, .bay n, .requests, .releases, .intensifier .one, .intensifier .two, .runState] s t := by
  obtain ⟨t, hx, hanswered, hdrain, hframe, hbay, hreq, hrel, hint⟩ := resume_suspended hh harg h
    (enterAwait_enough (s := s.withCommand (commandWord 0x21#8 arg)) henough)
  refine ⟨t, hx, hanswered, hbay.trans (congrArg Bay.bare (awaited_bay _ n)), hreq ▸ mem_awaited _ n,
    fun hunqueued => ?_, hdrain, hframe⟩
  obtain ⟨hreq', hrel', hint'⟩ := awaited_unqueued (s := s.withCommand (commandWord 0x21#8 arg)) hunqueued
  have hsame (i : IntensifierId) : Same (.intensifier i) s t := (hint i).trans (congrArg Intensifier.bare (hint' i))
  exact ⟨hreq.trans hreq', hrel.trans hrel', hsame .one, hsame .two⟩

theorem resume_pressurised (hh : Heard 0x21#8 arg s) (harg : argByte arg = n.val + 1)
    (h : (s.bay n).state = .suspended) (hshort : s.short n = true) (hpress : (s.bay n).pressurised = true) :
    Gives (.bayResume arg) s fun t =>
      Answered 0x21#8 arg .accepted t ∧ (t.bay n).state = .releasing ∧
        (t.bay n).releaseCause = some (.void .zeroLapsed) ∧ (t.bay n).outputs = ventAndDoor ∧
        (∀ r ∈ t.requests, r.bay ≠ n) ∧ DrainTested s t ∧
        Frame [.mailbox, .bay n, .requests, .releases, .intensifier .one, .intensifier .two, .runState] s t := by
  obtain ⟨t, hx, hanswered, hdrain, hframe, hbay, hreq, -, -⟩ := resume_suspended hh harg h
    (enterAwait_pressurised (s := s.withCommand (commandWord 0x21#8 arg)) hshort hpress)
  rw [enterReleasing_bay] at hbay
  refine ⟨t, hx, hanswered, congrArg Bay.state hbay, congrArg Bay.releaseCause hbay, congrArg Bay.outputs hbay, ?_,
    hdrain, hframe⟩
  rw [hreq, enterReleasing_requests]
  exact withdrawRequest_gone _ n

/-- The bay after an AWAIT INTENSIFIER entry that the comparison of R98 takes on to ZEROING. -/
theorem awaitedShort_bay (hrun : s.runState ≠ .eStopped) :
    (((s.awaited n).withdrawRequest n).enterZeroing n (some .request)).bay n =
      { (s.bay n).waiting with requested := false }.checking (some .request) (s.after 40) := by
  have hframe : Frame (requestParts n) s ((s.awaited n).withdrawRequest n) :=
    (frame_awaited s n).trans ((frame_withdrawRequest _ n).mono (by simp [requestParts]))
  have hkept : ((s.awaited n).withdrawRequest n).runState = s.runState := hframe.runState_eq (by simp [requestParts])
  rw [enterZeroing_bay n _ (stopped_eq_false (hkept ▸ hrun)), withdrawRequest_bay, if_pos rfl, awaited_bay,
    hframe.after_eq (by simp [requestParts])]

theorem resume_short (hh : Heard 0x21#8 arg s) (harg : argByte arg = n.val + 1) (h : (s.bay n).state = .suspended)
    (hshort : s.short n = true) (hpress : (s.bay n).pressurised = false) (hrun : s.runState ≠ .eStopped) :
    Gives (.bayResume arg) s fun t =>
      Answered 0x21#8 arg .accepted t ∧ (t.bay n).state = .zeroing ∧ (t.bay n).resume = some .request ∧
        (t.bay n).outputs = checkOutputs (s.bay n).index.isSome ∧ (t.bay n).stepTimer = some (s.after 40) ∧
        (∀ r ∈ t.requests, r.bay ≠ n) ∧ DrainTested s t ∧
        Frame [.mailbox, .bay n, .requests, .releases, .intensifier .one, .intensifier .two, .runState] s t := by
  obtain ⟨t, hx, hanswered, hdrain, hframe, hbay, hreq, -, -⟩ := resume_suspended hh harg h
    (enterAwait_short (s := s.withCommand (commandWord 0x21#8 arg)) hshort hpress hrun)
  rw [awaitedShort_bay (s := s.withCommand (commandWord 0x21#8 arg)) hrun] at hbay
  refine ⟨t, hx, hanswered, congrArg Bay.state hbay, congrArg Bay.resume hbay, congrArg Bay.outputs hbay,
    congrArg Bay.stepTimer hbay, ?_, hdrain, hframe⟩
  rw [hreq, (frame_enterZeroing _ n _).requests_eq (by simp)]
  exact withdrawRequest_gone _ n

end

/-- Settles O35. -/
theorem holdAndResume : Obligations.HoldAndResume := by
  refine ⟨fun arg n s hh harg => ⟨hold_holding hh harg, hold_pressurising hh harg, hold_await_kept hh harg,
    hold_await_short hh harg, fun hawait hpress hhold => ?_⟩,
    fun arg n s hh harg => ⟨resume_enough hh harg, resume_pressurised hh harg, resume_short hh harg, fun h => ?_⟩⟩
  · exact heard_bay_only (c := .bayHold arg) rfl rfl hh harg
      (holdBay_other (s := s.withCommand (commandWord 0x20#8 arg)) hawait hpress hhold)
  · exact heard_bay_only (c := .bayResume arg) rfl rfl hh harg
      (resumeBay_other (s := s.withCommand (commandWord 0x21#8 arg)) h)

end Sys2Proof.Machine
end

