-- ==== Sys2Proof/Proofs/BayAbort.lean ====
section
/-! BAY ABORT (R113), BAY ZERO (R131) and SERVICE LINE (R116). -/

-- Proofs are checked one after another: the whole text, compiled as one, would otherwise start more threads than fit into the
-- check's memory.
set_option Elab.async false

namespace Sys2Proof.Machine

/-! ## An abort is reported (R20, R113) -/

theorem abortReported_reportAborted (s : State) (i : RosterIndex) : AbortReported i s (s.reportAborted i) := by
  unfold AbortReported State.reportAborted
  split
  · rw [editEntry_eq, entry_setEntry, if_pos rfl]
  · rfl

/-- The bay, the entry and the claims after an abort that is reported at once. -/
theorem abortAndUnload_gives {s : State} {n : BayId} {i : RosterIndex} (h : (s.bay n).index = some i) :
    (s.abortAndUnload n).bay n = (s.bay n).unloading ∧ AbortReported i s (s.abortAndUnload n) ∧
      Claimed (.bay n) s (s.abortAndUnload n) := by
  have hclaims : (s.reportAborted i).claims = s.claims := (frame_reportAborted s i).claims_eq (by simp)
  rw [abortAndUnload_of_index h]
  refine ⟨?_, ?_, ?_⟩
  · rw [unloadToOutfeed_bay, reportAborted_bay]
  · have hreported := abortReported_reportAborted s i
    rw [AbortReported] at hreported ⊢
    rw [unloadToOutfeed_entry, hreported]
  · have hclaimed := claimed_unloadToOutfeed (s.reportAborted i) n
    rw [Claimed, hclaims] at hclaimed
    exact hclaimed

theorem frame_abortAndUnload_of_index {s : State} {n : BayId} {i : RosterIndex} (h : (s.bay n).index = some i) :
    Frame [.bay n, .claims, .entry i] s (s.abortAndUnload n) :=
  (frame_abortAndUnload s n).mono (by simp [heldParts, h])

/-! ## The cases of BAY ABORT (R113) -/

section

variable {s : State} {n : BayId}

theorem abortBay_vents (h : (s.bay n).state = .pressurising ∨ (s.bay n).state = .holding ∨
    ((s.bay n).state = .awaitIntensifier ∨ (s.bay n).state = .suspended) ∧ (s.bay n).pressurised = true) :
    s.abortBay n = (s.enterReleasing n .abort, .accepted) := by
  unfold State.abortBay State.abortAttempt
  rcases h with h | h | ⟨h | h, hpress⟩
  · rw [h]
  · rw [h]
  · simp only [h, hpress, if_true]
  · simp only [h, hpress, if_true]

theorem abortBay_unpressurised (h : (s.bay n).state = .filling ∨
    ((s.bay n).state = .awaitIntensifier ∨ (s.bay n).state = .suspended) ∧ (s.bay n).pressurised = false) :
    s.abortBay n = ((s.withdrawRequest n).abortAndUnload n, .accepted) := by
  unfold State.abortBay State.abortAttempt
  rcases h with h | ⟨h | h, hpress⟩
  · rw [h]
  · simp only [h, hpress]
    rfl
  · simp only [h, hpress]
    rfl

theorem abortBay_releasing (h : (s.bay n).state = .releasing) :
    s.abortBay n = (s.setBay n { s.bay n with aborted := true }, .accepted) := by
  unfold State.abortBay
  rw [h]
  rfl

theorem abortBay_settling (h : (s.bay n).state = .settling) : s.abortBay n =
    ((s.setBay n { s.bay n with aborted := true, stepTimer := none }).abortAndUnload n, .accepted) := by
  unfold State.abortBay
  rw [h]
  rfl

theorem abortBay_unloading (h : (s.bay n).state = .unloading) : s.abortBay n = (s, .tooLate) := by
  unfold State.abortBay
  rw [h]

theorem abortBay_other (h : (s.bay n).state = .starting ∨ (s.bay n).state = .zeroing ∨ (s.bay n).state = .idle ∨
    (s.bay n).state = .loading ∨ (s.bay n).state = .offline ∨ (s.bay n).state = .fault) :
    s.abortBay n = (s, .wrongState) := by
  unfold State.abortBay
  rcases h with h | h | h | h | h | h <;> rw [h]

end

section

variable {arg : BitVec 24} {n : BayId} {s : State}

theorem abort_vents (hh : Heard 0x22#8 arg s) (harg : argByte arg = n.val + 1)
    (h : (s.bay n).state = .pressurising ∨ (s.bay n).state = .holding ∨
      ((s.bay n).state = .awaitIntensifier ∨ (s.bay n).state = .suspended) ∧ (s.bay n).pressurised = true) :
    Gives (.bayAbort arg) s fun t => Answered 0x22#8 arg .accepted t ∧ Releases n .abort s t ∧
      Frame [.mailbox, .bay n, .requests, .releases] s t := by
  obtain ⟨t, hx, hanswered, hframe, hends⟩ := heard_bay (c := .bayAbort arg) rfl rfl hh harg
    (abortBay_vents (s := s.withCommand (commandWord 0x22#8 arg)) h) (frame_enterReleasing _ n _) (by simp)
  have hreleases : Releases n .abort s ((s.withCommand (commandWord 0x22#8 arg)).enterReleasing n .abort) :=
    releases_enterReleasing (s.withCommand (commandWord 0x22#8 arg)) n .abort
  exact ⟨t, hx, hanswered, hends.releasing hreleases, hframe⟩

/-- An abort of an attempt whose request is withdrawn first. -/
theorem withdrawn_abort_gives {i : RosterIndex} (hi : (s.bay n).index = some i) :
    ((s.withdrawRequest n).bay n).index = some i ∧
      Frame [.bay n, .requests, .claims, .entry i] s ((s.withdrawRequest n).abortAndUnload n) ∧
      ((s.withdrawRequest n).abortAndUnload n).bay n = { (s.bay n).unloading with requested := false } ∧
      ((s.withdrawRequest n).abortAndUnload n).requests = s.requests.filter (fun r => decide (r.bay ≠ n)) ∧
      AbortReported i s ((s.withdrawRequest n).abortAndUnload n) ∧
      Claimed (.bay n) s ((s.withdrawRequest n).abortAndUnload n) := by
  have hindex : ((s.withdrawRequest n).bay n).index = some i := by rw [withdrawRequest_bay, if_pos rfl, hi]
  have hframe := frame_abortAndUnload_of_index hindex
  obtain ⟨hbay, hreported, hclaimed⟩ := abortAndUnload_gives hindex
  refine ⟨hindex, ((frame_withdrawRequest s n).mono (by simp)).trans (hframe.mono (by simp)), ?_, ?_, hreported, hclaimed⟩
  · rw [hbay, withdrawRequest_bay, if_pos rfl]
    rfl
  · rw [hframe.requests_eq (by simp), withdrawRequest_requests]

theorem abort_unpressurised (hh : Heard 0x22#8 arg s) (harg : argByte arg = n.val + 1) (i : RosterIndex)
    (hi : (s.bay n).index = some i)
    (h : (s.bay n).state = .filling ∨
      ((s.bay n).state = .awaitIntensifier ∨ (s.bay n).state = .suspended) ∧ (s.bay n).pressurised = false) :
    Gives (.bayAbort arg) s fun t =>
      Answered 0x22#8 arg .accepted t ∧ (t.bay n).bare = { (s.bay n).unloading with requested := false }.bare ∧
        t.requests = s.requests.filter (fun r => decide (r.bay ≠ n)) ∧ AbortReported i s t ∧
        Claimed (.bay n) s t ∧ Frame [.mailbox, .bay n, .requests, .claims, .entry i] s t := by
  obtain ⟨hindex, hf, hbay, hreq, hreported, hclaimed⟩ :=
    withdrawn_abort_gives (s := s.withCommand (commandWord 0x22#8 arg)) hi
  obtain ⟨t, hx, hanswered, hframe, hends⟩ := heard_bay (c := .bayAbort arg) rfl rfl hh harg
    (abortBay_unpressurised (s := s.withCommand (commandWord 0x22#8 arg)) h) hf (by simp)
  exact ⟨t, hx, hanswered, hends.bay_of_eq hbay, hends.requests.trans hreq, hends.abortReported hreported,
    hends.claimed hclaimed, hframe⟩

theorem abort_releasing (hh : Heard 0x22#8 arg s) (harg : argByte arg = n.val + 1)
    (h : (s.bay n).state = .releasing) : Gives (.bayAbort arg) s fun t =>
      Answered 0x22#8 arg .accepted t ∧ (t.bay n).bare = { s.bay n with aborted := true }.bare ∧
        Frame [.mailbox, .bay n] s t := by
  obtain ⟨t, hx, hanswered, hframe, hends⟩ := heard_bay (c := .bayAbort arg) rfl rfl hh harg
    (abortBay_releasing (s := s.withCommand (commandWord 0x22#8 arg)) h) (frame_setBay _ n _) (by simp)
  exact ⟨t, hx, hanswered, hends.bay_of_eq (bay_setBay_self _ n _), hframe⟩

/-- An abort in SETTLING. -/
theorem settling_abort_gives {i : RosterIndex} (hi : (s.bay n).index = some i) :
    Frame [.bay n, .claims, .entry i] s
        ((s.setBay n { s.bay n with aborted := true, stepTimer := none }).abortAndUnload n) ∧
      ((s.setBay n { s.bay n with aborted := true, stepTimer := none }).abortAndUnload n).bay n =
        { (s.bay n).unloading with aborted := true } ∧
      AbortReported i s ((s.setBay n { s.bay n with aborted := true, stepTimer := none }).abortAndUnload n) ∧
      Claimed (.bay n) s ((s.setBay n { s.bay n with aborted := true, stepTimer := none }).abortAndUnload n) := by
  have hindex : ((s.setBay n { s.bay n with aborted := true, stepTimer := none }).bay n).index = some i := by
    rw [bay_setBay_self, hi]
  obtain ⟨hbay, hreported, hclaimed⟩ := abortAndUnload_gives hindex
  refine ⟨((frame_setBay s n _).mono (by simp)).trans (frame_abortAndUnload_of_index hindex), ?_, hreported, hclaimed⟩
  rw [hbay, bay_setBay_self]
  rfl

theorem abort_settling (hh : Heard 0x22#8 arg s) (harg : argByte arg = n.val + 1) (i : RosterIndex)
    (hi : (s.bay n).index = some i) (h : (s.bay n).state = .settling) : Gives (.bayAbort arg) s fun t =>
      Answered 0x22#8 arg .accepted t ∧ (t.bay n).bare = { (s.bay n).unloading with aborted := true }.bare ∧
        AbortReported i s t ∧ Claimed (.bay n) s t ∧ Frame [.mailbox, .bay n, .claims, .entry i] s t := by
  obtain ⟨hf, hbay, hreported, hclaimed⟩ := settling_abort_gives (s := s.withCommand (commandWord 0x22#8 arg)) hi
  obtain ⟨t, hx, hanswered, hframe, hends⟩ := heard_bay (c := .bayAbort arg) rfl rfl hh harg
    (abortBay_settling (s := s.withCommand (commandWord 0x22#8 arg)) h) hf (by simp)
  exact ⟨t, hx, hanswered, hends.bay_of_eq hbay, hends.abortReported hreported, hends.claimed hclaimed, hframe⟩

end

/-- Settles O36. -/
theorem bayAbort : Obligations.BayAbort := by
  refine fun arg n s hh harg => ⟨abort_vents hh harg, abort_unpressurised hh harg, abort_releasing hh harg,
    abort_settling hh harg, fun h => ?_, fun h => ?_⟩
  · exact heard_bay_only (c := .bayAbort arg) rfl rfl hh harg
      (abortBay_unloading (s := s.withCommand (commandWord 0x22#8 arg)) h)
  · exact heard_bay_only (c := .bayAbort arg) rfl rfl hh harg
      (abortBay_other (s := s.withCommand (commandWord 0x22#8 arg)) h)

/-! ## BAY ZERO (R131) -/

section

variable {s : State} {n : BayId}

theorem zeroBay_idle (h : (s.bay n).state = .idle) (hrun : s.runState ≠ .eStopped) :
    s.zeroBay n = (s.enterZeroing n none, .accepted) :=
  if_pos ⟨h, stopped_eq_false hrun⟩

theorem zeroBay_other (h : (s.bay n).state ≠ .idle ∨ s.runState = .eStopped) : s.zeroBay n = (s, .wrongState) :=
  if_neg fun ⟨hidle, hstopped⟩ => h.elim (fun h => h hidle) fun h => by simp [stopped_eq_true h] at hstopped

theorem zero_idle {arg : BitVec 24} (hh : Heard 0x23#8 arg s) (harg : argByte arg = n.val + 1)
    (h : (s.bay n).state = .idle) (hrun : s.runState ≠ .eStopped) : Gives (.bayZero arg) s fun t =>
      Answered 0x23#8 arg .accepted t ∧ Checks n none s t ∧ Frame [.mailbox, .bay n] s t := by
  obtain ⟨t, hx, hanswered, hframe, hends⟩ := heard_bay (c := .bayZero arg) rfl rfl hh harg
    (zeroBay_idle (s := s.withCommand (commandWord 0x23#8 arg)) h hrun) (frame_enterZeroing _ n _) (by simp)
  exact ⟨t, hx, hanswered, hends.bay_of_eq (enterZeroing_bay (s := s.withCommand (commandWord 0x23#8 arg)) n none
    (stopped_eq_false hrun)), hframe⟩

/-! ## SERVICE LINE (R116) -/

theorem levelOf_toNat (level : Bool) : levelOf level.toNat = some level := by
  cases level <;> rfl

theorem levelOf_none {k : Nat} (h : 2 ≤ k) : levelOf k = none := by
  unfold levelOf
  split
  · omega
  · omega
  · rfl

/-- An output set by a line number 1 to 5. -/
theorem setLine_some (o : BayOutputs) {line : Nat} (level : Bool) (h1 : 1 ≤ line) (h5 : line ≤ 5) :
    o.setLine line level = some
      { o with
        fill := if line = 1 then level else o.fill
        isolate := if line = 2 then level else o.isolate
        vent := if line = 3 then level else o.vent
        door := if line = 4 then level else o.door
        buretteDrain := if line = 5 then level else o.buretteDrain } := by
  interval_cases line <;> rfl

theorem setLine_none (o : BayOutputs) {line : Nat} (level : Bool) (h : line = 0 ∨ 6 ≤ line) :
    o.setLine line level = none := by
  unfold BayOutputs.setLine
  split
  case h_6 => rfl
  all_goals omega

theorem serviceLineResult_eq {arg : BitVec 24} {level : Bool} {o : BayOutputs} (hbay : argHigh arg = n.val + 1)
    (hlevel : argByte arg = level.toNat) (hline : (s.bay n).outputs.setLine (argMiddle arg) level = some o) :
    s.serviceLineResult arg = s.setOutputs n o := by
  unfold State.serviceLineResult
  rw [bayOfNumber_val hbay, hlevel, levelOf_toNat]
  dsimp only
  rw [hline]

theorem serviceLineResult_bad {arg : BitVec 24} (h : argHigh arg = 0 ∨ 7 ≤ argHigh arg ∨ argMiddle arg = 0 ∨
    6 ≤ argMiddle arg ∨ 2 ≤ argByte arg) : s.serviceLineResult arg = (s, .badArgument) := by
  unfold State.serviceLineResult
  split
  · rename_i m level hbay hlevel
    have hline : argMiddle arg = 0 ∨ 6 ≤ argMiddle arg := by
      rcases h with h | h | h | h | h
      · simp [bayOfNumber_none (.inl h)] at hbay
      · simp [bayOfNumber_none (.inr h)] at hbay
      · exact .inl h
      · exact .inr h
      · simp [levelOf_none h] at hlevel
    rw [setLine_none _ _ hline]
  · rfl

theorem setOutputs_offline (o : BayOutputs) (h : (s.bay n).state = .offline) (hrun : s.runState ≠ .eStopped) :
    s.setOutputs n o = (s.setBay n { s.bay n with outputs := o }, .accepted) :=
  if_pos ⟨h, stopped_eq_false hrun⟩

theorem setOutputs_other (o : BayOutputs) (h : (s.bay n).state ≠ .offline ∨ s.runState = .eStopped) :
    s.setOutputs n o = (s, .wrongState) :=
  if_neg fun ⟨hoff, hstopped⟩ => h.elim (fun h => h hoff) fun h => by simp [stopped_eq_true h] at hstopped

theorem service_line {arg : BitVec 24} {o : BayOutputs} (hh : Heard 0x25#8 arg s)
    (hu : ∀ t : State, (t.bay n).outputs = (s.bay n).outputs → t.serviceLineResult arg = t.setOutputs n o)
    (h : (s.bay n).state = .offline) (hrun : s.runState ≠ .eStopped) : Gives (.serviceLine arg) s fun t =>
      Answered 0x25#8 arg .accepted t ∧ (t.bay n).bare = { s.bay n with outputs := o }.bare ∧
        Frame [.mailbox, .bay n] s t := by
  obtain ⟨t, hx, hanswered, hframe, hends⟩ := heard_ends (c := .serviceLine arg) rfl rfl hh
    (Eq.trans (hu (s.withCommand (commandWord 0x25#8 arg)) rfl)
      (setOutputs_offline (s := s.withCommand (commandWord 0x25#8 arg)) o h hrun)) (frame_setBay _ n _) (by simp)
  exact ⟨t, hx, hanswered, hends.bay_of_eq (bay_setBay_self _ n _), hframe⟩

end

/-- Settles O37. -/
theorem zeroAndServiceLine : Obligations.ZeroAndServiceLine := by
  refine ⟨fun arg n s hh harg => ⟨zero_idle hh harg, fun h => ?_⟩,
    fun arg n line level s hh hbay hline h1 h5 hlevel => ?_, fun arg s hh h => ?_, fun arg s h => ⟨fun hh => ?_,
      fun hh => ?_, fun hh => ?_, fun hh => ?_⟩⟩
  · exact heard_bay_only (c := .bayZero arg) rfl rfl hh harg
      (zeroBay_other (s := s.withCommand (commandWord 0x23#8 arg)) h)
  · have hset := setLine_some (s.bay n).outputs level h1 h5
    have hu (t : State) (ht : (t.bay n).outputs = (s.bay n).outputs) :=
      serviceLineResult_eq (s := t) hbay hlevel (by rw [ht, hline]; exact hset)
    refine ⟨fun h hrun => ?_, fun h => ?_⟩
    · obtain ⟨t, hx, hanswered, hbare, hframe⟩ := service_line hh hu h hrun
      have hout := congr(Bay.outputs $hbare)
      exact ⟨t, hx, hanswered, hbare.trans congr(Bay.bare { s.bay n with outputs := $hout.symm }),
        congr(BayOutputs.fill $hout), congr(BayOutputs.isolate $hout), congr(BayOutputs.vent $hout),
        congr(BayOutputs.door $hout), congr(BayOutputs.buretteDrain $hout), congr(BayOutputs.couple1 $hout),
        congr(BayOutputs.couple2 $hout), hframe⟩
    · exact heard_only (c := .serviceLine arg) rfl rfl hh
        (Eq.trans (hu (s.withCommand (commandWord 0x25#8 arg)) rfl)
          (setOutputs_other (s := s.withCommand (commandWord 0x25#8 arg)) _ h))
  · exact heard_only (c := .serviceLine arg) rfl rfl hh (serviceLineResult_bad h)
  · exact heard_only (c := .bayHold arg) rfl rfl hh (forBayArg_none _ h _)
  · exact heard_only (c := .bayResume arg) rfl rfl hh (forBayArg_none _ h _)
  · exact heard_only (c := .bayAbort arg) rfl rfl hh (forBayArg_none _ h _)
  · exact heard_only (c := .bayZero arg) rfl rfl hh (forBayArg_none _ h _)

end Sys2Proof.Machine
end

