-- ==== Sys2Proof/Proofs/ServiceRules.lean ====
section
/-! TAKE OUT OF SERVICE (R115, R141, R158): which block a source names, and what the block answers. -/

-- Proofs are checked one after another: the whole text, compiled as one, would otherwise start more threads than fit into the
-- check's memory.
set_option Elab.async false

namespace Sys2Proof.Machine

/-! ## The block a source names (R167) -/

theorem bayOfSource_val {k : Nat} {n : BayId} (h : k = n.val + 5) : bayOfSource k = some n := by
  have hlt := n.isLt
  rw [h, bayOfSource, dif_pos ⟨by omega, by omega⟩]
  rfl

theorem bayOfSource_none {k : Nat} (h : k ≤ 4 ∨ 11 ≤ k) : bayOfSource k = none :=
  dif_neg fun ⟨h5, h10⟩ => by omega

theorem intensifierOfSource_none {k : Nat} (h : k ≤ 10 ∨ 13 ≤ k) : intensifierOfSource k = none := by
  unfold intensifierOfSource
  split
  case h_3 => rfl
  all_goals omega

theorem stationOfSource_none {k : Nat} (h : k ≤ 12 ∨ 15 ≤ k) : stationOfSource k = none := by
  unfold stationOfSource
  split
  case h_3 => rfl
  all_goals omega

theorem readerOfSource_none {k : Nat} (h : k = 0 ∨ 3 ≤ k) : readerOfSource k = none := by
  unfold readerOfSource
  split
  case h_3 => rfl
  all_goals omega

section

variable (s : State)

theorem takeOutResult_bay {k : Nat} {n : BayId} (h : k = n.val + 5) : s.takeOutResult k = s.takeOutBay n := by
  unfold State.takeOutResult
  rw [bayOfSource_val h]

theorem takeOutResult_intensifier {k : Nat} {i : IntensifierId} (h : k = intensifierSource i) :
    s.takeOutResult k = s.takeOutIntensifier i := by
  subst h
  cases i <;> rfl

theorem takeOutResult_station {k : Nat} {st : StationId} (h : k = stationSource st) :
    s.takeOutResult k = s.takeOutStation st := by
  subst h
  cases st <;> rfl

theorem takeOutResult_none {k : Nat} (h : k ≤ 4 ∨ 15 ≤ k) : s.takeOutResult k = (s, .badArgument) := by
  unfold State.takeOutResult
  rw [bayOfSource_none (by omega), intensifierOfSource_none (by omega), stationOfSource_none (by omega)]

theorem returnResult_bay {k : Nat} {n : BayId} (h : k = n.val + 5) : s.returnResult k = s.returnBay n := by
  unfold State.returnResult
  rw [bayOfSource_val h]

theorem returnResult_intensifier {k : Nat} {i : IntensifierId} (h : k = intensifierSource i) :
    s.returnResult k = s.returnIntensifier i := by
  subst h
  cases i <;> rfl

theorem returnResult_station {k : Nat} {st : StationId} (h : k = stationSource st) :
    s.returnResult k = s.returnStation st := by
  subst h
  cases st <;> rfl

theorem returnResult_outfeed {k : Nat} (h : k = 15) : s.returnResult k = s.returnOutfeed := by
  subst h
  rfl

theorem returnResult_none {k : Nat} (h : k = 0 ∨ k = 3 ∨ k = 4 ∨ 16 ≤ k) : s.returnResult k = (s, .badArgument) := by
  unfold State.returnResult State.returnFlow
  rw [bayOfSource_none (by omega), intensifierOfSource_none (by omega), stationOfSource_none (by omega),
    readerOfSource_none (by omega)]
  exact if_neg (by simp only [outfeedSource]; omega)

end

/-! ## A command that writes one unit -/

section

variable {c : Instr} {code : Byte} {arg : BitVec 24} {owner : State → State × ResultCode} {s : State}
  {result : ResultCode}

theorem heard_setBay {n : BayId} {b : Bay} (hc : commandOf c = some (code, arg)) (ho : ownerOf c = some owner)
    (hh : Heard code arg s)
    (hu : owner (s.withCommand (commandWord code arg)) = ((s.withCommand (commandWord code arg)).setBay n b, result)) :
    Gives c s fun t => Answered code arg result t ∧ (t.bay n).bare = b.bare ∧ Frame [.mailbox, .bay n] s t := by
  obtain ⟨t, hx, hanswered, hframe, hends⟩ := heard_ends hc ho hh hu (frame_setBay _ n b) (by simp)
  exact ⟨t, hx, hanswered, hends.bay_of_eq (bay_setBay_self _ n b), hframe⟩

theorem heard_setIntensifier {i : IntensifierId} {x : Intensifier} (hc : commandOf c = some (code, arg))
    (ho : ownerOf c = some owner) (hh : Heard code arg s)
    (hu : owner (s.withCommand (commandWord code arg)) =
      ((s.withCommand (commandWord code arg)).setIntensifier i x, result)) :
    Gives c s fun t =>
      Answered code arg result t ∧ (t.intensifier i).bare = x.bare ∧ Frame [.mailbox, .intensifier i] s t := by
  obtain ⟨t, hx, hanswered, hframe, hends⟩ := heard_ends hc ho hh hu (frame_setIntensifier _ i x) (by simp)
  refine ⟨t, hx, hanswered, ?_, hframe⟩
  rw [hends.intensifier, intensifier_setIntensifier, if_pos rfl]

theorem heard_setStation {st : StationId} {x : Station} (hc : commandOf c = some (code, arg))
    (ho : ownerOf c = some owner) (hh : Heard code arg s)
    (hu : owner (s.withCommand (commandWord code arg)) =
      ((s.withCommand (commandWord code arg)).setStation st x, result)) :
    Gives c s fun t =>
      Answered code arg result t ∧ (t.station st).bare = x.bare ∧ Frame [.mailbox, .station st] s t := by
  obtain ⟨t, hx, hanswered, hframe, hends⟩ := heard_ends hc ho hh hu (frame_setStation _ st x) (by simp)
  refine ⟨t, hx, hanswered, ?_, hframe⟩
  rw [hends.station, station_setStation, if_pos rfl]

end

/-! ## TAKE OUT OF SERVICE of a bay (R115) -/

section

variable {s : State} {n : BayId}

theorem takeOutBay_taken (h : (s.bay n).state = .starting ∨ (s.bay n).state = .idle ∨
    ((s.bay n).state = .zeroing ∨ (s.bay n).state = .fault) ∧ (s.bay n).index = none) :
    s.takeOutBay n = (s.setBay n (s.bay n).wentOffline, .accepted) := by
  unfold State.takeOutBay
  rcases h with h | h | ⟨h | h, hindex⟩
  · rw [h]
    rfl
  · rw [h]
    rfl
  · rw [h]
    exact if_pos hindex
  · rw [h]
    exact if_pos hindex

theorem takeOutBay_other (h : ¬((s.bay n).state = .starting ∨ (s.bay n).state = .idle ∨
    ((s.bay n).state = .zeroing ∨ (s.bay n).state = .fault) ∧ (s.bay n).index = none)) :
    s.takeOutBay n = (s, .wrongState) := by
  unfold State.takeOutBay
  split
  · exact absurd (.inl ‹_›) h
  · exact absurd (.inr (.inl ‹_›)) h
  · exact if_neg fun hindex => h (.inr (.inr ⟨.inl ‹_›, hindex⟩))
  · exact if_neg fun hindex => h (.inr (.inr ⟨.inr ‹_›, hindex⟩))
  · rfl

end

/-! ## TAKE OUT OF SERVICE of an intensifier (R141) -/

section

variable {s : State} {i : IntensifierId}

theorem takeOutIntensifier_taken (h : (s.intensifier i).state = .free ∨ (s.intensifier i).state = .fault) :
    s.takeOutIntensifier i = (s.setIntensifier i { s.intensifier i with state := .offline }, .accepted) := by
  unfold State.takeOutIntensifier
  rcases h with h | h <;> simp only [h]

theorem takeOutIntensifier_pending (h : (s.intensifier i).state = .retuning ∨ (s.intensifier i).state = .driving)
    (hpending : (s.intensifier i).pendingOffline = false) : s.takeOutIntensifier i =
      (s.setIntensifier i { s.intensifier i with pendingOffline := true }, .accepted) := by
  unfold State.takeOutIntensifier
  rcases h with h | h <;> simp [h, hpending]

theorem takeOutIntensifier_duplicate (h : (s.intensifier i).state = .retuning ∨ (s.intensifier i).state = .driving)
    (hpending : (s.intensifier i).pendingOffline = true) : s.takeOutIntensifier i = (s, .duplicate) := by
  unfold State.takeOutIntensifier
  rcases h with h | h <;> simp [h, hpending]

theorem takeOutIntensifier_offline (h : (s.intensifier i).state = .offline) :
    s.takeOutIntensifier i = (s, .wrongState) := by
  unfold State.takeOutIntensifier
  simp only [h]

end

/-! ## TAKE OUT OF SERVICE of a station (R158) -/

section

variable {s : State} {st : StationId}

theorem takeOutStation_idle (h : (s.station st).state = .idle) :
    s.takeOutStation st = (s.setStation st { s.station st with state := .offline }, .accepted) := by
  unfold State.takeOutStation
  rw [h]
  rfl

theorem takeOutStation_fault (h : (s.station st).state = .fault)
    (hnest : (s.station st).nest = .empty ∨ (s.station st).nest = .loaded) : s.takeOutStation st =
      (s.setStation st
        { s.station st with
          state := .offline
          faultCause := none
          reoffer := if (s.station st).nest = Nest.loaded then 0 else (s.station st).reoffer }, .accepted) := by
  unfold State.takeOutStation
  rcases hnest with hnest | hnest <;> rw [h, hnest] <;> rfl

theorem takeOutStation_other (h : ¬((s.station st).state = .idle ∨
    (s.station st).state = .fault ∧ ((s.station st).nest = .empty ∨ (s.station st).nest = .loaded))) :
    s.takeOutStation st = (s, .wrongState) := by
  unfold State.takeOutStation
  split
  · exact absurd (.inl ‹_›) h
  · exact absurd (.inr ⟨‹_›, .inl ‹_›⟩) h
  · exact absurd (.inr ⟨‹_›, .inr ‹_›⟩) h
  · rfl

end

/-- Settles O38. -/
theorem takeOutOfService : Obligations.TakeOutOfService := by
  refine ⟨fun arg n s hh harg => ⟨fun h => ?_, fun h => ?_⟩,
    fun arg i s hh harg => ⟨fun h => ?_, fun h hpending => ?_, fun h hpending => ?_, fun h => ?_⟩,
    fun arg st s hh harg => ⟨fun h => ?_, fun h hnest => ?_, fun h => ?_⟩, fun arg s hh h => ?_⟩
  · exact heard_setBay (c := .takeOutOfService arg) rfl rfl hh
      ((takeOutResult_bay _ harg).trans (takeOutBay_taken (s := s.withCommand (commandWord 0x24#8 arg)) h))
  · exact heard_only (c := .takeOutOfService arg) rfl rfl hh
      ((takeOutResult_bay _ harg).trans (takeOutBay_other (s := s.withCommand (commandWord 0x24#8 arg)) h))
  · exact heard_setIntensifier (c := .takeOutOfService arg) rfl rfl hh
      ((takeOutResult_intensifier _ harg).trans (takeOutIntensifier_taken (s := s.withCommand (commandWord 0x24#8 arg)) h))
  · exact heard_setIntensifier (c := .takeOutOfService arg) rfl rfl hh
      ((takeOutResult_intensifier _ harg).trans (takeOutIntensifier_pending (s := s.withCommand (commandWord 0x24#8 arg)) h hpending))
  · exact heard_only (c := .takeOutOfService arg) rfl rfl hh
      ((takeOutResult_intensifier _ harg).trans (takeOutIntensifier_duplicate (s := s.withCommand (commandWord 0x24#8 arg)) h hpending))
  · exact heard_only (c := .takeOutOfService arg) rfl rfl hh
      ((takeOutResult_intensifier _ harg).trans (takeOutIntensifier_offline (s := s.withCommand (commandWord 0x24#8 arg)) h))
  · exact heard_setStation (c := .takeOutOfService arg) rfl rfl hh
      ((takeOutResult_station _ harg).trans (takeOutStation_idle (s := s.withCommand (commandWord 0x24#8 arg)) h))
  · exact heard_setStation (c := .takeOutOfService arg) rfl rfl hh
      ((takeOutResult_station _ harg).trans (takeOutStation_fault (s := s.withCommand (commandWord 0x24#8 arg)) h hnest))
  · exact heard_only (c := .takeOutOfService arg) rfl rfl hh
      ((takeOutResult_station _ harg).trans (takeOutStation_other (s := s.withCommand (commandWord 0x24#8 arg)) h))
  · exact heard_only (c := .takeOutOfService arg) rfl rfl hh (takeOutResult_none _ h)

end Sys2Proof.Machine
end

