-- ==== Sys2Proof/Proofs/ReturnRules.lean ====
section
/-! RETURN of the bays, the intensifiers, the stations and the outfeed (R85, R117, R130, R142, R159). -/

-- Proofs are checked one after another: the whole text, compiled as one, would otherwise start more threads than fit into the
-- check's memory.
set_option Elab.async false

namespace Sys2Proof.Machine

/-! ## RETURN of a bay (R117, R130) -/

theorem returned_other {b : Bay} (h : b.state ≠ .fault ∨ b.faultCause ≠ some .gaugeDrift) :
    b.returned = { b with checksOwed := max 1 b.checksOwed, failures := 0 } := by
  unfold Bay.returned
  split
  · rename_i hstate hcause
    exact absurd hcause (h.resolve_left fun hne => hne hstate)
  · rfl

theorem returned_drift {b : Bay} (hstate : b.state = .fault) (h : b.faultCause = some .gaugeDrift) :
    b.returned = { b with zeroReference := none, checksOwed := 2, failures := 0 } := by
  unfold Bay.returned
  rw [hstate, h]

/-- A bay in FAULT at its RETURN. -/
theorem returned_fault {b : Bay} (hstate : b.state = .fault) : b.returned =
    { b with
      zeroReference := if b.faultCause = some AlertCode.gaugeDrift then none else b.zeroReference
      checksOwed := if b.faultCause = some AlertCode.gaugeDrift then 2 else max 1 b.checksOwed
      failures := 0 } := by
  by_cases h : b.faultCause = some .gaugeDrift
  · rw [returned_drift hstate h, if_pos h, if_pos h]
  · rw [returned_other (.inr h), if_neg h, if_neg h]

/-- A zero check begun from a bay that has been written first. -/
theorem enterZeroing_setBay_bay {s : State} (n : BayId) (b : Bay) (rp : Option ResumePoint)
    (hrun : s.runState ≠ .eStopped) : ((s.setBay n b).enterZeroing n rp).bay n = b.checking rp (s.after 40) := by
  rw [enterZeroing_bay n rp (stopped_eq_false (s := s.setBay n b) hrun), bay_setBay_self]
  rfl

theorem frame_enterZeroing_setBay (s : State) (n : BayId) (b : Bay) (rp : Option ResumePoint) :
    Frame [.bay n] s ((s.setBay n b).enterZeroing n rp) :=
  (frame_setBay s n b).trans (frame_enterZeroing _ n rp)

section

variable {s : State} {n : BayId}

theorem returnBay_stopped (h : s.runState = .eStopped) : s.returnBay n = (s, .wrongState) :=
  if_pos (stopped_eq_true h)

theorem not_stopped (h : s.runState ≠ .eStopped) : ¬s.stopped = true := by simp [stopped_eq_false h]

theorem returnBay_offline (hrun : s.runState ≠ .eStopped) (h : (s.bay n).state = .offline) :
    s.returnBay n = ((s.setBay n (s.bay n).returned).enterZeroing n none, .accepted) := by
  unfold State.returnBay
  rw [if_neg (not_stopped hrun), h]
  rfl

theorem returnBay_empty (hrun : s.runState ≠ .eStopped) (h : (s.bay n).state = .fault) (hindex : (s.bay n).index = none) :
    s.returnBay n =
      ((s.setBay n { (s.bay n).returned with faultCause := none }).enterZeroing n none, .accepted) := by
  unfold State.returnBay
  rw [if_neg (not_stopped hrun), h, hindex]
  dsimp only
  simp only [updBay_eq, bay_setBay_self, setBay_setBay]

theorem returnBay_holding (hrun : s.runState ≠ .eStopped) (h : (s.bay n).state = .fault)
    (hindex : (s.bay n).index.isSome = true) : s.returnBay n = s.returnHolding n := by
  obtain ⟨i, hi⟩ := Option.isSome_iff_exists.mp hindex
  unfold State.returnBay
  rw [if_neg (not_stopped hrun), h, hi]

theorem returnBay_other (h : (s.bay n).state ≠ .offline) (hfault : (s.bay n).state ≠ .fault) :
    s.returnBay n = (s, .wrongState) := by
  unfold State.returnBay
  split
  · rfl
  · split
    · exact absurd ‹_› h
    · exact absurd ‹_› hfault
    · exact absurd ‹_› hfault
    · rfl

theorem returnHolding_vent (h : (s.bay n).faultCause = some .ventFailure) : s.returnHolding n =
    (s.setBay n { (s.bay n).returned.enter .releasing with stepTimer := some (s.after 60) }, .accepted) := by
  unfold State.returnHolding
  dsimp only
  rw [h]
  dsimp only
  simp only [updBay_eq, bay_setBay_self, setBay_setBay]
  rfl

theorem returnHolding_drift (h : (s.bay n).faultCause = some .gaugeDrift) : s.returnHolding n =
    ((s.setBay n (s.bay n).returned).enterZeroing n (s.bay n).resume, .accepted) := by
  unfold State.returnHolding
  dsimp only
  rw [h]
  rfl

end

/-- RETURN of a bay that takes it into a zero check from the bay `b`. -/
theorem return_checks {arg : BitVec 24} {n : BayId} {s : State} {b : Bay} {rp : Option ResumePoint}
    (hh : Heard 0x30#8 arg s) (harg : argByte arg = n.val + 5) (hrun : s.runState ≠ .eStopped)
    (hu : (s.withCommand (commandWord 0x30#8 arg)).returnBay n =
      (((s.withCommand (commandWord 0x30#8 arg)).setBay n b).enterZeroing n rp, .accepted)) :
    Gives (.returnToService arg) s fun t => Answered 0x30#8 arg .accepted t ∧
      (t.bay n).bare = (b.checking rp (s.after 40)).bare ∧ Frame [.mailbox, .bay n] s t := by
  obtain ⟨t, hx, hanswered, hframe, hends⟩ := heard_ends (c := .returnToService arg) rfl rfl hh
    ((returnResult_bay _ harg).trans hu) (frame_enterZeroing_setBay _ n b rp) (by simp)
  exact ⟨t, hx, hanswered,
    hends.bay_of_eq (enterZeroing_setBay_bay (s := s.withCommand (commandWord 0x30#8 arg)) n b rp hrun), hframe⟩

section

variable {arg : BitVec 24} {n : BayId} {s : State}

theorem return_offline (hh : Heard 0x30#8 arg s) (harg : argByte arg = n.val + 5) (hrun : s.runState ≠ .eStopped)
    (h : (s.bay n).state = .offline) : Gives (.returnToService arg) s fun t => Answered 0x30#8 arg .accepted t ∧
      (t.bay n).bare = { (s.bay n).checking none (s.after 40) with checksOwed := max 1 (s.bay n).checksOwed }.bare ∧
      Frame [.mailbox, .bay n] s t := by
  obtain ⟨t, hx, hanswered, hbay, hframe⟩ := return_checks hh harg hrun
    (returnBay_offline (s := s.withCommand (commandWord 0x30#8 arg)) hrun h)
  have hreturned : (s.bay n).returned = _ := returned_other (.inl (by rw [h]; decide))
  refine ⟨t, hx, hanswered, hbay.trans ?_, hframe⟩
  rw [show ((s.withCommand (commandWord 0x30#8 arg)).bay n).returned = (s.bay n).returned from rfl, hreturned]
  rfl

theorem return_empty (hh : Heard 0x30#8 arg s) (harg : argByte arg = n.val + 5) (hrun : s.runState ≠ .eStopped)
    (h : (s.bay n).state = .fault) (hindex : (s.bay n).index = none) :
    Gives (.returnToService arg) s fun t => Answered 0x30#8 arg .accepted t ∧
      (t.bay n).bare = { (s.bay n).checking none (s.after 40) with
        faultCause := none
        zeroReference := if (s.bay n).faultCause = some AlertCode.gaugeDrift then none else (s.bay n).zeroReference
        checksOwed :=
          if (s.bay n).faultCause = some AlertCode.gaugeDrift then 2 else max 1 (s.bay n).checksOwed }.bare ∧
      Frame [.mailbox, .bay n] s t := by
  obtain ⟨t, hx, hanswered, hbay, hframe⟩ := return_checks hh harg hrun
    (returnBay_empty (s := s.withCommand (commandWord 0x30#8 arg)) hrun h hindex)
  have hreturned : (s.bay n).returned = _ := returned_fault h
  refine ⟨t, hx, hanswered, hbay.trans ?_, hframe⟩
  rw [show ((s.withCommand (commandWord 0x30#8 arg)).bay n).returned = (s.bay n).returned from rfl, hreturned]
  rfl

theorem return_vent (hh : Heard 0x30#8 arg s) (harg : argByte arg = n.val + 5) (hrun : s.runState ≠ .eStopped)
    (h : (s.bay n).state = .fault) (hindex : (s.bay n).index.isSome = true)
    (hcause : (s.bay n).faultCause = some .ventFailure) : Gives (.returnToService arg) s fun t =>
      Answered 0x30#8 arg .accepted t ∧ (t.bay n).state = .releasing ∧ (t.bay n).outputs = ventAndDoor ∧
        (t.bay n).releaseCause = (s.bay n).releaseCause ∧ (t.bay n).stepTimer = some (s.after 60) ∧
        (t.bay n).checksOwed = max 1 (s.bay n).checksOwed ∧ (t.bay n).index = (s.bay n).index ∧
        (t.bay n).et = (s.bay n).et ∧ (t.bay n).drop = (s.bay n).drop ∧
        (t.bay n).zeroReference = (s.bay n).zeroReference ∧ Frame [.mailbox, .bay n] s t := by
  obtain ⟨t, hx, hanswered, hbay, hframe⟩ := heard_setBay (c := .returnToService arg) rfl rfl hh
    (((returnResult_bay _ harg).trans
      (returnBay_holding (s := s.withCommand (commandWord 0x30#8 arg)) hrun h hindex)).trans
      (returnHolding_vent (s := s.withCommand (commandWord 0x30#8 arg)) hcause))
  have hreturned : (s.bay n).returned = _ := returned_other (.inr (by rw [hcause]; decide))
  rw [show ((s.withCommand (commandWord 0x30#8 arg)).bay n).returned = (s.bay n).returned from rfl, hreturned] at hbay
  exact ⟨t, hx, hanswered, congr(Bay.state $hbay), congr(Bay.outputs $hbay), congr(Bay.releaseCause $hbay),
    congr(Bay.stepTimer $hbay), congr(Bay.checksOwed $hbay), congr(Bay.index $hbay), congr(Bay.et $hbay),
    congr(Bay.drop $hbay), congr(Bay.zeroReference $hbay), hframe⟩

theorem return_drift (hh : Heard 0x30#8 arg s) (harg : argByte arg = n.val + 5) (hrun : s.runState ≠ .eStopped)
    (h : (s.bay n).state = .fault) (hindex : (s.bay n).index.isSome = true)
    (hcause : (s.bay n).faultCause = some .gaugeDrift) : Gives (.returnToService arg) s fun t =>
      Answered 0x30#8 arg .accepted t ∧
        (t.bay n).bare = { (s.bay n).checking (s.bay n).resume (s.after 40) with
          zeroReference := none, checksOwed := 2 }.bare ∧ Frame [.mailbox, .bay n] s t := by
  obtain ⟨t, hx, hanswered, hbay, hframe⟩ := return_checks hh harg hrun
    ((returnBay_holding (s := s.withCommand (commandWord 0x30#8 arg)) hrun h hindex).trans
      (returnHolding_drift (s := s.withCommand (commandWord 0x30#8 arg)) hcause))
  have hreturned : (s.bay n).returned = _ := returned_drift h hcause
  refine ⟨t, hx, hanswered, hbay.trans ?_, hframe⟩
  rw [show ((s.withCommand (commandWord 0x30#8 arg)).bay n).returned = (s.bay n).returned from rfl, hreturned]
  rfl

end

/-! ## RETURN of an intensifier (R142) -/

section

variable {s : State} {i : IntensifierId}

theorem returnIntensifier_taken (h : (s.intensifier i).state = .offline ∨ (s.intensifier i).state = .fault)
    (hinput : (s.intensifier i).faultInput = false) : s.returnIntensifier i =
      (s.setIntensifier i { s.intensifier i with state := .free, setpoint := none }, .accepted) := by
  unfold State.returnIntensifier
  rcases h with h | h <;> simp [h, hinput]

theorem returnIntensifier_pending (h : (s.intensifier i).state = .retuning ∨ (s.intensifier i).state = .driving)
    (hpending : (s.intensifier i).pendingOffline = true) : s.returnIntensifier i =
      (s.setIntensifier i { s.intensifier i with pendingOffline := false }, .accepted) := by
  unfold State.returnIntensifier
  rcases h with h | h <;> simp [h, hpending]

theorem returnIntensifier_other
    (h : ((s.intensifier i).state = .offline ∨ (s.intensifier i).state = .fault) ∧ (s.intensifier i).faultInput = true ∨
      ((s.intensifier i).state = .retuning ∨ (s.intensifier i).state = .driving) ∧
        (s.intensifier i).pendingOffline = false ∨ (s.intensifier i).state = .free) :
    s.returnIntensifier i = (s, .wrongState) := by
  unfold State.returnIntensifier
  rcases h with ⟨h | h, hinput⟩ | ⟨h | h, hpending⟩ | h
  · simp [h, hinput]
  · simp [h, hinput]
  · simp [h, hpending]
  · simp [h, hpending]
  · simp [h]

end

/-! ## RETURN of a station (R159) -/

section

variable {s : State} {st : StationId}

theorem returnStation_loaded (h : (s.station st).state = .fault ∨ (s.station st).state = .offline)
    (hnest : (s.station st).nest = .loaded) : s.returnStation st =
      (s.setStation st { s.station st with state := .nestLoaded, faultCause := none, reoffer := 0 }, .accepted) := by
  unfold State.returnStation
  rcases h with h | h <;> rw [h, hnest] <;> rfl

theorem returnStation_empty (h : (s.station st).state = .fault ∨ (s.station st).state = .offline)
    (hnest : (s.station st).nest = .empty) : s.returnStation st =
      (s.setStation st { s.station st with state := .idle, faultCause := none }, .accepted) := by
  unfold State.returnStation
  rcases h with h | h <;> rw [h, hnest] <;> rfl

theorem returnStation_other (h : ¬(((s.station st).state = .fault ∨ (s.station st).state = .offline) ∧
    ((s.station st).nest = .loaded ∨ (s.station st).nest = .empty))) : s.returnStation st = (s, .wrongState) := by
  unfold State.returnStation
  split
  · exact absurd ⟨.inl ‹_›, .inl ‹_›⟩ h
  · exact absurd ⟨.inr ‹_›, .inl ‹_›⟩ h
  · exact absurd ⟨.inl ‹_›, .inr ‹_›⟩ h
  · exact absurd ⟨.inr ‹_›, .inr ‹_›⟩ h
  · rfl

end

/-! ## RETURN of the outfeed (R85) -/

section

variable {s : State}

theorem returnOutfeed_fault (h : s.outfeedState = .fault) :
    s.returnOutfeed = ({ s with outfeedState := .normal }, .accepted) := by
  unfold State.returnOutfeed
  rw [h]

theorem returnOutfeed_normal (h : s.outfeedState = .normal) : s.returnOutfeed = (s, .wrongState) := by
  unfold State.returnOutfeed
  rw [h]

theorem frame_setOutfeedState (s : State) (x : FlowState) : Frame [.outfeed] s { s with outfeedState := x } := by
  intro p hp
  cases p
  case outfeed => simp at hp
  case store => exact .of_mem_eq rfl
  all_goals first
    | rfl
    | exact ⟨rfl, rfl⟩
    | exact ⟨rfl, rfl, rfl⟩
    | exact ⟨rfl, rfl, rfl, rfl⟩

theorem return_outfeed {arg : BitVec 24} (hh : Heard 0x30#8 arg s) (harg : argByte arg = 15)
    (h : s.outfeedState = .fault) : Gives (.returnToService arg) s fun t =>
      Answered 0x30#8 arg .accepted t ∧ t.outfeedState = .normal ∧ t.outfeedQueue = s.outfeedQueue ∧
        t.outfeedHeadInFlight = s.outfeedHeadInFlight ∧ Frame [.mailbox, .outfeed] s t := by
  obtain ⟨t, hx, hanswered, hframe, hends⟩ := heard_ends (c := .returnToService arg) rfl rfl hh
    ((returnResult_outfeed _ harg).trans (returnOutfeed_fault (s := s.withCommand (commandWord 0x30#8 arg)) h))
    (frame_setOutfeedState _ _) (by simp)
  obtain ⟨hstate, hqueue, hhead⟩ := hends.outfeed
  exact ⟨t, hx, hanswered, hstate, hqueue, hhead, hframe⟩

end

/-- Settles O39. -/
theorem returnToService : Obligations.ReturnToService := by
  refine ⟨fun arg n s hh harg => ⟨fun h => ?_, return_offline hh harg, return_empty hh harg, return_vent hh harg,
      return_drift hh harg, fun h hfault => ?_⟩,
    fun arg i s hh harg => ⟨fun h hinput => ?_, fun h hpending => ?_, fun h => ?_⟩,
    fun arg st s hh harg => ⟨fun h hnest => ?_, fun h hnest => ?_, fun h => ?_⟩,
    fun arg s hh harg => ⟨return_outfeed hh harg, fun h => ?_⟩, fun arg s hh h => ?_⟩
  · exact heard_only (c := .returnToService arg) rfl rfl hh
      ((returnResult_bay _ harg).trans (returnBay_stopped (s := s.withCommand (commandWord 0x30#8 arg)) h))
  · exact heard_only (c := .returnToService arg) rfl rfl hh
      ((returnResult_bay _ harg).trans (returnBay_other (s := s.withCommand (commandWord 0x30#8 arg)) h hfault))
  · exact heard_setIntensifier (c := .returnToService arg) rfl rfl hh
      ((returnResult_intensifier _ harg).trans (returnIntensifier_taken (s := s.withCommand (commandWord 0x30#8 arg)) h hinput))
  · exact heard_setIntensifier (c := .returnToService arg) rfl rfl hh
      ((returnResult_intensifier _ harg).trans (returnIntensifier_pending (s := s.withCommand (commandWord 0x30#8 arg)) h hpending))
  · exact heard_only (c := .returnToService arg) rfl rfl hh
      ((returnResult_intensifier _ harg).trans (returnIntensifier_other (s := s.withCommand (commandWord 0x30#8 arg)) h))
  · exact heard_setStation (c := .returnToService arg) rfl rfl hh
      ((returnResult_station _ harg).trans (returnStation_loaded (s := s.withCommand (commandWord 0x30#8 arg)) h hnest))
  · exact heard_setStation (c := .returnToService arg) rfl rfl hh
      ((returnResult_station _ harg).trans (returnStation_empty (s := s.withCommand (commandWord 0x30#8 arg)) h hnest))
  · exact heard_only (c := .returnToService arg) rfl rfl hh
      ((returnResult_station _ harg).trans (returnStation_other (s := s.withCommand (commandWord 0x30#8 arg)) h))
  · exact heard_only (c := .returnToService arg) rfl rfl hh
      ((returnResult_outfeed _ harg).trans (returnOutfeed_normal (s := s.withCommand (commandWord 0x30#8 arg)) h))
  · exact heard_only (c := .returnToService arg) rfl rfl hh (returnResult_none _ h)

end Sys2Proof.Machine
end

