-- ==== Sys2Proof/Proofs/Occupancy.lean ====
section
/-! What an occupancy report leaves of the bays (R68, R129), and what a closed entry leaves behind (R22). -/

-- Proofs are checked one after another: the whole text, compiled as one, would otherwise start more threads than fit into the
-- check's memory.
set_option Elab.async false

namespace Sys2Proof.Machine

/-! ## An occupancy report (R68, R129) -/

/-- Operations on the bays of a list one after another, each of which changes its own bay alone: `P` holds what the operations
read and leave as it is. -/
theorem foldl_bay {P : State → Prop} {f : State → BayId → State} {g : BayId → Bay → Bay} (hP : ∀ n t, P t → P (f t n))
    (hf : ∀ n t m, P t → (f t n).bay m = if n = m then g m (t.bay m) else t.bay m) {l : List BayId} (hl : l.Nodup)
    {s : State} (hs : P s) (n : BayId) : (l.foldl f s).bay n = if n ∈ l then g n (s.bay n) else s.bay n := by
  induction l generalizing s with
  | nil => rfl
  | cons m rest ih =>
    obtain ⟨hm, hrest⟩ := List.nodup_cons.mp hl
    rw [List.foldl_cons, ih hrest (hP m s hs), hf m s n hs]
    by_cases hmn : m = n
    · subst hmn
      simp [hm]
    · simp [hmn, Ne.symm hmn]

theorem mem_groupOf (n : BayId) (l : LaneId) : n ∈ groupOf l ↔ laneOf n = l := by
  cases l <;> revert n <;> decide

theorem groupOf_nodup (l : LaneId) : (groupOf l).Nodup := by
  cases l <;> decide

theorem groupParts_subset (l : LaneId) : groupParts l ⊆ bayParts := by
  cases l <;> decide

theorem not_mem_groupParts {n : BayId} {l : LaneId} (h : laneOf n ≠ l) : Part.bay n ∉ groupParts l := by
  simp only [groupParts, List.mem_map, Part.bay.injEq, exists_eq_right, mem_groupOf]
  exact h

section

variable {s : State} {l : LaneId}

theorem reportOccupancy_stopped (hrun : s.runState = .eStopped) (l : LaneId) : s.reportOccupancy l = s := by
  have hfold (bays : List BayId) : bays.foldl State.testProactive s = s := by
    induction bays with
    | nil => rfl
    | cons n rest ih => rw [List.foldl_cons, testProactive_stopped hrun, ih]
  exact hfold _

theorem reportOccupancy_bay (hrun : s.runState ≠ .eStopped) {n : BayId} (hn : laneOf n = l) :
    (s.reportOccupancy l).bay n = (s.bay n).proactively (s.lowLane n) s.work.zeroInterval (s.after 40) := by
  have hfold := foldl_bay (P := fun t => Frame bayParts s t) (f := State.testProactive)
    (g := fun n b => b.proactively (s.lowLane n) s.work.zeroInterval (s.after 40))
    (fun n t ht => ht.trans ((frame_testProactive t n).mono (by simpa using part_bay_mem n))) (fun n t m ht => ?_)
    (groupOf_nodup l) (.refl _ s) n
  · rw [if_pos ((mem_groupOf n l).mpr hn)] at hfold
    exact hfold
  · have hrunT : t.runState ≠ .eStopped := by rwa [ht.runState_eq (by decide)]
    rw [testProactive_bay hrunT, ht.work_eq (by decide), ht.after_eq (by decide),
      ht.lowLane_eq (by cases laneOf n <;> decide) (by decide)]
    split
    · subst n
      rfl
    · rfl

end

theorem frame_reportOccupancy_group (s : State) (l : LaneId) : Frame (groupParts l) s (s.reportOccupancy l) :=
  frame_reportOccupancy s l

theorem proactively_checks {b : Bay} {low : Bool} {interval : Nat} (hidle : b.state = .idle) (hlow : low = true)
    (hold : b.validity * 2 < interval) (expiry : Seconds) : b.proactively low interval expiry = b.checking none expiry :=
  if_pos ⟨hidle, hlow, hold⟩

theorem proactively_stays {b : Bay} {low : Bool} {interval : Nat}
    (h : b.state ≠ .idle ∨ ¬(low = true ∧ b.validity * 2 < interval)) (expiry : Seconds) :
    b.proactively low interval expiry = b :=
  if_neg fun ⟨hidle, hlow, hold⟩ => h.elim (fun h => h hidle) fun h => h ⟨hlow, hold⟩

/-- A bay of a lane's group after the lane's occupancy report, which an effect makes in the state `v` (R129). -/
theorem proactive_reportOccupancy {s v : State} {n : BayId} {l : LaneId} (hn : laneOf n = l) (hbay : v.bay n = s.bay n)
    (hrun : v.runState = s.runState) (hseconds : v.lineSeconds = s.lineSeconds) :
    Proactive n s (v.reportOccupancy l) := by
  have hframe := frame_reportOccupancy_group v l
  have hlane : Part.lane (laneOf n) ∉ groupParts l := fun h =>
    absurd (groupParts_subset l h) (by cases laneOf n <;> decide)
  have hset : Part.settings ∉ groupParts l := fun h => absurd (groupParts_subset l h) (by decide)
  have hold : OldValidity n (s.bay n).validity (v.reportOccupancy l) ↔
      v.lowLane n = true ∧ (s.bay n).validity * 2 < v.work.zeroInterval := by
    rw [← hframe.lowLane_eq hlane hset, ← hframe.work_eq hset, lowLane_iff, OldValidity]
  have hafter : v.after 40 = s.after 40 := by rw [State.after, State.after, hseconds]
  refine ⟨fun hidle hstop hvalid => ?_, fun h => ?_⟩
  · obtain ⟨hlow, hval⟩ := hold.mp hvalid
    rw [Checks, reportOccupancy_bay (hrun ▸ hstop) hn, hbay, hafter, proactively_checks hidle hlow hval]
  · by_cases hstop : v.runState = .eStopped
    · rw [reportOccupancy_stopped hstop, hbay]
    · rw [reportOccupancy_bay hstop hn, hbay]
      refine proactively_stays ?_ _
      rw [← hold]
      exact h.imp_right fun h => h.resolve_left fun h => hstop (hrun.trans h)

/-- The outcome for a bay depends on its lane's queue and the settings alone. -/
theorem Proactive.congr {n : BayId} {s u t : State} (h : Proactive n s u) (hbay : t.bay n = u.bay n)
    (hqueue : (t.lane (laneOf n)).queue = (u.lane (laneOf n)).queue) (hwork : t.work = u.work) : Proactive n s t := by
  have hold (v : Nat) : OldValidity n v t ↔ OldValidity n v u := oldValidity_congr hqueue hwork
  obtain ⟨hchecks, hstays⟩ := h
  refine ⟨fun hidle hrun hvalid => ?_, fun hno => ?_⟩
  · rw [Checks, hbay]
    exact hchecks hidle hrun ((hold _).mp hvalid)
  · rw [hbay]
    exact hstays (by rwa [hold] at hno)

theorem Ends.lane_queue {s u t : State} (h : Ends s u t) (l : LaneId) : (t.lane l).queue = (u.lane l).queue :=
  show (t.lane l).bare.queue = (u.lane l).bare.queue by rw [h.lane]

theorem Ends.proactive {n : BayId} {s u t : State} (h : Ends s u t) (k : Proactive n s u) : Proactive n s t := by
  have hold (v : Nat) : OldValidity n v t ↔ OldValidity n v u := oldValidity_congr (h.lane_queue _) h.work
  obtain ⟨hchecks, hstays⟩ := k
  exact ⟨fun hidle hrun hvalid => h.checking (hchecks hidle hrun ((hold _).mp hvalid)),
    fun hno => h.kept n (hstays (by rwa [hold] at hno))⟩

/-! ## A closed entry (R22) -/

theorem closed_closeEntry (s : State) (i : RosterIndex) (code : OutcomeCode) (reason : Reason) :
    Closed i code reason s (s.closeEntry i code reason) := by
  refine ⟨?_, waiting_raiseOutcome _ i code reason⟩
  rw [State.closeEntry, raiseOutcome_entry, editEntry_eq, entry_setEntry, if_pos rfl]
  rfl

theorem closeCleared_closes {s : State} {i : RosterIndex}
    (h : (s.entry i).state = .awaitingNote ∨ (s.entry i).state = .queued) :
    s.closeCleared i = s.closeEntry i .removed .laneClear := by
  unfold State.closeCleared
  rcases h with h | h <;> rw [h]

theorem closeCleared_done {s : State} {i : RosterIndex} (h : (s.entry i).state = .done) : s.closeCleared i = s := by
  unfold State.closeCleared
  rw [h]

/-- A waiting notice still waits after a closing. -/
theorem Waiting.closeCleared {s : State} {x : Notice} (h : Waiting x s) (i : RosterIndex) :
    Waiting x (s.closeCleared i) := by
  have hclose : Waiting x (s.closeEntry i .removed .laneClear) :=
    Waiting.raiseOutcome (h.of_frame (frame_editEntry s i _) (by simp)) i _ _
  unfold State.closeCleared
  split <;> assumption

theorem Waiting.closeItems {x : Notice} {items : List Item} {s : State} (h : Waiting x s) :
    Waiting x (s.closeItems items) := by
  induction items generalizing s with
  | nil => exact h
  | cons item rest ih =>
    cases item with
    | marker => exact ih h
    | entry i => exact ih (h.closeCleared i)

theorem closeItems_done {i : RosterIndex} {items : List Item} {s : State} (h : (s.entry i).state = .done) :
    (s.closeItems items).entry i = s.entry i := by
  induction items generalizing s with
  | nil => rfl
  | cons item rest ih =>
    cases item with
    | marker => exact ih h
    | entry j =>
      have hentry : (s.closeCleared j).entry i = s.entry i := by
        by_cases hij : j = i
        · subst hij
          rw [closeCleared_done h]
        · exact (frame_closeCleared s j).entry_eq (by simpa using Ne.symm hij)
      exact (ih (by rw [hentry, h])).trans hentry

/-- The items of a cleared queue are closed (R87). -/
theorem closed_closeItems {i : RosterIndex} {items : List Item} {s : State} (hmem : .entry i ∈ items)
    (h : (s.entry i).state = .awaitingNote ∨ (s.entry i).state = .queued) :
    Closed i .removed .laneClear s (s.closeItems items) := by
  induction items generalizing s with
  | nil => simp at hmem
  | cons item rest ih =>
    cases item with
    | marker => exact ih (by simpa using hmem) h
    | entry j =>
      by_cases hij : i = j
      · subst hij
        obtain ⟨hentry, hwaiting⟩ := closed_closeEntry s i .removed .laneClear
        rw [← closeCleared_closes h] at hentry hwaiting
        have hdone : ((s.closeCleared i).entry i).state = .done := by
          rw [hentry]
          rfl
        exact ⟨Eq.trans (b := (s.closeCleared i).entry i) (closeItems_done hdone) hentry, hwaiting.closeItems⟩
      · have hframe := frame_closeCleared s j
        have hentry : (s.closeCleared j).entry i = s.entry i := hframe.entry_eq (by simpa using hij)
        obtain ⟨hclosed, hwaiting⟩ := ih (s := s.closeCleared j)
          ((List.mem_cons.mp hmem).resolve_left (by simpa using hij)) (by rwa [hentry])
        refine ⟨hclosed.trans ?_, hwaiting⟩
        rw [hentry, hframe.lineSeconds_eq (by simp)]

theorem frame_closeItems (s : State) (items : List Item) :
    Frame (.notices :: items.flatMap itemParts) s (s.closeItems items) := by
  induction items generalizing s with
  | nil => exact .refl _ s
  | cons item rest ih =>
    cases item with
    | marker => exact ih s
    | entry i =>
      exact ((frame_closeCleared s i).mono (by simp [itemParts])).trans
        ((ih _).mono (List.cons_subset_cons _ (by simp)))

end Sys2Proof.Machine
end

