-- ==== Sys2Proof/Proofs/LaneClear.lean ====
section
/-! LANE CLEAR (R87). -/

-- Proofs are checked one after another: the whole text, compiled as one, would otherwise start more threads than fit into the
-- check's memory.
set_option Elab.async false

namespace Sys2Proof.Machine

/-! ## The effect, step by step -/

/-- The lane's queue is empty, its note wait stopped and its claim withdrawn. -/
def State.laneEmptied (s : State) (l : LaneId) : State :=
  (s.setLane l { s.lane l with noteWait := none, queue := [] }).withdrawClaim (.lane l)

/-- The items are closed and the lane is NORMAL. -/
def State.laneClosed (s : State) (l : LaneId) : State :=
  ((s.laneEmptied l).closeItems (s.lane l).queue).setLane l
    { s.lane l with noteWait := none, queue := [], state := .normal }

/-- The lane is cleared, and the occupancy reported and the permits set; the drain test follows. -/
def State.laneReported (s : State) (l : LaneId) : State := ((s.laneClosed l).reportOccupancy l).evalPermits

theorem setLane_setLane (s : State) (l : LaneId) (x y : Lane) : (s.setLane l x).setLane l y = s.setLane l y := by
  cases l <;> rfl

section

variable (s : State) (l : LaneId)

theorem frame_laneEmptied : Frame [.lane l, .claims] s (s.laneEmptied l) :=
  ((frame_setLane s l _).mono (by simp)).trans ((frame_withdrawClaim _ _).mono (by simp))

theorem laneEmptied_lane : (s.laneEmptied l).lane l = { s.lane l with noteWait := none, queue := [] } := by
  rw [State.laneEmptied, withdrawClaim_lane, lane_setLane, if_pos rfl]

theorem closeItems_lane (items : List Item) (m : LaneId) : (s.closeItems items).lane m = s.lane m := by
  induction items generalizing s with
  | nil => rfl
  | cons item rest ih =>
    cases item with
    | marker => exact ih s
    | entry i =>
      have hclose : (s.closeCleared i).lane m = s.lane m := by
        unfold State.closeCleared State.closeEntry
        split <;> rfl
      exact (ih _).trans hclose

theorem clearLane_eq : s.clearLane l = (s.laneReported l).drainTest := by
  have hempty : ((s.stopNoteWait l).withdrawClaim (.lane l)).updLane l (fun x => { x with queue := [] }) =
      s.laneEmptied l := by
    unfold State.stopNoteWait State.laneEmptied
    cases l <;> rfl
  have hlane : ((s.laneEmptied l).closeItems (s.lane l).queue).lane l =
      { s.lane l with noteWait := none, queue := [] } := by rw [closeItems_lane, laneEmptied_lane]
  unfold State.clearLane State.laneReported State.laneClosed
  dsimp only
  rw [hempty, updLane_eq, hlane]

/-- The parts of the steps before the occupancy report. -/
def laneClosedParts : List Part := [.lane l, .claims, .notices] ++ (s.lane l).queue.flatMap itemParts

theorem frame_laneClosed : Frame (laneClosedParts s l) s (s.laneClosed l) := by
  have hclose : Frame (laneClosedParts s l) (s.laneEmptied l) ((s.laneEmptied l).closeItems (s.lane l).queue) :=
    (frame_closeItems _ _).mono (List.cons_subset.mpr ⟨by simp [laneClosedParts], List.subset_append_right _ _⟩)
  exact (((frame_laneEmptied s l).mono (by simp [laneClosedParts])).trans hclose).trans
    ((frame_setLane _ l _).mono (by simp [laneClosedParts]))

theorem mem_itemParts {p : Part} {items : List Item} (h : p ∈ items.flatMap itemParts) : ∃ i, p = .entry i := by
  obtain ⟨item, -, hp⟩ := List.mem_flatMap.mp h
  cases item with
  | marker => simp [itemParts] at hp
  | entry i => exact ⟨i, by simpa [itemParts] using hp⟩

theorem not_mem_laneClosedParts {p : Part} (hp : p ∉ [.lane l, .claims, .notices]) (hentry : ∀ i, p ≠ .entry i) :
    p ∉ laneClosedParts s l := by
  intro h
  rcases List.mem_append.mp h with h | h
  · exact hp h
  · obtain ⟨i, hi⟩ := mem_itemParts h
    exact hentry i hi

theorem laneClosed_lane : (s.laneClosed l).lane l =
    { s.lane l with noteWait := none, queue := [], state := .normal } := by
  rw [State.laneClosed, lane_setLane, if_pos rfl]

theorem laneClosed_otherLane : (s.laneClosed l).lane (otherLane l) = s.lane (otherLane l) := by
  have hne : l ≠ otherLane l := by cases l <;> simp [otherLane]
  rw [State.laneClosed, lane_setLane, if_neg hne, closeItems_lane, State.laneEmptied, withdrawClaim_lane, lane_setLane,
    if_neg hne]

theorem laneClosed_claims : (s.laneClosed l).claims = s.claims.filter (fun c => decide (c ≠ .lane l)) := by
  have hclose := (frame_closeItems (s.laneEmptied l) (s.lane l).queue).claims_eq (fun h => by
    rcases List.mem_cons.mp h with h | h
    · simp at h
    · obtain ⟨i, hi⟩ := mem_itemParts h
      simp at hi)
  rw [State.laneClosed, setLane_claims, hclose]
  rfl

theorem laneClosed_closed {i : RosterIndex} (hmem : .entry i ∈ (s.lane l).queue)
    (h : (s.entry i).state = .awaitingNote ∨ (s.entry i).state = .queued) :
    Closed i .removed .laneClear s (s.laneClosed l) := by
  have hentry : (s.laneEmptied l).entry i = s.entry i := (frame_laneEmptied s l).entry_eq (by simp)
  obtain ⟨hclosed, hwaiting⟩ := closed_closeItems (s := s.laneEmptied l) hmem (by rwa [hentry])
  refine ⟨?_, hwaiting.of_frame (frame_setLane _ l _) (by simp)⟩
  rw [State.laneClosed, setLane_entry, hclosed, hentry]
  rfl

end

/-! ## The effect at its end -/

/-- What LANE CLEAR leaves, before the drain test. -/
structure LaneCleared (l : LaneId) (s u : State) : Prop where
  lane : (u.lane l).bare = { s.lane l with
    queue := [], state := .normal, noteWait := none, permit := u.permitHolds l }.bare
  other : PermitOnly (otherLane l) s u
  claims : u.claims = s.claims.filter (fun c => decide (c ≠ .lane l))
  closed : ∀ i : RosterIndex, Item.entry i ∈ (s.lane l).queue →
    (s.entry i).state = .awaitingNote ∨ (s.entry i).state = .queued → Closed i .removed .laneClear s u
  bays : ∀ n, laneOf n = l → Proactive n s u

section

variable (s : State) (l : LaneId)

theorem frame_laneReported : Frame ([.lane .a, .lane .b, .claims, .notices] ++ groupParts l ++
    (s.lane l).queue.flatMap itemParts) s (s.laneReported l) := by
  have hclosed := (frame_laneClosed s l).mono (M := [.lane .a, .lane .b, .claims, .notices] ++ groupParts l ++
    (s.lane l).queue.flatMap itemParts) (List.append_subset.mpr ⟨by cases l <;> simp, List.subset_append_right _ _⟩)
  exact hclosed.trans (((frame_reportOccupancy_group _ l).mono
    (List.subset_append_of_subset_left _ (List.subset_append_right _ _))).trans
    ((frame_evalPermits _).mono (by simp)))

theorem laneReported_runState : (s.laneReported l).runState = s.runState :=
  (frame_laneReported s l).runState_eq (by
    simp only [List.mem_append, not_or]
    refine ⟨⟨by simp, fun h => absurd (groupParts_subset l h) (by decide)⟩, fun h => ?_⟩
    obtain ⟨i, hi⟩ := mem_itemParts h
    simp at hi)

theorem laneReported_lane (m : LaneId) : (s.laneReported l).lane m =
    { ((s.laneClosed l).reportOccupancy l).lane m with
      permit := ((s.laneClosed l).reportOccupancy l).permitHolds m } := by
  rw [State.laneReported, evalPermits_lane]

theorem reportOccupancy_lane_bare (v : State) (m : LaneId) : ((v.reportOccupancy l).lane m).bare = (v.lane m).bare :=
  (frame_reportOccupancy_group v l).lane_bare_eq fun h => absurd (groupParts_subset l h) (by cases m <;> decide)

theorem laneCleared_reported : LaneCleared l s (s.laneReported l) where
  lane := by
    rw [laneReported_lane, State.laneReported, evalPermits_permitHolds]
    have hbare := (reportOccupancy_lane_bare l (s.laneClosed l) l).trans (congrArg Lane.bare (laneClosed_lane s l))
    exact Lane.bare_setPermit hbare _
  other := permitOnly_evalPermits ((reportOccupancy_lane_bare l _ _).trans
    (congrArg Lane.bare (laneClosed_otherLane s l)))
  claims := by
    rw [State.laneReported, evalPermits_claims, (frame_reportOccupancy_group _ l).claims_eq
      (fun h => absurd (groupParts_subset l h) (by decide)), laneClosed_claims]
  closed i hmem h := by
    obtain ⟨hentry, hwaiting⟩ := laneClosed_closed s l hmem h
    have hgroup (p : Part) (hp : p ∉ bayParts) : p ∉ groupParts l := fun h => hp (groupParts_subset l h)
    refine ⟨?_, (hwaiting.of_frame (frame_reportOccupancy_group _ l) (hgroup _ (by decide))).of_frame
      (frame_evalPermits _) (by simp)⟩
    rw [← hentry, State.laneReported, (frame_evalPermits _).entry_eq (by simp),
      (frame_reportOccupancy_group _ l).entry_eq (hgroup _ (by simp [bayParts]))]
  bays n hn := by
    have hframe := frame_laneClosed s l
    have hreport : Proactive n s ((s.laneClosed l).reportOccupancy l) := proactive_reportOccupancy hn
      (hframe.bay_eq (not_mem_laneClosedParts s l (by simp) (by simp)))
      (hframe.runState_eq (not_mem_laneClosedParts s l (by simp) (by simp)))
      (hframe.lineSeconds_eq (not_mem_laneClosedParts s l (by simp) (by simp)))
    exact hreport.congr ((frame_evalPermits _).bay_eq (by simp)) (by rw [State.laneReported, evalPermits_lane]) rfl

end

/-- The drain test changes the run state alone. -/
theorem LaneCleared.drainTest {l : LaneId} {s u : State} (h : LaneCleared l s u) (hpermits : PermitsHeld u.drainTest) :
    LaneCleared l s u.drainTest where
  lane := by
    have hpermit : (u.lane l).permit = u.drainTest.permitHolds l := drainTest_lane u l ▸ hpermits l
    have hlane : u.permitHolds l = (u.lane l).permit := congrArg Lane.permit h.lane.symm
    rw [drainTest_lane, ← hpermit, ← hlane, h.lane]
  other := by
    have hpermit : (u.lane (otherLane l)).permit = u.drainTest.permitHolds (otherLane l) :=
      drainTest_lane u (otherLane l) ▸ hpermits (otherLane l)
    have hbare := h.other
    unfold PermitOnly at hbare ⊢
    have hlane : u.permitHolds (otherLane l) = (u.lane (otherLane l)).permit := congrArg Lane.permit hbare.symm
    rw [drainTest_lane, ← hpermit, ← hlane, hbare]
  claims := ((frame_drainTest u).claims_eq (by simp)).trans h.claims
  closed i hmem hstate := by
    obtain ⟨hentry, hwaiting⟩ := h.closed i hmem hstate
    exact ⟨(drainTest_entry u i).trans hentry, hwaiting.drainTest⟩
  bays n hn := (h.bays n hn).congr (drainTest_bay u n) (by rw [drainTest_lane]) ((frame_drainTest u).work_eq (by simp))

/-! ## The settled statement -/

theorem laneOfNumber_none {k : Nat} (h : 2 ≤ k) : laneOfNumber k = none := by
  unfold laneOfNumber
  split
  case h_3 => rfl
  all_goals omega

section

variable {arg : BitVec 24} {l : LaneId} {s : State}

theorem laneClearResult_busy (harg : laneOfNumber (argByte arg) = some l) (h : (s.lane l).state = .normal)
    (hflight : (s.lane l).headInFlight = true) : s.laneClearResult arg = (s, .wrongState) := by
  unfold State.laneClearResult
  rw [harg]
  dsimp only
  rw [h]
  exact if_pos hflight

theorem laneClearResult_clears (harg : laneOfNumber (argByte arg) = some l)
    (h : (s.lane l).state = .fault ∨ (s.lane l).headInFlight = false) :
    s.laneClearResult arg = (s.clearLane l, .accepted) := by
  unfold State.laneClearResult
  rw [harg]
  dsimp only
  split
  · rename_i hstate
    exact if_neg (by simpa using h.resolve_left (by rw [hstate]; decide))
  · rfl

theorem laneClearResult_bad (h : 2 ≤ argByte arg) : s.laneClearResult arg = (s, .badArgument) := by
  unfold State.laneClearResult
  rw [laneOfNumber_none h]

end

theorem clear_lane {arg : BitVec 24} {l : LaneId} {s : State} (hh : Heard 0x31#8 arg s)
    (harg : laneOfNumber (argByte arg) = some l) (h : (s.lane l).state = .fault ∨ (s.lane l).headInFlight = false) :
    ∃ t, exec (.laneClear arg) s = .next t ∧ Answered 0x31#8 arg .accepted t ∧ LaneCleared l s t ∧ DrainTested s t ∧
      Frame ([.mailbox, .lane .a, .lane .b, .claims, .notices, .runState] ++ groupParts l ++
        (s.lane l).queue.flatMap itemParts) s t := by
  have hf (v : State) : Frame ([.lane .a, .lane .b, .claims, .notices, .runState] ++ groupParts l ++
      (v.lane l).queue.flatMap itemParts) v (v.laneReported l).drainTest :=
    ((frame_laneReported v l).mono (by intro p hp; simp only [List.mem_append, List.mem_cons] at hp ⊢; tauto)).trans
      ((frame_drainTest _).mono (by simp))
  have hmailbox (v : State) : Part.mailbox ∉ [.lane .a, .lane .b, .claims, .notices, .runState] ++ groupParts l ++
      (v.lane l).queue.flatMap itemParts := by
    simp only [List.mem_append, not_or]
    refine ⟨⟨by simp, fun h => absurd (groupParts_subset l h) (by decide)⟩, fun h => ?_⟩
    obtain ⟨i, hi⟩ := mem_itemParts h
    simp at hi
  have hcleared (v : State) : LaneCleared l v (v.laneReported l).drainTest :=
    (laneCleared_reported v l).drainTest (permitsHeld_drainTest (permitsHeld_evalPermits _))
  obtain ⟨t, hx, hanswered, hframe, hends⟩ := heard_ends (c := .laneClear arg) rfl rfl hh
    ((laneClearResult_clears (s := s.withCommand (commandWord 0x31#8 arg)) harg h).trans
      (congrArg (·, ResultCode.accepted) (clearLane_eq _ l))) (hf _) (hmailbox _)
  have hc : LaneCleared l s ((s.withCommand (commandWord 0x31#8 arg)).laneReported l).drainTest :=
    have hc := hcleared (s.withCommand (commandWord 0x31#8 arg))
    { lane := hc.lane, other := hc.other, claims := hc.claims, closed := hc.closed, bays := hc.bays }
  exact ⟨t, hx, hanswered,
    { lane := by rw [hends.lane, hends.permitHolds, hc.lane]
      other := hends.permitOnly hc.other
      claims := hends.claims.trans hc.claims
      closed := fun i hmem hstate => hends.closed (hc.closed i hmem hstate)
      bays := fun n hn => hends.proactive (hc.bays n hn) },
    hends.drainTested (laneReported_runState (s.withCommand (commandWord 0x31#8 arg)) l), hframe⟩

/-- Settles O40. -/
theorem laneClear : Obligations.LaneClear := by
  refine ⟨fun arg l s hh harg => ⟨fun h hflight => ?_, fun h => ?_⟩, fun arg s hh h => ?_⟩
  · exact heard_only (c := .laneClear arg) rfl rfl hh
      (laneClearResult_busy (s := s.withCommand (commandWord 0x31#8 arg)) harg h hflight)
  · obtain ⟨t, hx, hanswered, hcleared, hdrain, hframe⟩ := clear_lane hh harg h
    exact ⟨t, hx, hanswered, hcleared.lane, hcleared.other, hcleared.claims, hcleared.closed, hcleared.bays, hdrain, hframe⟩
  · exact heard_only (c := .laneClear arg) rfl rfl hh (laneClearResult_bad h)

end Sys2Proof.Machine
end

