-- ==== Sys2Proof/Proofs/CountDown.lean ====
section
/-! What one bay does as its zero validity counts down (R98, R106, R123, R129). -/

-- Proofs are checked one after another: the whole text, compiled as one, would otherwise start more threads than fit into the
-- check's memory.
set_option Elab.async false

namespace Sys2Proof.Machine

/-! ## The lapse (R106, R123) -/

section

variable {s : State} {n : BayId}

theorem lapse_idle (h : (s.bay n).state = .idle) (hrun : s.runState ≠ .eStopped) : s.lapse n = s.enterZeroing n none := by
  unfold State.lapse
  rw [if_pos h, if_neg (not_stopped hrun)]

theorem lapse_idle_stopped (h : (s.bay n).state = .idle) (hrun : s.runState = .eStopped) : s.lapse n = s := by
  unfold State.lapse
  rw [if_pos h, if_pos (stopped_eq_true hrun)]

theorem lapse_open (h : (s.bay n).state ≠ .idle) (hopen : (s.bay n).attemptOpen = true) :
    s.lapse n = s.setBay n { s.bay n with lapsed := true } := by
  unfold State.lapse
  rw [if_neg h, if_pos hopen]
  rfl

theorem lapse_closed (h : (s.bay n).state ≠ .idle) (hopen : (s.bay n).attemptOpen = false) : s.lapse n = s := by
  unfold State.lapse
  rw [if_neg h, if_neg (by simp [hopen])]

end

/-! ## The count-down of a bay that is not IDLE -/

/-- A bay after its count-down, but for what the comparison of R98 brings. -/
def Bay.countedDown (b : Bay) : Bay :=
  { b with
    validity := b.validity - 1
    lapsed := b.lapsed || (decide (b.validity = 1) && b.attemptOpen) }

theorem counted_attemptOpen (b : Bay) : ({ b with validity := b.validity - 1 } : Bay).attemptOpen = b.attemptOpen := rfl

section

variable {s : State} {n : BayId}

/-- The state after the count-down of a bay, before the tests. -/
def State.counted (s : State) (n : BayId) : State := s.setBay n { s.bay n with validity := (s.bay n).validity - 1 }

theorem counted_bay (s : State) (n : BayId) :
    (s.counted n).bay n = { s.bay n with validity := (s.bay n).validity - 1 } := bay_setBay_self s n _

theorem countDown_stays (h : (s.bay n).state = .offline ∨ (s.bay n).state = .starting ∨ (s.bay n).validity = 0) :
    s.countDown n = s := by
  unfold State.countDown
  split
  · rfl
  · rfl
  · rename_i hoff hstart
    exact if_pos (h.resolve_left hoff |>.resolve_left hstart)

theorem countDown_counts (hoff : (s.bay n).state ≠ .offline) (hstart : (s.bay n).state ≠ .starting)
    (hval : 0 < (s.bay n).validity) : s.countDown n =
      ((if (s.bay n).validity = 1 then (s.counted n).lapse n else s.counted n).testShortfall n).testProactive n := by
  unfold State.countDown
  split
  · exact absurd ‹_› hoff
  · exact absurd ‹_› hstart
  · rw [if_neg (by omega)]
    rfl

theorem counted_lapse (hidle : (s.bay n).state ≠ .idle) :
    (if (s.bay n).validity = 1 then (s.counted n).lapse n else s.counted n) = s.setBay n (s.bay n).countedDown := by
  have hbay := counted_bay s n
  have hidle' : ((s.counted n).bay n).state ≠ .idle := by rwa [hbay]
  by_cases hval : (s.bay n).validity = 1
  · rw [if_pos hval]
    cases hopen : (s.bay n).attemptOpen with
    | true =>
      rw [lapse_open hidle' (by rw [hbay, counted_attemptOpen, hopen]), hbay, State.counted, setBay_setBay]
      simp [Bay.countedDown, hval, hopen]
    | false =>
      rw [lapse_closed hidle' (by rw [hbay, counted_attemptOpen, hopen])]
      simp [State.counted, Bay.countedDown, hopen]
  · rw [if_neg hval]
    simp [State.counted, Bay.countedDown, hval]

theorem testProactive_not_idle (h : (s.bay n).state ≠ .idle) : s.testProactive n = s := if_neg fun k => h k.1

theorem countedDown_state (b : Bay) : b.countedDown.state = b.state := rfl

/-- The comparison of R98 after the count-down. -/
theorem countedDown_short (hval : 0 < (s.bay n).validity) :
    (s.setBay n (s.bay n).countedDown).short n = true ↔ FallsShort n s := by
  have hparams : (s.setBay n (s.bay n).countedDown).bayParams n = s.bayParams n :=
    bayParams_congr (by rw [bay_setBay_self]; rfl) (fun _ => rfl)
  unfold State.short FallsShort
  rw [hparams, bay_setBay_self]
  cases s.bayParams n with
  | none => simp
  | some p =>
    show decide ((s.bay n).validity - 1 < s.allowance p) = true ↔ _
    simp only [decide_eq_true_iff, Option.some.injEq, exists_eq_left']
    omega

theorem testShortfall_other (hawait : (s.bay n).state ≠ .awaitIntensifier) (hsuspended : (s.bay n).state ≠ .suspended) :
    s.testShortfall n = s := by
  unfold State.testShortfall
  split
  · split
    · exact absurd ‹_› hawait
    · exact absurd ‹_› hsuspended
    · rfl
  · rfl

theorem enterZeroing_state (s : State) (n : BayId) (rp : Option ResumePoint) :
    ((s.enterZeroing n rp).bay n).state = .zeroing := by
  unfold State.enterZeroing
  dsimp only
  split <;> simp [State.beginCheck, Bay.zeroed, Bay.enter]

/-- The comparison of R98 never leaves a bay in IDLE that was not. -/
theorem testShortfall_not_idle (h : (s.bay n).state ≠ .idle) : ((s.testShortfall n).bay n).state ≠ .idle := by
  have hstep (t : State) (ht : (t.bay n).state ≠ .idle) (rp : ResumePoint) : ((t.zeroingStep n rp).bay n).state ≠ .idle := by
    unfold State.zeroingStep
    split
    · simpa [State.keepStep] using ht
    · rw [enterZeroing_state]
      decide
  unfold State.testShortfall
  split
  · split
    · split
      · rw [enterReleasing_bay]
        simp [Bay.releasing]
      · exact hstep _ (by simpa using h) _
    · split
      · exact h
      · exact hstep _ h _
    · exact h
  · exact h

/-- The count-down of a bay that is not IDLE. -/
theorem countDown_not_idle (hoff : (s.bay n).state ≠ .offline) (hstart : (s.bay n).state ≠ .starting)
    (hidle : (s.bay n).state ≠ .idle) (hval : 0 < (s.bay n).validity) :
    s.countDown n = (s.setBay n (s.bay n).countedDown).testShortfall n := by
  rw [countDown_counts hoff hstart hval, counted_lapse hidle]
  exact testProactive_not_idle (testShortfall_not_idle (by rwa [bay_setBay_self]))

/-! ## The count-down, case by case -/

/-- A bay that the comparison of R98 does not touch. -/
theorem countDown_kept (hoff : (s.bay n).state ≠ .offline) (hstart : (s.bay n).state ≠ .starting)
    (hidle : (s.bay n).state ≠ .idle) (hval : 0 < (s.bay n).validity)
    (hawait : (s.bay n).state = .awaitIntensifier → ¬FallsShort n s)
    (hsuspended : (s.bay n).state = .suspended → ¬FallsShort n s ∨ (s.bay n).pressurised = true) :
    s.countDown n = s.setBay n (s.bay n).countedDown := by
  rw [countDown_not_idle hoff hstart hidle hval]
  have hbay := bay_setBay_self s n (s.bay n).countedDown
  have henough (h : ¬FallsShort n s) : (s.setBay n (s.bay n).countedDown).short n = false := by
    simpa using (not_congr (countedDown_short hval)).mpr h
  by_cases ha : (s.bay n).state = .awaitIntensifier
  · exact testShortfall_of_enough (henough (hawait ha))
  · by_cases hs : (s.bay n).state = .suspended
    · exact testShortfall_suspended_kept (by rwa [hbay]) ((hsuspended hs).imp henough (by rw [hbay]; exact id))
    · exact testShortfall_other (by rwa [hbay]) (by rwa [hbay])

theorem countDown_await_pressurised (h : (s.bay n).state = .awaitIntensifier) (hshort : FallsShort n s)
    (hpress : (s.bay n).pressurised = true) :
    s.countDown n = (s.setBay n (s.bay n).countedDown).enterReleasing n (.void .zeroLapsed) := by
  obtain ⟨-, -, hval, -⟩ := id hshort
  have hbay := bay_setBay_self s n (s.bay n).countedDown
  rw [countDown_not_idle (by simp [h]) (by simp [h]) (by simp [h]) hval,
    testShortfall_await_pressurised (by rw [hbay]; exact h) ((countedDown_short hval).mpr hshort) (by rw [hbay]; exact hpress)]

theorem countDown_await_short (h : (s.bay n).state = .awaitIntensifier) (hshort : FallsShort n s)
    (hpress : (s.bay n).pressurised = false) : s.countDown n =
      ((s.setBay n (s.bay n).countedDown).withdrawRequest n).zeroingStep n .request := by
  obtain ⟨-, -, hval, -⟩ := id hshort
  have hbay := bay_setBay_self s n (s.bay n).countedDown
  rw [countDown_not_idle (by simp [h]) (by simp [h]) (by simp [h]) hval,
    testShortfall_await_short (by rw [hbay]; exact h) ((countedDown_short hval).mpr hshort) (by rw [hbay]; exact hpress)]

theorem countDown_suspended_short (h : (s.bay n).state = .suspended) (hshort : FallsShort n s)
    (hpress : (s.bay n).pressurised = false) :
    s.countDown n = (s.setBay n (s.bay n).countedDown).zeroingStep n .suspend := by
  obtain ⟨-, -, hval, -⟩ := id hshort
  have hbay := bay_setBay_self s n (s.bay n).countedDown
  rw [countDown_not_idle (by simp [h]) (by simp [h]) (by simp [h]) hval,
    testShortfall_suspended_short (by rw [hbay]; exact h) ((countedDown_short hval).mpr hshort) (by rw [hbay]; exact hpress)]

section

variable (h : (s.bay n).state = .idle)

include h

theorem countDown_idle_lapsing (hval : (s.bay n).validity = 1) (hrun : s.runState ≠ .eStopped) :
    s.countDown n = (s.counted n).enterZeroing n none := by
  have hzero := enterZeroing_state (s.counted n) n none
  rw [countDown_counts (by simp [h]) (by simp [h]) (by omega), if_pos hval,
    lapse_idle (s := s.counted n) (by rw [counted_bay]; exact h) hrun, testShortfall_other (by rw [hzero]; decide) (by rw [hzero]; decide),
    testProactive_not_idle (by rw [hzero]; decide)]

theorem countDown_idle_stopped (hval : 0 < (s.bay n).validity) (hrun : s.runState = .eStopped) :
    s.countDown n = s.counted n := by
  have hidle : ((s.counted n).bay n).state = .idle := by rw [counted_bay]; exact h
  have hlapse : (if (s.bay n).validity = 1 then (s.counted n).lapse n else s.counted n) = s.counted n := by
    split
    · exact lapse_idle_stopped hidle hrun
    · rfl
  rw [countDown_counts (by simp [h]) (by simp [h]) hval, hlapse, testShortfall_other (by simp [hidle]) (by simp [hidle]),
    testProactive_stopped (s := s.counted n) hrun]

theorem countDown_idle (hval : 1 < (s.bay n).validity) : s.countDown n = (s.counted n).testProactive n := by
  have hidle : ((s.counted n).bay n).state = .idle := by rw [counted_bay]; exact h
  rw [countDown_counts (by simp [h]) (by simp [h]) (by omega), if_neg (by omega),
    testShortfall_other (by simp [hidle]) (by simp [hidle])]

end

/-! ## What the count-down leaves of the rest -/

theorem frame_countDown (s : State) (n : BayId) : Frame [.bay n, .requests, .releases] s (s.countDown n) := by
  have hcount : Frame [.bay n, .requests, .releases] s
      (if (s.bay n).validity = 1 then (s.counted n).lapse n else s.counted n) :=
    .ite (fun _ => ((frame_setBay s n _).mono (by simp)).trans ((frame_lapse _ n).mono (by simp)))
      (fun _ => (frame_setBay s n _).mono (by simp))
  by_cases h : (s.bay n).state = .offline ∨ (s.bay n).state = .starting ∨ (s.bay n).validity = 0
  · rw [countDown_stays h]
    exact .refl _ s
  · obtain ⟨hoff, hstart, hval⟩ : (s.bay n).state ≠ .offline ∧ (s.bay n).state ≠ .starting ∧ 0 < (s.bay n).validity :=
      ⟨fun k => h (.inl k), fun k => h (.inr (.inl k)), Nat.pos_of_ne_zero fun k => h (.inr (.inr k))⟩
    rw [countDown_counts hoff hstart hval]
    exact (hcount.trans (frame_testShortfall _ n)).trans ((frame_testProactive _ n).mono (by simp))

theorem zeroingStep_requests (s : State) (n : BayId) (rp : ResumePoint) : (s.zeroingStep n rp).requests = s.requests :=
  (frame_zeroingStep s n rp).requests_eq (by simp)

theorem zeroingStep_releases (s : State) (n : BayId) (rp : ResumePoint) : (s.zeroingStep n rp).releases = s.releases :=
  (frame_zeroingStep s n rp).releases_eq (by simp)

/-- A count-down that does not find a waiting bay short leaves the requests and the releases. -/
theorem countDown_queues_kept (h : ¬((s.bay n).state = .awaitIntensifier ∧ FallsShort n s)) :
    (s.countDown n).requests = s.requests ∧ (s.countDown n).releases = s.releases := by
  by_cases hstays : (s.bay n).state = .offline ∨ (s.bay n).state = .starting ∨ (s.bay n).validity = 0
  · rw [countDown_stays hstays]
    exact ⟨rfl, rfl⟩
  · obtain ⟨hoff, hstart, hval⟩ : (s.bay n).state ≠ .offline ∧ (s.bay n).state ≠ .starting ∧ 0 < (s.bay n).validity :=
      ⟨fun k => hstays (.inl k), fun k => hstays (.inr (.inl k)), Nat.pos_of_ne_zero fun k => hstays (.inr (.inr k))⟩
    by_cases hidle : (s.bay n).state = .idle
    · have hframe : Frame [.bay n] s (s.countDown n) := by
        have hcounted : Frame [.bay n] s (s.counted n) := frame_setBay s n _
        by_cases hrun : s.runState = .eStopped
        · rw [countDown_idle_stopped hidle hval hrun]
          exact hcounted
        · by_cases hone : (s.bay n).validity = 1
          · rw [countDown_idle_lapsing hidle hone hrun]
            exact hcounted.trans (frame_enterZeroing _ n _)
          · rw [countDown_idle hidle (by omega)]
            exact hcounted.trans (frame_testProactive _ n)
      exact ⟨hframe.requests_eq (by simp), hframe.releases_eq (by simp)⟩
    · by_cases hshort : (s.bay n).state = .suspended ∧ FallsShort n s ∧ (s.bay n).pressurised = false
      · obtain ⟨hsuspended, hfalls, hpress⟩ := hshort
        rw [countDown_suspended_short hsuspended hfalls hpress, zeroingStep_requests, zeroingStep_releases]
        exact ⟨rfl, rfl⟩
      · rw [countDown_kept hoff hstart hidle hval (fun ha hf => h ⟨ha, hf⟩) (fun hs => ?_)]
        · exact ⟨rfl, rfl⟩
        · by_cases hf : FallsShort n s
          · exact .inr (by simpa using fun hp => hshort ⟨hs, hf, hp⟩)
          · exact .inl hf

theorem setBay_withdraw_requests (s : State) (n : BayId) (b : Bay) :
    ((s.setBay n b).withdrawRequest n).requests = s.requests.filter (fun r => decide (r.bay ≠ n)) := rfl

/-- A waiting bay that is found short withdraws its request. -/
theorem countDown_queues_short (h : (s.bay n).state = .awaitIntensifier) (hshort : FallsShort n s) :
    (s.countDown n).requests = s.requests.filter (fun r => decide (r.bay ≠ n)) ∧
      s.releases <+: (s.countDown n).releases := by
  cases hpress : (s.bay n).pressurised with
  | true =>
    rw [countDown_await_pressurised h hshort hpress]
    obtain ⟨-, hreq, hrel⟩ := releases_enterReleasing (s.setBay n (s.bay n).countedDown) n (.void .zeroLapsed)
    exact ⟨hreq, hrel ▸ List.prefix_append _ _⟩
  | false =>
    rw [countDown_await_short h hshort hpress, zeroingStep_requests, zeroingStep_releases]
    exact ⟨setBay_withdraw_requests s n _, List.prefix_refl _⟩

end

end Sys2Proof.Machine
end

