-- ==== Sys2Proof/Proofs/LapseRules.lean ====
section
/-! LINE_SECONDS_ADVANCE and ZERO_VALIDITY_LAPSE (R106, R123, R179). -/

-- Proofs are checked one after another: the whole text, compiled as one, would otherwise start more threads than fit into the
-- check's memory.
set_option Elab.async false

namespace Sys2Proof.Machine

/-! ## The count-downs of a list of bays -/

/-- The bays of a list count down, one after another. -/
def State.countDowns (s : State) (l : List BayId) : State := l.foldl (fun t n => t.countDown n) s

/-- The parts the count-downs can change. -/
def countParts : List Part := [.requests, .releases] ++ bayParts

theorem countDowns_cons (s : State) (n : BayId) (l : List BayId) :
    s.countDowns (n :: l) = (s.countDown n).countDowns l := rfl

theorem frame_countDown_all (s : State) (n : BayId) : Frame countParts s (s.countDown n) :=
  (frame_countDown s n).mono (by
    simp only [List.cons_subset, List.nil_subset, and_true]
    exact ⟨List.mem_append_right _ (part_bay_mem n), by decide, by decide⟩)

theorem frame_countDowns (s : State) (l : List BayId) : Frame countParts s (s.countDowns l) := by
  induction l generalizing s with
  | nil => exact .refl _ s
  | cons n rest ih => exact (frame_countDown_all s n).trans (ih _)

theorem countDowns_bay {s : State} {l : List BayId} {n : BayId} (h : n ∉ l) : (s.countDowns l).bay n = s.bay n := by
  induction l generalizing s with
  | nil => rfl
  | cons m rest ih =>
    obtain ⟨hm, hrest⟩ : n ≠ m ∧ n ∉ rest := by simpa using h
    exact (ih hrest).trans ((frame_countDown s m).bay_eq (by simpa using hm))

theorem fallsShort_congr {s t : State} {n : BayId} (h : Frame countParts s t) (hbay : t.bay n = s.bay n) :
    FallsShort n t ↔ FallsShort n s := by
  have hparams : t.bayParams n = s.bayParams n :=
    bayParams_congr (by rw [hbay]) fun _ => h.entry_eq (by simp [countParts, bayParts])
  have hwork : t.work = s.work := h.work_eq (by decide)
  have hallow (p : Params) : t.allowance p = s.allowance p := by rw [State.allowance, State.allowance, hwork]
  simp only [FallsShort, hparams, hbay, hallow]

theorem oldValidity_frame {s t : State} {n : BayId} {v : Nat} (h : Frame countParts s t) :
    OldValidity n v t ↔ OldValidity n v s := by
  have hbare : (t.lane (laneOf n)).bare.queue = (s.lane (laneOf n)).bare.queue := by
    rw [h.lane_bare_eq (by cases laneOf n <;> decide)]
  exact oldValidity_congr hbare (h.work_eq (by decide))

/-! ## The queues -/

theorem countDown_requests_sublist (s : State) (n : BayId) : (s.countDown n).requests.Sublist s.requests := by
  by_cases h : (s.bay n).state = .awaitIntensifier ∧ FallsShort n s
  · rw [(countDown_queues_short h.1 h.2).1]
    exact List.filter_sublist
  · rw [(countDown_queues_kept h).1]

theorem countDowns_requests_sublist (s : State) (l : List BayId) : (s.countDowns l).requests.Sublist s.requests := by
  induction l generalizing s with
  | nil => exact List.Sublist.refl _
  | cons n rest ih => exact (ih _).trans (countDown_requests_sublist s n)

theorem countDown_releases_prefix (s : State) (n : BayId) : s.releases <+: (s.countDown n).releases := by
  by_cases h : (s.bay n).state = .awaitIntensifier ∧ FallsShort n s
  · exact (countDown_queues_short h.1 h.2).2
  · rw [(countDown_queues_kept h).2]

theorem countDowns_releases_prefix (s : State) (l : List BayId) : s.releases <+: (s.countDowns l).releases := by
  induction l generalizing s with
  | nil => exact List.prefix_refl _
  | cons n rest ih => exact (countDown_releases_prefix s n).trans (ih _)

theorem mem_countDown_requests {s : State} {n : BayId} {r : Request} (hr : r ∈ s.requests)
    (h : r.bay = n → ¬((s.bay n).state = .awaitIntensifier ∧ FallsShort n s)) : r ∈ (s.countDown n).requests := by
  by_cases hshort : (s.bay n).state = .awaitIntensifier ∧ FallsShort n s
  · rw [(countDown_queues_short hshort.1 hshort.2).1]
    exact List.mem_filter.mpr ⟨hr, decide_eq_true fun k => h k hshort⟩
  · rwa [(countDown_queues_kept hshort).1]

/-- Only a waiting bay that is found short loses its request. -/
theorem mem_countDowns_requests {l : List BayId} (hl : l.Nodup) {s : State} {r : Request} (hr : r ∈ s.requests)
    (h : ¬((s.bay r.bay).state = .awaitIntensifier ∧ FallsShort r.bay s)) : r ∈ (s.countDowns l).requests := by
  have hall (l : List BayId) (hl : l.Nodup) (s : State) (hr : r ∈ s.requests)
      (h : r.bay ∈ l → ¬((s.bay r.bay).state = .awaitIntensifier ∧ FallsShort r.bay s)) :
      r ∈ (s.countDowns l).requests := by
    induction l generalizing s with
    | nil => exact hr
    | cons n rest ih =>
      obtain ⟨hn, hrest⟩ := List.nodup_cons.mp hl
      refine ih hrest _ (mem_countDown_requests hr fun heq => ?_) fun hmem => ?_
      · subst heq
        exact h List.mem_cons_self
      · have hne : r.bay ≠ n := fun heq => hn (heq ▸ hmem)
        have hbay : (s.countDown n).bay r.bay = s.bay r.bay := (frame_countDown s n).bay_eq (by simpa using hne)
        rw [hbay, fallsShort_congr (frame_countDown_all s n) hbay]
        exact h (List.mem_cons_of_mem _ hmem)
  exact hall l hl s hr fun _ => h

/-! ## One bay's turn -/

/-- The line seconds have advanced, before the bays count down (R179). -/
def State.advanced (s : State) : State := { s with lineSeconds := s.lineSeconds + 1#32 }.headerEdit

theorem advance_eq (s : State) : s.advance = s.advanced.countDowns allBays := rfl

/-- What bay `n` finds in the state `v` in which its turn comes, as the line seconds advance from `s`, and what the end `t` of
the event shows of it. -/
structure Turn (n : BayId) (s t v : State) : Prop where
  bay : v.bay n = s.bay n
  run : v.runState = s.runState
  after : ∀ k, v.after k = t.after k
  falls : FallsShort n v ↔ FallsShort n s
  old : ∀ x, OldValidity n x v ↔ OldValidity n x s
  gives : (t.bay n).bare = ((v.countDown n).bay n).bare
  kept : (v.countDown n).bay n = s.bay n → t.bay n = s.bay n
  requests : t.requests.Sublist (v.countDown n).requests

theorem countDowns_turn {s t : State} (h : Ends s s.advance.drainTest t) (n : BayId) : ∃ v, Turn n s t v := by
  obtain ⟨before, behind, -, -, hbefore, hbehind, -, hsplit⟩ := forBays_split (fun n t => t.countDown n) n
  have hwhole : s.advance = ((s.advanced.countDowns before).countDown n).countDowns behind := hsplit s.advanced
  have hframe : Frame countParts s.advanced (s.advanced.countDowns before) := frame_countDowns _ _
  have hall : Frame countParts s.advanced s.advance := frame_countDowns _ _
  have hbay : (s.advanced.countDowns before).bay n = s.bay n := countDowns_bay (s := s.advanced) hbefore
  have hend : s.advance.drainTest.bay n = ((s.advanced.countDowns before).countDown n).bay n := by
    rw [drainTest_bay, hwhole]
    exact countDowns_bay hbehind
  refine ⟨s.advanced.countDowns before, hbay, hframe.runState_eq (by decide), fun k => ?_, ?_, fun x => ?_, ?_,
    fun hk => h.kept n (hend.trans hk), ?_⟩
  · rw [h.after, (frame_drainTest _).after_eq (by simp), hall.after_eq (by decide), hframe.after_eq (by decide)]
  · exact (fallsShort_congr hframe hbay).trans Iff.rfl
  · exact (oldValidity_frame hframe).trans Iff.rfl
  · rw [h.bay, hend]
  · rw [h.requests, drainTest_requests, hwhole]
    exact countDowns_requests_sublist _ _

section

variable {n : BayId} {s t v : State} (h : Turn n s t v)

include h

theorem Turn.stays (hs : (s.bay n).state = .offline ∨ (s.bay n).state = .starting ∨ (s.bay n).validity = 0) :
    t.bay n = s.bay n :=
  h.kept (by rw [countDown_stays (by rwa [h.bay]), h.bay])

theorem Turn.idle_lapsing (hidle : (s.bay n).state = .idle) (hval : (s.bay n).validity = 1)
    (hrun : s.runState ≠ .eStopped) : (t.bay n).bare =
      (({ s.bay n with validity := (s.bay n).validity - 1 } : Bay).checking none (t.after 40)).bare := by
  have hrun' : (v.counted n).stopped = false := stopped_eq_false (s := v.counted n) (h.run ▸ hrun)
  rw [h.gives, countDown_idle_lapsing (by rwa [h.bay]) (by rwa [h.bay]) (h.run ▸ hrun), enterZeroing_bay n none hrun',
    counted_bay, h.bay, ← h.after]
  rfl

theorem counted_proactive_old (x : Nat) :
    (v.counted n).lowLane n = true ∧ x * 2 < (v.counted n).work.zeroInterval ↔ OldValidity n x s := by
  rw [← h.old, lowLane_iff, OldValidity]
  rfl

theorem Turn.idle_old (hidle : (s.bay n).state = .idle) (hval : 1 < (s.bay n).validity)
    (hrun : s.runState ≠ .eStopped) (hold : OldValidity n ((s.bay n).validity - 1) s) : (t.bay n).bare =
      (({ s.bay n with validity := (s.bay n).validity - 1 } : Bay).checking none (t.after 40)).bare := by
  obtain ⟨hlow, hint⟩ := (counted_proactive_old h _).mpr hold
  rw [h.gives, countDown_idle (by rwa [h.bay]) (by rwa [h.bay]),
    testProactive_bay (s := v.counted n) (h.run ▸ hrun), if_pos rfl, counted_bay, h.bay,
    proactively_checks (b := { s.bay n with validity := (s.bay n).validity - 1 }) hidle hlow hint, ← h.after]
  rfl

theorem Turn.idle_young (hidle : (s.bay n).state = .idle) (hval : 1 < (s.bay n).validity)
    (hrun : s.runState ≠ .eStopped) (hold : ¬OldValidity n ((s.bay n).validity - 1) s) :
    (t.bay n).bare = ({ s.bay n with validity := (s.bay n).validity - 1 } : Bay).bare := by
  rw [h.gives, countDown_idle (by rwa [h.bay]) (by rwa [h.bay]),
    testProactive_bay (s := v.counted n) (h.run ▸ hrun), if_pos rfl, counted_bay, h.bay,
    proactively_stays (.inr (by rwa [counted_proactive_old h _]))]

theorem Turn.idle_stopped (hidle : (s.bay n).state = .idle) (hval : 0 < (s.bay n).validity)
    (hrun : s.runState = .eStopped) :
    (t.bay n).bare = ({ s.bay n with validity := (s.bay n).validity - 1 } : Bay).bare := by
  rw [h.gives, countDown_idle_stopped (by rwa [h.bay]) (by rwa [h.bay]) (h.run.trans hrun), counted_bay, h.bay]

theorem Turn.counted (hoff : (s.bay n).state ≠ .offline) (hstart : (s.bay n).state ≠ .starting)
    (hidle : (s.bay n).state ≠ .idle) (hval : 0 < (s.bay n).validity)
    (hawait : (s.bay n).state = .awaitIntensifier → ¬FallsShort n s)
    (hsuspended : (s.bay n).state = .suspended → ¬FallsShort n s ∨ (s.bay n).pressurised = true) :
    (t.bay n).bare = (s.bay n).countedDown.bare := by
  rw [h.gives, countDown_kept (by rwa [h.bay]) (by rwa [h.bay]) (by rwa [h.bay]) (by rwa [h.bay])
    (by rwa [h.bay, h.falls]) (by rwa [h.bay, h.falls]), bay_setBay_self, h.bay]

theorem Turn.await_pressurised (hstate : (s.bay n).state = .awaitIntensifier) (hshort : FallsShort n s)
    (hpress : (s.bay n).pressurised = true) :
    (t.bay n).bare = ((s.bay n).countedDown.releasing (.void .zeroLapsed) (t.after 60)).bare ∧
      ∀ r ∈ t.requests, r.bay ≠ n := by
  have hcount := countDown_await_pressurised (by rwa [h.bay]) (h.falls.mpr hshort) (by rwa [h.bay])
  refine ⟨?_, fun r hr => ?_⟩
  · rw [h.gives, hcount, enterReleasing_bay, bay_setBay_self, h.bay, ← h.after]
    rfl
  · have hmem := h.requests.subset hr
    rw [hcount, enterReleasing_requests] at hmem
    exact of_decide_eq_true (List.mem_filter.mp hmem).2

theorem Turn.await_short (hstate : (s.bay n).state = .awaitIntensifier) (hshort : FallsShort n s)
    (hpress : (s.bay n).pressurised = false) (hrun : s.runState ≠ .eStopped) : (t.bay n).bare =
      { (s.bay n).countedDown.checking (some .request) (t.after 40) with requested := false }.bare ∧
      ∀ r ∈ t.requests, r.bay ≠ n := by
  have hcount := countDown_await_short (by rwa [h.bay]) (h.falls.mpr hshort) (by rwa [h.bay])
  have hrun' : v.runState ≠ .eStopped := h.run ▸ hrun
  refine ⟨?_, fun r hr => ?_⟩
  · rw [h.gives, hcount, zeroingStep_running (s := (v.setBay n _).withdrawRequest n) hrun',
      enterZeroing_bay n _ (stopped_eq_false (s := (v.setBay n _).withdrawRequest n) hrun'), withdrawRequest_bay, if_pos rfl,
      bay_setBay_self, h.bay, ← h.after]
    rfl
  · have hmem := h.requests.subset hr
    rw [hcount, zeroingStep_requests] at hmem
    exact withdrawRequest_gone _ n r hmem

theorem Turn.suspended_short (hstate : (s.bay n).state = .suspended) (hshort : FallsShort n s)
    (hpress : (s.bay n).pressurised = false) (hrun : s.runState ≠ .eStopped) :
    (t.bay n).bare = ((s.bay n).countedDown.checking (some .suspend) (t.after 40)).bare := by
  have hrun' : v.runState ≠ .eStopped := h.run ▸ hrun
  rw [h.gives, countDown_suspended_short (by rwa [h.bay]) (h.falls.mpr hshort) (by rwa [h.bay]),
    zeroingStep_running (s := v.setBay n _) hrun', enterZeroing_bay n _ (stopped_eq_false (s := v.setBay n _) hrun'),
    bay_setBay_self, h.bay, ← h.after]
  rfl

end

/-! ## The validity after a count-down -/

theorem enterZeroing_validity (s : State) (n : BayId) (rp : Option ResumePoint) :
    ((s.enterZeroing n rp).bay n).validity = (s.bay n).validity := by
  unfold State.enterZeroing
  dsimp only
  split <;> simp [State.beginCheck, Bay.zeroed, Bay.enter]

theorem zeroingStep_validity (s : State) (n : BayId) (rp : ResumePoint) :
    ((s.zeroingStep n rp).bay n).validity = (s.bay n).validity := by
  unfold State.zeroingStep
  split
  · simp [State.keepStep]
  · exact enterZeroing_validity s n _

theorem testShortfall_validity (s : State) (n : BayId) : ((s.testShortfall n).bay n).validity = (s.bay n).validity := by
  unfold State.testShortfall
  split
  · split
    · split
      · rw [enterReleasing_bay]
        rfl
      · rw [zeroingStep_validity, withdrawRequest_bay, if_pos rfl]
    · split
      · rfl
      · exact zeroingStep_validity s n _
    · rfl
  · rfl

theorem countDown_validity {s : State} {n : BayId} (hoff : (s.bay n).state ≠ .offline)
    (hstart : (s.bay n).state ≠ .starting) : ((s.countDown n).bay n).validity = (s.bay n).validity - 1 := by
  by_cases hval : (s.bay n).validity = 0
  · rw [countDown_stays (.inr (.inr hval)), hval]
  · have hpos := Nat.pos_of_ne_zero hval
    by_cases hidle : (s.bay n).state = .idle
    · by_cases hrun : s.runState = .eStopped
      · rw [countDown_idle_stopped hidle hpos hrun, counted_bay]
      · by_cases hone : (s.bay n).validity = 1
        · rw [countDown_idle_lapsing hidle hone hrun, enterZeroing_validity, counted_bay]
        · rw [countDown_idle hidle (by omega)]
          unfold State.testProactive
          split
          · rw [enterZeroing_validity, counted_bay]
          · rw [counted_bay]
    · rw [countDown_not_idle hoff hstart hidle hpos, testShortfall_validity, bay_setBay_self]
      rfl

end Sys2Proof.Machine
end

