-- ==== Sys2Proof/Proofs/LineSeconds.lean ====
section
/-! LINE_SECONDS_ADVANCE and ZERO_VALIDITY_LAPSE, settled (R106, R123, R179). -/

-- Proofs are checked one after another: the whole text, compiled as one, would otherwise start more threads than fit into the
-- check's memory.
set_option Elab.async false

namespace Sys2Proof.Machine

/-! ## When an attempt is open (R106) -/

section

variable {b : Bay}

theorem attemptOpen_attempt (h : b.state = .awaitIntensifier ∨ b.state = .pressurising ∨ b.state = .holding ∨
    b.state = .suspended ∨ b.state = .releasing) : b.attemptOpen = true := by
  unfold Bay.attemptOpen
  rcases h with h | h | h | h | h <;> rw [h]

theorem attemptOpen_filling (h : b.state = .filling ∨ b.state = .settling) : b.attemptOpen = b.kept.isNone := by
  unfold Bay.attemptOpen
  rcases h with h | h <;> rw [h]

theorem attemptOpen_zeroing (h : b.state = .zeroing) : b.attemptOpen =
    decide (b.resume = some ResumePoint.request ∨ b.resume = some ResumePoint.suspend) := by
  unfold Bay.attemptOpen
  rw [h, Bool.decide_or]

theorem attemptOpen_fault (h : b.state = .fault) : b.attemptOpen = b.releaseCause.isSome := by
  unfold Bay.attemptOpen
  rw [h]

theorem attemptOpen_none (h : b.state = .starting ∨ b.state = .idle ∨ b.state = .loading ∨ b.state = .unloading ∨
    b.state = .offline) : b.attemptOpen = false := by
  unfold Bay.attemptOpen
  rcases h with h | h | h | h | h <;> rw [h]

/-- Outside the states whose attempt is open by the state alone. -/
theorem attemptOpen_iff (h : b.state = .filling ∨ b.state = .settling ∨ b.state = .zeroing ∨ b.state = .fault) :
    b.attemptOpen = true ↔ b.attemptUnended := by
  unfold Bay.attemptUnended Bay.openCheck
  rcases h with h | h | h | h
  · rw [attemptOpen_filling (.inl h)]
    simp [h]
  · rw [attemptOpen_filling (.inr h)]
    simp [h]
  · rw [attemptOpen_zeroing h]
    simp [h]
  · rw [attemptOpen_fault h]
    simp [h]

theorem attemptUnended_state (h : b.attemptUnended) :
    b.state = .filling ∨ b.state = .settling ∨ b.state = .zeroing ∨ b.state = .fault := by
  unfold Bay.attemptUnended Bay.openCheck at h
  tauto

theorem countedDown_eq {o : Bool} (h : b.attemptOpen = o) : b.countedDown =
    { b with validity := b.validity - 1, lapsed := b.lapsed || (decide (b.validity = 1) && o) } := by
  subst h
  rfl

theorem countedDown_open (h : b.attemptOpen = true) : b.countedDown =
    { b with validity := b.validity - 1, lapsed := b.lapsed || decide (b.validity = 1) } := by
  rw [countedDown_eq h, Bool.and_true]

theorem countedDown_closed (h : b.attemptOpen = false) : b.countedDown = { b with validity := b.validity - 1 } := by
  rw [countedDown_eq h, Bool.and_false, Bool.or_false]

end

/-! ## The turn of a bay, by its state -/

section

variable {n : BayId} {s t v : State} (h : Turn n s t v)

include h

/-- A bay whose state the comparison of R98 does not concern. -/
theorem Turn.plain {st : BayState} (hstate : (s.bay n).state = st)
    (hst : st ≠ .offline ∧ st ≠ .starting ∧ st ≠ .idle ∧ st ≠ .awaitIntensifier ∧ st ≠ .suspended)
    (hval : 0 < (s.bay n).validity) : (t.bay n).bare = (s.bay n).countedDown.bare := by
  obtain ⟨hoff, hstart, hidle, hawait, hsuspended⟩ := hst
  subst hstate
  exact h.counted hoff hstart hidle hval (absurd · hawait) (absurd · hsuspended)

theorem Turn.validity (hoff : (s.bay n).state ≠ .offline) (hstart : (s.bay n).state ≠ .starting) :
    (t.bay n).validity = (s.bay n).validity - 1 := by
  have hcount := countDown_validity (s := v) (n := n) (by rwa [h.bay]) (by rwa [h.bay])
  rw [h.bay] at hcount
  exact Eq.trans congr(Bay.validity $(h.gives)) hcount

theorem Turn.under_pressure (hstate : (s.bay n).state = .pressurising ∨ (s.bay n).state = .holding ∨
    (s.bay n).state = .releasing) (hval : 0 < (s.bay n).validity) : (t.bay n).bare =
      { s.bay n with
        validity := (s.bay n).validity - 1
        lapsed := (s.bay n).lapsed || decide ((s.bay n).validity = 1) }.bare := by
  have hopen : (s.bay n).attemptOpen = true := attemptOpen_attempt (by tauto)
  rw [← countedDown_open hopen]
  rcases hstate with hs | hs | hs <;> exact h.plain hs (by simp) hval

theorem Turn.by_report (hstate : (s.bay n).state = .filling ∨ (s.bay n).state = .settling)
    (hval : 0 < (s.bay n).validity) : (t.bay n).bare = (s.bay n).countedDown.bare := by
  rcases hstate with hs | hs <;> exact h.plain hs (by simp) hval

theorem Turn.between (hstate : (s.bay n).state = .loading ∨ (s.bay n).state = .unloading)
    (hval : 0 < (s.bay n).validity) :
    (t.bay n).bare = ({ s.bay n with validity := (s.bay n).validity - 1 } : Bay).bare := by
  rw [← countedDown_closed (attemptOpen_none (by tauto))]
  rcases hstate with hs | hs <;> exact h.plain hs (by simp) hval

theorem Turn.enough (hstate : (s.bay n).state = .awaitIntensifier ∧ ¬FallsShort n s ∨
    (s.bay n).state = .suspended ∧ (¬FallsShort n s ∨ (s.bay n).pressurised = true)) (hval : 0 < (s.bay n).validity) :
    (t.bay n).bare = (s.bay n).countedDown.bare := by
  rcases hstate with ⟨hs, hfalls⟩ | ⟨hs, hkept⟩
  · exact h.counted (by simp [hs]) (by simp [hs]) (by simp [hs]) hval (fun _ => hfalls) (fun k => by simp [hs] at k)
  · exact h.counted (by simp [hs]) (by simp [hs]) (by simp [hs]) hval (fun k => by simp [hs] at k) (fun _ => hkept)

end

theorem fallsShort_of {s : State} {n : BayId} {p : Params} (hp : s.bayParams n = some p) (hval : 0 < (s.bay n).validity)
    (hle : (s.bay n).validity ≤ s.allowance p) : FallsShort n s := ⟨p, hp, hval, hle⟩

/-! ## The advance as a whole -/

theorem frame_advanced (s : State) : Frame [.lineSeconds] s s.advanced := by
  intro p hp
  cases p
  case lineSeconds => simp at hp
  case store => exact .of_mem_eq rfl
  all_goals first
    | rfl
    | exact ⟨rfl, rfl⟩
    | exact ⟨rfl, rfl, rfl⟩
    | exact ⟨rfl, rfl, rfl, rfl⟩

theorem frame_advance (s : State) : Frame ([.runState, .lineSeconds, .requests, .releases] ++ bayParts) s
    s.advance.drainTest :=
  (((frame_advanced s).mono (by decide)).trans ((frame_countDowns _ _).mono (subset_bays (by decide)))).trans
    ((frame_drainTest _).mono (by decide))

theorem advance_runState (s : State) : s.advance.runState = s.runState :=
  (frame_countDowns s.advanced allBays).runState_eq (by decide)

theorem advance_lineSeconds (s : State) : s.advance.drainTest.lineSeconds = s.lineSeconds + 1#32 :=
  ((frame_drainTest _).lineSeconds_eq (by simp)).trans
    ((frame_countDowns s.advanced allBays).lineSeconds_eq (by decide))

/-! ## ZERO_VALIDITY_LAPSE (R123) -/

section

variable {n : BayId} {s : State}

theorem lapse_nothing (h : s.lapseAtZero n = s) : Gives (.zeroValidityLapse n) s (Frame [] s) := by
  obtain ⟨t, hx, hframe, -⟩ := event_ends (c := .zeroValidityLapse n) (L := []) (exec_effect rfl)
    (show Frame [] s (s.lapseAtZero n) by rw [h]; exact .refl _ s)
  exact ⟨t, hx, hframe⟩

theorem lapse_gives {b : Bay} (h : s.lapseAtZero n = s.setBay n b) : Gives (.zeroValidityLapse n) s fun t =>
    (t.bay n).bare = b.bare ∧ Frame [.bay n] s t := by
  obtain ⟨t, hx, hframe, hends⟩ := event_ends (c := .zeroValidityLapse n) (L := [.bay n]) (exec_effect rfl)
    (show Frame [.bay n] s (s.lapseAtZero n) by rw [h]; exact frame_setBay s n b)
  exact ⟨t, hx, hends.bay_of_eq (by rw [h, bay_setBay_self]), hframe⟩

theorem lapseAtZero_valid (h : (s.bay n).validity ≠ 0) : s.lapseAtZero n = s := if_neg h

theorem lapseAtZero_zero (h : (s.bay n).validity = 0) : s.lapseAtZero n = s.lapse n := if_pos h

theorem lapseAtZero_of_lapse (h : s.lapse n = s) : s.lapseAtZero n = s := by
  unfold State.lapseAtZero
  rw [h, ite_self]

theorem lapse_idle_gives (hval : (s.bay n).validity = 0) (hidle : (s.bay n).state = .idle) (hrun : s.runState ≠ .eStopped) :
    Gives (.zeroValidityLapse n) s fun t => Checks n none s t ∧ Frame [.bay n] s t := by
  have hlapse : s.lapseAtZero n = s.enterZeroing n none := (lapseAtZero_zero hval).trans (lapse_idle hidle hrun)
  obtain ⟨t, hx, hframe, hends⟩ := event_ends (c := .zeroValidityLapse n) (L := [.bay n]) (exec_effect rfl)
    (show Frame [.bay n] s (s.lapseAtZero n) by rw [hlapse]; exact frame_enterZeroing s n none)
  exact ⟨t, hx, hends.bay_of_eq (by rw [hlapse, enterZeroing_bay n none (stopped_eq_false hrun)]), hframe⟩

end

/-- Settles O43. -/
theorem lineSecondsAndLapse : Obligations.LineSecondsAndLapse := by
  refine ⟨fun s => ?_, fun n s => ⟨fun hval => ?_, fun hval hidle hrun => ?_, fun hval hstate => ?_,
    fun hval hopen => ?_, fun hstate hended => ?_, fun hstate => ?_⟩⟩
  · obtain ⟨t, hx, hframe, hends⟩ := event_ends (c := .lineSecondsAdvance) (exec_effect rfl) (frame_advance s)
    have hturn := countDowns_turn hends
    refine ⟨t, hx, hends.seconds.trans (advance_lineSeconds s), hends.drainTested (advance_runState s), fun n => ?_,
      ⟨?_, fun r hr hshort => ?_⟩, ?_, hframe⟩
    · obtain ⟨v, h⟩ := hturn n
      refine ⟨h.stays, h.validity, h.idle_lapsing, fun hidle hval hrun => ⟨h.idle_old hidle hval hrun,
        h.idle_young hidle hval hrun⟩, h.idle_stopped, h.under_pressure, fun hs hval => ?_, fun hs hval => ?_,
        fun hs hval => ?_, h.between, fun hs hval => ?_, fun p hp hs hval hle => ⟨fun hpress => ?_, fun hpress hrun => ?_⟩,
        fun p hp hs hval hle hpress hrun => ?_⟩
      · rw [h.by_report hs hval, countedDown_eq (attemptOpen_filling hs)]
      · rw [h.plain hs (by simp) hval, countedDown_eq (attemptOpen_zeroing hs)]
      · rw [h.plain hs (by simp) hval, countedDown_eq (attemptOpen_fault hs)]
      · rw [h.enough hs hval, countedDown_eq (attemptOpen_attempt (by tauto))]
      · obtain ⟨hbay, hgone⟩ := h.await_pressurised hs (fallsShort_of hp hval hle) hpress
        rw [countedDown_eq (attemptOpen_attempt (.inl hs))] at hbay
        exact ⟨congr(Bay.state $hbay), congr(Bay.releaseCause $hbay), hbay, hgone⟩
      · obtain ⟨hbay, hgone⟩ := h.await_short hs (fallsShort_of hp hval hle) hpress hrun
        rw [countedDown_eq (attemptOpen_attempt (.inl hs))] at hbay
        exact ⟨congr(Bay.state $hbay), congr(Bay.resume $hbay), hbay, hgone⟩
      · rw [h.suspended_short hs (fallsShort_of hp hval hle) hpress hrun,
          countedDown_eq (attemptOpen_attempt (by tauto))]
    · rw [hends.requests, drainTest_requests]
      exact countDowns_requests_sublist s.advanced allBays
    · rw [hends.requests, drainTest_requests]
      exact mem_countDowns_requests (s := s.advanced) (by decide) hr hshort
    · rw [hends.releases, drainTest_releases]
      exact countDowns_releases_prefix s.advanced allBays
  · exact lapse_nothing (lapseAtZero_valid hval)
  · exact lapse_idle_gives hval hidle hrun
  · exact lapse_gives ((lapseAtZero_zero hval).trans (lapse_open (by rcases hstate with h | h | h | h | h <;> simp [h])
      (attemptOpen_attempt hstate)))
  · have hstate := attemptUnended_state hopen
    exact lapse_gives ((lapseAtZero_zero hval).trans (lapse_open (by rcases hstate with h | h | h | h <;> simp [h])
      ((attemptOpen_iff hstate).mpr hopen)))
  · refine lapse_nothing (lapseAtZero_of_lapse (lapse_closed (by rcases hstate with h | h | h | h <;> simp [h]) ?_))
    simpa using (not_congr (attemptOpen_iff hstate)).mpr hended
  · refine lapse_nothing (lapseAtZero_of_lapse ?_)
    rcases hstate with h | h | h | h | ⟨h, hrun⟩
    · exact lapse_closed (by simp [h]) (attemptOpen_none (by tauto))
    · exact lapse_closed (by simp [h]) (attemptOpen_none (by tauto))
    · exact lapse_closed (by simp [h]) (attemptOpen_none (by tauto))
    · exact lapse_closed (by simp [h]) (attemptOpen_none (by tauto))
    · exact lapse_idle_stopped h hrun

end Sys2Proof.Machine
end

