-- ==== Sys2Proof/Proofs/LaneRules.lean ====
section
/-! A lane's shared steps: the action on its head (R72), an item that joins its queue (R68), and the occupancy report with the
permits that follows (R68, R71, R129). -/

-- Proofs are checked one after another: the whole text, compiled as one, would otherwise start more threads than fit into the
-- check's memory.
set_option Elab.async false

namespace Sys2Proof.Machine

/-! ## The action on the head (R72) -/

section

variable {s : State} {l : LaneId} {i : RosterIndex}

theorem headAction_empty (h : (s.lane l).queue = []) : s.headAction l = s := by
  unfold State.headAction
  rw [h]

theorem headAction_marker (h : (s.lane l).queue.head? = some .marker) : s.headAction l = s.claimForLane l := by
  obtain ⟨rest, hqueue⟩ := List.head?_eq_some_iff.mp h
  unfold State.headAction
  rw [hqueue]

theorem headAction_awaiting (h : (s.lane l).queue.head? = some (.entry i)) (hstate : (s.entry i).state = .awaitingNote) :
    s.headAction l = s.startNoteWait l := by
  obtain ⟨rest, hqueue⟩ := List.head?_eq_some_iff.mp h
  unfold State.headAction
  rw [hqueue]
  dsimp only
  rw [hstate]

theorem headAction_settled (h : (s.lane l).queue.head? = some (.entry i)) (hawait : (s.entry i).state ≠ .awaitingNote)
    (hqueued : (s.entry i).state ≠ .queued) : s.headAction l = s := by
  obtain ⟨rest, hqueue⟩ := List.head?_eq_some_iff.mp h
  unfold State.headAction
  rw [hqueue]
  dsimp only
  cases hstate : (s.entry i).state with
  | awaitingNote => exact absurd hstate hawait
  | queued => exact absurd hstate hqueued
  | free | testing | outbound | done => rfl

theorem startNoteWait_lane (s : State) (l : LaneId) : (s.startNoteWait l).lane l =
    { s.lane l with noteWait := some ⟨s.work.noteWaitLimit, s.after s.work.noteWaitLimit⟩ } := by cases l <;> rfl

theorem startNoteWait_claims (s : State) (l : LaneId) : (s.startNoteWait l).claims = s.claims := by cases l <;> rfl

theorem claimForLane_lane (s : State) (l m : LaneId) : (s.claimForLane l).lane m = s.lane m := by
  unfold State.claimForLane
  split <;> rfl

end

/-! ## An item joins the queue (R68) -/

/-- The queue with an item at its tail. -/
def State.lengthened (s : State) (l : LaneId) (item : Item) : State :=
  s.setLane l { s.lane l with queue := (s.lane l).queue ++ [item] }

section

variable {s : State} {l : LaneId}

theorem lengthened_lane (s : State) (l : LaneId) (item : Item) :
    (s.lengthened l item).lane l = { s.lane l with queue := (s.lane l).queue ++ [item] } := by
  rw [State.lengthened, lane_setLane, if_pos rfl]

theorem enqueue_behind (item : Item) (h : (s.lane l).queue ≠ []) : s.enqueue l item = s.lengthened l item := by
  unfold State.enqueue
  exact if_neg (by simpa using h)

theorem enqueue_head (item : Item) (h : (s.lane l).queue = []) : s.enqueue l item = (s.lengthened l item).headAction l := by
  unfold State.enqueue
  exact if_pos (by simp [h])

theorem lengthened_head (item : Item) (h : (s.lane l).queue = []) :
    ((s.lengthened l item).lane l).queue.head? = some item := by
  rw [lengthened_lane, h]
  rfl

theorem frame_lengthened (s : State) (l : LaneId) (item : Item) : Frame [.lane l] s (s.lengthened l item) :=
  frame_setLane s l _

theorem frame_enqueue (s : State) (l : LaneId) (item : Item) : Frame [.lane l, .claims] s (s.enqueue l item) := by
  have hlong := (frame_lengthened s l item).mono (M := [.lane l, .claims]) (by simp)
  by_cases h : (s.lane l).queue = []
  · rw [enqueue_head item h]
    exact hlong.trans (frame_headAction _ l)
  · rw [enqueue_behind item h]
    exact hlong

theorem lengthened_claims (s : State) (l : LaneId) (item : Item) : (s.lengthened l item).claims = s.claims := by
  cases l <;> rfl

theorem lengthened_work (s : State) (l : LaneId) (item : Item) : (s.lengthened l item).work = s.work := by cases l <;> rfl

theorem lengthened_after (s : State) (l : LaneId) (item : Item) (k : Nat) :
    (s.lengthened l item).after k = s.after k := by cases l <;> rfl

theorem lengthened_entry (s : State) (l : LaneId) (item : Item) (i : RosterIndex) :
    (s.lengthened l item).entry i = s.entry i := by cases l <;> rfl

/-- An entry that joins an empty queue and waits for its note. -/
theorem enqueue_awaiting {i : RosterIndex} (h : (s.lane l).queue = []) (hstate : (s.entry i).state = .awaitingNote) :
    (s.enqueue l (.entry i)).lane l = { s.lane l with
      queue := [.entry i], noteWait := some ⟨s.work.noteWaitLimit, s.after s.work.noteWaitLimit⟩ } ∧
      (s.enqueue l (.entry i)).claims = s.claims := by
  rw [enqueue_head _ h, headAction_awaiting (lengthened_head _ h) (by rwa [lengthened_entry]), startNoteWait_lane,
    startNoteWait_claims, lengthened_claims, lengthened_lane, lengthened_work, lengthened_after, h]
  exact ⟨rfl, rfl⟩

/-- A QUEUED entry that joins an empty queue. -/
theorem enqueue_queued {i : RosterIndex} (h : (s.lane l).queue = []) (hstate : (s.entry i).state = .queued)
    (hroute : (s.entry i).route = some .test ∨ (s.entry i).route = some .hold ∨ (s.entry i).route = some .passThrough ∨
      (s.entry i).route = some .deface) :
    (s.enqueue l (.entry i)).lane l = { s.lane l with queue := [.entry i], noteWait := none } ∧
      ((s.entry i).route = some .test → (s.enqueue l (.entry i)).claims = s.claims) ∧
      ((s.entry i).route ≠ some .test → (s.lane l).state = .normal → Claimed (.lane l) s (s.enqueue l (.entry i))) := by
  have hqueued : ((s.lengthened l (.entry i)).entry i).state = .queued := by rwa [lengthened_entry]
  obtain ⟨hkept, hclaimed⟩ := headAction_queued_claims (lengthened_head (.entry i) h) hqueued (by rwa [lengthened_entry])
  rw [lengthened_entry, lengthened_claims] at hkept
  rw [lengthened_entry, lengthened_lane, Claimed, lengthened_claims] at hclaimed
  rw [enqueue_head _ h]
  refine ⟨?_, fun htest => hkept (.inl htest), hclaimed⟩
  rw [headAction_queued_lane (lengthened_head (.entry i) h) hqueued, lengthened_lane, h]
  rfl

/-- The marker that joins an empty queue of a NORMAL lane. -/
theorem enqueue_marker (h : (s.lane l).queue = []) (hnormal : (s.lane l).state = .normal) :
    (s.enqueue l .marker).lane l = { s.lane l with queue := [.marker] } ∧
      Claimed (.lane l) s (s.enqueue l .marker) := by
  rw [enqueue_head _ h, headAction_marker (lengthened_head _ h), claimForLane_normal (by rwa [lengthened_lane])]
  refine ⟨?_, ?_⟩
  · rw [placeClaim_lane, lengthened_lane, h]
    rfl
  · have hclaimed := claimed_placeClaim (s.lengthened l .marker) (.lane l)
    rwa [Claimed, lengthened_claims] at hclaimed

/-- The queue after an item has joined it. -/
theorem enqueue_queue (item : Item) :
    ((s.enqueue l item).lane l).queue = (s.lane l).queue ++ [item] := by
  have hhead (t : State) : ((t.headAction l).lane l).queue = (t.lane l).queue := by
    have hclaim (v : State) : (v.claimForLane l).lane l = v.lane l := claimForLane_lane v l l
    unfold State.headAction
    split
    · rfl
    · rw [hclaim]
    · split
      · rw [startNoteWait_lane]
      · split
        · rw [hclaim, stopNoteWait_lane]
        · rw [hclaim, stopNoteWait_lane]
        · rw [hclaim, stopNoteWait_lane]
        · rw [stopNoteWait_lane]
      all_goals rfl
  by_cases h : (s.lane l).queue = []
  · rw [enqueue_head item h, hhead, lengthened_lane]
  · rw [enqueue_behind item h, lengthened_lane]

end

/-! ## The occupancy report and the permits (R68, R71, R129) -/

/-- The occupancy is reported and the permits are set. -/
def State.reported (s : State) (l : LaneId) : State := (s.reportOccupancy l).evalPermits

/-- The parts that the report and the permits can change. -/
def reportParts (l : LaneId) : List Part := [.lane .a, .lane .b] ++ groupParts l

theorem frame_reported (s : State) (l : LaneId) : Frame (reportParts l) s (s.reported l) :=
  ((frame_reportOccupancy_group s l).mono (List.subset_append_right _ _)).trans
    ((frame_evalPermits _).mono (List.subset_append_left _ _))

theorem not_mem_reportParts {p : Part} (hlane : p ∉ [Part.lane .a, .lane .b]) (hbay : p ∉ bayParts) (l : LaneId) :
    p ∉ reportParts l := fun h =>
  (List.mem_append.mp h).elim hlane fun h => hbay (groupParts_subset l h)

theorem reported_permitOnly (s : State) (l m : LaneId) : PermitOnly m s (s.reported l) :=
  permitOnly_evalPermits (reportOccupancy_lane_bare l s m)

/-- A lane that agreed but for its permit before the report. -/
theorem PermitOnly.of_bare {l : LaneId} {s u t : State} (h : PermitOnly l u t) (hbare : (u.lane l).bare = (s.lane l).bare) :
    PermitOnly l s t := by
  unfold PermitOnly at h ⊢
  rw [h]
  exact Lane.bare_setPermit hbare _

theorem PermitOnly.permitSet {l : LaneId} {s t : State} (h : PermitOnly l s t) : PermitSet t l := congr(Lane.permit $h)

/-- A bay of the group after the report, which is made in the state `v`. -/
theorem proactive_reported {s v : State} {n : BayId} {l : LaneId} (hn : laneOf n = l) (hbay : v.bay n = s.bay n)
    (hrun : v.runState = s.runState) (hseconds : v.lineSeconds = s.lineSeconds) : Proactive n s (v.reported l) :=
  (proactive_reportOccupancy hn hbay hrun hseconds).congr ((frame_evalPermits _).bay_eq (by simp))
    (by rw [State.reported, evalPermits_lane]) ((frame_evalPermits _).work_eq (by simp))

end Sys2Proof.Machine
end

