-- ==== Sys2Proof/Proofs/Arrivals.lean ====
section
/-! ARRIVAL at a lane with room (R9 to R12, R62, R69): the entry that is created, and the settled statement. -/

-- Proofs are checked one after another: the whole text, compiled as one, would otherwise start more threads than fit into the
-- check's memory.
set_option Elab.async false

namespace Sys2Proof.Machine

/-! ## The lowest FREE entry (R9) -/

theorem lowestFree_first {s : State} {i : RosterIndex} (h : (s.entry i).state = .free)
    (hfirst : ∀ j, j < i → (s.entry j).state ≠ .free) : s.lowestFree = some i := by
  cases hj : s.lowestFree with
  | none => exact absurd h (by simpa using List.find?_eq_none.mp hj i (List.mem_finRange i))
  | some j =>
    have hfree : (s.entry j).state = .free := lowestFree_free hj
    obtain ⟨-, m, hm, heq, hbefore⟩ := List.find?_eq_some_iff_getElem.mp hj
    rw [List.getElem_finRange] at heq
    rcases Nat.lt_trichotomy j.val i.val with hlt | heq' | hgt
    · exact absurd hfree (hfirst j hlt)
    · exact congrArg some (Fin.ext heq')
    · have hmj : m = j.val := congrArg Fin.val heq
      have hskip := hbefore i.val (by omega)
      rw [List.getElem_finRange] at hskip
      exact absurd h (by simpa using hskip)

theorem lowestFree_none {s : State} (h : ∀ i, (s.entry i).state ≠ .free) : s.lowestFree = none :=
  List.find?_eq_none.mpr fun i _ => by simpa using h i

theorem serialActive_iff (s : State) (serial : List Byte) :
    s.serialActive serial = true ↔ ∃ j, (s.entry j).state.live = true ∧ (s.entry j).serial = some serial := by
  simp [State.serialActive]

theorem expectedNote_first {s : State} {serial : List Byte} {note : Note} {pre post : List Note}
    (h : s.expect = pre ++ note :: post) (hnote : note.serial = serial) (hpre : ∀ other ∈ pre, other.serial ≠ serial) :
    s.expectedNote serial = some note := by
  have hnone : pre.find? (fun n => decide (n.serial = serial)) = none :=
    List.find?_eq_none.mpr fun other hother => by simpa using hpre other hother
  rw [State.expectedNote, h, List.find?_append, hnone, Option.none_or, List.find?_cons_of_pos (by simpa using hnote)]

/-! ## The entry that is created (R10 to R12, R62) -/

/-- The fields of a created entry, with its count after the edit. -/
def State.createdEntry (s : State) (l : LaneId) (i : RosterIndex) : Entry :=
  { Entry.freeEntry ((s.entry i).editCount + 2#8) with place := .lane l, arrivalTime := s.lineSeconds }

/-- A created entry that carries an identity. -/
def State.namedEntry (s : State) (l : LaneId) (i : RosterIndex) (id : Identity) : Entry :=
  { s.createdEntry l i with serial := some id.serial, tagDate := some id.date }

/-- The count of an entry plays no part in its match. -/
theorem matched_count (s : State) (note : Note) (e : Entry) (count : Byte) :
    s.matched note { e with editCount := count } = { s.matched note e with editCount := count } := by
  unfold State.matched
  cases s.usableType note.typeCode with
  | none => rfl
  | some t =>
    cases note.visual with
    | condemn => rfl
    | accept =>
      dsimp only
      split <;> rfl

theorem frame_filterExpect (s : State) (l : List Note) : Frame [.expect] s { s with expect := l } := by
  intro p hp
  cases p
  case expect => simp at hp
  case store => exact .of_mem_eq rfl
  all_goals first | rfl | exact ⟨rfl, rfl⟩ | exact ⟨rfl, rfl, rfl⟩ | exact ⟨rfl, rfl, rfl, rfl⟩

/-- An entry is written and counted out of the FREE ones. -/
def State.entryCreated (s : State) (i : RosterIndex) (e : Entry) : State := (s.editEntry i (fun _ => e)).countAllocated

section

variable (s : State) (i : RosterIndex) (e : Entry)

theorem frame_entryCreated : Frame [.entry i, .freeCount] s (s.entryCreated i e) :=
  ((frame_editEntry s i _).mono (by simp)).trans ((frame_countAllocated _).mono (by simp))

theorem entryCreated_entry :
    (s.entryCreated i e).entry i = { e with editCount := (s.entry i).editCount + 2#8 } := by
  rw [State.entryCreated, (frame_countAllocated _).entry_eq (by simp), editEntry_eq, entry_setEntry, if_pos rfl]

theorem entryCreated_freeCount : (s.entryCreated i e).freeCount = s.freeCount - 1 := rfl

theorem entryCreated_lane (m : LaneId) : (s.entryCreated i e).lane m = s.lane m := by cases m <;> rfl

theorem createUnidentified_eq (l : LaneId) : s.createUnidentified l i =
    s.entryCreated i { s.created l with state := .queued, route := some .hold, holdReason := some .unidentified } := rfl

theorem entryCreated_mem : (s.entryCreated i e).mem = s.mem := rfl

end

section

variable {s : State} {l : LaneId} {i : RosterIndex} {id : Identity}

theorem createIdentified_duplicate (h : s.serialActive id.serial = true) : s.createIdentified l i id =
    s.entryCreated i { s.created l with
      serial := some id.serial
      tagDate := some id.date
      state := .queued
      route := some .hold
      holdReason := some .duplicateIdentity } := by
  unfold State.createIdentified
  dsimp only
  rw [if_pos h]
  rfl

theorem createIdentified_waiting (h : s.serialActive id.serial = false) (hnone : s.expectedNote id.serial = none) :
    s.createIdentified l i id = s.entryCreated i { s.created l with
      serial := some id.serial, tagDate := some id.date, state := .awaitingNote } := by
  unfold State.createIdentified
  dsimp only
  rw [if_neg (by simp [h]), hnone]
  rfl

/-- The state in which a match has been made and its note has left the expect table, before the slot is written. -/
def State.matchedArrival (s : State) (l : LaneId) (i : RosterIndex) (id : Identity) (note : Note) : State :=
  { s with expect := s.expect.filter (fun n => decide (n.slot ≠ note.slot)) }.entryCreated i
    (s.matched note { s.created l with serial := some id.serial, tagDate := some id.date })

theorem createIdentified_matched {note : Note} (h : s.serialActive id.serial = false)
    (hnote : s.expectedNote id.serial = some note) : s.createIdentified l i id =
      (s.matchedArrival l i id note).editSlot note.slot slotTaken 0xFF#8 (BitVec.ofNat 8 i.val) := by
  unfold State.createIdentified
  dsimp only
  rw [if_neg (by simp [h]), hnote]
  rfl

theorem frame_matchedArrival (s : State) (l : LaneId) (i : RosterIndex) (id : Identity) (note : Note) :
    Frame [.expect, .entry i, .freeCount] s (s.matchedArrival l i id note) :=
  ((frame_filterExpect s _).mono (by simp)).trans ((frame_entryCreated _ i _).mono (by simp))

theorem matchedArrival_entry (note : Note) :
    (s.matchedArrival l i id note).entry i = s.matched note (s.namedEntry l i id) := by
  rw [State.matchedArrival, entryCreated_entry]
  exact (matched_count s note _ _).symm

end

/-! ## The parts of an arrival -/

/-- Every note slot's count, as a part. -/
def slotParts : List Part := (List.finRange 32).map Part.slotCount

theorem slotPart_mem (k : SlotId) : Part.slotCount k ∈ slotParts := List.mem_map_of_mem (List.mem_finRange k)

theorem mem_slotParts {p : Part} (h : p ∈ slotParts) : ∃ k, p = .slotCount k := by
  obtain ⟨k, -, hk⟩ := List.mem_map.mp h
  exact ⟨k, hk.symm⟩

/-- The parts that the creation of an entry can change. -/
def creationParts (i : RosterIndex) : List Part := [.entry i, .freeCount, .expect, .store] ++ slotParts

theorem not_mem_creationParts {p : Part} {i : RosterIndex} (h : p ∉ [.entry i, .freeCount, .expect, .store])
    (hslot : ∀ k, p ≠ .slotCount k) : p ∉ creationParts i := fun hp =>
  (List.mem_append.mp hp).elim h fun hp => by
    obtain ⟨k, hk⟩ := mem_slotParts hp
    exact hslot k hk

theorem matchedArrival_lane (s : State) (l m : LaneId) (i : RosterIndex) (id : Identity) (note : Note) :
    (s.matchedArrival l i id note).lane m = s.lane m := by cases m <;> rfl

theorem matchedArrival_freeCount (s : State) (l : LaneId) (i : RosterIndex) (id : Identity) (note : Note) :
    (s.matchedArrival l i id note).freeCount = s.freeCount - 1 := rfl

theorem frame_editSlot_creation (s : State) (i : RosterIndex) (k : SlotId) (state reason index : Byte) :
    Frame (creationParts i) s (s.editSlot k state reason index) :=
  (frame_editSlot s k state reason index).mono (by
    simp only [List.cons_subset, List.nil_subset, and_true]
    exact ⟨by simp [creationParts], List.mem_append_right _ (slotPart_mem k)⟩)

/-- What the creation of the entry of an arrival gives, whatever the identity: `c` is the state after it. -/
structure Created (l : LaneId) (i : RosterIndex) (s c : State) : Prop where
  frame : Frame (creationParts i) s c
  lane : ∀ m, c.lane m = s.lane m
  free : c.freeCount = s.freeCount - 1
  head : (c.entry i).state = .awaitingNote ∨ (c.entry i).state = .queued ∧
    ((c.entry i).route = some .test ∨ (c.entry i).route = some .hold ∨ (c.entry i).route = some .passThrough ∨
      (c.entry i).route = some .deface)

theorem created_entryCreated {s : State} {l : LaneId} {i : RosterIndex} {e : Entry}
    (he : e.state = .awaitingNote ∨ e.state = .queued ∧ e.route = some .hold) : Created l i s (s.entryCreated i e) where
  frame := (frame_entryCreated s i e).mono (by simp [creationParts])
  lane := entryCreated_lane s i e
  free := entryCreated_freeCount s i e
  head := by
    rw [entryCreated_entry]
    exact he.imp_right fun ⟨hq, hr⟩ => ⟨hq, .inr (.inl hr)⟩

theorem created_matched {s : State} {l : LaneId} {i : RosterIndex} {id : Identity} {note : Note} : Created l i s
    ((s.matchedArrival l i id note).editSlot note.slot slotTaken 0xFF#8 (BitVec.ofNat 8 i.val)) where
  frame := ((frame_matchedArrival s l i id note).mono (by simp [creationParts])).trans
    (frame_editSlot_creation _ i _ _ _ _)
  lane m := by rw [editSlot_lane, matchedArrival_lane]
  free := by
    have hedit := frame_editSlot (s.matchedArrival l i id note) note.slot slotTaken 0xFF#8 (BitVec.ofNat 8 i.val)
    exact Eq.trans (hedit .freeCount (by simp)) (matchedArrival_freeCount s l i id note)
  head := by
    rw [(frame_editSlot _ _ _ _ _).entry_eq (by simp), matchedArrival_entry]
    exact .inr ⟨(matched_fields s note _).1, matched_route s note _⟩

/-! ## The arrival from the entry's creation on -/

/-- The holding buffer is emptied. -/
def State.bufferTaken (s : State) (l : LaneId) : State := s.setReader l { s.reader l with held := none }

theorem arrive_rostered {s : State} {l : LaneId} {c : State} {i : RosterIndex} (id : Option Identity)
    (hrun : s.runState ≠ .awaitingTables) (hnormal : (s.lane l).state = .normal) (hroom : (s.lane l).queue.length < 12)
    (hroster : s.rosterArrival l id = c.enqueue l (.entry i)) :
    s.arrive l id = (c.enqueue l (.entry i)).reported l := by
  unfold State.arrive
  split
  · exact absurd ‹_› hrun
  all_goals
    rw [hnormal]
    dsimp only
    rw [if_pos (by simpa [Config.laneCapacity] using hroom), hroster]
    rfl

/-- The parts that an arrival changes behind the creation. -/
def arrivalParts (l : LaneId) : List Part := .claims :: reportParts l

theorem frame_arrival_behind (c : State) (l : LaneId) (item : Item) :
    Frame (arrivalParts l) c ((c.enqueue l item).reported l) :=
  ((frame_enqueue c l item).mono (by cases l <;> simp [arrivalParts, reportParts])).trans
    ((frame_reported _ l).mono (List.subset_cons_self _ _))

theorem not_mem_arrivalParts {p : Part} (h : p ∉ [Part.claims, .lane .a, .lane .b]) (hbay : p ∉ bayParts) (l : LaneId) :
    p ∉ arrivalParts l := by
  simp only [List.mem_cons, List.not_mem_nil, or_false, not_or] at h
  exact List.not_mem_cons_of_ne_of_not_mem h.1 (not_mem_reportParts (by simp [h.2.1, h.2.2]) hbay l)

/-- What an arrival gives from the creation `c` on: the lanes, the claims and the bays. -/
structure Queued (l : LaneId) (i : RosterIndex) (s c t : State) : Prop where
  queue : (t.lane l).queue = (s.lane l).queue ++ [.entry i]
  permit : PermitSet t l
  other : PermitOnly (otherLane l) s t
  bays : ∀ n, laneOf n = l → Proactive n s t
  entry : t.entry i = c.entry i
  alone : (s.lane l).queue = [] →
    ((t.entry i).state = .awaitingNote →
      (t.lane l).noteWait = some ⟨s.work.noteWaitLimit, s.after s.work.noteWaitLimit⟩ ∧ t.claims = s.claims) ∧
    ((t.entry i).state = .queued → (t.lane l).noteWait = none ∧
      ((t.entry i).route ≠ some .test → Claimed (.lane l) s t) ∧
      ((t.entry i).route = some .test → t.claims = s.claims))
  behind : (s.lane l).queue ≠ [] → (t.lane l).noteWait = (s.lane l).noteWait ∧ t.claims = s.claims

theorem reported_claims (s : State) (l : LaneId) : (s.reported l).claims = s.claims :=
  (frame_reported s l).claims_eq (not_mem_reportParts (by simp) (by decide) l)

theorem bufferTaken_lane (s : State) (l m : LaneId) : (s.bufferTaken l).lane m = s.lane m := by cases l <;> rfl

theorem bufferTaken_reader (s : State) (l : LaneId) :
    (s.bufferTaken l).reader l = { s.reader l with held := none } := by
  rw [State.bufferTaken, reader_setReader, if_pos rfl]

theorem bufferTaken_freeCount (s : State) (l : LaneId) : (s.bufferTaken l).freeCount = s.freeCount := by cases l <;> rfl

theorem frame_bufferTaken (s : State) (l : LaneId) : Frame [.reader l] s (s.bufferTaken l) := frame_setReader s l _

theorem not_mem_joined {l : LaneId} {i : RosterIndex} {p : Part}
    (hp : p ∉ [.lane l, .claims, .reader l, .entry i, .freeCount, .expect, .store]) (hslot : ∀ k, p ≠ .slotCount k) :
    p ∉ .lane l :: .claims :: .reader l :: creationParts i := by
  simp only [List.mem_cons, List.not_mem_nil, or_false, not_or] at hp ⊢
  obtain ⟨hlane, hclaims, hreader, hrest⟩ := hp
  exact ⟨hlane, hclaims, hreader, not_mem_creationParts (by simpa using hrest) hslot⟩

section

variable {l : LaneId} {i : RosterIndex} {s c : State} (h : Created l i (s.bufferTaken l) c)

include h

/-- From the beginning of the event to the creation. -/
theorem Created.frame_event : Frame (.reader l :: creationParts i) s c :=
  ((frame_bufferTaken s l).mono (by simp)).trans (h.frame.mono (List.subset_cons_self _ _))

theorem Created.lane_event (m : LaneId) : c.lane m = s.lane m := (h.lane m).trans (bufferTaken_lane s l m)

theorem Created.frame_joined (item : Item) :
    Frame (.lane l :: .claims :: .reader l :: creationParts i) s (c.enqueue l item) :=
  (h.frame_event.mono (by simp)).trans ((frame_enqueue c l item).mono (by simp))

/-- The lanes, the claims and the bays at the end of the event. -/
theorem queued_of_created {t : State} (hnormal : (s.lane l).state = .normal)
    (hends : Ends s ((c.enqueue l (.entry i)).reported l) t) : Queued l i s c t := by
  have hjoin := h.frame_joined (.entry i)
  have hpermit (m : LaneId) := hends.permitOnly (reported_permitOnly (c.enqueue l (.entry i)) l m)
  have hclaims : t.claims = (c.enqueue l (.entry i)).claims := hends.claims.trans (reported_claims _ l)
  have hentry : t.entry i = c.entry i := (hends.entry i).trans
    ((frame_arrival_behind c l (.entry i)).entry_eq (not_mem_arrivalParts (by simp) (by simp [bayParts]) l))
  have hqueue : (t.lane l).queue = ((c.enqueue l (.entry i)).lane l).queue := congr(Lane.queue $(hpermit l))
  have hwait : (t.lane l).noteWait = ((c.enqueue l (.entry i)).lane l).noteWait := congr(Lane.noteWait $(hpermit l))
  have hcreation {p : Part} (hp : p ∉ [.reader l, .entry i, .freeCount, .expect, .store]) (hslot : ∀ k, p ≠ .slotCount k) :
      p ∉ .reader l :: creationParts i := by
    simp only [List.mem_cons, List.not_mem_nil, or_false, not_or] at hp ⊢
    exact ⟨hp.1, not_mem_creationParts (by simpa using hp.2) hslot⟩
  have hcclaims : c.claims = s.claims := h.frame_event.claims_eq (hcreation (by simp) (by simp))
  have hwork : c.work = s.work := h.frame_event.work_eq (hcreation (by simp) (by simp))
  have hafter (k : Nat) : c.after k = s.after k := h.frame_event.after_eq (hcreation (by simp) (by simp)) k
  refine ⟨?_, (hpermit l).permitSet, (hpermit _).of_bare ?_, fun n hn => hends.proactive (proactive_reported hn ?_ ?_ ?_),
    hentry, fun hempty => ?_, fun hne => ?_⟩
  · rw [hqueue, enqueue_queue, h.lane_event]
  · exact hjoin.lane_bare_eq (not_mem_joined (by cases l <;> simp [otherLane]) (by simp))
  · exact hjoin.bay_eq (not_mem_joined (by simp) (by simp))
  · exact hjoin.runState_eq (not_mem_joined (by simp) (by simp))
  · exact hjoin.lineSeconds_eq (not_mem_joined (by simp) (by simp))
  · have hempty' : (c.lane l).queue = [] := by rw [h.lane_event, hempty]
    rw [hentry, hwait, hclaims, ← hcclaims, ← hwork, ← hafter]
    refine ⟨fun hstate => ?_, fun hstate => ?_⟩
    · obtain ⟨hlane, hkept⟩ := enqueue_awaiting hempty' hstate
      exact ⟨congrArg Lane.noteWait hlane, hkept⟩
    · obtain ⟨-, hroute⟩ := h.head.resolve_left (by simp [hstate])
      obtain ⟨hlane, htest, hclaimed⟩ := enqueue_queued hempty' hstate hroute
      refine ⟨congrArg Lane.noteWait hlane, fun hne => ?_, htest⟩
      have hjoined := hclaimed hne (by rw [h.lane_event, hnormal])
      rw [Claimed, hcclaims] at hjoined
      exact hclaims.trans hjoined
  · rw [hwait, hclaims, enqueue_behind _ (by rwa [h.lane_event]), lengthened_claims, lengthened_lane, h.lane_event,
      hcclaims]
    exact ⟨rfl, rfl⟩

end

/-- The parts that a rostered arrival can change. -/
def rosteredParts (l : LaneId) (i : RosterIndex) : List Part :=
  [.reader l, .entry i, .freeCount, .lane .a, .lane .b, .claims, .expect, .store] ++
    (List.finRange 32).map Part.slotCount ++ groupParts l

theorem frame_rostered {l : LaneId} {i : RosterIndex} {s c : State} (h : Created l i (s.bufferTaken l) c) :
    Frame (rosteredParts l i) s ((c.enqueue l (.entry i)).reported l) := by
  refine (h.frame_event.mono ?_).trans ((frame_arrival_behind c l _).mono ?_)
  · intro p hp
    simp only [creationParts, slotParts, rosteredParts, List.mem_append, List.mem_cons] at hp ⊢
    tauto
  · intro p hp
    simp only [arrivalParts, reportParts, rosteredParts, List.mem_append, List.mem_cons] at hp ⊢
    tauto

/-- An arrival that is rostered, from the creation of its entry on. -/
theorem arrival_rostered {l : LaneId} {i : RosterIndex} {s c : State} (hrun : s.runState ≠ .awaitingTables)
    (hnormal : (s.lane l).state = .normal) (hroom : (s.lane l).queue.length < 12)
    (h : Created l i (s.bufferTaken l) c)
    (hroster : (s.bufferTaken l).rosterArrival l (s.reader l).held = c.enqueue l (.entry i)) :
    ∃ t, exec (.arrival l) s = .next t ∧ Queued l i s c t ∧ t.freeCount = s.freeCount - 1 ∧
      t.reader l = { s.reader l with held := none } ∧ Ends s ((c.enqueue l (.entry i)).reported l) t ∧
      Frame (rosteredParts l i) s t := by
  have hbehind := frame_arrival_behind c l (.entry i)
  have hrun' : (s.bufferTaken l).runState ≠ .awaitingTables := by
    rwa [(frame_bufferTaken s l).runState_eq (by simp)]
  have harrive : effect (.arrival l) s = some ((c.enqueue l (.entry i)).reported l) :=
    congrArg some (arrive_rostered (s := s.bufferTaken l) (s.reader l).held hrun' (by rwa [bufferTaken_lane]) (by rwa [bufferTaken_lane]) hroster)
  obtain ⟨t, hx, hframe, hends⟩ := event_ends (exec_effect harrive) (frame_rostered h)
  have hfree : ((c.enqueue l (.entry i)).reported l).freeCount = c.freeCount :=
    hbehind .freeCount (not_mem_arrivalParts (by simp) (by decide) l)
  refine ⟨t, hx, queued_of_created h hnormal hends, ?_, ?_, hends, hframe⟩
  · rw [hends.free, hfree, h.free, bufferTaken_freeCount]
  · rw [hends.reader, hbehind.reader_eq (not_mem_arrivalParts (by simp) (by simp [bayParts]) l),
      h.frame.reader_eq (not_mem_creationParts (by simp) (by simp)), bufferTaken_reader]

/-! ## The identity of the arrival (R10 to R12, R62) -/

/-- The note board and the expect table are as before. -/
def BoardKept (s t : State) : Prop := Same .expect s t ∧ Same .store s t ∧ t.slotCounts = s.slotCounts

theorem boardKept_of_frame {L : List Part} {s t : State} (h : Frame L s t) (hexpect : .expect ∉ L) (hstore : .store ∉ L)
    (hslots : ∀ k, Part.slotCount k ∉ L) : BoardKept s t :=
  ⟨h .expect hexpect, h .store hstore, Vector.ext fun k hk => h (.slotCount ⟨k, hk⟩) (hslots _)⟩

theorem BoardKept.ends {s u t : State} (h : BoardKept s u) (hends : Ends s u t) : BoardKept s t := by
  obtain ⟨hexpect, hstore, hslots⟩ := h
  exact ⟨Eq.trans hends.expect hexpect, fun a ha => (hends.store a ha).trans (hstore a ha), hends.slots.trans hslots⟩

/-- What the end of the event shows of the entry, the expect table and the note board, by the identity of the arrival. -/
def IdentityTaken (l : LaneId) (i : RosterIndex) (s t : State) : Prop :=
  ((s.reader l).held = none →
    t.entry i = { s.createdEntry l i with state := .queued, route := some .hold, holdReason := some .unidentified } ∧
      BoardKept s t) ∧
  ∀ id, (s.reader l).held = some id →
    ((∃ j, (s.entry j).state.live = true ∧ (s.entry j).serial = some id.serial) →
      t.entry i = { s.namedEntry l i id with
        state := .queued, route := some .hold, holdReason := some .duplicateIdentity } ∧ BoardKept s t) ∧
    ((∀ j, (s.entry j).state.live = true → (s.entry j).serial ≠ some id.serial) →
      ((∀ note ∈ s.expect, note.serial ≠ id.serial) →
        t.entry i = { s.namedEntry l i id with state := .awaitingNote } ∧ BoardKept s t) ∧
      (∀ note pre post, s.expect = pre ++ note :: post → note.serial = id.serial →
        (∀ other ∈ pre, other.serial ≠ id.serial) → t.entry i = s.matched note (s.namedEntry l i id) ∧
          t.expect = s.expect.filter (fun n => decide (n.slot ≠ note.slot)) ∧
          (∀ k, k ≠ note.slot → Same (.slotCount k) s t) ∧
          (StoreFormed s → SlotEdited note.slot 3#8 0xFF#8 (BitVec.ofNat 8 i.val) s t)))

section

variable {l : LaneId} {i : RosterIndex} {s : State} {e : Entry}

theorem bufferTaken_lowestFree (s : State) (l : LaneId) : (s.bufferTaken l).lowestFree = s.lowestFree := by
  cases l <;> rfl

theorem bufferTaken_serialActive (s : State) (l : LaneId) (serial : List Byte) :
    (s.bufferTaken l).serialActive serial = s.serialActive serial := by cases l <;> rfl

theorem bufferTaken_expectedNote (s : State) (l : LaneId) (serial : List Byte) :
    (s.bufferTaken l).expectedNote serial = s.expectedNote serial := by cases l <;> rfl

theorem bufferTaken_matched (s : State) (l : LaneId) (note : Note) (e : Entry) :
    (s.bufferTaken l).matched note e = s.matched note e := by cases l <;> rfl

theorem bufferTaken_created (s : State) (l : LaneId) : (s.bufferTaken l).created l = s.created l := by cases l <;> rfl

theorem bufferTaken_entry (s : State) (l : LaneId) (j : RosterIndex) : (s.bufferTaken l).entry j = s.entry j := by
  cases l <;> rfl

theorem bufferTaken_namedEntry (s : State) (l : LaneId) (i : RosterIndex) (id : Identity) :
    (s.bufferTaken l).namedEntry l i id = s.namedEntry l i id := by cases l <;> rfl

/-- The note board at the end of an arrival whose entry is written alone. -/
theorem boardKept_entryCreated {t : State} (item : Item)
    (hends : Ends s ((((s.bufferTaken l).entryCreated i e).enqueue l item).reported l) t) : BoardKept s t := by
  have hnot {p : Part} (h : p ∉ [.reader l, .entry i, .freeCount, .claims, .lane .a, .lane .b]) (hbay : p ∉ bayParts) :
      p ∉ [.reader l, .entry i, .freeCount] ++ arrivalParts l := by
    simp only [List.mem_cons, List.mem_append, List.not_mem_nil, or_false, not_or] at h ⊢
    obtain ⟨h1, h2, h3, h4, h5, h6⟩ := h
    exact ⟨⟨h1, h2, h3⟩, not_mem_arrivalParts (by simp [h4, h5, h6]) hbay l⟩
  have hframe : Frame ([.reader l, .entry i, .freeCount] ++ arrivalParts l) s
      ((((s.bufferTaken l).entryCreated i e).enqueue l item).reported l) :=
    (((frame_bufferTaken s l).mono (by simp)).trans ((frame_entryCreated _ i e).mono (by simp))).trans
      ((frame_arrival_behind _ l item).mono (List.subset_append_right _ _))
  exact (boardKept_of_frame hframe (hnot (by simp) (by decide)) (hnot (by simp) (by decide))
    (fun k => hnot (by simp) (by simp [bayParts]))).ends hends

theorem bufferTaken_entryCreated (s : State) (l : LaneId) (i : RosterIndex) (e : Entry) :
    ((s.bufferTaken l).entryCreated i e).entry i = { e with editCount := (s.entry i).editCount + 2#8 } := by
  rw [entryCreated_entry, bufferTaken_entry]

/-- The end of an arrival that is matched at once. -/
theorem matchedArrival_gives {id : Identity} {note : Note} {t : State}
    (hends : Ends s ((((((s.bufferTaken l).matchedArrival l i id note).editSlot note.slot slotTaken 0xFF#8
      (BitVec.ofNat 8 i.val)).enqueue l (.entry i)).reported l)) t) :
    t.expect = s.expect.filter (fun n => decide (n.slot ≠ note.slot)) ∧
      (∀ k, k ≠ note.slot → Same (.slotCount k) s t) ∧
      (StoreFormed s → SlotEdited note.slot 3#8 0xFF#8 (BitVec.ofNat 8 i.val) s t) := by
  have hbefore : Frame [.reader l, .expect, .entry i, .freeCount] s ((s.bufferTaken l).matchedArrival l i id note) :=
    ((frame_bufferTaken s l).mono (by simp)).trans ((frame_matchedArrival _ l i id note).mono (by simp))
  have hedit := frame_editSlot ((s.bufferTaken l).matchedArrival l i id note) note.slot slotTaken 0xFF#8
    (BitVec.ofNat 8 i.val)
  have hbehind := frame_arrival_behind (((s.bufferTaken l).matchedArrival l i id note).editSlot note.slot slotTaken 0xFF#8
    (BitVec.ofNat 8 i.val)) l (.entry i)
  have hexpect : ((s.bufferTaken l).matchedArrival l i id note).expect =
      s.expect.filter (fun n => decide (n.slot ≠ note.slot)) := by cases l <;> rfl
  refine ⟨?_, fun k hk => ?_, fun hs => ?_⟩
  · rw [hends.expect, ← hexpect]
    exact Eq.trans (hbehind .expect (not_mem_arrivalParts (by simp) (by decide) l)) (hedit .expect (by simp))
  · have hbehindK : Same (.slotCount k) _ _ := hbehind (.slotCount k) (not_mem_arrivalParts (by simp) (by simp [bayParts]) l)
    have heditK : Same (.slotCount k) _ _ := hedit (.slotCount k) (by simpa using hk)
    have hbeforeK : Same (.slotCount k) _ _ := hbefore (.slotCount k) (by simp)
    have hall : Same (.slotCount k) s _ := (hbeforeK.trans heditK).trans hbehindK
    exact Eq.trans (congrArg (fun v : Vector Byte 32 => v[k]) hends.slots) hall
  · have hrising : Memory.rising ((s.bufferTaken l).matchedArrival l i id note).mem = true := by
      have hmem : ((s.bufferTaken l).matchedArrival l i id note).mem = s.mem := by cases l <;> rfl
      rw [hmem]
      exact ((memWf_iff s).1 hs).1
    exact hends.slotEdited ((slotEdited_of_rising hrising note.slot slotTaken 0xFF#8 (BitVec.ofNat 8 i.val)).of_frames
      hbefore hbehind (by simp) ⟨not_mem_arrivalParts (by simp) (by decide) l,
        not_mem_arrivalParts (by simp) (by simp [bayParts]) l⟩)

end

/-- The state after the creation of the arrival's entry, and what it shows at the end. -/
theorem creation_exists {l : LaneId} {i : RosterIndex} {s : State} (hfree : s.lowestFree = some i) :
    ∃ c, Created l i (s.bufferTaken l) c ∧
      (s.bufferTaken l).rosterArrival l (s.reader l).held = c.enqueue l (.entry i) ∧
      ∀ t, Ends s ((c.enqueue l (.entry i)).reported l) t → t.entry i = c.entry i → IdentityTaken l i s t := by
  have hfree' : (s.bufferTaken l).lowestFree = some i := (bufferTaken_lowestFree s l).trans hfree
  cases hheld : (s.reader l).held with
  | none =>
    refine ⟨(s.bufferTaken l).createUnidentified l i, ?_, ?_, fun t hends hentry => ⟨fun _ => ?_, fun id hid => ?_⟩⟩
    · exact created_entryCreated (.inr ⟨rfl, rfl⟩)
    · unfold State.rosterArrival
      rw [hfree']
    · rw [createUnidentified_eq] at hends hentry
      exact ⟨by rw [hentry, bufferTaken_entryCreated, bufferTaken_created]; rfl, boardKept_entryCreated _ hends⟩
    · rw [hheld] at hid
      cases hid
  | some id =>
    have hroster : (s.bufferTaken l).rosterArrival l (some id) =
        ((s.bufferTaken l).createIdentified l i id).enqueue l (.entry i) := by
      unfold State.rosterArrival
      rw [hfree']
    cases hactive : s.serialActive id.serial with
    | true =>
      have hcreate := createIdentified_duplicate (s := s.bufferTaken l) (l := l) (i := i) (id := id)
        (by rw [bufferTaken_serialActive, hactive])
      rw [hcreate] at hroster
      refine ⟨_, created_entryCreated (.inr ⟨rfl, rfl⟩), hroster, fun t hends hentry => ⟨fun hnone => ?_, fun id' hid => ?_⟩⟩
      · rw [hheld] at hnone
        cases hnone
      · cases Option.some.inj (hheld.symm.trans hid)
        refine ⟨fun _ => ⟨?_, boardKept_entryCreated _ hends⟩, fun hnone => ?_⟩
        · rw [hentry, bufferTaken_entryCreated, bufferTaken_created]
          rfl
        · obtain ⟨j, hlive, hserial⟩ := (serialActive_iff s id.serial).mp hactive
          exact absurd hserial (hnone j hlive)
    | false =>
      have hinactive : (s.bufferTaken l).serialActive id.serial = false := by rw [bufferTaken_serialActive, hactive]
      have hnotlive : ¬∃ j, (s.entry j).state.live = true ∧ (s.entry j).serial = some id.serial :=
        fun h => by simp [(serialActive_iff s id.serial).mpr h] at hactive
      cases hnote : s.expectedNote id.serial with
      | none =>
        have hcreate := createIdentified_waiting (l := l) (i := i) hinactive (by rw [bufferTaken_expectedNote, hnote])
        rw [hcreate] at hroster
        refine ⟨_, created_entryCreated (.inl rfl), hroster, fun t hends hentry => ⟨fun hnone => ?_, fun id' hid => ?_⟩⟩
        · rw [hheld] at hnone
          cases hnone
        · cases Option.some.inj (hheld.symm.trans hid)
          refine ⟨fun h => absurd h hnotlive, fun _ => ⟨fun _ => ⟨?_, boardKept_entryCreated _ hends⟩,
            fun note pre post hexpect hserial hpre => ?_⟩⟩
          · rw [hentry, bufferTaken_entryCreated, bufferTaken_created]
            rfl
          · rw [expectedNote_first hexpect hserial hpre] at hnote
            cases hnote
      | some found =>
        have hcreate := createIdentified_matched (l := l) (i := i) hinactive (by rw [bufferTaken_expectedNote, hnote])
        rw [hcreate] at hroster
        refine ⟨_, created_matched, hroster, fun t hends hentry => ⟨fun hnone => ?_, fun id' hid => ?_⟩⟩
        · rw [hheld] at hnone
          cases hnone
        · cases Option.some.inj (hheld.symm.trans hid)
          refine ⟨fun h => absurd h hnotlive, fun _ => ⟨fun hno => ?_, fun note pre post hexpect hserial hpre => ?_⟩⟩
          · rw [expectedNote_eq_none hno] at hnote
            cases hnote
          · cases Option.some.inj ((expectedNote_first hexpect hserial hpre).symm.trans hnote)
            refine ⟨?_, matchedArrival_gives hends⟩
            rw [hentry, (frame_editSlot _ _ _ _ _).entry_eq (by simp), matchedArrival_entry, bufferTaken_matched,
              bufferTaken_namedEntry]

/-- Settles O44. -/
theorem arrivalRostered : Obligations.ArrivalRostered := by
  intro l i s hrun hnormal hroom hfree hfirst
  obtain ⟨c, hcreated, hroster, hidentity⟩ := creation_exists (l := l) (lowestFree_first hfree hfirst)
  obtain ⟨t, hx, hqueued, hcount, hreader, hends, hframe⟩ := arrival_rostered hrun hnormal hroom hcreated hroster
  obtain ⟨hunidentified, hidentified⟩ := hidentity t hends hqueued.entry
  exact ⟨t, hx, ⟨hreader, hqueued.queue, hcount, hqueued.permit, hqueued.other, hqueued.bays⟩, hunidentified, hidentified,
    hqueued.alone, hqueued.behind, hframe⟩

end Sys2Proof.Machine
end

