-- ==== Sys2Proof/Proofs/ArrivalLost.lean ====
section
/-! ARRIVAL where no entry is created (R69, R70, R86), and NOTE_WAIT_EXPIRY (R15, R72). -/

-- Proofs are checked one after another: the whole text, compiled as one, would otherwise start more threads than fit into the
-- check's memory.
set_option Elab.async false

namespace Sys2Proof.Machine

/-! ## The effect of an arrival that is not rostered -/

/-- The marker in its queue, with its alert. -/
def State.markerQueued (s : State) (l : LaneId) : State :=
  (s.enqueue l .marker).raiseAlert (laneSource l) .unrosteredArrival

section

variable {s : State} {l : LaneId} (id : Option Identity)

theorem arrive_dropped (h : s.runState = .awaitingTables) : s.arrive l id = s := by
  unfold State.arrive
  rw [h]

theorem arrive_normal (hrun : s.runState ≠ .awaitingTables) (hnormal : (s.lane l).state = .normal) : s.arrive l id =
    if (s.lane l).queue.length < Config.laneCapacity then (s.rosterArrival l id).reported l
    else (s.laneFault l).raiseAlert (laneSource l) .laneOverfill := by
  unfold State.arrive
  split
  · exact absurd ‹_› hrun
  all_goals
    rw [hnormal]
    rfl

theorem arrive_faulted (hrun : s.runState ≠ .awaitingTables) (hfault : (s.lane l).state = .fault) :
    s.arrive l id = s.raiseAlert (laneSource l) .laneOverfill := by
  unfold State.arrive
  split
  · exact absurd ‹_› hrun
  all_goals
    rw [hfault]

theorem arrive_full (hrun : s.runState ≠ .awaitingTables) (hnormal : (s.lane l).state = .normal)
    (hfull : 12 ≤ (s.lane l).queue.length) :
    s.arrive l id = (s.laneFault l).raiseAlert (laneSource l) .laneOverfill := by
  rw [arrive_normal id hrun hnormal, if_neg (by simpa [Config.laneCapacity] using hfull)]

theorem arrive_marker (hrun : s.runState ≠ .awaitingTables) (hnormal : (s.lane l).state = .normal)
    (hroom : (s.lane l).queue.length < 12) (hfree : s.lowestFree = none) : s.arrive l id =
      (s.markerQueued l).reported l := by
  rw [arrive_normal id hrun hnormal, if_pos (by simpa [Config.laneCapacity] using hroom)]
  unfold State.rosterArrival
  rw [hfree]
  rfl

end

/-! ## A lane enters FAULT (R86) -/

/-- The lane alone in FAULT, before its transfers are disowned. -/
def State.laneFaulted (s : State) (l : LaneId) : State :=
  (s.setLane l { s.lane l with state := .fault, permit := false, headInFlight := false }).withdrawClaim (.lane l)

section

variable {s : State} {l : LaneId}

theorem laneFault_normal (h : (s.lane l).state = .normal) :
    s.laneFault l = (s.laneFaulted l).mapTransits (Transit.disownFor l) := by
  unfold State.laneFault
  rw [h]
  rfl

theorem laneFault_faulted (h : (s.lane l).state = .fault) : s.laneFault l = s := by
  unfold State.laneFault
  rw [h]

theorem frame_laneFaulted (s : State) (l : LaneId) : Frame [.lane l, .claims] s (s.laneFaulted l) :=
  ((frame_setLane s l _).mono (by simp)).trans ((frame_withdrawClaim _ _).mono (by simp))

/-- The parts a lane's FAULT entry can change. -/
def laneFaultParts : List Part :=
  [.lane .a, .lane .b, .claims, .outfeed, .exits, .station .stamper, .station .defacer] ++ bayParts

theorem frame_laneFault (s : State) (l : LaneId) : Frame laneFaultParts s (s.laneFault l) := by
  cases h : (s.lane l).state with
  | normal =>
    rw [laneFault_normal h]
    exact ((frame_laneFaulted s l).mono (by cases l <;> decide)).trans ((frame_mapTransits _ _).mono (subset_bays (by decide)))
  | fault =>
    rw [laneFault_faulted h]
    exact .refl _ s

theorem laneFaulted_lane (s : State) (l : LaneId) : (s.laneFaulted l).lane l =
    { s.lane l with state := .fault, permit := false, headInFlight := false } := by
  rw [State.laneFaulted, withdrawClaim_lane, lane_setLane, if_pos rfl]

/-- What a NORMAL lane's FAULT entry gives. -/
theorem laneFault_gives (h : (s.lane l).state = .normal) :
    (s.laneFault l).lane l = { s.lane l with
      state := .fault
      permit := false
      headInFlight := false
      track := (s.lane l).track.map (Position.mapTransit (Transit.disownFor l)) } ∧
      (s.laneFault l).claims = s.claims.filter (fun c => decide (c ≠ .lane l)) ∧
      (s.laneFault l).outfeedQueue = s.outfeedQueue.map (Position.mapTransit (Transit.disownFor l)) ∧
      ∀ n, (s.laneFault l).bay n =
        { s.bay n with loading := (s.bay n).loading.map (Transit.disownFor l) } := by
  have hbay (n : BayId) : (s.laneFaulted l).bay n = s.bay n := (frame_laneFaulted s l).bay_eq (by simp)
  have hqueue : (s.laneFaulted l).outfeedQueue = s.outfeedQueue := by cases l <;> rfl
  have hclaims : (s.laneFaulted l).claims = s.claims.filter (fun c => decide (c ≠ .lane l)) := by cases l <;> rfl
  rw [laneFault_normal h]
  refine ⟨?_, ?_, ?_, fun n => ?_⟩
  · rw [mapTransits_lane, laneFaulted_lane]
  · rw [← hclaims]
    rfl
  · rw [← hqueue]
    rfl
  · rw [mapTransits_bay, hbay]

end

/-! ## The event -/

theorem effect_arrival (l : LaneId) (s : State) :
    effect (.arrival l) s = some ((s.bufferTaken l).arrive l (s.reader l).held) := rfl

theorem arrival_event {l : LaneId} {s u : State} {L : List Part} (hu : (s.bufferTaken l).arrive l (s.reader l).held = u)
    (hf : Frame L (s.bufferTaken l) u) (hreader : .reader l ∉ L) :
    ∃ t, exec (.arrival l) s = .next t ∧ t.reader l = { s.reader l with held := none } ∧
      Frame (.reader l :: L) s t ∧ Ends s u t := by
  obtain ⟨t, hx, hframe, hends⟩ := event_ends (exec_effect ((effect_arrival l s).trans (congrArg some hu)))
    (((frame_bufferTaken s l).mono (M := .reader l :: L) (by simp)).trans (hf.mono (List.subset_cons_self _ _)))
  exact ⟨t, hx, by rw [hends.reader, hf.reader_eq hreader, bufferTaken_reader], hframe, hends⟩

theorem bufferTaken_runState (s : State) (l : LaneId) : (s.bufferTaken l).runState = s.runState := by cases l <;> rfl

theorem bufferTaken_claims (s : State) (l : LaneId) : (s.bufferTaken l).claims = s.claims := by cases l <;> rfl

theorem bufferTaken_outfeedQueue (s : State) (l : LaneId) : (s.bufferTaken l).outfeedQueue = s.outfeedQueue := by
  cases l <;> rfl

theorem bufferTaken_bay (s : State) (l : LaneId) (n : BayId) : (s.bufferTaken l).bay n = s.bay n := by cases l <;> rfl

section

variable {l : LaneId} {s : State}

theorem arrival_full (hrun : s.runState ≠ .awaitingTables) (hnormal : (s.lane l).state = .normal)
    (hfull : 12 ≤ (s.lane l).queue.length) : Gives (.arrival l) s fun t =>
      t.reader l = { s.reader l with held := none } ∧ Alerted (laneSource l) .laneOverfill t ∧
        (t.lane l).state = .fault ∧ (t.lane l).permit = false ∧ (t.lane l).headInFlight = false ∧
        (t.lane l).queue = (s.lane l).queue ∧ (t.lane l).noteWait = (s.lane l).noteWait ∧
        t.claims = s.claims.filter (fun c => decide (c ≠ .lane l)) ∧
        t.outfeedQueue = s.outfeedQueue.map (Position.mapTransit (Transit.disownFor l)) ∧
        (∀ n, (t.bay n).bare =
          { s.bay n with loading := (s.bay n).loading.map (Transit.disownFor l) }.bare) ∧
        Frame ([.reader l, .notices, .alertSeen, .lane .a, .lane .b, .claims, .outfeed, .exits,
          .station .stamper, .station .defacer] ++ bayParts) s t := by
  have hlane := bufferTaken_lane s l l
  obtain ⟨hfault, hclaims, hqueue, hbays⟩ := laneFault_gives (s := s.bufferTaken l) (l := l) (by rwa [hlane])
  have hraise := frame_raiseAlert ((s.bufferTaken l).laneFault l) (laneSource l) .laneOverfill
  obtain ⟨t, hx, hreader, hframe, hends⟩ := arrival_event
    (arrive_full (s := s.bufferTaken l) (l := l) _ (by rwa [bufferTaken_runState]) (by rwa [hlane]) (by rwa [hlane]))
    (((frame_laneFault _ l).mono (M := .notices :: .alertSeen :: laneFaultParts) (by simp)).trans
      (hraise.mono (by simp))) (by cases l <;> decide)
  have hbare : (t.lane l).bare = (((s.bufferTaken l).laneFault l).lane l).bare :=
    (hends.lane l).trans (hraise.lane_bare_eq (by simp))
  rw [hfault, hlane] at hbare
  refine ⟨t, hx, hreader, hends.alerted (alerted_raiseAlert _ _ _), congr(Lane.state $hbare), congr(Lane.permit $hbare),
    congr(Lane.headInFlight $hbare), congr(Lane.queue $hbare), congr(Lane.noteWait $hbare), ?_, ?_, fun n => ?_, hframe⟩
  · rw [hends.claims, hraise.claims_eq (by simp), hclaims, bufferTaken_claims]
  · rw [hends.outfeed.2.1, show (State.raiseAlert _ _ _).outfeedQueue = _ from (hraise .outfeed (by simp)).2.1, hqueue,
      bufferTaken_outfeedQueue]
  · rw [hends.bay, hraise.bay_eq (by simp), hbays, bufferTaken_bay]

theorem frame_markerQueued (s : State) (l : LaneId) :
    Frame [.notices, .alertSeen, .lane l, .claims] s (s.markerQueued l) :=
  ((frame_enqueue s l .marker).mono (by simp)).trans ((frame_raiseAlert _ _ _).mono (by simp))

theorem markerQueued_lane (s : State) (l : LaneId) : (s.markerQueued l).lane l = (s.enqueue l .marker).lane l := by
  cases l <;> rfl

theorem enqueue_marker_lane (hnormal : (s.lane l).state = .normal) :
    (s.enqueue l .marker).lane l = { s.lane l with queue := (s.lane l).queue ++ [Item.marker] } := by
  by_cases h : (s.lane l).queue = []
  · rw [(enqueue_marker h hnormal).1, h]
    rfl
  · rw [enqueue_behind _ h, lengthened_lane]

theorem markerQueued_claims (s : State) (l : LaneId) : (s.markerQueued l).claims = (s.enqueue l .marker).claims := rfl

theorem arrival_marker (hrun : s.runState ≠ .awaitingTables) (hnormal : (s.lane l).state = .normal)
    (hroom : (s.lane l).queue.length < 12) (hfree : ∀ i, (s.entry i).state ≠ .free) : Gives (.arrival l) s fun t =>
      t.reader l = { s.reader l with held := none } ∧ Alerted (laneSource l) .unrosteredArrival t ∧
        (t.lane l).bare = { s.lane l with
          queue := (s.lane l).queue ++ [Item.marker]
          permit := t.permitHolds l }.bare ∧
        PermitOnly (otherLane l) s t ∧ ((s.lane l).queue = [] → Claimed (.lane l) s t) ∧
        ((s.lane l).queue ≠ [] → Same .claims s t) ∧ (∀ n, laneOf n = l → Proactive n s t) ∧
        Frame ([.reader l, .notices, .alertSeen, .lane .a, .lane .b, .claims] ++ groupParts l) s t := by
  have hlane (m : LaneId) := bufferTaken_lane s l m
  have hmarked := frame_markerQueued (s.bufferTaken l) l
  have hreported := frame_reported ((s.bufferTaken l).markerQueued l) l
  have hall : Frame ([.notices, .alertSeen, .lane .a, .lane .b, .claims] ++ groupParts l) (s.bufferTaken l)
      (((s.bufferTaken l).markerQueued l).reported l) :=
    (hmarked.mono (by cases l <;> simp)).trans (hreported.mono (by
      intro p hp
      simp only [reportParts, List.mem_append, List.mem_cons] at hp ⊢
      tauto))
  obtain ⟨t, hx, hreader, hframe, hends⟩ := arrival_event
    (arrive_marker (s := s.bufferTaken l) (l := l) _ (by rwa [bufferTaken_runState]) (by rwa [hlane]) (by rwa [hlane])
      ((bufferTaken_lowestFree s l).trans (lowestFree_none hfree))) hall (by cases l <;> decide)
  have hpermit (m : LaneId) := hends.permitOnly (reported_permitOnly ((s.bufferTaken l).markerQueued l) l m)
  have hclaims : t.claims = ((s.bufferTaken l).enqueue l .marker).claims :=
    (hends.claims.trans (reported_claims _ l)).trans (markerQueued_claims _ l)
  have halert : Alerted (laneSource l) .unrosteredArrival (((s.bufferTaken l).markerQueued l).reported l) :=
    (alerted_raiseAlert _ _ _).of_frame hreported (not_mem_reportParts (by simp) (by decide) l)
      (not_mem_reportParts (by simp) (by decide) l)
  have hbuffer := frame_bufferTaken s l
  refine ⟨t, hx, hreader, hends.alerted halert, ?_, (hpermit _).of_bare ?_, fun hempty => ?_, fun hne => ?_,
    fun n hn => hends.proactive (proactive_reported hn ?_ ?_ ?_), hframe⟩
  · have hqueued := hpermit l
    unfold PermitOnly at hqueued
    rw [hqueued, markerQueued_lane, enqueue_marker_lane (by rwa [hlane]), hlane]
  · rw [hmarked.lane_bare_eq (by cases l <;> simp [otherLane]), hlane]
  · have hclaimed := (enqueue_marker (s := s.bufferTaken l) (by rwa [hlane]) (by rwa [hlane])).2
    rw [Claimed, bufferTaken_claims] at hclaimed
    exact hclaims.trans hclaimed
  · rw [Same, hclaims, enqueue_behind _ (by rwa [hlane]), lengthened_claims, bufferTaken_claims]
  · rw [hmarked.bay_eq (by simp), bufferTaken_bay]
  · rw [hmarked.runState_eq (by simp), bufferTaken_runState]
  · rw [hmarked.lineSeconds_eq (by simp), hbuffer.lineSeconds_eq (by simp)]

end

/-- Settles O45. -/
theorem arrivalUnrostered : Obligations.ArrivalUnrostered := by
  refine fun l s => ⟨fun hrun => ?_, fun hrun hfault => ?_, arrival_full, arrival_marker⟩
  · obtain ⟨t, hx, hreader, hframe, -⟩ := arrival_event
      (arrive_dropped (s := s.bufferTaken l) _ (by rwa [bufferTaken_runState])) (.refl [] _) (by simp)
    exact ⟨t, hx, hreader, hframe⟩
  · obtain ⟨t, hx, hreader, hframe, hends⟩ := arrival_event
      (arrive_faulted (s := s.bufferTaken l) (l := l) _ (by rwa [bufferTaken_runState]) (by rwa [bufferTaken_lane]))
      (frame_raiseAlert _ _ _) (by simp)
    exact ⟨t, hx, hreader, hends.alerted (alerted_raiseAlert _ _ _), hframe⟩

/-! ## NOTE_WAIT_EXPIRY (R15, R72) -/

section

variable {l : LaneId} {i : RosterIndex} {s : State}

/-- The state in which the wait has stopped and the entry is held UNANNOUNCED, before the lane acts on it. -/
def State.unannounced (s : State) (l : LaneId) (i : RosterIndex) : State := (s.stopNoteWait l).reportUnannounced i

theorem expireNoteWait_due (hdue : s.due ((s.lane l).noteWait.map NoteWait.expiry) = true)
    (hhead : (s.lane l).queue.head? = some (.entry i)) : s.expireNoteWait l = (s.unannounced l i).headAction l := by
  obtain ⟨rest, hqueue⟩ := List.head?_eq_some_iff.mp hhead
  unfold State.expireNoteWait
  rw [if_pos hdue, hqueue]
  rfl

theorem expireNoteWait_early (h : s.due ((s.lane l).noteWait.map NoteWait.expiry) = false) : s.expireNoteWait l = s :=
  if_neg (by simp [h])

theorem stopNoteWait_entry (s : State) (l : LaneId) (j : RosterIndex) : (s.stopNoteWait l).entry j = s.entry j := by
  cases l <;> rfl

theorem unannounced_eq (hstate : (s.entry i).state = .awaitingNote) : s.unannounced l i =
    (s.stopNoteWait l).setEntry i { s.entry i with
      route := some .hold
      holdReason := some .unannounced
      state := .queued }.edited := by
  unfold State.unannounced State.reportUnannounced
  rw [stopNoteWait_entry, if_pos hstate, editEntry_eq, stopNoteWait_entry]
  rfl

theorem frame_unannounced (s : State) (l : LaneId) (i : RosterIndex) : Frame [.lane l, .entry i] s (s.unannounced l i) := by
  have hstop : Frame [.lane l] s (s.stopNoteWait l) := frame_setLane s l _
  exact (hstop.mono (by simp)).trans ((frame_reportUnannounced _ i).mono (by simp))

theorem unannounced_lane (hstate : (s.entry i).state = .awaitingNote) :
    (s.unannounced l i).lane l = { s.lane l with noteWait := none } := by
  rw [unannounced_eq hstate, setEntry_lane, stopNoteWait_lane]

theorem unannounced_entry (hstate : (s.entry i).state = .awaitingNote) : (s.unannounced l i).entry i =
    { s.entry i with route := some .hold, holdReason := some .unannounced, state := .queued }.edited := by
  rw [unannounced_eq hstate, entry_setEntry, if_pos rfl]

theorem noteWait_expires (hdue : s.due ((s.lane l).noteWait.map NoteWait.expiry) = true)
    (hhead : (s.lane l).queue.head? = some (.entry i)) (hstate : (s.entry i).state = .awaitingNote) :
    Gives (.noteWaitExpiry l) s fun t =>
      (t.lane l).bare = { s.lane l with noteWait := none }.bare ∧
        t.entry i = { s.entry i with
          route := some .hold
          holdReason := some .unannounced
          state := .queued }.edited ∧
        ((s.lane l).state = .normal → Claimed (.lane l) s t) ∧ ((s.lane l).state = .fault → Same .claims s t) ∧
        Frame [.lane l, .entry i, .claims] s t := by
  have hlane := unannounced_lane (l := l) hstate
  have hentry := unannounced_entry (l := l) hstate
  have hhead' : ((s.unannounced l i).lane l).queue.head? = some (.entry i) := by rw [hlane]; exact hhead
  have hqueued : ((s.unannounced l i).entry i).state = .queued := by rw [hentry]; rfl
  have hhold : ((s.unannounced l i).entry i).route = some .hold := by rw [hentry]; rfl
  obtain ⟨hkept, hclaimed⟩ := headAction_queued_claims hhead' hqueued (.inr (.inl hhold))
  have hclaims : (s.unannounced l i).claims = s.claims := (frame_unannounced s l i).claims_eq (by simp)
  have hact := frame_headAction (s.unannounced l i) l
  rw [hlane, hclaims] at hkept
  rw [hlane, hhold, Claimed, hclaims] at hclaimed
  obtain ⟨t, hx, hframe, hends⟩ := event_ends (c := .noteWaitExpiry l) (L := [.lane l, .entry i, .claims])
    (exec_effect (congrArg some (expireNoteWait_due hdue hhead)))
    (((frame_unannounced s l i).mono (by simp)).trans (hact.mono (by simp)))
  refine ⟨t, hx, ?_, ?_, fun hnormal => ?_, fun hfault => ?_, hframe⟩
  · rw [hends.lane, headAction_queued_lane hhead' hqueued, hlane]
  · rw [hends.entry, hact.entry_eq (by simp), hentry]
  · exact hends.claims.trans (hclaimed (by simp) hnormal)
  · exact hends.claims.trans (hkept (.inr hfault))

end

/-- Settles O46. -/
theorem noteWaitExpiry : Obligations.NoteWaitExpiry := by
  refine fun l s => ⟨fun i => noteWait_expires, fun h => ?_⟩
  obtain ⟨t, hx, hframe, -⟩ := event_ends (c := .noteWaitExpiry l) (s := s)
    (exec_effect (congrArg some (expireNoteWait_early h))) (.refl [] s)
  exact ⟨t, hx, hframe⟩

end Sys2Proof.Machine
end

