-- ==== Sys2Proof/Proofs/HeadActs.lean ====
section
/-! What a lane does when its head has left (R68, R71, R72), to the end of the event. -/

-- Proofs are checked one after another: the whole text, compiled as one, would otherwise start more threads than fit into the
-- check's memory.
set_option Elab.async false

namespace Sys2Proof.Machine

/-! ## The action on the item that comes to the head (R72) -/

theorem headTimer_congr {l : LaneId} {s t : State} (hqueue : (t.lane l).queue = (s.lane l).queue)
    (hentry : ∀ i, t.entry i = s.entry i) (hwork : t.work = s.work) (hafter : ∀ k, t.after k = s.after k) :
    headTimer t l = headTimer s l := by
  unfold headTimer
  rw [hqueue]
  split
  · rw [hentry, hwork, hafter]
  · rfl

theorem headClaims_congr {l : LaneId} {s t : State} (hqueue : (t.lane l).queue = (s.lane l).queue)
    (hentry : ∀ i, t.entry i = s.entry i) : headClaims t l ↔ headClaims s l := by
  unfold headClaims
  rw [hqueue]
  split
  · rfl
  · rw [hentry]
  · rfl

/-- The outcome depends on the lane, the entries, the settings and the claims. -/
theorem HeadActed.congr {l : LaneId} {before : List Claimant} {s t : State} (h : HeadActed l before s)
    (hwait : (t.lane l).noteWait = (s.lane l).noteWait) (hstate : (t.lane l).state = (s.lane l).state)
    (hqueue : (t.lane l).queue = (s.lane l).queue) (hclaims : t.claims = s.claims) (hentry : ∀ i, t.entry i = s.entry i)
    (hwork : t.work = s.work) (hafter : ∀ k, t.after k = s.after k) : HeadActed l before t := by
  obtain ⟨htimer, hclaimed, hkept⟩ := h
  have hheads := headClaims_congr hqueue hentry
  refine ⟨?_, fun hnormal hc => ?_, fun h => ?_⟩
  · rw [hwait, htimer, headTimer_congr hqueue hentry hwork hafter]
  · rw [hclaims]
    exact hclaimed (hstate ▸ hnormal) (hheads.mp hc)
  · rw [hclaims]
    rw [hstate, hheads] at h
    exact hkept h

section

variable {s : State} {l : LaneId}

/-- A lane whose head neither waits for a note nor claims. -/
theorem headActed_nothing (hwait : (s.lane l).noteWait = none) (htimer : headTimer s l = none) (hclaims : ¬headClaims s l) :
    HeadActed l s.claims s :=
  ⟨by rw [hwait, htimer], fun _ h => absurd h hclaims, fun _ => rfl⟩

theorem claimForLane_claims_fault (h : (s.lane l).state = .fault) : (s.claimForLane l).claims = s.claims := by
  rw [claimForLane_fault h]

/-- A lane that claims for its head. -/
theorem headActed_claims (hwait : (s.lane l).noteWait = none) (htimer : headTimer s l = none) (hclaims : headClaims s l) :
    HeadActed l s.claims (s.claimForLane l) := by
  have hframe : Frame [.claims] s (s.claimForLane l) := frame_claimForLane s l
  have hlane := claimForLane_lane s l l
  have hentry (i : RosterIndex) : (s.claimForLane l).entry i = s.entry i := hframe.entry_eq (by simp)
  refine ⟨?_, fun hnormal _ => ?_, fun h => ?_⟩
  · rw [hlane, hwait, headTimer_congr (by rw [hlane]) hentry (hframe.work_eq (by simp))
      (fun k => hframe.after_eq (by simp) k), htimer]
  · rw [hlane] at hnormal
    rw [claimForLane_normal hnormal]
    exact claimed_placeClaim s (.lane l)
  · rw [hlane, headClaims_congr (by rw [hlane]) hentry] at h
    rw [claimForLane_fault (h.resolve_right fun hn => hn hclaims)]

theorem headTimer_queued {i : RosterIndex} (hhead : (s.lane l).queue.head? = some (.entry i))
    (h : (s.entry i).state ≠ .awaitingNote) : headTimer s l = none := by
  unfold headTimer
  rw [hhead]
  exact if_neg h

theorem headClaims_entry {i : RosterIndex} (hhead : (s.lane l).queue.head? = some (.entry i)) : headClaims s l ↔
    (s.entry i).state = .queued ∧
      ((s.entry i).route = some .hold ∨ (s.entry i).route = some .passThrough ∨ (s.entry i).route = some .deface) := by
  unfold headClaims
  rw [hhead]

theorem stopNoteWait_stopped (h : (s.lane l).noteWait = none) : s.stopNoteWait l = s := by
  have hlane : ({ s.lane l with noteWait := none } : Lane) = s.lane l := by rw [← h]
  unfold State.stopNoteWait
  rw [updLane_eq, hlane]
  cases l <;> rfl

/-- The lane acts on the item that has come to its head, no note wait running. -/
theorem headActed_headAction (hwait : (s.lane l).noteWait = none) : HeadActed l s.claims (s.headAction l) := by
  cases hhead : (s.lane l).queue.head? with
  | none =>
    have hempty : (s.lane l).queue = [] := List.head?_eq_none_iff.mp hhead
    rw [headAction_empty hempty]
    refine headActed_nothing hwait ?_ ?_
    · unfold headTimer
      rw [hhead]
    · unfold headClaims
      rw [hhead]
      exact id
  | some item =>
    cases item with
    | marker =>
      rw [headAction_marker hhead]
      refine headActed_claims hwait ?_ ?_
      · unfold headTimer
        rw [hhead]
      · unfold headClaims
        rw [hhead]
        trivial
    | entry i =>
      by_cases hawait : (s.entry i).state = .awaitingNote
      · have hlane := startNoteWait_lane s l
        have hclaims := startNoteWait_claims s l
        have hframe : Frame [.lane l] s (s.startNoteWait l) := frame_setLane s l _
        have hhead' : ((s.startNoteWait l).lane l).queue.head? = some (.entry i) := by rw [hlane]; exact hhead
        have hentry : (s.startNoteWait l).entry i = s.entry i := hframe.entry_eq (by simp)
        rw [headAction_awaiting hhead hawait]
        refine ⟨?_, fun _ hc => ?_, fun _ => hclaims⟩
        · unfold headTimer
          rw [hhead']
          dsimp only
          rw [if_pos (by rw [hentry, hawait]), hframe.work_eq (by simp), hframe.after_eq (by simp), hlane]
        · have hqueued := ((headClaims_entry hhead').mp hc).1
          rw [hentry, hawait] at hqueued
          cases hqueued
      · have htimer := headTimer_queued hhead hawait
        by_cases hqueued : (s.entry i).state = .queued
        · rw [headAction_queued hhead hqueued, stopNoteWait_stopped hwait]
          split
          · exact headActed_claims hwait htimer ((headClaims_entry hhead).mpr ⟨hqueued, ‹_›⟩)
          · exact headActed_nothing hwait htimer fun hc => absurd ((headClaims_entry hhead).mp hc).2 ‹_›
        · rw [headAction_settled hhead hawait hqueued]
          exact headActed_nothing hwait htimer fun hc => hqueued ((headClaims_entry hhead).mp hc).1

theorem headAction_lane (s : State) (l : LaneId) : ∃ wait, (s.headAction l).lane l = { s.lane l with noteWait := wait } := by
  cases hhead : (s.lane l).queue.head? with
  | none => exact ⟨_, by rw [headAction_empty (List.head?_eq_none_iff.mp hhead)]⟩
  | some item =>
    cases item with
    | marker => exact ⟨_, by rw [headAction_marker hhead, claimForLane_lane]⟩
    | entry i =>
      by_cases hawait : (s.entry i).state = .awaitingNote
      · exact ⟨_, by rw [headAction_awaiting hhead hawait, startNoteWait_lane]⟩
      · by_cases hqueued : (s.entry i).state = .queued
        · exact ⟨_, headAction_queued_lane hhead hqueued⟩
        · exact ⟨_, by rw [headAction_settled hhead hawait hqueued]⟩

end

/-! ## The head leaves (R68, R71, R72) -/

theorem afterPop_eq (s : State) (l : LaneId) : s.afterPop l = (s.headAction l).reported l := rfl

/-- The parts that change once the head has left. -/
theorem frame_afterPop_parts (s : State) (l : LaneId) : Frame (arrivalParts l) s (s.afterPop l) :=
  ((frame_headAction s l).mono (by cases l <;> simp [arrivalParts, reportParts])).trans
    ((frame_reported _ l).mono (List.subset_cons_self _ _))

theorem Ends.drainTest {s u t : State} (h : Ends s u.drainTest t) : (∀ n, (t.bay n).bare = (u.bay n).bare) ∧
    (∀ l, (t.lane l).bare = (u.lane l).bare) ∧ (∀ i, t.entry i = u.entry i) ∧ t.claims = u.claims := by
  refine ⟨fun n => ?_, fun l => ?_, fun i => ?_, ?_⟩
  · rw [h.bay, drainTest_bay]
  · rw [h.lane, drainTest_lane]
  · rw [h.entry, drainTest_entry]
  · rw [h.claims, (frame_drainTest u).claims_eq (by simp)]

/-- The permits stand at the end as they stood before the drain test. -/
theorem permitHolds_drainTest {u : State} (h : PermitsHeld u) (l : LaneId) : u.drainTest.permitHolds l = u.permitHolds l := by
  have hafter : (u.drainTest.lane l).permit = u.drainTest.permitHolds l := permitsHeld_drainTest h l
  have hbefore : (u.lane l).permit = u.permitHolds l := h l
  rw [← hafter, drainTest_lane, hbefore]

theorem Ends.drained_permitOnly {r s u t : State} {l : LaneId} (h : Ends s u.drainTest t) (hheld : PermitsHeld u)
    (k : PermitOnly l r u) : PermitOnly l r t := by
  refine h.permitOnly ?_
  unfold PermitOnly at k ⊢
  rw [drainTest_lane, k, permitHolds_drainTest hheld]

theorem Proactive.drainTest {n : BayId} {s u : State} (h : Proactive n s u) : Proactive n s u.drainTest :=
  h.congr (drainTest_bay u n) (by rw [drainTest_lane]) ((frame_drainTest u).work_eq (by simp))

/-- The two outcomes for a bay compose: the second is made from the state the first part of the event left. -/
theorem Proactive.of_bay {n : BayId} {r s t : State} (h : Proactive n r t) (hbay : r.bay n = s.bay n)
    (hrun : r.runState = s.runState) (hseconds : r.lineSeconds = s.lineSeconds) : Proactive n s t := by
  obtain ⟨hchecks, hstays⟩ := h
  rw [hbay, hrun] at hchecks hstays
  have hafter : r.after 40 = s.after 40 := by rw [State.after, State.after, hseconds]
  refine ⟨fun hidle hnot hold => ?_, hstays⟩
  have hc := hchecks hidle hnot hold
  rw [Checks, hbay, hafter] at hc
  exact hc

/-- What a step from `s` leaves of the lane, its permits and its bays, when the head has left in the state `v` (R68, R71,
R72, R129). -/
structure HeadLeft (l : LaneId) (s v t : State) : Prop where
  lane : ∃ wait permit, (t.lane l).bare = { v.lane l with noteWait := wait, permit := permit }.bare
  permit : PermitSet t l
  head : HeadActed l v.claims t
  other : PermitOnly (otherLane l) v t
  bays : ∀ n, laneOf n = l → v.bay n = s.bay n → Proactive n s t
  busy : ∀ n, (v.bay n).state ≠ .idle → (t.bay n).bare = (v.bay n).bare

theorem headLeft {l : LaneId} {s v t : State} (h : Ends s (v.afterPop l).drainTest t) (hwait : (v.lane l).noteWait = none)
    (hrun : v.runState = s.runState) (hseconds : v.lineSeconds = s.lineSeconds) : HeadLeft l s v t := by
  have hact := frame_headAction v l
  have hheld : PermitsHeld (v.afterPop l) := permitsHeld_evalPermits _
  have hpermit (m : LaneId) : PermitOnly m (v.headAction l) t := h.drained_permitOnly hheld (reported_permitOnly _ l m)
  have hbay (n : BayId) : (v.headAction l).bay n = v.bay n := hact.bay_eq (by simp)
  have hrun' : (v.headAction l).runState = v.runState := hact.runState_eq (by simp)
  have hseconds' : (v.headAction l).lineSeconds = v.lineSeconds := hact.lineSeconds_eq (by simp)
  have hentry (i : RosterIndex) : t.entry i = (v.headAction l).entry i := by
    rw [h.entry, drainTest_entry, afterPop_eq, (frame_reported _ l).entry_eq (not_mem_reportParts (by simp) (by simp [bayParts]) l)]
  have hwork : t.work = (v.headAction l).work := by
    rw [h.work, (frame_drainTest _).work_eq (by simp), afterPop_eq,
      (frame_reported _ l).work_eq (not_mem_reportParts (by simp) (by decide) l)]
  refine ⟨?_, (hpermit l).permitSet, ?_, (hpermit _).of_bare ?_, fun n hn hkept => ?_, fun n hbusy => ?_⟩
  · obtain ⟨wait, hlane⟩ := headAction_lane v l
    have hown := hpermit l
    unfold PermitOnly at hown
    exact ⟨wait, _, by rw [hown, hlane]⟩
  · have hown := hpermit l
    unfold PermitOnly at hown
    refine (headActed_headAction hwait).congr congr(Lane.noteWait $hown) congr(Lane.state $hown) congr(Lane.queue $hown)
      ?_ hentry hwork fun k => ?_
    · rw [h.claims, (frame_drainTest _).claims_eq (by simp), afterPop_eq, reported_claims]
    · rw [h.after, (frame_drainTest _).after_eq (by simp), afterPop_eq,
        (frame_reported _ l).after_eq (not_mem_reportParts (by simp) (by decide) l)]
  · rw [hact.lane_bare_eq (by cases l <;> simp [otherLane])]
  · exact h.proactive (proactive_reported hn ((hbay n).trans hkept) (hrun'.trans hrun) (hseconds'.trans hseconds)).drainTest
  · rw [h.bay, drainTest_bay, afterPop_eq]
    by_cases hn : laneOf n = l
    · rw [(proactive_reported hn rfl rfl rfl).2 (.inl (by rwa [hbay])), hbay]
    · rw [(frame_reported _ l).bay_eq (by simpa [reportParts] using not_mem_groupParts hn), hbay]

theorem HeadLeft.parts {l : LaneId} {s v t : State} (h : HeadLeft l s v t) : (t.lane l).queue = (v.lane l).queue ∧
    (t.lane l).headInFlight = (v.lane l).headInFlight ∧ (t.lane l).state = (v.lane l).state ∧
    (t.lane l).track = (v.lane l).track ∧ (t.lane l).trackOut = (v.lane l).trackOut := by
  obtain ⟨wait, permit, hlane⟩ := h.lane
  exact ⟨congr(Lane.queue $hlane), congr(Lane.headInFlight $hlane), congr(Lane.state $hlane), congr(Lane.track $hlane),
    congr(Lane.trackOut $hlane)⟩

end Sys2Proof.Machine
end

