-- ==== Sys2Proof/Proofs/Allocation.lean ====
section
/-! BAY_ALLOCATION (R73, R95, R129): the candidate, the bay that takes it, and the bays that are passed over. -/

-- Proofs are checked one after another: the whole text, compiled as one, would otherwise start more threads than fit into the
-- check's memory.
set_option Elab.async false

namespace Sys2Proof.Machine

/-! ## The bays that the candidate passes (R73, R129) -/

/-- A bay that is not available for the candidate: offered it, it is short and checks its zero. -/
def State.passes (s : State) (n : BayId) : State :=
  if (s.bay n).state = .idle ∧ (s.bay n).present = false then s.enterZeroing n none else s

/-- The candidate has passed the bays of a list. -/
def State.passed (s : State) (bays : List BayId) : State := bays.foldl State.passes s

/-- A bay that the candidate has passed. -/
def Bay.passedOver (b : Bay) (expiry : Seconds) : Bay :=
  if b.state = .idle ∧ b.present = false then b.checking none expiry else b

theorem frame_passes (s : State) (n : BayId) : Frame [.bay n] s (s.passes n) :=
  .ite (fun _ => frame_enterZeroing s n none) fun _ => .refl _ s

theorem frame_passed (s : State) (bays : List BayId) : Frame (bays.map Part.bay) s (s.passed bays) := by
  induction bays generalizing s with
  | nil => exact .refl _ s
  | cons n rest ih =>
    exact ((frame_passes s n).mono (by simp)).trans ((ih (s.passes n)).mono (by simp))

theorem passes_bay {s : State} (hrun : s.runState ≠ .eStopped) (n m : BayId) :
    (s.passes n).bay m = if n = m then (s.bay m).passedOver (s.after 40) else s.bay m := by
  unfold State.passes Bay.passedOver
  by_cases hnm : n = m
  · subst hnm
    rw [if_pos rfl]
    split
    · exact enterZeroing_bay n none (stopped_eq_false hrun)
    · rfl
  · rw [if_neg hnm, ← State.passes, (frame_passes s n).bay_eq (by simpa using Ne.symm hnm)]

theorem passed_bay {s : State} (hrun : s.runState ≠ .eStopped) {bays : List BayId} (hnodup : bays.Nodup) (n : BayId) :
    (s.passed bays).bay n = if n ∈ bays then (s.bay n).passedOver (s.after 40) else s.bay n := by
  refine foldl_bay (P := Frame bayParts s) (g := fun _ b => b.passedOver (s.after 40))
    (fun n t ht => ht.trans ((frame_passes t n).mono (by simpa using part_bay_mem n))) (fun n t m ht => ?_) hnodup (.refl _ s) n
  rw [passes_bay (by rwa [ht.runState_eq (by decide)]), ht.after_eq (by decide)]

section

variable {s : State} {i : RosterIndex} {source : TransferSource} {need : Nat}

theorem offerTo_passes {n : BayId} {rest : List BayId} (h : ¬Available n need s) :
    s.offerTo i source need (n :: rest) = (s.passes n).offerTo i source need rest := by
  unfold State.passes
  rw [State.offerTo]
  split
  · obtain ⟨hidle, hempty⟩ := ‹_ ∧ _›
    exact if_neg fun hneed => h ⟨hidle, hempty, hneed⟩
  · rfl

theorem offerTo_takes {n : BayId} {rest : List BayId} (h : Available n need s) :
    s.offerTo i source need (n :: rest) = (s.takeCandidate n i source, true) := by
  obtain ⟨hidle, hempty, hneed⟩ := h
  rw [State.offerTo, if_pos ⟨hidle, hempty⟩, if_pos hneed]

/-- The candidate passes the bays that are not available. -/
theorem offerTo_passed {bays rest : List BayId} (hnodup : bays.Nodup) (h : ∀ n ∈ bays, ¬Available n need s) :
    s.offerTo i source need (bays ++ rest) = (s.passed bays).offerTo i source need rest := by
  induction bays generalizing s with
  | nil => rfl
  | cons n bays ih =>
    obtain ⟨hn, hnodup⟩ := List.nodup_cons.mp hnodup
    rw [List.cons_append, offerTo_passes (h n List.mem_cons_self)]
    refine ih hnodup fun m hm => ?_
    have hbay : (s.passes n).bay m = s.bay m :=
      (frame_passes s n).bay_eq (by simpa using fun heq : m = n => hn (heq ▸ hm))
    rw [Available, hbay]
    exact h m (List.mem_cons_of_mem _ hm)

end

/-- The bays of a bay's group that come before it. -/
def before (n : BayId) : List BayId := (groupOf (laneOf n)).filter (· < n)

theorem mem_before {n m : BayId} : m ∈ before n ↔ laneOf m = laneOf n ∧ m < n := by
  simp [before, mem_groupOf]

theorem before_nodup (n : BayId) : (before n).Nodup := (groupOf_nodup _).filter _

theorem groupOf_split (n : BayId) :
    groupOf (laneOf n) = before n ++ n :: (groupOf (laneOf n)).filter (n < ·) := by
  revert n
  decide

theorem offerTo_none {s : State} {i : RosterIndex} {source : TransferSource} {need : Nat} {l : LaneId}
    (h : ∀ n, laneOf n = l → ¬Available n need s) :
    s.offerTo i source need (groupOf l) = (s.passed (groupOf l), false) := by
  have hpassed := offerTo_passed (i := i) (source := source) (rest := []) (groupOf_nodup l) fun n hn =>
    h n ((mem_groupOf n l).mp hn)
  rwa [List.append_nil] at hpassed

theorem frame_passed_group (s : State) (l : LaneId) : Frame (groupParts l) s (s.passed (groupOf l)) := frame_passed s _

/-! ## The bay that takes the candidate (R74, R95) -/

/-- The candidate has been taken by a bay, its source not yet left. -/
def State.allotted (s : State) (n : BayId) (i : RosterIndex) (source : TransferSource) : State :=
  (s.passed (before n)).takeCandidate n i source

theorem offerTo_allotted {s : State} {n : BayId} {i : RosterIndex} {source : TransferSource} {need : Nat}
    (h : Available n need s) (hbefore : ∀ m, laneOf m = laneOf n → m < n → ¬Available m need s) :
    s.offerTo i source need (groupOf (laneOf n)) = (s.allotted n i source, true) := by
  have hbay : (s.passed (before n)).bay n = s.bay n :=
    (frame_passed s _).bay_eq (by simp [mem_before])
  rw [groupOf_split n, offerTo_passed (before_nodup n) fun m hm => (mem_before.mp hm).elim (hbefore m)]
  refine offerTo_takes ?_
  rwa [Available, hbay]

theorem frame_takeCandidate (s : State) (n : BayId) (i : RosterIndex) (source : TransferSource) :
    Frame [.bay n, .entry i] s (s.takeCandidate n i source) :=
  ((frame_setBay s n _).mono (by simp)).trans ((frame_reportBegin _ (.entry i) _).mono (by simp [itemParts]))

section

variable {s : State} {n : BayId} {i : RosterIndex} {source : TransferSource}

theorem frame_allotted (s : State) (n : BayId) (i : RosterIndex) (source : TransferSource) :
    Frame (.entry i :: groupParts (laneOf n)) s (s.allotted n i source) := by
  have hn : Part.bay n ∈ groupParts (laneOf n) := by simp [groupParts, mem_groupOf]
  refine ((frame_passed s (before n)).mono ?_).trans ((frame_takeCandidate _ n i source).mono (by simp [hn]))
  exact List.subset_cons_of_subset _ (List.map_subset _ (List.filter_subset_self _))

theorem takeCandidate_bay (s : State) (n : BayId) (i : RosterIndex) (source : TransferSource) :
    (s.takeCandidate n i source).bay n = (s.bay n).takes i (begunTransit s (.entry i) source) := by
  rw [State.takeCandidate, (frame_reportBegin _ (.entry i) _).bay_eq (by simp [itemParts]), updBay_eq, bay_setBay_self]
  rfl

theorem allotted_bay_taker (s : State) (n : BayId) (i : RosterIndex) (source : TransferSource) :
    (s.allotted n i source).bay n = (s.bay n).takes i (begunTransit s (.entry i) source) := by
  have hframe := frame_passed s (before n)
  rw [State.allotted, takeCandidate_bay, hframe.bay_eq (by simp [mem_before]), begunTransit, begunTransit,
    hframe.work_eq (by simp), hframe.after_eq (by simp)]

theorem allotted_bay (hrun : s.runState ≠ .eStopped) {m : BayId} (hm : m ≠ n) : (s.allotted n i source).bay m =
    if laneOf m = laneOf n ∧ m < n then (s.bay m).passedOver (s.after 40) else s.bay m := by
  rw [State.allotted, (frame_takeCandidate _ n i source).bay_eq (by simpa using hm), passed_bay hrun (before_nodup n)]
  simp only [mem_before]

theorem allotted_entry (hqueued : (s.entry i).state = .queued) :
    (s.allotted n i source).entry i = { (s.entry i).leaving .testing with lastBay := some n }.edited := by
  have hpassed : (s.passed (before n)).entry i = s.entry i := (frame_passed s _).entry_eq (by simp)
  rw [State.allotted, State.takeCandidate, State.reportBegin, updBay_eq, setBay_entry, hpassed, hqueued]
  rw [if_pos (by rfl), editEntry_eq, entry_setEntry, if_pos rfl, setBay_entry, hpassed]
  rfl

end

/-! ## The attempt (R73) -/

section

variable {s : State} {l : LaneId} {i : RosterIndex}

theorem allocates_iff (s : State) : s.runState.allocates = true ↔
    s.runState = .ready ∨ s.runState = .running ∨ s.runState = .stopping := by
  cases s.runState <;> decide

theorem allocate_kept (h : s.runState.allocates = false) (l : LaneId) : s.allocate l = s := if_neg (by simp [h])

theorem allocate_track (hrun : s.runState.allocates = true)
    (htrack : (s.lane l).track.head? = some (.occupied (.entry i))) :
    s.allocate l = if (s.lane l).trackOut then s else s.allocateTrack l i := by
  obtain ⟨rest, htrack⟩ := List.head?_eq_some_iff.mp htrack
  unfold State.allocate
  rw [if_pos hrun, htrack]

theorem allocate_head (hrun : s.runState.allocates = true)
    (htrack : ∀ j : RosterIndex, (s.lane l).track.head? ≠ some (.occupied (.entry j)))
    (hhead : (s.lane l).queue.head? = some (.entry i)) :
    s.allocate l = if (s.lane l).state = .normal ∧ (s.lane l).headInFlight = false ∧ (s.entry i).state = .queued ∧
      (s.entry i).route = some .test then s.allocateHead l i else s := by
  obtain ⟨rest, hqueue⟩ := List.head?_eq_some_iff.mp hhead
  unfold State.allocate
  rw [if_pos hrun, hqueue]
  split
  · rename_i j _ heq
    exact absurd (by rw [heq]; rfl) (htrack j)
  · rfl

theorem allocate_empty (hrun : s.runState.allocates = true)
    (htrack : ∀ j : RosterIndex, (s.lane l).track.head? ≠ some (.occupied (.entry j)))
    (hhead : ∀ i : RosterIndex, (s.lane l).queue.head? ≠ some (.entry i)) : s.allocate l = s := by
  unfold State.allocate
  rw [if_pos hrun]
  split
  · rename_i j _ heq
    exact absurd (by rw [heq]; rfl) (htrack j)
  · split
    · rename_i j _ heq
      exact absurd (by rw [heq]; rfl) (hhead j)
    · rfl

theorem needOf_eq {p : Params} (h : (s.entry i).params = some p) : s.needOf i = s.allowance p := by
  unfold State.needOf
  rw [h]

end

end Sys2Proof.Machine
end

