-- ==== Sys2Proof/Proofs/BayAllocation.lean ====
section
/-! BAY_ALLOCATION (R73, R95, R129): what the attempt leaves, for a lane head, for a track head, and where no bay is available. -/

-- Proofs are checked one after another: the whole text, compiled as one, would otherwise start more threads than fit into the
-- check's memory.
set_option Elab.async false

namespace Sys2Proof.Machine

theorem not_stopped_of_allocates {s : State}
    (h : s.runState = .ready ∨ s.runState = .running ∨ s.runState = .stopping) : s.runState ≠ .eStopped := by
  rcases h with h | h | h <;> simp [h]

theorem passedOver_checks {b : Bay} (hidle : b.state = .idle) (hempty : b.present = false) (expiry : Seconds) :
    b.passedOver expiry = b.checking none expiry := if_pos ⟨hidle, hempty⟩

theorem passedOver_kept {b : Bay} (h : ¬(b.state = .idle ∧ b.present = false)) (expiry : Seconds) :
    b.passedOver expiry = b := if_neg h

theorem Ends.drained_bay {s u t : State} (h : Ends s u.drainTest t) (n : BayId) : (t.bay n).bare = (u.bay n).bare := by
  rw [h.bay, drainTest_bay]

/-- A bay that the candidate has passed, at the end of the event. -/
theorem Ends.passedOver {s u t : State} {n : BayId} (h : Ends s u.drainTest t)
    (hbay : u.bay n = (s.bay n).passedOver (s.after 40)) :
    ((s.bay n).state = .idle → (s.bay n).present = false → Checks n none s t) ∧
      (¬((s.bay n).state = .idle ∧ (s.bay n).present = false) → t.bay n = s.bay n) := by
  refine ⟨fun hidle hempty => ?_, fun hnot => h.kept n ?_⟩
  · rw [Checks, h.drained_bay, hbay, passedOver_checks hidle hempty]
  · rw [drainTest_bay, hbay, passedOver_kept hnot]

/-! ## The lane head -/

section

variable {s : State} {n : BayId} {i : RosterIndex}

/-- The bay has taken the lane head, and the lane has given it up. -/
def State.headGiven (s : State) (n : BayId) (i : RosterIndex) : State :=
  (s.allotted n i (.laneHead (laneOf n))).popHead (laneOf n)

theorem frame_popHead (s : State) (l : LaneId) : Frame [.lane l] s (s.popHead l) := frame_setLane s l _

theorem popHead_lane (s : State) (l : LaneId) : (s.popHead l).lane l =
    { s.lane l with queue := (s.lane l).queue.tail, headInFlight := true, noteWait := none } := by cases l <;> rfl

theorem allotted_lane (s : State) (n : BayId) (i : RosterIndex) (source : TransferSource) (l : LaneId) :
    ((s.allotted n i source).lane l).bare = (s.lane l).bare :=
  (frame_allotted s n i source).lane_bare_eq (by simp [groupParts])

theorem headGiven_lane (s : State) (n : BayId) (i : RosterIndex) : ((s.headGiven n i).lane (laneOf n)).bare =
    { s.lane (laneOf n) with
      queue := (s.lane (laneOf n)).queue.tail, headInFlight := true, noteWait := none }.bare := by
  have hlane := allotted_lane s n i (.laneHead (laneOf n)) (laneOf n)
  rw [State.headGiven, popHead_lane]
  exact congr({ $hlane with
    queue := (Lane.queue $hlane).tail, headInFlight := true, noteWait := none })

theorem frame_headGiven (s : State) (n : BayId) (i : RosterIndex) :
    Frame ([.entry i, .lane (laneOf n)] ++ groupParts (laneOf n)) s (s.headGiven n i) :=
  ((frame_allotted s n i _).mono (by intro p; simp; tauto)).trans ((frame_popHead _ _).mono (by simp))

theorem headGiven_bay (s : State) (n : BayId) (i : RosterIndex) (m : BayId) :
    (s.headGiven n i).bay m = (s.allotted n i (.laneHead (laneOf n))).bay m := (frame_popHead _ _).bay_eq (by simp)

theorem headGiven_claims (s : State) (n : BayId) (i : RosterIndex) : (s.headGiven n i).claims = s.claims :=
  (frame_headGiven s n i).claims_eq (by simp [groupParts])

/-- The parts of an event in which the lane's head leaves for a bay. -/
theorem frame_headGiven_event (s : State) (n : BayId) (i : RosterIndex) :
    Frame ([.entry i, .lane .a, .lane .b, .claims, .runState] ++ groupParts (laneOf n)) s
      ((s.headGiven n i).afterPop (laneOf n)).drainTest := by
  refine ((frame_headGiven s n i).mono ?_).trans
    (((frame_afterPop_parts _ _).mono ?_).trans ((frame_drainTest _).mono (by simp)))
  · cases laneOf n <;> (intro p; simp; tauto)
  · intro p
    simp only [arrivalParts, reportParts, List.mem_append, List.mem_cons]
    tauto

/-- The lane head goes to the lowest available bay of the group. -/
theorem allocate_headGiven (hrun : s.runState = .ready ∨ s.runState = .running ∨ s.runState = .stopping)
    (htrack : ∀ j : RosterIndex, (s.lane (laneOf n)).track.head? ≠ some (.occupied (.entry j)))
    (hnormal : (s.lane (laneOf n)).state = .normal) (hflight : (s.lane (laneOf n)).headInFlight = false)
    (hhead : (s.lane (laneOf n)).queue.head? = some (.entry i)) (hqueued : (s.entry i).state = .queued)
    (hroute : (s.entry i).route = some .test) {p : Params} (hp : (s.entry i).params = some p)
    (havail : Available n (s.allowance p) s)
    (hbefore : ∀ m, laneOf m = laneOf n → m < n → ¬Available m (s.allowance p) s) :
    s.allocate (laneOf n) = (s.headGiven n i).afterPop (laneOf n) := by
  rw [allocate_head ((allocates_iff s).mpr hrun) htrack hhead, if_pos ⟨hnormal, hflight, hqueued, hroute⟩,
    State.allocateHead, needOf_eq hp, offerTo_allotted havail hbefore]
  rfl

theorem headGiven_gives (hrun : s.runState = .ready ∨ s.runState = .running ∨ s.runState = .stopping)
    (htrack : ∀ j : RosterIndex, (s.lane (laneOf n)).track.head? ≠ some (.occupied (.entry j)))
    (hnormal : (s.lane (laneOf n)).state = .normal) (hflight : (s.lane (laneOf n)).headInFlight = false)
    (hhead : (s.lane (laneOf n)).queue.head? = some (.entry i)) (hqueued : (s.entry i).state = .queued)
    (hroute : (s.entry i).route = some .test) {p : Params} (hp : (s.entry i).params = some p)
    (havail : Available n (s.allowance p) s)
    (hbefore : ∀ m, laneOf m = laneOf n → m < n → ¬Available m (s.allowance p) s) :
    Gives (.bayAllocation (laneOf n)) s fun t =>
      (t.bay n).bare = ((s.bay n).takes i (begunTransit s (.entry i) (.laneHead (laneOf n)))).bare ∧
        t.entry i = { (s.entry i).leaving .testing with lastBay := some n }.edited ∧
        (t.lane (laneOf n)).queue = (s.lane (laneOf n)).queue.tail ∧ (t.lane (laneOf n)).headInFlight = true ∧
        PermitSet t (laneOf n) ∧ (t.lane (laneOf n)).state = .normal ∧
        (t.lane (laneOf n)).track = (s.lane (laneOf n)).track ∧
        (t.lane (laneOf n)).trackOut = (s.lane (laneOf n)).trackOut ∧ HeadActed (laneOf n) s.claims t ∧
        PermitOnly (otherLane (laneOf n)) s t ∧
        (∀ m, laneOf m = laneOf n → m < n →
          ((s.bay m).state = .idle → (s.bay m).present = false → Checks m none s t) ∧
          (¬((s.bay m).state = .idle ∧ (s.bay m).present = false) → Proactive m s t)) ∧
        (∀ m, laneOf m = laneOf n → n < m → Proactive m s t) ∧ DrainTested s t ∧
        Frame ([.entry i, .lane .a, .lane .b, .claims, .runState] ++ groupParts (laneOf n)) s t := by
  have hstop := not_stopped_of_allocates hrun
  have hgiven := frame_headGiven s n i
  have hlane := headGiven_lane s n i
  have htaken : (s.headGiven n i).bay n = (s.bay n).takes i (begunTransit s (.entry i) (.laneHead (laneOf n))) := by
    rw [headGiven_bay, allotted_bay_taker]
  have hbay {m : BayId} (hm : m ≠ n) := (headGiven_bay s n i m).trans (allotted_bay hstop hm)
  have hrunGiven : (s.headGiven n i).runState = s.runState := hgiven.runState_eq (by simp [groupParts])
  have hsecondsGiven : (s.headGiven n i).lineSeconds = s.lineSeconds := hgiven.lineSeconds_eq (by simp [groupParts])
  have hframe := frame_headGiven_event s n i
  obtain ⟨t, hx, hframe, hends⟩ := event_ends (c := .bayAllocation (laneOf n))
    (exec_effect (congrArg (fun u : State => some u.drainTest)
      (allocate_headGiven hrun htrack hnormal hflight hhead hqueued hroute hp havail hbefore))) hframe
  have hleft : HeadLeft (laneOf n) s (s.headGiven n i) t :=
    headLeft hends congr(Lane.noteWait $hlane) hrunGiven hsecondsGiven
  obtain ⟨hqueue, hfly, hstate, htrk, hout⟩ := hleft.parts
  have hhead := hleft.head
  rw [headGiven_claims] at hhead
  refine ⟨t, hx, ?_, ?_, hqueue.trans congr(Lane.queue $hlane), hfly.trans congr(Lane.headInFlight $hlane), hleft.permit,
    (hstate.trans congr(Lane.state $hlane)).trans hnormal, htrk.trans congr(Lane.track $hlane),
    hout.trans congr(Lane.trackOut $hlane), hhead, hleft.other.of_bare ?_, fun m hm hlt => ⟨fun hidle hempty => ?_, fun hnot => ?_⟩,
    fun m hm hlt => ?_, hends.drainTested ?_, hframe⟩
  · rw [hleft.busy n (by rw [htaken]; simp [Bay.takes]), htaken]
  · rw [hends.entry, drainTest_entry, (frame_afterPop_parts _ _).entry_eq (not_mem_arrivalParts (by simp) (by simp [bayParts]) _),
      State.headGiven, (frame_popHead _ _).entry_eq (by simp), allotted_entry hqueued]
  · exact hgiven.lane_bare_eq (by cases laneOf n <;> simp [otherLane, groupParts])
  · have hchecks := hbay hlt.ne
    rw [if_pos ⟨hm, hlt⟩, passedOver_checks hidle hempty] at hchecks
    rw [Checks, hleft.busy m (by rw [hchecks]; simp [Bay.checking]), hchecks]
  · have hkept := hbay hlt.ne
    rw [if_pos ⟨hm, hlt⟩, passedOver_kept hnot] at hkept
    exact hleft.bays m hm hkept
  · have hkept := hbay hlt.ne'
    rw [if_neg fun h => absurd h.2 (not_lt_of_gt hlt)] at hkept
    exact hleft.bays m hm hkept
  · rw [(frame_afterPop_parts _ _).runState_eq (not_mem_arrivalParts (by simp) (by decide) _), hrunGiven]

end

/-! ## The track head -/

section

variable {s : State} {n : BayId} {i : RosterIndex}

/-- The bay has taken the track head, and the track has given it up. -/
def State.trackGiven (s : State) (n : BayId) (i : RosterIndex) : State :=
  (s.allotted n i (.trackHead (laneOf n))).popTrack (laneOf n)

theorem frame_popTrack (s : State) (l : LaneId) : Frame [.lane l] s (s.popTrack l) := frame_setLane s l _

theorem popTrack_lane (s : State) (l : LaneId) : (s.popTrack l).lane l =
    { s.lane l with track := (s.lane l).track.tail, trackOut := true } := by cases l <;> rfl

theorem trackGiven_lane (s : State) (n : BayId) (i : RosterIndex) : ((s.trackGiven n i).lane (laneOf n)).bare =
    { s.lane (laneOf n) with track := (s.lane (laneOf n)).track.tail, trackOut := true }.bare := by
  have hlane := allotted_lane s n i (.trackHead (laneOf n)) (laneOf n)
  rw [State.trackGiven, popTrack_lane]
  exact congr({ $hlane with track := (Lane.track $hlane).tail, trackOut := true })

theorem frame_trackGiven (s : State) (n : BayId) (i : RosterIndex) :
    Frame ([.entry i, .lane (laneOf n), .runState] ++ groupParts (laneOf n)) s (s.trackGiven n i) :=
  ((frame_allotted s n i _).mono (by intro p; simp; tauto)).trans ((frame_popTrack _ _).mono (by simp))

theorem trackGiven_bay (s : State) (n : BayId) (i : RosterIndex) (m : BayId) :
    (s.trackGiven n i).bay m = (s.allotted n i (.trackHead (laneOf n))).bay m := (frame_popTrack _ _).bay_eq (by simp)

/-- The track head goes to the lowest available bay of the group. -/
theorem allocate_trackGiven (hrun : s.runState = .ready ∨ s.runState = .running ∨ s.runState = .stopping)
    (hout : (s.lane (laneOf n)).trackOut = false)
    (htrack : (s.lane (laneOf n)).track.head? = some (.occupied (.entry i))) {p : Params}
    (hp : (s.entry i).params = some p) (havail : Available n (s.allowance p) s)
    (hbefore : ∀ m, laneOf m = laneOf n → m < n → ¬Available m (s.allowance p) s) :
    s.allocate (laneOf n) = s.trackGiven n i := by
  rw [allocate_track ((allocates_iff s).mpr hrun) htrack, hout, State.allocateTrack, needOf_eq hp,
    offerTo_allotted havail hbefore]
  rfl

theorem trackGiven_gives (hrun : s.runState = .ready ∨ s.runState = .running ∨ s.runState = .stopping)
    (hout : (s.lane (laneOf n)).trackOut = false)
    (htrack : (s.lane (laneOf n)).track.head? = some (.occupied (.entry i))) (hqueued : (s.entry i).state = .queued)
    {p : Params} (hp : (s.entry i).params = some p) (havail : Available n (s.allowance p) s)
    (hbefore : ∀ m, laneOf m = laneOf n → m < n → ¬Available m (s.allowance p) s) :
    Gives (.bayAllocation (laneOf n)) s fun t =>
      (t.bay n).bare = ((s.bay n).takes i (begunTransit s (.entry i) (.trackHead (laneOf n)))).bare ∧
        t.entry i = { (s.entry i).leaving .testing with lastBay := some n }.edited ∧
        (t.lane (laneOf n)).bare =
          { s.lane (laneOf n) with track := (s.lane (laneOf n)).track.tail, trackOut := true }.bare ∧
        (∀ m, laneOf m = laneOf n → m < n →
          ((s.bay m).state = .idle → (s.bay m).present = false → Checks m none s t) ∧
          (¬((s.bay m).state = .idle ∧ (s.bay m).present = false) → t.bay m = s.bay m)) ∧
        (∀ m, laneOf m = laneOf n → n < m → t.bay m = s.bay m) ∧ DrainTested s t ∧
        Frame ([.entry i, .lane (laneOf n), .runState] ++ groupParts (laneOf n)) s t := by
  have hstop := not_stopped_of_allocates hrun
  have hbay {m : BayId} (hm : m ≠ n) := (trackGiven_bay s n i m).trans (allotted_bay hstop hm)
  obtain ⟨t, hx, hframe, hends⟩ := event_ends (c := .bayAllocation (laneOf n))
    (exec_effect (congrArg (fun u : State => some u.drainTest) (allocate_trackGiven hrun hout htrack hp havail hbefore)))
    ((frame_trackGiven s n i).trans ((frame_drainTest _).mono (by simp)))
  refine ⟨t, hx, ?_, ?_, ?_, fun m hm hlt => hends.passedOver ?_, fun m hm hlt => hends.kept m ?_, hends.drainTested ?_, hframe⟩
  · rw [hends.drained_bay, trackGiven_bay, allotted_bay_taker]
  · rw [hends.entry, drainTest_entry, State.trackGiven, (frame_popTrack _ _).entry_eq (by simp), allotted_entry hqueued]
  · rw [hends.lane, drainTest_lane, trackGiven_lane]
  · rw [hbay hlt.ne, if_pos ⟨hm, hlt⟩]
  · rw [drainTest_bay, hbay hlt.ne', if_neg fun h => absurd h.2 (not_lt_of_gt hlt)]
  · rw [State.trackGiven, (frame_popTrack _ _).runState_eq (by simp), (frame_allotted _ _ _ _).runState_eq (by simp [groupParts])]

end

/-! ## No bay is available, and no attempt -/

section

variable {s : State} {l : LaneId} {i : RosterIndex}

/-- The attempt's condition on the track head and the lane head (R73). -/
def State.candidate (s : State) (l : LaneId) (i : RosterIndex) : Prop :=
  (s.lane l).track.head? = some (.occupied (.entry i)) ∧ (s.lane l).trackOut = false ∨
    (s.lane l).track.head? ≠ some (.occupied (.entry i)) ∧ (s.lane l).state = .normal ∧
      (s.lane l).headInFlight = false ∧ (s.entry i).state = .queued ∧ (s.entry i).route = some .test

/-- With no bay available the candidate stays. -/
theorem allocate_passed (hcand : (s.lane l).track.head? = some (.occupied (.entry i)) ∨
      (∀ j : RosterIndex, (s.lane l).track.head? ≠ some (.occupied (.entry j))) ∧
        (s.lane l).queue.head? = some (.entry i)) {p : Params} (hp : (s.entry i).params = some p)
    (hnone : ∀ n, laneOf n = l → ¬Available n (s.allowance p) s) :
    (s.runState.allocates = true → s.candidate l i → s.allocate l = s.passed (groupOf l)) ∧
      (s.allocate l = s ∨ s.runState.allocates = true ∧ s.allocate l = s.passed (groupOf l)) := by
  have hoffer (source : TransferSource) := offerTo_none (i := i) (source := source) hnone
  cases hrun : s.runState.allocates with
  | false => exact ⟨fun h => by simp at h, .inl (allocate_kept hrun l)⟩
  | true =>
    rcases hcand with htrack | ⟨htrack, hhead⟩
    · have heq : s.allocateTrack l i = s.passed (groupOf l) := by
        rw [State.allocateTrack, needOf_eq hp, hoffer]
        rfl
      rw [allocate_track hrun htrack, heq]
      refine ⟨fun _ h => ?_, ?_⟩
      · rw [(h.resolve_right fun h => h.1 htrack).2]
        rfl
      · split
        · exact .inl rfl
        · exact .inr ⟨rfl, rfl⟩
    · have heq : s.allocateHead l i = s.passed (groupOf l) := by
        rw [State.allocateHead, needOf_eq hp, hoffer]
        rfl
      rw [allocate_head hrun htrack hhead, heq]
      refine ⟨fun _ h => ?_, ?_⟩
      · exact if_pos (h.resolve_left fun h => htrack i h.1).2
      · split
        · exact .inr ⟨rfl, rfl⟩
        · exact .inl rfl

theorem passed_gives (hcand : (s.lane l).track.head? = some (.occupied (.entry i)) ∨
      (∀ j : RosterIndex, (s.lane l).track.head? ≠ some (.occupied (.entry j))) ∧
        (s.lane l).queue.head? = some (.entry i)) {p : Params} (hp : (s.entry i).params = some p)
    (hnone : ∀ n, laneOf n = l → ¬Available n (s.allowance p) s) :
    Gives (.bayAllocation l) s fun t => DrainTested s t ∧ Frame (.runState :: groupParts l) s t ∧
      (s.runState = .ready ∨ s.runState = .running ∨ s.runState = .stopping → s.candidate l i → ∀ m, laneOf m = l →
        ((s.bay m).state = .idle → (s.bay m).present = false → Checks m none s t) ∧
          (¬((s.bay m).state = .idle ∧ (s.bay m).present = false) → t.bay m = s.bay m)) := by
  obtain ⟨hpassed, hcases⟩ := allocate_passed hcand hp hnone
  have hframe : Frame (groupParts l) s (s.allocate l) := by
    rcases hcases with h | ⟨-, h⟩
    · rw [h]
      exact .refl _ s
    · rw [h]
      exact frame_passed_group s l
  obtain ⟨t, hx, hstep, hends⟩ := event_ends (c := .bayAllocation l) (exec_effect rfl)
    ((hframe.mono (List.subset_cons_self .runState _)).trans ((frame_drainTest _).mono (by simp)))
  refine ⟨t, hx, hends.drainTested (hframe.runState_eq (by simp [groupParts])), hstep, fun hrun hc m hm => ?_⟩
  refine hends.passedOver ?_
  rw [hpassed ((allocates_iff s).mpr hrun) hc, passed_bay (not_stopped_of_allocates hrun) (groupOf_nodup l),
    if_pos ((mem_groupOf m l).mpr hm)]

/-- A candidate whose source has a transfer in flight, or a head that is none. -/
theorem allocate_nothing (h : (∃ i : RosterIndex, (s.lane l).track.head? = some (.occupied (.entry i))) ∧
      (s.lane l).trackOut = true ∨
      (∀ j : RosterIndex, (s.lane l).track.head? ≠ some (.occupied (.entry j))) ∧
        ((s.lane l).state = .fault ∨ (s.lane l).headInFlight = true ∨
          ∀ i, (s.lane l).queue.head? = some (.entry i) →
            (s.entry i).state ≠ .queued ∨ (s.entry i).route ≠ some .test)) : s.allocate l = s := by
  cases hrun : s.runState.allocates with
  | false => exact allocate_kept hrun l
  | true =>
    rcases h with ⟨⟨i, htrack⟩, hout⟩ | ⟨htrack, hno⟩
    · rw [allocate_track hrun htrack, hout]
      rfl
    · by_cases hhead : ∃ i : RosterIndex, (s.lane l).queue.head? = some (.entry i)
      · obtain ⟨i, hhead⟩ := hhead
        rw [allocate_head hrun htrack hhead]
        refine if_neg fun ⟨hnormal, hflight, hqueued, hroute⟩ => ?_
        rcases hno with hfault | hflying | hother
        · rw [hnormal] at hfault
          cases hfault
        · rw [hflight] at hflying
          cases hflying
        · exact (hother i hhead).elim (fun h => h hqueued) fun h => h hroute
      · exact allocate_empty hrun htrack fun i hi => hhead ⟨i, hi⟩

end

/-- Settles O47. -/
theorem bayAllocation : Obligations.BayAllocation := by
  refine ⟨fun s w hw => ⟨?_, fun p => ?_⟩, fun s n => ⟨fun i hi => ?_, fun hi => ?_, ?_⟩, fun n s => ?_, fun n s => ?_,
    fun l i s hcand p hp hnone => passed_gives hcand hp hnone, fun l s hrun => ?_, fun l s hno => ?_⟩
  · rw [State.work, hw]
    rfl
  · rw [State.allowance, State.work, hw]
    rfl
  · rw [State.bayParams, hi]
  · rw [State.bayParams, hi]
  · unfold State.short
    cases hp : s.bayParams n <;> simp
  · exact fun hrun htrack hnormal hflight i hhead hqueued hroute p hp havail hbefore =>
      headGiven_gives hrun htrack hnormal hflight hhead hqueued hroute hp havail hbefore
  · exact fun hrun hout i htrack hqueued p hp havail hbefore => trackGiven_gives hrun hout htrack hqueued hp havail hbefore
  · have hkept : s.allocate l = s := allocate_kept (by rcases hrun with h | h <;> rw [h] <;> rfl) l
    have hdrain : s.drainTest = s := by
      unfold State.drainTest
      rcases hrun with h | h <;> exact if_neg fun hs => absurd (h.symm.trans hs.1) (by decide)
    obtain ⟨t, hx, hframe, -⟩ := event_ends (c := .bayAllocation l) (u := s) (L := [])
      (exec_effect (congrArg some (by rw [hkept, hdrain]))) (.refl _ s)
    exact ⟨t, hx, hframe⟩
  · obtain ⟨t, hx, hframe, hends⟩ := event_ends (c := .bayAllocation l)
      (exec_effect (congrArg (fun u : State => some u.drainTest) (allocate_nothing hno))) (frame_drainTest s)
    exact ⟨t, hx, hends.drainTested rfl, hframe⟩

end Sys2Proof.Machine
end

