-- ==== Sys2Proof/Proofs/Outfeed.lean ====
section
/-! The outfeed grants its oldest claim (R82) and sends its head on (R83). -/

-- Proofs are checked one after another: the whole text, compiled as one, would otherwise start more threads than fit into the
-- check's memory.
set_option Elab.async false

namespace Sys2Proof.Machine

theorem Frame.outfeed_eq {L : List Part} {s t : State} (h : Frame L s t) (hp : .outfeed ∉ L) :
    t.outfeedState = s.outfeedState ∧ t.outfeedQueue = s.outfeedQueue ∧ t.outfeedHeadInFlight = s.outfeedHeadInFlight :=
  h .outfeed hp

theorem Frame.exits_eq {L : List Part} {s t : State} (h : Frame L s t) (hp : .exits ∉ L) : t.exits = s.exits :=
  h .exits hp

theorem Frame.station_bare_eq {L : List Part} {s t : State} (h : Frame L s t) {st : StationId} (hp : .station st ∉ L) :
    (t.station st).bare = (s.station st).bare := h (.station st) hp

/-- Only an entry of an item stands among the item's parts. -/
theorem not_mem_itemParts {p : Part} (h : ∀ i, p ≠ .entry i) (item : Item) : p ∉ itemParts item := by
  cases item with
  | marker => simp [itemParts]
  | entry i => simpa [itemParts] using h i

/-- An entry whose transfer begins in a state that allows it (R16). -/
theorem reportBegin_entry {s : State} {i : RosterIndex} {dest : Place} (h : beginAllowed dest (s.entry i).state = true) :
    (s.reportBegin (.entry i) dest).entry i = ((s.entry i).begun dest).edited := by
  rw [State.reportBegin, if_pos h, editEntry_eq, entry_setEntry, if_pos rfl]
  rfl

/-! ## A transfer into the outfeed begins (R74, R82) -/

section

variable {s : State} {item : Item} {source : TransferSource}

theorem beginOutfeed_outfeed (s : State) (item : Item) (source : TransferSource) :
    (s.beginOutfeed item source).outfeedState = s.outfeedState ∧
      (s.beginOutfeed item source).outfeedQueue = s.outfeedQueue ++ [.reserved (begunTransit s item source)] ∧
      (s.beginOutfeed item source).outfeedHeadInFlight = s.outfeedHeadInFlight :=
  (frame_reportBegin _ item .outfeed).outfeed_eq (not_mem_itemParts (by simp) item)

theorem beginOutfeed_entry {i : RosterIndex} (h : (s.entry i).state = .queued ∨ (s.entry i).state = .testing) :
    (s.beginOutfeed (.entry i) source).entry i = ((s.entry i).leaving .outbound).edited := by
  have hallowed : beginAllowed .outfeed (s.entry i).state = true := by rcases h with h | h <;> rw [h] <;> rfl
  exact reportBegin_entry hallowed

theorem not_mem_beginParts {p : Part} (hout : p ≠ .outfeed) (hentry : ∀ i, p ≠ .entry i) (item : Item) :
    p ∉ .outfeed :: itemParts item := by
  simp [hout, not_mem_itemParts hentry item]

end

/-! ## CLAIM_GRANT (R82) -/

/-- The oldest claim has been taken from the list. -/
def State.claimPopped (s : State) : State := { s with claims := s.claims.tail }

section

variable {s : State} {l : LaneId} {n : BayId}

theorem frame_claimPopped (s : State) : Frame [.claims] s s.claimPopped := frame_setClaims s _

theorem grantClaim_bay (hclaim : s.claims.head? = some (.bay n)) (hnormal : s.outfeedState = .normal)
    (hrun : s.runState ≠ .eStopped) (hroom : s.outfeedQueue.length < 8) {i : RosterIndex} (hi : (s.bay n).index = some i) :
    s.grantClaim = s.claimPopped.beginOutfeed (.entry i) (.bay n) := by
  obtain ⟨rest, hclaims⟩ := List.head?_eq_some_iff.mp hclaim
  have hgrant : s.claimPopped.grantBay n = s.claimPopped.beginOutfeed (.entry i) (.bay n) := by
    unfold State.grantBay
    rw [show (s.claimPopped.bay n).index = some i from hi]
  rw [← hgrant, State.claimPopped]
  unfold State.grantClaim
  rw [hclaims]
  exact if_pos ⟨hnormal, stopped_eq_false hrun, hroom, rfl⟩

/-- The lane's head has left for the outfeed, its claim granted. -/
def State.laneGranted (s : State) (l : LaneId) (item : Item) : State :=
  (s.claimPopped.popHead l).beginOutfeed item (.laneHead l)

theorem grantClaim_lane (hclaim : s.claims.head? = some (.lane l)) (hnormal : s.outfeedState = .normal)
    (hrun : s.runState ≠ .eStopped) (hroom : s.outfeedQueue.length < 8) (hflight : (s.lane l).headInFlight = false)
    {item : Item} (hhead : (s.lane l).queue.head? = some item) : s.grantClaim = (s.laneGranted l item).afterPop l := by
  obtain ⟨rest, hclaims⟩ := List.head?_eq_some_iff.mp hclaim
  obtain ⟨queue, hqueue⟩ := List.head?_eq_some_iff.mp hhead
  have hgrant : s.claimPopped.grantLane l = (s.laneGranted l item).afterPop l := by
    unfold State.grantLane
    rw [show (s.claimPopped.lane l).queue = item :: queue from hqueue]
    rfl
  rw [← hgrant, State.claimPopped]
  unfold State.grantClaim
  rw [hclaims]
  exact if_pos ⟨hnormal, stopped_eq_false hrun, hroom, by simp [State.claimReady, hflight]⟩

theorem grantClaim_waits (h : s.claims = [] ∨ s.outfeedState = .fault ∨ s.runState = .eStopped ∨ 8 ≤ s.outfeedQueue.length ∨
      (∃ l, s.claims.head? = some (.lane l) ∧ (s.lane l).headInFlight = true)) : s.grantClaim = s := by
  unfold State.grantClaim
  cases hclaims : s.claims with
  | nil => rfl
  | cons c rest =>
    refine if_neg fun ⟨hnormal, hstop, hroom, hready⟩ => ?_
    rcases h with hnil | hfault | hrun | hfull | ⟨l, hhead, hflight⟩
    · rw [hclaims] at hnil
      cases hnil
    · rw [hnormal] at hfault
      cases hfault
    · rw [stopped_eq_true hrun] at hstop
      cases hstop
    · exact absurd hroom (not_lt_of_ge hfull)
    · rw [hclaims] at hhead
      cases hhead
      simp [State.claimReady, hflight] at hready

theorem laneGranted_lane (s : State) (l : LaneId) (item : Item) : ((s.laneGranted l item).lane l).bare =
    { s.lane l with queue := (s.lane l).queue.tail, headInFlight := true, noteWait := none }.bare := by
  rw [State.laneGranted, (frame_beginOutfeed _ _ _).lane_bare_eq (not_mem_beginParts (by simp) (by simp) item), popHead_lane]
  cases l <;> rfl

theorem laneGranted_other (s : State) (l : LaneId) (item : Item) :
    ((s.laneGranted l item).lane (otherLane l)).bare = (s.lane (otherLane l)).bare := by
  rw [State.laneGranted, (frame_beginOutfeed _ _ _).lane_bare_eq (not_mem_beginParts (by simp) (by simp) item)]
  cases l <;> rfl

theorem frame_laneGranted (s : State) (l : LaneId) (item : Item) :
    Frame ([.claims, .outfeed, .lane l] ++ itemParts item) s (s.laneGranted l item) :=
  ((frame_claimPopped s).mono (by simp)).trans
    (((frame_popHead _ l).mono (by simp)).trans ((frame_beginOutfeed _ item _).mono (by intro p; simp; tauto)))

theorem laneGranted_claims (s : State) (l : LaneId) (item : Item) : (s.laneGranted l item).claims = s.claims.tail := by
  rw [State.laneGranted, (frame_beginOutfeed _ _ _).claims_eq (not_mem_beginParts (by simp) (by simp) item)]
  cases l <;> rfl

theorem laneGranted_outfeed (s : State) (l : LaneId) (item : Item) :
    (s.laneGranted l item).outfeedState = s.outfeedState ∧
      (s.laneGranted l item).outfeedQueue = s.outfeedQueue ++ [.reserved (begunTransit s item (.laneHead l))] ∧
      (s.laneGranted l item).outfeedHeadInFlight = s.outfeedHeadInFlight := by
  have h := beginOutfeed_outfeed (s.claimPopped.popHead l) item (.laneHead l)
  cases l <;> exact h

theorem laneGranted_entry {i : RosterIndex} (h : (s.entry i).state = .queued) :
    (s.laneGranted l (.entry i)).entry i = ((s.entry i).leaving .outbound).edited := by
  have hentry : (s.claimPopped.popHead l).entry i = s.entry i := by cases l <;> rfl
  rw [State.laneGranted, beginOutfeed_entry (.inl (by rw [hentry, h])), hentry]

/-- The claims before a lane's claim stay in front. -/
theorem HeadActed.claims_prefix {before : List Claimant} {t : State} (h : HeadActed l before t) : before <+: t.claims := by
  obtain ⟨-, hclaimed, hkept⟩ := h
  by_cases hno : (t.lane l).state = .fault ∨ ¬headClaims t l
  · rw [hkept hno]
  · obtain ⟨hnormal, hc⟩ := not_or.mp hno
    rw [hclaimed (by cases hstate : (t.lane l).state with
      | normal => rfl
      | fault => exact absurd hstate hnormal) (not_not.mp hc)]
    split
    · exact List.prefix_rfl
    · exact List.prefix_append _ _

theorem bayClaim_granted (hclaim : s.claims.head? = some (.bay n)) (hnormal : s.outfeedState = .normal)
    (hrun : s.runState ≠ .eStopped) (hroom : s.outfeedQueue.length < 8) {i : RosterIndex} (hi : (s.bay n).index = some i) :
    Gives .claimGrant s fun t =>
      t.claims = s.claims.tail ∧
        t.outfeedQueue = s.outfeedQueue ++ [.reserved (begunTransit s (.entry i) (.bay n))] ∧
        t.outfeedState = s.outfeedState ∧ t.outfeedHeadInFlight = s.outfeedHeadInFlight ∧
        ((s.entry i).state = .queued ∨ (s.entry i).state = .testing →
          t.entry i = ((s.entry i).leaving .outbound).edited) ∧
        DrainTested s t ∧ Frame [.claims, .outfeed, .entry i, .runState] s t := by
  have hbegin := frame_beginOutfeed s.claimPopped (.entry i) (.bay n)
  obtain ⟨hstate, hqueue, hflight⟩ := beginOutfeed_outfeed s.claimPopped (.entry i) (.bay n)
  have hdrain := frame_drainTest (s.claimPopped.beginOutfeed (.entry i) (.bay n))
  obtain ⟨t, hx, hframe, hends⟩ := event_ends (c := .claimGrant) (L := [.claims, .outfeed, .entry i, .runState])
    (exec_effect (congrArg (fun u : State => some u.drainTest) (grantClaim_bay hclaim hnormal hrun hroom hi)))
    (((frame_claimPopped s).mono (by simp)).trans ((hbegin.mono (by simp [itemParts])).trans (hdrain.mono (by simp))))
  obtain ⟨hstate', hqueue', hflight'⟩ := hends.outfeed
  obtain ⟨hstateD, hqueueD, hflightD⟩ := hdrain.outfeed_eq (by simp)
  refine ⟨t, hx, ?_, hqueue'.trans (hqueueD.trans hqueue), hstate'.trans (hstateD.trans hstate),
    hflight'.trans (hflightD.trans hflight), fun h => ?_, hends.drainTested ?_, hframe⟩
  · rw [hends.claims, hdrain.claims_eq (by simp), hbegin.claims_eq (not_mem_beginParts (by simp) (by simp) _)]
    rfl
  · rw [hends.entry, drainTest_entry]
    exact beginOutfeed_entry (s := s.claimPopped) h
  · exact hbegin.runState_eq (not_mem_beginParts (by simp) (by simp) _)

theorem laneClaim_granted (hclaim : s.claims.head? = some (.lane l)) (hnormal : s.outfeedState = .normal)
    (hrun : s.runState ≠ .eStopped) (hroom : s.outfeedQueue.length < 8) (hflight : (s.lane l).headInFlight = false)
    {item : Item} (hhead : (s.lane l).queue.head? = some item) : Gives .claimGrant s fun t =>
      s.claims.tail <+: t.claims ∧
        t.outfeedQueue = s.outfeedQueue ++ [.reserved (begunTransit s item (.laneHead l))] ∧
        t.outfeedState = s.outfeedState ∧ t.outfeedHeadInFlight = s.outfeedHeadInFlight ∧
        (t.lane l).queue = (s.lane l).queue.tail ∧ (t.lane l).headInFlight = true ∧ PermitSet t l ∧
        PermitOnly (otherLane l) s t ∧
        (∀ i, item = .entry i → (s.entry i).state = .queued →
          t.entry i = ((s.entry i).leaving .outbound).edited) ∧
        HeadActed l s.claims.tail t ∧ (t.lane l).state = (s.lane l).state ∧ (t.lane l).track = (s.lane l).track ∧
        (t.lane l).trackOut = (s.lane l).trackOut ∧
        (∀ n, laneOf n = l → Proactive n s t) ∧ DrainTested s t ∧
        Frame ([.claims, .outfeed, .lane .a, .lane .b, .runState] ++ itemParts item ++ groupParts l) s t := by
  have hgranted := frame_laneGranted s l item
  have hlane := laneGranted_lane s l item
  have hpop := frame_afterPop_parts (s.laneGranted l item) l
  have hdrain := frame_drainTest ((s.laneGranted l item).afterPop l)
  obtain ⟨t, hx, hframe, hends⟩ := event_ends (c := .claimGrant)
    (L := [.claims, .outfeed, .lane .a, .lane .b, .runState] ++ itemParts item ++ groupParts l)
    (exec_effect (congrArg (fun u : State => some u.drainTest)
      (grantClaim_lane hclaim hnormal hrun hroom hflight hhead)))
    ((hgranted.mono (by cases l <;> (intro p; simp; tauto))).trans
      ((hpop.mono (by intro p; simp [arrivalParts, reportParts]; tauto)).trans (hdrain.mono (by simp))))
  have hleft : HeadLeft l s (s.laneGranted l item) t := headLeft hends congr(Lane.noteWait $hlane)
    (hgranted.runState_eq (by simpa using not_mem_itemParts (by simp) item))
    (hgranted.lineSeconds_eq (by simpa using not_mem_itemParts (by simp) item))
  obtain ⟨hqueue, hfly, hstate, htrack, hout⟩ := hleft.parts
  have hacted := hleft.head
  rw [laneGranted_claims] at hacted
  obtain ⟨hstateO, hqueueO, hflightO⟩ := laneGranted_outfeed s l item
  obtain ⟨hstateP, hqueueP, hflightP⟩ := hpop.outfeed_eq (not_mem_arrivalParts (by simp) (by decide) l)
  obtain ⟨hstateD, hqueueD, hflightD⟩ := hdrain.outfeed_eq (by simp)
  obtain ⟨hstateE, hqueueE, hflightE⟩ := hends.outfeed
  refine ⟨t, hx, hacted.claims_prefix, hqueueE.trans (hqueueD.trans (hqueueP.trans hqueueO)),
    hstateE.trans (hstateD.trans (hstateP.trans hstateO)), hflightE.trans (hflightD.trans (hflightP.trans hflightO)),
    hqueue.trans congr(Lane.queue $hlane), hfly.trans congr(Lane.headInFlight $hlane), hleft.permit,
    hleft.other.of_bare (laneGranted_other s l item), fun i hi hqueued => ?_, hacted, hstate.trans congr(Lane.state $hlane),
    htrack.trans congr(Lane.track $hlane), hout.trans congr(Lane.trackOut $hlane), fun n hn => hleft.bays n hn ?_,
    hends.drainTested ?_, hframe⟩
  · subst hi
    rw [hends.entry, drainTest_entry, hpop.entry_eq (not_mem_arrivalParts (by simp) (by simp [bayParts]) l),
      laneGranted_entry hqueued]
  · exact hgranted.bay_eq (by simpa using not_mem_itemParts (by simp) item)
  · rw [hpop.runState_eq (not_mem_arrivalParts (by simp) (by decide) l),
      hgranted.runState_eq (by simpa using not_mem_itemParts (by simp) item)]

end

/-- Settles O48. -/
theorem claimGrant : Obligations.ClaimGrant := by
  refine ⟨fun n s hclaim hnormal hrun hroom i hi => bayClaim_granted hclaim hnormal hrun hroom hi,
    fun l s hclaim hnormal hrun hroom hflight item hhead => laneClaim_granted hclaim hnormal hrun hroom hflight hhead,
    fun s hno => ?_⟩
  obtain ⟨t, hx, hframe, hends⟩ := event_ends (c := .claimGrant)
    (exec_effect (congrArg (fun u : State => some u.drainTest) (grantClaim_waits hno))) (frame_drainTest s)
  exact ⟨t, hx, hends.drainTested rfl, hframe⟩

end Sys2Proof.Machine
end

