-- ==== Sys2Proof/Proofs/OutfeedHead.lean ====
section
/-! OUTFEED_HEAD_DISPATCH (R83): the head goes to an exit or to a station's nest, or waits. -/

-- Proofs are checked one after another: the whole text, compiled as one, would otherwise start more threads than fit into the
-- check's memory.
set_option Elab.async false

namespace Sys2Proof.Machine

section

variable {s : State} {i : RosterIndex} {st : StationId} {item : Item} {e : Exit}

/-! ## The head leaves for an exit (R74, R83) -/

theorem frame_popOutfeed (s : State) : Frame [.outfeed] s s.popOutfeed := by
  intro p hp
  cases p
  case outfeed => simp at hp
  case store => exact .of_mem_eq rfl
  all_goals first | rfl | exact ⟨rfl, rfl⟩ | exact ⟨rfl, rfl, rfl⟩ | exact ⟨rfl, rfl, rfl, rfl⟩

theorem frame_headToExit (s : State) (item : Item) (e : Exit) :
    Frame ([.outfeed, .exits] ++ itemParts item) s (s.headToExit item e) :=
  ((frame_popOutfeed s).mono (by simp)).trans
    (((frame_setExits s.popOutfeed _).mono (by simp)).trans ((frame_reportBegin _ item .nowhere).mono (by simp)))

theorem headToExit_outfeed (s : State) (item : Item) (e : Exit) :
    (s.headToExit item e).outfeedState = s.outfeedState ∧ (s.headToExit item e).outfeedQueue = s.outfeedQueue.tail ∧
      (s.headToExit item e).outfeedHeadInFlight = true :=
  (frame_reportBegin _ item .nowhere).outfeed_eq (not_mem_itemParts (by simp) item)

theorem headToExit_exits (s : State) (item : Item) (e : Exit) :
    (s.headToExit item e).exits = s.exits ++ [⟨begunTransit s item .outfeedHead, e⟩] :=
  (frame_reportBegin _ item .nowhere).exits_eq (not_mem_itemParts (by simp) item)

theorem headToExit_entry (h : (s.entry i).state = .outbound) :
    (s.headToExit (.entry i) e).entry i = ((s.entry i).leaving .outbound).edited := by
  have hallowed : beginAllowed .nowhere (s.entry i).state = true := by rw [h]; rfl
  exact reportBegin_entry hallowed

/-- The head has gone to an exit. -/
theorem headToExit_gives (h : s.dispatchHead = s.headToExit item e) : Gives .outfeedHeadDispatch s fun t =>
    t.outfeedQueue = s.outfeedQueue.tail ∧ t.outfeedHeadInFlight = true ∧ t.outfeedState = s.outfeedState ∧
      t.exits = s.exits ++ [⟨begunTransit s item .outfeedHead, e⟩] ∧
      (∀ i, item = .entry i → (s.entry i).state = .outbound → t.entry i = ((s.entry i).leaving .outbound).edited) ∧
      DrainTested s t ∧ Frame ([.outfeed, .exits] ++ itemParts item ++ [.runState]) s t := by
  have hsent := frame_headToExit s item e
  have hdrain := frame_drainTest (s.headToExit item e)
  obtain ⟨t, hx, hframe, hends⟩ := event_ends (c := .outfeedHeadDispatch)
    (exec_effect (congrArg (fun u : State => some u.drainTest) h))
    ((hsent.mono (List.subset_append_left _ [.runState])).trans (hdrain.mono (by simp)))
  obtain ⟨hstate, hqueue, hflight⟩ := headToExit_outfeed s item e
  obtain ⟨hstateD, hqueueD, hflightD⟩ := hdrain.outfeed_eq (by simp)
  obtain ⟨hstateE, hqueueE, hflightE⟩ := hends.outfeed
  refine ⟨t, hx, hqueueE.trans (hqueueD.trans hqueue), hflightE.trans (hflightD.trans hflight),
    hstateE.trans (hstateD.trans hstate), ?_, fun i hi hout => ?_, hends.drainTested ?_, hframe⟩
  · rw [hends.exits, hdrain.exits_eq (by simp), headToExit_exits]
  · subst hi
    rw [hends.entry, drainTest_entry, headToExit_entry hout]
  · exact hsent.runState_eq (by simpa using not_mem_itemParts (by simp) item)

/-! ## The head leaves for a station's nest (R83, R146, R148) -/

/-- The station that takes the head. -/
def Station.incoming (x : Station) (i : RosterIndex) (t : Transit) : Station :=
  { x with state := .nestLoading, nest := .incoming, index := some i, loading := some t }

/-- The head has gone to a station's nest. -/
def State.nestSent (s : State) (i : RosterIndex) (st : StationId) : State :=
  (s.popOutfeed.setStation st ((s.station st).incoming i (begunTransit s (.entry i) .outfeedHead))).reportBegin (.entry i)
    (.station st)

theorem headToStation_sent (hidle : (s.station st).state = .idle) (heye : (s.station st).nestEye = false) :
    s.headToStation i st = s.nestSent i st :=
  if_pos (by simp [Station.available, hidle, heye])

theorem headToStation_waits (h : (s.station st).state ≠ .idle ∨ (s.station st).nestEye = true) :
    s.headToStation i st = s :=
  if_neg (by rcases h with h | h <;> simp [Station.available, h])

theorem frame_nestSent (s : State) (i : RosterIndex) (st : StationId) :
    Frame [.outfeed, .station st, .entry i] s (s.nestSent i st) :=
  ((frame_popOutfeed s).mono (by simp)).trans
    (((frame_setStation s.popOutfeed st _).mono (by simp)).trans
      ((frame_reportBegin _ (.entry i) (.station st)).mono (by simp [itemParts])))

theorem nestSent_outfeed (s : State) (i : RosterIndex) (st : StationId) :
    (s.nestSent i st).outfeedState = s.outfeedState ∧ (s.nestSent i st).outfeedQueue = s.outfeedQueue.tail ∧
      (s.nestSent i st).outfeedHeadInFlight = true := by
  have h := (frame_reportBegin (s.popOutfeed.setStation st
    ((s.station st).incoming i (begunTransit s (.entry i) .outfeedHead))) (.entry i) (.station st)).outfeed_eq
      (not_mem_itemParts (by simp) _)
  cases st <;> exact h

theorem nestSent_station (s : State) (i : RosterIndex) (st : StationId) : ((s.nestSent i st).station st).bare =
    ((s.station st).incoming i (begunTransit s (.entry i) .outfeedHead)).bare := by
  rw [State.nestSent, (frame_reportBegin _ (.entry i) _).station_bare_eq (by simp [itemParts])]
  cases st <;> rfl

theorem nestSent_entry (h : (s.entry i).state = .outbound) :
    (s.nestSent i st).entry i = ((s.entry i).leaving .outbound).edited := by
  have hentry : (s.popOutfeed.setStation st ((s.station st).incoming i (begunTransit s (.entry i) .outfeedHead))).entry i =
      s.entry i := by cases st <;> rfl
  rw [State.nestSent, reportBegin_entry (by rw [hentry, h]; rfl), hentry]
  rfl

theorem nestSent_gives (h : s.dispatchHead = s.nestSent i st) : Gives .outfeedHeadDispatch s fun t =>
    t.outfeedQueue = s.outfeedQueue.tail ∧ t.outfeedHeadInFlight = true ∧ t.outfeedState = s.outfeedState ∧
      (t.station st).bare = ((s.station st).incoming i (begunTransit s (.entry i) .outfeedHead)).bare ∧
      ((s.entry i).state = .outbound → t.entry i = ((s.entry i).leaving .outbound).edited) ∧
      DrainTested s t ∧ Frame [.outfeed, .station st, .entry i, .runState] s t := by
  have hsent := frame_nestSent s i st
  have hdrain := frame_drainTest (s.nestSent i st)
  obtain ⟨t, hx, hframe, hends⟩ := event_ends (c := .outfeedHeadDispatch) (L := [.outfeed, .station st, .entry i, .runState])
    (exec_effect (congrArg (fun u : State => some u.drainTest) h)) ((hsent.mono (by simp)).trans (hdrain.mono (by simp)))
  obtain ⟨hstate, hqueue, hflight⟩ := nestSent_outfeed s i st
  obtain ⟨hstateD, hqueueD, hflightD⟩ := hdrain.outfeed_eq (by simp)
  obtain ⟨hstateE, hqueueE, hflightE⟩ := hends.outfeed
  refine ⟨t, hx, hqueueE.trans (hqueueD.trans hqueue), hflightE.trans (hflightD.trans hflight),
    hstateE.trans (hstateD.trans hstate), ?_, fun hout => ?_, hends.drainTested (hsent.runState_eq (by simp)), hframe⟩
  · rw [hends.station, hdrain.station_bare_eq (by simp), nestSent_station]
  · rw [hends.entry, drainTest_entry, nestSent_entry hout]

/-! ## Where the head goes (R83) -/

theorem dispatchHead_marker (hnormal : s.outfeedState = .normal) (hrun : s.runState ≠ .eStopped)
    (hflight : s.outfeedHeadInFlight = false) (hhead : s.outfeedQueue.head? = some (.occupied .marker)) :
    s.dispatchHead = s.headToExit .marker .holdChute := by
  obtain ⟨rest, hqueue⟩ := List.head?_eq_some_iff.mp hhead
  unfold State.dispatchHead
  rw [if_pos ⟨hnormal, stopped_eq_false hrun, hflight⟩, hqueue]

/-- The destination of an entry's route. -/
def State.routeHead (s : State) (i : RosterIndex) : Option Route → State
  | some .passThrough => s.headToExit (.entry i) .releaseConveyor
  | some .hold => s.headToExit (.entry i) .holdChute
  | some .stamp => s.headToStation i .stamper
  | some .deface => s.headToStation i .defacer
  | some .test | none => s

theorem dispatchHead_entry (hnormal : s.outfeedState = .normal) (hrun : s.runState ≠ .eStopped)
    (hflight : s.outfeedHeadInFlight = false) (hhead : s.outfeedQueue.head? = some (.occupied (.entry i))) :
    s.dispatchHead = s.routeHead i (s.entry i).route := by
  obtain ⟨rest, hqueue⟩ := List.head?_eq_some_iff.mp hhead
  unfold State.dispatchHead State.routeHead
  rw [if_pos ⟨hnormal, stopped_eq_false hrun, hflight⟩, hqueue] <;> rfl

theorem dispatchHead_waits (h : s.outfeedState = .fault ∨ s.runState = .eStopped ∨ s.outfeedHeadInFlight = true ∨
      (∀ item, s.outfeedQueue.head? ≠ some (.occupied item))) : s.dispatchHead = s := by
  unfold State.dispatchHead
  refine ite_eq_right_iff.mpr fun ⟨hnormal, hstop, hflight⟩ => ?_
  rcases h with hfault | hrun | hflying | hempty
  · rw [hnormal] at hfault
    cases hfault
  · rw [stopped_eq_true hrun] at hstop
    cases hstop
  · rw [hflight] at hflying
    cases hflying
  · split
    · exact absurd (by rw [‹s.outfeedQueue = _›]; rfl) (hempty .marker)
    · exact absurd (by rw [‹s.outfeedQueue = _›]; rfl) (hempty (.entry _))
    · rfl

theorem dispatchHead_kept (h : s.dispatchHead = s) : Gives .outfeedHeadDispatch s fun t =>
    DrainTested s t ∧ Frame [.runState] s t := by
  obtain ⟨t, hx, hframe, hends⟩ := event_ends (c := .outfeedHeadDispatch)
    (exec_effect (congrArg (fun u : State => some u.drainTest) h)) (frame_drainTest s)
  exact ⟨t, hx, hends.drainTested rfl, hframe⟩

end

/-- Settles O49. -/
theorem outfeedHeadDispatch : Obligations.OutfeedHeadDispatch := by
  refine ⟨fun s hnormal hrun hflight => ⟨fun hhead => ?_, fun i hhead => ⟨fun e he => ?_, fun st hst => ⟨fun hidle heye => ?_,
    fun hbusy => ?_⟩⟩⟩, fun s h => dispatchHead_kept (dispatchHead_waits h)⟩
  · obtain ⟨t, hx, hqueue, hfly, hstate, hexits, -, hdrain, hframe⟩ :=
      headToExit_gives (dispatchHead_marker hnormal hrun hflight hhead)
    exact ⟨t, hx, hqueue, hfly, hstate, hexits, hdrain, hframe⟩
  · have hsent : s.dispatchHead = s.headToExit (.entry i) e := by
      rw [dispatchHead_entry hnormal hrun hflight hhead]
      rcases he with ⟨rfl, hroute⟩ | ⟨rfl, hroute⟩ <;> (rw [hroute]; rfl)
    obtain ⟨t, hx, hqueue, hfly, hstate, hexits, hentry, hdrain, hframe⟩ := headToExit_gives hsent
    exact ⟨t, hx, hqueue, hfly, hstate, hexits, hentry i rfl, hdrain, hframe⟩
  · refine nestSent_gives ?_
    rw [dispatchHead_entry hnormal hrun hflight hhead, ← headToStation_sent hidle heye]
    rcases hst with ⟨rfl, hroute⟩ | ⟨rfl, hroute⟩ <;> (rw [hroute]; rfl)
  · refine dispatchHead_kept ?_
    have hwaits := headToStation_waits (i := i) hbusy
    rw [dispatchHead_entry hnormal hrun hflight hhead]
    rcases hst with ⟨rfl, hroute⟩ | ⟨rfl, hroute⟩ <;> (rw [hroute]; exact hwaits)

end Sys2Proof.Machine
end

