-- ==== Sys2Proof/Proofs/Transfers.lean ====
section
/-! The transfers in flight: the queues that hold them (R75, R76), and what the end of one leaves of the entry and of its source
(R16, R110, R157). -/

-- Proofs are checked one after another: the whole text, compiled as one, would otherwise start more threads than fit into the
-- check's memory.
set_option Elab.async false

namespace Sys2Proof.Machine

/-! ## The transfers in flight (R74) -/

theorem mem_reservedTransits {t : Transit} {l : List Position} : t ∈ reservedTransits l ↔ .reserved t ∈ l := by
  rw [reservedTransits, List.mem_filterMap]
  refine ⟨fun ⟨x, hx, h⟩ => ?_, fun h => ⟨_, h, rfl⟩⟩
  cases x with
  | occupied item => cases h
  | reserved u =>
    cases h
    exact hx

theorem mem_transits {t : Transit} {s : State} : t ∈ s.transits ↔ InFlight t s := by
  have hlanes : (∃ l, Position.reserved t ∈ (s.lane l).track) ↔
      .reserved t ∈ s.laneA.track ∨ .reserved t ∈ s.laneB.track :=
    ⟨fun ⟨l, h⟩ => by cases l <;> [exact .inl h; exact .inr h], fun h => h.elim (⟨.a, ·⟩) (⟨.b, ·⟩)⟩
  have hstations : (∃ st, (s.station st).loading = some t) ↔ s.stamper.loading = some t ∨ s.defacer.loading = some t :=
    ⟨fun ⟨st, h⟩ => by cases st <;> [exact .inl h; exact .inr h], fun h => h.elim (⟨.stamper, ·⟩) (⟨.defacer, ·⟩)⟩
  have hbays : (∃ n ∈ allBays, (s.bay n).loading = some t) ↔ ∃ n, (s.bay n).loading = some t :=
    ⟨fun ⟨n, _, h⟩ => ⟨n, h⟩, fun ⟨n, h⟩ => ⟨n, mem_allBays n, h⟩⟩
  unfold State.transits InFlight
  simp only [List.mem_append, List.mem_filterMap, mem_reservedTransits, List.mem_map, Option.mem_toList]
  rw [hbays, hlanes, hstations]
  simp only [or_assoc]

/-- A gate that any transfer of a source holds open. -/
theorem transits_any_source {s : State} {source : TransferSource} :
    s.transits.any (fun t => decide (t.source = source)) = true ↔ ∃ t, InFlight t s ∧ t.source = source := by
  simp only [List.any_eq_true, mem_transits, decide_eq_true_eq]

theorem any_loading_source {o : Option Transit} {source : TransferSource} :
    o.any (fun t => decide (t.source = source)) = true ↔ ∃ t, o = some t ∧ t.source = source := by
  simp [Option.any_eq_true]

/-! ## Reservations and exit transfers (R75, R76) -/

section

variable {pre post : List Position} {tr : Transit} {p : Transit → Bool}

theorem occupyFirst_occupied (h : ∀ x ∈ pre, ∃ item, x = .occupied item) (l : List Position) :
    occupyFirst (pre ++ l) = (occupyFirst l).map fun r => (r.1, pre ++ r.2) := by
  induction pre with
  | nil => simp
  | cons x rest ih =>
    obtain ⟨item, rfl⟩ := h x List.mem_cons_self
    rw [List.cons_append, occupyFirst, ih fun y hy => h y (List.mem_cons_of_mem _ hy), Option.map_map]
    rfl

theorem releaseReservation_passed (h : ∀ u, .reserved u ∈ pre → p u = false) (l : List Position) :
    releaseReservation p (pre ++ l) = (releaseReservation p l).map fun r => (r.1, pre ++ r.2) := by
  induction pre with
  | nil => simp
  | cons x rest ih =>
    have hrest := ih fun u hu => h u (List.mem_cons_of_mem _ hu)
    cases x with
    | occupied item =>
      rw [List.cons_append, releaseReservation, hrest, Option.map_map]
      rfl
    | reserved u =>
      rw [List.cons_append, releaseReservation, if_neg (by simp [h u List.mem_cons_self]), hrest, Option.map_map]
      rfl

theorem takeExit_passed {p : ExitTransfer → Bool} {pre : List ExitTransfer} (h : ∀ y ∈ pre, p y = false)
    (l : List ExitTransfer) : takeExit p (pre ++ l) = (takeExit p l).map fun r => (r.1, pre ++ r.2) := by
  induction pre with
  | nil => simp
  | cons y rest ih =>
    rw [List.cons_append, takeExit, if_neg (by simp [h y List.mem_cons_self]),
      ih fun z hz => h z (List.mem_cons_of_mem _ hz), Option.map_map]
    rfl

end

/-! ## The entry at the end of a transfer (R16) -/

@[simp] theorem mem_itemParts_iff {p : Part} {item : Item} : p ∈ itemParts item ↔ ∃ i, p = .entry i ∧ item = .entry i := by
  cases item with
  | marker => simp [itemParts]
  | entry i =>
    rw [itemParts, List.mem_singleton]
    exact ⟨fun h => ⟨i, h, rfl⟩, fun ⟨j, hp, hi⟩ => by cases hi; exact hp⟩

theorem arrivedAt_reportEnd (s : State) (item : Item) (place : Place) : ArrivedAt item place s (s.reportEnd item place) := by
  rintro i rfl hlive
  rw [State.reportEnd, if_pos hlive, editEntry_eq, entry_setEntry, if_pos rfl]
  rfl

/-- The report's outcome stands while the entry does. -/
theorem ArrivedAt.congr {item : Item} {place : Place} {r s t u : State} (h : ArrivedAt item place r u)
    (hbefore : ∀ i, r.entry i = s.entry i) (hafter : ∀ i, t.entry i = u.entry i) : ArrivedAt item place s t := by
  intro i hi hlive
  rw [hafter, h i hi (by rwa [hbefore]), hbefore]

theorem Closed.of_frame {L : List Part} {i : RosterIndex} {code : OutcomeCode} {reason : Reason} {s t u : State}
    (h : Closed i code reason s t) (k : Frame L t u) (hentry : .entry i ∉ L) (hnotices : .notices ∉ L) :
    Closed i code reason s u :=
  ⟨(k.entry_eq hentry).trans h.1, h.2.of_frame k hnotices⟩

/-! ## The source at the end of a transfer (R75, R110, R157) -/

section

variable {s : State} {t : Transit}

theorem tellSource_bay {n : BayId} (h : t.source = .bay n) : s.tellSource t = s.bayUnloaded n := by
  unfold State.tellSource
  rw [h]

theorem tellSource_station {st : StationId} (h : t.source = .station st) :
    s.tellSource t = s.setStation st (s.station st).ejectOver := by
  unfold State.tellSource
  rw [h]
  rfl

theorem tellSource_outfeed (h : t.source = .outfeedHead) : s.tellSource t = { s with outfeedHeadInFlight := false } := by
  unfold State.tellSource
  rw [h]

theorem tellSource_track {l : LaneId} (h : t.source = .trackHead l) :
    s.tellSource t = s.setLane l { s.lane l with trackOut := false } := by
  unfold State.tellSource
  rw [h]
  rfl

theorem tellSource_lane {l : LaneId} (h : t.source = .laneHead l) : (s.tellSource t).lane l =
    { s.lane l with headInFlight := if t.disowned then (s.lane l).headInFlight else false } := by
  unfold State.tellSource
  rw [h]
  dsimp only
  split
  · rfl
  · rw [updLane_eq, lane_setLane, if_pos rfl]

theorem ejectOver_eq (x : Station) : x.ejectOver = x.emptied := by
  unfold Station.ejectOver Station.emptied
  cases hstate : x.state with
  | ejecting => cases hcause : x.faultCause <;> simp
  | _ => simp

end

/-! ## The bay that is told (R110, R127, R129) -/

/-- The triggers that take an IDLE bay on to ZEROING (R127, R129). -/
def IdleDue (n : BayId) (s : State) : Prop :=
  0 < (s.bay n).checksOwed ∨ (s.bay n).validity = 0 ∨ OldValidity n (s.bay n).validity s

section

variable {s : State} {n : BayId}

theorem idleDue_setBay (b : Bay) : IdleDue n (s.setBay n b) ↔
    0 < b.checksOwed ∨ b.validity = 0 ∨ OldValidity n b.validity s := by
  rw [IdleDue, bay_setBay_self]
  rfl

theorem enterIdle_eq (s : State) (n : BayId) :
    s.enterIdle n = (s.setBay n (s.bay n).idling).testIdleTriggers n := rfl

theorem enterIdle_due (hrun : s.runState ≠ .eStopped) (h : IdleDue n s) :
    (s.enterIdle n).bay n = (s.bay n).checking none (s.after 40) := by
  have hdue : IdleDue n (s.setBay n (s.bay n).idling) := (idleDue_setBay _).mpr h
  rw [enterIdle_eq]
  unfold State.testIdleTriggers
  rw [if_pos, enterZeroing_setBay_bay n _ none hrun]
  · rfl
  · rw [proactive_iff]
    refine ⟨?_, stopped_eq_false (s := s.setBay n (s.bay n).idling) hrun, hdue⟩
    rw [bay_setBay_self]
    rfl

theorem enterIdle_rests (h : s.runState = .eStopped ∨ ¬IdleDue n s) : (s.enterIdle n).bay n = (s.bay n).idling := by
  have hrests : (s.setBay n (s.bay n).idling).testIdleTriggers n = s.setBay n (s.bay n).idling := by
    unfold State.testIdleTriggers
    refine if_neg fun ⟨_, hstop, hdue⟩ => h.elim (fun hrun => ?_) fun hno => hno ?_
    swap
    · rw [proactive_iff] at hdue
      exact (idleDue_setBay (s.bay n).idling).mp hdue
    rw [stopped_eq_true (s := s.setBay n (s.bay n).idling) hrun] at hstop
    cases hstop
  rw [enterIdle_eq, hrests, bay_setBay_self]

end

/-- The bay is told that its transfer out is over, in a state of the event that has left the bay as it was (R110). -/
theorem bayEmptied_bayUnloaded {L : List Part} {n : BayId} {s v : State} (h : Frame L s v) (hbay : .bay n ∉ L)
    (hrun : .runState ∉ L) (hseconds : .lineSeconds ∉ L) (hset : .settings ∉ L)
    (hqueue : (v.lane (laneOf n)).queue = (s.lane (laneOf n)).queue) : BayEmptied n s (v.bayUnloaded n) := by
  have hb := h.bay_eq hbay
  have hw := bay_setBay_self v n { s.bay n with index := none }
  have hr := h.runState_eq hrun
  have hdue : IdleDue n (v.setBay n { s.bay n with index := none }) ↔ 0 < (s.bay n).checksOwed ∨ (s.bay n).validity = 0 ∨
      OldValidity n (s.bay n).validity s := by
    rw [idleDue_setBay, oldValidity_congr hqueue (h.work_eq hset)]
  unfold State.bayUnloaded
  rw [updBay_eq, hb]
  refine ⟨fun hruptured => ?_, fun hsound hr' hold => ?_, fun hsound hno => ?_⟩
  · rw [if_pos hruptured]
    refine ⟨?_, ?_⟩
    · rw [bayFault_bay, hw]
    · exact alerted_raiseAlert _ _ _
  · rw [if_neg (by simpa using hsound), enterIdle_due (s := v.setBay n _) (hr ▸ hr') (hdue.mpr hold), hw]
    exact congrArg (fun k => ({ s.bay n with index := none }.checking none k).bare) (h.after_eq hseconds 40)
  · rw [if_neg (by simpa using hsound), enterIdle_rests, hw]
    exact hno.imp (Eq.trans hr) fun hno hold => hno (hdue.mp hold)

/-- The bay's outcome stands while the bay does and its alert waits. -/
theorem BayEmptied.congr {n : BayId} {s t u : State} (h : BayEmptied n s u) (hbay : (t.bay n).bare = (u.bay n).bare)
    (halert : Alerted (baySource n) .ruptureInspection u → Alerted (baySource n) .ruptureInspection t) :
    BayEmptied n s t := by
  obtain ⟨hruptured, hdue, hrests⟩ := h
  rw [← hbay] at hruptured hdue hrests
  exact ⟨fun h => (hruptured h).imp_right halert, hdue, hrests⟩

theorem Ends.bayEmptied {n : BayId} {s u t : State} (h : Ends s u.drainTest t) (k : BayEmptied n s u) :
    BayEmptied n s t :=
  k.congr (h.drained_bay n) fun hal => h.alerted hal.drainTest

theorem Ends.arrivedAt {item : Item} {place : Place} {s u t : State} (h : Ends s u.drainTest t)
    (k : ArrivedAt item place s u) : ArrivedAt item place s t :=
  k.congr (fun _ => rfl) fun i => by rw [h.entry, drainTest_entry]

theorem Ends.drained_closed {i : RosterIndex} {code : OutcomeCode} {reason : Reason} {s u t : State}
    (h : Ends s u.drainTest t) (k : Closed i code reason s u) : Closed i code reason s t :=
  h.closed (k.of_frame (frame_drainTest u) (by simp) (by simp))

end Sys2Proof.Machine
end

