-- ==== Sys2Proof/Proofs/Eyes.lean ====
section
/-! The destination eyes (R75, R84): the track eye, the outfeed eye and the exit eyes, and the gates of the transfers (R74). -/

-- Proofs are checked one after another: the whole text, compiled as one, would otherwise start more threads than fit into the
-- check's memory.
set_option Elab.async false

namespace Sys2Proof.Machine

/-! ## The gates (R74, R75) -/

theorem gates_open (s : State) :
    (∀ n,
      (s.gateOpen (.laneFeed n) = true ↔
        ∃ t, (s.bay n).loading = some t ∧ t.source = .laneHead (laneOf n)) ∧
      (s.gateOpen (.track n) = true ↔ ∃ t, (s.bay n).loading = some t ∧ t.source = .trackHead (laneOf n)) ∧
      (s.gateOpen (.unload n) = true ↔ ∃ t, InFlight t s ∧ t.source = .bay n)) ∧
    (∀ l, s.gateOpen (.bypass l) = true ↔ ∃ t, .reserved t ∈ s.outfeedQueue ∧ t.source = .laneHead l) ∧
    (s.gateOpen .outfeedHead = true ↔ ∃ t, InFlight t s ∧ t.source = .outfeedHead) ∧
    ∀ st, s.gateOpen (.eject st) = true ↔ ∃ t, InFlight t s ∧ t.source = .station st := by
  refine ⟨fun n => ⟨any_loading_source, any_loading_source, transits_any_source⟩, fun l => ?_, transits_any_source,
    fun st => transits_any_source⟩
  simp only [State.gateOpen, List.any_eq_true, mem_reservedTransits, decide_eq_true_eq]

section

variable {s : State} {l : LaneId} {x : Transit × List Position}

/-! ## The track eye (R75) -/

/-- The reservation on the track is occupied by its item, and the source not yet told. -/
def State.trackReached (s : State) (l : LaneId) (x : Transit × List Position) : State :=
  (s.setLane l { s.lane l with track := x.2 }).reportEnd x.1.item (.recirc l)

theorem endTrack_reached (h : occupyFirst (s.lane l).track = some x) :
    s.endTrack l = (s.trackReached l x).tellSource x.1 := by
  unfold State.endTrack
  rw [h]
  rfl

theorem frame_trackReached (s : State) (l : LaneId) (x : Transit × List Position) :
    Frame (.lane l :: itemParts x.1.item) s (s.trackReached l x) :=
  ((frame_setLane s l _).mono (by simp)).trans ((frame_reportEnd _ _ _).mono (by simp))

theorem trackReached_lane_bare (s : State) (l : LaneId) (x : Transit × List Position) :
    ((s.trackReached l x).lane l).bare = { s.lane l with track := x.2 }.bare := by
  rw [State.trackReached, (frame_reportEnd _ _ _).lane_bare_eq (by simp), lane_setLane, if_pos rfl]

theorem trackReached_queue (s : State) (l m : LaneId) (x : Transit × List Position) :
    ((s.trackReached l x).lane m).queue = (s.lane m).queue := by
  have hbare := (frame_reportEnd (s.setLane l { s.lane l with track := x.2 }) x.1.item (.recirc l)).lane_bare_eq
    (l := m) (by simp)
  refine congr(Lane.queue $hbare).trans ?_
  cases l <;> cases m <;> rfl

theorem arrivedAt_trackReached (s : State) (l : LaneId) (x : Transit × List Position) :
    ArrivedAt x.1.item (.recirc l) s (s.trackReached l x) :=
  (arrivedAt_reportEnd (s.setLane l { s.lane l with track := x.2 }) x.1.item (.recirc l)).congr
    (fun i => by cases l <;> rfl) fun _ => rfl

theorem trackEye_gives (h : occupyFirst (s.lane l).track = some x) {n : BayId} (hsource : x.1.source = .bay n) :
    Gives (.trackEye l) s fun t =>
      (t.lane l).bare = { s.lane l with track := x.2 }.bare ∧ ArrivedAt x.1.item (.recirc l) s t ∧
        BayEmptied n s t ∧ DrainTested s t ∧
        Frame ([.lane l, .bay n, .requests, .notices, .alertSeen, .runState] ++ itemParts x.1.item) s t := by
  have hreached := frame_trackReached s l x
  have htold := frame_bayUnloaded (s.trackReached l x) n
  have heq : s.endTrack l = (s.trackReached l x).bayUnloaded n := by rw [endTrack_reached h, tellSource_bay hsource]
  obtain ⟨t, hx, hframe, hends⟩ := event_ends (c := .trackEye l)
    (L := [.lane l, .bay n, .requests, .notices, .alertSeen, .runState] ++ itemParts x.1.item)
    (exec_effect (congrArg (fun u : State => some u.drainTest) heq))
    ((hreached.mono (by intro p; simp; tauto)).trans ((htold.mono (by simp)).trans ((frame_drainTest _).mono (by simp))))
  refine ⟨t, hx, ?_, hends.arrivedAt ?_, hends.bayEmptied ?_, hends.drainTested ?_, hframe⟩
  · rw [hends.lane, drainTest_lane, htold.lane_bare_eq (by simp), trackReached_lane_bare]
  · exact (arrivedAt_trackReached s l x).congr (fun _ => rfl) fun i => htold.entry_eq (by simp)
  · exact bayEmptied_bayUnloaded hreached (by simp) (by simp) (by simp) (by simp) (trackReached_queue s l _ x)
  · rw [htold.runState_eq (by simp), hreached.runState_eq (by simp)]

/-! ## The outfeed eye (R75) -/

/-- The reservation in the outfeed queue is occupied by its item, and the source not yet told. -/
def State.outfeedReached (s : State) (x : Transit × List Position) : State :=
  { s with outfeedQueue := x.2 }.reportEnd x.1.item .outfeed

theorem endOutfeed_reached (h : occupyFirst s.outfeedQueue = some x) :
    s.endOutfeed = (s.outfeedReached x).tellSource x.1 := by
  unfold State.endOutfeed
  rw [h]
  rfl

theorem frame_outfeedReached (s : State) (x : Transit × List Position) :
    Frame (.outfeed :: itemParts x.1.item) s (s.outfeedReached x) :=
  ((frame_setOutfeedQueue s _).mono (by simp)).trans ((frame_reportEnd _ _ _).mono (by simp))

theorem outfeedReached_outfeed (s : State) (x : Transit × List Position) :
    (s.outfeedReached x).outfeedState = s.outfeedState ∧ (s.outfeedReached x).outfeedQueue = x.2 ∧
      (s.outfeedReached x).outfeedHeadInFlight = s.outfeedHeadInFlight :=
  (frame_reportEnd _ _ _).outfeed_eq (by simp)

theorem arrivedAt_outfeedReached (s : State) (x : Transit × List Position) :
    ArrivedAt x.1.item .outfeed s (s.outfeedReached x) :=
  arrivedAt_reportEnd { s with outfeedQueue := x.2 } x.1.item .outfeed

theorem outfeedReached_lane_bare (s : State) (x : Transit × List Position) (l : LaneId) :
    ((s.outfeedReached x).lane l).bare = (s.lane l).bare := (frame_outfeedReached s x).lane_bare_eq (by simp)

/-- The outfeed eye has ended a transfer, its source of the parts `M` told. -/
theorem outfeedEye_gives (h : occupyFirst s.outfeedQueue = some x) {M : List Part}
    (htold : Frame M (s.outfeedReached x) ((s.outfeedReached x).tellSource x.1)) (hout : .outfeed ∉ M)
    (hentry : ∀ i, .entry i ∉ M) (hrun : .runState ∉ M) :
    ∃ t, exec .outfeedEye s = .next t ∧ Ends s ((s.outfeedReached x).tellSource x.1).drainTest t ∧
      t.outfeedQueue = x.2 ∧ t.outfeedState = s.outfeedState ∧ t.outfeedHeadInFlight = s.outfeedHeadInFlight ∧
      ArrivedAt x.1.item .outfeed s t ∧ DrainTested s t ∧
      Frame (.outfeed :: M ++ [.runState] ++ itemParts x.1.item) s t := by
  have hreached := frame_outfeedReached s x
  have hdrain := frame_drainTest ((s.outfeedReached x).tellSource x.1)
  obtain ⟨t, hx, hframe, hends⟩ := event_ends (c := .outfeedEye) (L := .outfeed :: M ++ [.runState] ++ itemParts x.1.item)
    (exec_effect (congrArg (fun u : State => some u.drainTest) (endOutfeed_reached h)))
    ((hreached.mono (by intro p; simp; tauto)).trans ((htold.mono (by simp)).trans (hdrain.mono (by simp))))
  obtain ⟨hstate, hqueue, hflight⟩ := outfeedReached_outfeed s x
  obtain ⟨hstateT, hqueueT, hflightT⟩ := htold.outfeed_eq hout
  obtain ⟨hstateD, hqueueD, hflightD⟩ := hdrain.outfeed_eq (by simp)
  obtain ⟨hstateE, hqueueE, hflightE⟩ := hends.outfeed
  refine ⟨t, hx, hends, hqueueE.trans (hqueueD.trans (hqueueT.trans hqueue)),
    hstateE.trans (hstateD.trans (hstateT.trans hstate)), hflightE.trans (hflightD.trans (hflightT.trans hflight)),
    hends.arrivedAt ?_, hends.drainTested ?_, hframe⟩
  · exact (arrivedAt_outfeedReached s x).congr (fun _ => rfl) fun i => htold.entry_eq (hentry i)
  · rw [htold.runState_eq hrun, hreached.runState_eq (by simp)]

theorem outfeedEye_bay (h : occupyFirst s.outfeedQueue = some x) {n : BayId} (hsource : x.1.source = .bay n) :
    Gives .outfeedEye s fun t =>
      t.outfeedQueue = x.2 ∧ t.outfeedState = s.outfeedState ∧ t.outfeedHeadInFlight = s.outfeedHeadInFlight ∧
        ArrivedAt x.1.item .outfeed s t ∧ BayEmptied n s t ∧ DrainTested s t ∧
        Frame ([.outfeed, .bay n, .requests, .notices, .alertSeen, .runState] ++ itemParts x.1.item) s t := by
  have hbay := tellSource_bay (s := s.outfeedReached x) hsource
  have htold := frame_bayUnloaded (s.outfeedReached x) n
  rw [← hbay] at htold
  obtain ⟨t, hx, hends, hqueue, hstate, hflight, harrived, hdrain, hframe⟩ :=
    outfeedEye_gives h htold (by simp) (by simp) (by simp)
  rw [hbay] at hends
  refine ⟨t, hx, hqueue, hstate, hflight, harrived, hends.bayEmptied ?_, hdrain, hframe⟩
  exact bayEmptied_bayUnloaded (frame_outfeedReached s x) (by simp) (by simp) (by simp) (by simp)
    congr(Lane.queue $(outfeedReached_lane_bare s x _))

theorem outfeedEye_lane (h : occupyFirst s.outfeedQueue = some x) (hsource : x.1.source = .laneHead l) :
    Gives .outfeedEye s fun t =>
      t.outfeedQueue = x.2 ∧ t.outfeedState = s.outfeedState ∧ t.outfeedHeadInFlight = s.outfeedHeadInFlight ∧
        ArrivedAt x.1.item .outfeed s t ∧
        (t.lane l).bare = { s.lane l with
          headInFlight := if x.1.disowned then (s.lane l).headInFlight else false }.bare ∧
        DrainTested s t ∧ Frame ([.outfeed, .lane l, .runState] ++ itemParts x.1.item) s t := by
  have htold := frame_tellSource (s.outfeedReached x) x.1
  rw [hsource] at htold
  obtain ⟨t, hx, hends, hqueue, hstate, hflight, harrived, hdrain, hframe⟩ :=
    outfeedEye_gives h htold (by simp [sourceParts]) (by simp [sourceParts]) (by simp [sourceParts])
  refine ⟨t, hx, hqueue, hstate, hflight, harrived, ?_, hdrain, hframe⟩
  have hlane := outfeedReached_lane_bare s x l
  rw [hends.lane, drainTest_lane, tellSource_lane hsource]
  exact congr({ $hlane with headInFlight := if x.1.disowned then (Lane.headInFlight $hlane) else false })

end

/-! ## The exit eyes (R21, R75, R84) -/

section

variable {s : State} {e : Exit} {x : ExitTransfer × List ExitTransfer}

/-- The transfer has left the exit list and its item has reached the exit, the source not yet told. -/
def State.exitReached (s : State) (e : Exit) (x : ExitTransfer × List ExitTransfer) : State :=
  { s with exits := x.2 }.reachExit x.1.transit.item e

theorem endExit_reached (h : takeExit (fun x => decide (x.exit = e)) s.exits = some x) :
    s.endExit e = (s.exitReached e x).tellSource x.1.transit := by
  unfold State.endExit
  rw [h]
  rfl

theorem frame_reachExit (s : State) (item : Item) (e : Exit) :
    Frame ([.notices, .alertSeen] ++ itemParts item) s (s.reachExit item e) := by
  cases item with
  | marker => exact (frame_raiseAlert s _ _).mono (by simp)
  | entry i => exact (frame_closeAtExit s i e).mono (by simp [itemParts])

theorem frame_exitReached (s : State) (e : Exit) (x : ExitTransfer × List ExitTransfer) :
    Frame ([.exits, .notices, .alertSeen] ++ itemParts x.1.transit.item) s (s.exitReached e x) :=
  ((frame_setExits s _).mono (by simp)).trans ((frame_reachExit _ _ e).mono (by simp))

theorem exitReached_exits (s : State) (e : Exit) (x : ExitTransfer × List ExitTransfer) :
    (s.exitReached e x).exits = x.2 := (frame_reachExit _ _ e).exits_eq (by simp)

theorem exitReached_marker (h : x.1.transit.item = .marker) : Alerted outfeedSource .unrosteredHeld (s.exitReached e x) := by
  rw [State.exitReached, h]
  exact alerted_raiseAlert _ _ _

theorem closed_closeAtExit {i : RosterIndex} (h : (s.entry i).state = .outbound) {o : OutcomeCode × Reason}
    (ho : exitOutcome e (s.entry i) = some o) : Closed i o.1 o.2 s (s.closeAtExit i e) := by
  have hclose : s.closeAtExit i e = s.closeEntry i o.1 o.2 := by
    unfold State.closeAtExit
    rw [if_pos h, ho]
  rw [hclose]
  exact closed_closeEntry s i o.1 o.2

theorem exitReached_closed {i : RosterIndex} (hitem : x.1.transit.item = .entry i) (h : (s.entry i).state = .outbound)
    {o : OutcomeCode × Reason} (ho : exitOutcome e (s.entry i) = some o) : Closed i o.1 o.2 s (s.exitReached e x) := by
  rw [State.exitReached, hitem]
  exact closed_closeAtExit (s := { s with exits := x.2 }) h ho

/-- An exit eye has ended a transfer, its source of the part `p` told. -/
theorem exitEye_gives (h : takeExit (fun x => decide (x.exit = e)) s.exits = some x) {p : Part}
    (htold : Frame [p] (s.exitReached e x) ((s.exitReached e x).tellSource x.1.transit)) (hexits : p ≠ .exits)
    (hentry : ∀ i, p ≠ .entry i) (hrun : p ≠ .runState) (hnotices : p ≠ .notices) (hseen : p ≠ .alertSeen) :
    ∃ t, exec (.exitEye e) s = .next t ∧ Ends s ((s.exitReached e x).tellSource x.1.transit).drainTest t ∧ t.exits = x.2 ∧
      (x.1.transit.item = .marker → Alerted outfeedSource .unrosteredHeld t) ∧
      (∀ i, x.1.transit.item = .entry i → (s.entry i).state = .outbound →
        ∀ o, exitOutcome e (s.entry i) = some o → Closed i o.1 o.2 s t) ∧
      DrainTested s t ∧ Frame ([.exits, p, .notices, .alertSeen, .runState] ++ itemParts x.1.transit.item) s t := by
  have hreached := frame_exitReached s e x
  have hdrain := frame_drainTest ((s.exitReached e x).tellSource x.1.transit)
  obtain ⟨t, hx, hframe, hends⟩ := event_ends (c := .exitEye e)
    (L := [.exits, p, .notices, .alertSeen, .runState] ++ itemParts x.1.transit.item)
    (exec_effect (congrArg (fun u : State => some u.drainTest) (endExit_reached h)))
    ((hreached.mono (by intro p; simp; tauto)).trans ((htold.mono (by simp)).trans (hdrain.mono (by simp))))
  refine ⟨t, hx, hends, ?_, fun hitem => hends.alerted ?_, fun i hitem hout o ho => hends.drained_closed ?_,
    hends.drainTested ?_, hframe⟩
  · rw [hends.exits, hdrain.exits_eq (by simp), htold.exits_eq (by simpa using hexits.symm), exitReached_exits]
  · exact ((exitReached_marker hitem).of_frame htold (by simpa using hnotices.symm) (by simpa using hseen.symm)).drainTest
  · exact (exitReached_closed hitem hout ho).of_frame htold (by simpa using (hentry i).symm) (by simpa using hnotices.symm)
  · rw [htold.runState_eq (by simpa using hrun.symm), hreached.runState_eq (by simp)]

theorem exitEye_outfeed (h : takeExit (fun x => decide (x.exit = e)) s.exits = some x)
    (hsource : x.1.transit.source = .outfeedHead) : Gives (.exitEye e) s fun t =>
      t.exits = x.2 ∧ t.outfeedHeadInFlight = false ∧ t.outfeedQueue = s.outfeedQueue ∧
        t.outfeedState = s.outfeedState ∧ (x.1.transit.item = .marker → Alerted outfeedSource .unrosteredHeld t) ∧
        (∀ i, x.1.transit.item = .entry i → (s.entry i).state = .outbound →
          ∀ o, exitOutcome e (s.entry i) = some o → Closed i o.1 o.2 s t) ∧
        DrainTested s t ∧
        Frame ([.exits, .outfeed, .notices, .alertSeen, .runState] ++ itemParts x.1.transit.item) s t := by
  have htold := frame_tellSource (s.exitReached e x) x.1.transit
  rw [hsource] at htold
  obtain ⟨t, hx, hends, hexits, hmarker, hclosed, hdrain, hframe⟩ :=
    exitEye_gives h htold (by simp) (by simp) (by simp) (by simp) (by simp)
  have hhead := tellSource_outfeed (s := s.exitReached e x) hsource
  obtain ⟨hstate, hqueue, -⟩ := (frame_exitReached s e x).outfeed_eq (by simp)
  rw [hhead] at hends
  obtain ⟨hstateD, hqueueD, hflightD⟩ :=
    (frame_drainTest { s.exitReached e x with outfeedHeadInFlight := false }).outfeed_eq (by simp)
  obtain ⟨hstateE, hqueueE, hflightE⟩ := hends.outfeed
  exact ⟨t, hx, hexits, hflightE.trans hflightD, hqueueE.trans (hqueueD.trans hqueue),
    hstateE.trans (hstateD.trans hstate), hmarker, hclosed, hdrain, hframe⟩

theorem exitEye_station (h : takeExit (fun x => decide (x.exit = e)) s.exits = some x) {st : StationId}
    (hsource : x.1.transit.source = .station st) : Gives (.exitEye e) s fun t =>
      t.exits = x.2 ∧
        (∀ i, x.1.transit.item = .entry i → (s.entry i).state = .outbound →
          ∀ o, exitOutcome e (s.entry i) = some o → Closed i o.1 o.2 s t) ∧
        (t.station st).bare = (s.station st).emptied.bare ∧ DrainTested s t ∧
        Frame ([.exits, .station st, .notices, .alertSeen, .runState] ++ itemParts x.1.transit.item) s t := by
  have htold := frame_tellSource (s.exitReached e x) x.1.transit
  rw [hsource] at htold
  obtain ⟨t, hx, hends, hexits, -, hclosed, hdrain, hframe⟩ :=
    exitEye_gives h htold (by simp) (by simp) (by simp) (by simp) (by simp)
  refine ⟨t, hx, hexits, hclosed, ?_, hdrain, hframe⟩
  have hstation := (frame_exitReached s e x).station_bare_eq (st := st) (by simp)
  rw [hends.station, (frame_drainTest _).station_bare_eq (by simp), tellSource_station hsource, station_setStation,
    if_pos rfl, ejectOver_eq]
  exact congr(Station.emptied $hstation)

end

/-- An eye with no transfer in flight towards it. -/
theorem eye_ignored {c : Instr} {s : State} (h : exec c s = .next (s.publish s.drainTest)) :
    Gives c s fun t => DrainTested s t ∧ Frame [.runState] s t := by
  obtain ⟨t, hx, hframe, hends⟩ := event_ends (c := c) h (frame_drainTest s)
  exact ⟨t, hx, hends.drainTested rfl, hframe⟩

theorem endTrack_none {s : State} {l : LaneId} (h : occupyFirst (s.lane l).track = none) : s.endTrack l = s := by
  unfold State.endTrack
  rw [h]

theorem endOutfeed_none {s : State} (h : occupyFirst s.outfeedQueue = none) : s.endOutfeed = s := by
  unfold State.endOutfeed
  rw [h]

theorem endExit_none {s : State} {e : Exit} (h : takeExit (fun x => decide (x.exit = e)) s.exits = none) :
    s.endExit e = s := by
  unfold State.endExit
  rw [h]

/-- Settles O50. -/
theorem destinationEyes : Obligations.DestinationEyes := by
  refine ⟨gates_open, fun pre post tr hpre => ⟨?_, ?_⟩, fun p pre post x hpre hx => ⟨?_, ?_⟩,
    fun l s => ⟨fun x h n hsource => trackEye_gives h hsource, fun h => ?_⟩,
    fun s => ⟨fun x h => ⟨fun n hsource => outfeedEye_bay h hsource, fun l hsource => outfeedEye_lane h hsource⟩,
      fun h => ?_⟩,
    fun e s => ⟨fun x h => ⟨exitEye_outfeed h, fun st => exitEye_station h⟩, fun h => ?_⟩⟩
  · rw [occupyFirst_occupied hpre]
    rfl
  · rw [← List.append_nil pre, occupyFirst_occupied hpre]
    rfl
  · rw [takeExit_passed hpre, takeExit, if_pos hx]
    rfl
  · rw [← List.append_nil pre, takeExit_passed hpre]
    rfl
  · exact eye_ignored (exec_effect (congrArg (fun u : State => some u.drainTest) (endTrack_none h)))
  · exact eye_ignored (exec_effect (congrArg (fun u : State => some u.drainTest) (endOutfeed_none h)))
  · exact eye_ignored (exec_effect (congrArg (fun u : State => some u.drainTest) (endExit_none h)))

end Sys2Proof.Machine
end

