-- ==== Sys2Proof/Proofs/Jams.lean ====
section
/-! TRANSFER_JAM (R76): the reservation is released, the entry closed, the source told, and the owner enters FAULT. -/

-- Proofs are checked one after another: the whole text, compiled as one, would otherwise start more threads than fit into the
-- check's memory.
set_option Elab.async false

namespace Sys2Proof.Machine

/-! ## The closed entry and the told source (R16, R76) -/

theorem jamClosed_closeJammed (s : State) (item : Item) : JamClosed item s (s.closeJammed item) := by
  rintro i rfl hstate
  have hclose : s.closeJammed (.entry i) = s.closeEntry i .missing .transferJam := by
    unfold State.closeJammed
    dsimp only
    rcases hstate with h | h | h <;> rw [h]
  rw [hclose]
  exact closed_closeEntry s i _ _

/-- The entry stays closed while it stands and its notice waits. -/
theorem JamClosed.keep {item : Item} {s t u : State} (h : JamClosed item s u) (hentry : ∀ i, t.entry i = u.entry i)
    (hwait : ∀ i code reason, Waiting (.outcome i code reason) u → Waiting (.outcome i code reason) t) :
    JamClosed item s t := fun i hi hstate =>
  have hclosed := h i hi hstate
  ⟨(hentry i).trans hclosed.1, hwait _ _ _ hclosed.2⟩

theorem JamClosed.before {item : Item} {r s t : State} (h : JamClosed item r t) (hentry : ∀ i, r.entry i = s.entry i)
    (hseconds : r.lineSeconds = s.lineSeconds) : JamClosed item s t := fun i hi hstate => by
  have hclosed := h i hi (by rwa [hentry])
  rwa [Closed, hentry, hseconds] at hclosed

theorem JamClosed.of_frame {L : List Part} {item : Item} {s t u : State} (h : JamClosed item s u) (k : Frame L u t)
    (hentry : ∀ i, .entry i ∉ L) (hnotices : .notices ∉ L) : JamClosed item s t :=
  h.keep (fun i => k.entry_eq (hentry i)) fun _ _ _ hw => hw.of_frame k hnotices

theorem JamClosed.raiseAlert {item : Item} {s u : State} (h : JamClosed item s u) (source : Nat) (code : AlertCode) :
    JamClosed item s (u.raiseAlert source code) :=
  h.keep (fun _ => (frame_raiseAlert u source code).entry_eq (by simp)) fun _ _ _ hw => hw.raiseAlert (.inl rfl)

theorem Ends.jamClosed {item : Item} {s u t : State} (h : Ends s u.drainTest t) (k : JamClosed item s u) :
    JamClosed item s t :=
  k.keep (fun i => by rw [h.entry, drainTest_entry]) fun _ _ _ hw => h.waiting hw.drainTest

theorem bayFault_alert (s : State) (n : BayId) (cause : AlertCode) : ∃ v, Frame [.bay n, .requests] s v ∧
    s.bayFault n cause = v.raiseAlert (baySource n) cause :=
  ⟨_, ((frame_withdrawRequest s n).mono (by simp)).trans ((frame_setBay _ n _).mono (by simp)), rfl⟩

theorem JamClosed.bayFault {item : Item} {s u : State} (h : JamClosed item s u) (n : BayId) (cause : AlertCode) :
    JamClosed item s (u.bayFault n cause) := by
  obtain ⟨v, hframe, heq⟩ := bayFault_alert u n cause
  rw [heq]
  exact (h.of_frame hframe (by simp) (by simp)).raiseAlert _ _

theorem JamClosed.bayUnloaded {item : Item} {s u : State} (h : JamClosed item s u) (n : BayId) :
    JamClosed item s (u.bayUnloaded n) := by
  have hindex := h.of_frame (frame_setBay u n { u.bay n with index := none }) (by simp) (by simp)
  unfold State.bayUnloaded
  split
  · exact hindex.bayFault n _
  · exact hindex.of_frame (frame_enterIdle _ n) (by simp) (by simp)

theorem JamClosed.tellSource {item : Item} {s u : State} (h : JamClosed item s u) (t : Transit) :
    JamClosed item s (u.tellSource t) := by
  cases hsource : t.source with
  | bay n =>
    rw [tellSource_bay hsource]
    exact h.bayUnloaded n
  | laneHead | trackHead | outfeedHead | station =>
    exact h.of_frame (frame_tellSource u t) (by simp [hsource, sourceParts]) (by simp [hsource, sourceParts])

/-- The entry of a jammed transfer has been closed and its source told. -/
def State.jamTold (s : State) (t : Transit) : State := (s.closeJammed t.item).tellSource t

theorem jamClosed_jamTold (s : State) (t : Transit) : JamClosed t.item s (s.jamTold t) :=
  (jamClosed_closeJammed s t.item).tellSource t

theorem frame_jamTold (s : State) (t : Transit) :
    Frame (.notices :: sourceParts t.source ++ itemParts t.item) s (s.jamTold t) :=
  ((frame_closeJammed s t.item).mono (by intro p; simp; tauto)).trans
    ((frame_tellSource _ t).mono (by intro p; simp; tauto))

theorem jamTold_bayEmptied {s w : State} {t : Transit} {n : BayId} {L : List Part} (h : Frame L s w) (hbay : .bay n ∉ L)
    (hrun : .runState ∉ L) (hseconds : .lineSeconds ∉ L) (hset : .settings ∉ L)
    (hqueue : (w.lane (laneOf n)).queue = (s.lane (laneOf n)).queue) (hsource : t.source = .bay n) :
    BayEmptied n s (w.jamTold t) := by
  have hclose := frame_closeJammed w t.item
  rw [State.jamTold, tellSource_bay hsource]
  refine bayEmptied_bayUnloaded (L := L ++ .notices :: itemParts t.item)
    ((h.mono (by simp)).trans (hclose.mono (by simp))) (by simpa using hbay) (by simpa using hrun)
    (by simpa using hseconds) (by simpa using hset) ?_
  exact Eq.trans congr(Lane.queue $(hclose.lane_bare_eq (l := laneOf n) (by simp))) hqueue

theorem jamTold_lane {w : State} {t : Transit} {l : LaneId} (hsource : t.source = .laneHead l) :
    ((w.jamTold t).lane l).bare =
      { w.lane l with headInFlight := if t.disowned then (w.lane l).headInFlight else false }.bare := by
  have hlane := (frame_closeJammed w t.item).lane_bare_eq (l := l) (by simp)
  rw [State.jamTold, tellSource_lane hsource]
  exact congr({ $hlane with headInFlight := if t.disowned then (Lane.headInFlight $hlane) else false })

theorem jamTold_track {w : State} {t : Transit} {l : LaneId} (hsource : t.source = .trackHead l) :
    ((w.jamTold t).lane l).bare = { w.lane l with trackOut := false }.bare := by
  have hlane := (frame_closeJammed w t.item).lane_bare_eq (l := l) (by simp)
  rw [State.jamTold, tellSource_track hsource, lane_setLane, if_pos rfl]
  exact congr({ $hlane with trackOut := false })

theorem jamTold_station {w : State} {t : Transit} {st : StationId} (hsource : t.source = .station st) :
    ((w.jamTold t).station st).bare = (w.station st).emptied.bare := by
  have hstation := (frame_closeJammed w t.item).station_bare_eq (st := st) (by simp)
  rw [State.jamTold, tellSource_station hsource, station_setStation, if_pos rfl, ejectOver_eq]
  exact congr(Station.emptied $hstation)

theorem jamTold_outfeed {w : State} {t : Transit} (hsource : t.source = .outfeedHead) :
    (w.jamTold t).outfeedState = w.outfeedState ∧ (w.jamTold t).outfeedQueue = w.outfeedQueue ∧
      (w.jamTold t).outfeedHeadInFlight = false := by
  obtain ⟨hstate, hqueue, -⟩ := (frame_closeJammed w t.item).outfeed_eq (by simp)
  rw [State.jamTold, tellSource_outfeed hsource]
  exact ⟨hstate, hqueue, rfl⟩

/-! ## The outfeed enters FAULT (R76, R85) -/

theorem outfeedJam_outfeed (s : State) : s.outfeedJam.outfeedState = .fault ∧
    s.outfeedJam.outfeedQueue = s.outfeedQueue ∧ s.outfeedJam.outfeedHeadInFlight = s.outfeedHeadInFlight :=
  (frame_raiseAlert { s with outfeedState := .fault } _ _).outfeed_eq (by simp)

theorem JamClosed.outfeedJam {item : Item} {s u : State} (h : JamClosed item s u) : JamClosed item s u.outfeedJam :=
  (h.of_frame (frame_setOutfeedState u .fault) (by simp) (by simp)).raiseAlert _ _

theorem Alerted.outfeedJam {source : Nat} {code : AlertCode} {u : State} (h : Alerted source code u)
    (hs : source ≠ outfeedSource) : Alerted source code u.outfeedJam :=
  (h.of_frame (frame_setOutfeedState u .fault) (by simp) (by simp)).raiseAlert hs

theorem alerted_outfeedJam (u : State) : Alerted outfeedSource .transferJam u.outfeedJam := alerted_raiseAlert _ _ _

theorem baySource_ne_outfeed (n : BayId) : baySource n ≠ outfeedSource := by revert n; decide

theorem BayEmptied.outfeedJam {n : BayId} {s u : State} (h : BayEmptied n s u) : BayEmptied n s u.outfeedJam :=
  h.congr (by rw [(frame_outfeedJam u).bay_eq (by simp)]) fun hal => hal.outfeedJam (baySource_ne_outfeed n)

end Sys2Proof.Machine
end

