-- ==== Sys2Proof/Proofs/JamRules.lean ====
section
/-! TRANSFER_JAM (R76), owner by owner. -/

-- Proofs are checked one after another: the whole text, compiled as one, would otherwise start more threads than fit into the
-- check's memory.
set_option Elab.async false

namespace Sys2Proof.Machine

/-- A jam, its effect known. -/
theorem jam_ends {r : TransferRef} {s u : State} {L : List Part} (h : s.jam r = u) (hf : Frame L s u)
    (hrun : .runState ∉ L) : ∃ t, exec (.transferJam r) s = .next t ∧ Ends s u.drainTest t ∧ DrainTested s t ∧
      Frame (L ++ [.runState]) s t := by
  obtain ⟨t, hx, hframe, hends⟩ := event_ends (c := .transferJam r)
    (exec_effect (congrArg (fun u : State => some u.drainTest) h))
    ((hf.mono (List.subset_append_left L [.runState])).trans ((frame_drainTest u).mono (by simp)))
  exact ⟨t, hx, hends, hends.drainTested (hf.runState_eq hrun), hframe⟩

/-- A transfer that does not jam. -/
theorem jam_ignored {r : TransferRef} {s : State} (h : s.jam r = s) : Gives (.transferJam r) s fun t =>
    DrainTested s t ∧ Frame [.runState] s t :=
  eye_ignored (exec_effect (congrArg (fun u : State => some u.drainTest) h))

section

variable {s : State} {n : BayId} {l : LaneId} {st : StationId}

/-! ## A bay's loading transfer (R76, R96) -/

/-- The bay has given up the cylinder that never came. -/
def State.loadingLost (s : State) (n : BayId) : State := s.setBay n { s.bay n with loading := none, index := none }

theorem jamLoading_due {tr : Transit} (hload : (s.bay n).loading = some tr) (hdue : s.due tr.expiry = true) :
    s.jamLoading n = ((s.loadingLost n).jamTold tr).bayFault n .transferJam := by
  unfold State.jamLoading
  rw [hload]
  exact if_pos hdue

theorem jamLoading_kept (h : ∀ tr, (s.bay n).loading = some tr → s.due tr.expiry = false) : s.jamLoading n = s := by
  unfold State.jamLoading
  cases hload : (s.bay n).loading with
  | none => rfl
  | some tr => exact if_neg (by simp [h tr hload])

theorem loadingLost_lane (s : State) (n : BayId) (l : LaneId) : (s.loadingLost n).lane l = s.lane l := by cases l <;> rfl

theorem loading_jams {tr : Transit} (hload : (s.bay n).loading = some tr) (hdue : s.due tr.expiry = true)
    (hsource : tr.source = .laneHead l ∨ tr.source = .trackHead l) : Gives (.transferJam (.loading n)) s fun t =>
      (t.bay n).bare = ({ s.bay n with loading := none, index := none }.faultedWith .transferJam).bare ∧
        JamClosed tr.item s t ∧ Alerted (baySource n) .transferJam t ∧
        t.requests = s.requests.filter (fun r => decide (r.bay ≠ n)) ∧
        (tr.source = .laneHead l → (t.lane l).bare = { s.lane l with
          headInFlight := if tr.disowned then (s.lane l).headInFlight else false }.bare) ∧
        (tr.source = .trackHead l → (t.lane l).bare = { s.lane l with trackOut := false }.bare) ∧
        DrainTested s t ∧
        Frame ([.bay n, .requests, .notices, .alertSeen, .lane l, .runState] ++ itemParts tr.item) s t := by
  have hlost : Frame [.bay n] s (s.loadingLost n) := frame_setBay s n _
  have htold : Frame ([.notices, .lane l] ++ itemParts tr.item) (s.loadingLost n) ((s.loadingLost n).jamTold tr) := by
    have h := frame_jamTold (s.loadingLost n) tr
    rcases hsource with hsource | hsource <;> (rw [hsource] at h; exact h)
  have hfault := frame_bayFault ((s.loadingLost n).jamTold tr) n .transferJam
  obtain ⟨t, hx, hends, hdrain, hframe⟩ := jam_ends (r := .loading n)
    (L := [.bay n, .requests, .notices, .alertSeen, .lane l] ++ itemParts tr.item) (jamLoading_due hload hdue)
    ((hlost.mono (by simp)).trans ((htold.mono (by intro p; simp; tauto)).trans (hfault.mono (by simp)))) (by simp)
  have hlane : (t.lane l).bare = (((s.loadingLost n).jamTold tr).lane l).bare := by
    rw [hends.lane, drainTest_lane, hfault.lane_bare_eq (by simp)]
  obtain ⟨v, hv, heq⟩ := bayFault_alert ((s.loadingLost n).jamTold tr) n .transferJam
  refine ⟨t, hx, ?_, ?_, hends.alerted ?_, ?_, fun hl => ?_, fun hl => ?_, hdrain, hframe.mono (by intro p; simp; tauto)⟩
  · rw [hends.drained_bay, bayFault_bay, htold.bay_eq (by simp), State.loadingLost, bay_setBay_self]
  · refine hends.jamClosed (((jamClosed_jamTold (s.loadingLost n) tr).before (fun i => ?_) rfl).bayFault n _)
    exact hlost.entry_eq (by simp)
  · rw [heq]
    exact (alerted_raiseAlert _ _ _).drainTest
  · have hrequests : (((s.loadingLost n).jamTold tr).bayFault n .transferJam).requests =
        ((s.loadingLost n).jamTold tr).requests.filter (fun r => decide (r.bay ≠ n)) := rfl
    rw [hends.requests, (frame_drainTest _).requests_eq (by simp), hrequests, htold.requests_eq (by simp),
      hlost.requests_eq (by simp)]
  · rw [hlane, jamTold_lane hl, loadingLost_lane]
  · rw [hlane, jamTold_track hl, loadingLost_lane]

/-! ## A transfer into the outfeed (R76) -/

section

variable {source : TransferSource} {x : Transit × List Position}

/-- The outfeed has released the reservation. -/
def State.outfeedReleased (s : State) (x : Transit × List Position) : State := { s with outfeedQueue := x.2 }

theorem jamOutfeed_due (h : releaseReservation (s.dueFrom source) s.outfeedQueue = some x) :
    s.jamOutfeed source = ((s.outfeedReleased x).jamTold x.1).outfeedJam := by
  unfold State.jamOutfeed
  rw [h]
  rfl

theorem jamOutfeed_kept (h : releaseReservation (s.dueFrom source) s.outfeedQueue = none) : s.jamOutfeed source = s := by
  unfold State.jamOutfeed
  rw [h]

/-- A transfer into the outfeed has jammed, its source of the parts `M` told. -/
theorem outfeed_jams {r : TransferRef} {M : List Part} (hjam : s.jam r = s.jamOutfeed source)
    (h : releaseReservation (s.dueFrom source) s.outfeedQueue = some x)
    (htold : Frame (.notices :: M ++ itemParts x.1.item) (s.outfeedReleased x) ((s.outfeedReleased x).jamTold x.1))
    (hout : .outfeed ∉ M) (hrun : .runState ∉ M) :
    ∃ t, exec (.transferJam r) s = .next t ∧ Ends s ((s.outfeedReleased x).jamTold x.1).outfeedJam.drainTest t ∧
      t.outfeedQueue = x.2 ∧ t.outfeedState = .fault ∧ t.outfeedHeadInFlight = s.outfeedHeadInFlight ∧
      JamClosed x.1.item s t ∧ Alerted outfeedSource .transferJam t ∧ DrainTested s t ∧
      Frame (.outfeed :: M ++ [.notices, .alertSeen, .runState] ++ itemParts x.1.item) s t := by
  have hreleased : Frame [.outfeed] s (s.outfeedReleased x) := frame_setOutfeedQueue s _
  obtain ⟨t, hx, hends, hdrain, hframe⟩ := jam_ends
    (L := .outfeed :: M ++ [.notices, .alertSeen] ++ itemParts x.1.item) (hjam.trans (jamOutfeed_due h))
    ((hreleased.mono (by simp)).trans
      ((htold.mono (by intro p; simp; tauto)).trans ((frame_outfeedJam _).mono (by simp)))) (by simpa using hrun)
  obtain ⟨-, hqueueT, hflightT⟩ := htold.outfeed_eq (by simpa using hout)
  obtain ⟨hstateJ, hqueueJ, hflightJ⟩ := outfeedJam_outfeed ((s.outfeedReleased x).jamTold x.1)
  obtain ⟨hstateD, hqueueD, hflightD⟩ :=
    (frame_drainTest ((s.outfeedReleased x).jamTold x.1).outfeedJam).outfeed_eq (by simp)
  obtain ⟨hstateE, hqueueE, hflightE⟩ := hends.outfeed
  have hclosed : JamClosed x.1.item s ((s.outfeedReleased x).jamTold x.1) :=
    (jamClosed_jamTold (s.outfeedReleased x) x.1).before (fun _ => rfl) rfl
  exact ⟨t, hx, hends, hqueueE.trans (hqueueD.trans (hqueueJ.trans hqueueT)), hstateE.trans (hstateD.trans hstateJ),
    hflightE.trans (hflightD.trans (hflightJ.trans hflightT)), hends.jamClosed hclosed.outfeedJam,
    hends.alerted (alerted_outfeedJam _).drainTest, hdrain, hframe.mono (by intro p; simp; tauto)⟩

theorem bayToOutfeed_jams (h : releaseReservation (s.dueFrom (.bay n)) s.outfeedQueue = some x) :
    Gives (.transferJam (.bayToOutfeed n)) s fun t =>
      t.outfeedQueue = x.2 ∧ t.outfeedState = .fault ∧ t.outfeedHeadInFlight = s.outfeedHeadInFlight ∧
        JamClosed x.1.item s t ∧ Alerted outfeedSource .transferJam t ∧ BayEmptied n s t ∧ DrainTested s t ∧
        Frame ([.outfeed, .bay n, .requests, .notices, .alertSeen, .runState] ++ itemParts x.1.item) s t := by
  have hsource := dueFrom_source (releaseReservation_some h).1
  have htold := frame_jamTold (s.outfeedReleased x) x.1
  rw [hsource] at htold
  obtain ⟨t, hx, hends, hqueue, hstate, hflight, hclosed, halert, hdrain, hframe⟩ :=
    outfeed_jams (r := .bayToOutfeed n) rfl h htold (by simp [sourceParts]) (by simp [sourceParts])
  have hemptied : BayEmptied n s ((s.outfeedReleased x).jamTold x.1) :=
    jamTold_bayEmptied (L := [.outfeed]) (frame_setOutfeedQueue s _) (by simp) (by simp) (by simp) (by simp) rfl hsource
  exact ⟨t, hx, hqueue, hstate, hflight, hclosed, halert, hends.bayEmptied hemptied.outfeedJam, hdrain,
    hframe.mono (by intro p; simp [sourceParts]; tauto)⟩

theorem laneToOutfeed_jams (h : releaseReservation (s.dueFrom (.laneHead l)) s.outfeedQueue = some x) :
    Gives (.transferJam (.laneToOutfeed l)) s fun t =>
      t.outfeedQueue = x.2 ∧ t.outfeedState = .fault ∧ t.outfeedHeadInFlight = s.outfeedHeadInFlight ∧
        JamClosed x.1.item s t ∧ Alerted outfeedSource .transferJam t ∧
        (t.lane l).bare = { s.lane l with
          headInFlight := if x.1.disowned then (s.lane l).headInFlight else false }.bare ∧ DrainTested s t ∧
        Frame ([.outfeed, .lane l, .notices, .alertSeen, .runState] ++ itemParts x.1.item) s t := by
  have hsource := dueFrom_source (releaseReservation_some h).1
  have htold := frame_jamTold (s.outfeedReleased x) x.1
  rw [hsource] at htold
  obtain ⟨t, hx, hends, hqueue, hstate, hflight, hclosed, halert, hdrain, hframe⟩ :=
    outfeed_jams (r := .laneToOutfeed l) rfl h htold (by simp [sourceParts]) (by simp [sourceParts])
  refine ⟨t, hx, hqueue, hstate, hflight, hclosed, halert, ?_, hdrain, hframe.mono (by intro p; simp [sourceParts])⟩
  rw [hends.lane, drainTest_lane, (frame_outfeedJam _).lane_bare_eq (by simp), jamTold_lane hsource]
  rfl

end

/-! ## A station's loading transfer (R76, R148) -/

/-- The station has given up the cylinder that never came. -/
def State.nestLost (s : State) (st : StationId) : State :=
  s.setStation st { s.station st with loading := none, nest := .empty, index := none }

theorem jamNest_due {tr : Transit} (hload : (s.station st).loading = some tr) (hdue : s.due tr.expiry = true) :
    s.jamNest st = ((s.nestLost st).jamTold tr).stationFault st .transferJam := by
  unfold State.jamNest
  rw [hload]
  exact if_pos hdue

theorem jamNest_kept (h : ∀ tr, (s.station st).loading = some tr → s.due tr.expiry = false) : s.jamNest st = s := by
  unfold State.jamNest
  cases hload : (s.station st).loading with
  | none => rfl
  | some tr => exact if_neg (by simp [h tr hload])

theorem JamClosed.stationFault {item : Item} {u : State} (h : JamClosed item s u) (st : StationId) (cause : AlertCode) :
    JamClosed item s (u.stationFault st cause) :=
  (h.of_frame (frame_setStation u st _) (by simp) (by simp)).raiseAlert _ _

theorem stationFault_station (s : State) (st : StationId) (cause : AlertCode) : (s.stationFault st cause).station st =
    { s.station st with state := .fault, faultCause := some cause } := by cases st <;> rfl

theorem nest_jams {tr : Transit} (hload : (s.station st).loading = some tr) (hdue : s.due tr.expiry = true)
    (hsource : tr.source = .outfeedHead) : Gives (.transferJam (.nest st)) s fun t =>
      (t.station st).bare = { s.station st with
        loading := none
        nest := .empty
        index := none
        state := .fault
        faultCause := some .transferJam }.bare ∧
        JamClosed tr.item s t ∧ Alerted (stationSource st) .transferJam t ∧ t.outfeedHeadInFlight = false ∧
        t.outfeedQueue = s.outfeedQueue ∧ t.outfeedState = s.outfeedState ∧ DrainTested s t ∧
        Frame ([.station st, .outfeed, .notices, .alertSeen, .runState] ++ itemParts tr.item) s t := by
  have hlost : Frame [.station st] s (s.nestLost st) := frame_setStation s st _
  have htold := frame_jamTold (s.nestLost st) tr
  rw [hsource] at htold
  have hfault := frame_stationFault ((s.nestLost st).jamTold tr) st .transferJam
  obtain ⟨t, hx, hends, hdrain, hframe⟩ := jam_ends (r := .nest st)
    (L := [.station st, .outfeed, .notices, .alertSeen] ++ itemParts tr.item) (jamNest_due hload hdue)
    ((hlost.mono (by simp)).trans ((htold.mono (by intro p; simp [sourceParts]; tauto)).trans (hfault.mono (by simp))))
    (by simp)
  obtain ⟨hstateL, hqueueL, -⟩ := hlost.outfeed_eq (by simp)
  obtain ⟨hstateT, hqueueT, hflightT⟩ := jamTold_outfeed (w := s.nestLost st) hsource
  obtain ⟨hstateF, hqueueF, hflightF⟩ := hfault.outfeed_eq (by simp)
  obtain ⟨hstateD, hqueueD, hflightD⟩ := (frame_drainTest _).outfeed_eq (by simp)
  obtain ⟨hstateE, hqueueE, hflightE⟩ := hends.outfeed
  refine ⟨t, hx, ?_, ?_, hends.alerted ?_, hflightE.trans (hflightD.trans (hflightF.trans hflightT)),
    hqueueE.trans (hqueueD.trans (hqueueF.trans (hqueueT.trans hqueueL))),
    hstateE.trans (hstateD.trans (hstateF.trans (hstateT.trans hstateL))), hdrain, hframe.mono (by intro p; simp; tauto)⟩
  · have hstation := htold.station_bare_eq (st := st) (by simp [sourceParts])
    rw [State.nestLost, station_setStation, if_pos rfl] at hstation
    rw [hends.station, (frame_drainTest _).station_bare_eq (by simp), stationFault_station]
    exact congr({ $hstation with state := .fault, faultCause := some .transferJam })
  · refine hends.jamClosed (((jamClosed_jamTold (s.nestLost st) tr).before (fun i => ?_) (hlost.lineSeconds_eq (by simp))
      ).stationFault st _)
    exact hlost.entry_eq (by simp)
  · exact (alerted_raiseAlert _ _ _).drainTest

/-! ## A transfer to an exit (R76, R157) -/

section

variable {source : TransferSource} {x : ExitTransfer × List ExitTransfer}

/-- The transfer has left the exit list. -/
def State.exitReleased (s : State) (x : ExitTransfer × List ExitTransfer) : State := { s with exits := x.2 }

theorem jamExit_due (h : takeExit (fun x => s.dueFrom source x.transit) s.exits = some x) :
    s.jamExit source = ((s.exitReleased x).jamTold x.1.transit).outfeedJam := by
  unfold State.jamExit
  rw [h]
  rfl

theorem jamExit_kept (h : takeExit (fun x => s.dueFrom source x.transit) s.exits = none) : s.jamExit source = s := by
  unfold State.jamExit
  rw [h]

/-- A transfer to an exit has jammed, its source of the part `p` told. -/
theorem exit_jams {r : TransferRef} {p : Part} (hjam : s.jam r = s.jamExit source)
    (h : takeExit (fun x => s.dueFrom source x.transit) s.exits = some x)
    (htold : Frame (.notices :: [p] ++ itemParts x.1.transit.item) (s.exitReleased x)
      ((s.exitReleased x).jamTold x.1.transit)) (hexits : p ≠ .exits) (hrun : p ≠ .runState) :
    ∃ t, exec (.transferJam r) s = .next t ∧ Ends s ((s.exitReleased x).jamTold x.1.transit).outfeedJam.drainTest t ∧
      t.exits = x.2 ∧ t.outfeedState = .fault ∧
      t.outfeedQueue = ((s.exitReleased x).jamTold x.1.transit).outfeedQueue ∧
      t.outfeedHeadInFlight = ((s.exitReleased x).jamTold x.1.transit).outfeedHeadInFlight ∧
      JamClosed x.1.transit.item s t ∧ Alerted outfeedSource .transferJam t ∧ DrainTested s t ∧
      Frame ([.exits, .outfeed, p, .notices, .alertSeen, .runState] ++ itemParts x.1.transit.item) s t := by
  have hreleased : Frame [.exits] s (s.exitReleased x) := frame_setExits s _
  have hfault := frame_outfeedJam ((s.exitReleased x).jamTold x.1.transit)
  obtain ⟨t, hx, hends, hdrain, hframe⟩ := jam_ends
    (L := [.exits, .outfeed, p, .notices, .alertSeen] ++ itemParts x.1.transit.item) (hjam.trans (jamExit_due h))
    ((hreleased.mono (by simp)).trans ((htold.mono (by intro p; simp; tauto)).trans (hfault.mono (by simp))))
    (by simpa using hrun.symm)
  obtain ⟨hstateJ, hqueueJ, hflightJ⟩ := outfeedJam_outfeed ((s.exitReleased x).jamTold x.1.transit)
  obtain ⟨hstateD, hqueueD, hflightD⟩ :=
    (frame_drainTest ((s.exitReleased x).jamTold x.1.transit).outfeedJam).outfeed_eq (by simp)
  obtain ⟨hstateE, hqueueE, hflightE⟩ := hends.outfeed
  have hclosed : JamClosed x.1.transit.item s ((s.exitReleased x).jamTold x.1.transit) :=
    (jamClosed_jamTold (s.exitReleased x) x.1.transit).before (fun _ => rfl) rfl
  refine ⟨t, hx, hends, ?_, hstateE.trans (hstateD.trans hstateJ), hqueueE.trans (hqueueD.trans hqueueJ),
    hflightE.trans (hflightD.trans hflightJ), hends.jamClosed hclosed.outfeedJam,
    hends.alerted (alerted_outfeedJam _).drainTest, hdrain, hframe.mono (by intro p; simp; tauto)⟩
  rw [hends.exits, (frame_drainTest _).exits_eq (by simp), hfault.exits_eq (by simp),
    htold.exits_eq (by simpa using hexits.symm)]
  rfl

theorem headToExit_jams (h : takeExit (fun x => s.dueFrom .outfeedHead x.transit) s.exits = some x) :
    Gives (.transferJam .headToExit) s fun t =>
      t.exits = x.2 ∧ t.outfeedState = .fault ∧ t.outfeedHeadInFlight = false ∧
        t.outfeedQueue = s.outfeedQueue ∧ JamClosed x.1.transit.item s t ∧
        Alerted outfeedSource .transferJam t ∧ DrainTested s t ∧
        Frame ([.exits, .outfeed, .notices, .alertSeen, .runState] ++ itemParts x.1.transit.item) s t := by
  have hsource := dueFrom_source (takeExit_some h).1
  have htold := frame_jamTold (s.exitReleased x) x.1.transit
  rw [hsource] at htold
  obtain ⟨t, hx, -, hexits, hstate, hqueue, hflight, hclosed, halert, hdrain, hframe⟩ :=
    exit_jams (r := .headToExit) rfl h htold (by simp) (by simp)
  obtain ⟨-, hqueueT, hflightT⟩ := jamTold_outfeed (w := s.exitReleased x) hsource
  exact ⟨t, hx, hexits, hstate, hflight.trans hflightT, hqueue.trans hqueueT, hclosed, halert, hdrain,
    hframe.mono (by intro p; simp)⟩

theorem eject_jams (h : takeExit (fun x => s.dueFrom (.station st) x.transit) s.exits = some x) :
    Gives (.transferJam (.eject st)) s fun t =>
      t.exits = x.2 ∧ t.outfeedState = .fault ∧ t.outfeedHeadInFlight = s.outfeedHeadInFlight ∧
        t.outfeedQueue = s.outfeedQueue ∧ JamClosed x.1.transit.item s t ∧
        Alerted outfeedSource .transferJam t ∧ (t.station st).bare = (s.station st).emptied.bare ∧
        DrainTested s t ∧
        Frame ([.exits, .outfeed, .station st, .notices, .alertSeen, .runState] ++ itemParts x.1.transit.item) s t := by
  have hsource := dueFrom_source (takeExit_some h).1
  have htold := frame_jamTold (s.exitReleased x) x.1.transit
  rw [hsource] at htold
  obtain ⟨t, hx, hends, hexits, hstate, hqueue, hflight, hclosed, halert, hdrain, hframe⟩ :=
    exit_jams (r := .eject st) rfl h htold (by simp) (by simp)
  obtain ⟨-, hqueueT, hflightT⟩ := htold.outfeed_eq (by simp [sourceParts])
  refine ⟨t, hx, hexits, hstate, hflight.trans hflightT, hqueue.trans hqueueT, hclosed, halert, ?_, hdrain, hframe⟩
  rw [hends.station, (frame_drainTest _).station_bare_eq (by simp), (frame_outfeedJam _).station_bare_eq (by simp),
    jamTold_station hsource]
  rfl

end

end

end Sys2Proof.Machine
end

