-- ==== Sys2Proof/Proofs/TransferJams.lean ====
section
/-! TRANSFER_JAM onto a track (R76, R86), where the lane enters FAULT as well, and the rules together. -/

-- Proofs are checked one after another: the whole text, compiled as one, would otherwise start more threads than fit into the
-- check's memory.
set_option Elab.async false

namespace Sys2Proof.Machine

section

variable {s : State} {n : BayId} {x : Transit × List Position}

theorem enterZeroing_loading (s : State) (n : BayId) (rp : Option ResumePoint) :
    ((s.enterZeroing n rp).bay n).loading = (s.bay n).loading := by
  unfold State.enterZeroing
  dsimp only
  split <;> simp [State.beginCheck, Bay.zeroed, Bay.enter]

theorem bayUnloaded_loading (s : State) (n : BayId) : ((s.bayUnloaded n).bay n).loading = (s.bay n).loading := by
  have hindex : ((s.setBay n { s.bay n with index := none }).bay n).loading = (s.bay n).loading := by rw [bay_setBay_self]
  unfold State.bayUnloaded
  split
  · rw [bayFault_bay]
    exact hindex
  · rw [enterIdle_eq]
    unfold State.testIdleTriggers
    split
    · rw [enterZeroing_loading, bay_setBay_self]
      exact hindex
    · rw [bay_setBay_self]
      exact hindex

/-- The track has released the reservation. -/
def State.trackReleased (s : State) (l : LaneId) (x : Transit × List Position) : State :=
  s.setLane l { s.lane l with track := x.2 }

/-- The jammed transfer of a bay onto its track, its lane not yet in FAULT. -/
def State.trackTold (s : State) (n : BayId) (x : Transit × List Position) : State :=
  (s.trackReleased (laneOf n) x).jamTold x.1

theorem jamTrack_due (h : releaseReservation (s.dueFrom (.bay n)) (s.lane (laneOf n)).track = some x) : s.jamTrack n =
    ((s.trackTold n x).laneFault (laneOf n)).raiseAlert (laneSource (laneOf n)) .transferJam := by
  unfold State.jamTrack
  rw [h]
  rfl

theorem jamTrack_kept (h : releaseReservation (s.dueFrom (.bay n)) (s.lane (laneOf n)).track = none) :
    s.jamTrack n = s := by
  unfold State.jamTrack
  rw [h]

theorem trackReleased_queue (s : State) (l m : LaneId) (x : Transit × List Position) :
    ((s.trackReleased l x).lane m).queue = (s.lane m).queue := by cases l <;> cases m <;> rfl

theorem frame_trackTold (hsource : x.1.source = .bay n) :
    Frame ([.lane (laneOf n), .bay n, .requests, .notices, .alertSeen] ++ itemParts x.1.item) s (s.trackTold n x) := by
  have htold := frame_jamTold (s.trackReleased (laneOf n) x) x.1
  rw [hsource] at htold
  exact ((frame_setLane s _ _).mono (by simp)).trans (htold.mono (by intro p; simp [sourceParts]; tauto))

theorem trackTold_lane (hsource : x.1.source = .bay n) : ((s.trackTold n x).lane (laneOf n)).bare =
    { s.lane (laneOf n) with track := x.2 }.bare := by
  have htold := frame_jamTold (s.trackReleased (laneOf n) x) x.1
  rw [State.trackTold, htold.lane_bare_eq (by simp [hsource, sourceParts]), State.trackReleased, lane_setLane, if_pos rfl]

theorem trackTold_loading (hsource : x.1.source = .bay n) :
    ((s.trackTold n x).bay n).loading = (s.bay n).loading := by
  rw [State.trackTold, State.jamTold, tellSource_bay hsource, bayUnloaded_loading,
    (frame_closeJammed _ _).bay_eq (by simp), State.trackReleased, (frame_setLane s _ _).bay_eq (by simp)]

theorem trackTold_bayEmptied (hsource : x.1.source = .bay n) : BayEmptied n s (s.trackTold n x) :=
  jamTold_bayEmptied (L := [.lane (laneOf n)]) (frame_setLane s _ _) (by simp) (by simp) (by simp) (by simp)
    (trackReleased_queue s _ _ x) hsource

theorem trackTold_jamClosed : JamClosed x.1.item s (s.trackTold n x) :=
  (jamClosed_jamTold (s.trackReleased (laneOf n) x) x.1).before
    (fun i => (frame_setLane s _ _).entry_eq (by simp)) ((frame_setLane s _ _).lineSeconds_eq (by simp))

/-- A lane's FAULT entry leaves a bay with no transfer in flight towards it. -/
theorem laneFault_bay_kept (l : LaneId) (h : (s.bay n).loading = none) : (s.laneFault l).bay n = s.bay n := by
  cases hstate : (s.lane l).state with
  | fault => rw [laneFault_faulted hstate]
  | normal =>
    obtain ⟨-, -, -, hbay⟩ := laneFault_gives hstate
    rw [hbay, h, Option.map_none, ← h]

/-- The event's effect up to the drain test. -/
def State.trackJammed (s : State) (n : BayId) (x : Transit × List Position) : State :=
  ((s.trackTold n x).laneFault (laneOf n)).raiseAlert (laneSource (laneOf n)) .transferJam

/-- The parts of a jam onto a track. -/
def trackJamParts (item : Item) : List Part :=
  [.lane .a, .lane .b, .claims, .outfeed, .exits, .station .stamper, .station .defacer, .requests, .notices, .alertSeen,
    .runState] ++ bayParts ++ itemParts item

theorem frame_trackJammed (hsource : x.1.source = .bay n) :
    Frame (laneFaultParts ++ [.requests, .notices, .alertSeen] ++ itemParts x.1.item) s (s.trackJammed n x) := by
  have hlane : Part.lane (laneOf n) ∈ laneFaultParts := by cases laneOf n <;> decide
  have hbay : Part.bay n ∈ laneFaultParts := List.mem_append_right _ (part_bay_mem n)
  refine ((frame_trackTold hsource).mono ?_).trans
    (((frame_laneFault _ _).mono (by simp)).trans ((frame_raiseAlert _ _ _).mono (by simp)))
  intro p hp
  simp only [List.mem_append, List.mem_cons, List.not_mem_nil, or_false] at hp ⊢
  rcases hp with (rfl | rfl | rfl | rfl | rfl) | hp
  · exact .inl (.inl hlane)
  · exact .inl (.inl hbay)
  all_goals tauto

theorem trackJammed_lane (s : State) (n : BayId) (x : Transit × List Position) (l : LaneId) :
    (s.trackJammed n x).lane l = ((s.trackTold n x).laneFault (laneOf n)).lane l := by cases l <;> rfl

theorem baySource_ne_lane (n : BayId) (l : LaneId) : baySource n ≠ laneSource l := by
  revert n
  cases l <;> decide

theorem trackJammed_bayEmptied (hsource : x.1.source = .bay n) (hload : (s.bay n).loading = none) :
    BayEmptied n s (s.trackJammed n x) := by
  refine (trackTold_bayEmptied hsource).congr ?_ fun hal => ?_
  · rw [State.trackJammed, (frame_raiseAlert _ _ _).bay_eq (by simp),
      laneFault_bay_kept _ (by rw [trackTold_loading hsource, hload])]
  · exact (hal.of_frame (frame_laneFault _ _) (by decide) (by decide)).raiseAlert (baySource_ne_lane n _)

theorem trackJammed_jamClosed : JamClosed x.1.item s (s.trackJammed n x) :=
  (trackTold_jamClosed.of_frame (frame_laneFault _ _) (by simp [laneFaultParts, bayParts]) (by decide)).raiseAlert _ _

/-- The lane and its group after the jam, in a lane that was NORMAL (R86). -/
theorem trackJammed_normal (hsource : x.1.source = .bay n) (hnormal : (s.lane (laneOf n)).state = .normal) :
    ((s.trackJammed n x).lane (laneOf n)).bare = { s.lane (laneOf n) with
      state := .fault
      permit := false
      headInFlight := false
      track := x.2.map (Position.mapTransit (Transit.disownFor (laneOf n))) }.bare ∧
    (s.trackJammed n x).claims = s.claims.filter (fun c => decide (c ≠ .lane (laneOf n))) ∧
    (s.trackJammed n x).outfeedQueue = s.outfeedQueue.map (Position.mapTransit (Transit.disownFor (laneOf n))) ∧
    ∀ m, m ≠ n → (s.trackJammed n x).bay m =
      { s.bay m with loading := (s.bay m).loading.map (Transit.disownFor (laneOf n)) } := by
  have htold := frame_trackTold (s := s) hsource
  have hlane := trackTold_lane (s := s) hsource
  obtain ⟨hfault, hclaims, hqueue, hbay⟩ := laneFault_gives (s := s.trackTold n x) (l := laneOf n)
    (congr(Lane.state $hlane).trans hnormal)
  obtain ⟨-, hqueueT, -⟩ := htold.outfeed_eq (by simp)
  refine ⟨?_, ?_, ?_, fun m hm => ?_⟩
  · rw [trackJammed_lane, hfault]
    exact congr({ $hlane with
      state := .fault
      permit := false
      headInFlight := false
      track := (Lane.track $hlane).map (Position.mapTransit (Transit.disownFor (laneOf n))) })
  · rw [htold.claims_eq (by simp)] at hclaims
    exact hclaims
  · rw [hqueueT] at hqueue
    exact hqueue
  · have hkept := hbay m
    rw [htold.bay_eq (by simpa using hm)] at hkept
    exact hkept

theorem laneFault_outfeed (s : State) (l : LaneId) : (s.laneFault l).outfeedState = s.outfeedState ∧
    (s.laneFault l).outfeedHeadInFlight = s.outfeedHeadInFlight := by
  cases h : (s.lane l).state with
  | fault => rw [laneFault_faulted h]; exact ⟨rfl, rfl⟩
  | normal => rw [laneFault_normal h]; cases l <;> exact ⟨rfl, rfl⟩

theorem trackJammed_outfeed (hsource : x.1.source = .bay n) : (s.trackJammed n x).outfeedState = s.outfeedState ∧
    (s.trackJammed n x).outfeedHeadInFlight = s.outfeedHeadInFlight := by
  obtain ⟨hstate, -, hflight⟩ := (frame_trackTold (s := s) hsource).outfeed_eq (by simp)
  obtain ⟨hstateF, hflightF⟩ := laneFault_outfeed (s.trackTold n x) (laneOf n)
  exact ⟨hstateF.trans hstate, hflightF.trans hflight⟩

/-- In a lane that is in FAULT already, the alert alone follows. -/
theorem trackJammed_faulted (hsource : x.1.source = .bay n) (hfault : (s.lane (laneOf n)).state = .fault) :
    ((s.trackJammed n x).lane (laneOf n)).bare = { s.lane (laneOf n) with track := x.2 }.bare ∧
      Frame ([.lane (laneOf n), .bay n, .requests, .notices, .alertSeen] ++ itemParts x.1.item) s
        (s.trackJammed n x) := by
  have hlane := trackTold_lane (s := s) hsource
  have hkept := laneFault_faulted (s := s.trackTold n x) (l := laneOf n) (congr(Lane.state $hlane).trans hfault)
  refine ⟨?_, ?_⟩
  · rw [trackJammed_lane, hkept, hlane]
  · rw [State.trackJammed, hkept]
    exact (frame_trackTold hsource).trans ((frame_raiseAlert _ _ _).mono (by simp))

/-- What every jam onto a track leaves of the lane, NORMAL or in FAULT before. -/
theorem trackJammed_lane_shape (hsource : x.1.source = .bay n) :
    ((s.trackJammed n x).lane (laneOf n)).state = .fault ∧
      ((s.trackJammed n x).lane (laneOf n)).queue = (s.lane (laneOf n)).queue ∧
      ((s.trackJammed n x).lane (laneOf n)).track.length = x.2.length ∧
      ((s.trackJammed n x).lane (laneOf n)).noteWait = (s.lane (laneOf n)).noteWait ∧
      ((s.trackJammed n x).lane (laneOf n)).trackOut = (s.lane (laneOf n)).trackOut := by
  cases hstate : (s.lane (laneOf n)).state with
  | normal =>
    obtain ⟨hlane, -⟩ := trackJammed_normal (x := x) hsource hstate
    exact ⟨congr(Lane.state $hlane), congr(Lane.queue $hlane),
      congr((Lane.track $hlane).length).trans (List.length_map _), congr(Lane.noteWait $hlane), congr(Lane.trackOut $hlane)⟩
  | fault =>
    obtain ⟨hlane, -⟩ := trackJammed_faulted (x := x) hsource hstate
    exact ⟨congr(Lane.state $hlane).trans hstate, congr(Lane.queue $hlane), congr((Lane.track $hlane).length),
      congr(Lane.noteWait $hlane), congr(Lane.trackOut $hlane)⟩

theorem track_jams (h : releaseReservation (s.dueFrom (.bay n)) (s.lane (laneOf n)).track = some x)
    (hload : (s.bay n).loading = none) : Gives (.transferJam (.ontoTrack n)) s fun t =>
      (t.lane (laneOf n)).state = .fault ∧ (t.lane (laneOf n)).queue = (s.lane (laneOf n)).queue ∧
        (t.lane (laneOf n)).track.length = x.2.length ∧ (t.lane (laneOf n)).noteWait = (s.lane (laneOf n)).noteWait ∧
        (t.lane (laneOf n)).trackOut = (s.lane (laneOf n)).trackOut ∧
        ((s.lane (laneOf n)).state = .normal → (t.lane (laneOf n)).permit = false ∧
          (t.lane (laneOf n)).headInFlight = false ∧
          (t.lane (laneOf n)).track = x.2.map (Position.mapTransit (Transit.disownFor (laneOf n))) ∧
          t.claims = s.claims.filter (fun c => decide (c ≠ .lane (laneOf n))) ∧
          t.outfeedState = s.outfeedState ∧ t.outfeedHeadInFlight = s.outfeedHeadInFlight ∧
          t.outfeedQueue = s.outfeedQueue.map (Position.mapTransit (Transit.disownFor (laneOf n))) ∧
          ∀ m, m ≠ n → (t.bay m).bare =
            { s.bay m with loading := (s.bay m).loading.map (Transit.disownFor (laneOf n)) }.bare) ∧
        ((s.lane (laneOf n)).state = .fault → (t.lane (laneOf n)).bare = { s.lane (laneOf n) with track := x.2 }.bare ∧
          Frame ([.lane (laneOf n), .bay n, .requests, .notices, .alertSeen, .runState] ++ itemParts x.1.item) s t) ∧
        JamClosed x.1.item s t ∧ Alerted (laneSource (laneOf n)) .transferJam t ∧ BayEmptied n s t ∧ DrainTested s t ∧
        Frame (trackJamParts x.1.item) s t := by
  have hsource := dueFrom_source (releaseReservation_some h).1
  have hjam := frame_trackJammed (s := s) hsource
  obtain ⟨t, hx, hends, hdrain, hframe⟩ := jam_ends (r := .ontoTrack n) (jamTrack_due h) hjam
    (by simp [laneFaultParts, bayParts])
  have hlane : (t.lane (laneOf n)).bare = ((s.trackJammed n x).lane (laneOf n)).bare := by
    rw [hends.lane, drainTest_lane]
    rfl
  obtain ⟨hstate, hqueue, htrack, hwait, hout⟩ := trackJammed_lane_shape (s := s) hsource
  have hfaulted : Frame (trackJamParts x.1.item) s t := hframe.mono (by
    intro p hp
    simp only [trackJamParts, laneFaultParts, List.mem_append, List.mem_cons] at hp ⊢
    tauto)
  refine ⟨t, hx, congr(Lane.state $hlane).trans hstate, congr(Lane.queue $hlane).trans hqueue,
    congr((Lane.track $hlane).length).trans htrack, congr(Lane.noteWait $hlane).trans hwait,
    congr(Lane.trackOut $hlane).trans hout, fun hnormal => ?_, fun hfault => ?_, hends.jamClosed trackJammed_jamClosed,
    hends.alerted (alerted_raiseAlert _ _ _).drainTest, hends.bayEmptied (trackJammed_bayEmptied hsource hload), hdrain,
    hfaulted⟩
  · obtain ⟨hbare, hclaims, hreserved, hbay⟩ := trackJammed_normal (x := x) hsource hnormal
    have hshown := hlane.trans hbare
    obtain ⟨hstateO, hflightO⟩ := trackJammed_outfeed (s := s) hsource
    obtain ⟨hstateD, hqueueD, hflightD⟩ := (frame_drainTest (s.trackJammed n x)).outfeed_eq (by simp)
    obtain ⟨hstateE, hqueueE, hflightE⟩ := hends.outfeed
    refine ⟨congr(Lane.permit $hshown), congr(Lane.headInFlight $hshown), congr(Lane.track $hshown), ?_,
      hstateE.trans (hstateD.trans hstateO), hflightE.trans (hflightD.trans hflightO),
      hqueueE.trans (hqueueD.trans hreserved), fun m hm => ?_⟩
    · rw [hends.claims, (frame_drainTest _).claims_eq (by simp)]
      exact hclaims
    · rw [hends.drained_bay]
      exact congrArg Bay.bare (hbay m hm)
  · obtain ⟨hbare, hsmall⟩ := trackJammed_faulted (x := x) hsource hfault
    obtain ⟨t', hx', -, -, hframe'⟩ := jam_ends (r := .ontoTrack n) (jamTrack_due h) hsmall (by simp)
    have ht : t' = t := by
      rw [hx] at hx'
      cases hx'
      rfl
    subst ht
    exact ⟨hlane.trans hbare, hframe'.mono (by intro p; simp; tauto)⟩

end

/-- Settles O51. -/
theorem transferJam : Obligations.TransferJam := by
  refine ⟨fun p pre post tr hpre htr => ⟨?_, ?_⟩,
    fun n s => ⟨fun tr hload hdue l hsource => loading_jams hload hdue hsource, fun h => jam_ignored (jamLoading_kept h)⟩,
    fun n s => ⟨fun x h hload => track_jams h hload, fun h => jam_ignored (jamTrack_kept h)⟩,
    fun n s => ⟨fun x h => bayToOutfeed_jams h, fun h => jam_ignored (jamOutfeed_kept h)⟩,
    fun l s => ⟨fun x h => laneToOutfeed_jams h, fun h => jam_ignored (jamOutfeed_kept h)⟩,
    fun st s => ⟨fun tr hload hdue hsource => nest_jams hload hdue hsource, fun h => jam_ignored (jamNest_kept h)⟩,
    fun s => ⟨fun x h => headToExit_jams h, fun h => jam_ignored (jamExit_kept h)⟩,
    fun st s => ⟨fun x h => eject_jams h, fun h => jam_ignored (jamExit_kept h)⟩⟩
  · rw [releaseReservation_passed hpre, releaseReservation, if_pos htr]
    rfl
  · rw [← List.append_nil pre, releaseReservation_passed hpre]
    rfl

end Sys2Proof.Machine
end

