-- ==== Sys2Proof/Proofs/Filling.lean ====
section
/-! The fill step and the end of filling (R96, R97): the shared steps of a bay that holds a cylinder. -/

-- Proofs are checked one after another: the whole text, compiled as one, would otherwise start more threads than fit into the
-- check's memory.
set_option Elab.async false

namespace Sys2Proof.Machine

section

variable {s t : State} {n : BayId}

/-- The comparison of R98 reads the bay's parameters, its validity and the settings. -/
theorem short_of_params (hparams : t.bayParams n = s.bayParams n) (hvalidity : (t.bay n).validity = (s.bay n).validity)
    (hwork : t.work = s.work) : t.short n = s.short n := by
  cases hp : s.bayParams n with
  | none =>
    have hp' : t.bayParams n = none := hparams.trans hp
    simp [State.short, hp, hp']
  | some p =>
    have hp' : t.bayParams n = some p := hparams.trans hp
    unfold State.short
    rw [hp, hp', hvalidity]
    exact decide_eq_decide.mpr (by rw [State.allowance, State.allowance, hwork])

/-- An edit of the entries that keeps their parameters keeps the bay's. -/
theorem bayParams_of_entries (hindex : (t.bay n).index = (s.bay n).index)
    (hentry : ∀ i, (t.entry i).params = (s.entry i).params) : t.bayParams n = s.bayParams n := by
  unfold State.bayParams
  rw [hindex]
  split
  · exact hentry _
  · rfl

/-! ## The end of filling (R97, R98) -/

theorem testFilled_waits (h : (s.bay n).state ≠ .filling ∨ (s.bay n).kept.isSome = true ∨ (s.bay n).full = false ∨
    (s.bay n).doorClosed = false) : s.testFilled n = s := by
  refine if_neg fun ⟨hstate, hkept, hfull, hdoor⟩ => ?_
  rcases h with h | h | h | h
  · exact h hstate
  · simp [hkept] at h
  · simp [hfull] at h
  · simp [hdoor] at h

theorem testFilled_complete (hstate : (s.bay n).state = .filling) (hkept : (s.bay n).kept = none)
    (hfull : (s.bay n).full = true) (hdoor : (s.bay n).doorClosed = true) : s.testFilled n = s.fillComplete n :=
  if_pos ⟨hstate, hkept, hfull, hdoor⟩

/-- The baseline has been taken. -/
def State.baselined (s : State) (n : BayId) : State := s.setBay n { s.bay n with baseline := some (s.bay n).latestGauge }

theorem baselined_bay (s : State) (n : BayId) :
    (s.baselined n).bay n = { s.bay n with baseline := some (s.bay n).latestGauge } := bay_setBay_self _ _ _

theorem frame_baselined (s : State) (n : BayId) : Frame [.bay n] s (s.baselined n) := frame_setBay s n _

theorem baselined_short (s : State) (n : BayId) : (s.baselined n).short n = s.short n :=
  short_congr (by rw [baselined_bay]) (by rw [baselined_bay]) (fun _ => (frame_baselined s n).entry_eq (by simp))
    ((frame_baselined s n).work_eq (by simp))

theorem fillComplete_enough (h : s.short n = false) : s.fillComplete n = (s.baselined n).awaited n :=
  enterAwait_enough ((baselined_short s n).trans h)

theorem fillComplete_bay (h : s.short n = false) :
    (s.fillComplete n).bay n = { (s.bay n).waiting with baseline := some (s.bay n).latestGauge } := by
  rw [fillComplete_enough h, awaited_bay, baselined_bay]
  rfl

theorem mem_fillComplete (h : s.short n = false) : ∃ r ∈ (s.fillComplete n).requests, r.bay = n := by
  rw [fillComplete_enough h]
  exact mem_awaited _ n

theorem fillComplete_unqueued (h : s.short n = false) (hun : Unqueued n s) :
    (s.fillComplete n).requests = s.requests ++ [⟨n, s.testPressure n⟩] := by
  have hpressure : (s.baselined n).testPressure n = s.testPressure n :=
    testPressure_congr (by rw [baselined_bay]) (fun _ => (frame_baselined s n).entry_eq (by simp))
  rw [fillComplete_enough h, (awaited_unqueued (s := s.baselined n) hun).1, hpressure]
  rfl

/-! ## FILLING entry and the fill step (R96, R97) -/

/-- The bay has entered FILLING, its attempt reported. -/
def State.filling (s : State) (n : BayId) : State :=
  (s.reportBayAttempt n).setBay n ((s.bay n).fillingFrom (s.after 60))

theorem reportBayAttempt_bay (s : State) (n : BayId) : (s.reportBayAttempt n).bay n = s.bay n :=
  (frame_reportBayAttempt s n).bay_eq (by simp [heldParts])

theorem enterFilling_eq (s : State) (n : BayId) : s.enterFilling n = (s.filling n).testFilled n := by
  have hafter : (s.reportBayAttempt n).after 60 = s.after 60 :=
    (frame_reportBayAttempt s n).after_eq (by simp [heldParts]) 60
  rw [State.enterFilling, updBay_eq, reportBayAttempt_bay]
  rfl

theorem filling_bay (s : State) (n : BayId) : (s.filling n).bay n = (s.bay n).fillingFrom (s.after 60) :=
  bay_setBay_self _ _ _

theorem reportAttempt_params (s : State) (i j : RosterIndex) :
    ((s.reportAttempt i).entry j).params = (s.entry j).params := by
  unfold State.reportAttempt
  split
  · rw [editEntry_eq, entry_setEntry]
    split
    · subst j
      rfl
    · rfl
  · rfl

theorem filling_entry (s : State) (n : BayId) (j : RosterIndex) :
    (s.filling n).entry j = (s.reportBayAttempt n).entry j := setBay_entry _ n _ j

theorem filling_params (s : State) (n : BayId) (j : RosterIndex) :
    ((s.filling n).entry j).params = (s.entry j).params := by
  rw [filling_entry]
  unfold State.reportBayAttempt
  split
  · exact reportAttempt_params s _ j
  · rfl

theorem frame_filling (s : State) (n : BayId) : Frame (.bay n :: heldParts s n) s (s.filling n) :=
  ((frame_reportBayAttempt s n).mono (by simp)).trans ((frame_setBay _ n _).mono (by simp))

theorem filling_short (s : State) (n : BayId) : (s.filling n).short n = s.short n :=
  short_of_params (bayParams_of_entries (by rw [filling_bay]; rfl) (filling_params s n)) (by rw [filling_bay]; rfl)
    ((frame_filling s n).work_eq (by simp [heldParts]))

theorem enterFilling_waits (h : (s.bay n).full = false ∨ (s.bay n).doorClosed = false) :
    (s.enterFilling n).bay n = (s.bay n).fillingFrom (s.after 60) := by
  rw [enterFilling_eq, testFilled_waits, filling_bay]
  rw [filling_bay]
  exact .inr (.inr h)

theorem enterFilling_complete (hfull : (s.bay n).full = true) (hdoor : (s.bay n).doorClosed = true) :
    s.enterFilling n = (s.filling n).fillComplete n := by
  rw [enterFilling_eq]
  refine testFilled_complete ?_ ?_ ?_ ?_
  · rw [filling_bay]
    rfl
  · rw [filling_bay]
    rfl
  · rw [filling_bay]
    exact hfull
  · rw [filling_bay]
    exact hdoor

theorem enterFilling_filled (hfull : (s.bay n).full = true) (hdoor : (s.bay n).doorClosed = true)
    (hshort : s.short n = false) : (s.enterFilling n).bay n =
      { ((s.bay n).fillingFrom (s.after 60)).waiting with baseline := some (s.bay n).latestGauge } ∧
      ∃ r ∈ (s.enterFilling n).requests, r.bay = n := by
  have henough := (filling_short s n).trans hshort
  rw [enterFilling_complete hfull hdoor]
  refine ⟨?_, mem_fillComplete henough⟩
  rw [fillComplete_bay henough, filling_bay]
  rfl

theorem fillStep_checks (hrun : s.runState ≠ .eStopped) (h : 0 < (s.bay n).checksOwed ∨ s.short n = true) :
    s.fillStep n = s.enterZeroing n (some .fill) := by
  rw [State.fillStep, if_neg (not_stopped hrun), if_pos h]

theorem fillStep_fills (hrun : s.runState ≠ .eStopped) (howed : (s.bay n).checksOwed = 0) (hshort : s.short n = false) :
    s.fillStep n = s.enterFilling n := by
  rw [State.fillStep, if_neg (not_stopped hrun), if_neg (by simp [howed, hshort])]

end

end Sys2Proof.Machine
end

