-- ==== Sys2Proof/Proofs/LoadingEnd.lean ====
section
/-! LOADING_END and BAY_INPUT_CHANGE (R94, R95, R96, R97). -/

-- Proofs are checked one after another: the whole text, compiled as one, would otherwise start more threads than fit into the
-- check's memory.
set_option Elab.async false

namespace Sys2Proof.Machine

section

variable {s : State} {n : BayId} {l : LaneId} {tr : Transit}

/-! ## The end of a loading transfer (R75, R96) -/

/-- The cylinder has arrived in the bay, and the source of its transfer is not yet told. -/
def State.cylinderIn (s : State) (n : BayId) (item : Item) : State :=
  (s.setBay n { s.bay n with present := true, loading := none }).reportEnd item (.bay n)

/-- The PRESENT eye has ended the loading transfer, and its source is told. -/
def State.loaded (s : State) (n : BayId) (tr : Transit) : State := (s.cylinderIn n tr.item).tellSource tr

/-- The door is closing. -/
def State.doored (s : State) (n : BayId) (tr : Transit) : State :=
  (s.loaded n tr).setBay n
    { (s.loaded n tr).bay n with outputs := { ((s.loaded n tr).bay n).outputs with door := true } }

theorem effect_loadingEnd_none (hload : (s.bay n).loading = none) :
    effect (.loadingEnd n) s = some (s.setBay n { s.bay n with present := true }).drainTest := by
  have hkept : (s.setBay n { s.bay n with present := true }).endLoading n = s.setBay n { s.bay n with present := true } := by
    unfold State.endLoading
    rw [bay_setBay_self, hload]
  exact congrArg (fun u : State => some u.drainTest) hkept

/-- The event's effect up to the drain test. -/
def State.loadingEnded (s : State) (n : BayId) (tr : Transit) : State :=
  if s.stopped then s.loaded n tr else (s.doored n tr).fillStep n

theorem effect_loadingEnd (hload : (s.bay n).loading = some tr) :
    effect (.loadingEnd n) s = some (s.loadingEnded n tr).drainTest := by
  have hended : (s.setBay n { s.bay n with present := true }).endLoading n = s.loadingEnded n tr := by
    unfold State.endLoading
    rw [bay_setBay_self, hload]
    dsimp only
    rw [updBay_eq, bay_setBay_self, setBay_setBay]
    rfl
  exact congrArg (fun u : State => some u.drainTest) hended

theorem frame_cylinderIn (s : State) (n : BayId) (item : Item) :
    Frame (.bay n :: itemParts item) s (s.cylinderIn n item) :=
  ((frame_setBay s n _).mono (by simp)).trans ((frame_reportEnd _ _ _).mono (by simp))

theorem cylinderIn_bay (s : State) (n : BayId) (item : Item) :
    (s.cylinderIn n item).bay n = { s.bay n with present := true, loading := none } := by
  rw [State.cylinderIn, (frame_reportEnd _ _ _).bay_eq (by simp), bay_setBay_self]

/-- The source that is told is the lane. -/
theorem frame_told (hsource : tr.source = .laneHead l ∨ tr.source = .trackHead l) :
    Frame [.lane l] (s.cylinderIn n tr.item) (s.loaded n tr) := by
  have htold := frame_tellSource (s.cylinderIn n tr.item) tr
  have hlane : sourceParts tr.source = [.lane l] := by rcases hsource with h | h <;> rw [h] <;> rfl
  rwa [hlane] at htold

theorem frame_loaded (hsource : tr.source = .laneHead l ∨ tr.source = .trackHead l) :
    Frame ([.bay n, .lane l] ++ itemParts tr.item) s (s.loaded n tr) :=
  ((frame_cylinderIn s n tr.item).mono (by intro p; simp; tauto)).trans ((frame_told hsource).mono (by simp))

theorem loaded_bay (hsource : tr.source = .laneHead l ∨ tr.source = .trackHead l) :
    (s.loaded n tr).bay n = { s.bay n with present := true, loading := none } := by
  rw [(frame_told hsource).bay_eq (by simp), cylinderIn_bay]

theorem loaded_arrived (hsource : tr.source = .laneHead l ∨ tr.source = .trackHead l) :
    ArrivedAt tr.item (.bay n) s (s.loaded n tr) :=
  (arrivedAt_reportEnd (s.setBay n { s.bay n with present := true, loading := none }) tr.item (.bay n)).congr
    (fun i => (frame_setBay s n _).entry_eq (by simp)) fun i => (frame_told hsource).entry_eq (by simp)

theorem reportEnd_params (s : State) (item : Item) (place : Place) (i : RosterIndex) :
    ((s.reportEnd item place).entry i).params = (s.entry i).params := by
  cases item with
  | marker => rfl
  | entry j =>
    unfold State.reportEnd
    dsimp only
    split
    · rw [editEntry_eq, entry_setEntry]
      split
      · subst i
        rfl
      · rfl
    · rfl

theorem loaded_params (hsource : tr.source = .laneHead l ∨ tr.source = .trackHead l) (i : RosterIndex) :
    ((s.loaded n tr).entry i).params = (s.entry i).params := by
  rw [(frame_told hsource).entry_eq (by simp), State.cylinderIn, reportEnd_params, setBay_entry]

theorem loaded_lane (hsource : tr.source = .laneHead l) : ((s.loaded n tr).lane l).bare =
    { s.lane l with headInFlight := if tr.disowned then (s.lane l).headInFlight else false }.bare := by
  have hbare := (frame_cylinderIn s n tr.item).lane_bare_eq (l := l) (by simp)
  rw [State.loaded, tellSource_lane hsource]
  exact congr({ $hbare with headInFlight := if tr.disowned then (Lane.headInFlight $hbare) else false })

theorem loaded_track (hsource : tr.source = .trackHead l) : ((s.loaded n tr).lane l).bare =
    { s.lane l with trackOut := false }.bare := by
  have hbare := (frame_cylinderIn s n tr.item).lane_bare_eq (l := l) (by simp)
  rw [State.loaded, tellSource_track hsource, lane_setLane, if_pos rfl]
  exact congr({ $hbare with trackOut := false })

/-! ## The fill step that follows (R96) -/

/-- The bay with its door closing. -/
def Bay.doorClosing (b : Bay) : Bay := { b with outputs := { b.outputs with door := true } }

/-- The bay once the cylinder is in it. -/
def Bay.loadedIn (b : Bay) : Bay := { b with present := true, loading := none }

theorem doored_bay (hsource : tr.source = .laneHead l ∨ tr.source = .trackHead l) :
    (s.doored n tr).bay n = (s.bay n).loadedIn.doorClosing := by
  rw [State.doored, bay_setBay_self, loaded_bay hsource]
  rfl

theorem frame_doored (hsource : tr.source = .laneHead l ∨ tr.source = .trackHead l) :
    Frame ([.bay n, .lane l] ++ itemParts tr.item) s (s.doored n tr) :=
  (frame_loaded hsource).trans ((frame_setBay _ n _).mono (by simp))

theorem doored_entry (s : State) (n : BayId) (tr : Transit) (i : RosterIndex) :
    (s.doored n tr).entry i = (s.loaded n tr).entry i := setBay_entry _ n _ i

theorem doored_short (hsource : tr.source = .laneHead l ∨ tr.source = .trackHead l) :
    (s.doored n tr).short n = s.short n := by
  refine short_of_params (bayParams_of_entries ?_ fun i => ?_) ?_ ((frame_doored hsource).work_eq (by simp))
  · rw [doored_bay hsource]
    rfl
  · rw [doored_entry, loaded_params hsource]
  · rw [doored_bay hsource]
    rfl

theorem loadingEnded_stopped (hrun : s.runState = .eStopped) : s.loadingEnded n tr = s.loaded n tr :=
  if_pos (stopped_eq_true hrun)

theorem loadingEnded_running (hrun : s.runState ≠ .eStopped) : s.loadingEnded n tr = (s.doored n tr).fillStep n :=
  if_neg (not_stopped hrun)

/-- The parts of the event. -/
def loadingParts (s : State) (n : BayId) (l : LaneId) (item : Item) : List Part :=
  .lane l :: requestParts n ++ itemParts item ++ heldParts s n

theorem frame_loadingEnded (hsource : tr.source = .laneHead l ∨ tr.source = .trackHead l) :
    Frame (loadingParts s n l tr.item) s (s.loadingEnded n tr) := by
  have hin : [.bay n, .lane l] ++ itemParts tr.item ⊆ loadingParts s n l tr.item := by
    intro p
    simp only [loadingParts, requestParts, List.mem_append, List.mem_cons]
    tauto
  have hheld : heldParts (s.doored n tr) n = heldParts s n := heldParts_of_index (by rw [doored_bay hsource]; rfl)
  refine .ite (fun _ => (frame_loaded hsource).mono hin) fun _ => ((frame_doored hsource).mono hin).trans ?_
  have hfill := frame_fillStep (s.doored n tr) n
  rw [hheld] at hfill
  exact hfill.mono (by intro p; simp only [loadingParts, List.mem_append, List.mem_cons]; tauto)

theorem loadingParts_run (s : State) (n : BayId) (l : LaneId) (item : Item) : loadingParts s n l item ++ [Part.runState] ⊆
    [Part.lane l, .bay n, .requests, .releases, .intensifier .one, .intensifier .two, .runState] ++ itemParts item ++
      heldParts s n := by
  intro p
  simp only [loadingParts, requestParts, List.mem_append, List.mem_cons]
  tauto

/-- A bay that owes a check, or whose validity is short, checks its zero first. -/
theorem loadingEnded_checks (hsource : tr.source = .laneHead l ∨ tr.source = .trackHead l) (hrun : s.runState ≠ .eStopped)
    (h : 0 < (s.bay n).checksOwed ∨ s.short n = true) :
    (s.loadingEnded n tr).bay n = (s.bay n).loadedIn.checking (some .fill) (s.after 40) ∧
      ∀ i, (s.loadingEnded n tr).entry i = (s.loaded n tr).entry i := by
  have hframe := frame_doored (s := s) (n := n) hsource
  have hr : (s.doored n tr).runState ≠ .eStopped := by rwa [hframe.runState_eq (by simp)]
  rw [loadingEnded_running hrun, fillStep_checks hr (by rw [doored_bay hsource, doored_short hsource]; exact h)]
  refine ⟨?_, fun i => ?_⟩
  · rw [enterZeroing_bay n _ (stopped_eq_false hr), doored_bay hsource, hframe.after_eq (by simp)]
    rfl
  · rw [(frame_enterZeroing _ n _).entry_eq (by simp), doored_entry]

/-- A bay with nothing owed and enough validity fills. -/
theorem loadingEnded_fills (hsource : tr.source = .laneHead l ∨ tr.source = .trackHead l) (hrun : s.runState ≠ .eStopped)
    (howed : (s.bay n).checksOwed = 0) (hshort : s.short n = false) :
    s.loadingEnded n tr = (s.doored n tr).enterFilling n := by
  have hr : (s.doored n tr).runState ≠ .eStopped := by rwa [(frame_doored hsource).runState_eq (by simp)]
  rw [loadingEnded_running hrun, fillStep_fills hr (by rw [doored_bay hsource]; exact howed) (by rw [doored_short hsource, hshort])]

/-- The entry of the cylinder: its arrival, and the start of its attempt (R16, R17). -/
theorem filled_entry (hsource : tr.source = .laneHead l ∨ tr.source = .trackHead l) {i : RosterIndex}
    (hi : (s.bay n).index = some i) (hitem : tr.item = .entry i) (htesting : (s.entry i).state = .testing) :
    ((s.doored n tr).enterFilling n).entry i = { s.entry i with
      place := .bay n
      testsStarted := min 15 ((s.entry i).testsStarted + 1)
      meas := Measurements.absent
      editCount := (s.entry i).editCount + 4#8 } := by
  have harrived : (s.doored n tr).entry i = { s.entry i with place := .bay n }.edited := by
    rw [doored_entry]
    exact loaded_arrived hsource i hitem (by rw [htesting]; rfl)
  have hindex : ((s.doored n tr).bay n).index = some i := by
    rw [doored_bay hsource]
    exact hi
  have htest : ((s.doored n tr).entry i).state = .testing := by
    rw [harrived]
    exact htesting
  have hcount : (s.entry i).editCount + 2#8 + 2#8 = (s.entry i).editCount + 4#8 := by rw [BitVec.add_assoc]; rfl
  rw [enterFilling_entry, reportBayAttempt_of_index hindex, reportAttempt_entry htest, if_pos rfl, harrived, ← hcount]
  rfl

theorem loadingEnd_gives (hload : (s.bay n).loading = some tr)
    (hsource : tr.source = .laneHead l ∨ tr.source = .trackHead l) : Gives (.loadingEnd n) s fun t =>
      (s.runState = .eStopped → (t.bay n).bare = (s.bay n).loadedIn.bare ∧ ArrivedAt tr.item (.bay n) s t) ∧
        (s.runState ≠ .eStopped → 0 < (s.bay n).loadedIn.checksOwed ∨ s.short n = true →
          (t.bay n).bare = ((s.bay n).loadedIn.checking (some .fill) (s.after 40)).bare ∧
            ArrivedAt tr.item (.bay n) s t) ∧
        (s.runState ≠ .eStopped → (s.bay n).loadedIn.checksOwed = 0 → s.short n = false →
          (((s.bay n).loadedIn.full = false ∨ (s.bay n).loadedIn.doorClosed = false) →
            (t.bay n).bare = ((s.bay n).loadedIn.fillingFrom (s.after 60)).bare) ∧
          ((s.bay n).loadedIn.full = true → (s.bay n).loadedIn.doorClosed = true → (t.bay n).state = .awaitIntensifier ∧
            (t.bay n).baseline = some (s.bay n).loadedIn.latestGauge ∧ ∃ r ∈ t.requests, r.bay = n) ∧
          ∀ i, (s.bay n).loadedIn.index = some i → tr.item = .entry i → (s.entry i).state = .testing →
            t.entry i = { s.entry i with
              place := .bay n
              testsStarted := min 15 ((s.entry i).testsStarted + 1)
              meas := Measurements.absent
              editCount := (s.entry i).editCount + 4#8 }) ∧
        (tr.source = .laneHead l → (t.lane l).bare = { s.lane l with
          headInFlight := if tr.disowned then (s.lane l).headInFlight else false }.bare) ∧
        (tr.source = .trackHead l → (t.lane l).bare = { s.lane l with trackOut := false }.bare) ∧
        DrainTested s t ∧ Frame (loadingParts s n l tr.item ++ [.runState]) s t := by
  have hended := frame_loadingEnded (s := s) (n := n) hsource
  obtain ⟨t, hx, hframe, hends⟩ := event_ends (exec_effect (effect_loadingEnd hload))
    ((hended.mono (List.subset_append_left _ [.runState])).trans ((frame_drainTest _).mono (by simp)))
  have hlane : (t.lane l).bare = ((s.loaded n tr).lane l).bare := by
    rw [hends.lane, drainTest_lane, State.loadingEnded]
    split
    · rfl
    · rw [(frame_fillStep _ n).lane_bare_eq (by simp [requestParts, heldParts]), State.doored,
        (frame_setBay _ n _).lane_bare_eq (by simp)]
  have harrived (h : ∀ i, (s.loadingEnded n tr).entry i = (s.loaded n tr).entry i) : ArrivedAt tr.item (.bay n) s t :=
    hends.arrivedAt ((loaded_arrived hsource).congr (fun _ => rfl) h)
  refine ⟨t, hx, fun hrun => ⟨?_, harrived fun i => by rw [loadingEnded_stopped hrun]⟩, fun hrun h => ?_,
    fun hrun howed hshort => ⟨fun hwaits => ?_, fun hfull hdoor => ?_, fun i hi hitem htesting => ?_⟩, fun hl => ?_,
    fun hl => ?_, hends.drainTested (hended.runState_eq (by simp [loadingParts, requestParts, heldParts])), hframe⟩
  · rw [hends.drained_bay, loadingEnded_stopped hrun, loaded_bay hsource]
    rfl
  · obtain ⟨hbay, hentry⟩ := loadingEnded_checks hsource hrun h
    exact ⟨by rw [hends.drained_bay, hbay], harrived hentry⟩
  · rw [hends.drained_bay, loadingEnded_fills hsource hrun howed hshort,
      enterFilling_waits (by rw [doored_bay hsource]; exact hwaits), doored_bay hsource,
      (frame_doored hsource).after_eq (by simp)]
    rfl
  · obtain ⟨hbay, hrequest⟩ := enterFilling_filled (s := s.doored n tr) (n := n) (by rw [doored_bay hsource]; exact hfull)
      (by rw [doored_bay hsource]; exact hdoor) (by rw [doored_short hsource, hshort])
    have hshown := hends.drained_bay n
    rw [loadingEnded_fills hsource hrun howed hshort, hbay, doored_bay hsource] at hshown
    refine ⟨congr(Bay.state $hshown), congr(Bay.baseline $hshown), ?_⟩
    rwa [hends.requests, (frame_drainTest _).requests_eq (by simp), loadingEnded_fills hsource hrun howed hshort]
  · rw [hends.entry, drainTest_entry, loadingEnded_fills hsource hrun howed hshort, filled_entry hsource hi hitem htesting]
  · rw [hlane, loaded_lane hl]
  · rw [hlane, loaded_track hl]

/-! ## BAY_INPUT_CHANGE (R94, R95, R97) -/

variable {input : BayInput} {level : Bool}

theorem setInput_input (b : Bay) (input : BayInput) (level : Bool) : (b.setInput input level).input input = level := by
  cases input <;> rfl

theorem changeInput_same (h : (s.bay n).input input = level) : s.changeInput n input level = s := if_pos h

theorem changeInput_present (h : (s.bay n).present = false) : s.changeInput n .present true =
    (s.setBay n { s.bay n with present := true }).endLoading n := by
  have hne : (s.bay n).input .present ≠ true := by simp [Bay.input, h]
  exact if_neg hne

/-- PRESENT turning on is the end of loading. -/
theorem presentOn_eq_loadingEnd (h : (s.bay n).present = false) :
    exec (.bayInputChange n .present true) s = exec (.loadingEnd n) s := by
  have hinput : exec (.bayInputChange n .present true) s = .next (s.publish (s.changeInput n .present true).drainTest) := rfl
  have hend : exec (.loadingEnd n) s =
      .next (s.publish ((s.setBay n { s.bay n with present := true }).endLoading n).drainTest) := rfl
  rw [hinput, hend, changeInput_present h]

theorem changeInput_present_off (h : (s.bay n).input .present ≠ false) : s.changeInput n .present false =
    s.setBay n ((s.bay n).setInput .present false) := if_neg h

theorem changeInput_level (h : (s.bay n).input input ≠ level) (hinput : input ≠ .present) :
    s.changeInput n input level = (s.setBay n ((s.bay n).setInput input level)).testFilled n := by
  cases input with
  | present => exact absurd rfl hinput
  | full => exact if_neg h
  | doorClosed => exact if_neg h

theorem setInput_short (s : State) (n : BayId) (input : BayInput) (level : Bool) :
    (s.setBay n ((s.bay n).setInput input level)).short n = s.short n :=
  short_congr (by rw [bay_setBay_self]; cases input <;> rfl) (by rw [bay_setBay_self]; cases input <;> rfl)
    (fun i => setBay_entry _ n _ i) ((frame_setBay s n _).work_eq (by simp))

/-- The level alone has changed. -/
theorem inputChange_recorded (h : s.changeInput n input level = s.setBay n ((s.bay n).setInput input level)) :
    Gives (.bayInputChange n input level) s fun t =>
      (t.bay n).bare = ((s.bay n).setInput input level).bare ∧ DrainTested s t ∧ Frame [.bay n, .runState] s t := by
  have hset := frame_setBay s n ((s.bay n).setInput input level)
  obtain ⟨t, hx, hframe, hends⟩ := event_ends (c := .bayInputChange n input level) (L := [.bay n, .runState])
    (exec_effect (congrArg (fun u : State => some u.drainTest) h))
    ((hset.mono (by simp)).trans ((frame_drainTest _).mono (by simp)))
  refine ⟨t, hx, ?_, hends.drainTested (hset.runState_eq (by simp)), hframe⟩
  rw [hends.drained_bay, bay_setBay_self]

/-- The end of filling: the baseline is taken and an intensifier asked for. -/
theorem inputChange_filled (h : (s.bay n).input input ≠ level) (hinput : input ≠ .present)
    (hstate : ((s.bay n).setInput input level).state = .filling) (hkept : ((s.bay n).setInput input level).kept = none)
    (hfull : ((s.bay n).setInput input level).full = true) (hdoor : ((s.bay n).setInput input level).doorClosed = true)
    (hshort : s.short n = false) : Gives (.bayInputChange n input level) s fun t =>
      (t.bay n).bare = { ((s.bay n).setInput input level).waiting with
        baseline := some ((s.bay n).setInput input level).latestGauge }.bare ∧ (∃ r ∈ t.requests, r.bay = n) ∧
        (Unqueued n s → t.requests = s.requests ++ [⟨n, s.testPressure n⟩]) ∧ DrainTested s t ∧
        Frame [.bay n, .requests, .releases, .intensifier .one, .intensifier .two, .runState] s t := by
  have hset := frame_setBay s n ((s.bay n).setInput input level)
  have hbay := bay_setBay_self s n ((s.bay n).setInput input level)
  have hsame : (s.setBay n ((s.bay n).setInput input level)).testPressure n = s.testPressure n :=
    testPressure_congr (by rw [hbay]; cases input <;> rfl) (fun i => setBay_entry _ n _ i)
  have henough := (setInput_short s n input level).trans hshort
  have hfilled := testFilled_complete (s := s.setBay n ((s.bay n).setInput input level)) (n := n) (by rw [hbay, hstate])
    (by rw [hbay, hkept]) (by rw [hbay, hfull]) (by rw [hbay, hdoor])
  have hcomplete := frame_fillComplete (s.setBay n ((s.bay n).setInput input level)) n
  obtain ⟨t, hx, hframe, hends⟩ := event_ends (c := .bayInputChange n input level) (L := requestParts n ++ [.runState])
    (exec_effect (congrArg (fun u : State => some u.drainTest) ((changeInput_level h hinput).trans hfilled)))
    ((hset.mono (by simp [requestParts])).trans ((hcomplete.mono (by simp)).trans ((frame_drainTest _).mono (by simp))))
  have hrequests := hends.requests.trans ((frame_drainTest _).requests_eq (by simp))
  refine ⟨t, hx, ?_, ?_, fun hun => ?_, hends.drainTested ?_, hframe⟩
  · rw [hends.drained_bay, fillComplete_bay henough, hbay]
  · rw [hrequests]
    exact mem_fillComplete henough
  · rw [hrequests, fillComplete_unqueued henough hun, hsame, hset.requests_eq (by simp)]
  · rw [hcomplete.runState_eq (by simp [requestParts]), hset.runState_eq (by simp)]

end

/-- Settles O52. -/
theorem loadingAndInputs : Obligations.LoadingAndInputs := by
  refine ⟨fun n s => ⟨fun hload => ?_, fun tr hload l hsource => ?_⟩,
    fun n input level s => ⟨setInput_input _ _ _, fun h => ?_, fun h => ?_, fun h hwaits => ?_,
      fun h hinput hstate hkept hfull hdoor hshort => inputChange_filled h hinput hstate hkept hfull hdoor hshort⟩⟩
  · have hset := frame_setBay s n { s.bay n with present := true }
    obtain ⟨t, hx, hframe, hends⟩ := event_ends (L := [.bay n, .runState]) (exec_effect (effect_loadingEnd_none hload))
      ((hset.mono (by simp)).trans ((frame_drainTest _).mono (by simp)))
    refine ⟨t, hx, ?_, hends.drainTested (hset.runState_eq (by simp)), hframe⟩
    rw [hends.drained_bay, bay_setBay_self]
  · obtain ⟨t, hx, hstopped, hchecks, hfills, hlane, htrack, hdrain, hframe⟩ := loadingEnd_gives hload hsource
    exact ⟨t, hx, hstopped, hchecks, hfills, hlane, htrack, hdrain, hframe.mono (loadingParts_run s n l tr.item)⟩
  · exact eye_ignored (exec_effect (congrArg (fun u : State => some u.drainTest) (changeInput_same h)))
  · exact presentOn_eq_loadingEnd h
  · refine inputChange_recorded ?_
    rcases hwaits with ⟨rfl, rfl⟩ | ⟨hinput, hwaits⟩
    · exact changeInput_present_off h
    · rw [changeInput_level h hinput, testFilled_waits]
      rwa [bay_setBay_self]

end Sys2Proof.Machine
end

