-- ==== Sys2Proof/Proofs/Samples.lean ====
section
/-! SAMPLE_PAIR (R94, R97, R100, R101, R102): the latest values and the peak, and what each state makes of the pair. -/

-- Proofs are checked one after another: the whole text, compiled as one, would otherwise start more threads than fit into the
-- check's memory.
set_option Elab.async false

namespace Sys2Proof.Machine

/-! ## The pair as it is taken (R94) -/

theorem sampled_eq_sees (b : Bay) (p g : Nat) : b.sampled p g = b.sees p g := by
  have hkeeps : b.keepsPeak = true ↔ (b.state = .pressurising ∨ b.state = .holding ∨
      (b.state = .suspended ∨ b.state = .awaitIntensifier) ∧ b.pressurised = true) := by
    unfold Bay.keepsPeak
    cases b.state <;> simp
  unfold Bay.sampled Bay.sees
  rw [if_congr hkeeps rfl rfl]

/-- The pair has been taken, and the bay has not yet acted on it. -/
def State.sampled (s : State) (n : BayId) (p g : Nat) : State := s.setBay n ((s.bay n).sees p g)

theorem effect_samplePair (n : BayId) (pressure gauge : BitVec 16) (s : State) : effect (.samplePair n pressure gauge) s =
    some ((s.sampled n pressure.toNat gauge.toNat).actOnSample n pressure.toNat gauge.toNat).drainTest := by
  rw [State.sampled, ← sampled_eq_sees]
  rfl

section

variable {s : State} {n : BayId} {p g : Nat}

theorem sampled_bay (s : State) (n : BayId) (p g : Nat) : (s.sampled n p g).bay n = (s.bay n).sees p g :=
  bay_setBay_self _ _ _

theorem frame_sampled (s : State) (n : BayId) (p g : Nat) : Frame [.bay n] s (s.sampled n p g) := frame_setBay s n _

theorem sampled_state (s : State) (n : BayId) (p g : Nat) : ((s.sampled n p g).bay n).state = (s.bay n).state := by
  rw [sampled_bay]
  rfl

theorem sampled_bayParams (s : State) (n : BayId) (p g : Nat) : (s.sampled n p g).bayParams n = s.bayParams n :=
  bayParams_congr (by rw [sampled_bay]; rfl) fun _ => (frame_sampled s n p g).entry_eq (by simp)

theorem sampled_short (s : State) (n : BayId) (p g : Nat) : (s.sampled n p g).short n = s.short n :=
  short_congr (by rw [sampled_bay]; rfl) (by rw [sampled_bay]; rfl) (fun _ => (frame_sampled s n p g).entry_eq (by simp))
    ((frame_sampled s n p g).work_eq (by simp))

/-! ## What the bay does with it (R97, R100, R101) -/

/-- A bay that acts on no pair. -/
theorem actOnSample_other (hfill : (s.bay n).state ≠ .filling) (hpress : (s.bay n).state ≠ .pressurising)
    (hhold : (s.bay n).state ≠ .holding) (hrel : (s.bay n).state ≠ .releasing) : s.actOnSample n p g = s := by
  unfold State.actOnSample
  split
  · exact absurd ‹_› hfill
  · exact absurd ‹_› hpress
  · exact absurd ‹_› hhold
  · exact absurd ‹_› hrel
  · rfl

theorem actOnSample_filling (h : (s.bay n).state = .filling) : s.actOnSample n p g = s.testFilled n := by
  unfold State.actOnSample
  rw [h]

theorem actOnSample_releasing (h : (s.bay n).state = .releasing) :
    s.actOnSample n p g = if p < 10 then s.enterSettling n else s := by
  unfold State.actOnSample
  rw [h]

theorem actOnSample_pressurising (h : (s.bay n).state = .pressurising) {q : Params} (hq : s.bayParams n = some q) :
    s.actOnSample n p g = if q.testPressure * 11 < p then s.overpressure n
      else if q.testPressure * 10 ≤ p then s.enterHolding n q p else s := by
  unfold State.actOnSample
  rw [h]
  dsimp only
  rw [hq]

theorem actOnSample_holding (h : (s.bay n).state = .holding) {q : Params} (hq : s.bayParams n = some q) :
    s.actOnSample n p g = if p < q.testPressure * 5 then
        (s.setBay n { s.bay n with ruptured := true }).enterReleasing n .rupture
      else if q.testPressure * 11 < p then s.enterReleasing n (.void .overpressure)
      else s.setBay n ((s.bay n).traced p g) := by
  unfold State.actOnSample
  rw [h]
  dsimp only
  rw [hq]
  rfl

/-! ## Overpressure in PRESSURISING (R100, R138, R140) -/

theorem serves_iff (x : Intensifier) (n : BayId) :
    x.serves n = true ↔ (x.state = .retuning ∨ x.state = .driving) ∧ x.coupledBay = some n := by
  rw [Intensifier.serves, Bool.and_eq_true, Bool.or_eq_true]
  simp only [decide_eq_true_eq]

theorem faultIntensifier_live {i : IntensifierId} (h : (s.intensifier i).state = .free ∨
    (s.intensifier i).state = .retuning ∨ (s.intensifier i).state = .driving) : s.faultIntensifier i =
      (s.setIntensifier i (s.intensifier i).faulted).raiseAlert (intensifierSource i) .intensifierFault := by
  unfold State.faultIntensifier
  rcases h with h | h | h <;> (rw [h]; rfl)

theorem faultIntensifier_kept {i : IntensifierId} (h : (s.intensifier i).state = .offline ∨
    (s.intensifier i).state = .fault) : s.faultIntensifier i = s := by
  unfold State.faultIntensifier
  rcases h with h | h <;> rw [h]

theorem frame_faultIntensifier (s : State) (i : IntensifierId) :
    Frame [.intensifier i, .notices, .alertSeen] s (s.faultIntensifier i) := by
  by_cases h : (s.intensifier i).state = .free ∨ (s.intensifier i).state = .retuning ∨ (s.intensifier i).state = .driving
  · rw [faultIntensifier_live h]
    exact ((frame_setIntensifier s i _).mono (by simp)).trans ((frame_raiseAlert _ _ _).mono (by simp))
  · rw [faultIntensifier_kept (by cases hx : (s.intensifier i).state <;> simp_all)]
    exact .refl _ s

/-- The coupled intensifier has been reported, the bay not yet vented. -/
def State.pressureReported (s : State) (n : BayId) : State :=
  match (s.bay n).coupled with
  | some i => s.reportOverpressure n i
  | none => s

theorem overpressure_eq (s : State) (n : BayId) :
    s.overpressure n = (s.pressureReported n).enterReleasing n (.void .overpressure) := rfl

/-- The intensifier that the report faults. -/
def Serving (s : State) (n : BayId) (i : IntensifierId) : Prop :=
  (s.bay n).coupled = some i ∧ ((s.intensifier i).state = .retuning ∨ (s.intensifier i).state = .driving) ∧
    (s.intensifier i).coupledBay = some n

theorem pressureReported_serving {i : IntensifierId} (h : Serving s n i) : s.pressureReported n =
    (s.setIntensifier i (s.intensifier i).faulted).raiseAlert (intensifierSource i) .intensifierFault := by
  obtain ⟨hcoupled, hstate, hbay⟩ := h
  unfold State.pressureReported
  rw [hcoupled]
  dsimp only
  rw [State.reportOverpressure, if_pos ((serves_iff _ n).mpr ⟨hstate, hbay⟩), faultIntensifier_live (.inr hstate)]

theorem pressureReported_other (h : ∀ i, ¬Serving s n i) : s.pressureReported n = s := by
  unfold State.pressureReported
  cases hcoupled : (s.bay n).coupled with
  | none => rfl
  | some i =>
    dsimp only
    rw [State.reportOverpressure, if_neg]
    rw [serves_iff]
    exact fun ⟨hstate, hbay⟩ => h i ⟨hcoupled, hstate, hbay⟩

theorem frame_pressureReported (s : State) (n : BayId) :
    Frame [.intensifier .one, .intensifier .two, .notices, .alertSeen] s (s.pressureReported n) := by
  have hfault (i : IntensifierId) : Frame [.intensifier .one, .intensifier .two, .notices, .alertSeen] s
      (s.reportOverpressure n i) :=
    .ite (fun _ => (frame_faultIntensifier s i).mono (by cases i <;> simp)) fun _ => .refl _ s
  unfold State.pressureReported
  split
  · exact hfault _
  · exact .refl _ s

theorem pressureReported_intensifier (s : State) (n : BayId) (i : IntensifierId) :
    (Serving s n i → ((s.pressureReported n).intensifier i).bare = (s.intensifier i).faulted.bare ∧
      Alerted (intensifierSource i) .intensifierFault (s.pressureReported n)) ∧
    (¬Serving s n i → ((s.pressureReported n).intensifier i).bare = (s.intensifier i).bare) := by
  refine ⟨fun h => ?_, fun h => ?_⟩
  · rw [pressureReported_serving h]
    refine ⟨?_, alerted_raiseAlert _ _ _⟩
    cases i <;> rfl
  · by_cases hother : ∃ j, Serving s n j
    · obtain ⟨j, hj⟩ := hother
      have hne : j ≠ i := fun heq => h (heq ▸ hj)
      rw [pressureReported_serving hj]
      cases i <;> cases j <;> first | exact absurd rfl hne | rfl
    · rw [pressureReported_other fun j hj => hother ⟨j, hj⟩]

/-! ## HOLDING entry and the trace (R101, R102) -/

theorem enterHolding_bay (s : State) (n : BayId) (q : Params) (p : Nat) : (s.enterHolding n q p).bay n =
    { s.bay n with
      state := .holding
      outputs := doorOnly
      coupled := none
      holdStart := some p
      stepTimer := some (s.after q.holdTime)
      risePaused := none
      pairCount := 0
      kept := none } := by
  rw [State.enterHolding, updBay_eq, bay_setBay_self, releaseCoupled_bay, if_pos rfl]
  rfl

theorem frame_enterHolding (s : State) (n : BayId) (q : Params) (p : Nat) :
    Frame [.releases, .bay n] s (s.enterHolding n q p) :=
  (frame_releaseCoupled s n).trans ((frame_setBay _ n _).mono (by simp))

theorem enterHolding_releases (s : State) (n : BayId) (q : Params) (p : Nat) : (s.enterHolding n q p).releases =
    s.releases ++ ((s.bay n).coupled.map (fun i => Release.mk n i)).toList := by
  rw [State.enterHolding, updBay_eq, setBay_releases, releaseCoupled_releases]

theorem traced_skipped {b : Bay} (h : (b.pairCount + 1) % 4 ≠ 0) (p g : Nat) :
    b.traced p g = { b with pairCount := b.pairCount + 1 } := if_neg h

theorem traced_written {b : Bay} (h : (b.pairCount + 1) % 4 = 0) (hidx : b.traceIndex < 64) (p g : Nat) : b.traced p g =
    { b with
      pairCount := b.pairCount + 1
      trace := b.trace.set b.traceIndex ⟨p, g⟩ hidx
      traceIndex := (b.traceIndex + 1) % 64
      traceCount := min 255 (b.traceCount + 1) } := by
  unfold Bay.traced
  rw [if_pos h, dif_pos hidx]

end

end Sys2Proof.Machine
end

