-- ==== Sys2Proof/Proofs/SamplePair.lean ====
section
/-! SAMPLE_PAIR (R94, R97, R100, R101, R102), state by state, to the end of the event. -/

-- Proofs are checked one after another: the whole text, compiled as one, would otherwise start more threads than fit into the
-- check's memory.
set_option Elab.async false

namespace Sys2Proof.Machine

section

variable {s : State} {n : BayId} {pressure gauge : BitVec 16}

/-- A pair, the bay's action on it known. -/
theorem sample_ends {u : State} {L : List Part}
    (h : (s.sampled n pressure.toNat gauge.toNat).actOnSample n pressure.toNat gauge.toNat = u)
    (hf : Frame L (s.sampled n pressure.toNat gauge.toNat) u) (hrun : .runState ∉ L) :
    ∃ t, exec (.samplePair n pressure gauge) s = .next t ∧ Ends s u.drainTest t ∧ DrainTested s t ∧
      Frame (.bay n :: L ++ [.runState]) s t := by
  have hsampled := frame_sampled s n pressure.toNat gauge.toNat
  obtain ⟨t, hx, hframe, hends⟩ := event_ends (L := .bay n :: L ++ [.runState])
    (exec_effect ((effect_samplePair n pressure gauge s).trans (congrArg (fun u : State => some u.drainTest) h)))
    ((hsampled.mono (by simp)).trans ((hf.mono (by intro p; simp; tauto)).trans ((frame_drainTest u).mono (by simp))))
  exact ⟨t, hx, hends, hends.drainTested ((hf.runState_eq hrun).trans (hsampled.runState_eq (by simp))), hframe⟩

/-- The pair alone is taken. -/
theorem sample_recorded (h : (s.sampled n pressure.toNat gauge.toNat).actOnSample n pressure.toNat gauge.toNat =
    s.sampled n pressure.toNat gauge.toNat) : Gives (.samplePair n pressure gauge) s fun t =>
      (t.bay n).bare = ((s.bay n).sees pressure.toNat gauge.toNat).bare ∧ DrainTested s t ∧
        Frame [.bay n, .runState] s t := by
  obtain ⟨t, hx, hends, hdrain, hframe⟩ := sample_ends (L := []) h (.refl _ _) (by simp)
  exact ⟨t, hx, by rw [hends.drained_bay, sampled_bay], hdrain, hframe⟩

/-! ## FILLING (R97) -/

theorem sample_filled (hstate : (s.bay n).state = .filling)
    (hkept : ((s.bay n).sees pressure.toNat gauge.toNat).kept = none)
    (hfull : ((s.bay n).sees pressure.toNat gauge.toNat).full = true)
    (hdoor : ((s.bay n).sees pressure.toNat gauge.toNat).doorClosed = true) (hshort : s.short n = false) :
    Gives (.samplePair n pressure gauge) s fun t =>
      (t.bay n).bare = { ((s.bay n).sees pressure.toNat gauge.toNat).waiting with baseline := some gauge.toNat }.bare ∧
        (∃ r ∈ t.requests, r.bay = n) ∧ DrainTested s t ∧
        Frame [.bay n, .requests, .releases, .intensifier .one, .intensifier .two, .runState] s t := by
  have hbay := sampled_bay s n pressure.toNat gauge.toNat
  have hfilling := (sampled_state s n pressure.toNat gauge.toNat).trans hstate
  have henough := (sampled_short s n pressure.toNat gauge.toNat).trans hshort
  have hacts := (actOnSample_filling (p := pressure.toNat) (g := gauge.toNat) hfilling).trans
    (testFilled_complete hfilling (by rw [hbay, hkept]) (by rw [hbay, hfull]) (by rw [hbay, hdoor]))
  obtain ⟨t, hx, hends, hdrain, hframe⟩ := sample_ends hacts (frame_fillComplete _ n) (by simp [requestParts])
  refine ⟨t, hx, ?_, ?_, hdrain, hframe.mono (by simp [requestParts])⟩
  · rw [hends.drained_bay, fillComplete_bay henough, hbay]
    rfl
  · rw [hends.requests, (frame_drainTest _).requests_eq (by simp)]
    exact mem_fillComplete henough

/-! ## Venting on a pair (R100, R101) -/

/-- The bay vents on a pair, from a state `v` in which a frame of the pair has left the bay as `b`. -/
theorem sample_releases {v : State} {L : List Part} {cause : ReleaseCause} {b : Bay}
    (h : (s.sampled n pressure.toNat gauge.toNat).actOnSample n pressure.toNat gauge.toNat = v.enterReleasing n cause)
    (hf : Frame L (s.sampled n pressure.toNat gauge.toNat) v) (hb : v.bay n = b) (hrun : .runState ∉ L)
    (hseconds : .lineSeconds ∉ L) (hreq : .requests ∉ L) (hrel : .releases ∉ L) :
    ∃ t, exec (.samplePair n pressure gauge) s = .next t ∧ Ends s (v.enterReleasing n cause).drainTest t ∧
      (t.bay n).bare = (b.releasing cause (s.after 60)).bare ∧
      t.requests = s.requests.filter (fun r => decide (r.bay ≠ n)) ∧
      t.releases = s.releases ++ (b.coupled.map (fun i => Release.mk n i)).toList ∧ DrainTested s t ∧
      Frame ([.bay n, .requests, .releases, .runState] ++ L) s t := by
  have hvent := frame_enterReleasing v n cause
  have hsampled := frame_sampled s n pressure.toNat gauge.toNat
  obtain ⟨t, hx, hends, hdrain, hframe⟩ := sample_ends (L := [.bay n, .requests, .releases] ++ L) h
    ((hf.mono (List.subset_append_right _ _)).trans (hvent.mono (by simp))) (by simpa using hrun)
  obtain ⟨hbay, hrequests, hreleases⟩ := releases_enterReleasing v n cause
  refine ⟨t, hx, hends, ?_, ?_, ?_, hdrain, hframe.mono (by intro p; simp; tauto)⟩
  · rw [hends.drained_bay, hbay, hb, hf.after_eq hseconds, hsampled.after_eq (by simp)]
  · rw [hends.requests, (frame_drainTest _).requests_eq (by simp), hrequests, hf.requests_eq hreq,
      hsampled.requests_eq (by simp)]
  · rw [hends.releases, (frame_drainTest _).releases_eq (by simp), hreleases, hf.releases_eq hrel,
      hsampled.releases_eq (by simp), hb]

theorem sampled_serving (i : IntensifierId) : Serving (s.sampled n pressure.toNat gauge.toNat) n i ↔
    (s.bay n).coupled = some i ∧ ((s.intensifier i).state = .retuning ∨ (s.intensifier i).state = .driving) ∧
      (s.intensifier i).coupledBay = some n := by
  have hint : (s.sampled n pressure.toNat gauge.toNat).intensifier i = s.intensifier i := by cases i <;> rfl
  rw [Serving, sampled_bay, hint]
  rfl

theorem pressurising_over {q : Params} (hstate : (s.bay n).state = .pressurising) (hq : s.bayParams n = some q)
    (hover : q.testPressure * 11 < pressure.toNat) : Gives (.samplePair n pressure gauge) s fun t =>
      (t.bay n).bare =
          (((s.bay n).sees pressure.toNat gauge.toNat).releasing (.void .overpressure) (s.after 60)).bare ∧
        t.requests = s.requests.filter (fun r => decide (r.bay ≠ n)) ∧
        t.releases = s.releases ++ ((s.bay n).coupled.map (fun i => Release.mk n i)).toList ∧
        (∀ i, ((s.bay n).coupled = some i ∧ ((s.intensifier i).state = .retuning ∨ (s.intensifier i).state = .driving) ∧
            (s.intensifier i).coupledBay = some n →
              (t.intensifier i).bare = (s.intensifier i).faulted.bare ∧
                Alerted (intensifierSource i) .intensifierFault t) ∧
          (¬((s.bay n).coupled = some i ∧
              ((s.intensifier i).state = .retuning ∨ (s.intensifier i).state = .driving) ∧
              (s.intensifier i).coupledBay = some n) → (t.intensifier i).bare = (s.intensifier i).bare)) ∧
        DrainTested s t ∧
        Frame [.bay n, .requests, .releases, .intensifier .one, .intensifier .two, .notices, .alertSeen,
          .runState] s t := by
  have hacts := (actOnSample_pressurising (p := pressure.toNat) (g := gauge.toNat)
    ((sampled_state s n pressure.toNat gauge.toNat).trans hstate)
    ((sampled_bayParams s n pressure.toNat gauge.toNat).trans hq)).trans
      ((if_pos hover).trans (overpressure_eq _ n))
  have hreported := frame_pressureReported (s.sampled n pressure.toNat gauge.toNat) n
  obtain ⟨t, hx, hends, hbay, hrequests, hreleases, hdrain, hframe⟩ := sample_releases hacts hreported
    (Eq.trans (hreported.bay_eq (by simp)) (sampled_bay s n pressure.toNat gauge.toNat)) (by simp) (by simp) (by simp)
    (by simp)
  refine ⟨t, hx, hbay, hrequests, hreleases, fun i => ?_, hdrain, hframe.mono (by intro p; simp; tauto)⟩
  have hvent := frame_enterReleasing ((s.sampled n pressure.toNat gauge.toNat).pressureReported n) n (.void .overpressure)
  have hsame : (t.intensifier i).bare =
      (((s.sampled n pressure.toNat gauge.toNat).pressureReported n).intensifier i).bare := by
    have h1 := (frame_drainTest (((s.sampled n pressure.toNat gauge.toNat).pressureReported n).enterReleasing n
      (.void .overpressure))) (.intensifier i) (by simp)
    exact (hends.intensifier i).trans (Eq.trans h1 (hvent (.intensifier i) (by simp)))
  have hint : (s.sampled n pressure.toNat gauge.toNat).intensifier i = s.intensifier i := by cases i <;> rfl
  obtain ⟨hserving, hother⟩ := pressureReported_intensifier (s.sampled n pressure.toNat gauge.toNat) n i
  rw [sampled_serving, hint] at hserving hother
  refine ⟨fun h => ?_, fun h => hsame.trans (hother h)⟩
  obtain ⟨hfaulted, halert⟩ := hserving h
  exact ⟨hsame.trans hfaulted, hends.alerted (halert.of_frame hvent (by simp) (by simp)).drainTest⟩

/-! ## PRESSURISING at test pressure, and below it (R100, R101) -/

theorem pressurising_reached {q : Params} (hstate : (s.bay n).state = .pressurising) (hq : s.bayParams n = some q)
    (hlow : q.testPressure * 10 ≤ pressure.toNat) (hhigh : pressure.toNat ≤ q.testPressure * 11) :
    Gives (.samplePair n pressure gauge) s fun t =>
      (t.bay n).bare = { (s.bay n).sees pressure.toNat gauge.toNat with
          state := .holding
          outputs := doorOnly
          coupled := none
          holdStart := some pressure.toNat
          stepTimer := some (s.after q.holdTime)
          risePaused := none
          pairCount := 0
          kept := none }.bare ∧
        t.releases = s.releases ++ ((s.bay n).coupled.map (fun i => Release.mk n i)).toList ∧ DrainTested s t ∧
        Frame [.bay n, .releases, .runState] s t := by
  have hacts := (actOnSample_pressurising (p := pressure.toNat) (g := gauge.toNat)
    ((sampled_state s n pressure.toNat gauge.toNat).trans hstate)
    ((sampled_bayParams s n pressure.toNat gauge.toNat).trans hq)).trans
      ((if_neg (not_lt_of_ge hhigh)).trans (if_pos hlow))
  have hsampled := frame_sampled s n pressure.toNat gauge.toNat
  obtain ⟨t, hx, hends, hdrain, hframe⟩ := sample_ends hacts (frame_enterHolding _ n q _) (by simp)
  refine ⟨t, hx, ?_, ?_, hdrain, hframe.mono (by intro p; simp; tauto)⟩
  · rw [hends.drained_bay, enterHolding_bay, sampled_bay, hsampled.after_eq (by simp)]
  · rw [hends.releases, (frame_drainTest _).releases_eq (by simp), enterHolding_releases, sampled_bay,
      hsampled.releases_eq (by simp)]
    rfl

theorem pressurising_low {q : Params} (hstate : (s.bay n).state = .pressurising) (hq : s.bayParams n = some q)
    (hlow : pressure.toNat < q.testPressure * 10) :
    (s.sampled n pressure.toNat gauge.toNat).actOnSample n pressure.toNat gauge.toNat =
      s.sampled n pressure.toNat gauge.toNat :=
  (actOnSample_pressurising (p := pressure.toNat) (g := gauge.toNat)
    ((sampled_state s n pressure.toNat gauge.toNat).trans hstate)
    ((sampled_bayParams s n pressure.toNat gauge.toNat).trans hq)).trans
      ((if_neg (by omega)).trans (if_neg (by omega)))

/-! ## HOLDING (R101, R102) -/

theorem holding_acts {q : Params} (hstate : (s.bay n).state = .holding) (hq : s.bayParams n = some q) :
    (s.sampled n pressure.toNat gauge.toNat).actOnSample n pressure.toNat gauge.toNat =
      if pressure.toNat < q.testPressure * 5 then
        (s.setBay n { (s.bay n).sees pressure.toNat gauge.toNat with ruptured := true }).enterReleasing n .rupture
      else if q.testPressure * 11 < pressure.toNat then
        (s.sampled n pressure.toNat gauge.toNat).enterReleasing n (.void .overpressure)
      else s.setBay n (((s.bay n).sees pressure.toNat gauge.toNat).traced pressure.toNat gauge.toNat) := by
  rw [actOnSample_holding ((sampled_state s n pressure.toNat gauge.toNat).trans hstate)
    ((sampled_bayParams s n pressure.toNat gauge.toNat).trans hq), sampled_bay, State.sampled, setBay_setBay, setBay_setBay]

theorem holding_ruptures {q : Params} (hstate : (s.bay n).state = .holding) (hq : s.bayParams n = some q)
    (hlow : pressure.toNat < q.testPressure * 5) : Gives (.samplePair n pressure gauge) s fun t =>
      (t.bay n).bare = ({ (s.bay n).sees pressure.toNat gauge.toNat with ruptured := true }.releasing .rupture
          (s.after 60)).bare ∧
        t.requests = s.requests.filter (fun r => decide (r.bay ≠ n)) ∧ DrainTested s t ∧
        Frame [.bay n, .requests, .releases, .runState] s t := by
  have hruptured : Frame [.bay n] (s.sampled n pressure.toNat gauge.toNat)
      (s.setBay n { (s.bay n).sees pressure.toNat gauge.toNat with ruptured := true }) := by
    have h := frame_setBay (s.sampled n pressure.toNat gauge.toNat) n
      { (s.bay n).sees pressure.toNat gauge.toNat with ruptured := true }
    rwa [State.sampled, setBay_setBay] at h
  obtain ⟨t, hx, -, hbay, hrequests, -, hdrain, hframe⟩ := sample_releases ((holding_acts hstate hq).trans (if_pos hlow))
    hruptured (bay_setBay_self _ _ _) (by simp) (by simp) (by simp) (by simp)
  exact ⟨t, hx, hbay, hrequests, hdrain, hframe.mono (by intro p; simp; tauto)⟩

theorem holding_over {q : Params} (hstate : (s.bay n).state = .holding) (hq : s.bayParams n = some q)
    (hover : q.testPressure * 11 < pressure.toNat) : Gives (.samplePair n pressure gauge) s fun t =>
      (t.bay n).bare =
          (((s.bay n).sees pressure.toNat gauge.toNat).releasing (.void .overpressure) (s.after 60)).bare ∧
        t.requests = s.requests.filter (fun r => decide (r.bay ≠ n)) ∧ DrainTested s t ∧
        Frame [.bay n, .requests, .releases, .runState] s t := by
  obtain ⟨t, hx, -, hbay, hrequests, -, hdrain, hframe⟩ := sample_releases (L := [])
    ((holding_acts hstate hq).trans ((if_neg (by omega)).trans (if_pos hover))) (.refl _ _)
    (sampled_bay s n pressure.toNat gauge.toNat) (by simp) (by simp) (by simp) (by simp)
  exact ⟨t, hx, hbay, hrequests, hdrain, hframe.mono (by intro p; simp)⟩

theorem holding_traced {q : Params} (hstate : (s.bay n).state = .holding) (hq : s.bayParams n = some q)
    (hlow : q.testPressure * 5 ≤ pressure.toNat) (hhigh : pressure.toNat ≤ q.testPressure * 11) :
    Gives (.samplePair n pressure gauge) s fun t =>
      (t.bay n).bare = (((s.bay n).sees pressure.toNat gauge.toNat).traced pressure.toNat gauge.toNat).bare ∧
        DrainTested s t ∧ Frame [.bay n, .runState] s t := by
  have htraced : Frame [.bay n] (s.sampled n pressure.toNat gauge.toNat)
      (s.setBay n (((s.bay n).sees pressure.toNat gauge.toNat).traced pressure.toNat gauge.toNat)) := by
    have h := frame_setBay (s.sampled n pressure.toNat gauge.toNat) n
      (((s.bay n).sees pressure.toNat gauge.toNat).traced pressure.toNat gauge.toNat)
    rwa [State.sampled, setBay_setBay] at h
  obtain ⟨t, hx, hends, hdrain, hframe⟩ := sample_ends
    ((holding_acts hstate hq).trans ((if_neg (not_lt_of_ge hlow)).trans (if_neg (not_lt_of_ge hhigh)))) htraced (by simp)
  refine ⟨t, hx, ?_, hdrain, hframe.mono (by intro p; simp)⟩
  rw [hends.drained_bay, bay_setBay_self]

end

/-- Settles O53. -/
theorem samplePair : Obligations.SamplePair := by
  refine fun n pressure gauge s => ⟨fun hfill hpress hhold hrel => sample_recorded ?_, fun hstate hwaits =>
      sample_recorded ?_, fun hstate hkept hfull hdoor hshort => sample_filled hstate hkept hfull hdoor hshort,
    fun q hq hstate => ⟨pressurising_over hstate hq, pressurising_reached hstate hq,
      fun hlow => sample_recorded (pressurising_low hstate hq hlow)⟩,
    fun q hq hstate => ⟨holding_ruptures hstate hq, holding_over hstate hq, fun hlow hhigh hskip => ?_,
      fun hlow hhigh hwrite hidx => ?_⟩⟩
  · have hstate := sampled_state s n pressure.toNat gauge.toNat
    exact actOnSample_other (hstate ▸ hfill) (hstate ▸ hpress) (hstate ▸ hhold) (hstate ▸ hrel)
  · rw [actOnSample_filling ((sampled_state s n pressure.toNat gauge.toNat).trans hstate), testFilled_waits]
    rw [sampled_bay]
    exact .inr hwaits
  · rw [← traced_skipped hskip pressure.toNat gauge.toNat]
    exact holding_traced hstate hq hlow hhigh
  · rw [← traced_written hwrite hidx pressure.toNat gauge.toNat]
    exact holding_traced hstate hq hlow hhigh

end Sys2Proof.Machine
end

