-- ==== Sys2Proof/Proofs/VoidRules.lean ====
section
/-! What a bay does about a void (R18, R79, R108): unloads with a claim, unloads onto its track, retests in place, or waits. -/

-- Proofs are checked one after another: the whole text, compiled as one, would otherwise start more threads than fit into the
-- check's memory.
set_option Elab.async false

namespace Sys2Proof.Machine

/-! ## The unload decision (R79) -/

section

variable {s : State} {n : BayId} {i : RosterIndex}

theorem trackRoom_iff (s : State) (l : LaneId) : s.trackRoom l = true ↔ TrackRoom l s := by
  rw [State.trackRoom, TrackRoom, Bool.and_eq_true, Bool.and_eq_true, decide_eq_true_iff, decide_eq_true_iff, State.stopped,
    Bool.not_eq_true', decide_eq_false_iff_not, and_assoc]
  rfl

/-- The bay unloads onto its track. -/
def State.ontoTrack (s : State) (n : BayId) (i : RosterIndex) : State :=
  ((s.setBay n (s.bay n).unloading).setLane (laneOf n) { s.lane (laneOf n) with
    track := (s.lane (laneOf n)).track ++ [.reserved (begunTransit s (.entry i) (.bay n))] }).reportBegin (.entry i)
      (.recirc (laneOf n))

theorem unloadDecision_room (hindex : (s.bay n).index = some i) (h : TrackRoom (laneOf n) s) :
    s.unloadDecision n = s.ontoTrack n i := by
  unfold State.unloadDecision
  rw [hindex]
  dsimp only
  rw [if_pos ((trackRoom_iff s _).mpr h), State.ontoTrack]
  cases laneOf n <;> rfl

theorem unloadDecision_stays (hindex : (s.bay n).index = some i) (h : ¬TrackRoom (laneOf n) s) :
    s.unloadDecision n = s.fillStep n := by
  unfold State.unloadDecision
  rw [hindex]
  exact if_neg fun hroom => h ((trackRoom_iff s _).mp hroom)

theorem ontoTrack_bay (s : State) (n : BayId) (i : RosterIndex) : (s.ontoTrack n i).bay n = (s.bay n).unloading := by
  rw [State.ontoTrack, (frame_reportBegin _ _ _).bay_eq (by simp), (frame_setLane _ _ _).bay_eq (by simp), bay_setBay_self]

theorem ontoTrack_track (s : State) (n : BayId) (i : RosterIndex) : ((s.ontoTrack n i).lane (laneOf n)).track =
    (s.lane (laneOf n)).track ++ [.reserved (begunTransit s (.entry i) (.bay n))] := by
  have hbare := (frame_reportBegin ((s.setBay n (s.bay n).unloading).setLane (laneOf n) { s.lane (laneOf n) with
    track := (s.lane (laneOf n)).track ++ [.reserved (begunTransit s (.entry i) (.bay n))] }) (.entry i)
      (.recirc (laneOf n))).lane_bare_eq (l := laneOf n) (by simp)
  rw [lane_setLane, if_pos rfl] at hbare
  exact congr(Lane.track $hbare)

theorem ontoTrack_entry (h : (s.entry i).state = .testing) :
    (s.ontoTrack n i).entry i = ((s.entry i).leaving .queued).edited := by
  have hentry : ((s.setBay n (s.bay n).unloading).setLane (laneOf n) { s.lane (laneOf n) with
      track := (s.lane (laneOf n)).track ++ [.reserved (begunTransit s (.entry i) (.bay n))] }).entry i = s.entry i := by
    rw [setLane_entry, setBay_entry]
  rw [State.ontoTrack, reportBegin_entry (by rw [hentry, h]; rfl), hentry]
  rfl

/-! ## The fill step as an answer (R96, R108) -/

theorem fillStep_stopped (h : s.runState = .eStopped) : s.fillStep n = s.keepStep n .fillStep :=
  if_pos (stopped_eq_true h)

/-- A bay in which a step waits for the release of an E-STOP (R108). -/
def Bay.keeping (b : Bay) (k : KeptStep) : Bay :=
  { b with kept := some k, stepTimer := none, outputs := { b.outputs with vent := true, fill := false } }

theorem keepStep_bay (s : State) (n : BayId) (k : KeptStep) : (s.keepStep n k).bay n = (s.bay n).keeping k := by
  rw [State.keepStep, updBay_eq, bay_setBay_self]
  rfl

theorem enterFilling_held (hindex : (s.bay n).index = some i) (h : (s.entry i).state = .testing) :
    (s.enterFilling n).entry i = { s.entry i with
      testsStarted := min 15 ((s.entry i).testsStarted + 1)
      meas := Measurements.absent }.edited := by
  rw [enterFilling_entry, reportBayAttempt_of_index hindex, reportAttempt_entry h, if_pos rfl]
  rfl

end

/-! ## The report (R18) -/

/-- The entry's retests are exhausted by the void. -/
def Exhausts (c : VoidCause) (e : Entry) : Prop := c.counted = true ∧ e.countedVoids = 2

theorem voided_exhausts {c : VoidCause} {e : Entry} (h : Exhausts c e) (now : Seconds) (m : Option Measurements) :
    (e.voided now c m).route = some .deface := by
  obtain ⟨hcounted, hvoids⟩ := h
  unfold Entry.voided
  dsimp only
  rw [if_pos hcounted, if_neg (by omega)]

theorem voided_route {c : VoidCause} {e : Entry} (hvoids : e.countedVoids ≤ 2) (h : ¬Exhausts c e) (now : Seconds)
    (m : Option Measurements) : (e.voided now c m).route = e.route := by
  unfold Entry.voided
  dsimp only
  split
  · rw [if_pos (by
      have hne : e.countedVoids ≠ 2 := fun htwo => h ⟨‹_›, htwo⟩
      omega)]
  · rfl

theorem voided_state (e : Entry) (now : Seconds) (c : VoidCause) (m : Option Measurements) :
    (e.voided now c m).state = e.state ∧ (e.voided now c m).params = e.params := by
  unfold Entry.voided
  dsimp only
  split
  · split <;> exact ⟨rfl, rfl⟩
  · exact ⟨rfl, rfl⟩

/-- The void has been reported, and the bay has not yet acted on the answer. -/
def State.voidTold (s : State) (n : BayId) (i : RosterIndex) (c : VoidCause) (m : Option Measurements) : State :=
  (s.reportVoid i c m).setBay n { s.bay n with releaseCause := none }

section

variable {s : State} {n : BayId} {i : RosterIndex} {c : VoidCause} {m : Option Measurements}

theorem voidTold_bay (s : State) (n : BayId) (i : RosterIndex) (c : VoidCause) (m : Option Measurements) :
    (s.voidTold n i c m).bay n = { s.bay n with releaseCause := none } := bay_setBay_self _ _ _

theorem frame_voidTold (s : State) (n : BayId) (i : RosterIndex) (c : VoidCause) (m : Option Measurements) :
    Frame [.entry i, .bay n] s (s.voidTold n i c m) :=
  ((frame_reportVoid s i c m).mono (by simp)).trans ((frame_setBay _ n _).mono (by simp))

theorem voidTold_entry (hlive : (s.entry i).state.live = true) (hroute : (s.entry i).route = some .test) :
    (s.voidTold n i c m).entry i = ((s.entry i).voided s.lineSeconds c m).edited := by
  rw [State.voidTold, setBay_entry, reportVoid_entry hlive hroute]

theorem voidAndAct_told (hindex : (s.bay n).index = some i) (settled : Bool) : s.voidAndAct n c m settled =
    if (s.voidTold n i c m).answer i = some .test then
      (if c = .eStop then (s.voidTold n i c m).fillStep n
       else if (c = .zeroLapsed ∨ c = .gauge) ∧ settled = true then (s.voidTold n i c m).zeroingStep n .unloadDecision
       else (s.voidTold n i c m).unloadDecision n)
    else (s.voidTold n i c m).unloadToOutfeed n := by
  have htold : (s.reportVoid i c m).updBay n (fun b => { b with releaseCause := none }) = s.voidTold n i c m := by
    rw [updBay_eq, reportVoid_bay]
    rfl
  unfold State.voidAndAct
  rw [hindex]
  dsimp only
  rw [htold]
  cases c <;> cases settled <;> rfl

/-- The unload decision or the fill step follows a void that leaves the route TEST, and otherwise the claim (R108). -/
theorem voidAndAct_exhausted (hindex : (s.bay n).index = some i)
    (h : ((s.voidTold n i c m).entry i).route ≠ some .test) (settled : Bool) :
    s.voidAndAct n c m settled = (s.voidTold n i c m).unloadToOutfeed n := by
  rw [voidAndAct_told hindex]
  exact if_neg h

theorem voidAndAct_eStop (hindex : (s.bay n).index = some i)
    (h : ((s.voidTold n i .eStop m).entry i).route = some .test) (settled : Bool) :
    s.voidAndAct n .eStop m settled = (s.voidTold n i .eStop m).fillStep n := by
  rw [voidAndAct_told hindex]
  exact (if_pos h).trans (if_pos rfl)

theorem voidAndAct_decides (hindex : (s.bay n).index = some i)
    (h : ((s.voidTold n i c m).entry i).route = some .test) (hc : c ≠ .eStop) {settled : Bool}
    (hs : settled = false ∨ c ≠ .zeroLapsed ∧ c ≠ .gauge) :
    s.voidAndAct n c m settled = (s.voidTold n i c m).unloadDecision n := by
  rw [voidAndAct_told hindex]
  refine (if_pos h).trans ((if_neg hc).trans (if_neg fun ⟨hzero, htrue⟩ => ?_))
  rcases hs with rfl | ⟨hlapsed, hgauge⟩
  · cases htrue
  · exact hzero.elim hlapsed hgauge

theorem voidAndAct_settled (hindex : (s.bay n).index = some i)
    (h : ((s.voidTold n i c m).entry i).route = some .test) (hc : c = .zeroLapsed ∨ c = .gauge) :
    s.voidAndAct n c m true = (s.voidTold n i c m).zeroingStep n .unloadDecision := by
  rw [voidAndAct_told hindex]
  refine (if_pos h).trans ((if_neg ?_).trans (if_pos ⟨hc, rfl⟩))
  rcases hc with rfl | rfl <;> simp

end

/-! ## The answer and the bay (R18, R108) -/

/-- What the report of a void leaves, the bay having stood as `b` with its release cause ended. -/
structure Told (n : BayId) (i : RosterIndex) (b : Bay) (e : Entry) (s w : State) : Prop where
  bay : w.bay n = b
  index : b.index = some i
  entry : w.entry i = e
  testing : e.state = .testing
  short : w.short n = s.short n
  lane : w.lane (laneOf n) = s.lane (laneOf n)
  frame : Frame [.entry i, .bay n] s w

section

variable {s v w : State} {n : BayId} {i : RosterIndex} {b : Bay} {e : Entry}

theorem told_voidTold (hv : v = s.setBay n b) (hindex : (s.bay n).index = some i) (hb : b.index = (s.bay n).index)
    (hvalid : b.validity = (s.bay n).validity) (htesting : (s.entry i).state = .testing)
    (hroute : (s.entry i).route = some .test) (c : VoidCause) (m : Option Measurements) :
    Told n i { b with releaseCause := none } ((s.entry i).voided s.lineSeconds c m).edited s (v.voidTold n i c m) := by
  subst hv
  have hset := frame_setBay s n b
  have hentry : (s.setBay n b).entry i = s.entry i := setBay_entry _ _ _ _
  have htold : ((s.setBay n b).voidTold n i c m).entry i = ((s.entry i).voided s.lineSeconds c m).edited := by
    rw [voidTold_entry (by rw [hentry, htesting]; rfl) (by rw [hentry, hroute]), hentry]
    rfl
  obtain ⟨hstate, hparams⟩ := voided_state (s.entry i) s.lineSeconds c m
  refine ⟨by rw [voidTold_bay, bay_setBay_self], hb.trans hindex, htold, hstate.trans htesting,
    short_of_params ?_ ?_ ?_, ?_, (hset.mono (by simp)).trans (frame_voidTold _ n i c m)⟩
  · refine bayParams_of_entries ?_ fun j => ?_
    · rw [voidTold_bay, bay_setBay_self]
      exact hb
    · by_cases hij : i = j
      · subst hij
        rw [htold]
        exact hparams
      · rw [(frame_voidTold _ n i c m).entry_eq (by simpa using Ne.symm hij), setBay_entry]
  · rw [voidTold_bay, bay_setBay_self]
    exact hvalid
  · exact ((frame_voidTold _ n i c m).work_eq (by simp)).trans (hset.work_eq (by simp))
  · rw [State.voidTold, setBay_lane]
    unfold State.reportVoid
    split
    · rw [editEntry_eq, setEntry_lane, setBay_lane]
    · rw [setBay_lane]

theorem Told.room (h : Told n i b e s w) : TrackRoom (laneOf n) w ↔ TrackRoom (laneOf n) s := by
  rw [TrackRoom, TrackRoom, h.lane, h.frame.runState_eq (by simp)]

theorem Told.windex (h : Told n i b e s w) : (w.bay n).index = some i := by rw [h.bay, h.index]

theorem Told.claims (h : Told n i b e s w) : Claimed (.bay n) s (w.unloadToOutfeed n) := by
  have hclaimed := claimed_unloadToOutfeed w n
  rwa [Claimed, h.frame.claims_eq (by simp)] at hclaimed

/-- A retest in place or a wait, by the fill step. -/
theorem Told.fillStep_stopped (h : Told n i b e s w) (hrun : s.runState = .eStopped) :
    (w.fillStep n).bay n = b.keeping .fillStep ∧ (w.fillStep n).entry i = e := by
  rw [Sys2Proof.Machine.fillStep_stopped ((h.frame.runState_eq (by simp)).trans hrun), keepStep_bay, h.bay,
    (frame_keepStep w n _).entry_eq (by simp), h.entry]
  exact ⟨rfl, rfl⟩

theorem Told.fillStep_checks (h : Told n i b e s w) (hrun : s.runState ≠ .eStopped)
    (hdue : 0 < b.checksOwed ∨ s.short n = true) :
    (w.fillStep n).bay n = b.checking (some .fill) (s.after 40) ∧ (w.fillStep n).entry i = e := by
  have hr : w.runState ≠ .eStopped := by rwa [h.frame.runState_eq (by simp)]
  rw [Sys2Proof.Machine.fillStep_checks hr (by rw [h.bay, h.short]; exact hdue),
    enterZeroing_bay n _ (stopped_eq_false hr), h.bay, h.frame.after_eq (by simp),
    (frame_enterZeroing w n _).entry_eq (by simp), h.entry]
  exact ⟨rfl, rfl⟩

theorem Told.fillStep_fills (h : Told n i b e s w) (hrun : s.runState ≠ .eStopped) (howed : b.checksOwed = 0)
    (hshort : s.short n = false) : (w.fillStep n).entry i = { e with
      testsStarted := min 15 (e.testsStarted + 1)
      meas := Measurements.absent }.edited ∧
      ((b.full = false ∨ b.doorClosed = false) → (w.fillStep n).bay n = b.fillingFrom (s.after 60)) ∧
      (b.full = true → b.doorClosed = true → ((w.fillStep n).bay n).state = .awaitIntensifier ∧
        ((w.fillStep n).bay n).baseline = some b.latestGauge ∧ ∃ r ∈ (w.fillStep n).requests, r.bay = n) := by
  have hr : w.runState ≠ .eStopped := by rwa [h.frame.runState_eq (by simp)]
  have henough : w.short n = false := h.short.trans hshort
  rw [Sys2Proof.Machine.fillStep_fills hr (by rw [h.bay, howed]) henough]
  refine ⟨?_, fun hwaits => ?_, fun hfull hdoor => ?_⟩
  · rw [enterFilling_held h.windex (by rw [h.entry]; exact h.testing), h.entry]
  · rw [enterFilling_waits (by rw [h.bay]; exact hwaits), h.bay, h.frame.after_eq (by simp)]
  · obtain ⟨hbay, hrequest⟩ := enterFilling_filled (s := w) (n := n) (by rw [h.bay]; exact hfull)
      (by rw [h.bay]; exact hdoor) henough
    rw [hbay, h.bay]
    exact ⟨rfl, rfl, hrequest⟩

theorem Told.ontoTrack (h : Told n i b e s w) (hroom : TrackRoom (laneOf n) s) :
    (w.unloadDecision n).bay n = b.unloading ∧
      ((w.unloadDecision n).lane (laneOf n)).track =
        (s.lane (laneOf n)).track ++ [.reserved (begunTransit s (.entry i) (.bay n))] ∧
      (w.unloadDecision n).entry i = (e.leaving .queued).edited := by
  rw [unloadDecision_room h.windex (h.room.mpr hroom), ontoTrack_bay, h.bay, ontoTrack_track, h.lane,
    ontoTrack_entry (by rw [h.entry]; exact h.testing), h.entry, begunTransit, begunTransit, h.frame.work_eq (by simp),
    h.frame.after_eq (by simp)]
  exact ⟨rfl, rfl, rfl⟩

/-- With no room on the track, the unload decision is the fill step. -/
theorem Told.unloadDecision_stays (h : Told n i b e s w) (hroom : ¬TrackRoom (laneOf n) s) :
    w.unloadDecision n = w.fillStep n :=
  Sys2Proof.Machine.unloadDecision_stays h.windex fun hw => hroom (h.room.mp hw)

/-- A void of an attempt, from a state that has changed the bay alone. -/
theorem actedOnVoid (hv : v = s.setBay n b) (hindex : (s.bay n).index = some i) (hb : b.index = (s.bay n).index)
    (hvalid : b.validity = (s.bay n).validity) (htesting : (s.entry i).state = .testing)
    (hroute : (s.entry i).route = some .test) (hvoids : (s.entry i).countedVoids ≤ 2) (c : VoidCause)
    (m : Option Measurements) {settled : Bool} (hs : settled = false ∨ c ≠ .zeroLapsed ∧ c ≠ .gauge) :
    ActedOnVoid n i c m (c ≠ .eStop) { b with releaseCause := none } s (v.voidAndAct n c m settled) := by
  have htold := told_voidTold hv hindex hb hvalid htesting hroute c m
  have hvindex : (v.bay n).index = some i := by rw [hv, bay_setBay_self, hb, hindex]
  have hroute' (h : ¬Exhausts c (s.entry i)) : ((v.voidTold n i c m).entry i).route = some .test := by
    rw [htold.entry]
    exact (voided_route hvoids h s.lineSeconds m).trans hroute
  have hfill (h : ¬Exhausts c (s.entry i)) (hstay : ¬(c ≠ .eStop ∧ TrackRoom (laneOf n) s)) :
      v.voidAndAct n c m settled = (v.voidTold n i c m).fillStep n := by
    by_cases hc : c = .eStop
    · subst hc
      exact voidAndAct_eStop hvindex (hroute' h) settled
    · rw [voidAndAct_decides hvindex (hroute' h) hc hs, htold.unloadDecision_stays fun hroom => hstay ⟨hc, hroom⟩]
  refine ⟨fun h => ?_, fun h hc hroom => ?_, fun h hstay hrun => ?_, fun h hstay hrun hdue => ?_,
    fun h hstay hrun howed hshort => ?_⟩
  · have hdeface : ((v.voidTold n i c m).entry i).route ≠ some .test := by
      rw [htold.entry]
      have hexhausted := voided_exhausts h s.lineSeconds m
      exact fun htest => by
        have hroutes := hexhausted.symm.trans htest
        cases hroutes
    rw [voidAndAct_exhausted hvindex hdeface]
    exact ⟨by rw [unloadToOutfeed_bay, htold.bay], htold.claims, by rw [unloadToOutfeed_entry, htold.entry]⟩
  · obtain ⟨hbay, htrack, hentry⟩ := htold.ontoTrack hroom
    rw [voidAndAct_decides hvindex (hroute' h) hc hs]
    exact ⟨congrArg Bay.bare hbay, htrack, hentry⟩
  · obtain ⟨hbay, hentry⟩ := htold.fillStep_stopped hrun
    rw [hfill h hstay]
    exact ⟨congrArg Bay.bare hbay, hentry⟩
  · obtain ⟨hbay, hentry⟩ := htold.fillStep_checks hrun hdue
    rw [hfill h hstay]
    exact ⟨congrArg Bay.bare hbay, hentry⟩
  · obtain ⟨hentry, hwaits, hfilled⟩ := htold.fillStep_fills hrun howed hshort
    rw [hfill h hstay]
    exact ⟨hentry, fun hw => congrArg Bay.bare (hwaits hw), hfilled⟩

theorem Ends.actedOnVoid {u t : State} {c : VoidCause} {m : Option Measurements} {toTrack : Prop}
    (h : Ends s u.drainTest t) (k : ActedOnVoid n i c m toTrack b s u) : ActedOnVoid n i c m toTrack b s t := by
  have hbay := h.drained_bay n
  have hentry : t.entry i = u.entry i := by rw [h.entry, drainTest_entry]
  have hclaims : t.claims = u.claims := h.claims.trans ((frame_drainTest u).claims_eq (by simp))
  have hrequests : t.requests = u.requests := h.requests.trans ((frame_drainTest u).requests_eq (by simp))
  have hlane : (t.lane (laneOf n)).bare = (u.lane (laneOf n)).bare := by rw [h.lane, drainTest_lane]
  have htrack : (t.lane (laneOf n)).track = (u.lane (laneOf n)).track := congr(Lane.track $hlane)
  have hstate : (t.bay n).state = (u.bay n).state := congr(Bay.state $hbay)
  have hbase : (t.bay n).baseline = (u.bay n).baseline := congr(Bay.baseline $hbay)
  unfold ActedOnVoid Claimed at k ⊢
  rw [hbay, hentry, hclaims, hrequests, htrack, hstate, hbase]
  exact k

theorem frame_voided {c : VoidCause} {m : Option Measurements} (hv : v = s.setBay n b) (hb : b.index = some i)
    (settled : Bool) : Frame (voidActionParts n i) s (v.voidAndAct n c m settled).drainTest := by
  subst hv
  have hact := frame_voidAndAct (s.setBay n b) n c m settled
  have hparts : voidParts (s.setBay n b) n ⊆ voidActionParts n i := by
    simp [voidParts, voidActionParts, requestParts, heldParts, hb]
  exact ((frame_setBay s n b).mono (by simp [voidActionParts])).trans
    ((hact.mono hparts).trans ((frame_drainTest _).mono (by simp [voidActionParts])))

theorem voidAndAct_runState {c : VoidCause} {m : Option Measurements} (s : State) (n : BayId) (settled : Bool) :
    (s.voidAndAct n c m settled).runState = s.runState :=
  (frame_voidAndAct s n c m settled).runState_eq (by simp [voidParts, requestParts, heldParts])

end

end Sys2Proof.Machine
end

