-- ==== Sys2Proof/Proofs/BayLimits.lean ====
section
/-! The timers (R179) and the due limits of a bay (R97, R100, R101, R103, R114). -/

-- Proofs are checked one after another: the whole text, compiled as one, would otherwise start more threads than fit into the
-- check's memory.
set_option Elab.async false

namespace Sys2Proof.Machine

/-! ## Line seconds, modulo the wrap (R179) -/

theorem after_toNat (s : State) (k : Nat) : (s.after k).toNat = (s.lineSeconds.toNat + k) % 2 ^ 32 := by
  rw [State.after, BitVec.toNat_add, BitVec.toNat_ofNat, Nat.add_mod_mod]

theorem due_iff (s : State) (e : Seconds) :
    s.due (some e) = true ↔ (s.lineSeconds.toNat + (2 ^ 32 - e.toNat)) % 2 ^ 32 < 2 ^ 31 := by
  rw [State.due, decide_eq_true_iff, BitVec.toNat_sub, Nat.add_comm]

theorem remaining_eq (s : State) (e : Seconds) : s.remaining e =
    if s.due (some e) = true then 0 else (e.toNat + (2 ^ 32 - s.lineSeconds.toNat)) % 2 ^ 32 := by
  rw [State.remaining, BitVec.toNat_sub, Nat.add_comm]

/-! ## The expiries -/

section

variable {s : State} {n : BayId}

theorem stepDue_iff (s : State) (n : BayId) (st : BayState) :
    s.stepDue n st = true ↔ (s.bay n).state = st ∧ s.due (s.bay n).stepTimer = true := by
  rw [State.stepDue, Bool.and_eq_true, decide_eq_true_iff]

theorem stepDue_early {st : BayState} (h : (s.bay n).state ≠ st ∨ s.due (s.bay n).stepTimer = false) :
    ¬s.stepDue n st = true := by
  rw [stepDue_iff]
  rintro ⟨hstate, hdue⟩
  rcases h with h | h
  · exact h hstate
  · rw [hdue] at h
    cases h

theorem expireRise_due (hstate : (s.bay n).state = .pressurising) (hdue : s.due (s.bay n).stepTimer = true) :
    s.expireRise n = s.enterReleasing n (.void .noPressure) := if_pos ((stepDue_iff s n _).mpr ⟨hstate, hdue⟩)

theorem expireRise_early (h : (s.bay n).state ≠ .pressurising ∨ s.due (s.bay n).stepTimer = false) :
    s.expireRise n = s := if_neg (stepDue_early h)

theorem expireHold_due (hstate : (s.bay n).state = .holding) (hdue : s.due (s.bay n).stepTimer = true) :
    s.expireHold n = (s.setBay n (s.bay n).holdEnded).enterReleasing n .holdEnd :=
  if_pos ((stepDue_iff s n _).mpr ⟨hstate, hdue⟩)

theorem expireHold_early (h : (s.bay n).state ≠ .holding ∨ s.due (s.bay n).stepTimer = false) :
    s.expireHold n = s := if_neg (stepDue_early h)

theorem expirePressurised_due (hstate : (s.bay n).state = .pressurising ∨ (s.bay n).state = .holding ∨
    (s.bay n).state = .suspended ∨ (s.bay n).state = .awaitIntensifier) (hdue : s.due (s.bay n).pressTimer = true) :
    s.expirePressurised n = s.enterReleasing n (.void .pressureLimit) := by
  unfold State.expirePressurised
  rw [if_pos hdue]
  rcases hstate with h | h | h | h <;> rw [h]

theorem expirePressurised_early (h : ¬((s.bay n).state = .pressurising ∨ (s.bay n).state = .holding ∨
    (s.bay n).state = .suspended ∨ (s.bay n).state = .awaitIntensifier) ∨ s.due (s.bay n).pressTimer = false) :
    s.expirePressurised n = s := by
  unfold State.expirePressurised
  by_cases hdue : s.due (s.bay n).pressTimer = true
  · rw [if_pos hdue]
    have hother := h.resolve_right (by simp [hdue])
    split
    · exact absurd (.inl ‹_›) hother
    · exact absurd (.inr (.inl ‹_›)) hother
    · exact absurd (.inr (.inr (.inl ‹_›))) hother
    · exact absurd (.inr (.inr (.inr ‹_›))) hother
    · rfl
  · exact if_neg hdue

theorem expireRelease_due (hstate : (s.bay n).state = .releasing) (hdue : s.due (s.bay n).stepTimer = true) :
    s.expireRelease n = s.bayFault n .ventFailure := if_pos ((stepDue_iff s n _).mpr ⟨hstate, hdue⟩)

theorem expireRelease_early (h : (s.bay n).state ≠ .releasing ∨ s.due (s.bay n).stepTimer = false) :
    s.expireRelease n = s := if_neg (stepDue_early h)

/-- The bay at the expiry of the fill limit, before its void is reported. -/
def Bay.fillExpired (b : Bay) : Bay :=
  { b with stepTimer := none, outputs := { b.outputs with fill := false, vent := true } }

theorem expireFill_due (hstate : (s.bay n).state = .filling) (hdue : s.due (s.bay n).stepTimer = true) :
    s.expireFill n = (s.setBay n (s.bay n).fillExpired).voidAndAct n .noFill none false :=
  if_pos ((stepDue_iff s n _).mpr ⟨hstate, hdue⟩)

theorem expireFill_early (h : (s.bay n).state ≠ .filling ∨ s.due (s.bay n).stepTimer = false) :
    s.expireFill n = s := if_neg (stepDue_early h)

/-! ## The events -/

/-- A limit that vents the bay. -/
theorem limit_releases {c : Instr} {cause : ReleaseCause} (h : effect c s = some (s.enterReleasing n cause)) :
    Gives c s fun t => Releases n cause s t ∧ Frame [.bay n, .requests, .releases] s t := by
  obtain ⟨t, hx, hframe, hends⟩ := event_ends (exec_effect h) (frame_enterReleasing s n cause)
  exact ⟨t, hx, hends.releasing (releases_enterReleasing s n cause), hframe⟩

/-- An event that changes nothing. -/
theorem event_kept {c : Instr} (h : effect c s = some s) : Gives c s (Frame [] s) := by
  obtain ⟨t, hx, hframe, -⟩ := event_ends (exec_effect h) (.refl [] s)
  exact ⟨t, hx, hframe⟩

theorem hold_ends (hstate : (s.bay n).state = .holding) (hdue : s.due (s.bay n).stepTimer = true) :
    Gives (.holdExpiry n) s fun t =>
      (t.bay n).bare = ((s.bay n).holdEnded.releasing .holdEnd (s.after 60)).bare ∧
        t.requests = s.requests.filter (fun r => decide (r.bay ≠ n)) ∧
        Frame [.bay n, .requests, .releases] s t := by
  have hset := frame_setBay s n (s.bay n).holdEnded
  obtain ⟨hbay, hrequests, -⟩ := releases_enterReleasing (s.setBay n (s.bay n).holdEnded) n .holdEnd
  obtain ⟨t, hx, hframe, hends⟩ := event_ends (c := .holdExpiry n) (L := [.bay n, .requests, .releases])
    (exec_effect (congrArg some (expireHold_due hstate hdue)))
    ((hset.mono (by simp)).trans (frame_enterReleasing _ n _))
  refine ⟨t, hx, ?_, hends.requests.trans (hrequests.trans ?_), hframe⟩
  · rw [hends.bay, hbay, bay_setBay_self, hset.after_eq (by simp)]
  · rw [hset.requests_eq (by simp)]

theorem release_expires (hstate : (s.bay n).state = .releasing) (hdue : s.due (s.bay n).stepTimer = true) :
    Gives (.releaseLimitExpiry n) s fun t =>
      (t.bay n).bare = ((s.bay n).faultedWith .ventFailure).bare ∧ Alerted (baySource n) .ventFailure t ∧
        t.requests = s.requests.filter (fun r => decide (r.bay ≠ n)) ∧ DrainTested s t ∧
        Frame [.bay n, .requests, .notices, .alertSeen, .runState] s t := by
  have hfault := frame_bayFault s n .ventFailure
  obtain ⟨t, hx, hframe, hends⟩ := event_ends (c := .releaseLimitExpiry n)
    (L := [.bay n, .requests, .notices, .alertSeen, .runState])
    (exec_effect (congrArg (fun u : State => some u.drainTest) (expireRelease_due hstate hdue)))
    ((hfault.mono (by simp)).trans ((frame_drainTest _).mono (by simp)))
  refine ⟨t, hx, ?_, hends.alerted ?_, ?_, hends.drainTested (hfault.runState_eq (by simp)), hframe⟩
  · rw [hends.drained_bay, bayFault_bay]
  · exact Alerted.drainTest (alerted_raiseAlert _ _ _)
  · rw [hends.requests, (frame_drainTest _).requests_eq (by simp)]
    rfl

/-- The event of a void, from a state that has changed the bay alone (R18, R108). -/
theorem void_gives {ev : Instr} {i : RosterIndex} {b : Bay} {c : VoidCause} {m : Option Measurements} {settled : Bool}
    (h : effect ev s = some ((s.setBay n b).voidAndAct n c m settled).drainTest) (hindex : (s.bay n).index = some i)
    (hb : b.index = (s.bay n).index) (hvalid : b.validity = (s.bay n).validity) (htesting : (s.entry i).state = .testing)
    (hroute : (s.entry i).route = some .test) (hvoids : (s.entry i).countedVoids ≤ 2)
    (hs : settled = false ∨ c ≠ .zeroLapsed ∧ c ≠ .gauge) : Gives ev s fun t =>
      ActedOnVoid n i c m (c ≠ .eStop) { b with releaseCause := none } s t ∧ DrainTested s t ∧
        Frame (voidActionParts n i) s t := by
  obtain ⟨t, hx, hframe, hends⟩ := event_ends (exec_effect h) (frame_voided rfl (hb.trans hindex) settled)
  refine ⟨t, hx, hends.actedOnVoid (actedOnVoid rfl hindex hb hvalid htesting hroute hvoids c m hs),
    hends.drainTested ?_, hframe⟩
  rw [voidAndAct_runState, (frame_setBay s n b).runState_eq (by simp)]

/-- A cause that calls for the unload decision. -/
theorem ActedOnVoid.toTrack {i : RosterIndex} {c : VoidCause} {m : Option Measurements} {b : Bay} {t : State}
    (h : ActedOnVoid n i c m (c ≠ .eStop) b s t) (hc : c ≠ .eStop) : ActedOnVoid n i c m True b s t := by
  rwa [eq_true hc] at h

end

/-- Settles O54. -/
theorem bayLimits : Obligations.BayLimits := by
  refine ⟨fun s => ⟨after_toNat s, rfl, due_iff s, remaining_eq s⟩,
    fun n s => ⟨fun hstate hdue => limit_releases (congrArg some (expireRise_due hstate hdue)),
      fun h => event_kept (congrArg some (expireRise_early h)), hold_ends,
      fun h => event_kept (congrArg some (expireHold_early h)),
      fun hstate hdue => limit_releases (congrArg some (expirePressurised_due hstate hdue)),
      fun h => event_kept (congrArg some (expirePressurised_early h)), release_expires,
      fun h => eye_ignored (exec_effect (congrArg (fun u : State => some u.drainTest) (expireRelease_early h)))⟩,
    fun n s => ⟨fun i hindex htesting hroute hvoids hstate hdue => ?_,
      fun h => eye_ignored (exec_effect (congrArg (fun u : State => some u.drainTest) (expireFill_early h)))⟩⟩
  obtain ⟨t, hx, hacted, hdrain, hframe⟩ := void_gives (ev := .fillLimitExpiry n) (b := (s.bay n).fillExpired)
    (congrArg (fun u : State => some u.drainTest) (expireFill_due hstate hdue)) hindex rfl rfl htesting hroute hvoids
    (.inl rfl)
  exact ⟨t, hx, hacted.toTrack (by simp), hdrain, hframe⟩

end Sys2Proof.Machine
end

