-- ==== Sys2Proof/Proofs/Settling.lean ====
section
/-! The end of venting (R103, R104), the judgement (R105) and its mark (R32). -/

-- Proofs are checked one after another: the whole text, compiled as one, would otherwise start more threads than fit into the
-- check's memory.
set_option Elab.async false

namespace Sys2Proof.Machine

/-! ## SETTLING entry (R104) -/

/-- A bay in SETTLING, its timer stopped. -/
def Bay.settled (b : Bay) : Bay :=
  { b with state := .settling, outputs := ventAndDoor, stepTimer := none, kept := none }

section

variable {s : State} {n : BayId} {pressure gauge : BitVec 16}

theorem enterSettling_aborts (h : (s.bay n).aborted = true ∨ (s.bay n).releaseCause = some .abort) :
    s.enterSettling n = (s.setBay n (s.bay n).settled).abortAndUnload n := by
  unfold State.enterSettling
  rcases h with h | h
  · exact if_pos h
  · by_cases haborted : (s.bay n).aborted = true
    · exact if_pos haborted
    · dsimp only
      rw [if_neg haborted, h]
      rfl

theorem enterSettling_waits (haborted : (s.bay n).aborted = false)
    (h : (s.bay n).releaseCause = some .holdEnd ∨ (s.bay n).releaseCause = some .rupture) : s.enterSettling n =
      s.setBay n { (s.bay n).settled with stepTimer := some (s.after s.work.settleTime) } := by
  unfold State.enterSettling
  dsimp only
  rw [if_neg (by simp [haborted])]
  rcases h with h | h <;>
    (rw [h]; dsimp only; rw [updBay_eq, updBay_eq, bay_setBay_self, setBay_setBay]; rfl)

theorem enterSettling_voids (haborted : (s.bay n).aborted = false) {c : VoidCause}
    (h : (s.bay n).releaseCause = some (.void c)) :
    s.enterSettling n = (s.setBay n (s.bay n).settled).voidAndAct n c none false := by
  unfold State.enterSettling
  dsimp only
  rw [if_neg (by simp [haborted]), h]
  rfl

/-- A pair below 1.0 bar in RELEASING. -/
theorem sample_settles (hstate : (s.bay n).state = .releasing) (hlow : pressure.toNat < 10) :
    effect (.samplePair n pressure gauge) s =
      some ((s.sampled n pressure.toNat gauge.toNat).enterSettling n).drainTest := by
  rw [effect_samplePair, actOnSample_releasing ((sampled_state s n _ _).trans hstate), if_pos hlow]

theorem releasing_kept (hstate : (s.bay n).state = .releasing) (hhigh : 10 ≤ pressure.toNat) :
    (s.sampled n pressure.toNat gauge.toNat).actOnSample n pressure.toNat gauge.toNat =
      s.sampled n pressure.toNat gauge.toNat := by
  rw [actOnSample_releasing ((sampled_state s n _ _).trans hstate), if_neg (not_lt_of_ge hhigh)]

theorem releasing_waits (hstate : (s.bay n).state = .releasing) (hlow : pressure.toNat < 10)
    (haborted : ((s.bay n).sees pressure.toNat gauge.toNat).aborted = false)
    (hcause : ((s.bay n).sees pressure.toNat gauge.toNat).releaseCause = some .holdEnd ∨
      ((s.bay n).sees pressure.toNat gauge.toNat).releaseCause = some .rupture) :
    Gives (.samplePair n pressure gauge) s fun t =>
      (t.bay n).bare = { (s.bay n).sees pressure.toNat gauge.toNat with
        state := .settling
        outputs := ventAndDoor
        stepTimer := some (s.after s.work.settleTime)
        kept := none }.bare ∧ DrainTested s t ∧ Frame [.bay n, .runState] s t := by
  have hsampled := frame_sampled s n pressure.toNat gauge.toNat
  have hbay := sampled_bay s n pressure.toNat gauge.toNat
  have hsettles := enterSettling_waits (s := s.sampled n pressure.toNat gauge.toNat) (n := n) (by rw [hbay, haborted])
    (by rw [hbay]; exact hcause)
  have hset := frame_setBay (s.sampled n pressure.toNat gauge.toNat) n
    { ((s.sampled n pressure.toNat gauge.toNat).bay n).settled with
      stepTimer := some ((s.sampled n pressure.toNat gauge.toNat).after
        (s.sampled n pressure.toNat gauge.toNat).work.settleTime) }
  obtain ⟨t, hx, hframe, hends⟩ := event_ends (L := [.bay n, .runState])
    (exec_effect ((sample_settles hstate hlow).trans (congrArg (fun u : State => some u.drainTest) hsettles)))
    ((hsampled.mono (by simp)).trans ((hset.mono (by simp)).trans ((frame_drainTest _).mono (by simp))))
  refine ⟨t, hx, ?_, hends.drainTested ((hset.runState_eq (by simp)).trans (hsampled.runState_eq (by simp))), hframe⟩
  rw [hends.drained_bay, bay_setBay_self, hbay, hsampled.after_eq (by simp), hsampled.work_eq (by simp)]
  rfl

theorem releasing_aborts {i : RosterIndex} (hindex : (s.bay n).index = some i)
    (hstate : (s.bay n).state = .releasing) (hlow : pressure.toNat < 10)
    (h : ((s.bay n).sees pressure.toNat gauge.toNat).aborted = true ∨
      ((s.bay n).sees pressure.toNat gauge.toNat).releaseCause = some .abort) :
    Gives (.samplePair n pressure gauge) s fun t =>
      (t.bay n).bare = ((s.bay n).sees pressure.toNat gauge.toNat).unloading.bare ∧ AbortReported i s t ∧
        Claimed (.bay n) s t ∧ DrainTested s t ∧ Frame [.bay n, .claims, .entry i, .runState] s t := by
  have hbay := sampled_bay s n pressure.toNat gauge.toNat
  have hsettles := enterSettling_aborts (s := s.sampled n pressure.toNat gauge.toNat) (n := n) (by rw [hbay]; exact h)
  rw [hbay, State.sampled, setBay_setBay] at hsettles
  have hset := frame_setBay s n ((s.bay n).sees pressure.toNat gauge.toNat).settled
  have hheld : ((s.setBay n ((s.bay n).sees pressure.toNat gauge.toNat).settled).bay n).index = some i := by
    rw [bay_setBay_self]
    exact hindex
  have habort := frame_abortAndUnload_of_index hheld
  obtain ⟨hunloaded, hreported, hclaimed⟩ := abortAndUnload_gives hheld
  obtain ⟨t, hx, hframe, hends⟩ := event_ends (L := [.bay n, .claims, .entry i, .runState])
    (exec_effect ((sample_settles hstate hlow).trans (congrArg (fun u : State => some u.drainTest) hsettles)))
    ((hset.mono (by simp)).trans ((habort.mono (by simp)).trans ((frame_drainTest _).mono (by simp))))
  have hentry : (s.setBay n ((s.bay n).sees pressure.toNat gauge.toNat).settled).entry i = s.entry i := setBay_entry ..
  rw [AbortReported, hentry] at hreported
  rw [Claimed, hset.claims_eq (by simp)] at hclaimed
  refine ⟨t, hx, ?_, ?_, ?_, hends.drainTested ((habort.runState_eq (by simp)).trans (hset.runState_eq (by simp))), hframe⟩
  · rw [hends.drained_bay, hunloaded, bay_setBay_self]
    rfl
  · rw [AbortReported, hends.entry, drainTest_entry]
    exact hreported
  · rw [Claimed, hends.claims, (frame_drainTest _).claims_eq (by simp)]
    exact hclaimed

theorem releasing_voids {i : RosterIndex} (hindex : (s.bay n).index = some i) (hstate : (s.bay n).state = .releasing)
    (hlow : pressure.toNat < 10) (haborted : ((s.bay n).sees pressure.toNat gauge.toNat).aborted = false)
    (htesting : (s.entry i).state = .testing) (hroute : (s.entry i).route = some .test)
    (hvoids : (s.entry i).countedVoids ≤ 2) {c : VoidCause}
    (hcause : ((s.bay n).sees pressure.toNat gauge.toNat).releaseCause = some (.void c)) :
    Gives (.samplePair n pressure gauge) s fun t =>
      ActedOnVoid n i c none (c ≠ .eStop)
          { ((s.bay n).sees pressure.toNat gauge.toNat).settled with releaseCause := none } s t ∧
        DrainTested s t ∧ Frame (voidActionParts n i) s t := by
  have hbay := sampled_bay s n pressure.toNat gauge.toNat
  have hsettles := enterSettling_voids (s := s.sampled n pressure.toNat gauge.toNat) (n := n) (by rw [hbay, haborted])
    (by rw [hbay]; exact hcause)
  rw [hbay, State.sampled, setBay_setBay] at hsettles
  exact void_gives ((sample_settles hstate hlow).trans (congrArg (fun u : State => some u.drainTest) hsettles)) hindex rfl
    rfl htesting hroute hvoids (.inl rfl)

end

/-! ## The judgement (R105) -/

theorem ratioOf_lt {limit ep : Nat} {et : Int} (h : ¬et < 1) :
    limit < ratioOf ep et ↔ (limit : Int) < (ep : Int) * 1000 / et := by
  obtain ⟨k, rfl⟩ := Int.eq_ofNat_of_zero_le (a := et) (by omega)
  rw [ratioOf, Int.toNat_natCast]
  exact_mod_cast Iff.rfl

/-- The seven ordered tests, for an attempt whose hold was completed. -/
theorem judge_eq {b : Bay} {q : Params} {et drop : Int} {ep : Nat} (het : b.et = some et) (hdrop : b.drop = some drop)
    (hep : b.ep = some ep) : b.judge q =
      (if b.ruptured then .inr (.condemn .rupture)
       else if q.dropTolerance < drop then .inl .leak
       else if b.lapsed then .inl .zeroLapsed
       else if et < 1 then .inl .gauge
       else if q.elasticLimit < et then .inr (.condemn .elastic)
       else if (q.ratioLimit : Int) < (ep : Int) * 1000 / et then .inr (.condemn .ratio)
       else .inr .pass) := by
  unfold Bay.judge
  rw [het, hdrop, hep]
  dsimp only [Option.getD_some]
  by_cases hone : et < 1
  · simp only [if_pos hone]
  · simp only [if_neg hone, ratioOf_lt hone]

theorem judge_ruptured {b : Bay} (h : b.ruptured = true) (q : Params) : b.judge q = .inr (.condemn .rupture) := if_pos h

theorem measured_ratio_none {b : Bay} (h : b.et = none ∨ b.ep = none) : b.measured.ratio = none := by
  unfold Bay.measured
  dsimp only
  rcases h with h | h
  · rw [h]
  · rw [h]
    cases b.et <;> rfl

theorem measured_ratio {b : Bay} {et : Int} {ep : Nat} (het : b.et = some et) (hep : b.ep = some ep) :
    b.measured.ratio = if 1 ≤ et then some (min 65535 (ep * 1000 / et.toNat)) else none := by
  unfold Bay.measured
  dsimp only
  rw [het, hep]
  rfl

/-! ## The mark (R30, R32, R33) -/

/-- One decimal digit of a mark. -/
def markDigit (x : Nat) : Byte := BitVec.ofNat 8 (0x30 + x % 10)

theorem composeMark_eq {s : State} {e : Entry} {q : Params} {k : Fin 16} {template serial : List Byte} {d : Date}
    (hq : e.params = some q) (hk : q.template = k.val) (htemplate : s.templates[k] = some template)
    (hserial : e.serial = some serial) (hd : s.date = some d) : s.composeMark e = template.flatMap (fun b =>
      if b = 0x01#8 then s.work.stationCode
      else if b = 0x02#8 then [markDigit (d.month / 10), markDigit d.month]
      else if b = 0x03#8 then [markDigit ((d.year - 2000) / 10), markDigit (d.year - 2000)]
      else if b = 0x04#8 then
        [markDigit (q.testPressure / 100), markDigit (q.testPressure / 10), markDigit q.testPressure]
      else if b = 0x05#8 then serial
      else [b]) := by
  have hcontent : s.templateContent k.val = template := by
    rw [State.templateContent, dif_pos k.isLt]
    exact congrArg (fun o : Option (List Byte) => o.getD []) htemplate
  have hbyte (b : Byte) : s.expandByte e b =
      if b = 0x01#8 then s.work.stationCode
      else if b = 0x02#8 then [markDigit (d.month / 10), markDigit d.month]
      else if b = 0x03#8 then [markDigit ((d.year - 2000) / 10), markDigit (d.year - 2000)]
      else if b = 0x04#8 then
        [markDigit (q.testPressure / 100), markDigit (q.testPressure / 10), markDigit q.testPressure]
      else if b = 0x05#8 then serial
      else [b] := by
    unfold State.expandByte
    rw [hd, hq, hserial]
    rfl
  have hnumber : (e.params.map Params.template).getD 0 = k.val := by
    rw [hq]
    exact hk
  unfold State.composeMark
  rw [hnumber, hcontent]
  exact congrArg (fun f => template.flatMap f) (funext hbyte)

end Sys2Proof.Machine
end

