-- ==== Sys2Proof/Proofs/SettleExpiry.lean ====
section
/-! SETTLE_EXPIRY (R104, R105, R107, R108): the judgement is reported, and the bay acts on the answer. -/

-- Proofs are checked one after another: the whole text, compiled as one, would otherwise start more threads than fit into the
-- check's memory.
set_option Elab.async false

namespace Sys2Proof.Machine

/-- A bay at the expiry of its settle timer: Ep is taken after a completed hold. -/
def Bay.settleDue (b : Bay) : Bay :=
  { b with
    stepTimer := none
    ep := if b.releaseCause = some ReleaseCause.holdEnd then some (b.latestGauge - b.baseline.getD 0) else b.ep }

section

variable {s : State} {n : BayId} {i : RosterIndex} {q : Params}

/-! ## The effect -/

theorem expireSettle_due (hstate : (s.bay n).state = .settling) (hdue : s.due (s.bay n).stepTimer = true)
    (hcause : (s.bay n).releaseCause = some .holdEnd ∨ (s.bay n).releaseCause = some .rupture) :
    s.expireSettle n = (s.setBay n (s.bay n).settleDue).judgeBay n := by
  unfold State.expireSettle
  rw [if_pos ((stepDue_iff s n _).mpr ⟨hstate, hdue⟩)]
  rcases hcause with h | h
  · have hb : (s.bay n).settleDue = { (s.bay n).takeEp with stepTimer := none } := by
      unfold Bay.settleDue
      rw [if_pos h]
      rfl
    rw [h, hb]
    rfl
  · have hb : (s.bay n).settleDue = { s.bay n with stepTimer := none } := by
      unfold Bay.settleDue
      rw [if_neg (by simp [h])]
    rw [h, hb]
    rfl

theorem expireSettle_early (h : (s.bay n).state ≠ .settling ∨ s.due (s.bay n).stepTimer = false) :
    s.expireSettle n = s := if_neg (stepDue_early h)

/-- The state in which the bay judges. -/
def State.settleEnded (s : State) (n : BayId) : State := s.setBay n (s.bay n).settleDue

theorem settleEnded_bay (s : State) (n : BayId) : (s.settleEnded n).bay n = (s.bay n).settleDue := bay_setBay_self ..

theorem settleEnded_entry (s : State) (n : BayId) (j : RosterIndex) : (s.settleEnded n).entry j = s.entry j :=
  setBay_entry ..

theorem frame_settleEnded (s : State) (n : BayId) : Frame [.bay n] s (s.settleEnded n) := frame_setBay s n _

theorem judgeBay_eq (hindex : (s.bay n).index = some i) (hq : (s.entry i).params = some q) :
    s.judgeBay n = s.reportJudgement n i q := by
  unfold State.judgeBay
  rw [hindex]
  dsimp only
  rw [hq]

theorem reportJudgement_verdict {v : Verdict} (h : (s.bay n).judge q = .inr v) :
    s.reportJudgement n i q = (s.reportVerdict i v (s.bay n).measured).unloadToOutfeed n := by
  unfold State.reportJudgement
  dsimp only
  rw [h]

theorem reportJudgement_gauge (h : (s.bay n).judge q = .inl .gauge) : s.reportJudgement n i q =
    (s.setBay n { s.bay n with validity := 0 }).voidAndAct n .gauge (some (s.bay n).measured) true := by
  unfold State.reportJudgement
  dsimp only
  rw [h]
  rfl

theorem reportJudgement_void {c : VoidCause} (h : (s.bay n).judge q = .inl c) (hc : c ≠ .gauge) :
    s.reportJudgement n i q = s.voidAndAct n c (some (s.bay n).measured) true := by
  unfold State.reportJudgement
  dsimp only
  rw [h]
  cases c <;> first | exact absurd rfl hc | rfl

/-- The event, its judgement known. -/
theorem effect_settleExpiry {u : State} (hindex : (s.bay n).index = some i) (hq : (s.entry i).params = some q)
    (hstate : (s.bay n).state = .settling) (hdue : s.due (s.bay n).stepTimer = true)
    (hcause : (s.bay n).releaseCause = some .holdEnd ∨ (s.bay n).releaseCause = some .rupture)
    (h : (s.settleEnded n).reportJudgement n i q = u) : effect (.settleExpiry n) s = some u.drainTest := by
  have hjudge : s.expireSettle n = u := by
    rw [expireSettle_due hstate hdue hcause, ← State.settleEnded,
      judgeBay_eq (i := i) (q := q) (by rw [settleEnded_bay]; exact hindex) (by rw [settleEnded_entry, hq]), h]
  exact congrArg (fun u : State => some u.drainTest) hjudge

/-! ## A verdict (R19, R107) -/

theorem judged_fields (s : State) (v : Verdict) (m : Measurements) (e : Entry) : (s.judged v m e).meas = m ∧
    (s.judged v m e).verdict = some v ∧ (s.judged v m e).verdictTime = some s.lineSeconds ∧
    (v = .pass → (s.judged v m e).route = some .stamp ∧ (s.judged v m e).mark = some (s.composeMark e)) ∧
    (v = .notDue → (s.judged v m e).route = e.route) ∧
    (v ≠ .pass → v ≠ .notDue → (s.judged v m e).route = some .deface) := by
  cases v with
  | pass => exact ⟨rfl, rfl, rfl, fun _ => ⟨rfl, rfl⟩, (nomatch ·), fun h => absurd rfl h⟩
  | condemn r => exact ⟨rfl, rfl, rfl, (nomatch ·), (nomatch ·), fun _ _ => rfl⟩
  | notDue => exact ⟨rfl, rfl, rfl, (nomatch ·), fun _ => rfl, fun _ h => absurd rfl h⟩

theorem judged_route {v : Verdict} {e : Entry} (h : e.route = some .test) (s : State) (m : Measurements) :
    (s.judged v m e).route = if v = .pass then some .stamp else if v = .notDue then some .test else some .deface := by
  obtain ⟨-, -, -, hpass, hnotDue, hcondemn⟩ := judged_fields s v m e
  by_cases hp : v = .pass
  · rw [if_pos hp, (hpass hp).1]
  · rw [if_neg hp]
    by_cases hd : v = .notDue
    · rw [if_pos hd, hnotDue hd, h]
    · rw [if_neg hd, hcondemn hp hd]

theorem reportVerdict_entry (hlive : (s.entry i).state.live = true) (hroute : (s.entry i).route = some .test)
    (v : Verdict) (m : Measurements) : (s.reportVerdict i v m).entry i =
      { s.judged v m (s.entry i) with editCount := (s.entry i).editCount + 2#8 } := by
  rw [State.reportVerdict, if_pos ⟨hlive, hroute⟩, editEntry_eq, entry_setEntry, if_pos rfl]

theorem reportVerdict_dropped (hroute : (s.entry i).route ≠ some .test) (v : Verdict) (m : Measurements) :
    s.reportVerdict i v m = s := if_neg fun h => hroute h.2

theorem settle_verdict (hindex : (s.bay n).index = some i) (hq : (s.entry i).params = some q)
    (htesting : (s.entry i).state = .testing) (hroute : (s.entry i).route = some .test)
    (hstate : (s.bay n).state = .settling) (hdue : s.due (s.bay n).stepTimer = true)
    (hcause : (s.bay n).releaseCause = some .holdEnd ∨ (s.bay n).releaseCause = some .rupture) {v : Verdict}
    (hv : (s.bay n).settleDue.judge q = .inr v) : Gives (.settleExpiry n) s fun t =>
      ((t.entry i).meas = (s.bay n).settleDue.measured ∧ (t.entry i).verdict = some v ∧
          (t.entry i).verdictTime = some s.lineSeconds ∧
          (t.entry i).route = (if v = .pass then some .stamp else if v = .notDue then some .test else some .deface) ∧
          (v = .pass → (t.entry i).mark = some (s.composeMark (s.entry i))) ∧
          (t.entry i).editCount = (s.entry i).editCount + 2#8) ∧
        (t.bay n).bare = (s.bay n).settleDue.unloading.bare ∧ Claimed (.bay n) s t ∧ DrainTested s t ∧
        Frame [.bay n, .claims, .entry i, .runState] s t := by
  have hbay := settleEnded_bay s n
  have hended := frame_settleEnded s n
  have hverdict := frame_reportVerdict (s.settleEnded n) i v (s.bay n).settleDue.measured
  have hunload := frame_unloadToOutfeed ((s.settleEnded n).reportVerdict i v (s.bay n).settleDue.measured) n
  have hjudged := reportJudgement_verdict (i := i) (s := s.settleEnded n) (n := n) (by rw [hbay, hv])
  rw [hbay] at hjudged
  obtain ⟨t, hx, hframe, hends⟩ := event_ends (L := [.bay n, .claims, .entry i, .runState])
    (exec_effect (effect_settleExpiry hindex hq hstate hdue hcause hjudged))
    ((hended.mono (by simp)).trans ((hverdict.mono (by simp)).trans ((hunload.mono (by simp)).trans
      ((frame_drainTest _).mono (by simp)))))
  have hentry : t.entry i = { (s.settleEnded n).judged v (s.bay n).settleDue.measured (s.entry i) with
      editCount := (s.entry i).editCount + 2#8 } := by
    rw [hends.entry, drainTest_entry, unloadToOutfeed_entry,
      reportVerdict_entry (by rw [settleEnded_entry, htesting]; rfl) (by rw [settleEnded_entry, hroute]), settleEnded_entry]
  obtain ⟨hmeas, hset, htime, hpass, -, -⟩ :=
    judged_fields (s.settleEnded n) v (s.bay n).settleDue.measured (s.entry i)
  refine ⟨t, hx, ⟨?_, ?_, ?_, ?_, fun hp => ?_, ?_⟩, ?_, ?_, hends.drainTested ?_, hframe⟩
  · rw [hentry]
    exact hmeas
  · rw [hentry]
    exact hset
  · rw [hentry]
    exact htime
  · rw [hentry]
    exact judged_route hroute _ _
  · rw [hentry]
    exact (hpass hp).2
  · rw [hentry]
  · rw [hends.drained_bay, unloadToOutfeed_bay, hverdict.bay_eq (by simp), hbay]
  · have hclaimed := claimed_unloadToOutfeed ((s.settleEnded n).reportVerdict i v (s.bay n).settleDue.measured) n
    rw [Claimed, hverdict.claims_eq (by simp), hended.claims_eq (by simp)] at hclaimed
    rw [Claimed, hends.claims, (frame_drainTest _).claims_eq (by simp)]
    exact hclaimed
  · rw [hunload.runState_eq (by simp), hverdict.runState_eq (by simp), hended.runState_eq (by simp)]

/-! ## A void at the settle expiry (R108, R109) -/

/-- The validity that the void GAUGE sets to 0. -/
def Bay.validFor (b : Bay) (c : VoidCause) : Bay := { b with validity := if c = VoidCause.gauge then 0 else b.validity }

theorem settle_voids {c : VoidCause} (hc : c = .zeroLapsed ∨ c = .gauge)
    (hjudge : (s.bay n).settleDue.judge q = .inl c) : (s.settleEnded n).reportJudgement n i q =
      (s.setBay n ((s.bay n).settleDue.validFor c)).voidAndAct n c (some (s.bay n).settleDue.measured) true := by
  have hbay := settleEnded_bay s n
  rcases hc with rfl | rfl
  · rw [reportJudgement_void (s := s.settleEnded n) (n := n) (by rw [hbay, hjudge]) (by simp), hbay]
    rfl
  · rw [reportJudgement_gauge (s := s.settleEnded n) (n := n) (by rw [hbay, hjudge]), hbay, State.settleEnded, setBay_setBay]
    rfl

theorem zeroingStep_stopped (h : s.runState = .eStopped) (rp : ResumePoint) :
    s.zeroingStep n rp = s.keepStep n (.zeroing rp) := if_pos (stopped_eq_true h)

theorem settle_lapsed (hindex : (s.bay n).index = some i) (hq : (s.entry i).params = some q)
    (htesting : (s.entry i).state = .testing) (hroute : (s.entry i).route = some .test)
    (hstate : (s.bay n).state = .settling) (hdue : s.due (s.bay n).stepTimer = true)
    (hcause : (s.bay n).releaseCause = some .holdEnd ∨ (s.bay n).releaseCause = some .rupture) {c : VoidCause}
    (hjudge : (s.bay n).settleDue.judge q = .inl c) (hc : c = .zeroLapsed ∨ c = .gauge) :
    Gives (.settleExpiry n) s fun t =>
      t.entry i = ((s.entry i).voided s.lineSeconds c (some (s.bay n).settleDue.measured)).edited ∧
        (s.runState ≠ .eStopped → (t.bay n).bare =
          (((s.bay n).settleDue.validFor c).checking (some .unloadDecision) (s.after 40)).bare) ∧
        (s.runState = .eStopped → (t.bay n).state = .settling ∧
          (t.bay n).kept = some (.zeroing .unloadDecision) ∧ (t.bay n).outputs.vent = true ∧
          (t.bay n).validity = (if c = VoidCause.gauge then 0 else (s.bay n).settleDue.validity)) ∧
        DrainTested s t ∧ Frame [.bay n, .entry i, .runState] s t := by
  have hset := frame_setBay s n ((s.bay n).settleDue.validFor c)
  have hself := bay_setBay_self s n ((s.bay n).settleDue.validFor c)
  have hw := frame_voidTold (s.setBay n ((s.bay n).settleDue.validFor c)) n i c (some (s.bay n).settleDue.measured)
  have hwentry : ((s.setBay n ((s.bay n).settleDue.validFor c)).voidTold n i c
      (some (s.bay n).settleDue.measured)).entry i =
        ((s.entry i).voided s.lineSeconds c (some (s.bay n).settleDue.measured)).edited := by
    have hentry : (s.setBay n ((s.bay n).settleDue.validFor c)).entry i = s.entry i := setBay_entry ..
    rw [voidTold_entry (by rw [hentry, htesting]; rfl) (by rw [hentry, hroute]), hentry, hset.lineSeconds_eq (by simp)]
  have hcounted : c.counted = false := by rcases hc with rfl | rfl <;> rfl
  have htest : (((s.setBay n ((s.bay n).settleDue.validFor c)).voidTold n i c
      (some (s.bay n).settleDue.measured)).entry i).route = some .test := by
    rw [hwentry, voided_not_counted hcounted]
    exact hroute
  have hacts := (settle_voids (i := i) hc hjudge).trans
    (voidAndAct_settled (by rw [hself]; exact hindex) htest hc)
  have hstep := frame_zeroingStep ((s.setBay n ((s.bay n).settleDue.validFor c)).voidTold n i c
    (some (s.bay n).settleDue.measured)) n .unloadDecision
  have hwbay := voidTold_bay (s.setBay n ((s.bay n).settleDue.validFor c)) n i c (some (s.bay n).settleDue.measured)
  rw [hself] at hwbay
  have hwrun := (hw.runState_eq (by simp)).trans (hset.runState_eq (by simp))
  obtain ⟨t, hx, hframe, hends⟩ := event_ends (L := [.bay n, .entry i, .runState])
    (exec_effect (effect_settleExpiry hindex hq hstate hdue hcause hacts))
    ((hset.mono (by simp)).trans ((hw.mono (by simp)).trans ((hstep.mono (by simp)).trans
      ((frame_drainTest _).mono (by simp)))))
  have hshown := hends.drained_bay n
  refine ⟨t, hx, ?_, fun hrun => ?_, fun hrun => ?_, hends.drainTested ((hstep.runState_eq (by simp)).trans hwrun), hframe⟩
  · rw [hends.entry, drainTest_entry, hstep.entry_eq (by simp), hwentry]
  · rw [hshown, zeroingStep_running (hwrun ▸ hrun), enterZeroing_bay n _ (stopped_eq_false (hwrun ▸ hrun)), hwbay,
      hw.after_eq (by simp), hset.after_eq (by simp)]
    rfl
  · rw [zeroingStep_stopped (hwrun.trans hrun), keepStep_bay, hwbay] at hshown
    exact ⟨congr(Bay.state $hshown).trans hstate, congr(Bay.kept $hshown), congr((Bay.outputs $hshown).vent),
      congr(Bay.validity $hshown)⟩

/-! ## A cylinder whose route is no longer TEST (R18, R19, R107) -/

theorem voidAndAct_dropped {c : VoidCause} {m : Option Measurements} (hindex : (s.bay n).index = some i)
    (hroute : (s.entry i).route ≠ some .test) (settled : Bool) :
    s.voidAndAct n c m settled = (s.setBay n { s.bay n with releaseCause := none }).unloadToOutfeed n := by
  have htold : s.voidTold n i c m = s.setBay n { s.bay n with releaseCause := none } := by
    rw [State.voidTold, reportVoid_dropped hroute]
  rw [voidAndAct_exhausted hindex, htold]
  rw [htold, setBay_entry]
  exact hroute

/-- Whatever the judgement, the report is dropped and the bay unloads. -/
theorem reportJudgement_dropped (hindex : (s.bay n).index = some i) (hroute : (s.entry i).route ≠ some .test) :
    ∃ b : Bay, s.reportJudgement n i q = (s.setBay n b).unloadToOutfeed n ∧ b.index = some i := by
  cases hjudge : (s.bay n).judge q with
  | inr v =>
    refine ⟨s.bay n, ?_, hindex⟩
    rw [reportJudgement_verdict hjudge, reportVerdict_dropped hroute, State.unloadToOutfeed, State.unloadToOutfeed,
      updBay_eq, updBay_eq, bay_setBay_self, setBay_setBay]
  | inl c =>
    by_cases hc : c = .gauge
    · subst hc
      refine ⟨{ s.bay n with validity := 0, releaseCause := none }, ?_, hindex⟩
      rw [reportJudgement_gauge hjudge, voidAndAct_dropped (i := i) (by rw [bay_setBay_self]; exact hindex)
        (by rw [setBay_entry]; exact hroute), bay_setBay_self, setBay_setBay]
    · refine ⟨{ s.bay n with releaseCause := none }, ?_, hindex⟩
      rw [reportJudgement_void hjudge hc, voidAndAct_dropped hindex hroute]

theorem settle_dropped (hindex : (s.bay n).index = some i) (hq : (s.entry i).params = some q)
    (hroute : (s.entry i).route ≠ some .test) (hstate : (s.bay n).state = .settling)
    (hdue : s.due (s.bay n).stepTimer = true)
    (hcause : (s.bay n).releaseCause = some .holdEnd ∨ (s.bay n).releaseCause = some .rupture) :
    Gives (.settleExpiry n) s fun t =>
      (t.bay n).state = .unloading ∧ (t.bay n).outputs = BayOutputs.rest ∧ (t.bay n).index = some i ∧
        (t.bay n).stepTimer = none ∧ (t.bay n).releaseCause = none ∧ Claimed (.bay n) s t ∧ DrainTested s t ∧
        Frame [.bay n, .claims, .runState] s t := by
  obtain ⟨b, heq, hb⟩ := reportJudgement_dropped (s := s.settleEnded n) (n := n) (i := i) (q := q)
    (by rw [settleEnded_bay]; exact hindex) (by rw [settleEnded_entry]; exact hroute)
  rw [State.settleEnded, setBay_setBay, ← State.settleEnded] at heq
  have hset := frame_setBay s n b
  have hunload := frame_unloadToOutfeed (s.setBay n b) n
  obtain ⟨t, hx, hframe, hends⟩ := event_ends (L := [.bay n, .claims, .runState])
    (exec_effect (effect_settleExpiry hindex hq hstate hdue hcause heq))
    ((hset.mono (by simp)).trans ((hunload.mono (by simp)).trans ((frame_drainTest _).mono (by simp))))
  have hshown := hends.drained_bay n
  rw [unloadToOutfeed_bay, bay_setBay_self] at hshown
  refine ⟨t, hx, congr(Bay.state $hshown), congr(Bay.outputs $hshown), congr(Bay.index $hshown).trans hb,
    congr(Bay.stepTimer $hshown), congr(Bay.releaseCause $hshown), ?_,
    hends.drainTested ((hunload.runState_eq (by simp)).trans (hset.runState_eq (by simp))), hframe⟩
  have hclaimed := claimed_unloadToOutfeed (s.setBay n b) n
  rw [Claimed, hset.claims_eq (by simp)] at hclaimed
  rw [Claimed, hends.claims, (frame_drainTest _).claims_eq (by simp)]
  exact hclaimed

end

/-- Settles O55. -/
theorem settlingAndVerdict : Obligations.SettlingAndVerdict := by
  refine ⟨fun n pressure gauge s hstate => ⟨fun hhigh => sample_recorded (releasing_kept hstate hhigh),
      fun hlow haborted hcause => releasing_waits hstate hlow haborted hcause,
      fun i hindex hlow h => releasing_aborts hindex hstate hlow h,
      fun i hindex hlow haborted htesting hroute hvoids c hcause =>
        releasing_voids hindex hstate hlow haborted htesting hroute hvoids hcause⟩,
    fun b q et drop ep het hdrop hep => judge_eq het hdrop hep, fun b q h => judge_ruptured h q,
    fun b => ⟨⟨rfl, rfl, rfl, rfl, rfl⟩, measured_ratio_none, fun et ep het hep => ⟨fun h => ?_, fun h => ?_⟩⟩,
    fun s e q k template serial d hq hk htemplate hserial hd => composeMark_eq hq hk htemplate hserial hd,
    fun n s => ⟨fun i hindex q hq htesting hroute hstate hdue hcause =>
      ⟨fun v hv => settle_verdict hindex hq htesting hroute hstate hdue hcause hv, fun hleak hvoids => ?_,
        fun c hjudge hc => settle_lapsed hindex hq htesting hroute hstate hdue hcause hjudge hc⟩,
      fun i hindex q hq hroute hstate hdue hcause => settle_dropped hindex hq hroute hstate hdue hcause,
      fun h => eye_ignored (exec_effect (congrArg (fun u : State => some u.drainTest) (expireSettle_early h)))⟩⟩
  · rw [measured_ratio het hep, if_neg (by omega)]
  · rw [measured_ratio het hep, if_pos h]
  · have hbay := settleEnded_bay s n
    have hvoid := reportJudgement_void (i := i) (s := s.settleEnded n) (n := n) (q := q) (c := .leak)
      (by rw [hbay]; exact hleak) (by simp)
    rw [hbay] at hvoid
    obtain ⟨t, hx, hacted, hdrain, hframe⟩ := void_gives (b := (s.bay n).settleDue)
      (effect_settleExpiry hindex hq hstate hdue hcause hvoid) hindex rfl rfl htesting hroute hvoids (.inr (by simp))
    exact ⟨t, hx, hacted.toTrack (by simp), hdrain, hframe⟩

end Sys2Proof.Machine
end

