-- ==== Sys2Proof/Proofs/CheckRules.lean ====
section
/-! CHECK_EXPIRY (R109, R125, R126, R127): the steps of a zero check. -/

-- Proofs are checked one after another: the whole text, compiled as one, would otherwise start more threads than fit into the
-- check's memory.
set_option Elab.async false

namespace Sys2Proof.Machine

section

variable {s : State} {n : BayId} {i : RosterIndex}

/-! ## A further check (R124) -/

/-- A bay with a check just begun. -/
def Bay.rechecking (b : Bay) (expiry : Seconds) : Bay := { b with stepTimer := some expiry, sampleSeen := false }

theorem beginCheck_eq (s : State) (n : BayId) : s.beginCheck n = s.setBay n ((s.bay n).rechecking (s.after 40)) := rfl

theorem beginCheck_setBay (s : State) (n : BayId) (b : Bay) :
    (s.setBay n b).beginCheck n = s.setBay n (b.rechecking (s.after 40)) := by
  rw [beginCheck_eq, bay_setBay_self, setBay_setBay]
  rfl

/-! ## A failure (R126) -/

theorem checkFailed_first (h : (s.bay n).failures = 0) :
    s.checkFailed n = s.setBay n ({ s.bay n with failures := 1 }.rechecking (s.after 40)) := by
  unfold State.checkFailed
  rw [if_pos h, updBay_eq, beginCheck_setBay]

/-- The bay at its second failure in a row, before it enters FAULT. -/
def Bay.checkLost (b : Bay) : Bay := { b with failures := 0, validity := 0 }

/-- The attempt that a second failure ends: the bay checks for a request or a suspension, and holds a cylinder. -/
def Bay.checksAttempt (b : Bay) : Prop := b.resume = some .request ∨ b.resume = some .suspend

/-- The second failure of a bay with an attempt, its void reported. -/
def State.attemptLost (s : State) (n : BayId) (i : RosterIndex) : State :=
  ((s.setBay n (s.bay n).checkLost).reportVoid i .gauge none).setBay n
    { (s.bay n).checkLost with resume := some .fill }

theorem checkFailed_attempt (h : (s.bay n).failures ≠ 0) (hattempt : (s.bay n).checksAttempt)
    (hindex : (s.bay n).index = some i) : s.checkFailed n = (s.attemptLost n i).bayFault n .gaugeDrift := by
  unfold State.checkFailed
  rw [if_neg h]
  dsimp only
  rcases hattempt with hr | hr <;>
    (rw [hr, hindex]; dsimp only; rw [updBay_eq, updBay_eq, reportVoid_bay, bay_setBay_self]; rfl)

theorem checkFailed_empty (h : (s.bay n).failures ≠ 0)
    (hno : ¬((s.bay n).checksAttempt ∧ (s.bay n).index.isSome = true)) :
    s.checkFailed n = (s.setBay n (s.bay n).checkLost).bayFault n .gaugeDrift := by
  unfold State.checkFailed
  rw [if_neg h]
  dsimp only
  split
  · exact absurd ⟨.inl ‹_›, by simp [‹(s.bay n).index = _›]⟩ hno
  · exact absurd ⟨.inr ‹_›, by simp [‹(s.bay n).index = _›]⟩ hno
  · rfl

/-! ## The judgement of a check (R125) -/

/-- A bay that has stored its first zero reference. -/
def Bay.referenced (b : Bay) : Bay :=
  { b with
    lastZeroReading := some b.latestGauge
    zeroReference := some b.latestGauge
    lastDrift := none
    checksOwed := b.checksOwed - 1
    failures := 0 }

/-- A bay whose check has passed with a drift. -/
def Bay.renewed (b : Bay) (drift interval : Nat) : Bay :=
  { b with
    lastZeroReading := some b.latestGauge
    zeroReference := some b.latestGauge
    lastDrift := some drift
    validity := interval
    checksOwed := b.checksOwed - 1
    failures := 0 }

/-- A bay whose check has failed by its drift. -/
def Bay.drifted (b : Bay) (drift : Nat) : Bay :=
  { b with stepTimer := none, lastZeroReading := some b.latestGauge, lastDrift := some drift }

/-- A bay whose check saw no pair. -/
def Bay.unsampled (b : Bay) : Bay := { b with stepTimer := none, lastZeroReading := none, lastDrift := none }

theorem judgeCheck_unsampled (h : (s.bay n).sampleSeen = false) :
    s.judgeCheck n = (s.setBay n (s.bay n).unsampled).checkFailed n := by
  unfold State.judgeCheck
  dsimp only
  rw [if_pos h]
  rfl

theorem judgeCheck_stores (hseen : (s.bay n).sampleSeen = true) (h : (s.bay n).zeroReference = none) :
    s.judgeCheck n = s.setBay n ((s.bay n).referenced.rechecking (s.after 40)) := by
  unfold State.judgeCheck
  dsimp only
  rw [if_neg (by simp [hseen]), h]
  dsimp only
  rw [updBay_eq, beginCheck_setBay]
  rfl

theorem judgeCheck_passes {z : Nat} (hseen : (s.bay n).sampleSeen = true) (h : (s.bay n).zeroReference = some z)
    (hdrift : driftOf (s.bay n).latestGauge z ≤ s.work.driftLimit) : s.judgeCheck n =
      if 1 < (s.bay n).checksOwed then
        s.setBay n (((s.bay n).renewed (driftOf (s.bay n).latestGauge z) s.work.zeroInterval).rechecking (s.after 40))
      else (s.setBay n { (s.bay n).renewed (driftOf (s.bay n).latestGauge z) s.work.zeroInterval with
        stepTimer := none }).endZeroing n := by
  unfold State.judgeCheck
  dsimp only
  rw [if_neg (by simp [hseen]), h]
  dsimp only
  rw [if_pos hdrift, updBay_eq, beginCheck_setBay]
  rfl

theorem judgeCheck_drifts {z : Nat} (hseen : (s.bay n).sampleSeen = true) (h : (s.bay n).zeroReference = some z)
    (hdrift : s.work.driftLimit < driftOf (s.bay n).latestGauge z) :
    s.judgeCheck n = (s.setBay n ((s.bay n).drifted (driftOf (s.bay n).latestGauge z))).checkFailed n := by
  unfold State.judgeCheck
  dsimp only
  rw [if_neg (by simp [hseen]), h]
  dsimp only
  rw [if_neg (not_le_of_gt hdrift)]
  rfl

theorem effect_checkExpiry (hstate : (s.bay n).state = .zeroing) (hdue : s.due (s.bay n).stepTimer = true) :
    effect (.checkExpiry n) s = some (s.judgeCheck n).drainTest := by
  have hexpire : s.expireCheck n = s.judgeCheck n := if_pos ((stepDue_iff s n _).mpr ⟨hstate, hdue⟩)
  exact congrArg (fun u : State => some u.drainTest) hexpire

theorem expireCheck_early (h : (s.bay n).state ≠ .zeroing ∨ s.due (s.bay n).stepTimer = false) :
    s.expireCheck n = s := if_neg (stepDue_early h)

/-! ## The end of a stay in ZEROING (R109, R127) -/

/-- The stay is over, and the bay has not yet gone on. -/
def State.zeroed (s : State) (n : BayId) : State := s.setBay n { s.bay n with failures := 0, resume := none }

theorem zeroed_bay (s : State) (n : BayId) : (s.zeroed n).bay n = { s.bay n with failures := 0, resume := none } :=
  bay_setBay_self ..

theorem frame_zeroed (s : State) (n : BayId) : Frame [.bay n] s (s.zeroed n) := frame_setBay s n _

theorem endZeroing_empty (h : (s.bay n).index = none) : s.endZeroing n = (s.zeroed n).enterIdle n := by
  unfold State.endZeroing
  rw [h]
  rfl

/-- A bay in SUSPENDED after its check, its baseline taken. -/
def Bay.resuspended (b : Bay) : Bay :=
  { b with
    state := .suspended
    outputs := doorOnly
    baseline := some b.latestGauge
    suspendedFrom := some .awaitIntensifier
    stepTimer := none
    kept := none }

theorem endZeroing_request (h : (s.bay n).index = some i) (hr : (s.bay n).resume = some .request) :
    s.endZeroing n = (s.zeroed n).fillComplete n := by
  unfold State.endZeroing
  rw [h, hr]
  rfl

theorem endZeroing_suspend (h : (s.bay n).index = some i) (hr : (s.bay n).resume = some .suspend) :
    s.endZeroing n = ((s.zeroed n).setBay n ((s.zeroed n).bay n).resuspended).testShortfall n := by
  unfold State.endZeroing
  rw [h, hr]
  rfl

theorem endZeroing_unload (h : (s.bay n).index = some i) (hr : (s.bay n).resume = some .unloadDecision) :
    s.endZeroing n = (s.zeroed n).unloadDecision n := by
  unfold State.endZeroing
  rw [h, hr]
  rfl

theorem endZeroing_fill (h : (s.bay n).index = some i) (hr : (s.bay n).resume = some .fill ∨ (s.bay n).resume = none) :
    s.endZeroing n = (s.zeroed n).enterFilling n := by
  unfold State.endZeroing
  rcases hr with hr | hr <;> (rw [h, hr]; rfl)

theorem frame_ontoTrack (s : State) (n : BayId) (i : RosterIndex) :
    Frame [.bay n, .lane (laneOf n), .entry i] s (s.ontoTrack n i) :=
  ((frame_setBay s n _).mono (by simp)).trans
    (((frame_setLane _ _ _).mono (by simp)).trans ((frame_reportBegin _ _ _).mono (by simp [itemParts])))

/-- The unload decision changes no claim. -/
theorem frame_unloadDecision_held (h : (s.bay n).index = some i) :
    Frame (.lane (laneOf n) :: .entry i :: requestParts n) s (s.unloadDecision n) := by
  by_cases hroom : TrackRoom (laneOf n) s
  · rw [unloadDecision_room h hroom]
    exact (frame_ontoTrack s n i).mono (by simp [requestParts])
  · rw [unloadDecision_stays h hroom]
    exact (frame_fillStep s n).mono (by simp [heldParts, h])

theorem frame_endZeroing (h : (s.bay n).index = some i) :
    Frame (.lane (laneOf n) :: .entry i :: requestParts n) s (s.endZeroing n) := by
  have hz := (frame_zeroed s n).mono (M := .lane (laneOf n) :: .entry i :: requestParts n) (by simp [requestParts])
  have hindex : ((s.zeroed n).bay n).index = some i := by
    rw [zeroed_bay]
    exact h
  have hfill : Frame (.lane (laneOf n) :: .entry i :: requestParts n) (s.zeroed n) ((s.zeroed n).enterFilling n) :=
    (frame_enterFilling _ n).mono (by simp [heldParts, hindex])
  cases hr : (s.bay n).resume with
  | none =>
    rw [endZeroing_fill h (.inr hr)]
    exact hz.trans hfill
  | some rp =>
    cases rp with
    | fill =>
      rw [endZeroing_fill h (.inl hr)]
      exact hz.trans hfill
    | request =>
      rw [endZeroing_request h hr]
      exact hz.trans ((frame_fillComplete _ n).mono (by simp))
    | suspend =>
      rw [endZeroing_suspend h hr]
      exact hz.trans (((frame_setBay _ n _).mono (by simp [requestParts])).trans
        ((frame_testShortfall _ n).mono (by simp [requestParts])))
    | unloadDecision =>
      rw [endZeroing_unload h hr]
      exact hz.trans (frame_unloadDecision_held hindex)

theorem short_enough {q : Params} (hq : s.bayParams n = some q) (h : s.allowance q ≤ (s.bay n).validity) :
    s.short n = false := by
  unfold State.short
  rw [hq]
  exact decide_eq_false (not_lt_of_ge h)

theorem zeroed_short (s : State) (n : BayId) : (s.zeroed n).short n = s.short n :=
  short_congr (by rw [zeroed_bay]) (by rw [zeroed_bay]) (fun _ => setBay_entry ..)
    ((frame_zeroed s n).work_eq (by simp))

end

end Sys2Proof.Machine
end

