-- ==== Sys2Proof/Proofs/CheckExpiry.lean ====
section
/-! CHECK_EXPIRY (R109, R125, R126, R127), to the end of the event. -/

-- Proofs are checked one after another: the whole text, compiled as one, would otherwise start more threads than fit into the
-- check's memory.
set_option Elab.async false

namespace Sys2Proof.Machine

section

variable {s : State} {n : BayId}

/-- A check that leaves the bay in ZEROING. -/
theorem check_set {b : Bay} (hstate : (s.bay n).state = .zeroing) (hdue : s.due (s.bay n).stepTimer = true)
    (h : s.judgeCheck n = s.setBay n b) : Gives (.checkExpiry n) s fun t =>
      (t.bay n).bare = b.bare ∧ DrainTested s t ∧ Frame [.bay n, .runState] s t := by
  have hset := frame_setBay s n b
  obtain ⟨t, hx, hframe, hends⟩ := event_ends (L := [.bay n, .runState])
    (exec_effect ((effect_checkExpiry hstate hdue).trans (congrArg (fun u : State => some u.drainTest) h)))
    ((hset.mono (by simp)).trans ((frame_drainTest _).mono (by simp)))
  exact ⟨t, hx, by rw [hends.drained_bay, bay_setBay_self], hends.drainTested (hset.runState_eq (by simp)), hframe⟩

/-- A first failure, from the bay `b` that the check leaves. -/
theorem check_repeats {b : Bay} (hstate : (s.bay n).state = .zeroing) (hdue : s.due (s.bay n).stepTimer = true)
    (h : s.judgeCheck n = (s.setBay n b).checkFailed n) (hb : b.failures = 0) : Gives (.checkExpiry n) s fun t =>
      (t.bay n).bare = ({ b with failures := 1 }.rechecking (s.after 40)).bare ∧ DrainTested s t ∧
        Frame [.bay n, .runState] s t := by
  refine check_set hstate hdue (h.trans ?_)
  rw [checkFailed_first (by rw [bay_setBay_self, hb]), bay_setBay_self, setBay_setBay]
  rfl

/-! ## The second failure in a row (R109, R126) -/

/-- The bay after its second failure: an attempt is over, and the bay resumes with the fill step. -/
def Bay.gaugeFault (b : Bay) : Bay :=
  { b.checkLost with
    resume :=
      if (b.resume = some ResumePoint.request ∨ b.resume = some ResumePoint.suspend) ∧ b.index.isSome = true then
        some ResumePoint.fill
      else b.resume }.faultedWith .gaugeDrift

theorem alerted_bayFault (s : State) (n : BayId) (cause : AlertCode) :
    Alerted (baySource n) cause (s.bayFault n cause) := alerted_raiseAlert _ _ _

theorem attemptLost_bay (s : State) (n : BayId) (i : RosterIndex) :
    (s.attemptLost n i).bay n = { (s.bay n).checkLost with resume := some .fill } := bay_setBay_self ..

theorem frame_attemptLost (s : State) (n : BayId) (i : RosterIndex) : Frame [.bay n, .entry i] s (s.attemptLost n i) :=
  ((frame_setBay s n _).mono (by simp)).trans
    (((frame_reportVoid _ i .gauge none).mono (by simp)).trans ((frame_setBay _ n _).mono (by simp)))

theorem attemptLost_entry {i : RosterIndex} (hlive : (s.entry i).state.live = true)
    (hroute : (s.entry i).route = some .test) :
    (s.attemptLost n i).entry i = { s.entry i with lastVoid := some .gauge }.edited := by
  have hentry : (s.setBay n (s.bay n).checkLost).entry i = s.entry i := setBay_entry ..
  rw [State.attemptLost, setBay_entry, reportVoid_entry (by rw [hentry, hlive]) (by rw [hentry, hroute]), hentry,
    voided_not_counted rfl]
  rfl

theorem checkFailed_second (h : (s.bay n).failures ≠ 0) : (s.checkFailed n).bay n = (s.bay n).gaugeFault ∧
    Alerted (baySource n) .gaugeDrift (s.checkFailed n) ∧
    Frame ([.bay n, .requests, .notices, .alertSeen] ++ heldParts s n) s (s.checkFailed n) ∧
    ∀ i, (s.bay n).index = some i → (s.entry i).state.live = true → (s.entry i).route = some .test →
      (s.checkFailed n).entry i =
        if (s.bay n).resume = some ResumePoint.request ∨ (s.bay n).resume = some ResumePoint.suspend then
          { s.entry i with lastVoid := some .gauge }.edited else s.entry i := by
  by_cases hattempt : ((s.bay n).resume = some ResumePoint.request ∨ (s.bay n).resume = some ResumePoint.suspend) ∧
      (s.bay n).index.isSome = true
  · obtain ⟨hresume, hsome⟩ := hattempt
    obtain ⟨i, hi⟩ := Option.isSome_iff_exists.mp hsome
    have hfault := frame_bayFault (s.attemptLost n i) n .gaugeDrift
    rw [checkFailed_attempt h hresume hi]
    refine ⟨?_, alerted_bayFault _ n _, ?_, fun j hj hlive hroute => ?_⟩
    · rw [bayFault_bay, attemptLost_bay, Bay.gaugeFault, if_pos ⟨hresume, hsome⟩]
    · exact ((frame_attemptLost s n i).mono (by simp [heldParts, hi])).trans (hfault.mono (by simp))
    · have hij : i = j := Option.some.inj (hi.symm.trans hj)
      subst hij
      rw [if_pos hresume, hfault.entry_eq (by simp), attemptLost_entry hlive hroute]
  · have hset := frame_setBay s n (s.bay n).checkLost
    have hfault := frame_bayFault (s.setBay n (s.bay n).checkLost) n .gaugeDrift
    rw [checkFailed_empty h hattempt]
    refine ⟨?_, alerted_bayFault _ n _, (hset.mono (by simp)).trans (hfault.mono (by simp)), fun j hj hlive hroute => ?_⟩
    · rw [bayFault_bay, bay_setBay_self, Bay.gaugeFault, if_neg hattempt]
      rfl
    · rw [if_neg fun hresume => hattempt ⟨hresume, by rw [hj]; rfl⟩, hfault.entry_eq (by simp), hset.entry_eq (by simp)]

/-- A second failure, from the bay `b` that the check leaves. -/
theorem check_faults {b : Bay} (hstate : (s.bay n).state = .zeroing) (hdue : s.due (s.bay n).stepTimer = true)
    (h : s.judgeCheck n = (s.setBay n b).checkFailed n) (hb : b.failures = 1) (hindex : b.index = (s.bay n).index)
    (hresume : b.resume = (s.bay n).resume) : Gives (.checkExpiry n) s fun t =>
      (t.bay n).bare = b.gaugeFault.bare ∧ Alerted (baySource n) .gaugeDrift t ∧
        (∀ i, (s.bay n).index = some i → (s.entry i).state.live = true → (s.entry i).route = some .test →
          t.entry i = if (s.bay n).resume = some ResumePoint.request ∨ (s.bay n).resume = some ResumePoint.suspend then
            { s.entry i with lastVoid := some .gauge }.edited else s.entry i) ∧
        DrainTested s t ∧ Frame ([.bay n, .requests, .notices, .alertSeen, .runState] ++ heldParts s n) s t := by
  have hset := frame_setBay s n b
  have hbay := bay_setBay_self s n b
  obtain ⟨hfault, halert, hframe, hentry⟩ := checkFailed_second (s := s.setBay n b) (n := n) (by rw [hbay, hb]; decide)
  rw [hbay] at hfault hentry
  have hheld : heldParts (s.setBay n b) n = heldParts s n := heldParts_of_index (by rw [hbay, hindex])
  rw [hheld] at hframe
  obtain ⟨t, hx, hstep, hends⟩ := event_ends
    (L := [.bay n, .requests, .notices, .alertSeen, .runState] ++ heldParts s n)
    (exec_effect ((effect_checkExpiry hstate hdue).trans (congrArg (fun u : State => some u.drainTest) h)))
    ((hset.mono (by simp)).trans ((hframe.mono (by intro p; simp; tauto)).trans ((frame_drainTest _).mono (by simp))))
  refine ⟨t, hx, by rw [hends.drained_bay, hfault], hends.alerted halert.drainTest, fun i hi hlive hroute => ?_,
    hends.drainTested ?_, hstep⟩
  · have hsame : (s.setBay n b).entry i = s.entry i := setBay_entry ..
    have hgives := hentry i (hindex.trans hi) (by rw [hsame, hlive]) (by rw [hsame, hroute])
    rw [hresume, hsame] at hgives
    rw [hends.entry, drainTest_entry, hgives]
  · rw [hframe.runState_eq (by simp [heldParts]), hset.runState_eq (by simp)]

/-! ## A drift within the limit (R125, R127) -/

/-- The last check owed has passed in an empty bay: it is IDLE, and nothing takes it on. -/
theorem check_idles {z : Nat} (hstate : (s.bay n).state = .zeroing) (hdue : s.due (s.bay n).stepTimer = true)
    (hz : (s.bay n).zeroReference = some z) (hseen : (s.bay n).sampleSeen = true)
    (hdrift : driftOf (s.bay n).latestGauge z ≤ s.work.driftLimit) (howed : (s.bay n).checksOwed ≤ 1)
    (hindex : (s.bay n).index = none) (hpos : 0 < s.work.zeroInterval) : Gives (.checkExpiry n) s fun t =>
      (t.bay n).bare =
          ((s.bay n).renewed (driftOf (s.bay n).latestGauge z) s.work.zeroInterval).idling.bare ∧ DrainTested s t ∧
        Frame [.bay n, .runState] s t := by
  have hjudge := (judgeCheck_passes hseen hz hdrift).trans (if_neg (not_lt_of_ge howed))
  have hset := frame_setBay s n { (s.bay n).renewed (driftOf (s.bay n).latestGauge z) s.work.zeroInterval with
    stepTimer := none }
  have hbay := bay_setBay_self s n { (s.bay n).renewed (driftOf (s.bay n).latestGauge z) s.work.zeroInterval with
    stepTimer := none }
  rw [endZeroing_empty (by rw [hbay]; exact hindex)] at hjudge
  generalize hw : s.setBay n { (s.bay n).renewed (driftOf (s.bay n).latestGauge z) s.work.zeroInterval with
    stepTimer := none } = w at hjudge hset hbay
  have hzero := zeroed_bay w n
  rw [hbay] at hzero
  have hzframe := frame_zeroed w n
  have hrests : ¬IdleDue n (w.zeroed n) := by
    have hwork : (w.zeroed n).work = s.work := (hzframe.work_eq (by simp)).trans (hset.work_eq (by simp))
    rw [IdleDue, hzero, OldValidity, hwork]
    rintro (h | h | ⟨-, h⟩)
    · exact absurd h (by simp only [Bay.renewed]; omega)
    · exact absurd h (by simp only [Bay.renewed]; omega)
    · exact absurd h (by simp only [Bay.renewed]; omega)
  have hidle := frame_enterIdle (w.zeroed n) n
  obtain ⟨t, hx, hframe, hends⟩ := event_ends (L := [.bay n, .runState])
    (exec_effect ((effect_checkExpiry hstate hdue).trans (congrArg (fun u : State => some u.drainTest) hjudge)))
    ((hset.mono (by simp)).trans ((hzframe.mono (by simp)).trans ((hidle.mono (by simp)).trans
      ((frame_drainTest _).mono (by simp)))))
  refine ⟨t, hx, ?_, hends.drainTested ?_, hframe⟩
  · rw [hends.drained_bay, enterIdle_rests (.inr hrests), hzero]
    rfl
  · rw [hidle.runState_eq (by simp), hzframe.runState_eq (by simp), hset.runState_eq (by simp)]

/-- The last check owed has passed in a bay with a cylinder: it goes on at its resume point. -/
theorem check_resumes {z : Nat} {i : RosterIndex} {q : Params} (hstate : (s.bay n).state = .zeroing)
    (hdue : s.due (s.bay n).stepTimer = true) (hz : (s.bay n).zeroReference = some z)
    (hseen : (s.bay n).sampleSeen = true) (hdrift : driftOf (s.bay n).latestGauge z ≤ s.work.driftLimit)
    (howed : (s.bay n).checksOwed ≤ 1) (hindex : (s.bay n).index = some i) (hq : (s.entry i).params = some q)
    (henough : s.allowance q ≤ s.work.zeroInterval) : Gives (.checkExpiry n) s fun t =>
      ((s.bay n).resume = some .request → (t.bay n).bare =
          { ((s.bay n).renewed (driftOf (s.bay n).latestGauge z) s.work.zeroInterval).waiting with
            baseline := some (s.bay n).latestGauge }.bare ∧ ∃ r ∈ t.requests, r.bay = n) ∧
        ((s.bay n).resume = some .suspend → (t.bay n).bare =
          { ((s.bay n).renewed (driftOf (s.bay n).latestGauge z) s.work.zeroInterval).resuspended with
            resume := none }.bare) ∧
        ((s.bay n).resume = some .fill → (s.bay n).full = false ∨ (s.bay n).doorClosed = false → (t.bay n).bare =
          (((s.bay n).renewed (driftOf (s.bay n).latestGauge z) s.work.zeroInterval).fillingFrom (s.after 60)).bare) ∧
        ((s.bay n).resume = some .unloadDecision → TrackRoom (laneOf n) s → (t.bay n).bare =
            ((s.bay n).renewed (driftOf (s.bay n).latestGauge z) s.work.zeroInterval).unloading.bare ∧
          (t.lane (laneOf n)).track =
            (s.lane (laneOf n)).track ++ [.reserved (begunTransit s (.entry i) (.bay n))]) ∧
        DrainTested s t ∧ Frame (.lane (laneOf n) :: .entry i :: requestParts n ++ [.runState]) s t := by
  have hjudge := (judgeCheck_passes hseen hz hdrift).trans (if_neg (not_lt_of_ge howed))
  have hset := frame_setBay s n { (s.bay n).renewed (driftOf (s.bay n).latestGauge z) s.work.zeroInterval with
    stepTimer := none }
  have hbay := bay_setBay_self s n { (s.bay n).renewed (driftOf (s.bay n).latestGauge z) s.work.zeroInterval with
    stepTimer := none }
  have hlane : (s.setBay n { (s.bay n).renewed (driftOf (s.bay n).latestGauge z) s.work.zeroInterval with
    stepTimer := none }).lane (laneOf n) = s.lane (laneOf n) := setBay_lane ..
  generalize hw : s.setBay n { (s.bay n).renewed (driftOf (s.bay n).latestGauge z) s.work.zeroInterval with
    stepTimer := none } = w at hjudge hset hbay hlane
  have hwindex : (w.bay n).index = some i := by
    rw [hbay]
    exact hindex
  have hwresume : (w.bay n).resume = (s.bay n).resume := by
    rw [hbay]
    rfl
  have hzero := zeroed_bay w n
  rw [hbay] at hzero
  have hzframe := (hset.trans (frame_zeroed w n) : Frame [.bay n] s (w.zeroed n))
  have hshort : (w.zeroed n).short n = false := by
    refine short_enough (q := q) ?_ ?_
    · rw [State.bayParams, hzero]
      dsimp only [Bay.renewed]
      rw [hindex]
      dsimp only
      rw [hzframe.entry_eq (by simp), hq]
    · rw [hzero, State.allowance, hzframe.work_eq (by simp)]
      exact henough
  have hend := frame_endZeroing hwindex
  obtain ⟨t, hx, hframe, hends⟩ := event_ends (L := .lane (laneOf n) :: .entry i :: requestParts n ++ [.runState])
    (exec_effect ((effect_checkExpiry hstate hdue).trans (congrArg (fun u : State => some u.drainTest) hjudge)))
    ((hset.mono (by simp [requestParts])).trans ((hend.mono (List.subset_append_left ..)).trans ((frame_drainTest _).mono (by simp))))
  have hshown := hends.drained_bay n
  refine ⟨t, hx, fun hr => ?_, fun hr => ?_, fun hr hwaits => ?_, fun hr hroom => ?_, hends.drainTested ?_, hframe⟩
  · rw [endZeroing_request hwindex (hwresume.trans hr), fillComplete_bay hshort, hzero] at hshown
    refine ⟨hshown, ?_⟩
    rw [hends.requests, (frame_drainTest _).requests_eq (by simp), endZeroing_request hwindex (hwresume.trans hr)]
    exact mem_fillComplete hshort
  · have hsuspended : ((w.zeroed n).setBay n ((w.zeroed n).bay n).resuspended).short n = false :=
      (short_congr (by rw [bay_setBay_self]; rfl) (by rw [bay_setBay_self]; rfl) (fun _ => setBay_entry ..)
        ((frame_setBay _ n _).work_eq (by simp))).trans hshort
    rw [endZeroing_suspend hwindex (hwresume.trans hr), testShortfall_of_enough hsuspended, bay_setBay_self, hzero] at hshown
    exact hshown
  · rw [endZeroing_fill hwindex (.inl (hwresume.trans hr)), enterFilling_waits (by rw [hzero]; exact hwaits), hzero,
      hzframe.after_eq (by simp)] at hshown
    exact hshown
  · have hzlane : (w.zeroed n).lane (laneOf n) = s.lane (laneOf n) := (setBay_lane ..).trans hlane
    have hzroom : TrackRoom (laneOf n) (w.zeroed n) := by
      rw [TrackRoom, hzlane, hzframe.runState_eq (by simp)]
      exact hroom
    have hzindex : ((w.zeroed n).bay n).index = some i := by
      rw [hzero]
      exact hindex
    have hunload := (endZeroing_unload hwindex (hwresume.trans hr)).trans (unloadDecision_room hzindex hzroom)
    have htrack : ((t.lane (laneOf n)).bare).track = ((w.endZeroing n).lane (laneOf n)).track := by
      rw [hends.lane, drainTest_lane]
      rfl
    rw [hunload, ontoTrack_bay, hzero] at hshown
    refine ⟨hshown, htrack.trans ?_⟩
    rw [hunload, ontoTrack_track, hzlane, begunTransit, begunTransit, hzframe.work_eq (by simp),
      hzframe.after_eq (by simp)]
  · rw [hend.runState_eq (by simp [requestParts]), hset.runState_eq (by simp)]

end

theorem resumeParts_subset (n : BayId) (i : RosterIndex) : .lane (laneOf n) :: .entry i :: requestParts n ++ [.runState] ⊆
    [.lane (laneOf n), .bay n, .requests, .releases, .intensifier .one, .intensifier .two, .entry i, Part.runState] := by
  intro p
  simp only [requestParts, List.mem_append, List.mem_cons]
  tauto

/-- Settles O56. -/
theorem checkExpiry : Obligations.CheckExpiry := by
  refine fun n s => ⟨fun h => eye_ignored (exec_effect (congrArg (fun u : State => some u.drainTest) (expireCheck_early h))),
    fun hstate hdue => ⟨fun hseen hz => check_set hstate hdue (judgeCheck_stores hseen hz),
      fun hfirst hseen => check_repeats hstate hdue (judgeCheck_unsampled hseen) hfirst,
      fun z hz hseen => ⟨fun hdrift howed => ?_, fun hdrift howed hindex hpos =>
          check_idles hstate hdue hz hseen hdrift howed hindex hpos,
        fun hdrift howed i hindex q hq henough => ?_,
        fun hdrift hfirst => check_repeats hstate hdue (judgeCheck_drifts hseen hz hdrift) hfirst,
        fun hdrift hsecond => check_faults hstate hdue (judgeCheck_drifts hseen hz hdrift) hsecond rfl rfl⟩,
      fun hseen hsecond => ?_⟩⟩
  · exact check_set hstate hdue ((judgeCheck_passes hseen hz hdrift).trans (if_pos howed))
  · obtain ⟨t, hx, hrequest, hsuspend, hfill, hunload, hdrain, hframe⟩ :=
      check_resumes hstate hdue hz hseen hdrift howed hindex hq henough
    exact ⟨t, hx, hrequest, hsuspend, hfill, hunload, hdrain, hframe.mono (resumeParts_subset n i)⟩
  · obtain ⟨t, hx, hbay, halert, -, hdrain, hframe⟩ :=
      check_faults hstate hdue (judgeCheck_unsampled hseen) hsecond rfl rfl
    exact ⟨t, hx, congr(Bay.state $hbay), congr(Bay.faultCause $hbay), congr(Bay.validity $hbay),
      congr(Bay.failures $hbay), congr(Bay.index $hbay), congr(Bay.zeroReference $hbay), congr(Bay.lastZeroReading $hbay),
      congr(Bay.lastDrift $hbay), halert, hdrain, hframe⟩

end Sys2Proof.Machine
end

