-- ==== Sys2Proof/Proofs/GrantRules.lean ====
section
/-! What the arbiter's operations and a bay's notices do (R99, R100, R135, R136, R137). -/

-- Proofs are checked one after another: the whole text, compiled as one, would otherwise start more threads than fit into the
-- check's memory.
set_option Elab.async false

namespace Sys2Proof.Machine

section

variable {s : State} {n : BayId} {i : IntensifierId}

/-! ## The choice of R135 -/

/-- Intensifier `i` is the one R135 grants to a request at `pressure`. -/
def State.preferred (s : State) (i : IntensifierId) (pressure : Nat) : Prop :=
  (i = .one ∧ (s.intensifier .one).state = .free ∧
      ((s.intensifier .two).state ≠ .free ∨ (s.intensifier .one).setpoint = some pressure ∨
        (s.intensifier .two).setpoint ≠ some pressure)) ∨
    (i = .two ∧ (s.intensifier .two).state = .free ∧
      ((s.intensifier .one).state ≠ .free ∨
        ((s.intensifier .one).setpoint ≠ some pressure ∧ (s.intensifier .two).setpoint = some pressure)))

theorem chooseIntensifier_both {pressure : Nat} (h1 : (s.intensifier .one).state = .free)
    (h2 : (s.intensifier .two).state = .free) : s.chooseIntensifier pressure =
      if (s.intensifier .one).setpoint = some pressure then some .one
      else if (s.intensifier .two).setpoint = some pressure then some .two else some .one := by
  unfold State.chooseIntensifier
  rw [decide_eq_true (show s.intensifier1.state = .free from h1), decide_eq_true (show s.intensifier2.state = .free from h2)]
  rfl

theorem chooseIntensifier_one {pressure : Nat} (h1 : (s.intensifier .one).state = .free)
    (h2 : (s.intensifier .two).state ≠ .free) : s.chooseIntensifier pressure = some .one := by
  unfold State.chooseIntensifier
  rw [decide_eq_true (show s.intensifier1.state = .free from h1), decide_eq_false (show s.intensifier2.state ≠ .free from h2)]

theorem chooseIntensifier_two {pressure : Nat} (h1 : (s.intensifier .one).state ≠ .free)
    (h2 : (s.intensifier .two).state = .free) : s.chooseIntensifier pressure = some .two := by
  unfold State.chooseIntensifier
  rw [decide_eq_false (show s.intensifier1.state ≠ .free from h1), decide_eq_true (show s.intensifier2.state = .free from h2)]

theorem chooseIntensifier_neither {pressure : Nat} (h1 : (s.intensifier .one).state ≠ .free)
    (h2 : (s.intensifier .two).state ≠ .free) : s.chooseIntensifier pressure = none := by
  unfold State.chooseIntensifier
  rw [decide_eq_false (show s.intensifier1.state ≠ .free from h1), decide_eq_false (show s.intensifier2.state ≠ .free from h2)]

theorem chooseIntensifier_preferred {pressure : Nat} (h : s.preferred i pressure) :
    s.chooseIntensifier pressure = some i := by
  rcases h with ⟨rfl, hfree, h⟩ | ⟨rfl, hfree, h⟩
  · by_cases htwo : (s.intensifier .two).state = .free
    · rw [chooseIntensifier_both hfree htwo]
      rcases h with h | h | h
      · exact absurd htwo h
      · exact if_pos h
      · rw [if_neg h, ite_self]
    · exact chooseIntensifier_one hfree htwo
  · by_cases hone : (s.intensifier .one).state = .free
    · rw [chooseIntensifier_both hone hfree]
      rcases h with h | ⟨h1, h2⟩
      · exact absurd hone h
      · rw [if_neg h1, if_pos h2]
    · exact chooseIntensifier_two hone hfree

/-! ## The grant (R135, R136) -/

/-- The state in which the arbiter has granted the head request `r` the intensifier `i`. -/
def State.grantedHead (s : State) (r : Request) (i : IntensifierId) : State :=
  (({ s with requests := s.requests.tail } : State).setIntensifier i ((s.intensifier i).granted r (s.after 15))).setBay r.bay
    { s.bay r.bay with grants := (s.bay r.bay).grants ++ [i] }

theorem grantHead_grants {r : Request} (hr : s.requests.head? = some r) (hrun : s.runState ≠ .eStopped)
    (hi : s.chooseIntensifier r.pressure = some i) : s.grantHead = s.grantedHead r i := by
  obtain ⟨rest, hrest⟩ := List.head?_eq_some_iff.mp hr
  unfold State.grantHead State.grantedHead
  rw [hrest]
  dsimp only
  rw [if_neg (by simp [stopped_eq_false hrun]), hi]
  rfl

theorem grantHead_waits (h : s.requests = [] ∨ s.runState = .eStopped ∨
    ((s.intensifier .one).state ≠ .free ∧ (s.intensifier .two).state ≠ .free)) : s.grantHead = s := by
  unfold State.grantHead
  cases hreq : s.requests with
  | nil => rfl
  | cons r rest =>
    dsimp only
    rcases h with h | h | ⟨h1, h2⟩
    · exact absurd (hreq.symm.trans h) (List.cons_ne_nil r rest)
    · exact if_pos (stopped_eq_true h)
    · rw [chooseIntensifier_neither h1 h2]
      exact ite_self s

theorem frame_grantedHead (s : State) (r : Request) (i : IntensifierId) :
    Frame [.requests, .intensifier i, .bay r.bay] s (s.grantedHead r i) :=
  ((frame_setRequests s _).mono (by simp)).trans
    (((frame_setIntensifier _ i _).mono (by simp)).trans ((frame_setBay _ r.bay _).mono (by simp)))

theorem grantedHead_intensifier (s : State) (r : Request) (i : IntensifierId) :
    (s.grantedHead r i).intensifier i = (s.intensifier i).granted r (s.after 15) := by
  cases i <;> rfl

theorem granted_drives {x : Intensifier} {r : Request} {e : Seconds} (h : x.setpoint = some r.pressure) :
    x.granted r e = { x with coupledBay := some r.bay, requested := some r.pressure, state := .driving } := if_pos h

theorem granted_retunes {x : Intensifier} {r : Request} {e : Seconds} (h : x.setpoint ≠ some r.pressure) :
    x.granted r e = { x with
      coupledBay := some r.bay
      requested := some r.pressure
      state := .retuning
      setpoint := none
      retuneExpiry := some e } := if_neg h

/-! ## The bay's coupling and its notices (R99, R100) -/

theorem coupledTo_eq (b : Bay) (i : IntensifierId) (e : Seconds) : b.coupledTo i e = { b with
    state := .pressurising
    coupled := some i
    outputs := ⟨false, true, false, decide (i = IntensifierId.one), decide (i = IntensifierId.two), true, false⟩
    requested := false
    kept := none
    stepTimer := none
    pressurised := true
    pressTimer := if b.pressurised then b.pressTimer else some e
    trace := if b.pressurised then b.trace else emptyTrace
    traceIndex := if b.pressurised then b.traceIndex else 0
    traceCount := if b.pressurised then b.traceCount else 0 } := by
  cases hp : b.pressurised <;> simp [Bay.coupledTo, hp, Bay.enter, outputsOf]

theorem drivingNotice_taken (hstate : (s.bay n).state = .pressurising) (hcoupled : (s.bay n).coupled = some i) :
    s.drivingNotice n i = s.setBay n { s.bay n with
      stepTimer := some (s.after ((s.bay n).risePaused.getD s.work.riseLimit))
      risePaused := none } := if_pos ⟨hstate, hcoupled⟩

theorem drivingNotice_ignored (h : (s.bay n).state ≠ .pressurising ∨ (s.bay n).coupled ≠ some i) :
    s.drivingNotice n i = s := if_neg fun ⟨hstate, hcoupled⟩ => h.elim (absurd hstate) (absurd hcoupled)

/-- What is left of a bay's rise limit when its intensifier is lost (R100). -/
def State.riseLeft (s : State) (n : BayId) : Option Nat :=
  match (s.bay n).stepTimer with
  | some e => some (s.remaining e)
  | none => (s.bay n).risePaused

/-- The bay back in AWAIT INTENSIFIER after the loss of its intensifier. -/
def State.decoupled (s : State) (n : BayId) : State :=
  s.setBay n { (s.bay n).waiting with coupled := none, risePaused := s.riseLeft n }

theorem decoupled_bay (s : State) (n : BayId) :
    (s.decoupled n).bay n = { (s.bay n).waiting with coupled := none, risePaused := s.riseLeft n } := bay_setBay_self ..

theorem decoupled_short (s : State) (n : BayId) : (s.decoupled n).short n = s.short n :=
  short_congr (by rw [decoupled_bay]; rfl) (by rw [decoupled_bay]; rfl) (fun _ => setBay_entry ..)
    ((frame_setBay s n _).work_eq (by simp))

theorem faultNotice_taken (hstate : (s.bay n).state = .pressurising) (hcoupled : (s.bay n).coupled = some i) :
    s.faultNotice n i = (s.decoupled n).testShortfall n := (if_pos ⟨hstate, hcoupled⟩).trans rfl

theorem faultNotice_ignored (h : (s.bay n).state ≠ .pressurising ∨ (s.bay n).coupled ≠ some i) :
    s.faultNotice n i = s := if_neg fun ⟨hstate, hcoupled⟩ => h.elim (absurd hstate) (absurd hcoupled)

/-! ## The release of an intensifier (R137) -/

/-- The release taken for a bay is one the bay has sent. -/
theorem takeReleaseFrom_bay {l : List Release} {x : Release × List Release} (h : takeReleaseFrom n l = some x) :
    x.1.bay = n := by
  induction l generalizing x with
  | nil => cases h
  | cons r rest ih =>
    unfold takeReleaseFrom at h
    split at h
    next hr => exact Option.some.inj h ▸ hr
    next =>
      obtain ⟨y, hy, rfl⟩ := Option.map_eq_some_iff.mp h
      exact (ih hy :)

theorem takeRelease_frees {r : Release} (h : ((s.intensifier r.intensifier).state = .retuning ∨
      (s.intensifier r.intensifier).state = .driving) ∧ (s.intensifier r.intensifier).coupledBay = some r.bay) :
    s.takeRelease r = s.setIntensifier r.intensifier (s.intensifier r.intensifier).uncoupled :=
  if_pos ((serves_iff _ _).mpr h)

theorem takeRelease_unqueues {r : Release} (h : ¬(((s.intensifier r.intensifier).state = .retuning ∨
      (s.intensifier r.intensifier).state = .driving) ∧ (s.intensifier r.intensifier).coupledBay = some r.bay)) :
    s.takeRelease r = s.removeRequest r.bay := if_neg fun hserves => h ((serves_iff _ _).mp hserves)

theorem arbiterRelease_none (h : takeReleaseFrom n s.releases = none) : s.arbiterRelease n = s := by
  unfold State.arbiterRelease
  rw [h]

theorem arbiterRelease_some {x : Release × List Release} (h : takeReleaseFrom n s.releases = some x) :
    s.arbiterRelease n = ({ s with releases := x.2 } : State).takeRelease x.1 := by
  unfold State.arbiterRelease
  rw [h]

/-! ## The bay and its grant (R99) -/

/-- The state in which the bay has taken its oldest grant in hand. -/
def State.grantTaken (s : State) (n : BayId) : State := s.setBay n { s.bay n with grants := (s.bay n).grants.tail }

theorem grantTaken_bay (s : State) (n : BayId) :
    (s.grantTaken n).bay n = { s.bay n with grants := (s.bay n).grants.tail } := bay_setBay_self ..

theorem frame_grantTaken (s : State) (n : BayId) : Frame [.bay n] s (s.grantTaken n) := frame_setBay s n _

theorem grantTaken_short (s : State) (n : BayId) : (s.grantTaken n).short n = s.short n :=
  short_congr (by rw [grantTaken_bay]) (by rw [grantTaken_bay]) (fun _ => setBay_entry ..)
    ((frame_grantTaken s n).work_eq (by simp))

theorem takeGrant_none (h : (s.bay n).grants = []) : s.takeGrant n = s := by
  unfold State.takeGrant
  rw [h]

theorem takeGrant_some (h : (s.bay n).grants.head? = some i) : s.takeGrant n = (s.grantTaken n).actOnGrant n i := by
  obtain ⟨rest, hrest⟩ := List.head?_eq_some_iff.mp h
  unfold State.takeGrant State.grantTaken
  rw [hrest]
  rfl

theorem actOnGrant_refuses (h : (s.bay n).state ≠ .awaitIntensifier ∨ (s.bay n).requested = false) :
    s.actOnGrant n i = s.sendRelease n i :=
  if_neg fun ⟨hstate, hreq⟩ => h.elim (absurd hstate) (fun h => Bool.false_ne_true (h.symm.trans hreq))

theorem actOnGrant_short (hstate : (s.bay n).state = .awaitIntensifier) (hreq : (s.bay n).requested = true)
    (h : s.short n = true) : s.actOnGrant n i = (s.sendRelease n i).testShortfall n :=
  (if_pos ⟨hstate, hreq⟩).trans (if_pos h)

/-- The state in which the bay has coupled to the granted intensifier. -/
def State.couples (s : State) (n : BayId) (i : IntensifierId) : State :=
  s.setBay n ((s.bay n).coupledTo i (s.after s.work.pressurisedLimit))

theorem couples_bay (s : State) (n : BayId) (i : IntensifierId) :
    (s.couples n i).bay n = (s.bay n).coupledTo i (s.after s.work.pressurisedLimit) := bay_setBay_self ..

theorem frame_couples (s : State) (n : BayId) (i : IntensifierId) : Frame [.bay n] s (s.couples n i) := frame_setBay s n _

theorem actOnGrant_couples (hstate : (s.bay n).state = .awaitIntensifier) (hreq : (s.bay n).requested = true)
    (h : s.short n = false) (hkept : (s.intensifier i).coupledBay = some n) (hlast : i ∉ (s.bay n).grants) :
    s.actOnGrant n i =
      if (s.intensifier i).state = .driving then (s.couples n i).drivingNotice n i else s.couples n i :=
  (if_pos ⟨hstate, hreq⟩).trans ((if_neg (by simp [h])).trans (if_pos ⟨hkept, by simpa using hlast⟩))

theorem actOnGrant_loses (hstate : (s.bay n).state = .awaitIntensifier) (hreq : (s.bay n).requested = true)
    (h : s.short n = false) (hlost : (s.intensifier i).coupledBay ≠ some n ∨ i ∈ (s.bay n).grants) :
    s.actOnGrant n i = (s.couples n i).faultNotice n i :=
  (if_pos ⟨hstate, hreq⟩).trans ((if_neg (by simp [h])).trans (if_neg fun ⟨hkept, hlast⟩ =>
    hlost.elim (absurd hkept) fun hmem => absurd hmem (by simpa using hlast)))

end

end Sys2Proof.Machine
end

