-- ==== Sys2Proof/Proofs/Grants.lean ====
section
/-! GRANT, GRANT_AT_BAY and INTENSIFIER_RELEASE (R99, R135, R136, R137), to the end of the event. -/

-- Proofs are checked one after another: the whole text, compiled as one, would otherwise start more threads than fit into the
-- check's memory.
set_option Elab.async false

namespace Sys2Proof.Machine

section

variable {s : State} {n : BayId} {i : IntensifierId}

/-! ## GRANT -/

theorem grant_ends {r : Request} (hr : s.requests.head? = some r) (hrun : s.runState ≠ .eStopped)
    (hi : s.preferred i r.pressure) : Gives .grant s fun t =>
      t.requests = s.requests.tail ∧ (t.intensifier i).bare = ((s.intensifier i).granted r (s.after 15)).bare ∧
        (t.bay r.bay).bare = { s.bay r.bay with grants := (s.bay r.bay).grants ++ [i] }.bare ∧
        Frame [.requests, .intensifier i, .bay r.bay] s t := by
  obtain ⟨t, hx, hframe, hends⟩ := event_ends (c := .grant)
    (exec_effect (congrArg some (grantHead_grants hr hrun (chooseIntensifier_preferred hi)))) (frame_grantedHead s r i)
  exact ⟨t, hx, hends.requests, by rw [hends.intensifier, grantedHead_intensifier],
    hends.bay_of_eq (bay_setBay_self ..), hframe⟩

/-! ## GRANT_AT_BAY -/

/-- A grant that the bay does not want. -/
theorem grantAtBay_refused (hi : (s.bay n).grants.head? = some i)
    (h : (s.bay n).state ≠ .awaitIntensifier ∨ (s.bay n).requested = false) : Gives (.grantAtBay n) s fun t =>
      (t.bay n).bare = { s.bay n with grants := (s.bay n).grants.tail }.bare ∧ t.releases = s.releases ++ [⟨n, i⟩] ∧
        DrainTested s t ∧ Frame [.bay n, .releases, .runState] s t := by
  have heq : s.takeGrant n = (s.grantTaken n).sendRelease n i := (takeGrant_some hi).trans (actOnGrant_refuses (by
    rw [grantTaken_bay]
    exact h))
  obtain ⟨t, hx, hframe, hends⟩ := event_ends (c := .grantAtBay n) (L := [.bay n, .releases, .runState])
    (exec_effect (congrArg (fun u : State => some u.drainTest) heq))
    (((frame_grantTaken s n).mono (by simp)).trans (((frame_sendRelease _ n i).mono (by simp)).trans
      ((frame_drainTest _).mono (by simp))))
  refine ⟨t, hx, ?_, ?_, hends.drainTested rfl, hframe⟩
  · rw [hends.drained_bay, sendRelease_bay, grantTaken_bay]
  · rw [hends.releases, (frame_drainTest _).releases_eq (by simp)]
    rfl

/-- The comparison of R98 in AWAIT INTENSIFIER outside E-STOPPED, with too little validity. -/
theorem testShortfall_await (hstate : (s.bay n).state = .awaitIntensifier) (h : s.short n = true)
    (hrun : s.runState ≠ .eStopped) :
    ((s.bay n).pressurised = true → ((s.testShortfall n).bay n).state = .releasing ∧
        ((s.testShortfall n).bay n).releaseCause = some (.void .zeroLapsed)) ∧
      ((s.bay n).pressurised = false → ((s.testShortfall n).bay n).state = .zeroing ∧
        ((s.testShortfall n).bay n).resume = some .request) ∧
      (∀ r ∈ (s.testShortfall n).requests, r.bay ≠ n) ∧ s.releases ⊆ (s.testShortfall n).releases := by
  cases hpress : (s.bay n).pressurised with
  | true =>
    obtain ⟨-, hreq, hrel⟩ := releases_enterReleasing s n (.void .zeroLapsed)
    rw [testShortfall_await_pressurised hstate h hpress, enterReleasing_bay, hreq, hrel]
    exact ⟨fun _ => ⟨rfl, rfl⟩, nofun, withdrawRequest_gone s n, List.subset_append_left ..⟩
  | false =>
    have hzero := frame_enterZeroing (s.withdrawRequest n) n (some .request)
    rw [testShortfall_await_short hstate h hpress, zeroingStep_running (s := s.withdrawRequest n) hrun,
      enterZeroing_bay (s := s.withdrawRequest n) n _ (stopped_eq_false hrun), hzero.requests_eq (by simp), hzero.releases_eq (by simp)]
    exact ⟨nofun, fun _ => ⟨rfl, rfl⟩, withdrawRequest_gone s n, fun _ h => h⟩

theorem grantAtBay_short (hi : (s.bay n).grants.head? = some i) (hstate : (s.bay n).state = .awaitIntensifier)
    (hreq : (s.bay n).requested = true) (hshort : s.short n = true) (hrun : s.runState ≠ .eStopped) :
    Gives (.grantAtBay n) s fun t => Release.mk n i ∈ t.releases ∧
      ((s.bay n).pressurised = true → (t.bay n).state = .releasing ∧ (t.bay n).releaseCause = some (.void .zeroLapsed)) ∧
      ((s.bay n).pressurised = false → (t.bay n).state = .zeroing ∧ (t.bay n).resume = some .request) ∧
      (∀ r ∈ t.requests, r.bay ≠ n) ∧ DrainTested s t ∧ Frame [.bay n, .requests, .releases, .runState] s t := by
  have hbay := grantTaken_bay s n
  have heq : s.takeGrant n = ((s.grantTaken n).sendRelease n i).testShortfall n := (takeGrant_some hi).trans
    (actOnGrant_short (by rw [hbay, ← hstate]) (by rw [hbay, ← hreq]) ((grantTaken_short s n).trans hshort))
  obtain ⟨hvents, hchecks, hgone, hkept⟩ := testShortfall_await (s := (s.grantTaken n).sendRelease n i) (n := n)
    (by rw [sendRelease_bay, hbay, ← hstate]) ((grantTaken_short s n).trans hshort) hrun
  rw [sendRelease_bay, hbay] at hvents hchecks
  have htest := frame_testShortfall ((s.grantTaken n).sendRelease n i) n
  obtain ⟨t, hx, hframe, hends⟩ := event_ends (c := .grantAtBay n) (L := [.bay n, .requests, .releases, .runState])
    (exec_effect (congrArg (fun u : State => some u.drainTest) heq))
    (((frame_grantTaken s n).mono (by simp)).trans (((frame_sendRelease _ n i).mono (by simp)).trans
      ((htest.mono (by simp)).trans ((frame_drainTest _).mono (by simp)))))
  have hshown := hends.drained_bay n
  have hstate' := congr(Bay.state $hshown)
  refine ⟨t, hx, ?_, fun h => ⟨hstate'.trans (hvents h).1, congr(Bay.releaseCause $hshown).trans (hvents h).2⟩,
    fun h => ⟨hstate'.trans (hchecks h).1, congr(Bay.resume $hshown).trans (hchecks h).2⟩, ?_,
    hends.drainTested (htest.runState_eq (by simp)), hframe⟩
  · rw [hends.releases, (frame_drainTest _).releases_eq (by simp)]
    exact hkept (List.mem_append_right _ (List.mem_singleton_self _))
  · rw [hends.requests, (frame_drainTest _).requests_eq (by simp)]
    exact hgone

/-- A grant that the bay takes, from its effect. -/
theorem grantAtBay_ends {u : State} (hi : (s.bay n).grants.head? = some i)
    (hact : (s.grantTaken n).actOnGrant n i = u) (hu : Frame [.bay n] (s.grantTaken n) u) :
    Gives (.grantAtBay n) s fun t => (t.bay n).bare = (u.bay n).bare ∧ DrainTested s t ∧ Frame [.bay n, .runState] s t := by
  obtain ⟨t, hx, hframe, hends⟩ := event_ends (c := .grantAtBay n) (L := [.bay n, .runState])
    (exec_effect (congrArg (fun u : State => some u.drainTest) ((takeGrant_some hi).trans hact)))
    (((frame_grantTaken s n).mono (by simp)).trans ((hu.mono (by simp)).trans ((frame_drainTest _).mono (by simp))))
  exact ⟨t, hx, hends.drained_bay n, hends.drainTested (hu.runState_eq (by simp)), hframe⟩

theorem grantTaken_couples (s : State) (n : BayId) (i : IntensifierId) : ((s.grantTaken n).couples n i).bay n = { s.bay n with
    grants := (s.bay n).grants.tail
    state := .pressurising
    coupled := some i
    outputs := ⟨false, true, false, decide (i = IntensifierId.one), decide (i = IntensifierId.two), true, false⟩
    requested := false
    kept := none
    stepTimer := none
    pressurised := true
    pressTimer := if (s.bay n).pressurised then (s.bay n).pressTimer else some (s.after s.work.pressurisedLimit)
    trace := if (s.bay n).pressurised then (s.bay n).trace else emptyTrace
    traceIndex := if (s.bay n).pressurised then (s.bay n).traceIndex else 0
    traceCount := if (s.bay n).pressurised then (s.bay n).traceCount else 0 } := by
  rw [couples_bay, grantTaken_bay, coupledTo_eq]
  rfl

/-- The grant holds still: the bay couples, and its rise limit runs when the intensifier drives. -/
theorem grantAtBay_couples (hi : (s.bay n).grants.head? = some i) (hstate : (s.bay n).state = .awaitIntensifier)
    (hreq : (s.bay n).requested = true) (hshort : s.short n = false) (hkept : (s.intensifier i).coupledBay = some n)
    (hlast : i ∉ (s.bay n).grants.tail) : Gives (.grantAtBay n) s fun t =>
      (t.bay n).bare = { ((s.grantTaken n).couples n i).bay n with
        stepTimer :=
          if (s.intensifier i).state = IntensifierState.driving then
            some (s.after ((s.bay n).risePaused.getD s.work.riseLimit))
          else none
        risePaused := if (s.intensifier i).state = IntensifierState.driving then none else (s.bay n).risePaused }.bare ∧
        DrainTested s t ∧ Frame [.bay n, .runState] s t := by
  have hbay := grantTaken_bay s n
  have hact := actOnGrant_couples (i := i) (by rw [hbay, ← hstate]) (by rw [hbay, ← hreq])
    ((grantTaken_short s n).trans hshort) hkept (by rw [hbay]; exact hlast)
  have hframe := frame_couples (s.grantTaken n) n i
  have hcouples := grantTaken_couples s n i
  by_cases hdrives : (s.intensifier i).state = .driving
  · rw [if_pos hdrives, if_pos hdrives]
    have hnotice := drivingNotice_taken (s := (s.grantTaken n).couples n i) (n := n) (i := i) (by rw [hcouples])
      (by rw [hcouples])
    obtain ⟨t, hx, hshown, hrest⟩ := grantAtBay_ends hi (hact.trans ((if_pos hdrives).trans hnotice))
      (hframe.trans (frame_setBay _ n _))
    refine ⟨t, hx, hshown.trans ?_, hrest⟩
    rw [bay_setBay_self, hcouples]
    rfl
  · rw [if_neg hdrives, if_neg hdrives]
    obtain ⟨t, hx, hshown, hrest⟩ := grantAtBay_ends hi (hact.trans (if_neg hdrives)) hframe
    refine ⟨t, hx, hshown.trans ?_, hrest⟩
    rw [hcouples]

/-- A later fault has overtaken the grant: the bay couples and loses the intensifier at once. -/
theorem grantAtBay_loses (hi : (s.bay n).grants.head? = some i) (hstate : (s.bay n).state = .awaitIntensifier)
    (hreq : (s.bay n).requested = true) (hshort : s.short n = false)
    (hlost : (s.intensifier i).coupledBay ≠ some n ∨ i ∈ (s.bay n).grants.tail) : Gives (.grantAtBay n) s fun t =>
      (t.bay n).bare = { (((s.grantTaken n).couples n i).bay n).waiting with
        coupled := none
        risePaused := (s.bay n).risePaused }.bare ∧ DrainTested s t ∧ Frame [.bay n, .runState] s t := by
  have hbay := grantTaken_bay s n
  have hact := actOnGrant_loses (i := i) (by rw [hbay, ← hstate]) (by rw [hbay, ← hreq])
    ((grantTaken_short s n).trans hshort) (by rw [hbay]; exact hlost)
  have hframe := frame_couples (s.grantTaken n) n i
  have hcouples := grantTaken_couples s n i
  have henough : ((s.grantTaken n).couples n i).short n = false :=
    (short_congr (by rw [hcouples, hbay]) (by rw [hcouples, hbay]) (fun _ => hframe.entry_eq (by simp))
      (hframe.work_eq (by simp))).trans ((grantTaken_short s n).trans hshort)
  have hnotice : ((s.grantTaken n).couples n i).faultNotice n i = ((s.grantTaken n).couples n i).decoupled n :=
    (faultNotice_taken (by rw [hcouples]) (by rw [hcouples])).trans
      (testShortfall_of_enough ((decoupled_short _ n).trans henough))
  obtain ⟨t, hx, hshown, hrest⟩ := grantAtBay_ends hi (hact.trans hnotice) (hframe.trans (frame_setBay _ n _))
  refine ⟨t, hx, hshown.trans ?_, hrest⟩
  have hleft : ((s.grantTaken n).couples n i).riseLeft n = (s.bay n).risePaused := by
    rw [State.riseLeft, hcouples]
  rw [decoupled_bay, hleft]

/-! ## INTENSIFIER_RELEASE -/

theorem release_frees {x : Release × List Release} (h : takeReleaseFrom n s.releases = some x)
    (hserves : ((s.intensifier x.1.intensifier).state = .retuning ∨ (s.intensifier x.1.intensifier).state = .driving) ∧
      (s.intensifier x.1.intensifier).coupledBay = some n) : Gives (.intensifierRelease n) s fun t =>
      t.releases = x.2 ∧ (t.intensifier x.1.intensifier).bare = (s.intensifier x.1.intensifier).uncoupled.bare ∧
        Frame [.releases, .intensifier x.1.intensifier] s t := by
  have hfrees := takeRelease_frees (s := { s with releases := x.2 }) (r := x.1) (by
    rw [takeReleaseFrom_bay h]
    exact hserves)
  obtain ⟨t, hx, hframe, hends⟩ := event_ends (c := .intensifierRelease n)
    (L := [.releases, .intensifier x.1.intensifier])
    (exec_effect (congrArg some ((arbiterRelease_some h).trans hfrees)))
    (((frame_setReleases s _).mono (by simp)).trans ((frame_setIntensifier _ _ _).mono (by simp)))
  refine ⟨t, hx, ?_, ?_, hframe⟩
  · rw [hends.releases, setIntensifier_releases]
  · rw [hends.intensifier, intensifier_setIntensifier, if_pos rfl]
    rfl

theorem release_unqueues {x : Release × List Release} (h : takeReleaseFrom n s.releases = some x)
    (hother : ¬(((s.intensifier x.1.intensifier).state = .retuning ∨
        (s.intensifier x.1.intensifier).state = .driving) ∧ (s.intensifier x.1.intensifier).coupledBay = some n)) :
    Gives (.intensifierRelease n) s fun t =>
      t.releases = x.2 ∧ t.requests = s.requests.filter (fun r => decide (r.bay ≠ n)) ∧
        Frame [.releases, .requests] s t := by
  have hbay := takeReleaseFrom_bay h
  have hunqueues := takeRelease_unqueues (s := { s with releases := x.2 }) (r := x.1) (by
    rw [hbay]
    exact hother)
  rw [hbay] at hunqueues
  obtain ⟨t, hx, hframe, hends⟩ := event_ends (c := .intensifierRelease n) (L := [.releases, .requests])
    (exec_effect (congrArg some ((arbiterRelease_some h).trans hunqueues)))
    (((frame_setReleases s _).mono (by simp)).trans ((frame_setRequests _ _).mono (by simp)))
  exact ⟨t, hx, hends.releases, hends.requests, hframe⟩

end

/-- Settles O57. -/
theorem grants : Obligations.Grants := by
  refine ⟨fun s i => ⟨fun r hr hrun hi => ?_, fun h => event_kept (congrArg some (grantHead_waits h))⟩,
    fun n s => ⟨fun h => eye_ignored (exec_effect (congrArg (fun u : State => some u.drainTest) (takeGrant_none h))),
      fun i hi => ⟨grantAtBay_refused hi, grantAtBay_short hi, fun hstate hreq hshort hkept hlast => ?_,
        fun hstate hreq hshort hlost => ?_⟩⟩,
    fun n s => ⟨fun h => event_kept (congrArg some (arbiterRelease_none h)), fun x h =>
      ⟨takeReleaseFrom_bay h, release_frees h, release_unqueues h⟩⟩⟩
  · obtain ⟨t, hx, hreq, hint, hbay, hframe⟩ := grant_ends hr hrun hi
    refine ⟨t, hx, hreq, fun h => ?_, fun h => ?_, hbay, hframe⟩
    · rw [hint, granted_drives h]
    · rw [hint, granted_retunes h]
  · obtain ⟨t, hx, hshown, hrest⟩ := grantAtBay_couples hi hstate hreq hshort hkept hlast
    rw [grantTaken_couples] at hshown
    exact ⟨t, hx, hshown, hrest⟩
  · obtain ⟨t, hx, hshown, hdrain, hframe⟩ := grantAtBay_loses hi hstate hreq hshort hlost
    rw [grantTaken_couples] at hshown
    exact ⟨t, hx, congr(Bay.state $hshown), congr(Bay.coupled $hshown), congr(Bay.requested $hshown),
      congr(Bay.pressurised $hshown), congr(Bay.grants $hshown), congr(Bay.risePaused $hshown), hdrain, hframe⟩

end Sys2Proof.Machine
end

