-- ==== Sys2Proof/Proofs/FaultInput.lean ====
section
/-! RETUNE_EXPIRY and FAULT_INPUT_CHANGE, and the outputs of an intensifier (R133, R136, R138, R139), to the end of the
event. -/

-- Proofs are checked one after another: the whole text, compiled as one, would otherwise start more threads than fit into the
-- check's memory.
set_option Elab.async false

namespace Sys2Proof.Machine

section

variable {s : State} {n : BayId} {i : IntensifierId}

/-! ## The two outputs (R133) -/

theorem drive_iff (x : Intensifier) : x.drive = true ↔ x.state = .driving := decide_eq_true_iff

theorem setpointOutput_asked {x : Intensifier} {p : Nat} (hp : x.requested = some p)
    (h : x.state = .retuning ∨ x.state = .driving) : x.setpointOutput = p := by
  rcases h with h | h <;> simp [Intensifier.setpointOutput, h, hp]

theorem setpointOutput_rests {x : Intensifier} (h : x.state = .offline ∨ x.state = .fault ∨ x.state = .free) :
    x.setpointOutput = 0 := by
  rcases h with h | h | h <;> simp [Intensifier.setpointOutput, h]

/-! ## RETUNE_EXPIRY -/

/-- The state in which the intensifier drives at its new setpoint. -/
def State.retuned (s : State) (i : IntensifierId) : State :=
  s.setIntensifier i { s.intensifier i with
    state := .driving
    setpoint := (s.intensifier i).requested
    retuneExpiry := none }

theorem endRetune_early (h : (s.intensifier i).state ≠ .retuning ∨ s.due (s.intensifier i).retuneExpiry = false) :
    s.endRetune i = s :=
  if_neg fun ⟨hstate, hdue⟩ => h.elim (absurd hstate) fun h => Bool.false_ne_true (h.symm.trans hdue)

theorem endRetune_uncoupled (hstate : (s.intensifier i).state = .retuning)
    (hdue : s.due (s.intensifier i).retuneExpiry = true) (h : (s.intensifier i).coupledBay = none) :
    s.endRetune i = s.retuned i := by
  refine (if_pos ⟨hstate, hdue⟩).trans ?_
  show (match (s.intensifier i).coupledBay with
    | some m => (s.retuned i).drivingNotice m i
    | none => s.retuned i) = _
  rw [h]

theorem endRetune_coupled (hstate : (s.intensifier i).state = .retuning)
    (hdue : s.due (s.intensifier i).retuneExpiry = true) (h : (s.intensifier i).coupledBay = some n) :
    s.endRetune i = (s.retuned i).drivingNotice n i := by
  refine (if_pos ⟨hstate, hdue⟩).trans ?_
  show (match (s.intensifier i).coupledBay with
    | some m => (s.retuned i).drivingNotice m i
    | none => s.retuned i) = _
  rw [h]

theorem frame_retuned (s : State) (i : IntensifierId) : Frame [.intensifier i] s (s.retuned i) := frame_setIntensifier s i _

theorem retuned_intensifier (s : State) (i : IntensifierId) : (s.retuned i).intensifier i = { s.intensifier i with
    state := .driving
    setpoint := (s.intensifier i).requested
    retuneExpiry := none } := (intensifier_setIntensifier ..).trans (if_pos rfl)

/-- A retune that no bay hears of. -/
theorem retune_unheard (h : s.endRetune i = s.retuned i) : Gives (.retuneExpiry i) s fun t =>
    (t.intensifier i).bare = ((s.retuned i).intensifier i).bare ∧ (∀ n, t.bay n = s.bay n) ∧ Frame [.intensifier i] s t := by
  obtain ⟨t, hx, hframe, hends⟩ := event_ends (c := .retuneExpiry i) (exec_effect (congrArg some h)) (frame_retuned s i)
  exact ⟨t, hx, hends.intensifier i, fun n => hframe.bay_eq (by simp), hframe⟩

/-- A retune whose coupled bay starts its rise limit, or resumes it. -/
theorem retune_heard (h : s.endRetune i = (s.retuned i).drivingNotice n i)
    (hstate : (s.bay n).state = .pressurising) (hcoupled : (s.bay n).coupled = some i) : Gives (.retuneExpiry i) s fun t =>
      (t.intensifier i).bare = ((s.retuned i).intensifier i).bare ∧
        (t.bay n).bare = { s.bay n with
          stepTimer := some (s.after ((s.bay n).risePaused.getD s.work.riseLimit))
          risePaused := none }.bare ∧ Frame [.intensifier i, .bay n] s t := by
  have hbay : (s.retuned i).bay n = s.bay n := (frame_retuned s i).bay_eq (by simp)
  have htold := h.trans (drivingNotice_taken (by rw [hbay, hstate]) (by rw [hbay, hcoupled]))
  rw [hbay] at htold
  obtain ⟨t, hx, hframe, hends⟩ := event_ends (c := .retuneExpiry i) (L := [.intensifier i, .bay n])
    (exec_effect (congrArg some htold)) (((frame_retuned s i).mono (by simp)).trans ((frame_setBay _ n _).mono (by simp)))
  refine ⟨t, hx, ?_, ?_, hframe⟩
  · rw [hends.intensifier, setBay_intensifier]
  · rw [hends.bay, bay_setBay_self]
    rfl

theorem mem_bayParts (n : BayId) : Part.bay n ∈ bayParts := List.mem_map_of_mem (mem_allBays n)

theorem retune_ends (hstate : (s.intensifier i).state = .retuning) (hdue : s.due (s.intensifier i).retuneExpiry = true) :
    Gives (.retuneExpiry i) s fun t =>
      (t.intensifier i).bare = ((s.retuned i).intensifier i).bare ∧
        (∀ n, (s.intensifier i).coupledBay = some n → (s.bay n).state = .pressurising → (s.bay n).coupled = some i →
          (t.bay n).bare = { s.bay n with
            stepTimer := some (s.after ((s.bay n).risePaused.getD s.work.riseLimit))
            risePaused := none }.bare) ∧
        (∀ n, (s.intensifier i).coupledBay ≠ some n ∨ (s.bay n).state ≠ .pressurising ∨ (s.bay n).coupled ≠ some i →
          t.bay n = s.bay n) ∧
        Frame (.intensifier i :: bayParts) s t := by
  cases hbay : (s.intensifier i).coupledBay with
  | none =>
    obtain ⟨t, hx, hint, hbays, hframe⟩ := retune_unheard (endRetune_uncoupled hstate hdue hbay)
    exact ⟨t, hx, hint, nofun, fun n _ => hbays n, hframe.mono (by simp)⟩
  | some m =>
    have heq := endRetune_coupled hstate hdue hbay
    have hsame : (s.retuned i).bay m = s.bay m := (frame_retuned s i).bay_eq (by simp)
    by_cases hhears : (s.bay m).state = .pressurising ∧ (s.bay m).coupled = some i
    · obtain ⟨hpress, hcoupled⟩ := hhears
      obtain ⟨t, hx, hint, hshown, hframe⟩ := retune_heard heq hpress hcoupled
      refine ⟨t, hx, hint, fun n hn _ _ => ?_, fun n hn => hframe.bay_eq ?_, hframe.mono (by simp [mem_bayParts])⟩
      · obtain rfl := Option.some.inj hn
        exact hshown
      · have hne : n ≠ m := by
          rintro rfl
          exact hn.elim (absurd rfl) fun h => h.elim (absurd hpress) (absurd hcoupled)
        simp [hne]
    · have hdeaf : (s.bay m).state ≠ .pressurising ∨ (s.bay m).coupled ≠ some i := not_and_or.mp hhears
      obtain ⟨t, hx, hint, hbays, hframe⟩ := retune_unheard (heq.trans (drivingNotice_ignored (by rwa [hsame])))
      refine ⟨t, hx, hint, fun n hn hpress hcoupled => ?_, fun n _ => hbays n, hframe.mono (by simp)⟩
      obtain rfl := Option.some.inj hn
      exact absurd ⟨hpress, hcoupled⟩ hhears

/-! ## FAULT_INPUT_CHANGE -/

/-- The state in which the level of the FAULT input has been recorded. -/
def State.inputRecorded (s : State) (i : IntensifierId) (level : Bool) : State :=
  s.setIntensifier i { s.intensifier i with faultInput := level }

theorem inputRecorded_intensifier (s : State) (i : IntensifierId) (level : Bool) :
    (s.inputRecorded i level).intensifier i = { s.intensifier i with faultInput := level } :=
  (intensifier_setIntensifier ..).trans (if_pos rfl)

theorem frame_inputRecorded (s : State) (i : IntensifierId) (level : Bool) :
    Frame [.intensifier i] s (s.inputRecorded i level) := frame_setIntensifier s i _

theorem changeFaultInput_same {level : Bool} (h : (s.intensifier i).faultInput = level) :
    s.changeFaultInput i level = s := if_pos h

theorem changeFaultInput_off (h : (s.intensifier i).faultInput ≠ false) :
    s.changeFaultInput i false = s.inputRecorded i false := if_neg h

theorem changeFaultInput_on (h : (s.intensifier i).faultInput ≠ true) :
    s.changeFaultInput i true = (s.inputRecorded i true).inputFault i := if_neg h

theorem inputFault_kept (h : (s.intensifier i).state = .offline ∨ (s.intensifier i).state = .fault) :
    s.inputFault i = s := by
  unfold State.inputFault
  dsimp only
  rw [faultIntensifier_kept h]
  rcases h with h | h <;> rw [h]

/-- FREE, RETUNING or DRIVING: an intensifier that a fault cause takes out (R138). -/
def Intensifier.live (x : Intensifier) : Prop := x.state = .free ∨ x.state = .retuning ∨ x.state = .driving

theorem inputFault_uncoupled (h : (s.intensifier i).live) (hbay : (s.intensifier i).coupledBay = none) :
    s.inputFault i = s.faultIntensifier i := by
  unfold State.inputFault
  dsimp only
  rcases h with h | h | h <;> rw [h, hbay]

theorem inputFault_coupled (h : (s.intensifier i).live) (hbay : (s.intensifier i).coupledBay = some n) : s.inputFault i =
    ((s.faultIntensifier i).requestAtHead n ((s.intensifier i).requested.getD 0)).faultNotice n i := by
  unfold State.inputFault
  dsimp only
  rcases h with h | h | h <;> rw [h, hbay]

/-- A change of the level that faults nothing. -/
theorem input_recorded {level : Bool} (h : s.changeFaultInput i level = s.inputRecorded i level) :
    Gives (.faultInputChange i level) s fun t =>
      (t.intensifier i).bare = { s.intensifier i with faultInput := level }.bare ∧ DrainTested s t ∧
        Frame [.intensifier i, .runState] s t := by
  obtain ⟨t, hx, hframe, hends⟩ := event_ends (c := .faultInputChange i level) (L := [.intensifier i, .runState])
    (exec_effect (congrArg (fun u : State => some u.drainTest) h))
    (((frame_inputRecorded s i level).mono (by simp)).trans ((frame_drainTest _).mono (by simp)))
  refine ⟨t, hx, ?_, hends.drainTested ((frame_inputRecorded s i level).runState_eq (by simp)), hframe⟩
  rw [hends.intensifier, drainTest_intensifier, inputRecorded_intensifier]

/-- The state in which the FAULT input's fault has been raised, its coupled bay not yet told. -/
def State.inputRaised (s : State) (i : IntensifierId) : State := (s.inputRecorded i true).faultIntensifier i

theorem frame_inputRaised (s : State) (i : IntensifierId) :
    Frame [.intensifier i, .notices, .alertSeen] s (s.inputRaised i) :=
  ((frame_inputRecorded s i true).mono (by simp)).trans (frame_faultIntensifier _ i)

theorem inputRaised_eq (h : (s.intensifier i).live) : s.inputRaised i =
    ((s.inputRecorded i true).setIntensifier i { (s.intensifier i).faulted with faultInput := true }).raiseAlert
      (intensifierSource i) .intensifierFault := by
  have hrecorded := inputRecorded_intensifier s i true
  rw [State.inputRaised, faultIntensifier_live (by rw [hrecorded]; exact h), hrecorded]
  rfl

theorem inputRaised_intensifier (h : (s.intensifier i).live) :
    (s.inputRaised i).intensifier i = { (s.intensifier i).faulted with faultInput := true } := by
  rw [inputRaised_eq h, raiseAlert_intensifier, intensifier_setIntensifier, if_pos rfl]

theorem alerted_inputRaised (h : (s.intensifier i).live) :
    Alerted (intensifierSource i) .intensifierFault (s.inputRaised i) := by
  rw [inputRaised_eq h]
  exact alerted_raiseAlert _ _ _

/-- A fault of an intensifier that serves no bay. -/
theorem input_faults_idle (hoff : (s.intensifier i).faultInput = false) (hlive : (s.intensifier i).live)
    (hbay : (s.intensifier i).coupledBay = none) : Gives (.faultInputChange i true) s fun t =>
      (t.intensifier i).bare = { (s.intensifier i).faulted with faultInput := true }.bare ∧
        Alerted (intensifierSource i) .intensifierFault t ∧ DrainTested s t ∧
        Frame [.intensifier i, .notices, .alertSeen, .runState] s t := by
  have hrecorded := inputRecorded_intensifier s i true
  have heq : s.changeFaultInput i true = s.inputRaised i := (changeFaultInput_on (by rw [hoff]; decide)).trans
    (inputFault_uncoupled (by rw [hrecorded]; exact hlive) (by rw [hrecorded]; exact hbay))
  obtain ⟨t, hx, hframe, hends⟩ := event_ends (c := .faultInputChange i true)
    (L := [.intensifier i, .notices, .alertSeen, .runState])
    (exec_effect (congrArg (fun u : State => some u.drainTest) heq))
    (((frame_inputRaised s i).mono (by simp)).trans ((frame_drainTest _).mono (by simp)))
  refine ⟨t, hx, ?_, hends.alerted (alerted_inputRaised hlive).drainTest,
    hends.drainTested ((frame_inputRaised s i).runState_eq (by simp)), hframe⟩
  rw [hends.intensifier, drainTest_intensifier, inputRaised_intensifier hlive]

/-! ## The fault of an intensifier that serves a bay (R100, R134, R138) -/

theorem riseLeft_congr {u : State} (hbay : u.bay n = s.bay n) (hseconds : u.lineSeconds = s.lineSeconds) :
    u.riseLeft n = s.riseLeft n := by
  unfold State.riseLeft State.remaining State.due
  rw [hbay, hseconds]

/-- The parts that the fault of an intensifier serving bay `n` can change. -/
def lossParts (i : IntensifierId) (n : BayId) : List Part :=
  [.intensifier i, .requests, .releases, .notices, .alertSeen, .bay n]

/-- The state in which the coupled bay's request lies at the head, the bay not yet told. -/
def State.requeued (s : State) (i : IntensifierId) (n : BayId) : State :=
  (s.inputRaised i).requestAtHead n ((s.intensifier i).requested.getD 0)

theorem frame_requeued (s : State) (i : IntensifierId) (n : BayId) :
    Frame [.intensifier i, .requests, .notices, .alertSeen] s (s.requeued i n) :=
  ((frame_inputRaised s i).mono (by simp)).trans ((frame_setRequests _ _).mono (by simp))

theorem requeued_bay (s : State) (i : IntensifierId) (n m : BayId) : (s.requeued i n).bay m = s.bay m :=
  (frame_requeued s i n).bay_eq (by simp)

theorem requeued_releases (s : State) (i : IntensifierId) (n : BayId) : (s.requeued i n).releases = s.releases :=
  (frame_requeued s i n).releases_eq (by simp)

theorem requeued_requests (s : State) (i : IntensifierId) (n : BayId) : (s.requeued i n).requests =
    ⟨n, (s.intensifier i).requested.getD 0⟩ :: s.requests.filter (fun r => decide (r.bay ≠ n)) := by
  show Request.mk n _ :: (s.inputRaised i).requests.filter _ = _
  rw [(frame_inputRaised s i).requests_eq (by simp)]

theorem requeued_short (s : State) (i : IntensifierId) (n : BayId) : (s.requeued i n).short n = s.short n :=
  short_congr (by rw [requeued_bay]) (by rw [requeued_bay]) (fun _ => (frame_requeued s i n).entry_eq (by simp))
    ((frame_requeued s i n).work_eq (by simp))

/-- What the fault notice of intensifier `i` leaves of bay `n` and its request. -/
structure Lost (s : State) (i : IntensifierId) (n : BayId) (u : State) : Prop where
  deaf : (s.bay n).state ≠ .pressurising ∨ (s.bay n).coupled ≠ some i →
    u.bay n = s.bay n ∧ u.requests = (s.requeued i n).requests
  waits : (s.bay n).state = .pressurising → (s.bay n).coupled = some i → s.short n = false →
    u.requests = (s.requeued i n).requests ∧
      u.bay n = { (s.bay n).waiting with coupled := none, risePaused := s.riseLeft n }
  vents : (s.bay n).state = .pressurising → (s.bay n).coupled = some i → s.short n = true →
    (s.bay n).pressurised = true → u.requests = s.requests.filter (fun r => decide (r.bay ≠ n)) ∧
      u.releases = s.releases ∧
      u.bay n = { s.bay n with coupled := none }.releasing (.void .zeroLapsed) (s.after 60)

theorem requeued_decoupled_bay (s : State) (i : IntensifierId) (n : BayId) : ((s.requeued i n).decoupled n).bay n =
    { (s.bay n).waiting with coupled := none, risePaused := s.riseLeft n } := by
  rw [decoupled_bay, riseLeft_congr (requeued_bay s i n n) ((frame_requeued s i n).lineSeconds_eq (by simp)), requeued_bay]

theorem lost_faultNotice (s : State) (i : IntensifierId) (n : BayId) : Lost s i n ((s.requeued i n).faultNotice n i) := by
  have hbay := requeued_bay s i n n
  have hshort := (decoupled_short (s.requeued i n) n).trans (requeued_short s i n)
  have hdecoupled := requeued_decoupled_bay s i n
  have hset := frame_setBay (s.requeued i n) n { ((s.requeued i n).bay n).waiting with
    coupled := none
    risePaused := (s.requeued i n).riseLeft n }
  constructor
  · intro hdeaf
    rw [faultNotice_ignored (by rwa [hbay])]
    exact ⟨hbay, rfl⟩
  · intro hstate hcoupled henough
    rw [faultNotice_taken (by rwa [hbay]) (by rwa [hbay]), testShortfall_of_enough (hshort.trans henough)]
    exact ⟨hset.requests_eq (by simp), hdecoupled⟩
  · intro hstate hcoupled hlack hpress
    obtain ⟨-, hreq, hrel⟩ := releases_enterReleasing ((s.requeued i n).decoupled n) n (.void .zeroLapsed)
    rw [faultNotice_taken (by rwa [hbay]) (by rwa [hbay]), testShortfall_await_pressurised (by rw [hdecoupled]; rfl)
      (hshort.trans hlack) (by rw [hdecoupled]; exact hpress), hreq, hrel, enterReleasing_bay, hdecoupled]
    refine ⟨?_, ?_, ?_⟩
    · rw [State.decoupled, hset.requests_eq (by simp), requeued_requests]
      simp
    · rw [State.decoupled, hset.releases_eq (by simp), requeued_releases]
      exact List.append_nil _
    · rw [State.decoupled, hset.after_eq (by simp), (frame_requeued s i n).after_eq (by simp)]
      rfl

/-- A fault of an intensifier that serves bay `n`. -/
theorem input_faults_serving (hoff : (s.intensifier i).faultInput = false) (hlive : (s.intensifier i).live)
    (hbay : (s.intensifier i).coupledBay = some n) : Gives (.faultInputChange i true) s fun t =>
      (t.intensifier i).bare = { (s.intensifier i).faulted with faultInput := true }.bare ∧
        Alerted (intensifierSource i) .intensifierFault t ∧
        ((s.bay n).state ≠ .pressurising ∨ (s.bay n).coupled ≠ some i →
          t.bay n = s.bay n ∧ t.requests = (s.requeued i n).requests) ∧
        ((s.bay n).state = .pressurising → (s.bay n).coupled = some i → s.short n = false →
          t.requests = (s.requeued i n).requests ∧
            (t.bay n).bare = { (s.bay n).waiting with coupled := none, risePaused := s.riseLeft n }.bare) ∧
        ((s.bay n).state = .pressurising → (s.bay n).coupled = some i → s.short n = true →
          (s.bay n).pressurised = true → t.requests = s.requests.filter (fun r => decide (r.bay ≠ n)) ∧
            t.releases = s.releases ∧
            (t.bay n).bare = ({ s.bay n with coupled := none }.releasing (.void .zeroLapsed) (s.after 60)).bare) ∧
        DrainTested s t ∧ Frame (.runState :: lossParts i n) s t := by
  have hrecorded := inputRecorded_intensifier s i true
  have heq : s.changeFaultInput i true = (s.requeued i n).faultNotice n i := by
    refine (changeFaultInput_on (by rw [hoff]; decide)).trans
      ((inputFault_coupled (n := n) (by rw [hrecorded]; exact hlive) (by rw [hrecorded]; exact hbay)).trans ?_)
    rw [hrecorded]
    rfl
  have hqueued := frame_requeued s i n
  have hnotice := frame_faultNotice (s.requeued i n) n i
  have hlost := lost_faultNotice s i n
  generalize (s.requeued i n).faultNotice n i = u at heq hnotice hlost
  have hdrain := frame_drainTest u
  obtain ⟨t, hx, hframe, hends⟩ := event_ends (c := .faultInputChange i true) (L := .runState :: lossParts i n)
    (exec_effect (congrArg (fun u : State => some u.drainTest) heq))
    ((hqueued.mono (by simp [lossParts])).trans ((hnotice.mono (by simp [lossParts])).trans (hdrain.mono (by simp))))
  have hrequests : t.requests = u.requests := hends.requests.trans (hdrain.requests_eq (by simp))
  have hreleases : t.releases = u.releases := hends.releases.trans (hdrain.releases_eq (by simp))
  have hshown := hends.drained_bay n
  refine ⟨t, hx, ?_, ?_, fun hdeaf => ?_, fun hstate hcoupled henough => ?_, fun hstate hcoupled hlack hpress => ?_,
    hends.drainTested ((hnotice.runState_eq (by simp)).trans (hqueued.runState_eq (by simp))), hframe⟩
  · rw [hends.intensifier, drainTest_intensifier, ← inputRaised_intensifier hlive]
    exact Eq.trans (hnotice (.intensifier i) (by simp)) rfl
  · have hraised : Alerted (intensifierSource i) .intensifierFault (s.requeued i n) :=
      (alerted_inputRaised hlive).of_frame (frame_setRequests _ _) (by simp) (by simp)
    exact hends.alerted (hraised.of_frame hnotice (by simp) (by simp)).drainTest
  · obtain ⟨hsame, hreq⟩ := hlost.deaf hdeaf
    exact ⟨hends.kept n ((drainTest_bay u n).trans hsame), hrequests.trans hreq⟩
  · obtain ⟨hreq, hwaits⟩ := hlost.waits hstate hcoupled henough
    exact ⟨hrequests.trans hreq, by rw [hshown, hwaits]⟩
  · obtain ⟨hreq, hrel, hvents⟩ := hlost.vents hstate hcoupled hlack hpress
    exact ⟨hrequests.trans hreq, hreleases.trans hrel, by rw [hshown, hvents]⟩

end

theorem lossParts_subset (i : IntensifierId) (n : BayId) : .runState :: lossParts i n ⊆
    [.intensifier i, .requests, .releases, .notices, .alertSeen, .runState] ++ bayParts := by
  simp [lossParts, mem_bayParts]

/-- Settles O58. -/
theorem retuneAndFaultInput : Obligations.RetuneAndFaultInput := by
  refine ⟨fun x => ⟨drive_iff x, fun p hp h => setpointOutput_asked hp h, setpointOutput_rests⟩,
    fun i s => ⟨fun hstate hdue => ?_, fun h => event_kept (congrArg some (endRetune_early h))⟩,
    fun i level s => ⟨fun h => eye_ignored (exec_effect (congrArg (fun u : State => some u.drainTest)
      (changeFaultInput_same h))), fun hchanges h => ?_, fun hoff hon hlive => ?_⟩⟩
  · obtain ⟨t, hx, hint, hrest⟩ := retune_ends hstate hdue
    rw [retuned_intensifier] at hint
    exact ⟨t, hx, hint, hrest⟩
  · cases level with
    | false => exact input_recorded (changeFaultInput_off hchanges)
    | true =>
      refine input_recorded ((changeFaultInput_on hchanges).trans (inputFault_kept ?_))
      rw [inputRecorded_intensifier]
      exact (h.resolve_left nofun).symm
  · subst hon
    cases hbay : (s.intensifier i).coupledBay with
    | none =>
      obtain ⟨t, hx, hint, halert, hdrain, hframe⟩ := input_faults_idle hoff hlive hbay
      exact ⟨t, hx, hint, halert, fun _ => ⟨hframe _ (by simp), hframe _ (by simp), fun n => hframe.bay_eq (by simp)⟩,
        nofun, hdrain, hframe.mono (by simp)⟩
    | some m =>
      obtain ⟨t, hx, hint, halert, hdeaf, hwaits, hvents, hdrain, hframe⟩ := input_faults_serving hoff hlive hbay
      rw [requeued_requests] at hdeaf hwaits
      refine ⟨t, hx, hint, halert, nofun, fun n hn => ?_, hdrain, hframe.mono (lossParts_subset i m)⟩
      obtain rfl := Option.some.inj hn
      exact ⟨hdeaf, hwaits, hvents, fun k hk => hframe.bay_eq (by simp [lossParts, hk])⟩

end Sys2Proof.Machine
end

