-- ==== Sys2Proof/Proofs/StationRules.lean ====
section
/-! What the events of a station do, by the shape of their effect (R145, R148, R149, R150, R151, R152). -/

-- Proofs are checked one after another: the whole text, compiled as one, would otherwise start more threads than fit into the
-- check's memory.
set_option Elab.async false

namespace Sys2Proof.Machine

section

variable {s : State} {st : StationId} {x : Station} {c : Instr}

/-! ## The shapes of an effect -/

theorem Ends.drained_station {u t : State} (h : Ends s u.drainTest t) (st : StationId) :
    (t.station st).bare = (u.station st).bare :=
  (h.station st).trans ((frame_drainTest u).station_bare_eq (by simp))

theorem station_setStation_self (s : State) (st : StationId) (x : Station) : (s.setStation st x).station st = x :=
  (station_setStation ..).trans (if_pos rfl)

theorem setStation_setStation (s : State) (st : StationId) (x y : Station) :
    (s.setStation st x).setStation st y = s.setStation st y := by cases st <;> rfl

/-- An event that changes the station alone. -/
theorem station_recorded (h : effect c s = some (s.setStation st x)) : Gives c s fun t =>
    (t.station st).bare = x.bare ∧ Frame [.station st] s t := by
  obtain ⟨t, hx, hframe, hends⟩ := event_ends (exec_effect h) (frame_setStation s st x)
  exact ⟨t, hx, by rw [hends.station, station_setStation_self], hframe⟩

/-- An event that changes the station and is followed by the drain test. -/
theorem station_drained (h : effect c s = some (s.setStation st x).drainTest) : Gives c s fun t =>
    (t.station st).bare = x.bare ∧ DrainTested s t ∧ Frame [.station st, .runState] s t := by
  have hset := frame_setStation s st x
  obtain ⟨t, hx, hframe, hends⟩ := event_ends (L := [.station st, .runState]) (exec_effect h)
    ((hset.mono (by simp)).trans ((frame_drainTest _).mono (by simp)))
  exact ⟨t, hx, by rw [hends.drained_station, station_setStation_self],
    hends.drainTested (hset.runState_eq (by simp)), hframe⟩

/-- An event that faults the station, from the record `x` it leaves. -/
theorem station_faults {cause : AlertCode} (h : effect c s = some ((s.setStation st x).stationFault st cause).drainTest) :
    Gives c s fun t => (t.station st).bare = { x with state := .fault, faultCause := some cause }.bare ∧
      Alerted (stationSource st) cause t ∧ DrainTested s t ∧ Frame [.station st, .notices, .alertSeen, .runState] s t := by
  have hset := frame_setStation s st x
  have hfault := frame_stationFault (s.setStation st x) st cause
  obtain ⟨t, hx, hframe, hends⟩ := event_ends (L := [.station st, .notices, .alertSeen, .runState]) (exec_effect h)
    ((hset.mono (by simp)).trans ((hfault.mono (by simp)).trans ((frame_drainTest _).mono (by simp))))
  refine ⟨t, hx, ?_, hends.alerted (alerted_raiseAlert _ _ _).drainTest, hends.drainTested ?_, hframe⟩
  · rw [hends.drained_station, stationFault_station, station_setStation_self]
  · rw [hfault.runState_eq (by simp), hset.runState_eq (by simp)]

/-! ## The order of a station (R149) -/

theorem checkedOrder_orderBytes (kind cls : Byte) (text : List Byte) : checkedOrder (orderBytes kind cls text) := by
  unfold checkedOrder orderBytes
  dsimp only
  rw [List.dropLast_concat, List.getLastD_concat]
  rfl

theorem orderBytes_eq (kind cls : Byte) (text : List Byte) : ∃ check,
    orderBytes kind cls text = [kind, cls, BitVec.ofNat 8 text.length] ++ text ++ [check] := ⟨_, rfl⟩

theorem stationOrder_stamper {e : Entry} {q : Params} {mark : List Byte} (hq : e.params = some q)
    (hmark : e.mark = some mark) : stationOrder .stamper e = orderBytes 0x53#8 (BitVec.ofNat 8 q.strikeClass) mark := by
  unfold stationOrder
  rw [hq, hmark]
  rfl

theorem stationOrder_defacer {e : Entry} {q : Params} (hq : e.params = some q) :
    stationOrder .defacer e = orderBytes 0x44#8 (if q.capacity ≤ 100 then 1#8 else 2#8) (e.serial.getD []) := by
  unfold stationOrder
  rw [hq]
  rfl

/-! ## The offering (R150, R151, R152) -/

theorem brokenOff_eq (x : Station) : x.brokenOff = x.silenced := rfl

theorem breakOffering_eq (x : Station) :
    x.breakOffering = if x.state = .offering then { x.silenced with state := .nestLoaded } else x := by
  unfold Station.breakOffering
  split
  next h => exact (if_pos h).symm
  next h => exact (if_neg h).symm

theorem offerOrder_opens (hstate : (s.station st).state = .nestLoaded) (hguard : s.guardClosed = true)
    (hready : (s.station st).ready = true) (hrun : s.runState ≠ .eStopped) : s.offerOrder st =
      s.setStation st ({ s.station st with state := .offering }.offerByte 1 (s.after 2)) :=
  if_pos (by simp [State.offerGate, hstate, hguard, hready, stopped_eq_false hrun])

theorem offerOrder_waits (h : (s.station st).state ≠ .nestLoaded ∨ s.guardClosed = false ∨
    (s.station st).ready = false ∨ s.runState = .eStopped) : s.offerOrder st = s := by
  refine if_neg ?_
  rcases h with h | h | h | h
  · simp [State.offerGate, h]
  · simp [State.offerGate, h]
  · simp [State.offerGate, h]
  · simp [State.offerGate, stopped_eq_true h]

theorem offerByte_eq (x : Station) (pos : Nat) (e : Seconds) : x.offerByte pos e = { x with
    bytePos := some pos
    limit := some e
    orderReady := if x.taken then x.orderReady else true
    orderBus := if x.taken then x.orderBus else (x.order.getD []).getD (pos - 1) 0x00#8 } := by
  unfold Station.offerByte
  cases x.taken <;> rfl

theorem expireTake_due (hstate : (s.station st).state = .offering) (hdue : s.due (s.station st).limit = true) :
    s.expireTake st = (s.setStation st (s.station st).silenced).stationFault st .noAnswer := if_pos ⟨hstate, hdue⟩

theorem expireTake_early (h : (s.station st).state ≠ .offering ∨ s.due (s.station st).limit = false) :
    s.expireTake st = s :=
  if_neg fun ⟨hstate, hdue⟩ => h.elim (absurd hstate) fun h => Bool.false_ne_true (h.symm.trans hdue)

/-! ## TAKEN (R151) -/

theorem changeTaken_same : s.changeTaken st (s.station st).taken = s := if_pos rfl

theorem changeTaken_recorded {level : Bool} (hlevel : (s.station st).taken ≠ level)
    (h : (s.station st).state ≠ .offering ∨ (level = true ∧ (s.station st).orderReady = false) ∨
      (level = false ∧ (s.station st).orderReady = true)) :
    s.changeTaken st level = s.setStation st { s.station st with taken := level } := by
  refine (if_neg hlevel).trans ?_
  by_cases hstate : (s.station st).state = .offering
  · rw [if_pos hstate]
    rcases h.resolve_left (absurd hstate) with ⟨rfl, hready⟩ | ⟨rfl, hready⟩
    · exact (if_pos rfl).trans (if_neg (by simp [hready]))
    · exact (if_neg Bool.false_ne_true).trans (if_pos hready)
  · exact if_neg hstate

/-- The station at the moment a byte has been taken. -/
def Station.byteGone (x : Station) : Station := { x with taken := true, orderReady := false, limit := none }

theorem changeTaken_taken (hstate : (s.station st).state = .offering) (htaken : (s.station st).taken = false)
    (hready : (s.station st).orderReady = true) : s.changeTaken st true = s.setStation st
      (if ((s.station st).order.getD []).length ≤ (s.station st).bytePos.getD 0 then
        (s.station st).byteGone.startWork (s.after (workLimitOf st))
      else (s.station st).byteGone.offerByte ((s.station st).bytePos.getD 0 + 1) (s.after 2)) := by
  have hlevel : (s.station st).taken ≠ true := by
    rw [htaken]
    decide
  refine (if_neg hlevel).trans ((if_pos hstate).trans ((if_pos rfl).trans ((if_pos hready).trans ?_)))
  rw [State.byteTaken, updStation_eq, updStation_eq, setStation_setStation, station_setStation_self]
  rfl

theorem changeTaken_placed (hstate : (s.station st).state = .offering) (htaken : (s.station st).taken = true)
    (hready : (s.station st).orderReady = false) : s.changeTaken st false =
      s.setStation st { s.station st with taken := false }.placeByte := by
  have hlevel : (s.station st).taken ≠ false := by
    rw [htaken]
    decide
  refine (if_neg hlevel).trans ((if_pos hstate).trans ((if_neg Bool.false_ne_true).trans ((if_neg ?_).trans ?_)))
  · simp [hready]
  · rw [updStation_eq, updStation_eq, setStation_setStation, station_setStation_self]

end

end Sys2Proof.Machine
end

