-- ==== Sys2Proof/Proofs/NestAndOffering.lean ====
section
/-! The nest eye, the guard and the offering (R147 to R152), to the end of the event. -/

-- Proofs are checked one after another: the whole text, compiled as one, would otherwise start more threads than fit into the
-- check's memory.
set_option Elab.async false

namespace Sys2Proof.Machine

section

variable {s : State} {st : StationId}

/-! ## NEST_EYE (R148) -/

theorem nestEyeOn_none (h : (s.station st).loading = none) :
    s.nestEyeOn st = s.setStation st { s.station st with nestEye := true } := by
  unfold State.nestEyeOn
  rw [h]
  rfl

/-- The state in which the station has taken the cylinder at its nest eye. -/
def State.nestLoaded (s : State) (st : StationId) (i : RosterIndex) : State :=
  s.setStation st ({ s.station st with nestEye := true }.loaded st (s.entry i))

theorem nestEyeOn_some {tr : Transit} {i : RosterIndex} (hload : (s.station st).loading = some tr)
    (hindex : (s.station st).index = some i) (hsource : tr.source = .outfeedHead) : s.nestEyeOn st =
      { (s.nestLoaded st i).reportEnd tr.item (.station st) with outfeedHeadInFlight := false } := by
  unfold State.nestEyeOn
  rw [hload, hindex]
  dsimp only
  rw [tellSource_outfeed hsource, updStation_eq, updStation_eq, setStation_setStation, station_setStation_self]
  rfl

theorem markBuffer_eq (st : StationId) (e : Entry) : markBuffer st e = if st = .stamper then e.mark else none := by
  cases st <;> rfl

theorem loaded_eq (x : Station) (st : StationId) (e : Entry) : x.loaded st e = { x with
    loading := none
    nest := .loaded
    reoffer := 0
    mark := if st = StationId.stamper then e.mark else none
    order := some (stationOrder st e)
    state := if x.state = StationState.nestLoading then .nestLoaded else x.state } := by
  rw [← markBuffer_eq]
  unfold Station.loaded
  cases x.state <;> rfl

theorem nestEye_loads {tr : Transit} {i : RosterIndex} (hload : (s.station st).loading = some tr)
    (hindex : (s.station st).index = some i) (hsource : tr.source = .outfeedHead) : Gives (.nestEye st) s fun t =>
      (t.station st).bare = ({ s.station st with nestEye := true }.loaded st (s.entry i)).bare ∧
        ArrivedAt tr.item (.station st) s t ∧ t.outfeedHeadInFlight = false ∧ t.outfeedQueue = s.outfeedQueue ∧
        t.outfeedState = s.outfeedState ∧ DrainTested s t ∧
        Frame ([.station st, .outfeed, .runState] ++ itemParts tr.item) s t := by
  have hloaded : Frame [.station st] s (s.nestLoaded st i) := frame_setStation s st _
  have hreport := frame_reportEnd (s.nestLoaded st i) tr.item (.station st)
  have harrived := arrivedAt_reportEnd (s.nestLoaded st i) tr.item (.station st)
  have hstation : (s.nestLoaded st i).station st = { s.station st with nestEye := true }.loaded st (s.entry i) :=
    station_setStation_self ..
  have heq := nestEyeOn_some hload hindex hsource
  generalize (s.nestLoaded st i).reportEnd tr.item (.station st) = w at hreport harrived heq
  have htold := frame_setHeadInFlight w false
  have hdrain := frame_drainTest ({ w with outfeedHeadInFlight := false } : State)
  obtain ⟨t, hx, hframe, hends⟩ := event_ends (c := .nestEye st) (L := [.station st, .outfeed, .runState] ++ itemParts tr.item)
    (exec_effect (congrArg (fun u : State => some u.drainTest) heq))
    ((hloaded.mono (by simp)).trans ((hreport.mono (List.subset_append_right ..)).trans
      ((htold.mono (by simp)).trans (hdrain.mono (by simp)))))
  obtain ⟨hstateL, hqueueL, -⟩ := hloaded.outfeed_eq (by simp)
  obtain ⟨hstateR, hqueueR, -⟩ := hreport.outfeed_eq (not_mem_itemParts (by simp) tr.item)
  obtain ⟨hstateD, hqueueD, hflight⟩ := hdrain.outfeed_eq (by simp)
  obtain ⟨hstateE, hqueueE, hflightE⟩ := hends.outfeed
  refine ⟨t, hx, ?_, harrived.congr (fun j => hloaded.entry_eq (by simp)) (fun j => ?_), hflightE.trans hflight, ?_, ?_,
    hends.drainTested ?_, hframe⟩
  · rw [hends.drained_station, htold.station_bare_eq (by simp), hreport.station_bare_eq (not_mem_itemParts (by simp) tr.item),
      hstation]
  · rw [hends.entry, drainTest_entry, htold.entry_eq (by simp)]
  · rw [hqueueE, hqueueD, hqueueR, hqueueL]
  · rw [hstateE, hstateD, hstateR, hstateL]
  · exact (hreport.runState_eq (not_mem_itemParts (by simp) tr.item)).trans (hloaded.runState_eq (by simp))

/-! ## GUARD_CLOSED_CHANGE (R152) -/

theorem frame_setGuardClosed (s : State) (level : Bool) : Frame [.guardClosed] s { s with guardClosed := level } := by
  intro p hp
  cases p
  case guardClosed => simp at hp
  case store => exact .of_mem_eq rfl
  case mailbox => exact ⟨rfl, rfl, rfl, rfl⟩
  case settings | outfeed => exact ⟨rfl, rfl, rfl⟩
  case notices | types | templates => exact ⟨rfl, rfl⟩
  all_goals rfl

theorem frame_changeGuard (s : State) (level : Bool) :
    Frame [.guardClosed, .station .stamper, .station .defacer] s (s.changeGuard level) := by
  have hguard := (frame_setGuardClosed s level).mono (M := [.guardClosed, .station .stamper, .station .defacer]) (by simp)
  exact .ite (fun _ => hguard.trans (((frame_setStation _ .stamper _).mono (by simp)).trans
    ((frame_setStation _ .defacer _).mono (by simp)))) (fun _ => hguard)

theorem changeGuard_guardClosed (s : State) (level : Bool) : (s.changeGuard level).guardClosed = level := by
  unfold State.changeGuard
  split <;> rfl

theorem changeGuard_station (s : State) (level : Bool) (st : StationId) : (s.changeGuard level).station st =
    if s.guardClosed = true ∧ level = false ∧ (s.station st).state = StationState.offering then
      { (s.station st).silenced with state := .nestLoaded } else s.station st := by
  by_cases hopens : s.guardClosed = true ∧ level = false
  · have hbroken : (s.changeGuard level).station st = (s.station st).breakOffering := by
      rw [State.changeGuard, if_pos hopens]
      cases st <;> rfl
    rw [hbroken, breakOffering_eq]
    exact if_congr (by simp [hopens]) rfl rfl
  · rw [State.changeGuard, if_neg hopens, if_neg fun ⟨hclosed, hlevel, _⟩ => hopens ⟨hclosed, hlevel⟩]
    cases st <;> rfl

theorem guard_changes (level : Bool) (s : State) : Gives (.guardClosedChange level) s fun t =>
    t.guardClosed = level ∧
      (∀ st, (t.station st).bare =
        (if s.guardClosed = true ∧ level = false ∧ (s.station st).state = StationState.offering then
          { (s.station st).silenced with state := .nestLoaded }
         else s.station st).bare) ∧
      Frame [.guardClosed, .station .stamper, .station .defacer] s t := by
  refine ⟨s.publish (s.changeGuard level), rfl, ?_, fun st => ?_, (frame_changeGuard s level).publish⟩
  · rw [publish_guardClosed, changeGuard_guardClosed]
  · rw [publish_station_bare, changeGuard_station]

/-! ## The offering (R150, R151) -/

theorem offer_opens (hstate : (s.station st).state = .nestLoaded) (hguard : s.guardClosed = true)
    (hready : (s.station st).ready = true) (hrun : s.runState ≠ .eStopped) : Gives (.orderOffer st) s fun t =>
      (t.station st).bare = { s.station st with
        state := .offering
        bytePos := some 1
        limit := some (s.after 2)
        orderReady := if (s.station st).taken then (s.station st).orderReady else true
        orderBus := if (s.station st).taken then (s.station st).orderBus
          else ((s.station st).order.getD []).getD 0 0x00#8 }.bare ∧ Frame [.station st] s t := by
  have heq := offerOrder_opens hstate hguard hready hrun
  rw [offerByte_eq] at heq
  exact station_recorded (c := .orderOffer st) (congrArg some heq)

theorem workLimitOf_eq (st : StationId) : workLimitOf st = if st = .stamper then 20 else 40 := by cases st <;> rfl

theorem taken_next {pos : Nat} {order : List Byte} (hpos : (s.station st).bytePos = some pos)
    (horder : (s.station st).order = some order) (hstate : (s.station st).state = .offering)
    (htaken : (s.station st).taken = false) (hready : (s.station st).orderReady = true) : Gives (.taken st true) s fun t =>
      (pos < order.length → (t.station st).bare = { s.station st with
        taken := true
        orderReady := false
        bytePos := some (pos + 1)
        limit := some (s.after 2) }.bare) ∧
      (order.length ≤ pos → (t.station st).bare = { s.station st with
        taken := true
        orderReady := false
        state := .working
        bytePos := none
        limit := some (s.after (if st = StationId.stamper then 20 else 40)) }.bare) ∧
      Frame [.station st] s t := by
  have heq := changeTaken_taken hstate htaken hready
  rw [hpos, horder, workLimitOf_eq] at heq
  obtain ⟨t, hx, hshown, hframe⟩ := station_recorded (c := .taken st true) (congrArg some heq)
  refine ⟨t, hx, fun hmore => hshown.trans (congrArg Station.bare ?_), fun hlast => hshown.trans (congrArg Station.bare ?_),
    hframe⟩
  · exact (if_neg (not_le_of_gt hmore)).trans rfl
  · exact (if_pos hlast).trans rfl

theorem taken_places {pos : Nat} {order : List Byte} (hpos : (s.station st).bytePos = some pos)
    (horder : (s.station st).order = some order) (hstate : (s.station st).state = .offering)
    (htaken : (s.station st).taken = true) (hready : (s.station st).orderReady = false) : Gives (.taken st false) s fun t =>
      (t.station st).bare = { s.station st with
        taken := false
        orderReady := true
        orderBus := order.getD (pos - 1) 0x00#8 }.bare ∧ Frame [.station st] s t := by
  have hplaced : { s.station st with taken := false }.placeByte = { s.station st with
      taken := false
      orderReady := true
      orderBus := order.getD (pos - 1) 0x00#8 } := by
    have hbus : ((s.station st).order.getD []).getD ((s.station st).bytePos.getD 1 - 1) 0x00#8 =
        order.getD (pos - 1) 0x00#8 := by
      rw [hpos, horder]
      rfl
    rw [← hbus]
    rfl
  have heq := changeTaken_placed hstate htaken hready
  rw [hplaced] at heq
  exact station_recorded (c := .taken st false) (congrArg some heq)

end

/-! ## The order's bytes (R149) -/

theorem stamperOrder {e : Entry} {q : Params} {mark : List Byte} (hq : e.params = some q) (hmark : e.mark = some mark) :
    ∃ check, stationOrder .stamper e =
      [0x53#8, BitVec.ofNat 8 q.strikeClass, BitVec.ofNat 8 mark.length] ++ mark ++ [check] ∧
        checkedOrder (stationOrder .stamper e) := by
  rw [stationOrder_stamper hq hmark]
  exact ⟨_, rfl, checkedOrder_orderBytes ..⟩

theorem defacerOrder {e : Entry} {q : Params} {serial : List Byte} (hq : e.params = some q)
    (hserial : e.serial = some serial) : ∃ check, stationOrder .defacer e =
      [0x44#8, if q.capacity ≤ 100 then 1#8 else 2#8, BitVec.ofNat 8 serial.length] ++ serial ++ [check] ∧
        checkedOrder (stationOrder .defacer e) := by
  rw [stationOrder_defacer hq, hserial]
  exact ⟨_, rfl, checkedOrder_orderBytes ..⟩

theorem defacerOrder_unnamed {e : Entry} {q : Params} (hq : e.params = some q) (hserial : e.serial = none) :
    stationOrder .defacer e =
      [0x44#8, if q.capacity ≤ 100 then 1#8 else 2#8, 0#8, if q.capacity ≤ 100 then 0x45#8 else 0x46#8] := by
  rw [stationOrder_defacer hq, hserial]
  split <;> rfl

/-- Settles O59. -/
theorem nestAndOffering : Obligations.NestAndOffering := by
  refine ⟨fun st s => ⟨fun hload => station_drained (c := .nestEye st)
        (congrArg (fun u : State => some u.drainTest) (nestEyeOn_none hload)),
      fun tr hload hsource i hindex => ?_, station_recorded (c := .stationNestEyeOff st) rfl,
      fun level => station_recorded (c := .stationReadyChange st level) rfl⟩,
    fun e => ⟨fun q mark hq hmark => stamperOrder hq hmark, fun q serial hq hserial => defacerOrder hq hserial,
      fun q hq hserial => defacerOrder_unnamed hq hserial⟩,
    guard_changes,
    fun st s => ⟨offer_opens, fun h => event_kept (congrArg some (offerOrder_waits h)),
      fun hstate hdue => station_faults (congrArg (fun u : State => some u.drainTest) (expireTake_due hstate hdue)),
      fun h => eye_ignored (exec_effect (congrArg (fun u : State => some u.drainTest) (expireTake_early h)))⟩,
    fun st s => ⟨event_kept (congrArg some changeTaken_same),
      fun level hlevel h => station_recorded (congrArg some (changeTaken_recorded hlevel h)),
      fun pos order hpos horder hstate htaken hready => taken_next hpos horder hstate htaken hready,
      fun pos order hpos horder hstate htaken hready => taken_places hpos horder hstate htaken hready⟩⟩
  obtain ⟨t, hx, hshown, hrest⟩ := nestEye_loads hload hindex hsource
  rw [loaded_eq] at hshown
  exact ⟨t, hx, hshown, hrest⟩

end Sys2Proof.Machine
end

