-- ==== Sys2Proof/Proofs/ResultRules.lean ====
section
/-! What a station does with a result, a work limit and an eject (R153, R154, R155, R156, R157). -/

-- Proofs are checked one after another: the whole text, compiled as one, would otherwise start more threads than fit into the
-- check's memory.
set_option Elab.async false

namespace Sys2Proof.Machine

section

variable {s : State} {st : StationId} {i : RosterIndex}

/-! ## The doubt (R20, R154) -/

theorem doubtReported_reportDoubt (s : State) (st : StationId) (i : RosterIndex) :
    DoubtReported st i s (s.reportDoubt st i) := by
  intro hlive hroute
  have hstation : stationRoute st = if st = .stamper then Route.stamp else Route.deface := by cases st <;> rfl
  have hreason : doubtReason st = if st = .stamper then Reason.markUncertain else Reason.defaceUncertain := by
    cases st <;> rfl
  rw [State.reportDoubt, if_pos ⟨hlive, hroute.trans (congrArg some hstation.symm)⟩, editEntry_eq, entry_setEntry,
    if_pos rfl, hreason]
  rfl

theorem DoubtReported.congr {r s t u : State} (h : DoubtReported st i r u) (hbefore : r.entry i = s.entry i)
    (hafter : t.entry i = u.entry i) : DoubtReported st i s t := by
  intro hlive hroute
  rw [hafter, h (by rwa [hbefore]) (by rwa [hbefore]), hbefore]

theorem stationDoubt_eq (hindex : (s.station st).index = some i) : s.stationDoubt st = s.reportDoubt st i := by
  unfold State.stationDoubt
  rw [hindex]

/-- The state in which the station has reported its doubt and ejects to the hold chute. -/
def State.doubted (s : State) (st : StationId) (x : Station) : State := (s.stationDoubt st).setStation st x

theorem frame_doubted (hindex : (s.station st).index = some i) (x : Station) :
    Frame [.station st, .entry i] s (s.doubted st x) := by
  rw [State.doubted, stationDoubt_eq hindex]
  exact ((frame_reportDoubt s st i).mono (by simp)).trans ((frame_setStation _ st _).mono (by simp))

theorem doubtReported_doubted (hindex : (s.station st).index = some i) (x : Station) :
    DoubtReported st i s (s.doubted st x) := by
  rw [State.doubted, stationDoubt_eq hindex]
  exact (doubtReported_reportDoubt s st i).congr rfl ((frame_setStation _ st x).entry_eq (by simp))

theorem reportDoubt_station (s : State) (st : StationId) (i : RosterIndex) :
    (s.reportDoubt st i).station st = s.station st := by
  unfold State.reportDoubt
  split <;> cases st <;> rfl

theorem stationDoubt_station (hindex : (s.station st).index = some i) :
    (s.stationDoubt st).station st = s.station st := by rw [stationDoubt_eq hindex, reportDoubt_station]

theorem eject_eq (x : Station) (exit : Exit) : x.eject exit = x.ejecting exit := rfl

theorem faultedResult_eq (hindex : (s.station st).index = some i) (cause : AlertCode) : s.faultedResult st cause =
    (s.doubted st { (s.station st).ejecting .holdChute with faultCause := some cause }).raiseAlert
      (stationSource st) cause := by
  rw [State.faultedResult, updStation_eq, stationDoubt_station hindex]
  rfl

/-- What TOOL FAULT and its like leave (R154). -/
theorem faultedResult_leaves (hindex : (s.station st).index = some i) (cause : AlertCode) :
    (s.faultedResult st cause).station st = { (s.station st).ejecting .holdChute with faultCause := some cause } ∧
      Alerted (stationSource st) cause (s.faultedResult st cause) ∧ DoubtReported st i s (s.faultedResult st cause) ∧
      Frame [.station st, .entry i, .notices, .alertSeen] s (s.faultedResult st cause) := by
  rw [faultedResult_eq hindex]
  have hraise := frame_raiseAlert (s.doubted st { (s.station st).ejecting .holdChute with faultCause := some cause })
    (stationSource st) cause
  refine ⟨?_, alerted_raiseAlert _ _ _, (doubtReported_doubted hindex _).congr rfl (hraise.entry_eq (by simp)),
    ((frame_doubted hindex _).mono (by simp)).trans (hraise.mono (by simp))⟩
  rw [raiseAlert_station, State.doubted, station_setStation_self]

/-! ## NO CYLINDER (R154) -/

theorem frame_setChoices (s : State) (k : Nat) : Frame [.choices] s { s with choices := k } := by
  intro p hp
  cases p
  case choices => simp at hp
  case store => exact .of_mem_eq rfl
  case mailbox => exact ⟨rfl, rfl, rfl, rfl⟩
  case settings | outfeed => exact ⟨rfl, rfl, rfl⟩
  case notices | types | templates => exact ⟨rfl, rfl⟩
  all_goals rfl

/-- A station that has found no cylinder on its nest. -/
def Station.bereft (x : Station) : Station :=
  { x with
    state := .fault
    nest := .empty
    index := none
    order := none
    mark := none
    faultCause := some .noCylinder }

/-- The state in which the station has found no cylinder, the entry not yet closed. -/
def State.nestBereft (s : State) (st : StationId) : State :=
  ({ s with choices := s.choices + 1 } : State).setStation st (s.station st).bereft

theorem frame_nestBereft (s : State) (st : StationId) : Frame [.station st, .choices] s (s.nestBereft st) :=
  ((frame_setChoices s _).mono (by simp)).trans ((frame_setStation _ st _).mono (by simp))

theorem noCylinderResult_eq (hindex : (s.station st).index = some i) : s.noCylinderResult st =
    if Config.outcomeFirst s.choices then
      ((s.nestBereft st).closeNoCylinder i).raiseAlert (stationSource st) .noCylinder
    else ((s.nestBereft st).raiseAlert (stationSource st) .noCylinder).closeNoCylinder i := by
  unfold State.noCylinderResult
  rw [hindex]
  rfl

theorem closed_closeNoCylinder (h : (s.entry i).state = .outbound) :
    Closed i .missing .noCylinder s (s.closeNoCylinder i) := by
  rw [State.closeNoCylinder, if_pos h]
  exact closed_closeEntry s i _ _

theorem Closed.raiseAlert {code : OutcomeCode} {reason : Reason} {t : State} (h : Closed i code reason s t) (source : Nat)
    (alert : AlertCode) : Closed i code reason s (t.raiseAlert source alert) :=
  ⟨((frame_raiseAlert t source alert).entry_eq (by simp)).trans h.1, h.2.raiseAlert (.inl rfl)⟩

theorem Closed.before {code : OutcomeCode} {reason : Reason} {r t : State} (h : Closed i code reason r t)
    (hentry : r.entry i = s.entry i) (hseconds : r.lineSeconds = s.lineSeconds) : Closed i code reason s t := by
  rwa [Closed, hentry, hseconds] at h

theorem Alerted.closeNoCylinder {source : Nat} {code : AlertCode} (h : Alerted source code s) :
    Alerted source code (s.closeNoCylinder i) := by
  unfold State.closeNoCylinder
  split
  · exact (h.of_frame (frame_editEntry s i _) (by simp) (by simp)).raiseOutcome i _ _
  · exact h

/-- What NO CYLINDER leaves, in either order of its two notices. -/
structure Bereft (s : State) (st : StationId) (i : RosterIndex) (u : State) : Prop where
  station : (u.station st).bare = (s.station st).bereft.bare
  alerted : Alerted (stationSource st) .noCylinder u
  closed : (s.entry i).state = .outbound → Closed i .missing .noCylinder s u
  frame : Frame [.station st, .entry i, .notices, .alertSeen, .choices] s u

theorem bereft_noCylinderResult (hindex : (s.station st).index = some i) : Bereft s st i (s.noCylinderResult st) := by
  have hlost := frame_nestBereft s st
  have hstation : (s.nestBereft st).station st = (s.station st).bereft := station_setStation_self ..
  have hentry : (s.nestBereft st).entry i = s.entry i := hlost.entry_eq (by simp)
  have hseconds : (s.nestBereft st).lineSeconds = s.lineSeconds := hlost.lineSeconds_eq (by simp)
  generalize hw : s.nestBereft st = w at hlost hstation hentry hseconds
  have hframe := hlost.mono (M := [.station st, .entry i, .notices, .alertSeen, .choices]) (by simp)
  rw [noCylinderResult_eq hindex, hw]
  split
  · have hclose := frame_closeNoCylinder w i
    have hraise := frame_raiseAlert (w.closeNoCylinder i) (stationSource st) .noCylinder
    refine ⟨?_, alerted_raiseAlert _ _ _, fun hout => ?_, hframe.trans ((hclose.mono (by simp)).trans (hraise.mono (by simp)))⟩
    · rw [hraise.station_bare_eq (by simp), hclose.station_bare_eq (by simp), hstation]
    · exact ((closed_closeNoCylinder (by rw [hentry, hout])).raiseAlert _ _).before hentry hseconds
  · have hraise := frame_raiseAlert w (stationSource st) .noCylinder
    have hclose := frame_closeNoCylinder (w.raiseAlert (stationSource st) .noCylinder) i
    have halert := alerted_raiseAlert w (stationSource st) .noCylinder
    refine ⟨?_, halert.closeNoCylinder, fun hout => ?_, hframe.trans ((hraise.mono (by simp)).trans (hclose.mono (by simp)))⟩
    · rw [hclose.station_bare_eq (by simp), hraise.station_bare_eq (by simp), hstation]
    · exact (closed_closeNoCylinder (by rw [raiseAlert_entry, hentry, hout])).before hentry hseconds

/-! ## The results by their value (R154, R155, R156) -/

/-- A station that has latched a result, its work limit stopped. -/
def Station.latched (x : Station) (result : BitVec 4) (level : Bool) : Station :=
  { x with resultLatch := result, done := level, limit := none }

theorem strobe_working {result : BitVec 4} {level : Bool} (hstate : (s.station st).state = .working) :
    s.strobe st result level =
      (s.setStation st ((s.station st).latched result level)).actOnResult st result.toNat := by
  unfold State.strobe
  rw [hstate]
  dsimp only
  rw [updStation_eq, updStation_eq, setStation_setStation, station_setStation_self]
  rfl

theorem strobe_recorded {result : BitVec 4} {level : Bool} (hstate : (s.station st).state = .fault ∨
    (s.station st).state = .offline) :
    s.strobe st result level = s.setStation st { s.station st with resultLatch := result, done := level } := by
  unfold State.strobe
  rcases hstate with h | h <;> rw [h] <;> rfl

theorem strobe_breach {result : BitVec 4} {level : Bool} (hstate : (s.station st).state = .idle ∨
    (s.station st).state = .nestLoading ∨ (s.station st).state = .nestLoaded ∨ (s.station st).state = .ejecting) :
    s.strobe st result level =
      (s.setStation st { s.station st with resultLatch := result, done := level }).stationFault st .protocol := by
  unfold State.strobe
  rcases hstate with h | h | h | h <;> rw [h] <;> rfl

theorem strobe_offering {result : BitVec 4} {level : Bool} (hstate : (s.station st).state = .offering) :
    s.strobe st result level = (s.setStation st
      { s.station st with resultLatch := result, done := level }.silenced).stationFault st .protocol := by
  unfold State.strobe
  rw [hstate]
  dsimp only
  rw [updStation_eq, updStation_eq, setStation_setStation, station_setStation_self]
  rfl

theorem actOnResult_one : s.actOnResult st 1 = s.updStation st (fun x => x.eject (completeExit st)) := rfl

theorem actOnResult_two : s.actOnResult st 2 = (s.stationDoubt st).updStation st (fun x => x.eject .holdChute) := rfl

theorem actOnResult_outside {k : Nat} (h : k = 0 ∨ 6 ≤ k) : s.actOnResult st k = s.faultedResult st .protocol := by
  rcases h with rfl | h
  · rfl
  · obtain ⟨j, rfl⟩ := Nat.exists_eq_add_of_le' h
    rfl

theorem badOrder_repeats (h : (s.station st).reoffer = 0) :
    s.badOrder st = s.setStation st { s.station st with reoffer := 1, state := .nestLoaded } := if_pos h

theorem badOrder_faults (h : (s.station st).reoffer ≠ 0) : s.badOrder st = s.stationFault st .protocol := if_neg h

/-! ## The work limit and the eject (R153, R157) -/

theorem expireWork_due (hstate : (s.station st).state = .working) (hdue : s.due (s.station st).limit = true) :
    s.expireWork st = s.faultedResult st .toolFault := if_pos ⟨hstate, hdue⟩

theorem expireWork_early (h : (s.station st).state ≠ .working ∨ s.due (s.station st).limit = false) :
    s.expireWork st = s :=
  if_neg fun ⟨hstate, hdue⟩ => h.elim (absurd hstate) fun h => Bool.false_ne_true (h.symm.trans hdue)

/-- The state in which the eject has begun, the roster not yet told. -/
def State.ejectStarted (s : State) (st : StationId) (i : RosterIndex) (exit : Exit) : State :=
  { s.setStation st { s.station st with ejectBegun := true } with
    exits := s.exits ++ [⟨begunTransit s (.entry i) (.station st), exit⟩] }

theorem frame_ejectStarted (s : State) (st : StationId) (i : RosterIndex) (exit : Exit) :
    Frame [.station st, .exits] s (s.ejectStarted st i exit) :=
  ((frame_setStation s st _).mono (by simp)).trans ((frame_setExits _ _).mono (by simp))

theorem ejectStarted_station (s : State) (st : StationId) (i : RosterIndex) (exit : Exit) :
    (s.ejectStarted st i exit).station st = { s.station st with ejectBegun := true } := by cases st <;> rfl

theorem beginEject_begins {exit : Exit} (hnest : (s.station st).nest = .outgoing)
    (hbegun : (s.station st).ejectBegun = false) (hrun : s.runState ≠ .eStopped)
    (hindex : (s.station st).index = some i) (hexit : (s.station st).ejectExit = some exit) :
    s.beginEject st = (s.ejectStarted st i exit).reportBegin (.entry i) .nowhere := by
  unfold State.beginEject
  rw [if_pos ⟨hnest, hbegun, stopped_eq_false hrun⟩, hindex, hexit]
  rfl

theorem beginEject_waits (h : (s.station st).nest ≠ .outgoing ∨ (s.station st).ejectBegun = true ∨
    s.runState = .eStopped) : s.beginEject st = s := by
  refine if_neg fun ⟨hnest, hbegun, hstopped⟩ => ?_
  rcases h with h | h | h
  · exact h hnest
  · exact Bool.false_ne_true (hbegun.symm.trans h)
  · exact Bool.false_ne_true (hstopped.symm.trans (stopped_eq_true h))

end

end Sys2Proof.Machine
end

