-- ==== Sys2Proof/Proofs/StationResults.lean ====
section
/-! DONE_STROBE, the work limit and EJECT_BEGIN (R153 to R157), to the end of the event. -/

-- Proofs are checked one after another: the whole text, compiled as one, would otherwise start more threads than fit into the
-- check's memory.
set_option Elab.async false

namespace Sys2Proof.Machine

section

variable {s : State} {st : StationId} {i : RosterIndex} {result : BitVec 4} {level : Bool}

/-- A strobe's effect, from the state it leaves before the drain test. -/
theorem effect_strobe {u : State} (h : s.strobe st result level = u) :
    effect (.doneStrobe st result (.strobe level)) s = some u.drainTest := congrArg (fun u : State => some u.drainTest) h

/-! ## Results taken in WORKING (R154, R155) -/

/-- The state in which a working station has latched its result. -/
def State.latched (s : State) (st : StationId) (result : BitVec 4) (level : Bool) : State :=
  s.setStation st ((s.station st).latched result level)

theorem latched_station (s : State) (st : StationId) (result : BitVec 4) (level : Bool) :
    (s.latched st result level).station st = (s.station st).latched result level := station_setStation_self ..

theorem frame_latched (s : State) (st : StationId) (result : BitVec 4) (level : Bool) :
    Frame [.station st] s (s.latched st result level) := frame_setStation s st _

theorem latched_index (hindex : (s.station st).index = some i) :
    ((s.latched st result level).station st).index = some i := by
  rw [latched_station]
  exact hindex

theorem strobe_value {k : Nat} (hstate : (s.station st).state = .working) (hk : result.toNat = k) :
    s.strobe st result level = (s.latched st result level).actOnResult st k := hk ▸ strobe_working hstate

/-- COMPLETE. -/
theorem strobe_completes (hstate : (s.station st).state = .working) (hone : result = 1#4) :
    Gives (.doneStrobe st result (.strobe level)) s fun t =>
      (t.station st).bare = (((s.station st).latched result level).ejecting
        (if st = StationId.stamper then .releaseConveyor else .scrapBin)).bare ∧
        DrainTested s t ∧ Frame [.station st, .runState] s t := by
  have hexit : completeExit st = if st = StationId.stamper then .releaseConveyor else .scrapBin := by cases st <;> rfl
  have heq : s.strobe st result level = (s.latched st result level).actOnResult st 1 :=
    strobe_value hstate (congrArg BitVec.toNat hone)
  rw [← hexit]
  refine station_drained (effect_strobe (heq.trans ?_))
  rw [actOnResult_one, updStation_eq, latched_station, State.latched, setStation_setStation, eject_eq]

/-- The doubtful result. -/
theorem strobe_doubts (hindex : (s.station st).index = some i) (hstate : (s.station st).state = .working)
    (htwo : result = 2#4) : Gives (.doneStrobe st result (.strobe level)) s fun t =>
      (t.station st).bare = (((s.station st).latched result level).ejecting .holdChute).bare ∧
        DoubtReported st i s t ∧ DrainTested s t ∧ Frame [.station st, .entry i, .runState] s t := by
  have hset := frame_latched s st result level
  have hlatched := latched_index (result := result) (level := level) hindex
  have heq : s.strobe st result level = (s.latched st result level).doubted st
      (((s.station st).latched result level).ejecting .holdChute) := by
    refine (strobe_value (k := 2) hstate (congrArg BitVec.toNat htwo)).trans ?_
    rw [actOnResult_two, updStation_eq, stationDoubt_station hlatched, latched_station]
    rfl
  have hdoubt := frame_doubted hlatched (((s.station st).latched result level).ejecting .holdChute)
  have hreport := doubtReported_doubted hlatched (((s.station st).latched result level).ejecting .holdChute)
  obtain ⟨t, hx, hframe, hends⟩ := event_ends (L := [.station st, .entry i, .runState]) (exec_effect (effect_strobe heq))
    ((hset.mono (by simp)).trans ((hdoubt.mono (by simp)).trans ((frame_drainTest _).mono (by simp))))
  refine ⟨t, hx, ?_, hreport.congr (hset.entry_eq (by simp)) ?_, hends.drainTested ?_, hframe⟩
  · rw [hends.drained_station, State.doubted, station_setStation_self]
  · rw [hends.entry, drainTest_entry]
  · rw [hdoubt.runState_eq (by simp), hset.runState_eq (by simp)]

/-- TOOL FAULT, and a result outside 1 to 5. -/
theorem strobe_toolFault {cause : AlertCode} (hindex : (s.station st).index = some i)
    (heq : s.strobe st result level = (s.latched st result level).faultedResult st cause) :
    Gives (.doneStrobe st result (.strobe level)) s fun t =>
      (t.station st).bare = { ((s.station st).latched result level).ejecting .holdChute with
          faultCause := some cause }.bare ∧
        Alerted (stationSource st) cause t ∧ DoubtReported st i s t ∧ DrainTested s t ∧
        Frame [.station st, .entry i, .notices, .alertSeen, .runState] s t := by
  have hset := frame_latched s st result level
  obtain ⟨hstation, halert, hreport, hfault⟩ :=
    faultedResult_leaves (latched_index (result := result) (level := level) hindex) cause
  obtain ⟨t, hx, hframe, hends⟩ := event_ends (L := [.station st, .entry i, .notices, .alertSeen, .runState])
    (exec_effect (effect_strobe heq))
    ((hset.mono (by simp)).trans ((hfault.mono (by simp)).trans ((frame_drainTest _).mono (by simp))))
  refine ⟨t, hx, ?_, hends.alerted halert.drainTest, hreport.congr (hset.entry_eq (by simp)) ?_, hends.drainTested ?_, hframe⟩
  · rw [hends.drained_station, hstation, latched_station]
  · rw [hends.entry, drainTest_entry]
  · rw [hfault.runState_eq (by simp), hset.runState_eq (by simp)]

theorem strobe_tool (hstate : (s.station st).state = .working)
    (h : result = 3#4 ∨ result = 0#4 ∨ 6 ≤ result.toNat) : s.strobe st result level =
      (s.latched st result level).faultedResult st (if result = 3#4 then .toolFault else .protocol) := by
  by_cases hthree : result = 3#4
  · rw [if_pos hthree]
    exact strobe_value hstate (congrArg BitVec.toNat hthree)
  · rw [if_neg hthree]
    exact (strobe_value hstate rfl).trans
      (actOnResult_outside ((h.resolve_left hthree).imp_left fun hzero => congrArg BitVec.toNat hzero))

/-- NO CYLINDER. -/
theorem strobe_bereft (hindex : (s.station st).index = some i) (hstate : (s.station st).state = .working)
    (hfour : result = 4#4) : Gives (.doneStrobe st result (.strobe level)) s fun t =>
      (t.station st).bare = ((s.station st).latched result level).bereft.bare ∧
        Alerted (stationSource st) .noCylinder t ∧
        ((s.entry i).state = .outbound → Closed i .missing .noCylinder s t) ∧ DrainTested s t ∧
        Frame [.station st, .entry i, .notices, .alertSeen, .choices, .runState] s t := by
  have hset := frame_latched s st result level
  have heq := strobe_value (level := level) hstate (congrArg BitVec.toNat hfour)
  have hentry : (s.latched st result level).entry i = s.entry i := hset.entry_eq (by simp)
  obtain ⟨hstation, halert, hclosed, hlost⟩ :=
    bereft_noCylinderResult (latched_index (result := result) (level := level) hindex)
  obtain ⟨t, hx, hframe, hends⟩ := event_ends (L := [.station st, .entry i, .notices, .alertSeen, .choices, .runState])
    (exec_effect (effect_strobe heq))
    ((hset.mono (by simp)).trans (Frame.trans (hlost.mono (by simp)) ((frame_drainTest _).mono (by simp))))
  refine ⟨t, hx, ?_, hends.alerted halert.drainTest, fun hout => ?_, hends.drainTested ?_, hframe⟩
  · exact (hends.drained_station st).trans (hstation.trans (congrArg (fun x : Station => x.bereft.bare) (latched_station ..)))
  · have hlate := (hclosed (by rw [hentry, hout])).before hentry (hset.lineSeconds_eq (by simp))
    exact hends.closed (hlate.of_frame (frame_drainTest _) (by simp) (by simp))
  · exact (hlost.runState_eq (by simp)).trans (hset.runState_eq (by simp))

/-- BAD ORDER the first time. -/
theorem strobe_reoffers (hstate : (s.station st).state = .working) (hfive : result = 5#4)
    (hfirst : (s.station st).reoffer = 0) : Gives (.doneStrobe st result (.strobe level)) s fun t =>
      (t.station st).bare = { (s.station st).latched result level with reoffer := 1, state := .nestLoaded }.bare ∧
        DrainTested s t ∧ Frame [.station st, .runState] s t := by
  have hlatched := latched_station s st result level
  have hagain := badOrder_repeats (s := s.latched st result level) (st := st) (by rw [hlatched]; exact hfirst)
  rw [hlatched, State.latched, setStation_setStation] at hagain
  exact station_drained (effect_strobe ((strobe_value hstate (congrArg BitVec.toNat hfive)).trans hagain))

/-- BAD ORDER once more. -/
theorem strobe_gives_up (hstate : (s.station st).state = .working) (hfive : result = 5#4)
    (hagain : (s.station st).reoffer ≠ 0) : Gives (.doneStrobe st result (.strobe level)) s fun t =>
      (t.station st).bare = { (s.station st).latched result level with
          state := .fault
          faultCause := some .protocol }.bare ∧
        Alerted (stationSource st) .protocol t ∧ DrainTested s t ∧
        Frame [.station st, .notices, .alertSeen, .runState] s t :=
  station_faults (effect_strobe ((strobe_value hstate (congrArg BitVec.toNat hfive)).trans
    (badOrder_faults (by rw [latched_station]; exact hagain))))

/-! ## The work limit and the eject (R153, R157) -/

theorem workLimit_expires (hindex : (s.station st).index = some i) (hstate : (s.station st).state = .working)
    (hdue : s.due (s.station st).limit = true) : Gives (.workLimitExpiry st) s fun t =>
      (t.station st).bare = { (s.station st).ejecting .holdChute with faultCause := some .toolFault }.bare ∧
        Alerted (stationSource st) .toolFault t ∧ DoubtReported st i s t ∧
        Frame [.station st, .entry i, .notices, .alertSeen] s t := by
  obtain ⟨hstation, halert, hreport, hfault⟩ := faultedResult_leaves hindex .toolFault
  obtain ⟨t, hx, hframe, hends⟩ := event_ends (c := .workLimitExpiry st)
    (exec_effect (congrArg some (expireWork_due hstate hdue))) hfault
  exact ⟨t, hx, by rw [hends.station, hstation], hends.alerted halert, hreport.congr rfl (hends.entry i), hframe⟩

theorem eject_begins {exit : Exit} (hindex : (s.station st).index = some i) (hexit : (s.station st).ejectExit = some exit)
    (hnest : (s.station st).nest = .outgoing) (hbegun : (s.station st).ejectBegun = false) (hrun : s.runState ≠ .eStopped) :
    Gives (.ejectBegin st) s fun t =>
      (t.station st).bare = { s.station st with ejectBegun := true }.bare ∧
        t.exits = s.exits ++ [⟨begunTransit s (.entry i) (.station st), exit⟩] ∧
        ((s.entry i).state = .outbound → t.entry i = ((s.entry i).leaving .outbound).edited) ∧
        DrainTested s t ∧ Frame [.station st, .exits, .entry i, .runState] s t := by
  have hstart := frame_ejectStarted s st i exit
  have hentry : (s.ejectStarted st i exit).entry i = s.entry i := hstart.entry_eq (by simp)
  have hreport := frame_reportBegin (s.ejectStarted st i exit) (.entry i) .nowhere
  have hdrain := frame_drainTest ((s.ejectStarted st i exit).reportBegin (.entry i) .nowhere)
  obtain ⟨t, hx, hframe, hends⟩ := event_ends (c := .ejectBegin st) (L := [.station st, .exits, .entry i, .runState])
    (exec_effect (congrArg (fun u : State => some u.drainTest) (beginEject_begins hnest hbegun hrun hindex hexit)))
    ((hstart.mono (by simp)).trans ((hreport.mono (by simp [itemParts])).trans (hdrain.mono (by simp))))
  refine ⟨t, hx, ?_, ?_, fun hout => ?_, hends.drainTested ?_, hframe⟩
  · rw [hends.drained_station, hreport.station_bare_eq (by simp), ejectStarted_station]
  · rw [hends.exits, hdrain.exits_eq (by simp), hreport.exits_eq (by simp)]
    rfl
  · rw [hends.entry, drainTest_entry, reportBegin_entry (by rw [hentry, hout]; rfl), hentry]
    rfl
  · rw [hreport.runState_eq (by simp), hstart.runState_eq (by simp)]

end

/-- Settles O60. -/
theorem stationResults : Obligations.StationResults := by
  refine ⟨fun st result level s => ⟨fun h => station_drained (effect_strobe (strobe_recorded h)),
      fun h => station_faults (effect_strobe (strobe_breach h)),
      fun h => station_faults (effect_strobe (strobe_offering h)), strobe_completes, fun i => strobe_doubts,
      fun i hindex hstate h => strobe_toolFault hindex (strobe_tool hstate h), fun i => strobe_bereft, strobe_reoffers,
      strobe_gives_up⟩,
    fun st result s => station_recorded (c := .doneStrobe st result .off) rfl,
    fun st s => ⟨fun i => workLimit_expires, fun h => event_kept (congrArg some (expireWork_early h)),
      fun i hindex e hexit => eject_begins hindex hexit,
      fun h => eye_ignored (exec_effect (congrArg (fun u : State => some u.drainTest) (beginEject_waits h)))⟩⟩

end Sys2Proof.Machine
end
